-- ==== Sys2Proof/Word.lean ====
section
/-! DEFINITION. The word types of the machine and their plainest arithmetic. -/

namespace Sys2Proof

/-- One element of a V or S register (R11). -/
abbrev Word := BitVec 32
/-- A 64-bit value: an even pair of registers, an address, a control register. -/
abbrev Dword := BitVec 64
/-- A byte of memory (R208). -/
abbrev Byte := BitVec 8
/-- A lane mask: bit i is lane i (R32). -/
abbrev Mask := BitVec 32
/-- A program counter: overlay [39:16], block [15:3], slot [2:0] (R43). -/
abbrev Pc := BitVec 40
/-- A placard or a barrier word (R70, R316). -/
abbrev Qword := BitVec 128

/-- Is lane `i` in the mask? -/
def Mask.has (m : Mask) (i : Nat) : Bool := m.getLsbD i
/-- Every lane. -/
def Mask.all : Mask := BitVec.allOnes 32
/-- The lanes of a mask in ascending order (R8). -/
def Mask.lanes (m : Mask) : List Nat := (List.range 32).filter (Mask.has m)
/-- The mask of lane `i` alone. -/
def Mask.one (i : Nat) : Mask := BitVec.ofNat 32 (2 ^ i)
/-- The mask of a list of lanes. -/
def Mask.ofLanes (l : List Nat) : Mask := l.foldl (fun m i => m ||| Mask.one i) 0#32

namespace Pc
/-- Overlay number of a PC (R43). -/
def ovl (p : Pc) : Nat := (p.extractLsb' 16 24).toNat
/-- Block index of a PC (R43). -/
def blk (p : Pc) : Nat := (p.extractLsb' 3 13).toNat
/-- Slot of a PC (R43). -/
def slot (p : Pc) : Nat := (p.extractLsb' 0 3).toNat
/-- The PC of an overlay, a block and a slot (R43). -/
def mk (o b s : Nat) : Pc := BitVec.ofNat 24 o ++ BitVec.ofNat 13 b ++ BitVec.ofNat 3 s
end Pc

end Sys2Proof
end

