-- ==== Sys2Proof/Config.lean ====
section
/-! DEFINITION. What an implementation fixes, and the free values: constants without a body, of which nothing can be
proved. -/

namespace Sys2Proof

namespace Config

/-- The contents of V register `r`, lane `lane`, of the cohort of number `serial` at its launch (R11): undefined. -/
opaque undefV (serial r lane : Nat) : Word
/-- The lane that %lane and %glane name in uniform form, which has no lane (R29, R31): the spec states no value. -/
opaque uniformLane (pick : Nat) : BitVec 5
/-- The leaf that a translation in a CONT group with differing fields uses: its own entry or the group's first (R358). -/
opaque contFirst (pick : Nat) : Bool
/-- Which of the translations that a stale cache and the tables offer an access uses before a TLBINV (R362). -/
opaque tlbPick (pick : Nat) : Nat
/-- The hit record of a TRACE through an undefined structure (R191): four words, and a fault it may take. -/
opaque undefHit (pick word : Nat) : Word
opaque undefTraceFault (pick : Nat) : BitVec 2
/-- Byte `off` of the structure built from a descriptor and inputs (R191): a function of them alone. -/
opaque bvhByte (desc inputs : List Byte) (off : Nat) : Byte
/-- The rate in ppm at which device time is slewed toward the grandmaster (R281), where it is at most 100. -/
opaque slewPpm (cycle : Nat) : Nat
/-- The record that a job finds for a neighbour beyond its die's halo (R178, R201), which the spec places nowhere. -/
opaque farRecord (key frame x y : Nat) : BitVec 256
/-- The lane of a traversal node's ray in the counter of its stream (R179, R301): a node has no lane. -/
opaque nodeLane (pick : Nat) : BitVec 48
/-- What a failed build leaves at byte `off` (R191): undefined. -/
opaque failedBvhByte (pick off : Nat) : Byte
/-- Private scratch of a hart at entry (R198), its cycle counter at entry, and how many main clocks beyond one an instruction
took before a read of it (R197). -/
opaque hartScratch (pick off : Nat) : Byte
opaque hartCycle (pick : Nat) : Dword
opaque hartStall (pick : Nat) : Nat
/-- A register of a hart at entry, 0 to 31 integer and 32 to 63 floating (R197), for which no value is stated. -/
opaque hartReg (pick n : Nat) : Word
/-- Read `n` of hrand in an evaluation for a curator job's ray, whose stream R179 does not list. -/
opaque hartRand (pick n : Nat) : Word
/-- hpixel of an evaluation for a curator job's ray, which has no lane. -/
opaque hartPixel (pick : Nat) : Word
/-- Which of the remaining primitives a traversal tests next (R195). -/
opaque rayOrder (pick : Nat) : Nat
/-- Is the intersection program of a box run that the ray does not meet (R194: box tests are conservative)? -/
opaque boxEval (pick : Nat) : Bool
/-- FRONT of a hit on a box, for which R194 states no face. -/
opaque boxFront (pick : Nat) : Bool
/-- Does a ray through a structure of more than 2^23 primitives meet the node bound of R191? -/
opaque nodeBound (pick : Nat) : Bool
/-- What a remote module answers to a read or an atomic (R278). -/
opaque remoteByte (pick k : Nat) : Byte
/-- Bytes of a re-formatted tile for which the spec gives no rule (R87, log 65). -/
opaque reformatByte (pick k : Nat) : Byte
/-- Which of the units that precede the failing one a failing copy writes (R265). -/
opaque copyKeeps (pick k : Nat) : Bool
/-- Does unit k of a copy whose source and destination overlap read a byte after the copy's earlier writes (R260)? -/
opaque copyLate (pick k : Nat) : Bool
/-- A part of a graph batch in an ordinary launch (R303): which records form it. -/
opaque batchPick (pick : Nat) : Nat
/-- A byte of a scratchpad allocation at its start (R343; a launch's, for which no content is stated). -/
opaque generatorScratch (pick off : Nat) : Byte
/-- The importance of a light-tree node at a point where a line of R188 has no exact value: FP32, of the node's 32 bytes and
the point's coordinates. -/
opaque importance (node : List Byte) (p : List Word) : Word
/-- The stepping, firmware and microcode versions and the training signature (R404). -/
opaque stepping : BitVec 16
opaque fwver : Dword
opaque ucver : Dword
opaque trainsig : Word
/-- Byte `k` of a provenance field that no launch or no readable image gives (R404). -/
opaque provByte (pick k : Nat) : Byte

end Config

end Sys2Proof
end

