-- ==== Sys2Proof/Machine/Bits.lean ====
section
/-! DEFINITION. Bytes, byte order, sign extension, checks and the counter-based generator. -/

namespace Sys2Proof.Machine

/-- The number that little-endian bytes hold (R54). -/
def leNat : List Byte → Nat
  | [] => 0
  | b :: l => b.toNat + 256 * leNat l

/-- `n` little-endian bytes of a number (R54). -/
def leBytes : Nat → Nat → List Byte
  | 0, _ => []
  | n + 1, x => BitVec.ofNat 8 x :: leBytes n (x / 256)

/-- Bits [hi:lo] of a number (R55). -/
def nbits (x hi lo : Nat) : Nat := x / 2 ^ lo % 2 ^ (hi + 1 - lo)

/-- Is bit `n` of a number set? -/
def nbit (x n : Nat) : Bool := x.testBit n

/-- The signed value of the low `w` bits of a number. -/
def sextInt (w x : Nat) : Int :=
  let y := x % 2 ^ w
  if 2 * y < 2 ^ w then (y : Int) else (y : Int) - 2 ^ w

/-- An integer as a number modulo 2^w. -/
def wrapNat (w : Nat) (x : Int) : Nat := (x % (2 ^ w : Int)).toNat

/-- Little-endian field of `n` bytes at offset `o` of a byte list. -/
def fld (bs : List Byte) (o n : Nat) : Nat := leNat ((bs.drop o).take n)

/-- Are all the bytes zero? -/
def allZero (bs : List Byte) : Bool := bs.all fun b => b == 0#8

/-- Round up to a multiple. -/
def alignUp (x a : Nat) : Nat := (x + a - 1) / a * a
/-- Ceiling of a quotient. -/
def ceilDiv (x a : Nat) : Nat := (x + a - 1) / a

/-- floor(log2 n); 0 for 0. -/
def ilog2 (n : Nat) : Nat := Nat.log2 n

/-- Set bits of the low `w` bits. -/
def popCount : Nat → Nat → Nat
  | 0, _ => 0
  | w + 1, x => x % 2 + popCount w (x / 2)

/-- Trailing zeros among the low `w` bits; `w` for zero. -/
def trailing : Nat → Nat → Nat
  | 0, _ => 0
  | w + 1, x => if x % 2 == 1 then 0 else 1 + trailing w (x / 2)

/-- Bit order of the low `w` bits reversed. -/
def bitRev : Nat → Nat → Nat
  | 0, _ => 0
  | w + 1, x => x % 2 * 2 ^ w + bitRev w (x / 2)

/-! ## Checks (R41, R76, R404) -/

def crcShift8 (poly : Nat) : Nat → Nat → Nat
  | 0, c => c
  | n + 1, c => crcShift8 poly n (if c / 128 % 2 == 1 then (c * 2 % 256) ^^^ poly else c * 2 % 256)

/-- CRC-8 of R41 over bytes in address order. -/
def crc8 (bs : List Byte) : Nat := bs.foldl (fun c b => crcShift8 0x07 8 (c ^^^ b.toNat)) 0

def crcShift16 : Nat → Nat → Nat
  | 0, c => c
  | n + 1, c => crcShift16 n (if c / 32768 % 2 == 1 then (c * 2 % 65536) ^^^ 0x1021 else c * 2 % 65536)

/-- CRC-16 of R76. -/
def crc16 (bs : List Byte) : Nat := bs.foldl (fun c b => crcShift16 8 (c ^^^ (b.toNat * 256))) 0xFFFF

def crcShift32 : Nat → Nat → Nat
  | 0, c => c
  | n + 1, c => crcShift32 n (if c % 2 == 1 then (c / 2) ^^^ 0xEDB88320 else c / 2)

/-- CRC-32 of R404. -/
def crc32 (bs : List Byte) : Nat :=
  (bs.foldl (fun c b => crcShift32 8 (c ^^^ b.toNat)) 0xFFFFFFFF) ^^^ 0xFFFFFFFF

/-! ## Philox4x32-10 (R56) -/

/-- One round on (x0, x1, x2, x3) with the round's keys. -/
def philoxRound (k0 k1 x0 x1 x2 x3 : Nat) : Nat × Nat × Nat × Nat :=
  let p0 := 0xD2511F53 * x0
  let p1 := 0xCD9E8D57 * x2
  ((p1 / 2 ^ 32) ^^^ x1 ^^^ k0, p1 % 2 ^ 32, (p0 / 2 ^ 32) ^^^ x3 ^^^ k1, p0 % 2 ^ 32)

def philoxRun : Nat → Nat → Nat → Nat × Nat × Nat × Nat → Nat × Nat × Nat × Nat
  | 0, _, _, x => x
  | n + 1, k0, k1, x =>
    philoxRun n ((k0 + 0x9E3779B9) % 2 ^ 32) ((k1 + 0xBB67AE85) % 2 ^ 32) (philoxRound k0 k1 x.1 x.2.1 x.2.2.1 x.2.2.2)

/-- The four words x[0] to x[3] of a call. -/
def philox (key : Nat) (c0 c1 c2 c3 : Nat) : List Word :=
  let (a, b, c, d) := philoxRun 10 (key % 2 ^ 32) (key / 2 ^ 32 % 2 ^ 32) (c0, c1, c2, c3)
  [BitVec.ofNat 32 a, BitVec.ofNat 32 b, BitVec.ofNat 32 c, BitVec.ofNat 32 d]

/-- The check value of R41. -/
theorem crc8_check : crc8 [0x31, 0x32, 0x33, 0x34, 0x35, 0x36, 0x37, 0x38, 0x39] = 0xF4 := by decide +kernel
/-- The check value of R76. -/
theorem crc16_check : crc16 [0x31, 0x32, 0x33, 0x34, 0x35, 0x36, 0x37, 0x38, 0x39] = 0x29B1 := by decide +kernel

end Sys2Proof.Machine
end

