-- ==== Sys2Proof/Machine/Memory.lean ====
section
/-! DEFINITION. Memory as cells by physical address in one canonical form. An unlisted address reads as zero: the contents
at power-on are the model's choice (log 7), and no cell holds zero. -/

namespace Sys2Proof.Machine

namespace Memory

/-- One byte. -/
def read (m : List Host.Cell) (a : Nat) : Byte :=
  match m with
  | [] => 0#8
  | (j, x) :: l => if a == j then x else read l a

/-- Put a nonzero byte. -/
def put (m : List Host.Cell) (a : Nat) (x : Byte) : List Host.Cell :=
  match m with
  | [] => [(a, x)]
  | (j, y) :: l => if a < j then (a, x) :: (j, y) :: l else if a == j then (a, x) :: l else (j, y) :: put l a x

/-- Remove a byte's entry. -/
def del (m : List Host.Cell) (a : Nat) : List Host.Cell := m.filter fun e => e.1 != a

/-- Write one byte; a zero byte leaves no entry. -/
def write (m : List Host.Cell) (a : Nat) (x : Byte) : List Host.Cell :=
  if x == 0#8 then del m a else put m a x

/-- The bytes at `a`, `n` of them. -/
def bytes (m : List Host.Cell) (a : Nat) : Nat → List Byte
  | 0 => []
  | n + 1 => read m a :: bytes m (a + 1) n

/-- Write bytes at rising addresses. -/
def store (m : List Host.Cell) (a : Nat) : List Byte → List Host.Cell
  | [] => m
  | b :: l => store (write m a b) (a + 1) l

/-- Addresses rise from `lo` and no entry is zero. -/
def wfFrom (lo : Nat) (m : List Host.Cell) : Bool :=
  match m with
  | [] => true
  | (j, x) :: l => lo ≤ j && x != 0#8 && wfFrom (j + 1) l

/-- The canonical form. -/
def wf (m : List Host.Cell) : Bool := wfFrom 0 m

end Memory

end Sys2Proof.Machine
end

