-- ==== Sys2Proof/Machine/Maps.lean ====
section
/-! DEFINITION. Finite maps as sorted lists of keys and values, in one canonical form: keys strictly rise, and no entry
holds the default value. Equal maps are equal lists. -/

namespace Sys2Proof.Machine

/-- A finite map from numbers. -/
abbrev Map (α : Type) := List (Nat × α)

/-- The value at a key, or the default. -/
def Map.get {α : Type} (m : Map α) (k : Nat) (d : α) : α :=
  match m with
  | [] => d
  | (j, x) :: l => if k == j then x else Map.get l k d

/-- Put a value at a key, without looking at the default. -/
def Map.put {α : Type} (m : Map α) (k : Nat) (x : α) : Map α :=
  match m with
  | [] => [(k, x)]
  | (j, y) :: l => if k < j then (k, x) :: (j, y) :: l else if k == j then (k, x) :: l else (j, y) :: Map.put l k x

/-- Remove a key. -/
def Map.del {α : Type} (m : Map α) (k : Nat) : Map α := m.filter fun e => e.1 != k

/-- Set a key; the default value leaves no entry. -/
def Map.set {α : Type} [DecidableEq α] (m : Map α) (k : Nat) (x d : α) : Map α :=
  if x = d then m.del k else m.put k x

/-- Keys strictly rise from `lo`, and no entry holds a value that `bad` names. -/
def Map.wfFrom {α : Type} (bad : α → Bool) (lo : Nat) (m : Map α) : Bool :=
  match m with
  | [] => true
  | (j, x) :: l => lo ≤ j && !bad x && Map.wfFrom bad (j + 1) l

/-- The canonical form. -/
def Map.wf {α : Type} [DecidableEq α] (m : Map α) (d : α) : Bool := Map.wfFrom (fun x => x == d) 0 m

/-- The n-th element of a list, or the default. -/
def nth {α : Type} (l : List α) (n : Nat) (d : α) : α := (l[n]?).getD d

/-- Replace the n-th element of a list. -/
def setNth {α : Type} (l : List α) (n : Nat) (x : α) : List α := l.set n x

/-- Replace the first element that satisfies a test. -/
def replaceFirst {α : Type} (f : α → Bool) (x : α) (l : List α) : List α :=
  match l with
  | [] => []
  | y :: t => if f y then x :: t else y :: replaceFirst f x t

end Sys2Proof.Machine
end

