-- ==== Sys2Proof/Syntax.lean ====
section
/-! DEFINITION. The instructions and events of the opcode table as syntax: one constructor per row. Operand forms follow
R25 to R34; the events that are no instruction words (engine steps, host actions, module events) carry what their rules
leave to the outside: which unit, which request, what the host or another module sends. -/

namespace Sys2Proof

/-- An operand as its field names it (R27 to R29); a literal carries its IMM word (R30). -/
inductive Opd where
  | v (n : BitVec 8)
  | s (n : BitVec 7)
  /-- the special of index 0x80 + n -/
  | sp (n : BitVec 7)
  | imm (x : BitVec 8)
  | p (n : BitVec 3)
  | q (n : BitVec 3)
  | pl (n : BitVec 4)
  | z (n : BitVec 4)
  | lit (x : Word)
  /-- the zero operand, index 0xFF (R28) -/
  | zr
  /-- the zero field 0x000 of an operand that the form leaves out (R47) -/
  | none
deriving DecidableEq, Repr

/-- TYPE codes of R34. -/
inductive Ty where
  | dflt | u8 | s8 | u16 | s16 | u32 | s32 | u64 | s64 | f16 | bf16 | f32 | f64 | b128
deriving DecidableEq, Repr

/-- RND codes of R34. -/
inductive Rnd where
  | rne | rz | ru | rd
deriving DecidableEq, Repr

/-- SCOPE codes of R34, narrow to wide. -/
inductive Scope where
  | coh | core | quad | die | dev | fab | sys
deriving DecidableEq, Repr

/-- ORDER codes of R34. -/
inductive Order where
  | rlx | acq | rel | ar
deriving DecidableEq, Repr

/-- CACHE codes of R34. -/
inductive Cache where
  | dflt | nl1 | evf | keep
deriving DecidableEq, Repr

/-- Courier spaces (R258) and barrier spaces (R318). -/
inductive Space where
  | glob | own | quad | map
deriving DecidableEq, Repr

/-- Integer comparisons of ISETP (R46). -/
inductive ICmp where
  | eq | ne | lt | le | gt | ge
deriving DecidableEq, Repr

/-- Floating comparisons of FSETP and DSETP (R112). -/
inductive FCmp where
  | eq | ne | lt | le | gt | ge | num | nan
deriving DecidableEq, Repr

/-- SHFL selectors (R124). -/
inductive ShflOp where
  | idx | rot | rev | xor
deriving DecidableEq, Repr

/-- VOTE forms (R126). -/
inductive VoteOp where
  | all | any | uni
deriving DecidableEq, Repr

/-- REDUX and PREFIX folds (R128). -/
inductive FoldOp where
  | add | min | max | and | or | xor
deriving DecidableEq, Repr

/-- LANEMASK forms (R130). -/
inductive LmOp where
  | eq | lt | le | gt | ge
deriving DecidableEq, Repr

/-- Atomic operations (R249). -/
inductive AtomOp where
  | add | sub | min | max | and | or | xor | xchg | cas | fadd | fmin | fmax | fxadd
deriving DecidableEq, Repr

/-- The guard of R32. -/
structure Guard where
  neg : Bool
  idx : BitVec 3
deriving DecidableEq, Repr

/-- The SCHED field (R25, R35 to R39). -/
structure Sched where
  sw : Bool
  fwd : BitVec 2
  stall : BitVec 3
deriving DecidableEq, Repr

/-- What every instruction word carries beside its operation. -/
structure Hdr where
  g : Guard
  sc : Sched
deriving DecidableEq, Repr

/-- Arithmetic MOD layout (R33): `x` is MOD[11:8]. -/
structure AMod where
  x : BitVec 4
  ftz : Bool
  sat : Bool
  rnd : Rnd
  ty : Ty
deriving DecidableEq, Repr

/-- Memory MOD layout (R33): `x` is MOD[11]. -/
structure MMod where
  x : Bool
  cache : Cache
  order : Order
  scope : Scope
  ty : Ty
deriving DecidableEq, Repr

/-- Courier MOD layout (R258) but for its per-entry fields. -/
structure CMod where
  dsp : Space
  ssp : Space
  scope : Scope
deriving DecidableEq, Repr

/-- Barrier MOD layout (R318) but for MOD[11]. -/
structure BMod where
  space : Space
  scope : Scope
deriving DecidableEq, Repr

/-- Control word of the converting instructions (R118): formats, scale block size and MOD. -/
structure CvtMod where
  sf : BitVec 5
  df : BitVec 5
  b16 : Bool
  ftz : Bool
  sat : Bool
  rnd : Rnd
deriving DecidableEq, Repr

/-- Where an uncorrectable error is found (R401). -/
inductive ErrSite where
  | pipeline (cohort : Nat)
  | l1Clean (core : Nat) (line : Nat)
  | register (cohort : Nat) (cls : Nat) (idx : Nat)
  | l1Dirty (core : Nat) (line : Nat)
  | scratch (pa : Nat)
  | home (pa : Nat)
  | istore (core : Nat) (slot : Nat) (byte : Nat)
  | accum (quad : Nat) (tile : Nat) (row : Nat)
  | passData (quad : Nat)
  | reservoir (plane : Bool) (x : Nat) (y : Nat)
  | hart (ray : Nat)
  | shared (partitions : List Nat)
deriving DecidableEq, Repr

/-- What an evaluation of an embedded hart is given (R198). -/
structure EvalReq where
  part : Nat
  asid : Nat
  /-- 0 curator target, 1 any-hit, 2 intersection -/
  kind : Nat
  callable : Nat
  pixel : Word
  slot : Word
  prim : Word
  key : Dword
  c3 : Word
  c2 : Word
  c1hi : Nat
  c1lo : Nat
  c0 : Word
  input : List Word
deriving DecidableEq, Repr

/-- A PTP message: the port at which it arrives, its domain, and the offset that its exchange gives (R281). -/
structure PtpMsg where
  port : Nat
  domain : Nat
  offset : Int
deriving DecidableEq, Repr

/-- Round and key of a held update that comes from another module (R253, R278): the launch by its local number, round,
%glane, SEQ. -/
structure RemoteKey where
  launch : Nat
  round : Nat
  glane : Nat
  seq : Nat
deriving DecidableEq, Repr

/-- One constructor per row of the opcode table. -/
inductive Instr where
  -- control (R308)
  | bra (h : Hdr) (off : Word)
  | brx (h : Hdr) (a : Opd)
  | join (h : Hdr) (off : Word)
  | callRel (h : Hdr) (d : Opd) (off : Word)
  | callInd (h : Hdr) (d a : Opd)
  | ret (h : Hdr) (a : Opd)
  | exit (h : Hdr)
  | nop (h : Hdr)
  | yield (h : Hdr)
  | sleep (h : Hdr) (a : Opd)
  | timewait (h : Hdr) (a : Opd)
  | parkExpiry (cohort : Nat)
  | idem (h : Hdr)
  | idemClose (h : Hdr)
  -- integer, bit and address (R97)
  | iadd (h : Hdr) (m : AMod) (d a b : Opd)
  | isub (h : Hdr) (m : AMod) (d a b : Opd)
  | imul (h : Hdr) (m : AMod) (d a b : Opd)
  | imulh (h : Hdr) (m : AMod) (d a b : Opd)
  | imad (h : Hdr) (m : AMod) (d a b c : Opd)
  | idiv (h : Hdr) (m : AMod) (d a b : Opd)
  | irem (h : Hdr) (m : AMod) (d a b : Opd)
  | imin (h : Hdr) (m : AMod) (d a b : Opd)
  | imax (h : Hdr) (m : AMod) (d a b : Opd)
  | iabs (h : Hdr) (m : AMod) (d a : Opd)
  | ineg (h : Hdr) (m : AMod) (d a : Opd)
  | and (h : Hdr) (m : AMod) (d a b : Opd)
  | or (h : Hdr) (m : AMod) (d a b : Opd)
  | xor (h : Hdr) (m : AMod) (d a b : Opd)
  | not (h : Hdr) (m : AMod) (d a : Opd)
  | andn (h : Hdr) (m : AMod) (d a b : Opd)
  | shl (h : Hdr) (m : AMod) (d a b : Opd)
  | shr (h : Hdr) (m : AMod) (d a b : Opd)
  | sar (h : Hdr) (m : AMod) (d a b : Opd)
  | rol (h : Hdr) (m : AMod) (d a b : Opd)
  | ror (h : Hdr) (m : AMod) (d a b : Opd)
  | bfe (h : Hdr) (m : AMod) (d a b : Opd)
  | bfi (h : Hdr) (m : AMod) (d a b c : Opd)
  | popc (h : Hdr) (m : AMod) (d a : Opd)
  | clz (h : Hdr) (m : AMod) (d a : Opd)
  | ctz (h : Hdr) (m : AMod) (d a : Opd)
  | brev (h : Hdr) (m : AMod) (d a : Opd)
  | byteperm (h : Hdr) (m : AMod) (d a b c : Opd)
  | isetp (h : Hdr) (m : AMod) (cmp : ICmp) (d a b : Opd)
  | sel (h : Hdr) (m : AMod) (d a b c : Opd)
  | mov (h : Hdr) (m : AMod) (d a : Opd)
  | movi (h : Hdr) (m : AMod) (d : Opd) (x : Word)
  | lea (h : Hdr) (m : AMod) (d a b : Opd)
  | iadd64 (h : Hdr) (m : AMod) (d a b : Opd)
  | imad64 (h : Hdr) (m : AMod) (d a b c : Opd)
  -- floating point (R109, R116, R117)
  | fadd (h : Hdr) (m : AMod) (d a b : Opd)
  | fsub (h : Hdr) (m : AMod) (d a b : Opd)
  | fmul (h : Hdr) (m : AMod) (d a b : Opd)
  | ffma (h : Hdr) (m : AMod) (d a b c : Opd)
  | fmin (h : Hdr) (m : AMod) (d a b : Opd)
  | fmax (h : Hdr) (m : AMod) (d a b : Opd)
  | fsetp (h : Hdr) (m : AMod) (cmp : FCmp) (d a b : Opd)
  | fclass (h : Hdr) (m : AMod) (d a : Opd)
  | frcp (h : Hdr) (m : AMod) (d a : Opd)
  | frsq (h : Hdr) (m : AMod) (d a : Opd)
  | fsqrt (h : Hdr) (m : AMod) (d a : Opd)
  | fdiv (h : Hdr) (m : AMod) (d a b : Opd)
  | fexp2 (h : Hdr) (m : AMod) (d a : Opd)
  | flog2 (h : Hdr) (m : AMod) (d a : Opd)
  | fsin (h : Hdr) (m : AMod) (d a : Opd)
  | fcos (h : Hdr) (m : AMod) (d a : Opd)
  | frnd (h : Hdr) (m : AMod) (d a : Opd)
  | dadd (h : Hdr) (m : AMod) (d a b : Opd)
  | dmul (h : Hdr) (m : AMod) (d a b : Opd)
  | dfma (h : Hdr) (m : AMod) (d a b c : Opd)
  | dsetp (h : Hdr) (m : AMod) (cmp : FCmp) (d a b : Opd)
  | hfma2 (h : Hdr) (m : AMod) (d a b c : Opd)
  | hadd2 (h : Hdr) (m : AMod) (d a b : Opd)
  | hmul2 (h : Hdr) (m : AMod) (d a b : Opd)
  -- conversions (R118)
  | cvt (h : Hdr) (m : CvtMod) (d a : Opd)
  | cvtsr (h : Hdr) (m : CvtMod) (d a b : Opd)
  | cvtpk (h : Hdr) (m : CvtMod) (d a b : Opd)
  | cvtup (h : Hdr) (m : CvtMod) (d a b : Opd)
  -- lane instructions (R123)
  | shfl (h : Hdr) (op : ShflOp) (seg : BitVec 3) (ty : Ty) (d a b c : Opd)
  | ballot (h : Hdr) (d a : Opd)
  | vote (h : Hdr) (op : VoteOp) (ty : Ty) (d a : Opd)
  | matchL (h : Hdr) (all : Bool) (ty : Ty) (d a : Opd)
  | redux (h : Hdr) (op : FoldOp) (ty : Ty) (d a : Opd)
  | prefixL (h : Hdr) (op : FoldOp) (excl : Bool) (ty : Ty) (d a : Opd)
  | xchgb (h : Hdr) (xs : BitVec 3) (d a b : Opd)
  | lanemask (h : Hdr) (op : LmOp) (d : Opd)
  | reorder (h : Hdr) (strict : Bool) (d a : Opd)
  -- memory (R268)
  | ld (h : Hdr) (m : MMod) (d a : Opd) (off : Word)
  | st (h : Hdr) (m : MMod) (a b : Opd) (off : Word)
  | lds (h : Hdr) (m : MMod) (d a : Opd) (off : Word)
  | sts (h : Hdr) (m : MMod) (a b : Opd) (off : Word)
  | ldq (h : Hdr) (m : MMod) (d a : Opd) (off : Word)
  | stq (h : Hdr) (m : MMod) (a b : Opd) (off : Word)
  | ldsc (h : Hdr) (m : MMod) (d a : Opd) (off : Word)
  | tld (h : Hdr) (m : MMod) (d a b c : Opd)
  | tst (h : Hdr) (m : MMod) (a b c : Opd)
  | texf (h : Hdr) (cache : Cache) (d a b : Opd)
  | prefetch (h : Hdr) (l2 : Bool) (a : Opd) (off : Word)
  | cacheopWb (h : Hdr) (a : Opd) (off : Word)
  | cacheopInv (h : Hdr) (a : Opd) (off : Word)
  | cacheopWbinv (h : Hdr) (a : Opd) (off : Word)
  -- atomics, fences, rounds (R249, R257, R256)
  | atom (h : Hdr) (m : MMod) (op : AtomOp) (d a b c : Opd)
  | red (h : Hdr) (m : MMod) (op : AtomOp) (a b : Opd)
  | atoms (h : Hdr) (m : MMod) (op : AtomOp) (d a b c : Opd)
  | atomq (h : Hdr) (m : MMod) (op : AtomOp) (d a b c : Opd)
  | fence (h : Hdr) (order : Order) (scope : Scope)
  | fenceSc (h : Hdr) (scope : Scope)
  | heartbeatTick (fabric : Bool)
  | drclose (h : Hdr) (scope : Scope) (d a : Opd)
  -- courier (R258)
  | cpy (h : Hdr) (m : CMod) (d a b : Opd)
  | cpyTile (h : Hdr) (m : CMod) (d a : Opd)
  | cpyt (h : Hdr) (m : CMod) (d a : Opd)
  | cpytScat (h : Hdr) (m : CMod) (d a : Opd)
  | cpyg (h : Hdr) (m : CMod) (esz : BitVec 4) (d a b : Opd)
  | cpyc (h : Hdr) (scope : Scope) (a : Opd)
  | cseal (h : Hdr)
  | cwait (h : Hdr) (d a : Opd)
  | cquery (h : Hdr) (clr : Bool) (d : Opd)
  | courierTransfer (copy : Nat)
  | chainRecord (copy : Nat)
  -- placards and matrix (R154)
  | plset (h : Hdr) (field : BitVec 4) (d a b : Opd)
  | plget (h : Hdr) (field : BitVec 4) (d a : Opd)
  | plchk (h : Hdr) (trap reg : Bool) (d a : Opd)
  | plinfer (h : Hdr) (sum : Bool) (d a b : Opd)
  | mma (h : Hdr) (d a b c : Opd)
  | mmasp (h : Hdr) (d a b c : Opd)
  | passGrant (quad : Nat)
  | passExecute (quad : Nat)
  | budgetRefill
  | zclr (h : Hdr) (d : Opd)
  | zanchor (h : Hdr) (pin : Bool) (d a : Opd)
  | zread (h : Hdr) (sat : Bool) (d a b c : Opd)
  | zwrite (h : Hdr) (d a b c : Opd)
  | zst (h : Hdr) (spad sat : Bool) (a b c : Opd)
  | zld (h : Hdr) (spad : Bool) (d a : Opd)
  | zadd (h : Hdr) (spad : Bool) (d a : Opd)
  | zchk (h : Hdr) (quiet : Bool) (d a : Opd)
  | mwait (h : Hdr) (a : Opd)
  | cbload (h : Hdr) (a b : Opd)
  | tcvt (h : Hdr) (m : AMod) (d a b c : Opd)
  -- reservoirs, light, rays, curator (R207)
  | rng (h : Hdr) (x4 : Bool) (d a b : Opd)
  | rsvld (h : Hdr) (m : MMod) (d a : Opd)
  | rsvst (h : Hdr) (m : MMod) (a b : Opd)
  | rsvupd (h : Hdr) (d a b : Opd)
  | rsvmrg (h : Hdr) (d a b c : Opd)
  | rsvnorm (h : Hdr) (d : Opd)
  | rsvcap (h : Hdr) (d a : Opd)
  | ltsample (h : Hdr) (d a b c : Opd)
  | trace (h : Hdr) (flags : BitVec 5) (d a b c : Opd)
  | rayTraversal (ray : Nat)
  | hartEvaluation (rq : EvalReq)
  | rhit (h : Hdr) (d : Opd)
  | rwait (h : Hdr)
  | curate (h : Hdr) (a : Opd)
  | resampleJob (job : Nat)
  | haloSyncJob (job : Nat)
  | curwait (h : Hdr) (a : Opd)
  | bvhbuild (h : Hdr) (a : Opd)
  | buildJob (job : Nat)
  | bvhsize (h : Hdr) (d a b : Opd)
  -- barriers (R318)
  | barinit (h : Hdr) (m : BMod) (det : Bool) (a b : Opd)
  | bararv (h : Hdr) (m : BMod) (d a b c : Opd)
  | barwait (h : Hdr) (m : BMod) (d a b : Opd)
  | barsync (h : Hdr) (m : BMod) (d a b c : Opd)
  | barinv (h : Hdr) (m : BMod) (a : Opd)
  | barinvFree (h : Hdr) (m : BMod) (a : Opd)
  | barqry (h : Hdr) (m : BMod) (d a : Opd)
  -- overlays (R338)
  | ovld (h : Hdr) (d a : Opd)
  | overlayLoad (core slot : Nat)
  | ovwait (h : Hdr) (d a : Opd)
  | ovpin (h : Hdr) (d a : Opd)
  | ovunpin (h : Hdr) (d a : Opd)
  | ovevict (h : Hdr) (d a : Opd)
  | callo (h : Hdr) (d a b : Opd)
  | overlayTransferRetry (cohort : Nat)
  -- work graphs (R353)
  | emit (h : Hdr) (d b : Opd)
  | emitQ (h : Hdr) (d a b : Opd)
  | reserve (h : Hdr) (d b : Opd)
  | reserveDrop (h : Hdr) (b : Opd)
  | nodeend (h : Hdr)
  | invocationLaunch (launch node core slotIx : Nat)
  | fixedNodeConsume (launch node : Nat)
  -- fill (R353)
  | filldone (h : Hdr)
  | fillfail (h : Hdr) (a : Opd)
  | fillqry (h : Hdr) (acq : Bool) (d a : Opd)
  | fillRequest (part asid : Nat) (va : Dword)
  | generatorStart (fill core slotIx : Nat)
  | zeroFill (fill : Nat)
  | lz4Fill (fill : Nat)
  -- control registers (R385)
  | csrr (h : Hdr) (d a : Opd)
  | csrw (h : Hdr) (a b : Opd)
  | drroundWrite (x : Word)
  | rsvsurfWrite (part : Nat) (x : Dword)
  -- traps (R412)
  | trap (h : Hdr) (a : Opd)
  | brk (h : Hdr)
  | trapretReplay (h : Hdr)
  | trapretSkip (h : Hdr)
  | trapretTo (h : Hdr) (a : Opd)
  | trapretKill (h : Hdr)
  | halt (h : Hdr)
  | haltLaunch (h : Hdr)
  -- translation (R385)
  | tlbinvAll (h : Hdr)
  | tlbinvAsid (h : Hdr) (b : Opd)
  | tlbinvPage (h : Hdr) (a b : Opd)
  | tlbinvRange (h : Hdr) (a b c : Opd)
  | splinter (h : Hdr) (d a : Opd)
  | migrate (h : Hdr) (d a : Opd)
  | fillevict (h : Hdr) (d a b c : Opd)
  | openwin (h : Hdr) (d a b : Opd)
  | closewin (h : Hdr) (d : Opd)
  -- provenance, log, time (R412)
  | provchk (h : Hdr) (d a b : Opd)
  | provchkStore (h : Hdr) (d a b : Opd)
  | dlogq (h : Hdr) (d : Opd)
  | dlogqWait (h : Hdr) (d : Opd)
  | time (h : Hdr) (d : Opd)
  | timeStep (h : Hdr) (a : Opd)
  -- events: deferred stores (R397)
  | deferredStoreRetry (core : Nat)
  | deferredStoreTimeout (core : Nat)
  -- events: the docent (R363)
  | docentSweep (part : Nat)
  -- events: registers through BAR0
  | pwrctlWrite (x : Dword)
  | carvectlWrite (x : Dword)
  | cqdiscWrite (part : Nat) (x : Dword)
  | registerWrite (off : Nat) (x : Dword)
  -- events: host (R269 to R277)
  | doorbell (off : Nat) (bytes : List Byte)
  | hostPostedWrite (off : Nat) (bytes : List Byte)
  | hopPieceAck (seq : Nat) (die : Nat)
  | hostRead (off n : Nat)
  | queueArbitration (part : Nat)
  | launchEntry (q idx : Nat)
  | waitEntry (q idx : Nat)
  | signalEntry (q idx : Nat)
  | nopEntry (q idx : Nat)
  | entryCompletion (q idx : Nat)
  -- events: dispatch (R293, R294)
  | unitGrant (launch die count : Nat)
  | leaderElection (launch : Nat)
  | unitPlacement (launch unit core : Nat)
  | startTimeReached (launch : Nat)
  | priorityPreemption (part : Nat)
  | driverSaveRequest (byLaunch : Bool) (n : Nat)
  | contextRestore (saved core : Nat)
  -- events: conservation queue and held updates
  | parkedReplay (n : Nat)
  | heldUpdateAccept (n : Nat)
  | parkedRequest (part : Nat) (pa : Nat) (kind : Nat)
  | conservationTimeout (n : Nat)
  -- events: start-up (R408, R409), the failure of a die (R293)
  | coldStart (failed : List Nat)
  | warmStart (failed : List Nat) (standbyKept fwSame : Bool)
  | dieFailure (die : Nat)
  -- events: power and clock (R20 to R24)
  | powerGovernorMeasure (watts : Nat) (refill : Nat)
  | thermalStep (celsius : Nat)
  | thermalMachineCheck
  | powerMachineCheck
  -- events: heat (R363)
  | heatRaise (part asid : Nat) (va : Dword) (rd wr : Bool)
  -- events: errors (R401, R403, R411)
  | uncorrectableError (site : ErrSite)
  | eccCorrection (part structCode pa : Nat)
  | timingReplay (part : Nat)
  | partitionQuiesce (part : Nat)
  -- events: Zwiov Link and time (R278 to R281)
  | zwiovRd (src pa n : Nat)
  | zwiovWr (src pa : Nat) (bytes : List Byte)
  | zwiovAt (src pa : Nat) (op : AtomOp) (ty : Ty) (key : Option RemoteKey) (b c : Qword)
  | zwiovRed (src pa : Nat) (op : AtomOp) (ty : Ty) (key : Option RemoteKey) (b : Qword)
  | zwiovCourier (src tag pa n : Nat) (bytes : Option (List Byte))
  | ptpMessage (msg : PtpMsg)
  | flitReplay (port : Nat)
  | pathFailure (module : Nat)
  -- events: margins and the pulse (R281, R410)
  | marginApply (proposed : Nat)
  | ppsPulse (offset : Int)
deriving DecidableEq, Repr

end Sys2Proof
end

