-- ==== Sys2Proof/Machine/State.lean ====
section
/-! DEFINITION. The machine's state as plain data, its faults and refusals, and the state after reset. -/

namespace Sys2Proof.Machine

/-! ## Cohorts -/

/-- A part held by a PC slot (R298): RUN or WAIT, its PC and its lanes. `off`: it ran past a block that carries LAST, so
its next fetch raises branch-range (R44). -/
structure PcPart where
  run : Bool
  pc : Pc
  mask : Mask
  off : Bool := false
deriving DecidableEq, Repr

/-- One register or predicate write of a result (R36). `v` names a register and a lane. -/
inductive Wr where
  | v (r lane : Nat) (x : Word)
  | s (r : Nat) (x : Word)
  | p (r : Nat) (lanes vals : Mask)
  | q (r : Nat) (x : Bool)
  | pl (r : Nat) (x : Qword)
deriving DecidableEq, Repr

/-- An outstanding result (R36): its writes, the flags that join FPSTAT with it (R91), and the cycle from which it is
read; no cycle for a variable latency. -/
structure Pend where
  ws : List Wr
  flags : BitVec 6
  due : Option Nat
deriving DecidableEq, Repr

/-- What a cohort waits for when its instruction could not perform; the instruction is presented again. -/
inductive WaitOn where
  /-- a fill (R340) or a page with BUSY set (R360) -/
  | fill | busy
  /-- an overlay (R337) -/
  | overlay (n : Nat)
  /-- a barrier phase (R321) -/
  | barrier
  /-- passes, a reservation-table or scoreboard entry (R17, R134, R136, R169) -/
  | passes | scoreboard
  /-- copies (R259, R266), rays (R196), jobs (R203), a reservoir record (R204) -/
  | copies | rays | jobs | record
  /-- deferred-store entries (R217, R231, R313) -/
  | log
  /-- a heartbeat tick (R227) -/
  | tick
  /-- an overlay load (R332) -/
  | load
  /-- a parked request of a poisoned sector (R399) -/
  | parked
  /-- the in-flight condition of R16 and R176 -/
  | surface
deriving DecidableEq, Repr

/-- The descriptor of SPLINTER and MIGRATE (R365). -/
structure TrOp where
  va : Nat
  newpa : Nat
  stage : Nat
  asid : Nat
  size : Nat
  tier : Bool
  home : Nat
deriving DecidableEq, Repr

/-- How far a multi-step instruction has come. -/
inductive Stage where
  | start
  /-- BARSYNC after its counted arrival: token and role (R321) -/
  | arrived (token : Word) (role : Bool)
  /-- FENCE.SC after its drain: the device time it waits for (R227) -/
  | drained (until_ : Nat)
  /-- a transfer that waits for overlay `n` since a cycle (R337): the instruction and its fall-through, which the overlay it
  was fetched from need not hold any more (R334); no instruction for a pop, a restore or an entry -/
  | ovl (n since : Nat) (held : Option Instr) (next : Option PcPart)
  /-- SPLINTER or MIGRATE has set BUSY in entries, with their values before, of a leaf of a level (R366, R367); `split`: the
  staging page is written -/
  | busy (op : TrOp) (split : Bool) (level : Nat) (es : List (Nat × Dword))
  /-- a Z instruction waits: nothing else of its cohort issues until it has performed (R134) -/
  | zwait
  /-- the table has taken a leaf's place: the accesses that used the leaf are waited for (R366) -/
  | swept (op : TrOp) (level : Nat)
deriving DecidableEq, Repr

/-- A fault record (R388) but for the fields that the delivery fills in. -/
structure Rec where
  cause : Nat
  detail : Nat
  opnd : Nat
  slotB : Bool
  late : Bool
  cls : Nat
  mask : Mask
  done : Mask
  dstop : Nat
  count : Nat
  pc : Pc
  addr : Nat
  slotA : Option PcPart
  slotBp : Option PcPart
  cohort : Nat
  queue : Nat
  aux : Nat
  /-- the launch whose cohort the record names, which counts it in FAULTS (R277, R390); no part of the 64 bytes -/
  launch : Option Nat := none
deriving DecidableEq, Repr

/-- How a fill that a suspended instruction waited for ended (R340, R345): range and block, code, ring index of the
generator's record. -/
structure FillEnd where
  asid : Nat
  range : Nat
  block : Nat
  code : Nat
  aux : Nat
deriving DecidableEq, Repr

/-- An open idempotent region (R315, R402). Register keys: V n at n, S at 256 + n, P at 384 + n, Q at 392 + n. -/
structure Idem where
  pc : Pc
  a : Option PcPart
  b : Option PcPart
  dstop : Nat
  inputs : List Nat
  written : List Nat
  spoiled : Bool
  rolls : Nat
  /-- rolled back, and its IDEM has not issued again -/
  again : Bool
deriving DecidableEq, Repr

/-- The courier error latch (R265, R267). -/
structure CErr where
  batch : Nat
  cause : Nat
  detail : Nat
  addr : Nat
deriving DecidableEq, Repr

/-- The context of a generator (R343). -/
structure Gen where
  fill : Nat
  /-- tenant of the range -/
  asid : Nat
  owner : Nat
  range : Nat
  block : Nat
  depth : Nat
  /-- code and ring index with which a trap ended it (R345) -/
  end_ : Option (Nat × Nat) := none
deriving DecidableEq, Repr

/-- An emitted record: edge, address, depth (R349). -/
structure Emitted where
  edge : Nat
  addr : Nat
  depth : Nat
deriving DecidableEq, Repr

/-- The work-graph context of an invocation (R302, R303, R349). `pages` pairs an edge with a reserved page, `used` an
edge with the number of records made on it. -/
structure Inv where
  index : Nat
  node : Nat
  depth : Nat
  inputs : List Nat
  pages : List (Nat × Nat)
  emitted : List Emitted
  dropped : List Nat
deriving DecidableEq, Repr

/-- A last-page register (R361): page number, ASID, generation, leaf entry, its level and its address. -/
structure LastPage where
  vpn : Nat
  asid : Nat
  gen : Nat
  pte : Dword
  level : Nat
  at_ : Nat
deriving DecidableEq, Repr

/-- A cohort's registers (R11). V is keyed by 32 n + lane; a V entry that nothing has written reads as `vfree` says. -/
structure Regs where
  v : Map Word
  s : Map Word
  p : Map Mask
  q : BitVec 8
  pl : Map Qword
  /-- tile number of handle k at key k (R288) -/
  z : Map Nat
  /-- V registers allocated and their base row in the partition (R12, R380) -/
  vregs : Nat
  vbase : Nat
  /-- the free values of V registers undefined at launch are drawn under this number; none: they read zero -/
  vfree : Option Nat
  fpstat : Word
  drround : Word
  /-- SEQ per lane (R253) -/
  seq : Map Nat
deriving DecidableEq, Repr

/-- A cohort's place and what its launch fixed (R284, R287, R289). -/
structure Place where
  /-- the model's number of the cohort while it is resident -/
  id : Nat
  launch : Option Nat
  queue : Nat
  lin : Nat
  core : Nat
  slotIx : Nat
  part : Nat
  asid : Nat
  priv : Bool
  unit : Nat
  unitIx : Nat
  /-- linear index of the dispatch-level unit (R286) -/
  dunit : Nat
  levels : List Nat
  prio : Nat
  det : Bool
  lkey : Word
  trapOvl : Nat
  dsBase : Nat
  dsDepth : Nat
  spBase : Nat
  spSize : Nat
  /-- PC of the launch entry -/
  entry : Pc
deriving DecidableEq, Repr

/-- Control state of a cohort (R297 to R299, R314, R315, R389). -/
structure Ctl where
  a : Option PcPart
  b : Option PcPart
  /-- which PC slot issued last, and which is issuing -/
  lastB : Bool
  isB : Bool
  dstop : Nat
  /-- overlay and lanes of the parts on the divergence stack, the top first (R298, R334) -/
  stack : List (Nat × Mask)
  /-- the next fetch is a launch entry or a trap entry, whose block must carry ENTRY (R45, R392) -/
  needEntry : Bool
  /-- PC slot and lanes of a replayed instruction (R394) -/
  replay : Option (Bool × Mask)
  /-- rules a to c stopped at a stack access and run again before the next issue (R299): PC and lanes of the instruction
  that started them -/
  stackTrap : Option (Pc × Mask)
  pend : List Pend
  readyAt : Nat
  /-- device time at which a SLEEP or TIMEWAIT ends; the remainder of a saved SLEEP counts from restore (R314) -/
  park : Option Nat
  /-- the park is a SLEEP -/
  sleeping : Bool
  wait : Option WaitOn
  /-- the barrier word on which it is suspended (R321), by physical address -/
  barAt : Option Nat
  /-- the fill that the suspended instruction waits for, and how it ended -/
  onFill : Option Nat
  fillEnd : Option FillEnd
  stage : Stage
  /-- last issue cycle, consecutive issues and missed opportunities for the issue slots 0 vector, 1 scalar, 2 memory -/
  last : List Nat
  runs : List Nat
  starve : List Nat
  trec : Option Rec
  tdone : Mask
  hm : Bool
  tsave : List Word
  late : List Rec
  idem : Option Idem
  /-- it parks until the register results that parked requests still owe it are written (R38, R399) -/
  hold : Bool := false
  /-- the scope of an acquire whose access is parked: it acts once that access has performed (R217, R399) -/
  acq : Option Scope := none
  /-- how the barrier phase that it waited for ended: true when the phase completed (R321, R322) -/
  barEnd : Option Bool := none
  /-- the instruction of SLOT `isB` has been presented and waits: the cohort issues no other (R297) -/
  susp : Bool := false
  /-- the load that its transfer waited for has ended FAILED (R337) -/
  ovFail : Bool := false
  /-- its last lanes have left: it waits for its copies, rays and log entries before it is freed (R313, R393);
  0 an exit, 1 an end on a fault, 2 a HALT -/
  ending : Option Nat
deriving DecidableEq, Repr

/-- What couriers, windows, rays, fills and graphs keep for a cohort. -/
structure Ext where
  batch : Nat
  err : Option CErr
  /-- mailbox: first register and count (R382) -/
  win : Option (Nat × Nat)
  /-- barycentrics u ++ v of the last hit per lane (R196) -/
  bary : Map Dword
  /-- the ray of the lane's most recent TRACE -/
  lastRay : Map Nat
  lastPages : Map LastPage
  gen : Option Gen
  inv : Option Inv
deriving DecidableEq, Repr

/-- A cohort. -/
structure Cohort where
  resident : Bool
  pl : Place
  r : Regs
  c : Ctl
  x : Ext
deriving DecidableEq, Repr

/-! ## Cores, quads, dies -/

/-- A line of a core's L1 (R14, R215, R216): 64 bytes, which of them are valid and dirty, copies of the barrier tags. -/
structure L1Line where
  core : Nat
  line : Nat
  data : List Byte
  valid : Dword
  dirty : Dword
  tags : BitVec 4
  /-- 0 ordinary, 1 evict first, 2 keep (R246) -/
  hint : Nat
  part : Nat
  /-- the home die of the line (R15) -/
  die : Nat
deriving DecidableEq, Repr

/-- A TLB entry of a core (R361): a leaf, its level, its address and the accesses it served (R363). -/
structure Tlb where
  core : Nat
  part : Nat
  asid : Nat
  vpn : Nat
  level : Nat
  pte : Dword
  at_ : Nat
  served : Nat
deriving DecidableEq, Repr

/-- State of a residency slot (R327). -/
inductive SlotSt where
  | free | loading | resident | failed
deriving DecidableEq, Repr

/-- A residency slot and what it holds of the instruction store (R327). -/
structure OvSlot where
  core : Nat
  ix : Nat
  st : SlotSt
  evict : Bool
  ovl : Nat
  part : Nat
  asid : Nat
  gen : Nat
  pins : Nat
  nblk : Nat
  traph : Bool
  image : Nat
  blocks : List (BitVec 512)
  /-- order of allocation (R330) -/
  seq : Nat
  /-- the granules of the store that it occupies, block 0's first (R327) -/
  gran : List Nat := []
deriving DecidableEq, Repr

/-- An entry of a range scoreboard (R17): the copy or pass that holds it. -/
structure Sb where
  core : Nat
  lo : Nat
  hi : Nat
  dst : Bool
  owner : Nat
deriving DecidableEq, Repr

/-- What a copy does (R261 to R264, R278). -/
inductive CopyKind where
  | plain (dsp ssp : Space) (dst src len : Nat)
  | tile (dsp ssp : Space) (dst src : Nat)
  | tensor (scat : Bool) (dsp ssp : Space) (near : Nat) (l1 l2 : List Byte)
  | gather (esz : Nat) (dsp ssp : Space) (dst list cnt : Nat)
  | chain (next : Nat)
  /-- a chain's record that has been read (R264): its address and its bytes -/
  | record (at_ : Nat) (r : List Byte)
  /-- a transfer that has performed but for writes that a pass in flight holds back (R17): physical addresses and bytes; how it
  ended; a chain's record and the next one, whose STATUS and OWN are still to be written -/
  | late (ws : List (Nat × List Byte)) (err : Option (Nat × Nat × Nat)) (after : Option (Nat × Nat))
  /-- a copy that failed at issue: it only ends (R263, R265) -/
  | bad (cause addr : Nat)
deriving DecidableEq, Repr

/-- A courier copy in flight (R259). -/
structure Copy where
  id : Nat
  core : Nat
  cohort : Nat
  batch : Nat
  part : Nat
  asid : Nat
  priv : Bool
  lanes : Mask
  scope : Scope
  kind : CopyKind
  /-- launch and record of the courier node that it works for (R301) -/
  node : Option (Nat × Nat) := none
deriving DecidableEq, Repr

/-- An entry of a deferred-store log (R397). -/
structure Dent where
  core : Nat
  cohort : Nat
  launch : Option Nat
  part : Nat
  asid : Nat
  va : Nat
  data : Qword
  width : Nat
  op : Option AtomOp
  ty : Ty
  scope : Scope
  order : Order
  pc : Pc
  mask : Mask
  lane : Nat
  round : Word
  glane : Nat
  seq : Nat
  held : Bool
  /-- device time of the log entry, and the cycle of its instruction's issue -/
  since : Nat
  cyc : Nat
deriving DecidableEq, Repr

/-- A row of an accumulator tile (R133). -/
structure TRow where
  anchor : BitVec 9
  pinned : Bool
  nan : Bool
  pinf : Bool
  ninf : Bool
  ovf : Bool
  check : Dword
deriving DecidableEq, Repr

/-- A deferred pass fault held for a cohort (R147). -/
structure PassFault where
  cohort : Nat
  pc : Pc
  detail : Nat
  opnd : Nat
  mask : Mask
  count : Nat
deriving DecidableEq, Repr

/-- An accumulator tile (R133). Cells are keyed by 64 m + n. -/
structure Tile where
  cells : Map Dword
  rows : Map TRow
  poison : Bool
  faults : List PassFault
deriving DecidableEq, Repr

/-- A codebook slot of a quad (R65, R152). -/
structure Codebook where
  owner : Option Nat
  words : Map Word
deriving DecidableEq, Repr

/-- A pass in a reservation table (R136, R300). `regs` holds the captured V registers, keyed by 32 n + lane. -/
structure Pass where
  id : Nat
  quad : Nat
  entry : Nat
  cohort : Nat
  launch : Option Nat
  prio : Nat
  core : Nat
  pc : Pc
  mask : Mask
  tile : Nat
  regs : Map Word
  a : Nat
  pla : Qword
  b : Nat
  plb : Qword
  sparse : Bool
  t : Nat
  u : Nat
  clocks : Nat
  age : Nat
  granted : Bool
  /-- the codebook patterns of A and B as they stood when it was granted (R140) -/
  cbs : List (Map Word) := []
deriving DecidableEq, Repr

/-- A quad's matrix budget (R151). -/
structure Budget where
  refill : Nat
  balance : Nat
deriving DecidableEq, Repr

/-- A ray in flight (R193). -/
structure Ray where
  id : Nat
  quad : Nat
  cohort : Option Nat
  lane : Nat
  dreg : Nat
  ray : List Word
  base : Nat
  key : Dword
  n : Word
  flags : BitVec 5
  part : Nat
  asid : Nat
  glane : Nat
  lkey : Word
  pc : Pc
  mask : Mask
  /-- a traversal node's record: where the hit words go, launch and record page (R301) -/
  out : Option Nat
  launch : Option Nat
  recAddr : Nat
deriving DecidableEq, Repr

/-- The hart image that an RTU or a curator holds (R377): unit q for the RTU of quad q, 2^16 + d for the curator of die d. -/
structure HartImg where
  unit : Nat
  part : Nat
  asid : Nat
  base : Nat
  bytes : List Byte
deriving DecidableEq, Repr

/-- A curator or build job (R190, R199). -/
structure Job where
  id : Nat
  die : Nat
  cohort : Nat
  lin : Nat
  queue : Nat
  launch : Option Nat
  part : Nat
  asid : Nat
  build : Bool
  desc : List Byte
  pc : Pc
  /-- the cohort's clean-up of its count is outstanding -/
  recAddr : Nat
deriving DecidableEq, Repr

/-- A structure that a successful build left (R191): where, and what it was built from. -/
structure Bvh where
  id : Nat
  part : Nat
  asid : Nat
  base : Nat
  bytes : Nat
  desc : List Byte
  geos : List (List Byte)
  inputs : List Byte
  /-- per geometry, the float words of its vertices or boxes, primitive by primitive -/
  prims : List (List (List Word))
deriving DecidableEq, Repr

/-- Where the bytes of a range come from that no store has written since: undefined bytes under a number (R343, R191), or
the structure that a build left (R191). -/
inductive LazySrc where
  | undef (serial : Nat)
  | bvh (id : Nat)
deriving DecidableEq, Repr

/-- A range [lo, hi) of physical memory whose bytes are given by their source; `off` is the offset of `lo` in it. -/
structure Lazy where
  lo : Nat
  hi : Nat
  off : Nat
  src : LazySrc
deriving DecidableEq, Repr

/-- A fill entry (R341). -/
structure Fill where
  id : Nat
  die : Nat
  part : Nat
  asid : Nat
  owner : Nat
  range : Nat
  block : Nat
  depth : Nat
  started : Bool
  /-- the fill on whose generator's behalf it was requested -/
  parent : Option Nat
  /-- the range descriptor when the fill began -/
  desc : List Byte
  /-- how it has ended, when its map cannot be written yet (R339, R360) -/
  done : Option (Option (Nat × Nat)) := none
deriving DecidableEq, Repr

/-- A held update of a deterministic round (R253, R254). `transit`: on its way to its HAU. -/
structure Held where
  id : Nat
  launch : Nat
  cohort : Nat
  round : Nat
  pa : Nat
  /-- the home die of its line (R15) -/
  die : Nat
  va : Nat
  width : Nat
  op : AtomOp
  glane : Nat
  seq : Nat
  value : Dword
  spilled : Option Nat
  transit : Bool
  red : Bool
  pc : Pc
  part : Nat
  asid : Nat
  /-- the lanes active for its instruction (R388) -/
  mask : Mask
  /-- the register that an ATOM's lane receives the old value in (R253), and the requester of another module that is answered -/
  reg : Option Nat
  src : Option Nat
deriving DecidableEq, Repr

/-- A request of a cohort lane, a copy or an outside agent that a conservation queue holds (R399). -/
inductive Req where
  | load (cohort reg lane pa : Nat) (ty : Ty) (sc : Scope) (ca : Cache) (pc : Pc)
  | sload (cohort reg pa : Nat) (ty : Ty) (sc : Scope) (ca : Cache) (pc : Pc)
  | store (cohort : Nat) (lane : Option Nat) (data : List (Nat × Byte)) (pc : Pc)
  /-- the dirty bytes of a core's L1 line (R216) -/
  | wback (core : Nat) (data : List (Nat × Byte))
  /-- a group of lanes at one location (R252): lane, b, c of each -/
  | atom (cohort : Nat) (reg : Option Nat) (pa : Nat) (op : AtomOp) (ty : Ty) (sc : Scope) (det : Bool)
      (lanes : List (Nat × Qword × Qword)) (pc : Pc)
  /-- a held update (R253) -/
  | held (h : Held)
  | host (data : Option (List Byte)) (n : Nat)
  | remote (src : Nat) (data : Option (List Byte)) (n : Nat)
  /-- an atomic or a reduction (`red`) of another module -/
  | ratom (src pa : Nat) (op : AtomOp) (ty : Ty) (key : Option RemoteKey) (b c : Qword) (red : Bool)
  /-- a courier copy, which is tried again as a whole -/
  | copy (id : Nat)
  /-- an engine's read or write, under the number of what it serves; it is tried again as a whole -/
  | engine (key : Nat)
  | other
deriving DecidableEq, Repr

/-- A parked request (R399). -/
structure Parked where
  id : Nat
  part : Nat
  pa : Nat
  va : Nat
  mask : Mask
  cause : Nat
  since : Nat
  req : Req
  /-- the home die of its line (R15), and the core from which it comes -/
  die : Nat
  core : Option Nat
deriving DecidableEq, Repr

/-! ## Partitions, launches, queues, module -/

/-- A procedural range as last read (R369, R370). -/
structure Range where
  ix : Nat
  desc : List Byte
deriving DecidableEq, Repr

/-- The registers of a hardware partition (R373, R363, R304, R390, R403). -/
structure Part where
  cfg : Dword
  tent : Dword
  heat : Dword
  preempt : Dword
  prange : List Dword
  fabwin : Map Dword
  fltBase : Dword
  fltHead : Word
  fltTail : Word
  fltCtl : Dword
  errCnt : Dword
  /-- enabled procedural ranges per ASID, as last read (R370) -/
  ranges : Map (List Range)
  /-- last queue served per QPRIO and credits per queue (R291) -/
  lastQ : Map Nat
  credits : Map Nat
  /-- device time of the docent's last sweep (R363) -/
  swept : Nat := 0
deriving DecidableEq, Repr

/-- A level descriptor (R283). -/
structure Level where
  extent : Nat
  domain : Nat
  scope : Nat
  name : List Byte
deriving DecidableEq, Repr

/-- A launch record as read (R283). -/
structure LRec where
  nlev : Nat
  prio : Nat
  det : Bool
  vregs : Nat
  zcount : Nat
  dsDepth : Nat
  spad : Nat
  zshare : Nat
  modCount : Nat
  start : Nat
  param : Nat
  cpl : Nat
  dsBase : Nat
  spill : Nat
  lkey : Word
  trapOvl : Nat
  entry : Pc
  lcores : Nat
  wgroups : Nat
  ntiles : Nat
  ovlreq : List Nat
  modBase : Nat
  graph : Nat
  save : Nat
  levels : List Level
  raw : List Byte
deriving DecidableEq, Repr

/-- A node of a work graph (R301). -/
structure GNode where
  kind : Nat
  depth : Nat
  recsz : Nat
  batch : Nat
  entry : Pc
  edges : List (Nat × Nat)
deriving DecidableEq, Repr

/-- A published record waiting to be consumed (R302, R303): node, address, depth, its place in the order of R303. -/
structure GRec where
  node : Nat
  addr : Nat
  depth : Nat
  inv : Nat
  emission : Nat
deriving DecidableEq, Repr

/-- A work graph in progress (R302): free pages, pages in use with the records not yet consumed in each. -/
structure Graph where
  nodes : List GNode
  root : Nat
  pool : Nat
  free : List Nat
  live : Map Nat
  recs : List GRec
  nextInv : Nat
  running : Nat
deriving DecidableEq, Repr

/-- A launch in progress (R285, R293). -/
structure Launch where
  id : Nat
  part : Nat
  asid : Nat
  queue : Nat
  idx : Nat
  order : Nat
  recAddr : Nat
  rc : LRec
  /-- next unassigned index of the dispatch level, its mirror, and the leader die -/
  counter : Nat
  mirror : Nat
  leader : Nat
  /-- granted dispatch units and their dies, not yet placed -/
  granted : List (Nat × Nat)
  /-- core-bound units not yet placed: (unit, die) -/
  waiting : List (Nat × Nat)
  /-- core-bound units resident: (unit, core, cohorts left) -/
  placed : List (Nat × Nat × Nat)
  ended : Nat
  total : Nat
  code : Nat
  faults : Nat
  tunl : Bool
  breach : Bool
  halted : Bool
  firstStart : Option Nat
  /-- highest round closed, plus one (R234) -/
  closed : Nat
  failedRounds : List Nat
  spillNext : Nat
  graph : Option Graph
  waitSince : Nat
  /-- where units of a domain run: domain, unit, quad or die (R286) -/
  homes : List (Nat × Nat × Nat)
  /-- tiles that sharing units hold until all their units have ended (R133, R288): sharing unit, handle, quad, tile -/
  shares : List (Nat × Nat × Nat × Nat)
deriving DecidableEq, Repr

/-- A started, unfinished queue entry (R275). -/
structure Entry where
  queue : Nat
  part : Nat
  asid : Nat
  idx : Nat
  kind : Nat
  irq : Bool
  vector : Nat
  arg0 : Nat
  arg1 : Nat
  cpl : Nat
  start : Nat
  launch : Option Nat
  code : Option Nat
deriving DecidableEq, Repr

/-- What a saved cohort keeps outside its frame (R306 gives it no place there): its number, the control state, the chains that
paused, the barycentrics of its last hits. -/
structure SavedCohort where
  ix : Nat
  id : Nat
  ctl : Ctl
  chains : List Copy
  bary : Map Dword
  /-- for each handle, the linear index of the cohort in whose slot its tile was stored (R306) -/
  slots : List (Nat × Nat)
  inv : Option Inv
deriving DecidableEq, Repr

/-- A core-bound unit whose context was saved (R305): its frame, and the unit in whose frame the codebook slots of the quad stand
with the slots that the launch owned. -/
structure Saved where
  id : Nat
  launch : Nat
  unit : Nat
  die : Nat
  frame : Nat
  cohorts : List SavedCohort
  bookUnit : Nat
  books : List Nat
deriving DecidableEq, Repr

/-- A save that has been asked for and is not done yet (R304, R305, R392): of a core-bound unit of a launch on a core, or of all units of a
partition, once it has no generator (R348). -/
inductive SaveReq where
  | unit (launch unit core : Nat)
  | part (p : Nat)
deriving DecidableEq, Repr

/-- A remote write or reduction that its module has not acknowledged (R279). -/
structure FabW where
  cohort : Nat
  module : Nat
  pc : Pc
  mask : Mask
  done : Mask
  va : Nat
deriving DecidableEq, Repr

/-- A host write in the HOP (R269, R270): sequence number and pieces (die, bytes by physical and virtual address) not yet performed; die 4
holds places outside the local dies, die 8 the queue mailboxes, by their offset in BAR0. -/
structure HopW where
  seq : Nat
  part : Nat
  asid : Nat
  pieces : List (Nat × List (Nat × Nat × Byte))
  /-- offset and bytes of a write that has met a BUSY page and is not translated yet (R360) -/
  raw : Option (Nat × List Byte) := none
deriving DecidableEq, Repr

/-- An inbound read that waits (R271): partition, offset, bytes, and the earlier writes that are not acknowledged yet. -/
structure HostRd where
  part : Nat
  off : Nat
  n : Nat
  after : List Nat
deriving DecidableEq, Repr

/-- A message of Zwiov Link by its type (R278), and the close of a launch's rounds at a module's HAUs (R280). -/
inductive ZMsg where
  | rd (n : Nat)
  | wr (bytes : List Byte)
  | at_ (op : AtomOp) (ty : Ty) (key : Option RemoteKey) (b c : Qword)
  | red (op : AtomOp) (ty : Ty) (key : Option RemoteKey) (b : Qword)
  | crd (tag n : Nat)
  | cwr (tag : Nat) (bytes : List Byte)
  | close (launch round : Nat)
deriving DecidableEq, Repr

/-- What leaves the module or is reported (R22, R269, R272, R277, R278). -/
inductive Outp where
  | msix (vector : Nat)
  /-- a posted write, a non-posted read, an AtomicOp of the host's memory (R272) -/
  | hostWrite (addr : Nat) (bytes : List Byte)
  | hostLoad (addr n : Nat)
  | hostAtomic (addr : Nat) (op : AtomOp) (ty : Ty) (b c : Nat)
  | hostReply (bytes : List Byte)
  | hostError (off : Nat)
  | zwiov (module pa : Nat) (msg : ZMsg)
  | zwiovReply (src : Nat) (bytes : List Byte)
  | zwiovFault (src : Nat) (cause : Nat)
  | report (what : Nat)
deriving DecidableEq, Repr

/-- The module's registers and time base. -/
structure Modl where
  cycle : Nat
  /-- device time in ns, and the fraction of a ns in parts of the clock's MHz -/
  time : Nat
  phase : Nat
  locked : Bool
  src1pps : Bool
  ever : Bool
  /-- estimate of device time minus the grandmaster's, what is left to slew (R281), and the slew that makes no whole ns yet, in 10^-6 ns -/
  offset : Int
  slewed : Nat
  /-- device time of the last PTP message at each Zwiov port (R281) -/
  stamps : Map Nat
  pwrctl : Dword
  gov : Nat
  therm : Nat
  carve : Dword
  rsvsurf : Dword
  hopVisible : Word
  hopAssigned : Word
  qdt : Dword
  fabid : Dword
  ready : Dword
  startstat : Dword
  marginctl : Dword
  marginPt : Nat
  clkplan : Nat
  /-- the module has stopped issuing (R22, R24) -/
  stopped : Bool
  failedDies : List Nat
  /-- modules to which the path has failed (R279) -/
  fabDown : List Nat
  /-- the thermal point is being lowered (R22) -/
  hot : Bool
  /-- changes of a die's carve-out that wait (R16): die and ways -/
  pending : List (Nat × Dword)
deriving DecidableEq, Repr

/-! ## The whole machine -/

/-- What the agenda may name next; the model's own field says in which order agents move. -/
inductive Turn where
  /-- the issuing cohort issues: from the PC slot given, or by R297 -/
  | issue (slotB : Option Bool)
  /-- another resident cohort becomes the issuing one -/
  | switch (cohort : Nat)
  /-- the issue slot `slot` (0 vector, 1 scalar, 2 memory) of a partition of a core picks by R297 -/
  | select (core ipart slot : Nat)
  /-- a machine event -/
  | event (i : Instr)
  /-- cycles pass without issue -/
  | idle (cycles : Nat)
  /-- the k-th outstanding result of the issuing cohort is written, when it has no fixed latency -/
  | writeback (k : Nat)
deriving DecidableEq, Repr

/-- The machine's state. -/
structure State where
  cur : Cohort
  others : List Cohort
  agenda : List Turn
  mem : List Host.Cell
  lazies : List Lazy
  tags : List Nat
  poison : List Nat
  spPoison : List Nat
  l1 : List L1Line
  tlb : List Tlb
  /-- translation generation per core (R361) -/
  tgen : Map Nat
  slots : List OvSlot
  sb : List Sb
  copies : List Copy
  dlog : List Dent
  tiles : Map Tile
  books : Map Codebook
  passes : List Pass
  budgets : Map Budget
  rays : List Ray
  jobs : List Job
  bvhs : List Bvh
  harts : List HartImg
  fills : List Fill
  /-- partition and end of the fills that left a block FAILED (R345) -/
  failed : List (Nat × FillEnd)
  resv : Map (BitVec 256)
  /-- halo copies: key 2^40 (4 to + from) + pixel; the plane each part records at key 4 to + from -/
  halo : Map (BitVec 256)
  haloPl : Map Bool
  /-- records that an uncorrectable error has lost (R401) -/
  rsvPoison : List Nat
  held : List Held
  parked : List Parked
  /-- requests of engines that the conservation queue refused: key and sector -/
  refused : List (Nat × Nat)
  fabw : List FabW
  parts : List Part
  launches : List Launch
  entries : List Entry
  saved : List Saved
  /-- saves that are asked for -/
  saving : List SaveReq
  hop : List HopW
  reads : List HostRd
  outs : List Outp
  m : Modl
  /-- fresh numbers of the model, and the number of the next free value -/
  ids : Nat
  pick : Nat
deriving DecidableEq, Repr

/-! ## Stops -/

/-- Where the model stops with a fault. -/
inductive Fault where
  /-- raised by a cohort's instruction when no cohort is resident: it has nobody to act on; safe -/
  | notResident
deriving DecidableEq, Repr

/-- Why the model has no meaning for a step. -/
inductive Refusal where
  /-- an arm of `exec` that has no meaning yet, by its mnemonic; safe -/
  | notModelled (mnemonic : String)
deriving DecidableEq, Repr

/-! ## Reset -/

def Regs.reset : Regs where
  v := []
  s := []
  p := []
  q := 0
  pl := []
  z := []
  vregs := 0
  vbase := 0
  vfree := none
  fpstat := 0
  drround := 0
  seq := []

def Place.reset : Place where
  id := 0
  launch := none
  queue := 0xFFFF
  lin := 0
  core := 0
  slotIx := 0
  part := 0
  asid := 0
  priv := false
  unit := 0
  unitIx := 0
  dunit := 0
  levels := [0, 0, 0, 0, 0, 0, 0, 0]
  prio := 0
  det := false
  lkey := 0
  trapOvl := 0
  dsBase := 0
  dsDepth := 0
  spBase := 0
  spSize := 0
  entry := 0

def Ctl.reset : Ctl where
  a := none
  b := none
  lastB := false
  isB := false
  dstop := 0
  stack := []
  needEntry := false
  replay := none
  stackTrap := none
  pend := []
  readyAt := 0
  park := none
  sleeping := false
  wait := none
  barAt := none
  onFill := none
  fillEnd := none
  stage := .start
  last := [0, 0, 0]
  runs := [0, 0, 0]
  starve := [0, 0, 0]
  trec := none
  tdone := 0
  hm := false
  tsave := [0, 0, 0, 0]
  late := []
  idem := none
  ending := none

def Ext.reset : Ext where
  batch := 0
  err := none
  win := none
  bary := []
  lastRay := []
  lastPages := []
  gen := none
  inv := none

/-- No cohort: the place of the issuing cohort before any launch. -/
def Cohort.reset : Cohort := ⟨false, .reset, .reset, .reset, .reset⟩

/-- A partition after reset: HEATCTL.SAMPLE 8, PREEMPTCTL WAITUS 0x64 and MINGAP 2, FLTCTL.DLTMO 0x64 (R363, R304,
R390), everything else zero. -/
def Part.reset : Part where
  cfg := 0
  tent := 0
  heat := 0x800
  preempt := 0x0064_0200
  prange := [0, 0, 0, 0, 0, 0, 0, 0]
  fabwin := []
  fltBase := 0
  fltHead := 0
  fltTail := 0
  fltCtl := 0x0064_0000
  errCnt := 0
  ranges := []
  lastQ := []
  credits := []

/-- PWRCTL CLOCK 0xBB8 and LIMIT 0xD48, HOPSEQ all ones (R21, R273); the rest zero. -/
def Modl.reset : Modl where
  cycle := 0
  time := 0
  phase := 0
  locked := false
  src1pps := false
  ever := false
  offset := 0
  slewed := 0
  stamps := []
  pwrctl := 0x0BB8_0D48
  gov := 3000
  therm := 3000
  carve := 0
  rsvsurf := 0
  hopVisible := 0xFFFF_FFFF
  hopAssigned := 0xFFFF_FFFF
  qdt := 0
  fabid := 0
  ready := 0
  startstat := 0
  marginctl := 0
  marginPt := 0
  clkplan := 3000
  stopped := false
  failedDies := []
  fabDown := []
  hot := false
  pending := []

/-- The machine after reset: no cohort, empty memories, every register at the value its rule gives. -/
def State.reset : State where
  cur := .reset
  others := []
  agenda := []
  mem := []
  lazies := []
  tags := []
  poison := []
  spPoison := []
  l1 := []
  tlb := []
  tgen := []
  slots := []
  sb := []
  copies := []
  dlog := []
  tiles := []
  books := []
  passes := []
  budgets := []
  rays := []
  jobs := []
  bvhs := []
  harts := []
  fills := []
  failed := []
  resv := []
  halo := []
  haloPl := []
  rsvPoison := []
  held := []
  parked := []
  refused := []
  fabw := []
  parts := List.replicate 16 .reset
  launches := []
  entries := []
  saved := []
  saving := []
  hop := []
  reads := []
  outs := []
  m := .reset
  ids := 1
  pick := 0

end Sys2Proof.Machine
end

