-- ==== Sys2Proof/Machine/Ops.lean ====
section
/-! DEFINITION. The named operations over registers, memory bytes, time and results, the runner that every instruction
goes through, and taking an exception (R35 to R38, R48, R388 to R394). -/

namespace Sys2Proof.Machine

/-! ## Updates of the issuing cohort -/

namespace State
def updCur (s : State) (f : Cohort → Cohort) : State := { s with cur := f s.cur }
def updR (s : State) (f : Regs → Regs) : State := { s with cur := { s.cur with r := f s.cur.r } }
def updC (s : State) (f : Ctl → Ctl) : State := { s with cur := { s.cur with c := f s.cur.c } }
def updX (s : State) (f : Ext → Ext) : State := { s with cur := { s.cur with x := f s.cur.x } }
def updM (s : State) (f : Modl → Modl) : State := { s with m := f s.m }
/-- The registers of a partition. -/
def part (s : State) (p : Nat) : Part := nth s.parts p .reset
def updPart (s : State) (p : Nat) (f : Part → Part) : State := { s with parts := setNth s.parts p (f (s.part p)) }
/-- A fresh number. -/
def fresh (s : State) : Nat × State := (s.ids, { s with ids := s.ids + 1 })
/-- The number of the next free value. -/
def draw (s : State) : Nat × State := (s.pick, { s with pick := s.pick + 1 })
/-- Every resident cohort, the issuing one first. -/
def cohorts (s : State) : List Cohort := (if s.cur.resident then [s.cur] else []) ++ s.others
/-- Update every resident cohort. -/
def updCohorts (s : State) (f : Cohort → Cohort) : State :=
  { s with cur := (if s.cur.resident then f s.cur else s.cur), others := s.others.map f }
/-- Update the resident cohort of a number. -/
def updCohort (s : State) (id : Nat) (f : Cohort → Cohort) : State :=
  s.updCohorts fun c => if c.pl.id == id then f c else c
def cohort? (s : State) (id : Nat) : Option Cohort := s.cohorts.find? fun c => c.pl.id == id
/-- The launch of a number. -/
def launch? (s : State) (id : Nat) : Option Launch := s.launches.find? fun l => l.id == id
def updLaunch (s : State) (id : Nat) (f : Launch → Launch) : State :=
  { s with launches := s.launches.map fun l => if l.id == id then f l else l }
/-- Waiting instructions are presented again after anything another agent did. -/
def wake (s : State) : State := s.updCohorts fun c => { c with c := { c.c with wait := none } }
/-- A saturating count in the partition's error counters, field MISC (R403). -/
def countMisc (s : State) (p : Nat) : State :=
  s.updPart p fun x =>
    { x with errCnt := if x.errCnt.extractLsb' 0 16 == 0xFFFF#16 then x.errCnt else x.errCnt + 1#64 }
end State

/-! ## Registers (R11, R29) -/

namespace Regs
def rdV (r : Regs) (n lane : Nat) : Word :=
  match r.v.find? fun e => e.1 == n * 32 + lane with
  | some e => e.2
  | none => match r.vfree with
    | none => 0#32
    | some k => Config.undefV k n lane
def wrV (r : Regs) (n lane : Nat) (x : Word) : Regs :=
  { r with v := if r.vfree.isNone then r.v.set (n * 32 + lane) x 0#32 else r.v.put (n * 32 + lane) x }
def rdS (r : Regs) (n : Nat) : Word := r.s.get n 0#32
def wrS (r : Regs) (n : Nat) (x : Word) : Regs := { r with s := r.s.set n x 0#32 }
/-- P7 reads all-true. -/
def rdP (r : Regs) (n : Nat) : Mask := if n == 7 then Mask.all else r.p.get n 0#32
/-- A write to P7 is discarded. -/
def wrP (r : Regs) (n : Nat) (lanes vals : Mask) : Regs :=
  if n == 7 then r else { r with p := r.p.set n ((r.p.get n 0#32 &&& ~~~lanes) ||| (vals &&& lanes)) 0#32 }
/-- Q7 reads true. -/
def rdQ (r : Regs) (n : Nat) : Bool := n == 7 || r.q.getLsbD n
/-- A write to Q7 is discarded. -/
def wrQ (r : Regs) (n : Nat) (x : Bool) : Regs :=
  if n == 7 then r
  else { r with q := if x then r.q ||| BitVec.ofNat 8 (2 ^ n) else r.q &&& ~~~(BitVec.ofNat 8 (2 ^ n)) }
def rdPL (r : Regs) (n : Nat) : Qword := r.pl.get n 0#128
def wrPL (r : Regs) (n : Nat) (x : Qword) : Regs := { r with pl := r.pl.set n x 0#128 }
/-- The tile of a handle, if it is bound. -/
def rdZ (r : Regs) (n : Nat) : Option Nat := (r.z.find? fun e => e.1 == n).map (·.2)
/-- SEQ of a lane (R253). -/
def rdSeq (r : Regs) (lane : Nat) : Nat := r.seq.get lane 0
def wrSeq (r : Regs) (lane x : Nat) : Regs := { r with seq := r.seq.set lane x 0 }
end Regs

/-- One write of a result. -/
def Wr.apply (w : Wr) (r : Regs) : Regs :=
  match w with
  | .v n lane x => r.wrV n lane x
  | .s n x => r.wrS n x
  | .p n lanes vals => r.wrP n lanes vals
  | .q n x => r.wrQ n x
  | .pl n x => r.wrPL n x

/-- Write a result and OR its flags into FPSTAT (R91). -/
def Pend.apply (p : Pend) (r : Regs) : Regs :=
  let r := p.ws.foldl (fun r w => w.apply r) r
  { r with fpstat := r.fpstat ||| p.flags.zeroExtend 32 }

/-- Insert by due cycle, after those of the same cycle; results without one come last (log 20). -/
def Pend.insert (p : Pend) : List Pend → List Pend
  | [] => [p]
  | q :: l =>
    match p.due, q.due with
    | some a, some b => if a < b then p :: q :: l else q :: Pend.insert p l
    | some _, none => p :: q :: l
    | none, _ => q :: Pend.insert p l

/-- Outstanding results in the order in which they are written. -/
def Pend.sorted (l : List Pend) : List Pend := l.foldl (fun acc p => p.insert acc) []

namespace Cohort
/-- Write the results due at a cycle (R36). -/
def commit (c : Cohort) (now : Nat) : Cohort :=
  let isDue := fun (p : Pend) => match p.due with | some d => decide (d ≤ now) | none => false
  { c with r := (Pend.sorted (c.c.pend.filter isDue)).foldl (fun r p => p.apply r) c.r
           c := { c.c with pend := c.c.pend.filter fun p => !isDue p } }
/-- Write every outstanding result (R37, R38); those of parked requests are waited for before the next issue. -/
def drain (c : Cohort) : Cohort :=
  { c with r := (Pend.sorted c.c.pend).foldl (fun r p => p.apply r) c.r, c := { c.c with pend := [], hold := true } }
/-- The PC slot that issues. -/
def part? (c : Cohort) : Option PcPart := if c.c.isB then c.c.b else c.c.a
def other? (c : Cohort) : Option PcPart := if c.c.isB then c.c.a else c.c.b
def pc (c : Cohort) : Pc := (c.part?.map (·.pc)).getD 0
/-- The lane mask of the issuing PC slot (R32). -/
def smask (c : Cohort) : Mask := (c.part?.map (·.mask)).getD 0
def setPart (c : Cohort) (x : Option PcPart) : Cohort :=
  { c with c := if c.c.isB then { c.c with b := x } else { c.c with a := x } }
def setOther (c : Cohort) (x : Option PcPart) : Cohort :=
  { c with c := if c.c.isB then { c.c with a := x } else { c.c with b := x } }
/-- Lanes of the parts on the divergence stack (R298). -/
def stackLanes (c : Cohort) : Mask := c.c.stack.foldl (fun m e => m ||| e.2) 0#32
/-- Live lanes held by the two PC slots (R298). -/
def slotLanes (c : Cohort) : Mask :=
  ((c.c.a.map (·.mask)).getD 0) ||| ((c.c.b.map (·.mask)).getD 0)
/-- The divergence stack's entry `k` (R298). -/
def stackAt (c : Cohort) (k : Nat) : Nat := c.pl.dsBase + 16 * (c.pl.dsDepth * c.pl.lin + k)
/-- Close the open idempotent region (R315). -/
def closeIdem (c : Cohort) : Cohort := { c with c := { c.c with idem := none } }
end Cohort

/-! ## Bytes of physical memory -/

/-- Byte `a` of a range whose bytes have a source. -/
def Lazy.value (s : State) (z : Lazy) (a : Nat) : Byte :=
  match z.src with
  | .undef n => Config.generatorScratch n (z.off + (a - z.lo))
  | .bvh id => match s.bvhs.find? fun b => b.id == id with
    | some b => Config.bvhByte b.desc b.inputs (z.off + (a - z.lo))
    | none => Config.failedBvhByte id (z.off + (a - z.lo))

namespace State

/-- The byte at a physical address. -/
def byte (s : State) (a : Nat) : Byte :=
  match s.lazies.find? fun z => z.lo ≤ a && a < z.hi with
  | some z => z.value s a
  | none => Memory.read s.mem a

/-- `n` bytes from a physical address. -/
def bytes (s : State) (a : Nat) : Nat → List Byte
  | 0 => []
  | n + 1 => s.byte a :: s.bytes (a + 1) n

end State

/-- Take [lo, hi) out of a range. -/
def Lazy.cut (lo hi : Nat) (z : Lazy) : List Lazy :=
  if hi ≤ z.lo || z.hi ≤ lo then [z]
  else (if z.lo < lo then [{ z with hi := lo }] else [])
    ++ (if hi < z.hi then [{ z with lo := hi, off := z.off + (hi - z.lo) }] else [])

namespace State

/-- Write bytes at a physical address; poison of scratchpad words that are fully rewritten ends (R401), as does poison of
sectors that one write covers (R400). -/
def setBytes (s : State) (a : Nat) (bs : List Byte) : State :=
  let hi := a + bs.length
  { s with
    mem := Memory.store s.mem a bs
    lazies := s.lazies.flatMap (Lazy.cut a hi)
    spPoison := s.spPoison.filter fun w => !(a ≤ w && w + 4 ≤ hi)
    poison := s.poison.filter fun w => !(a ≤ w && w + 64 ≤ hi) }

/-- Is the 16-byte unit of an address a live barrier word (R317)? -/
def live (s : State) (a : Nat) : Bool := s.tags.contains (a / 16 * 16)

end State

/-! ## Time (R21, R151, R281) -/

/-- The clock in force in MHz (R21). -/
def Modl.mhz (m : Modl) : Nat := max 1 (m.pwrctl.extractLsb' 16 12).toNat

namespace State

/-- A quad's budget: one that is not listed started at the reset value and has been raised every microsecond (R151). -/
def budget (s : State) (q : Nat) : Budget := s.budgets.get q ⟨0x10_0000, min 0x20_0000 (0x10_0000 * (1 + s.m.time / 1000))⟩

/-- Raise every listed quad's budget balance `k` times (R151). -/
def refill (s : State) (k : Nat) : State :=
  { s with budgets := s.budgets.map fun (q, b) => (q, { b with balance := min (2 * b.refill) (b.balance + k * b.refill) }) }

/-- Let device time pass, with the budget refills of the microseconds that end. -/
def passTime (s : State) (ns : Nat) : State :=
  let t := s.m.time + ns
  let k := t / 1000 - s.m.time / 1000
  (if k == 0 then s else s.refill k).updM fun m => { m with time := t }

/-- The nanoseconds that device time moves on in so many ns, and what is left of the offset and of the slew: it is slewed toward the
grandmaster, by a free rate of at most 100 ppm, and never runs backwards (R281). -/
def slew (m : Modl) (ns : Nat) : Nat × Int × Nat :=
  if m.offset == 0 then (ns, 0, 0)
  else
    let acc := m.slewed + ns * min 100 (Config.slewPpm m.cycle)
    let d := min (min (acc / 1000000) m.offset.natAbs) ns
    if 0 < m.offset then (ns - d, m.offset - d, acc % 1000000) else (ns + d, m.offset + d, acc % 1000000)

/-- Let main-clock cycles pass. -/
def tick (s : State) (n : Nat) : State :=
  let ph := s.m.phase + n * 1000
  let (ns, off, acc) := slew s.m (ph / s.m.mhz)
  (s.passTime ns).updM fun m => { m with cycle := m.cycle + n, phase := ph % s.m.mhz, offset := off, slewed := acc }

end State

/-! ## The runner -/

/-- A trap as an instruction raises it (R387, R388). -/
structure Trap where
  cause : Nat
  detail : Nat := 0
  opnd : Nat := 0
  addr : Nat := 0
  done : Mask := 0#32
  aux : Nat := 0xFFFFFFFF
deriving DecidableEq, Repr

/-- How a computation ends early. -/
inductive Stop where
  | trap (t : Trap) (s : State)
  /-- a late trap delivered by the instruction itself -/
  | late (r : Rec) (s : State)
  | wait (w : WaitOn) (s : State)
deriving Repr

/-- A computation over the state that may trap or wait. -/
abbrev M (α : Type) := StateT State (Except Stop) α

namespace M
/-- Raise a precise trap; what has performed stands. -/
def trap {α : Type} (t : Trap) : M α := fun s => .error (.trap t s)
/-- Deliver a late trap. -/
def late {α : Type} (r : Rec) : M α := fun s => .error (.late r s)
/-- The instruction has not performed and is presented again. -/
def wait {α : Type} (w : WaitOn) : M α := fun s => .error (.wait w s)
def read {α : Type} (f : State → α) : M α := fun s => .ok (f s, s)
def upd (f : State → State) : M Unit := fun s => .ok ((), f s)
/-- Run a state function that also answers a value. -/
def run {α : Type} (f : State → α × State) : M α := fun s => .ok (f s)
/-- Wait unless the condition holds. -/
def waitUntil (w : WaitOn) (c : State → Bool) : M Unit := fun s => if c s then .ok ((), s) else .error (.wait w s)
def trapIf (c : Bool) (t : Trap) : M Unit := fun s => if c then .error (.trap t s) else .ok ((), s)
/-- Run for each element in order. -/
def each {α : Type} (l : List α) (f : α → M Unit) : M Unit :=
  match l with
  | [] => pure ()
  | x :: t => do f x; each t f
/-- Collect the answers in order. -/
def mapL {α β : Type} (l : List α) (f : α → M β) : M (List β) :=
  match l with
  | [] => pure []
  | x :: t => do
    let y ← f x
    let ys ← mapL t f
    pure (y :: ys)
end M

/-! Cause codes (R387). -/
namespace Cause
def illegal := 0x0001
def privilege := 0x0002
def integrity := 0x0003
def alignment := 0x0004
def branchRange := 0x0005
def access := 0x0006
def poison := 0x0007
def dsOverflow := 0x0008
def partialReorder := 0x0009
def barClobber := 0x000A
def barBusy := 0x000B
def barIndex := 0x000C
def timeUnlocked := 0x000D
def curatorDesc := 0x000E
def samplerInvalid := 0x000F
def placard := 0x0010
def checksum := 0x0011
def ovUnregistered := 0x0012
def ovLoad := 0x0013
def ovQuota := 0x0014
def emission := 0x0015
def generator := 0x0016
def recursive := 0x0017
def cycle := 0x0018
def software := 0x0019
def breakpoint := 0x001A
def matrixPass := 0x0020
def traversal := 0x0021
def drOverflow := 0x0022
def fabWrite := 0x0023
def dlogFailed := 0x0024
def double := 0x0030
def unrecoverable := 0x0031
def nonIdem := 0x0032
def dieLost := 0x0033
def restoreFailed := 0x0034
def parkedUnc := 0x0040
def parkedPoison := 0x0041
def parkedFill := 0x0042
def discarded := 0x0043
def thermal := 0x0050
def power := 0x0051
def containment := 0x0052
def ecc := 0x0060
def replay := 0x0061
def l1Loss := 0x0062
def rollback := 0x0063
end Cause

def accessT (d : Nat) (addr : Nat := 0) : Trap := { cause := Cause.access, detail := d, addr := addr }

/-! ## Fault records (R388 to R390) -/

/-- A part as a saved slot (R298): 16 bytes. -/
def slotBytes (p : Option PcPart) : List Byte :=
  match p with
  | none => leBytes 16 0
  | some p => leBytes 5 p.pc.toNat ++ [if p.run then 1#8 else 2#8] ++ leBytes 2 0 ++ leBytes 4 p.mask.toNat ++ leBytes 4 0

/-- The ten bytes of a slot in a fault record. -/
def slotRec (p : Option PcPart) : List Byte :=
  match p with
  | none => leBytes 10 0
  | some p => leBytes 5 p.pc.toNat ++ [if p.run then 1#8 else 2#8] ++ leBytes 4 p.mask.toNat

/-- The 64 bytes of a fault record. -/
def Rec.bytes (r : Rec) : List Byte :=
  leBytes 2 r.cause ++ leBytes 1 r.detail
    ++ leBytes 1 (r.opnd % 8 + (if r.slotB then 8 else 0) + (if r.late then 16 else 0) + r.cls * 64)
    ++ leBytes 4 r.mask.toNat ++ leBytes 4 r.done.toNat ++ leBytes 2 r.dstop ++ leBytes 2 r.count
    ++ leBytes 8 r.pc.toNat ++ leBytes 8 r.addr ++ slotRec r.slotA ++ slotRec r.slotBp
    ++ leBytes 6 r.cohort ++ leBytes 2 r.queue ++ leBytes 4 r.aux

/-- Word k of the record (TRECk, R389). -/
def Rec.word (r : Rec) (k : Nat) : Word := BitVec.ofNat 32 (leNat ((r.bytes.drop (4 * k)).take 4))

namespace State

/-- The device's answer to "within the partition's physical ranges" (R373). -/
def inRanges (s : State) (p a : Nat) : Bool :=
  (s.part p).prange.any fun r =>
    r.getLsbD 31 && (r.extractLsb' 0 31).toNat ≤ a / 2 ^ 21 && a / 2 ^ 21 ≤ (r.extractLsb' 32 31).toNat

/-- Write a record to the partition's fault ring (R390); a full or disabled ring counts it in LOST, as does one whose slot lies outside
the partition's ranges (log 59). It answers the record's ring index, all ones for one that is not written. -/
def ring (s : State) (p : Nat) (r : Rec) : Nat × State :=
  let x := s.part p
  let l := (x.fltBase.extractLsb' 0 5).toNat
  let at_ := (x.fltBase.extractLsb' 6 46).toNat * 64 + 64 * (x.fltHead.toNat % 2 ^ l)
  let ok := 4 ≤ l && l ≤ 20 && (x.fltHead - x.fltTail).toNat != 2 ^ l && s.inRanges p at_
  let s := match r.launch with
    | some k => s.updLaunch k fun y => { y with faults := y.faults + 1 }
    | none => s
  if ok then
    (x.fltHead.toNat, (s.setBytes at_ r.bytes).updPart p fun y => { y with fltHead := y.fltHead + 1 })
  else
    (0xFFFFFFFF, s.updPart p fun y =>
      { y with fltCtl := if y.fltCtl.extractLsb' 48 16 == 0xFFFF#16 then y.fltCtl else y.fltCtl + (1#64 <<< 48) })

end State

/-- The record of a trap of the issuing cohort at delivery. -/
def mkRec (s : State) (t : Trap) (mask : Mask) : Rec where
  cause := t.cause
  detail := t.detail
  opnd := t.opnd
  slotB := s.cur.c.isB
  late := false
  cls := 0
  mask := mask
  done := t.done
  dstop := s.cur.c.dstop
  count := 0
  pc := s.cur.pc
  addr := t.addr
  slotA := s.cur.c.a
  slotBp := s.cur.c.b
  cohort := match s.cur.x.gen with | some g => g.block | none => s.cur.pl.lin
  queue := if s.cur.x.gen.isSome then 0xFFFF else s.cur.pl.queue
  aux := match s.cur.x.gen with | some g => g.range + g.owner * 2 ^ 16 | none => t.aux
  launch := if s.cur.x.gen.isSome then none else s.cur.pl.launch

/-- A record not tied to a cohort (classes 1 to 3). -/
def plainRec (cause detail cls addr : Nat) : Rec where
  cause := cause
  detail := detail
  opnd := 0
  slotB := false
  late := false
  cls := cls
  mask := 0
  done := 0
  dstop := 0
  count := 0
  pc := 0
  addr := addr
  slotA := none
  slotBp := none
  cohort := 2 ^ 44 - 1
  queue := 0xFFFF
  aux := 0xFFFFFFFF

/-! ## The end of a cohort (R313, R393, R396) -/

/-- BUSY of a table entry (R357). -/
def busyBit : Dword := 0x20#64

/-- The entries in which SPLINTER or MIGRATE set BUSY have their values before again, but for those that software has changed
since (R366, R367). -/
def unbusy (es : List (Nat × Dword)) (s : State) : State :=
  es.foldl (fun s (a, e) => if s.bytes a 8 == leBytes 8 (e ||| busyBit).toNat then s.setBytes a (leBytes 8 e.toNat) else s) s

/-- The issuing cohort gives up what it waits for: no entry stays BUSY on its account, and it is no longer suspended on a barrier
word, whose WAITING ends with its last waiter (R316). -/
def leaveBar (s : State) : State :=
  let s := match s.cur.c.stage with
    | .busy _ _ _ es => (unbusy es s).updC fun c => { c with stage := .start, ovFail := false }
    | _ => s
  match s.cur.c.barAt with
  | none => s
  | some a =>
    let s' := s.updC fun c => { c with barAt := none }
    if s.live a && !(s'.cohorts.any fun c => c.c.barAt == some a) then s'.setBytes (a + 11) [s.byte (a + 11) &&& 0xEF#8] else s'

/-- Every lane of the issuing cohort leaves; it then waits for its copies, rays and log entries (`finishEnd`).
`how`: 0 exit, 1 fault, 2 HALT. -/
def endLanes (how : Nat) (s : State) : State :=
  (leaveBar s).updCur fun c => (c.drain.closeIdem |> fun c =>
    { c with c := { c.c with a := none, b := none, dstop := 0, stack := [], replay := none, park := none, wait := none,
                             stage := .start, susp := false, pend := [], hold := false, acq := none, barEnd := none, ovFail := false, hm := false, ending := some how },
             x := { c.x with win := none } })

/-- Late traps still held go to the ring (R393). -/
def ringLates (s : State) : State :=
  (s.cur.c.late.foldl (fun s r => (s.ring s.cur.pl.part { r with late := true }).2) s).updC fun c => { c with late := [] }

/-- The end of the issuing cohort on a fault, with its record (R393). A launch's completion record carries CODE 1; a
generator's fill ends with code 0xF0, whose record the waiters' records point to (R345). -/
def endOnFault (r : Rec) (s : State) : State :=
  let (ix, s) := s.ring s.cur.pl.part r
  let code := if r.cause == Cause.recursive then 0xF3 else if r.cause == Cause.cycle then 0xF4 else 0xF0
  let s := s.updX fun x => { x with gen := x.gen.map fun g => { g with end_ := some (code, ix) } }
  let s := ringLates s
  let s := match s.cur.pl.launch with
    | some l => s.updLaunch l fun x => { x with code := if x.code == 0 then 1 else x.code }
    | none => s
  endLanes 1 s

/-- Causes that end the cohort (R387). -/
def Cause.ends (c : Nat) : Bool := 0x0030 ≤ c && c ≤ 0x0034

/-! ## Taking an exception (R391, R392) -/

/-- The cohort enters its handler: the record in TREC, TDONE := DONEMASK, HM := 1, SLOT-A at block 0 of the trap overlay
with the faulting slot's mask, SLOT-B EMPTY. -/
def enterHandler (r : Rec) (s : State) : State :=
  let s := if (s.part s.cur.pl.part).fltCtl.getLsbD 0 then (s.ring s.cur.pl.part r).2 else s
  let m := s.cur.smask
  s.updC fun c =>
    { c with trec := some r, tdone := r.done, hm := true, isB := false, lastB := false, replay := none, stage := .start,
             susp := false, wait := none, onFill := none, fillEnd := none, park := none, idem := none, needEntry := true, barEnd := none, ovFail := false
             a := some ⟨true, Pc.mk s.cur.pl.trapOvl 0 0, m, false⟩, b := none }

/-- Taking an exception: the one operation through which every cohort trap goes. The outstanding results are written first
(R38). In handler mode every trap is a double trap; without a handler, in a generator and on the ending causes the cohort
ends. -/
def takeRec (r : Rec) (s : State) : State :=
  let s := (leaveBar s).updCur fun c => c.drain.closeIdem
  if s.cur.c.hm then
    let first := s.cur.c.trec.getD r
    endOnFault { first with cause := Cause.double, detail := r.cause % 256 } s
  else if s.cur.pl.trapOvl == 0 || s.cur.x.gen.isSome || Cause.ends r.cause then endOnFault r s
  else enterHandler r s

/-- A precise trap of the issuing cohort (R391). -/
def takeTrap (t : Trap) (mask : Mask) (s : State) : State :=
  let s := s.updCur Cohort.drain
  takeRec (mkRec s t mask) s

/-- Add a late trap for a cohort; a second one of the same cause raises COUNT (R391). -/
def addLate (r : Rec) (l : List Rec) : List Rec :=
  if l.any fun x => x.cause == r.cause then
    l.map fun x => if x.cause == r.cause then { x with count := min 65535 (x.count + 1) } else x
  else r :: l

/-- Deliver a late trap of the issuing cohort: its record with the slots as they stand, LATE set (R388, R391). -/
def takeLate (r : Rec) (s : State) : State :=
  let s := s.updCur Cohort.drain
  let s := s.updC fun c => { c with late := c.late.filter fun x => x.cause != r.cause }
  takeRec { r with late := !Cause.ends r.cause, slotB := s.cur.c.isB, dstop := s.cur.c.dstop, slotA := s.cur.c.a, slotBp := s.cur.c.b } s

/-- Has a BARSYNC made its counted arrival, or a SPLINTER put its table in place? What then waits is no delivery point any more (R321,
R366, R391). -/
def Stage.counted : Stage → Bool
  | .arrived _ _ | .swept _ _ => true
  | _ => false

/-- The late trap of least cause among those an instruction delivers (R391); none in handler mode. -/
def dueLate (s : State) (causes : List Nat) : Option Rec :=
  if s.cur.c.hm || s.cur.c.stage.counted then none
  else (s.cur.c.late.filter fun r => causes.contains r.cause || r.cause == Cause.poison).foldl
    (fun best r => match best with
      | some b => if b.cause ≤ r.cause then some b else some r
      | none => some r) none

/-! ## Returning from an exception (R394) -/

/-- The slots, DSTOP and handler mode restored from TREC; SLOTB in TREC says which slot resumes. -/
def restoreTrec (s : State) : State :=
  match s.cur.c.trec with
  | none => s.updC fun c => { c with hm := false }
  | some r => s.updC fun c => { c with a := r.slotA, b := r.slotBp, dstop := r.dstop, hm := false, isB := r.slotB }

/-! ## Issue -/

/-- What an instruction is: uniform or not, its register operands with the registers each takes, whether it is
privileged, the late traps delivered at it, and the operand that holds the address of its accesses (R388, log 42). -/
structure Meta where
  uni : Bool := false
  srcs : List (Opd × Nat) := []
  dsts : List (Opd × Nat) := []
  priv : Bool := false
  lates : List Nat := []
  opnd : Nat := 0
  /-- the illegal-instruction or privilege trap that its operands raise at decode, whatever the guard (R48, R384) -/
  pre : State → Option Trap := fun _ => none

/-- A V register at or above the allocation or an unbound Z handle (R12, R48). -/
def badOpd (s : State) (o : Opd × Nat) : Bool :=
  match o.1 with
  | .v n => decide (s.cur.r.vregs < n.toNat + max 1 o.2)
  | .z n => (s.cur.r.rdZ n.toNat).isNone
  | _ => false

/-- The code of the first operand of a list that cannot be accessed; an operand's code is its place in the list. -/
def badIn (s : State) : List (Opd × Nat) → Nat → Option Nat
  | [], _ => none
  | o :: l, k => if badOpd s o then some k else badIn s l (k + 1)

/-- The first operand that cannot be accessed, by its code in R388: the destination is 4, a second one stands in field B;
the sources are A, B and C in order. -/
def badOpnd (s : State) (mt : Meta) : Option Nat :=
  match mt.dsts with
  | o :: l => if badOpd s o then some 4 else if l.any (badOpd s) then some 2 else badIn s mt.srcs 1
  | [] => badIn s mt.srcs 1

/-- Causes of a trap that concern an address (R387). -/
def Cause.ofAddress (c : Nat) : Bool :=
  c == Cause.alignment || c == Cause.access || c == Cause.poison || c == Cause.barClobber || c == Cause.generator
    || c == Cause.recursive || c == Cause.cycle

/-- The operand concerned, for a trap over an address that names none itself. -/
def Trap.withOpnd (k : Nat) (t : Trap) : Trap := if t.opnd == 0 && Cause.ofAddress t.cause then { t with opnd := k } else t

/-- Run a part of a body whose addresses come from an operand. -/
def M.opnd {α : Type} (k : Nat) (x : M α) : M α := fun s =>
  match x s with
  | .error (.trap t s') => .error (.trap (t.withOpnd k) s')
  | r => r

/-- Register keys of an operand, as `Idem` numbers them. -/
def opdKeys (o : Opd × Nat) : List Nat :=
  match o.1 with
  | .v n => (List.range (max 1 o.2)).map (n.toNat + ·)
  | .s n => (List.range (max 1 o.2)).map fun k => 256 + (n.toNat + k) % 128
  | .p n => if n == 7#3 then [] else [384 + n.toNat]
  | .q n => if n == 7#3 then [] else [392 + n.toNat]
  | _ => []

/-- The region's record of a read before a write and of a write (R402). -/
def noteIdem (rd wr : List Nat) (i : Idem) : Idem :=
  let ins := (rd.filter fun k => !i.written.contains k && !i.inputs.contains k).eraseDups
  let inputs := i.inputs ++ ins
  { i with inputs := inputs, written := (i.written ++ wr).eraseDups, spoiled := i.spoiled || wr.any inputs.contains }

/-- The guard as an operand that is read. -/
def guardOpd (h : Hdr) (uni : Bool) : Opd := if uni then .q h.g.idx else .p h.g.idx

/-- The value of a guard in lane form and in uniform form (R32). -/
def guardP (g : Guard) (c : Cohort) : Mask := if g.neg then ~~~(c.r.rdP g.idx.toNat) else c.r.rdP g.idx.toNat
def guardQ (g : Guard) (c : Cohort) : Bool := if g.neg then !(c.r.rdQ g.idx.toNat) else c.r.rdQ g.idx.toNat

/-- The active lanes: in uniform form the slot's mask when the guard is true (R32); a replayed instruction takes the lanes
of its record and reads no guard again (R394). -/
def activeMask (h : Hdr) (uni : Bool) (c : Cohort) : Mask :=
  let own := if uni then (if guardQ h.g c then c.smask else 0#32) else c.smask &&& guardP h.g c
  match c.c.replay with
  | some (b, m) => if b == c.c.isB then m else own
  | none => own

/-- The block of a resident overlay at an index, as the core's instruction store holds it. -/
def ovSlot? (s : State) (core part asid n : Nat) : Option OvSlot :=
  s.slots.find? fun o => o.core == core && o.part == part && o.asid == asid && o.ovl == n && o.st != .free

def blockAt? (s : State) (core part asid : Nat) (pc : Pc) : Option (BitVec 512) :=
  match ovSlot? s core part asid pc.ovl with
  | some o => if o.st == .resident && pc.blk < o.nblk then o.blocks[pc.blk]? else none
  | none => none

/-- VALID, ENTRY and LAST of a block's trailer (R40). -/
def blkValid (b : BitVec 512) : Nat := (b.extractLsb' 496 3).toNat
def blkEntry (b : BitVec 512) : Bool := b.getLsbD 499
def blkLast (b : BitVec 512) : Bool := b.getLsbD 500

/-- The part at the instruction after its own (R44). A part whose block is not at hand moves by one slot. -/
def PcPart.advance (s : State) (c : Cohort) (p : PcPart) : PcPart :=
  match blockAt? s c.pl.core c.pl.part c.pl.asid p.pc with
  | some b =>
    if p.pc.slot + 1 < blkValid b then { p with pc := Pc.mk p.pc.ovl p.pc.blk (p.pc.slot + 1) }
    else { p with pc := Pc.mk p.pc.ovl (p.pc.blk + 1) 0, off := blkLast b || p.pc.blk + 1 == 8192 }
  | none => { p with pc := Pc.mk p.pc.ovl p.pc.blk (p.pc.slot + 1) }

/-- Move the issuing PC slot past its instruction (R44). -/
def advancePc (s : State) : State := s.updCur fun c => c.setPart (c.part?.map (PcPart.advance s c))

/-- What an issue leaves: SCHED effects (R35, R37), which slot issued last (R297), the cycle. -/
def retire (sc : Sched) (s : State) : State :=
  let c0 := s.m.cycle
  let s := s.updCur fun c =>
    let c := { c with c := { c.c with lastB := c.c.isB, stage := .start, susp := false, wait := none, barAt := none, barEnd := none, ovFail := false, onFill := none
                                      fillEnd := none, readyAt := c0 + 1 + sc.stall.toNat } }
    if sc.sw then c.drain else c
  s.tick 1

/-- The instruction waits: nothing has performed but what its body keeps, and it is presented again. -/
def park (w : WaitOn) (s : State) : State :=
  (s.updCur fun c => let c := c.drain; { c with c := { c.c with wait := some w, susp := true, readyAt := s.m.cycle + 1 } }).tick 1

/-- The state in which an instruction is checked: results due now are written (R36). -/
def arrive0 (s : State) : State := s.updCur fun c => c.commit s.m.cycle

/-- The state in which its body runs: an open idempotent region notes its reads and writes (R402), and a replay mask of its PC
slot is used up. -/
def noteI (h : Hdr) (mt : Meta) (s : State) : State :=
  s.updC fun c =>
    { c with idem := c.idem.map (noteIdem (((guardOpd h mt.uni, 1) :: mt.srcs).flatMap opdKeys) (mt.dsts.flatMap opdKeys)) }
def useReplay (s : State) : State := s.updC fun c => { c with replay := c.replay.filter fun r => r.1 != c.isB }

/-- Does the body run: a uniform form whose guard is false does nothing (R32)? -/
def bodyRuns (mt : Meta) (m : Mask) : Bool := !(mt.uni && m == 0#32)

/-- The late traps delivered at an instruction: none of its own when its body does not run (R32). -/
def latesNow (mt : Meta) (m : Mask) : List Nat := if bodyRuns mt m then mt.lates else []

/-- How an instruction ends: a trap is taken, a late trap due is delivered instead of the instruction, a wait presents it
again; `s` is the state before the body. -/
def endI (h : Hdr) (mt : Meta) (own : Bool) (full m : Mask) (s : State) : Except Stop (Unit × State) → State
  | .error (.trap t s') => takeTrap (t.withOpnd mt.opnd) full s' |>.tick 1
  | .error (.late r s') =>
    match dueLate s (latesNow mt m) with
    | some r0 => (if r0.cause ≤ r.cause || r.cause < 0x20 then takeLate r0 s else takeLate r s').tick 1
    | none => (takeLate r s').tick 1
  | .error (.wait w s') =>
    match dueLate s (latesNow mt m) with
    | some r => (takeLate r s).tick 1
    | none => park w (s'.updC fun c => { c with replay := s.cur.c.replay })
  | .ok ((), s') =>
    match dueLate s (latesNow mt m) with
    | some r => (takeLate r s).tick 1
    | none => retire h.sc (if own && bodyRuns mt m then s' else advancePc s')

/-- One instruction of the issuing cohort: results due now are written, then the checks of R48 (privilege, access), then the
body with the active lanes. `own` bodies set the PC themselves. -/
def runS (h : Hdr) (mt : Meta) (own : Bool) (body : Mask → M Unit) (s0 : State) : State :=
  let s := arrive0 s0
  let m := activeMask h mt.uni s.cur
  let full := if mt.uni then s.cur.smask else m
  match mt.pre s with
  | some t => (takeTrap t full s).tick 1
  | none =>
  if mt.priv && !s.cur.pl.priv then (takeTrap { cause := Cause.privilege } full s).tick 1
  else match badOpnd s mt with
    | some k => (takeTrap { accessT 0 with opnd := k } full s).tick 1
    | none => endI h mt own full m (noteI h mt s) (if bodyRuns mt m then body m (useReplay (noteI h mt s)) else .ok ((), useReplay (noteI h mt s)))

/-- Run one instruction of the issuing cohort. -/
def runI (h : Hdr) (mt : Meta) (own : Bool) (body : Mask → M Unit) (s : State) : Host.Outcome State Fault Refusal :=
  if s.cur.resident then .next (runS h mt own body s) else .fault .notResident

/-- Give a result: its writes, its flags and its latency; none is a variable latency (R36). -/
def emitR (ws : List Wr) (flags : BitVec 6) (lat : Option Nat) : M Unit :=
  M.upd fun s => s.updC fun c => { c with pend := c.pend ++ [⟨ws, flags, lat.map (s.m.cycle + ·)⟩] }

/-- An event of the machine: a state function; it may let waiting instructions be presented again. -/
def runE (f : State → State) (s : State) : Host.Outcome State Fault Refusal := .next (f s).wake

/-- An event written as a computation: a trap or a wait inside it leaves the state as it was at that point. -/
def M.exec (x : M Unit) (s : State) : State :=
  match x s with
  | .ok ((), s') => s'
  | .error (.trap _ s') => s'
  | .error (.late _ s') => s'
  | .error (.wait _ s') => s'

/-- Make another resident cohort the issuing one; the one that was goes among the others. -/
def switchTo (id : Nat) (s : State) : State :=
  if s.cur.resident && s.cur.pl.id == id then s
  else match s.others.find? fun c => c.pl.id == id with
    | none => s
    | some c =>
      { s with cur := c, others := s.others.filter (fun o => o.pl.id != id) ++ (if s.cur.resident then [s.cur] else []) }

/-- Put the issuing cohort of `s0` back in its place after `switchTo`. -/
def switchBack (s0 s : State) : State :=
  if s0.cur.resident then switchTo s0.cur.pl.id s
  else { s with cur := s0.cur, others := s.others ++ (if s.cur.resident then [s.cur] else []) }

/-- Run a state function as a cohort of a place of its own that is no resident cohort: an engine that works for a launch. -/
def asPlace {α : Type} (pl : Place) (f : State → α × State) (s : State) : α × State :=
  let c : Cohort := ⟨true, pl, .reset, .reset, .reset⟩
  let (x, s') := f { s with cur := c, others := s.others ++ (if s.cur.resident then [s.cur] else []) }
  if s.cur.resident then
    match s'.others.find? fun o => o.pl.id == s.cur.pl.id with
    | some o => (x, { s' with cur := o, others := s'.others.filter fun o => o.pl.id != s.cur.pl.id })
    | none => (x, { s' with cur := s.cur })
  else (x, { s' with cur := s.cur })

/-- Run a state function as another resident cohort; a cohort that is not resident does nothing. -/
def asCohort {α : Type} (id : Nat) (d : α) (f : State → α × State) (s : State) : α × State :=
  if (s.cohort? id).isNone then (d, s)
  else
    let (x, s') := f (switchTo id s)
    (x, switchBack s s')

end Sys2Proof.Machine
end

