-- ==== Sys2Proof/Machine/Flags.lean ====
section
/-! DEFINITION. FPSTAT (R90, R91): how the flags that `Num` computes join it, how it is read and how it is cleared. -/

namespace Sys2Proof.Machine

/-- The OR of the exceptions of the active lanes (R91). -/
def joinFlags (l : List (BitVec 6)) : BitVec 6 := l.foldl (· ||| ·) 0#6

/-- FPSTAT as CSRR returns it: every earlier result of the cohort is written first (R91). -/
def readFpstat (c : Cohort) : Word := c.drain.r.fpstat

/-- CSRW of FPSTAT: it waits in the same way, then the bits written 1 are cleared (R90, R91); the rest is reserved. -/
def clearFpstat (x : Word) (c : Cohort) : Cohort :=
  let c := c.drain
  { c with r := { c.r with fpstat := c.r.fpstat &&& ~~~x } }

end Sys2Proof.Machine
end

