-- ==== Sys2Proof/Machine/Num.lean ====
section
/-! DEFINITION. Number formats as exact values (R57 to R61), the one rounding of R55 with its exceptions, overflow and
specials by R67, and the IEEE 754 operations that the instructions of 04 to 06 name. -/

namespace Sys2Proof.Machine

/-- FPSTAT flags (R90). -/
abbrev Flags := BitVec 6
namespace Fl
def invalid : Flags := 0b000001
def divzero : Flags := 0b000010
def overflow : Flags := 0b000100
def underflow : Flags := 0b001000
def inexact : Flags := 0b010000
def rsvnf : Flags := 0b100000
end Fl

/-- How a format uses its top codes (R58): infinities and NaNs, the one NaN of E4M3, none. -/
inductive FKind where
  | ieee | e4m3 | fin
deriving DecidableEq, Repr

/-- A floating-point format (R57). -/
structure Fmt where
  e : Nat
  t : Nat
  bias : Nat
  kind : FKind
deriving DecidableEq, Repr

namespace Fmt
def f64 : Fmt := ⟨11, 52, 1023, .ieee⟩
def f32 : Fmt := ⟨8, 23, 127, .ieee⟩
def f16 : Fmt := ⟨5, 10, 15, .ieee⟩
def bf16 : Fmt := ⟨8, 7, 127, .ieee⟩
def e4m3 : Fmt := ⟨4, 3, 7, .e4m3⟩
def e5m2 : Fmt := ⟨5, 2, 15, .ieee⟩
def e3m2 : Fmt := ⟨3, 2, 3, .fin⟩
def e2m3 : Fmt := ⟨2, 3, 1, .fin⟩
def e2m1 : Fmt := ⟨2, 1, 1, .fin⟩
/-- Width in bits. -/
def w (f : Fmt) : Nat := 1 + f.e + f.t
/-- The sign bit as a number. -/
def sgn (f : Fmt) (neg : Bool) : Nat := if neg then 2 ^ (f.e + f.t) else 0
/-- Code of the largest finite magnitude (R58). -/
def maxCode (f : Fmt) : Nat :=
  match f.kind with
  | .ieee => (2 ^ f.e - 2) * 2 ^ f.t + (2 ^ f.t - 1)
  | .e4m3 => 2 ^ (f.e + f.t) - 2
  | .fin => 2 ^ (f.e + f.t) - 1
/-- Code of +infinity, where the format has one. -/
def infCode (f : Fmt) : Nat := (2 ^ f.e - 1) * 2 ^ f.t
/-- The canonical NaN (R58). -/
def nanCode (f : Fmt) : Nat :=
  match f.kind with
  | .ieee => (2 ^ f.e - 1) * 2 ^ f.t + 2 ^ (f.t - 1)
  | .e4m3 => 2 ^ (f.e + f.t) - 1
  | .fin => 0
end Fmt

/-- An exact value: (−1)^neg · m · 2^e, an infinity, or a NaN that signals or not. -/
inductive Val where
  | fin (neg : Bool) (m : Nat) (e : Int)
  | inf (neg : Bool)
  | nan (sig neg : Bool)
deriving DecidableEq, Repr

/-- The value of a code (R57, R58). -/
def Fmt.val (f : Fmt) (c : Nat) : Val :=
  let neg := nbit c (f.e + f.t)
  let ex := c / 2 ^ f.t % 2 ^ f.e
  let m := c % 2 ^ f.t
  let special := match f.kind with
    | .ieee => ex == 2 ^ f.e - 1
    | .e4m3 => ex == 2 ^ f.e - 1 && m == 2 ^ f.t - 1
    | .fin => false
  if special then
    if f.kind == .ieee && m == 0 then .inf neg
    else .nan (f.kind == .ieee && !nbit m (f.t - 1)) neg
  else if ex == 0 then .fin neg m (1 - (f.bias : Int) - f.t)
  else .fin neg (m + 2 ^ f.t) ((ex : Int) - f.bias - f.t)

/-- Is the code subnormal and not zero? -/
def Fmt.sub (f : Fmt) (c : Nat) : Bool := c / 2 ^ f.t % 2 ^ f.e == 0 && c % 2 ^ f.t != 0
/-- ftz of R55 on a code. -/
def Fmt.ftz (f : Fmt) (c : Nat) : Nat := if f.sub c then f.sgn (nbit c (f.e + f.t)) else c

/-- The unit above, toward the mode's direction: does an inexact remainder round the magnitude up? `half` compares the
remainder with one half: less, equal, greater. -/
def roundUp (rm : Rnd) (neg odd inexact : Bool) (half : Ordering) : Bool :=
  match rm with
  | .rne => match half with
    | .lt => false
    | .gt => true
    | .eq => odd
  | .rz => false
  | .ru => inexact && !neg
  | .rd => inexact && neg

/-- m·2^e, with a positive remainder below one unit when `st`, rounded to a multiple of 2^q: the multiple, and whether it
is inexact. -/
def quantize (rm : Rnd) (neg : Bool) (m : Nat) (e : Int) (st : Bool) (q : Int) : Nat × Bool :=
  if q ≤ e then
    let n := m * 2 ^ (e - q).toNat
    (if roundUp rm neg (n % 2 == 1) st .lt then n + 1 else n, st)
  else
    let k := (q - e).toNat
    let n := m / 2 ^ k
    let rem := m % 2 ^ k
    let inexact := rem != 0 || st
    let half := if 2 * rem < 2 ^ k then Ordering.lt else if 2 * rem == 2 ^ k && !st then .eq else .gt
    (if roundUp rm neg (n % 2 == 1) inexact half then n + 1 else n, inexact)

/-- floor(log2 m) for m > 0. -/
def lead (m : Nat) : Int := (Nat.log2 m : Int)

/-- What an overflow gives (R67): the code. -/
def Fmt.big (f : Fmt) (rm : Rnd) (sat neg : Bool) : Nat :=
  let bound := match rm with
    | .rne => true
    | .rz => false
    | .ru => !neg
    | .rd => neg
  f.sgn neg +
    (if !bound || sat then f.maxCode
     else match f.kind with
      | .ieee => f.infCode
      | .e4m3 => f.nanCode
      | .fin => f.maxCode)

/-- round() of R55 for a finite value, with the exceptions: overflow and inexact beyond the largest finite value, underflow
when tiny after rounding and inexact; under `ftz` a subnormal result becomes zero of its sign (R93). -/
def Fmt.roundFin (f : Fmt) (rm : Rnd) (sat ftz : Bool) (neg : Bool) (m : Nat) (e : Int) (st : Bool) : Nat × Flags :=
  if m == 0 && !st then (f.sgn neg, 0)
  else
    let emin : Int := 1 - (f.bias : Int)
    let lg := lead m + e
    let qu := lg - f.t
    let q := max qu (emin - f.t)
    let (n0, inexact) := quantize rm neg m e st q
    let (n, q) := if n0 == 2 ^ (f.t + 1) then (2 ^ f.t, q + 1) else (n0, q)
    let ex := (q + f.t + f.bias).toNat
    let code := if n < 2 ^ f.t then n else ex * 2 ^ f.t + (n - 2 ^ f.t)
    if code > f.maxCode then (f.big rm sat neg, Fl.overflow ||| Fl.inexact)
    else
      let tiny := lg < emin && inexact &&
        (let nu := (quantize rm neg m e st qu).1
         decide (lead nu + qu < emin) || nu == 0)
      let fl := (if inexact then Fl.inexact else 0) ||| (if tiny then Fl.underflow else 0)
      if ftz && n != 0 && n < 2 ^ f.t then (f.sgn neg, fl ||| Fl.underflow ||| Fl.inexact)
      else (f.sgn neg + code, fl)

/-- round() of any exact value by R67; a signalling NaN raises invalid where the operation has not already. -/
def Fmt.round (f : Fmt) (rm : Rnd) (sat ftz : Bool) (x : Val) (st : Bool := false) : Nat × Flags :=
  match x with
  | .fin neg m e => f.roundFin rm sat ftz neg m e st
  | .inf neg =>
    (f.sgn neg + (if sat then f.maxCode else match f.kind with
      | .ieee => f.infCode
      | .e4m3 => f.nanCode
      | .fin => f.maxCode), 0)
  | .nan sig _ => if f.kind == .fin then (0, Fl.invalid) else (f.nanCode, if sig then Fl.invalid else 0)

/-! ## Exact operations -/

namespace Val
def isNan : Val → Bool
  | .nan _ _ => true
  | _ => false
def isSig : Val → Bool
  | .nan s _ => s
  | _ => false
def isInf : Val → Bool
  | .inf _ => true
  | _ => false
def isZero : Val → Bool
  | .fin _ m _ => m == 0
  | _ => false
def neg? : Val → Bool
  | .fin n _ _ => n
  | .inf n => n
  | .nan _ n => n
def negate : Val → Val
  | .fin n m e => .fin (!n) m e
  | .inf n => .inf (!n)
  | .nan s n => .nan s (!n)
def abs : Val → Val
  | .fin _ m e => .fin false m e
  | .inf _ => .inf false
  | .nan s _ => .nan s false
def ofInt (x : Int) : Val := .fin (decide (x < 0)) x.natAbs 0
def one : Val := .fin false 1 0
def qnan : Val := .nan false false

/-- The signed integer x with value x·2^e at a common exponent at or below both. -/
def scaled (neg : Bool) (m : Nat) (e lo : Int) : Int :=
  let n : Int := (m * 2 ^ (e - lo).toNat : Nat)
  if neg then -n else n

/-- Exact sum of two finite values; an exact zero of opposite signs is −0 under .rd only (R92). -/
def addFin (rm : Rnd) (n1 : Bool) (m1 : Nat) (e1 : Int) (n2 : Bool) (m2 : Nat) (e2 : Int) : Val :=
  if m1 == 0 && m2 == 0 then .fin (if n1 == n2 then n1 else rm == .rd) 0 0
  else
    let lo := min (if m1 == 0 then e2 else e1) (if m2 == 0 then e1 else e2)
    let z := (if m1 == 0 then 0 else scaled n1 m1 e1 lo) + (if m2 == 0 then 0 else scaled n2 m2 e2 lo)
    if z == 0 then .fin (rm == .rd) 0 0 else .fin (decide (z < 0)) z.natAbs lo

/-- Sum, and whether it is invalid. -/
def add (rm : Rnd) (x y : Val) : Val × Bool :=
  match x, y with
  | .nan _ _, _ => (qnan, false)
  | _, .nan _ _ => (qnan, false)
  | .inf a, .inf b => if a == b then (.inf a, false) else (qnan, true)
  | .inf a, _ => (.inf a, false)
  | _, .inf b => (.inf b, false)
  | .fin n1 m1 e1, .fin n2 m2 e2 => (addFin rm n1 m1 e1 n2 m2 e2, false)

/-- Product, and whether it is invalid. -/
def mul (x y : Val) : Val × Bool :=
  match x, y with
  | .nan _ _, _ => (qnan, false)
  | _, .nan _ _ => (qnan, false)
  | .inf a, .inf b => (.inf (a != b), false)
  | .inf a, .fin n m _ => if m == 0 then (qnan, true) else (.inf (a != n), false)
  | .fin n m _, .inf b => if m == 0 then (qnan, true) else (.inf (n != b), false)
  | .fin n1 m1 e1, .fin n2 m2 e2 => (.fin (n1 != n2) (m1 * m2) (e1 + e2), false)

/-- Is x < y, for values that are no NaN? -/
def lt (x y : Val) : Bool :=
  match x, y with
  | .inf a, .inf b => a && !b
  | .inf a, _ => a
  | _, .inf b => !b
  | .fin n1 m1 e1, .fin n2 m2 e2 =>
    let lo := min e1 e2
    decide (scaled n1 m1 e1 lo < scaled n2 m2 e2 lo)
  | _, _ => false

/-- Is x = y, for values that are no NaN? +0 equals −0. -/
def eq (x y : Val) : Bool :=
  match x, y with
  | .inf a, .inf b => a == b
  | .fin n1 m1 e1, .fin n2 m2 e2 =>
    let lo := min e1 e2
    scaled n1 m1 e1 lo == scaled n2 m2 e2 lo
  | _, _ => false
end Val

/-- Floor of the square root, bit by bit from bit `k`. -/
def isqrtGo : Nat → Nat → Nat → Nat
  | 0, _, r => r
  | k + 1, n, r => if (r + 2 ^ k) * (r + 2 ^ k) ≤ n then isqrtGo k n (r + 2 ^ k) else isqrtGo k n r
def isqrt (n : Nat) : Nat := isqrtGo (Nat.log2 n / 2 + 1) n 0

/-- m1·2^e1 / m2·2^e2 with at least `p` significant bits: quotient, exponent, remainder present. -/
def divNat (p : Nat) (m1 : Nat) (e1 : Int) (m2 : Nat) (e2 : Int) : Nat × Int × Bool :=
  let k := p + Nat.log2 m2 + 2 - Nat.log2 m1
  (m1 * 2 ^ k / m2, e1 - e2 - k, m1 * 2 ^ k % m2 != 0)

/-- Root of m·2^e with at least `p` significant bits. -/
def sqrtNat (p : Nat) (m : Nat) (e : Int) : Nat × Int × Bool :=
  let k0 := 2 * p + 4 - Nat.log2 m
  let k := if (e - k0) % 2 == 0 then k0 else k0 + 1
  let x := m * 2 ^ k
  let r := isqrt x
  (r, (e - k) / 2, r * r != x)

/-! ## The operations of R110 on codes -/

/-- A code after .absa and .neg (R94). -/
def Fmt.mods (f : Fmt) (neg abs : Bool) (c : Nat) : Nat :=
  let c := if abs then c % 2 ^ (f.e + f.t) else c
  if neg then c ^^^ 2 ^ (f.e + f.t) else c

/-- The invalid flag of signalling NaN operands (R92). -/
def sigFlag (l : List Val) : Flags := if l.any Val.isSig then Fl.invalid else 0

/-- Round an exact result with the invalid flag of its operation. -/
def Fmt.fin1 (f : Fmt) (rm : Rnd) (sat ftz : Bool) (r : Val × Bool) (st : Bool) (fl : Flags) : Nat × Flags :=
  let (c, g) := f.round rm sat ftz r.1 st
  (c, g ||| fl ||| (if r.2 then Fl.invalid else 0))

def Fmt.add (f : Fmt) (rm : Rnd) (sat ftz : Bool) (a b : Nat) : Nat × Flags :=
  let x := f.val (if ftz then f.ftz a else a)
  let y := f.val (if ftz then f.ftz b else b)
  f.fin1 rm sat ftz (Val.add rm x y) false (sigFlag [x, y])

def Fmt.mul (f : Fmt) (rm : Rnd) (sat ftz : Bool) (a b : Nat) : Nat × Flags :=
  let x := f.val (if ftz then f.ftz a else a)
  let y := f.val (if ftz then f.ftz b else b)
  f.fin1 rm sat ftz (Val.mul x y) false (sigFlag [x, y])

/-- a × b + c with one rounding; a quiet NaN operand raises nothing (R92). -/
def Fmt.fma (f : Fmt) (rm : Rnd) (sat ftz : Bool) (a b c : Nat) : Nat × Flags :=
  let x := f.val (if ftz then f.ftz a else a)
  let y := f.val (if ftz then f.ftz b else b)
  let z := f.val (if ftz then f.ftz c else c)
  if x.isNan || y.isNan || z.isNan then (f.nanCode, sigFlag [x, y, z])
  else
    let p := Val.mul x y
    if p.2 then (f.nanCode, Fl.invalid) else f.fin1 rm sat ftz (Val.add rm p.1 z) false 0

def Fmt.div (f : Fmt) (rm : Rnd) (sat ftz : Bool) (a b : Nat) : Nat × Flags :=
  let x := f.val (if ftz then f.ftz a else a)
  let y := f.val (if ftz then f.ftz b else b)
  match x, y with
  | .fin n1 m1 e1, .fin n2 m2 e2 =>
    if m2 == 0 then
      if m1 == 0 then (f.nanCode, Fl.invalid)
      else f.fin1 rm sat ftz (.inf (n1 != n2), false) false Fl.divzero
    else if m1 == 0 then (f.sgn (n1 != n2), 0)
    else
      let (q, e, st) := divNat (f.t + 3) m1 e1 m2 e2
      f.fin1 rm sat ftz (.fin (n1 != n2) q e, false) st 0
  | .inf n, .fin n2 _ _ => f.fin1 rm sat ftz (.inf (n != n2), false) false 0
  | .fin n1 _ _, .inf n => (f.sgn (n1 != n), 0)
  | .inf _, .inf _ => (f.nanCode, Fl.invalid)
  | x, y => (f.nanCode, sigFlag [x, y])

def Fmt.sqrt (f : Fmt) (rm : Rnd) (sat ftz : Bool) (a : Nat) : Nat × Flags :=
  let x := f.val (if ftz then f.ftz a else a)
  match x with
  | .fin n m e =>
    if m == 0 then (f.sgn n, 0)
    else if n then (f.nanCode, Fl.invalid)
    else
      let (q, e, st) := sqrtNat (f.t + 3) m e
      f.fin1 rm sat ftz (.fin false q e, false) st 0
  | .inf n => if n then (f.nanCode, Fl.invalid) else f.fin1 rm sat ftz (.inf false, false) false 0
  | x => (f.nanCode, sigFlag [x])

/-- minimumNumber and maximumNumber (R111): −0 orders below +0. -/
def Fmt.minmax (f : Fmt) (isMax ftz : Bool) (a b : Nat) : Nat × Flags :=
  let a := if ftz then f.ftz a else a
  let b := if ftz then f.ftz b else b
  let x := f.val a
  let y := f.val b
  let fl := sigFlag [x, y]
  if x.isNan && y.isNan then (f.nanCode, fl)
  else if x.isNan then (b, fl)
  else if y.isNan then (a, fl)
  else
    let le := Val.lt x y || (Val.eq x y && (x.neg? || !y.neg?))
    (if le == isMax then b else a, fl)

/-- The relations of R112. -/
def Fmt.cmp (f : Fmt) (op : FCmp) (ftz : Bool) (a b : Nat) : Bool × Flags :=
  let x := f.val (if ftz then f.ftz a else a)
  let y := f.val (if ftz then f.ftz b else b)
  let nan := x.isNan || y.isNan
  match op with
  | .eq => (!nan && Val.eq x y, sigFlag [x, y])
  | .ne => (nan || !Val.eq x y, sigFlag [x, y])
  | .lt => (!nan && Val.lt x y, if nan then Fl.invalid else 0)
  | .le => (!nan && (Val.lt x y || Val.eq x y), if nan then Fl.invalid else 0)
  | .gt => (!nan && Val.lt y x, if nan then Fl.invalid else 0)
  | .ge => (!nan && (Val.lt y x || Val.eq x y), if nan then Fl.invalid else 0)
  | .num => (!nan, sigFlag [x, y])
  | .nan => (nan, sigFlag [x, y])

/-- The class mask of R113. -/
def Fmt.classify (f : Fmt) (a : Nat) : Nat :=
  match f.val a with
  | .inf n => if n then 2 ^ 0 else 2 ^ 7
  | .nan s _ => if s then 2 ^ 8 else 2 ^ 9
  | .fin n m _ =>
    if m == 0 then (if n then 2 ^ 3 else 2 ^ 4)
    else if f.sub a then (if n then 2 ^ 2 else 2 ^ 5)
    else if n then 2 ^ 1 else 2 ^ 6

/-- The integer that a finite value rounds to, and whether it changed (R114, R119). -/
def roundInt (rm : Rnd) (neg : Bool) (m : Nat) (e : Int) : Int × Bool :=
  let (n, ix) := quantize rm neg m e false 0
  (if neg then -(n : Int) else n, ix)

/-- FRND (R114). -/
def Fmt.frnd (f : Fmt) (rm : Rnd) (ftz : Bool) (a : Nat) : Nat × Flags :=
  let a := if ftz then f.ftz a else a
  match f.val a with
  | .fin n m e =>
    if 0 ≤ e || m == 0 then (a, 0)
    else
      let (z, _) := roundInt rm n m e
      (((f.roundFin .rne false false n z.natAbs 0 false).1), 0)
  | .inf _ => (a, 0)
  | .nan s _ => (f.nanCode, if s then Fl.invalid else 0)

/-! ## Functions that truncate (R115), in fixed point with 400 fraction bits -/

namespace Fix
/-- Fraction bits. -/
def F : Nat := 400
def one : Nat := 2 ^ F

/-- ln 2 as the sum of 1 / (k 2^k). -/
def ln2Go : Nat → Nat
  | 0 => 0
  | k + 1 => one / ((k + 1) * 2 ^ (k + 1)) + ln2Go k
def ln2 : Nat := ln2Go 410

/-- arctan(1/x): Σ (−1)^j / ((2j + 1) x^(2j + 1)), positive and negative terms summed apart. -/
def atanGo (x : Nat) : Nat → Nat → Nat → Int
  | 0, _, _ => 0
  | k + 1, j, p =>
    let t : Int := (p / (2 * j + 1) : Nat)
    (if j % 2 == 0 then t else -t) + atanGo x k (j + 1) (p / (x * x))
/-- π by Machin: 16 arctan(1/5) − 4 arctan(1/239). -/
def pi : Nat := (16 * atanGo 5 90 0 (one / 5) - 4 * atanGo 239 30 0 (one / 239)).toNat

/-- Σ x^k / k! from term `t` of index `j`. -/
def expGo (x : Nat) : Nat → Nat → Nat → Nat
  | 0, _, _ => 0
  | k + 1, j, t => t + expGo x k (j + 1) (t * x / one / (j + 1))
/-- e^x for 0 ≤ x < 1. -/
def exp (x : Nat) : Nat := expGo x 90 0 one

/-- z + z³/3 + z⁵/5 + … with z2 = z². -/
def atanhGo (z2 : Nat) : Nat → Nat → Nat → Nat
  | 0, _, _ => 0
  | k + 1, j, t => t / (2 * j + 1) + atanhGo z2 k (j + 1) (t * z2 / one)
/-- ln(m / 2^k) for 1 ≤ m / 2^k < 2. -/
def lnM (m k : Nat) : Nat :=
  let z := (m - 2 ^ k) * one / (m + 2 ^ k)
  2 * atanhGo (z * z / one) 135 0 z

/-- Alternating series of sine (j odd) and cosine (j even) from term `t` of degree `j`. -/
def trigGo (x2 : Nat) : Nat → Nat → Bool → Nat → Int
  | 0, _, _, _ => 0
  | k + 1, j, s, t =>
    (if s then -(t : Int) else t) + trigGo x2 k (j + 2) (!s) (t * x2 / one / ((j + 1) * (j + 2)))
def sin (x : Nat) : Nat := (trigGo (x * x / one) 60 1 false x).toNat
def cos (x : Nat) : Nat := (trigGo (x * x / one) 60 0 false one).toNat
end Fix

/-- A truncated function value that is not exact: m·2^e with a remainder. -/
def Fmt.trunc (f : Fmt) (sat ftz : Bool) (neg : Bool) (m : Nat) (e : Int) : Nat × Flags :=
  f.roundFin .rz sat ftz neg m e true

/-- 2^a (R115). -/
def Fmt.exp2 (f : Fmt) (sat ftz : Bool) (a : Nat) : Nat × Flags :=
  match f.val (if ftz then f.ftz a else a) with
  | .nan s _ => (f.nanCode, if s then Fl.invalid else 0)
  | .inf n => if n then (0, 0) else f.round .rz sat ftz (.inf false)
  | .fin n m e =>
    if m == 0 then f.roundFin .rz sat ftz false 1 0 false
    else if lead m + e ≥ 12 then
      if n then f.trunc sat ftz false 1 (-4000)
      else (if sat then f.maxCode else f.infCode, Fl.overflow ||| Fl.inexact)
    else
      -- floor and fraction of the exact value, the fraction over 2^k
      let k := (-e).toNat
      let z : Int := if n then -((m * 2 ^ e.toNat : Nat) : Int) else ((m * 2 ^ e.toNat : Nat) : Int)
      let fl := z / (2 ^ k : Int)
      let fr := (z % (2 ^ k : Int)).toNat
      if !n && fl ≥ 128 then (if sat then f.maxCode else f.infCode, Fl.overflow ||| Fl.inexact)
      else if fr == 0 then f.roundFin .rz sat ftz false 1 fl false
      else f.trunc sat ftz false (Fix.exp (fr * Fix.ln2 / 2 ^ k)) (fl - Fix.F)

/-- log2 a (R115). -/
def Fmt.log2 (f : Fmt) (sat ftz : Bool) (a : Nat) : Nat × Flags :=
  match f.val (if ftz then f.ftz a else a) with
  | .nan s _ => (f.nanCode, if s then Fl.invalid else 0)
  | .inf n => if n then (f.nanCode, Fl.invalid) else f.round .rz sat ftz (.inf false)
  | .fin n m e =>
    if m == 0 then ((f.round .rz sat ftz (.inf true)).1, Fl.divzero)
    else if n then (f.nanCode, Fl.invalid)
    else
      let k := Nat.log2 m
      let ex : Int := e + k
      if m == 2 ^ k then f.roundFin .rz sat ftz (decide (ex < 0)) ex.natAbs 0 false
      else
        let l : Int := (Fix.lnM m k * Fix.one / Fix.ln2 : Nat)
        let z := ex * (2 ^ Fix.F : Int) + l
        -- the fixed-point value lies within a few units below the exact one; away from zero it is moved by 2^20 units
        if z < 0 then f.trunc sat ftz true (z.natAbs - 2 ^ 20) (-(Fix.F : Int))
        else f.trunc sat ftz false (z.toNat + 2 ^ 20) (-(Fix.F : Int))

/-- The fraction of |a| in turns over 2^k, with k ≥ 3. -/
def turnFrac (m : Nat) (e : Int) : Nat × Nat :=
  let k := (-e).toNat + 3
  ((m * 2 ^ e.toNat * 8) % 2 ^ k, k)

/-- sin of a fraction r / 2^k of a turn, and cos: sign, magnitude in fixed point, exact when it is 0 or 1. -/
def sinTurn (r k : Nat) : Bool × Nat × Bool :=
  let q := r / 2 ^ (k - 2)
  let s := r % 2 ^ (k - 2)
  let neg := 2 ≤ q
  if s == 0 then (neg, if q % 2 == 1 then Fix.one else 0, true)
  else
    let x := fun (y : Nat) => y * 2 * Fix.pi / 2 ^ k
    (neg, if q % 2 == 0 then (if 2 * s < 2 ^ (k - 2) then Fix.sin (x s) else Fix.cos (x (2 ^ (k - 2) - s)))
          else (if 2 * s < 2 ^ (k - 2) then Fix.cos (x s) else Fix.sin (x (2 ^ (k - 2) - s))), false)

/-- sin(2π a) (R115). -/
def Fmt.sinT (f : Fmt) (sat ftz : Bool) (a : Nat) : Nat × Flags :=
  let a := if ftz then f.ftz a else a
  match f.val a with
  | .nan s _ => (f.nanCode, if s then Fl.invalid else 0)
  | .inf _ => (f.nanCode, Fl.invalid)
  | .fin n m e =>
    let (r, k) := turnFrac m e
    let (sn, x, ex) := sinTurn r k
    if ex && x == 0 then (f.sgn n, 0)
    else if ex then f.roundFin .rz sat ftz (n != sn) 1 0 false
    else f.trunc sat ftz (n != sn) x (-(Fix.F : Int))

/-- cos(2π a) = sin(2π (|a| + 1/4)) (R115). -/
def Fmt.cosT (f : Fmt) (sat ftz : Bool) (a : Nat) : Nat × Flags :=
  let a := if ftz then f.ftz a else a
  match f.val a with
  | .nan s _ => (f.nanCode, if s then Fl.invalid else 0)
  | .inf _ => (f.nanCode, Fl.invalid)
  | .fin _ m e =>
    let (r, k) := turnFrac m e
    let (sn, x, ex) := sinTurn ((r + 2 ^ (k - 2)) % 2 ^ k) k
    if ex && x == 0 then (0, 0)
    else if ex then f.roundFin .rz sat ftz sn 1 0 false
    else f.trunc sat ftz sn x (-(Fix.F : Int))

/-- 1 / a truncated (R115). -/
def Fmt.rcp (f : Fmt) (sat ftz : Bool) (a : Nat) : Nat × Flags := f.div .rz sat ftz (f.roundFin .rne false false false 1 0 false).1 a

/-- 1 / √a truncated (R115). -/
def Fmt.rsq (f : Fmt) (sat ftz : Bool) (a : Nat) : Nat × Flags :=
  match f.val (if ftz then f.ftz a else a) with
  | .nan s _ => (f.nanCode, if s then Fl.invalid else 0)
  | .inf n => if n then (f.nanCode, Fl.invalid) else (0, 0)
  | .fin n m e =>
    if m == 0 then ((f.round .rz sat ftz (.inf n)).1, Fl.divzero)
    else if n then (f.nanCode, Fl.invalid)
    else
      -- the root of 2^k / m, then √ scaled: floor(√(2^(2p) / (m 2^e)))
      let p := 2 * f.t + 20
      let h := if e % 2 == 0 then e else e - 1
      let m' := if e % 2 == 0 then m else 2 * m
      let k := 2 * (p + Nat.log2 m')
      let q := 2 ^ k / m'
      let r := isqrt q
      f.roundFin .rz sat ftz false r (-(k / 2 : Nat) - h / 2) (!(r * r * m' == 2 ^ k))

/-! ## Integers as values -/

/-- The integer an integer code stands for. -/
def intVal (w : Nat) (signed : Bool) (c : Nat) : Int := if signed then sextInt w c else (c % 2 ^ w : Nat)
def intMin (w : Nat) (signed : Bool) : Int := if signed then -(2 ^ (w - 1) : Int) else 0
def intMax (w : Nat) (signed : Bool) : Int := if signed then 2 ^ (w - 1) - 1 else 2 ^ w - 1
/-- sat() of R55 for an integer type. -/
def clampInt (w : Nat) (signed : Bool) (x : Int) : Int := max (intMin w signed) (min (intMax w signed) x)

/-- Conversion of a value to an integer format: rounded, then placed; INEXACT when the rounding changed the value, in range or not
(R67, R119). -/
def toInt (rm : Rnd) (w : Nat) (signed : Bool) (x : Val) : Nat × Flags :=
  match x with
  | .nan _ _ => (0, Fl.invalid)
  | .inf n => (wrapNat w (if n then intMin w signed else intMax w signed), Fl.invalid)
  | .fin n m e =>
    let (z, ix) := roundInt rm n m e
    let y := clampInt w signed z
    (wrapNat w y, (if y != z then Fl.invalid else 0) ||| if ix then Fl.inexact else 0)

/-- Conversion to E8M0 (R67). -/
def toE8m0 (rm : Rnd) (x : Val) : Nat × Flags :=
  match x with
  | .nan _ _ => (0xFF, Fl.invalid)
  | .inf _ => (0xFF, Fl.invalid)
  | .fin n m e =>
    if m == 0 || n then (0xFF, Fl.invalid)
    else
      let k := Nat.log2 m
      let ex : Int := e + k
      if ex < -127 then (0, Fl.underflow ||| Fl.inexact)
      else
        let exact := m == 2 ^ k
        let up := match rm with
          | .rz | .rd => false
          | .ru => !exact
          | .rne =>
            -- compare m with 1.5 · 2^k
            if 2 * m < 3 * 2 ^ k then false else if 2 * m > 3 * 2 ^ k then true else (ex + 127) % 2 == 1
        let c := ex + 127 + (if up then 1 else 0)
        if c > 254 then (0xFE, Fl.overflow ||| Fl.inexact) else (c.toNat, if exact then 0 else Fl.inexact)

/-- The value of an E8M0 code (R59). -/
def e8m0Val (c : Nat) : Val := if c % 256 == 0xFF then .nan false false else .fin false 1 ((c % 256 : Nat) - 127)

end Sys2Proof.Machine
end

