-- ==== Sys2Proof/WellFormed.lean ====
section
/-! DEFINITION. Which instructions of the syntax have a word: operand classes, groups, forms and MOD codes (R27 to R34,
R47 and the tables of the entries). A word outside these raises the illegal-instruction trap. The events of the opcode
table have no word, and none of them is well-formed as one. -/

namespace Sys2Proof

/-- Operand classes (R27, R28). -/
inductive Cls where
  | v | s | sp | imm | p | q | pl | z | lit | zr | none
deriving DecidableEq, Repr

def Opd.cls : Opd → Cls
  | .v _ => .v | .s _ => .s | .sp _ => .sp | .imm _ => .imm | .p _ => .p | .q _ => .q | .pl _ => .pl
  | .z _ => .z | .lit _ => .lit | .zr => .zr | .none => .none

/-- A register index is a multiple of `k`; a special lies below 0x94 (R29, R31). -/
def Opd.grp (k : Nat) : Opd → Bool
  | .v n => n.toNat % k == 0
  | .s n => n.toNat % k == 0
  | .sp n => n.toNat % k == 0 && n.toNat < 0x14
  | _ => true

/-- The operand is of one of the classes and its group is aligned. -/
def Opd.ok (o : Opd) (cs : List Cls) (k : Nat) : Bool := cs.contains o.cls && o.grp k

/-- A destination that makes the form uniform (R31). -/
def Opd.uni (d : Opd) : Bool := d.cls == .s || d.cls == .q || d.cls == .zr

/-- No V or P source in uniform form, no Q source in lane form (R31, R32). -/
def sidesOk (d : Opd) (srcs : List Opd) : Bool :=
  srcs.all fun o => if d.uni then o.cls != .v && o.cls != .p else o.cls != .q

/-- At most one operand names the literal (R30). -/
def litOk (srcs : List Opd) : Bool := (srcs.filter fun o => o.cls == .lit).length ≤ 1

namespace Cls
def reg : List Cls := [.v, .s]
def ss : List Cls := [.s, .sp]
def vs : List Cls := [.v, .s, .sp]
def vsi : List Cls := [.v, .s, .sp, .imm]
def vsil : List Cls := [.v, .s, .sp, .imm, .lit]
def si : List Cls := [.s, .sp, .imm]
def sil : List Cls := [.s, .sp, .imm, .lit]
def pq : List Cls := [.p, .q]
def qz : List Cls := [.q, .zr]
end Cls

/-- Registers that a value of a TYPE takes (R31, R34, R240). -/
def Ty.regs : Ty → Nat
  | .u64 | .s64 | .f64 => 2
  | .b128 => 4
  | _ => 1

/-- GUARD 0xF is reserved (R32). -/
def Guard.ok (g : Guard) : Bool := !(g.neg && g.idx == 7#3)
def Hdr.ok (h : Hdr) : Bool := h.g.ok

/-- The arithmetic layout of an entry: TYPE codes, RND, SAT, FTZ and the mask of MOD[11:8] it accepts (R96, R109). -/
def AMod.ok (m : AMod) (tys : List Ty) (rnd sat ftz : Bool) (xm : BitVec 4) : Bool :=
  tys.contains m.ty && (rnd || m.rnd == .rne) && (sat || !m.sat) && (ftz || !m.ftz) && (m.x &&& ~~~xm) == 0#4

/-- The integer entries of R97 with sources `srcs`: D is V or S, one group size each. -/
def intOk (h : Hdr) (m : AMod) (tys : List Ty) (sat : Bool) (d : Opd) (kd : Nat) (srcs : List (Opd × Nat)) (lit : Bool) :
    Bool :=
  h.ok && m.ok tys false sat false 0#4 && d.ok Cls.reg kd
    && (srcs.all fun (o, k) => o.ok (if lit then Cls.vsil else Cls.vsi) k)
    && sidesOk d (srcs.map Prod.fst) && litOk (srcs.map Prod.fst)

/-- A bitwise entry: the data form, or the predicate form of R100. -/
def logicOk (h : Hdr) (m : AMod) (d : Opd) (srcs : List Opd) : Bool :=
  if d.cls == .p || d.cls == .q then
    h.ok && m.ok [.dflt] false false false 0#4 && srcs.all fun o => o.cls == d.cls
  else intOk h m [.dflt, .u64] false d m.ty.regs (srcs.map fun o => (o, m.ty.regs)) true

/-- The floating entries of R109, R116, R117. -/
def fpOk (h : Hdr) (m : AMod) (tys : List Ty) (rnd sat ftz : Bool) (xm : BitVec 4) (dc : List Cls) (k : Nat) (d : Opd)
    (srcs : List Opd) (lit : Bool) : Bool :=
  h.ok && m.ok tys rnd sat ftz xm && d.ok dc (if dc == Cls.reg then k else 1)
    && (srcs.all fun o => o.ok (if lit then Cls.vsil else Cls.vsi) k) && sidesOk d srcs && litOk srcs

/-- Source modifiers A and B, with the magnitude of A (R94, R109). -/
def negab : BitVec 4 := 0b1011#4
/-- Source modifiers of A alone. -/
def nega : BitVec 4 := 0b1001#4

/-- Format codes of R118. -/
def fmtKnown (c : BitVec 5) : Bool :=
  [1, 2, 3, 4, 5, 6, 7, 8, 9, 10, 11, 12, 0x10, 0x11, 0x12, 0x13, 0x14, 0x15, 0x16].contains c.toNat
def fmtRegs (c : BitVec 5) : Nat := if [1, 0x12, 0x13].contains c.toNat then 2 else 1
def fmtInt (c : BitVec 5) : Bool := [10, 11, 12, 0x10, 0x11, 0x12, 0x13, 0x15, 0x16].contains c.toNat
def fmtElem (c : BitVec 5) : Bool := [5, 6, 7, 8, 9].contains c.toNat

/-- TYPE codes of loads and stores (R240). -/
def memTys : List Ty := [.dflt, .u8, .s8, .u16, .s16, .u32, .s32, .u64, .s64, .b128]

/-- A memory layout: TYPE codes, ORDER codes, whether CACHE and MOD[11] are accepted. -/
def MMod.ok (m : MMod) (tys : List Ty) (os : List Order) (cache x : Bool) : Bool :=
  tys.contains m.ty && os.contains m.order && (cache || m.cache == .dflt) && (x || !m.x)

/-- A V or S pair holding a global address (R237). -/
def Opd.gaddr (o : Opd) : Bool := o.ok Cls.vs 2
def Opd.spair (o : Opd) : Bool := o.ok Cls.ss 2
def Opd.vgrp (o : Opd) (k : Nat) : Bool := o.ok [.v] k

/-- TYPE codes of an atomic (R249). -/
def AtomOp.tys : AtomOp → List Ty
  | .add | .sub | .min | .max => [.dflt, .u32, .s32, .u64, .s64]
  | .and | .or | .xor => [.dflt, .u32, .u64]
  | .xchg | .cas => [.dflt, .u32, .u64, .b128]
  | .fadd | .fmin | .fmax => [.dflt, .f32, .f64]
  | .fxadd => [.dflt, .s64]

/-- The type an atomic works on: code 0 gives the entry's default (R249). -/
def AtomOp.ty (op : AtomOp) (t : Ty) : Ty :=
  match t with
  | .dflt => match op with
    | .fadd | .fmin | .fmax => .f32
    | .fxadd => .s64
    | _ => .u32
  | t => t

/-- Operands B and C of an atomic; C only for .cas, and no literal there (R249, R268). -/
def atomOk (h : Hdr) (m : MMod) (op : AtomOp) (b c : Opd) : Bool :=
  let k := (op.ty m.ty).regs
  h.ok && (if k == 4 then b.ok Cls.vs 4
           else if op == .cas then b.ok Cls.vsi k else b.ok Cls.vsil k)
    && (if op == .cas then (if k == 4 then c.ok Cls.vs 4 else c.ok Cls.vsi k) else c == .none)

/-- A barrier address: an S pair in space 0, an S register in spaces 1 and 2 (R318). -/
def BMod.ok (m : BMod) (a : Opd) : Bool :=
  m.space != .map && a.ok Cls.ss (if m.space == .glob then 2 else 1)

/-- TYPE codes of the folds: f32 has no bitwise fold (R123, R128). -/
def foldOk (op : FoldOp) (ty : Ty) : Bool :=
  [Ty.dflt, .u32, .s32, .f32].contains ty && !(ty == .f32 && (op == .and || op == .or || op == .xor))

/-- Well-formed as an instruction word. -/
def Instr.wf : Instr → Bool
  -- control (R308)
  | .bra h _ => h.ok
  | .brx h a => h.ok && a.spair
  | .join h _ => h.g == ⟨false, 7#3⟩
  | .callRel h d _ => h.ok && d.ok [.s, .zr] 2
  | .callInd h d a => h.ok && d.ok [.s, .zr] 2 && a.spair
  | .ret h a => h.ok && a.spair
  | .exit h | .nop h | .yield h | .idem h | .idemClose h => h.ok
  | .sleep h a => h.ok && a.ok Cls.sil 1
  | .timewait h a => h.ok && a.spair
  -- integer (R97)
  | .iadd h m d a b | .isub h m d a b | .imul h m d a b => intOk h m [.dflt, .u32, .s32] true d 1 [(a, 1), (b, 1)] true
  | .imulh h m d a b | .idiv h m d a b | .irem h m d a b | .imin h m d a b | .imax h m d a b | .bfe h m d a b =>
    intOk h m [.dflt, .u32, .s32] false d 1 [(a, 1), (b, 1)] true
  | .imad h m d a b c => intOk h m [.dflt, .u32, .s32] true d 1 [(a, 1), (b, 1), (c, 1)] false
  | .iabs h m d a | .ineg h m d a => intOk h m [.dflt, .s32] true d 1 [(a, 1)] true
  | .and h m d a b | .or h m d a b | .xor h m d a b | .andn h m d a b => logicOk h m d [a, b]
  | .not h m d a => logicOk h m d [a]
  | .shl h m d a b | .shr h m d a b | .rol h m d a b | .ror h m d a b =>
    intOk h m [.dflt, .u64] false d m.ty.regs [(a, m.ty.regs), (b, m.ty.regs)] true
  | .sar h m d a b => intOk h m [.dflt, .s64] false d m.ty.regs [(a, m.ty.regs), (b, m.ty.regs)] true
  | .bfi h m d a b c | .byteperm h m d a b c => intOk h m [.dflt] false d 1 [(a, 1), (b, 1), (c, 1)] false
  | .popc h m d a | .clz h m d a | .ctz h m d a => intOk h m [.dflt, .u64] false d 1 [(a, m.ty.regs)] true
  | .brev h m d a => intOk h m [.dflt, .u64] false d m.ty.regs [(a, m.ty.regs)] true
  | .isetp h m _ d a b =>
    h.ok && m.ok [.dflt, .u32, .s32, .u64, .s64] false false false 0#4 && d.ok Cls.pq 1
      && a.ok Cls.vsil m.ty.regs && b.ok Cls.vsil m.ty.regs && sidesOk d [a, b] && litOk [a, b]
  | .sel h m d a b c =>
    intOk h m [.dflt, .u64] false d m.ty.regs [(a, m.ty.regs), (b, m.ty.regs)] false
      && c.cls == (if d.uni then .q else .p)
  | .mov h m d a =>
    intOk h m [.dflt, .u32, .u64, .b128] false d m.ty.regs [(a, m.ty.regs)] true && !(m.ty == .b128 && a.cls == .sp)
  | .movi h m d _ =>
    h.ok && m.ok [.dflt, .u64, .s64] false false false (if m.ty == .u64 then 1#4 else 0#4) && d.ok Cls.reg m.ty.regs
  | .lea h m d a b =>
    h.ok && m.ok [.dflt, .u32, .s32] false false false 0xF#4 && d.ok Cls.reg 2 && a.ok Cls.vsil 2 && b.ok Cls.vsil 1
      && sidesOk d [a, b] && litOk [a, b]
  | .iadd64 h m d a b => intOk h m [.dflt, .u64, .s64] true d 2 [(a, 2), (b, 2)] true
  | .imad64 h m d a b c => intOk h m [.dflt, .u32, .s32] true d 2 [(a, 1), (b, 1), (c, 2)] false
  -- floating point (R109, R116, R117)
  | .fadd h m d a b | .fsub h m d a b | .fmul h m d a b | .fdiv h m d a b =>
    fpOk h m [.dflt, .f32] true true true negab Cls.reg 1 d [a, b] true
  | .ffma h m d a b c => fpOk h m [.dflt, .f32] true true true 0xF#4 Cls.reg 1 d [a, b, c] false
  | .fmin h m d a b | .fmax h m d a b => fpOk h m [.dflt, .f32] false false true negab Cls.reg 1 d [a, b] true
  | .fsetp h m _ d a b => fpOk h m [.dflt, .f32] false false true negab Cls.pq 1 d [a, b] true
  | .fclass h m d a => fpOk h m [.dflt, .f32] false false false 0#4 Cls.reg 1 d [a] true
  | .frcp h m d a | .frsq h m d a | .fexp2 h m d a | .flog2 h m d a | .fsin h m d a | .fcos h m d a =>
    fpOk h m [.dflt, .f32] false true true nega Cls.reg 1 d [a] true
  | .fsqrt h m d a => fpOk h m [.dflt, .f32] true true true nega Cls.reg 1 d [a] true
  | .frnd h m d a => fpOk h m [.dflt, .f32] true false true nega Cls.reg 1 d [a] true
  | .dadd h m d a b | .dmul h m d a b => fpOk h m [.dflt, .f64] true true true negab Cls.reg 2 d [a, b] true
  | .dfma h m d a b c => fpOk h m [.dflt, .f64] true true true 0xF#4 Cls.reg 2 d [a, b, c] false
  | .dsetp h m _ d a b => fpOk h m [.dflt, .f64] false false true negab Cls.pq 2 d [a, b] true
  | .hfma2 h m d a b c => fpOk h m [.dflt, .f16, .bf16] true true true 0xF#4 Cls.reg 1 d [a, b, c] false
  | .hadd2 h m d a b | .hmul2 h m d a b => fpOk h m [.dflt, .f16, .bf16] true true true negab Cls.reg 1 d [a, b] true
  -- conversions (R118 to R122)
  | .cvt h m d a =>
    h.ok && !m.b16 && fmtKnown m.sf && fmtKnown m.df && d.ok Cls.reg (fmtRegs m.df) && a.ok Cls.vsi (fmtRegs m.sf)
      && sidesOk d [a] && !(m.sf == 0x14#5 && fmtInt m.df) && !(m.df == 0x14#5 && fmtInt m.sf)
  | .cvtsr h m d a b =>
    h.ok && !m.b16 && (m.sf == 1#5 || m.sf == 2#5) && [3, 4, 5, 6, 7, 8, 9].contains m.df.toNat && m.rnd == .rne
      && d.ok Cls.reg 1 && a.ok Cls.vsi (fmtRegs m.sf) && b.ok Cls.vsi 1 && sidesOk d [a, b]
  | .cvtpk h m d a b =>
    h.ok && m.sf == 2#5 && fmtElem m.df && !m.sat && d.vgrp 1 && a.ok Cls.vsi 1 && b.cls == .s
  | .cvtup h m d a b =>
    h.ok && m.df == 2#5 && fmtElem m.sf && !m.sat && m.rnd == .rne && d.vgrp 1 && a.ok Cls.vsi 1 && b.ok Cls.ss 1
  -- lane instructions (R123)
  | .shfl h _ seg ty d a b c =>
    h.ok && seg.toNat ≤ 4 && [Ty.dflt, .u64].contains ty && d.vgrp ty.regs && a.vgrp ty.regs && b.ok Cls.vsi 1
      && c.ok [.v, .s, .sp, .imm, .zr] ty.regs
  | .ballot h d a => h.ok && d.cls == .s && a.ok [.p, .v] 1
  | .vote h op ty d a =>
    h.ok && d.cls == .q && a.ok [.p, .v] ty.regs && (ty == .dflt || (ty == .u64 && op == .uni && a.cls == .v))
  | .matchL h _ ty d a => h.ok && [Ty.dflt, .u64].contains ty && d.vgrp 1 && a.vgrp ty.regs
  | .redux h op ty d a => h.ok && foldOk op ty && d.cls == .s && a.cls == .v
  | .prefixL h op _ ty d a => h.ok && foldOk op ty && d.cls == .v && a.cls == .v
  | .xchgb h xs d a b => h.ok && xs.toNat ≤ 4 && d.cls == .v && a.cls == .v && b.ok Cls.sil 1
  | .lanemask h _ d => h.ok && d.cls == .v
  | .reorder h _ d a => h.ok && d.cls == .v && a.cls == .v
  -- memory (R242, R268)
  | .ld h m d a _ => h.ok && m.ok memTys [.rlx, .acq] true false && d.vgrp m.ty.regs && a.gaddr
  | .st h m a b _ => h.ok && m.ok memTys [.rlx, .rel] true false && b.ok Cls.vs m.ty.regs && a.gaddr
  | .lds h m d a _ | .ldq h m d a _ =>
    h.ok && m.ok memTys [.rlx, .acq] false false && d.vgrp m.ty.regs && a.ok Cls.vs 1
  | .sts h m a b _ | .stq h m a b _ =>
    h.ok && m.ok memTys [.rlx, .rel] false false && b.ok Cls.vs m.ty.regs && a.ok Cls.vs 1
  | .ldsc h m d a _ => h.ok && m.ok memTys [.rlx, .acq] true false && d.ok [.s] m.ty.regs && a.spair
  | .tld h m d a b c =>
    h.ok && m.ok [.dflt] [.rlx, .acq] true true && d.vgrp 16 && a.spair && b.ok [.v, .zr] 1 && c.cls == .pl
  | .tst h m a b c => h.ok && m.ok [.dflt] [.rlx, .rel] true true && b.vgrp 16 && a.spair && c.cls == .pl
  | .texf h _ d a b => h.ok && d.vgrp 4 && a.spair && b.vgrp 4
  | .prefetch h _ a _ => h.ok && a.gaddr
  | .cacheopWb h a off | .cacheopInv h a off | .cacheopWbinv h a off =>
    h.ok && (a.gaddr || (a.cls == .zr && off == 0#32))
  | .atom h m op d a b c =>
    atomOk h m op b c && m.ok op.tys [.rlx, .acq, .rel, .ar] false false && d.vgrp (op.ty m.ty).regs && a.gaddr
  | .red h m op a b =>
    atomOk h m op b .none && op != .xchg && op != .cas && m.ok op.tys [.rlx, .rel] false false && a.gaddr
  | .atoms h m op d a b c =>
    atomOk h m op b c && m.ok op.tys [.rlx, .acq, .rel, .ar] false false && d.ok [.v, .zr] (op.ty m.ty).regs
      && a.ok Cls.vs 1
  | .atomq h m op d a b c =>
    atomOk h m op b c && m.ok op.tys [.rlx, .acq, .rel, .ar] false false && m.ty != .b128
      && d.ok [.v, .zr] (op.ty m.ty).regs && a.ok Cls.vs 1
  | .fence h o _ => h.ok && o != .rlx
  | .fenceSc h _ => h.ok
  | .drclose h sc d a => h.ok && [Scope.die, .dev, .fab].contains sc && d.ok Cls.qz 1 && a.ok Cls.sil 1
  -- courier (R258, R268)
  | .cpy h _ d a b => h.ok && d.spair && d.cls == .s && a.spair && b.ok Cls.sil 1
  | .cpyTile h _ d a | .cpyt h _ d a | .cpytScat h _ d a => h.ok && d.spair && d.cls == .s && a.spair
  | .cpyg h _ esz d a b =>
    h.ok && esz.toNat ≤ 6 && d.spair && d.cls == .s && a.spair && b.ok Cls.sil 1
      && (match b with
          | .imm x => 1 ≤ x.toInt
          | .lit x => 1 ≤ x.toNat && x.toNat ≤ 65536
          | _ => true)
  | .cpyc h _ a => h.ok && a.spair
  | .cseal h => h.ok
  | .cwait h d a => h.ok && d.ok Cls.qz 1 && a.ok Cls.si 1
  | .cquery h _ d => h.ok && d.ok [.s] 4
  -- placards and matrix (R154)
  | .plset h f d a b =>
    h.ok && f.toNat ≤ 13 && d.cls == .pl
      && (if f == 0#4 || f == 13#4 then a.ok [.s] 4 && b == .none else a.ok Cls.sil 1 && b.cls == .pl)
  | .plget h f d a => h.ok && f.toNat ≤ 12 && d.ok [.s] (if f == 0#4 then 4 else 1) && a.cls == .pl
  | .plchk h _ _ d a => h.ok && d.cls == .s && a.cls == .pl
  | .plinfer h _ d a b => h.ok && d.cls == .pl && a.cls == .pl && b.cls == .pl
  | .mma h d a b c | .mmasp h d a b c => h.ok && d.cls == .z && a.vgrp 16 && b.spair && c.cls == .pl
  | .zclr h d => h.ok && d.cls == .z
  | .zanchor h _ d a => h.ok && d.cls == .z && a.ok Cls.sil 1
  | .zread h _ d a b c => h.ok && d.vgrp 16 && a.cls == .z && b.ok Cls.si 1 && c.cls == .pl
  | .zwrite h d a b c => h.ok && d.cls == .z && a.vgrp 16 && b.ok Cls.si 1 && c.cls == .pl
  | .zst h _ _ a b c => h.ok && a.cls == .z && b.spair && c.cls == .pl
  | .zld h _ d a => h.ok && d.cls == .z && a.spair
  | .zadd h sp d a => h.ok && d.cls == .z && (a.spair || (a.cls == .z && !sp))
  | .zchk h _ d a => h.ok && d.cls == .q && a.cls == .z
  | .mwait h a => h.ok && a.ok [.z, .zr] 1
  | .cbload h a b => h.ok && a.spair && b.ok Cls.si 1
  | .tcvt h m d a b c =>
    h.ok && m.ok [.dflt] true true true 0#4 && d.vgrp 16 && a.vgrp 16 && b.cls == .pl && c.cls == .pl
  -- reservoirs, rays, curator (R207)
  | .rng h x4 d a b => h.ok && d.vgrp (if x4 then 4 else 1) && a.spair && b.ok Cls.vsil 1
  | .rsvld h m d a =>
    h.ok && m.ok [.dflt] [.rlx, .acq] true true && m.scope != .fab && m.scope != .sys && d.vgrp 8 && a.cls == .v
  | .rsvst h m a b =>
    h.ok && m.ok [.dflt] [.rlx, .rel] true true && m.scope != .fab && m.scope != .sys && b.vgrp 8 && a.cls == .v
  | .rsvupd h d a b => h.ok && d.vgrp 8 && a.vgrp 8 && b.ok Cls.vs 1
  | .rsvmrg h d a b c => h.ok && d.vgrp 8 && a.vgrp 8 && b.ok Cls.vs 1 && c.ok Cls.vs 1
  | .rsvnorm h d => h.ok && d.vgrp 8
  | .rsvcap h d a => h.ok && d.vgrp 8 && a.ok Cls.vsil 1
  | .ltsample h d a b c => h.ok && d.vgrp 2 && a.vgrp 4 && b.spair && c.spair
  | .trace h _ d a b c => h.ok && d.vgrp 4 && a.vgrp 8 && b.ok Cls.ss 4 && c.ok Cls.si 1
  | .rhit h d => h.ok && d.vgrp 2
  | .rwait h => h.ok
  | .curate h a | .bvhbuild h a => h.ok && a.spair
  | .curwait h a => h.ok && a.ok Cls.si 1
  | .bvhsize h d a b => h.ok && d.ok [.s] 4 && a.ok [.s, .sp, .lit] 1 && b.ok Cls.si 1
  -- barriers (R318)
  | .barinit h m _ a b => h.ok && m.ok a && b.ok Cls.sil 1
  | .bararv h m d a b c =>
    h.ok && m.ok a && d.cls == .s && b.ok [.s, .sp, .imm, .zr] 1 && c.ok Cls.qz 1
  | .barwait h m d a b => h.ok && m.ok a && d.ok Cls.qz 1 && b.ok Cls.ss 1
  | .barsync h m d a b c =>
    h.ok && m.ok a && d.ok Cls.qz 1 && b.ok [.s, .sp, .imm, .zr] 1 && c.ok Cls.qz 1
  | .barinv h m a | .barinvFree h m a => h.ok && m.ok a
  | .barqry h m d a => h.ok && m.ok a && d.ok [.s] 4
  -- overlays (R338)
  | .ovld h d a => h.ok && d.cls == .s && a.ok Cls.sil 1
  | .ovwait h d a | .ovpin h d a | .ovunpin h d a | .ovevict h d a => h.ok && d.ok Cls.qz 1 && a.ok Cls.ss 1
  | .callo h d a b => h.ok && d.ok [.s, .zr] 2 && a.ok Cls.sil 1 && b.ok Cls.si 1
  -- work graphs and fill (R353)
  | .emit h d b => h.ok && d.vgrp 2 && b.ok Cls.si 1
  | .emitQ h d a b => h.ok && d.ok Cls.qz 1 && a.spair && b.ok Cls.sil 1
  | .reserve h d b => h.ok && d.cls == .s && b.ok Cls.si 1
  | .reserveDrop h b => h.ok && b.ok Cls.si 1
  | .nodeend h | .filldone h => h.ok
  | .fillfail h a => h.ok && a.ok Cls.sil 1
  | .fillqry h _ d a => h.ok && d.cls == .s && a.spair
  -- system (R385, R412)
  | .csrr h d a => h.ok && d.cls == .s && a.ok Cls.sil 1
  | .csrw h a b => h.ok && a.ok Cls.sil 1 && b.ok Cls.ss 1
  | .trap h a => h.ok && a.ok Cls.sil 1
  | .brk h | .trapretReplay h | .trapretSkip h | .trapretKill h | .halt h | .haltLaunch h => h.ok
  | .trapretTo h a => h.ok && a.spair
  | .tlbinvAll h => h.ok
  | .tlbinvAsid h b => h.ok && b.ok Cls.sil 1
  | .tlbinvPage h a b => h.ok && a.spair && b.ok Cls.sil 1
  | .tlbinvRange h a b c => h.ok && a.spair && b.ok Cls.si 1 && c.ok Cls.ss 1
  | .splinter h d a | .migrate h d a => h.ok && d.ok Cls.qz 1 && a.spair
  | .fillevict h d a b c => h.ok && d.ok Cls.qz 1 && a.spair && b.ok Cls.si 1 && c.ok Cls.ss 1
  | .openwin h d a b => h.ok && d.ok [.s] 2 && a.cls == .v && b.ok Cls.si 1
  | .closewin h d => h.ok && d.ok Cls.qz 1
  | .provchk h d a b | .provchkStore h d a b => h.ok && d.cls == .s && a.spair && b.ok [.s, .sp, .zr] 2
  | .dlogq h d | .dlogqWait h d => h.ok && d.ok [.s] 4
  | .time h d => h.ok && d.ok [.s] 4
  | .timeStep h a => h.ok && a.spair
  -- the events have no word
  | .parkExpiry _ | .heartbeatTick _ | .courierTransfer _ | .chainRecord _ | .passGrant _ | .passExecute _
  | .budgetRefill | .rayTraversal _ | .hartEvaluation _ | .resampleJob _ | .haloSyncJob _ | .buildJob _
  | .overlayLoad _ _ | .overlayTransferRetry _ | .invocationLaunch _ _ _ _ | .fixedNodeConsume _ _ | .fillRequest _ _ _
  | .generatorStart _ _ _ | .zeroFill _ | .lz4Fill _ | .drroundWrite _ | .rsvsurfWrite _ _ | .deferredStoreRetry _
  | .deferredStoreTimeout _ | .powerGovernorMeasure _ _ | .thermalStep _ | .thermalMachineCheck | .powerMachineCheck
  | .pwrctlWrite _ | .carvectlWrite _ | .cqdiscWrite _ _ | .registerWrite _ _ | .doorbell _ _ | .hostPostedWrite _ _
  | .hopPieceAck _ _ | .hostRead _ _ | .queueArbitration _ | .launchEntry _ _ | .waitEntry _ _ | .signalEntry _ _
  | .nopEntry _ _ | .entryCompletion _ _ | .unitGrant _ _ _ | .leaderElection _ | .unitPlacement _ _ _
  | .startTimeReached _ | .priorityPreemption _ | .driverSaveRequest _ _ | .contextRestore _ _ | .docentSweep _
  | .heatRaise _ _ _ _ _ | .parkedRequest _ _ _ | .parkedReplay _ | .conservationTimeout _ | .heldUpdateAccept _
  | .uncorrectableError _ | .eccCorrection _ _ _ | .timingReplay _ | .partitionQuiesce _ | .zwiovRd _ _ _
  | .zwiovWr _ _ _ | .zwiovAt _ _ _ _ _ _ _ | .zwiovRed _ _ _ _ _ _ | .zwiovCourier _ _ _ _ _ | .ptpMessage _
  | .flitReplay _ | .pathFailure _ | .coldStart _ | .warmStart _ _ _ | .marginApply _ | .dieFailure _ | .ppsPulse _ =>
    false

end Sys2Proof
end

