-- ==== Sys2Proof/Machine/Operands.lean ====
section
/-! DEFINITION. Operand forms: registers, specials, immediates and literals as each kind of operand delivers them (R27 to
R31), destinations, and the shape of an instruction that computes one result per lane (R31, R32, R88). -/

namespace Sys2Proof.Machine

/-- Global lane index of a lane (R284). -/
def glaneOf (c : Cohort) (lane : Nat) : Nat := 32 * c.pl.lin + lane

/-- The lane a special names; in uniform form there is none, and the value is a free one (R29, R31). -/
def laneOf (s : State) (ln : Option Nat) : Nat :=
  match ln with
  | some i => i
  | none => (Config.uniformLane s.m.cycle).toNat

/-- The special of index 0x80 + k (R29); a 64-bit special takes two. -/
def special (s : State) (ln : Option Nat) (k : Nat) : Word :=
  let p := s.cur.pl
  if k == 0 then BitVec.ofNat 32 (laneOf s ln)
  else if k == 1 then BitVec.ofNat 32 p.slotIx
  else if k == 2 then BitVec.ofNat 32 p.core
  else if k == 3 then BitVec.ofNat 32 (p.core / 4)
  else if k == 4 then BitVec.ofNat 32 (p.core / 1024)
  else if k == 5 then BitVec.ofNat 32 (p.slotIx / 8)
  else if k == 6 then if s.cur.c.isB then 1#32 else 0#32
  else if k == 7 then (s.m.fabid.extractLsb' 0 15).zeroExtend 32
  else if k < 16 then BitVec.ofNat 32 (nth p.levels (k - 8) 0)
  else if k == 16 then BitVec.ofNat 32 s.m.time
  else if k == 17 then BitVec.ofNat 32 (s.m.time / 2 ^ 32)
  else if k == 18 then BitVec.ofNat 32 (glaneOf s.cur (laneOf s ln))
  else BitVec.ofNat 32 (glaneOf s.cur (laneOf s ln) / 2 ^ 32)

/-- Register k of the group that an operand names; an immediate and the zero operand have none. -/
def regAt (s : State) (ln : Option Nat) (o : Opd) (k : Nat) : Word :=
  match o with
  | .v n => s.cur.r.rdV (n.toNat + k) (ln.getD 0)
  | .s n => s.cur.r.rdS (n.toNat + k)
  | .sp n => special s ln (n.toNat + k)
  | _ => 0#32

/-- A 32-bit operand (R30). -/
def src32 (s : State) (ln : Option Nat) (o : Opd) : Word :=
  match o with
  | .imm x => x.signExtend 32
  | .lit x => x
  | o => regAt s ln o 0

/-- A 64-bit integer operand (R30, R31). -/
def src64 (s : State) (ln : Option Nat) (o : Opd) : Dword :=
  match o with
  | .imm x => x.signExtend 64
  | .lit x => x.signExtend 64
  | o => regAt s ln o 1 ++ regAt s ln o 0

/-- A 128-bit operand: four registers, or a value sign-extended (R106). -/
def src128 (s : State) (ln : Option Nat) (o : Opd) : Qword :=
  match o with
  | .imm x => x.signExtend 128
  | .lit x => x.signExtend 128
  | o => regAt s ln o 3 ++ regAt s ln o 2 ++ regAt s ln o 1 ++ regAt s ln o 0

/-- An integer operand of one, two or four registers, as a number. -/
def srcN (s : State) (ln : Option Nat) (k : Nat) (o : Opd) : Nat :=
  if k == 1 then (src32 s ln o).toNat else if k == 2 then (src64 s ln o).toNat else (src128 s ln o).toNat

/-- Words of a register group. -/
def srcWords (s : State) (ln : Option Nat) (o : Opd) (n : Nat) : List Word := (List.range n).map (regAt s ln o)

/-- A small integer in a format that holds it exactly (R30). -/
def Fmt.ofInt8 (f : Fmt) (x : BitVec 8) : Nat := (f.roundFin .rne false false (decide (x.toInt < 0)) x.toInt.natAbs 0 false).1

/-- An FP32 code as FP64; a NaN keeps its sign, its quiet bit and its payload (R30). -/
def widen (c : Nat) : Nat :=
  match Fmt.f32.val c with
  | .nan _ n => Fmt.f64.sgn n + 0x7FF * 2 ^ 52 + c % 2 ^ 23 * 2 ^ 29
  | v => (Fmt.f64.round .rne false false v).1

/-- An operand of the single-precision instructions: the code. -/
def srcF32 (s : State) (ln : Option Nat) (o : Opd) : Nat :=
  match o with
  | .imm x => Fmt.f32.ofInt8 x
  | o => (src32 s ln o).toNat

/-- An operand of the double-precision instructions: the code. -/
def srcF64 (s : State) (ln : Option Nat) (o : Opd) : Nat :=
  match o with
  | .imm x => Fmt.f64.ofInt8 x
  | .lit x => widen x.toNat
  | o => (src64 s ln o).toNat

/-- Element `k` of an operand of the packed 16-bit instructions (R30, R117). -/
def srcF16 (f : Fmt) (s : State) (ln : Option Nat) (o : Opd) (k : Nat) : Nat :=
  match o with
  | .imm x => f.ofInt8 x
  | o => (src32 s ln o).toNat / 2 ^ (16 * k) % 2 ^ 16

/-- A predicate operand: of lane form in a lane, of uniform form without. -/
def srcP (s : State) (ln : Option Nat) (o : Opd) : Bool :=
  match o with
  | .p n => (s.cur.r.rdP n.toNat).has (ln.getD 0)
  | .q n => s.cur.r.rdQ n.toNat
  | _ => false

/-- Writes of a 32-bit result; the zero operand discards (R28). -/
def dst32 (d : Opd) (ln : Option Nat) (x : Word) : List Wr :=
  match d with
  | .v n => [.v n.toNat (ln.getD 0) x]
  | .s n => [.s n.toNat x]
  | _ => []

/-- Writes of `k` registers, the low one first. -/
def dstN (d : Opd) (ln : Option Nat) (k : Nat) (x : Nat) : List Wr :=
  (List.range k).flatMap fun j =>
    let w : Word := BitVec.ofNat 32 (x / 2 ^ (32 * j))
    match d with
    | .v n => [.v (n.toNat + j) (ln.getD 0) w]
    | .s n => [.s (n.toNat + j) w]
    | _ => []

/-- Writes of a predicate result. -/
def dstP (d : Opd) (ln : Option Nat) (x : Bool) : List Wr :=
  match d with
  | .p n => [.p n.toNat (Mask.one (ln.getD 0)) (if x then Mask.all else 0#32)]
  | .q n => [.q n.toNat x]
  | _ => []

/-- The lanes an instruction runs for: the active ones, or once in uniform form (R31, R88). -/
def runsFor (uni : Bool) (m : Mask) : List (Option Nat) := if uni then [none] else m.lanes.map some

/-- One result per lane from the state at issue (R36), with the flags of the active lanes (R91). -/
def perLane (uni : Bool) (lat : Option Nat) (f : State → Option Nat → List Wr × Flags) (m : Mask) : M Unit := fun s =>
  let rs := (runsFor uni m).map (f s)
  emitR (rs.flatMap Prod.fst) (joinFlags (rs.map Prod.snd)) lat s

/-- The operands of an instruction whose form its destination decides (R31). -/
def Meta.of (d : Opd) (kd : Nat) (srcs : List (Opd × Nat)) : Meta := { uni := d.uni, srcs := srcs, dsts := [(d, kd)] }

/-- An instruction that computes one result per lane. -/
def runLanes (h : Hdr) (mt : Meta) (lat : Option Nat) (f : State → Option Nat → List Wr × Flags) (s : State) :
    Host.Outcome State Fault Refusal :=
  runI h mt false (perLane mt.uni lat f) s

end Sys2Proof.Machine
end

