-- ==== Sys2Proof/Machine/Xlate.lean ====
section
/-! DEFINITION. Translation (R354 to R364): the physical map, tenants, page tables, the checks of R359, what caches offer, and
heat. -/

namespace Sys2Proof.Machine

/-! ## The physical map (R354, R355) -/

/-- Where a physical address lies. -/
inductive Loc where
  /-- local DRAM at its address, and the home die of the page (R15) -/
  | dram (pa die : Nat)
  | remote (module off : Nat)
  | host (addr : Nat)
  | chip (pa : Nat)
  | bus
deriving DecidableEq, Repr

def isHbm (pa : Nat) : Bool := decide (pa < 0xC0_0000_0000)
def isLpddr (pa : Nat) : Bool := decide (0x100_0000_0000 ≤ pa && pa < 0x280_0000_0000)
def isDram (pa : Nat) : Bool := isHbm pa || isLpddr pa

/-- The home die of an address: the die of its HBM4E, or for LPDDR6 the one that its leaf names (R357). -/
def dieHome (pa home : Nat) : Nat := if isHbm pa then pa / 0x30_0000_0000 else home

/-- Is the address in a part of the on-chip map that holds something (R380)? The other offsets of a core window are reserved. -/
def isChip (pa : Nat) : Bool :=
  if 0xE_0002_0000_0000 ≤ pa then decide (pa < 0xE_0002_4000_0000)
  else
    let o := (pa - 0xE_0000_0000_0000) % 0x20_0000
    decide (0xE_0000_0000_0000 ≤ pa) && (decide (o < 0xF_0000) || (decide (0x10_0000 ≤ o) && decide (o < 0x18_8000)))

/-- Where an address lies whose leaf names a home die; an address that no leaf maps has die 0 for LPDDR6 (log 60). -/
def locate (s : State) (part pa : Nat) (home : Nat := 0) : Loc :=
  if isDram pa then .dram pa (dieHome pa home)
  else if 0x8_0000_0000_0000 ≤ pa && pa < 0xC_0000_0000_0000 then
    let w := (pa - 0x8_0000_0000_0000) / 2 ^ 42
    let o := (pa - 0x8_0000_0000_0000) % 2 ^ 42
    let r := (s.part part).fabwin.get w 0#64
    if !r.getLsbD 63 || !isDram o then .bus
    else if r.extractLsb' 0 15 == s.m.fabid.extractLsb' 0 15 then .dram o (dieHome o 0)
    else .remote (r.extractLsb' 0 15).toNat o
  else if 0xC_0000_0000_0000 ≤ pa && pa < 0xE_0000_0000_0000 then .host (pa - 0xC_0000_0000_0000)
  else if isChip pa then .chip pa
  else .bus

/-- Where the bytes of a physical address are held: a window that names this module leads to its own memory (R355). -/
def physOf (s : State) (part pa : Nat) : Nat :=
  match locate s part pa with
  | .dram o _ => o
  | _ => pa

/-- Physical address of a byte of a core's scratchpad (R380). -/
def spPa (core off : Nat) : Nat := 0xE_0000_0000_0000 + 0x20_0000 * core + off
/-- Is the address a scratchpad byte? -/
def isSp (pa : Nat) : Bool :=
  0xE_0000_0000_0000 ≤ pa && pa < 0xE_0002_0000_0000 && (pa - 0xE_0000_0000_0000) % 0x20_0000 < 0xC_0000

/-- The slice of a line (R420). -/
def sliceOf (pa : Nat) : Nat :=
  nbits pa 13 8 ^^^ nbits pa 19 14 ^^^ nbits pa 25 20 ^^^ nbits pa 31 26 ^^^ nbits pa 37 32 ^^^ nbits pa 43 38
    ^^^ nbits pa 49 44 ^^^ nbits pa 51 50

/-! ## Tenants (R374) -/

/-- The 64 bytes of a tenant descriptor. -/
def tenantBytes (s : State) (part asid : Nat) : List Byte :=
  s.bytes (physOf s part (((s.part part).tent.extractLsb' 12 40).toNat * 4096 + 64 * asid)) 64

/-- The descriptor of a valid tenant. A table outside the partition's ranges is never reached (R373), so it holds none. -/
def tenant? (s : State) (part asid : Nat) : Option (List Byte) :=
  let n := ((s.part part).tent.extractLsb' 0 5).toNat
  if 16 < n || 2 ^ n ≤ asid || !s.inRanges part (((s.part part).tent.extractLsb' 12 40).toNat * 4096 + 64 * asid) then none
  else
    let d := tenantBytes s part asid
    let root := fld d 0 8
    if nbit root 0 && nbits root 11 1 == 0 && nbits root 63 52 == 0 && fld d 23 1 < 4
        && allZero ((d.drop 26).take 6) && allZero (d.drop 49) then some d
    else none

def tRoot (d : List Byte) : Nat := nbits (fld d 0 8) 51 12 * 4096
def tCatBase (d : List Byte) : Nat := fld d 8 8
def tCatLen (d : List Byte) : Nat := fld d 16 4
def tIsQuota (d : List Byte) : Nat := fld d 20 1
def tRsvQ (d : List Byte) : Nat := fld d 21 1
def tPriv (d : List Byte) : Bool := nbit (fld d 23 1) 0
def tHost (d : List Byte) : Bool := nbit (fld d 23 1) 1
def tHartImg (d : List Byte) : Nat := fld d 32 8
def tProcTbl (d : List Byte) : Nat := fld d 40 8
def tProcCnt (d : List Byte) : Nat := fld d 48 1

/-- Is the tenant privileged (R375)? -/
def privOf (s : State) (part asid : Nat) : Bool := match tenant? s part asid with | some d => tPriv d | none => false

/-! ## Table entries (R357) -/

namespace Pte
def v (e : Dword) : Bool := e.getLsbD 0
def leaf (e : Dword) : Bool := e.getLsbD 1
def r (e : Dword) : Bool := e.getLsbD 2
def w (e : Dword) : Bool := e.getLsbD 3
def x (e : Dword) : Bool := e.getLsbD 4
def busy (e : Dword) : Bool := e.getLsbD 5
def home (e : Dword) : Nat := (e.extractLsb' 9 2).toNat
def tier (e : Dword) : Bool := e.getLsbD 11
def frame (e : Dword) : Nat := (e.extractLsb' 12 40).toNat * 4096
def cont (e : Dword) : Bool := e.getLsbD 56
def defer (e : Dword) : Bool := e.getLsbD 61
def proc (e : Dword) : Bool := e.getLsbD 62
def poison (e : Dword) : Bool := e.getLsbD 63
/-- The heat fields. -/
def heatMask : Dword := 0x1E00_0000_0000_0000#64
def noHeat (e : Dword) : Dword := e &&& ~~~heatMask
/-- Reserved bits of a leaf and of a table pointer. -/
def resLeaf (e : Dword) : Bool := e.extractLsb' 52 4 != 0#4 || e.extractLsb' 6 3 != 0#3
def resPtr (e : Dword) : Bool := e.extractLsb' 62 2 != 0#2 || e.extractLsb' 52 9 != 0#9 || e.extractLsb' 2 10 != 0#10
/-- TIER and HOME agree with FRAME (R357). -/
def homeOk (e : Dword) : Bool :=
  if isHbm (frame e) then !tier e && home e == frame e / 0x30_0000_0000
  else if isLpddr (frame e) then tier e
  else !tier e && home e == 0
end Pte

/-- Bytes that a leaf of a level maps. -/
def leafSize (level : Nat) : Nat := 2 ^ (12 + 9 * level)

/-- A translation: the leaf without its heat, its level, its address. -/
structure Tr where
  va : Nat
  pte : Dword
  level : Nat
  at_ : Nat
deriving DecidableEq, Repr

/-- Physical address that a translation gives. -/
def Tr.pa (t : Tr) : Nat := Pte.frame t.pte / leafSize t.level * leafSize t.level + t.va % leafSize t.level

/-- Where a translated access lies. -/
def Tr.loc (s : State) (part : Nat) (t : Tr) : Loc := locate s part t.pa (Pte.home t.pte)

/-- What a walk or a check gives: a translation, a wait (R360), an access DETAIL with the deferrable mark (R244), or the
page's poison. -/
inductive Wk where
  | ok (t : Tr)
  | busy
  | bad (detail : Nat) (defer : Bool)
  | poison
deriving DecidableEq, Repr

/-- The kinds of access that R359 tells apart. -/
inductive Acc where
  | load | store | atomic | ovl | query
deriving DecidableEq, Repr

/-- Index of a virtual address at a level. -/
def vaIndex (va level : Nat) : Nat := va / 2 ^ (12 + 9 * level) % 512

/-- Canonical (R238). -/
def canonical (va : Nat) : Bool := va / 2 ^ 56 % 2 ^ 8 == 0 || va / 2 ^ 56 % 2 ^ 8 == 255

/-- A valid leaf as a translation (R357 to R360). In a CONT group whose entries differ the choice of entry is free. -/
def leafWk (va level at_ : Nat) (e : Dword) : Wk :=
  if Pte.resLeaf e || Pte.frame e % leafSize level != 0 || !Pte.homeOk e then .bad 3 false
  else if Pte.busy e then .busy
  else .ok ⟨va, Pte.noHeat e, level, at_⟩

/-- One level-0 entry, by its own fields or by the first of its group with FRAME adjusted (R358). -/
def leaf0 (s : State) (pick va at_ : Nat) (e : Dword) : Wk :=
  if !Pte.v e then .bad 4 (Pte.defer e)
  else if !Pte.leaf e then .bad 3 false
  else if Pte.cont e then
    let at1 := at_ / 128 * 128
    let e1 : Dword := BitVec.ofNat 64 (leNat (s.bytes at1 8))
    let adj : Dword := (e1 &&& ~~~0xF000#64) ||| (BitVec.ofNat 64 (va / 4096 % 16) <<< 12)
    let same := Pte.noHeat adj == Pte.noHeat e
    if !same && Config.contFirst pick then
      if !Pte.v e1 then .bad 4 (Pte.defer e1) else if !Pte.leaf e1 then .bad 3 false else leafWk va 0 at1 adj
    else leafWk va 0 at1 e
  else leafWk va 0 at_ e

/-- The walk from a table (R356). A poisoned entry's sector makes the walker's read wait (R399). -/
def walkFrom (s : State) (part pick va : Nat) : Nat → Nat → Wk
  | level, tbl =>
    let at_ := tbl + 8 * vaIndex va level
    let at_ := physOf s part at_
    let e : Dword := BitVec.ofNat 64 (leNat (s.bytes at_ 8))
    if !s.inRanges part tbl then .bad 3 false
    else if s.poison.contains (at_ / 64 * 64) then .busy
    else match level with
      | 0 => leaf0 s pick va at_ e
      | l + 1 =>
        if !Pte.v e then .bad 4 (Pte.defer e)
        else if Pte.leaf e then (if 2 ≤ l then .bad 3 false else leafWk va (l + 1) at_ e)
        else if Pte.resPtr e then .bad 3 false
        else walkFrom s part pick va l (Pte.frame e)

/-- The walk of a canonical address for a tenant. -/
def walk (s : State) (part asid pick va : Nat) : Wk :=
  if !canonical va then .bad 2 false
  else match tenant? s part asid with
    | none => .bad 5 false
    | some d => walkFrom s part pick (va % 2 ^ 57) 4 (tRoot d)

/-! ## Procedural ranges (R369, R370) -/

namespace Range
def vbase (r : Range) : Nat := fld r.desc 0 8 % 2 ^ 57
/-- The end, exclusive; the top of the address space where its low 57 bits are zero. -/
def vlimit (r : Range) : Nat := if fld r.desc 8 8 % 2 ^ 57 == 0 then 2 ^ 57 else fld r.desc 8 8 % 2 ^ 57
def mapptr (r : Range) : Nat := fld r.desc 16 8
def srcptr (r : Range) : Nat := fld r.desc 24 8
def genovl (r : Range) : Nat := fld r.desc 32 3
def kind (r : Range) : Nat := fld r.desc 35 1 % 4
def blklog (r : Range) : Nat := fld r.desc 36 1
def lim (r : Range) : Nat := fld r.desc 37 1 % 8
def en (r : Range) : Bool := nbit (fld r.desc 37 1) 3
def evict (r : Range) : Bool := nbit (fld r.desc 38 1) 0
def owner (r : Range) : Nat := fld r.desc 40 2
def size (r : Range) : Nat := 2 ^ r.blklog
def holds (r : Range) (va : Nat) : Bool := decide (r.vbase ≤ va && va < r.vlimit)
def blockOf (r : Range) (va : Nat) : Nat := (va - r.vbase) / r.size
def blocks (r : Range) : Nat := (r.vlimit - r.vbase) / r.size
end Range

/-- The enabled range of a tenant that holds an address (R370). -/
def rangeFor (s : State) (part asid va : Nat) : Option Range :=
  ((s.part part).ranges.get asid []).find? fun r => r.holds va

/-! ## The checks of R359 -/

/-- Every 2 MiB granule of a leaf's page lies in the partition's ranges (R373). -/
def pageInRanges (s : State) (part : Nat) (t : Tr) : Bool :=
  (List.range (max 1 (leafSize t.level / 2 ^ 21))).all fun k =>
    s.inRanges part (Pte.frame t.pte / leafSize t.level * leafSize t.level + k * 2 ^ 21)

/-- Does the page allow the access? -/
def permits (e : Dword) : Acc → Bool
  | .load => Pte.r e
  | .store => Pte.w e
  | .atomic => Pte.r e && Pte.w e
  | .ovl => Pte.x e
  | .query => true

/-- The checks that follow a walk or a cached result, in order. -/
def checkTr (s : State) (part asid : Nat) (priv : Bool) (acc : Acc) (t : Tr) : Wk :=
  let chip := match locate s part t.pa with | .chip _ => true | _ => false
  if !pageInRanges s part t || (chip && !priv) then .bad 5 false
  else if !permits t.pte acc then .bad 6 false
  else if acc == .query then .ok t
  else if Pte.poison t.pte then .poison
  else if Pte.proc t.pte && (rangeFor s part asid t.va).isNone then .bad 7 false
  else if locate s part t.pa == .bus then .bad 1 false
  else .ok t

/-- The number under which a translation takes its free choices (R358, R362): by moment, core, lane and address; an agent that is no
lane stands under core 4096. -/
def pickKey (s : State) (core : Nat) (lane : Option Nat) (va : Nat) : Nat :=
  ((s.m.cycle * 8192 + core) * 64 + (lane.map (· + 1)).getD 0) * 2 ^ 64 + va

/-- Translation of an access that no cache serves. -/
def xlate (s : State) (part asid : Nat) (priv : Bool) (acc : Acc) (va : Nat) : Wk :=
  match walk s part asid (pickKey s 4096 none va) va with
  | .ok t => checkTr s part asid priv acc t
  | w => w

/-! ## What a core's caches offer (R361, R362) -/

/-- Translation generation of a core. -/
def genOf (s : State) (core : Nat) : Nat := s.tgen.get core 0

/-- The lane's last-page register, when it serves the address (R361). -/
def lastPage? (s : State) (c : Cohort) (lane : Option Nat) (va : Nat) : Option Tr :=
  match lane with
  | none => none
  | some i => match c.x.lastPages.find? fun e => e.1 == i with
    | some (_, l) =>
      if l.vpn == va % 2 ^ 57 / 4096 && l.asid == c.pl.asid && l.gen == genOf s c.pl.core then
        some ⟨va % 2 ^ 57, l.pte, l.level, l.at_⟩
      else none
    | none => none

/-- Entries of a core's TLB that cover an address. -/
def tlbHits (s : State) (core part asid va : Nat) : List Tr :=
  (s.tlb.filter fun t => t.core == core && t.part == part && t.asid == asid
      && t.vpn == va % 2 ^ 57 / leafSize t.level).map fun t => ⟨va % 2 ^ 57, t.pte, t.level, t.at_⟩

/-- Translation of a lane of a cohort: the last-page register, else one of what the TLB and the tables offer; where they
differ the choice is free until TLBINV completes (R362). -/
def xlateLane (s : State) (c : Cohort) (lane : Option Nat) (acc : Acc) (va : Nat) : Wk :=
  let pick := pickKey s c.pl.core lane va
  let chk := fun w => match w with
    | Wk.ok t => checkTr s c.pl.part c.pl.asid c.pl.priv acc t
    | w => w
  if !canonical va then .bad 2 false
  else match lastPage? s c lane va with
    | some t => chk (.ok t)
    | none =>
      let ws := ((tlbHits s c.pl.core c.pl.part c.pl.asid va).map Wk.ok ++ [walk s c.pl.part c.pl.asid pick va]).eraseDups
      match ws with
      | [w] => chk w
      | ws => chk (nth ws (Config.tlbPick pick % ws.length) .busy)

/-! ## Heat (R363) -/

/-- Raise the heat of the leaf at an address; a BUSY leaf is left alone. -/
def raiseHeat (rd wr : Bool) (at_ : Nat) (s : State) : State :=
  let e : Dword := BitVec.ofNat 64 (leNat (s.bytes at_ 8))
  if Pte.busy e || !Pte.v e then s
  else
    let up := fun (x : BitVec 2) (b : Bool) => if b && x != 3#2 then x + 1#2 else x
    let b := s.byte (at_ + 7)
    s.setBytes (at_ + 7) [b.extractLsb' 5 3 ++ up (b.extractLsb' 3 2) rd ++ up (b.extractLsb' 1 2) wr ++ b.extractLsb' 0 1]

/-- Heat raised by an access, when the partition's HEATCTL.EN is set. -/
def heatFor (part : Nat) (acc : Acc) (at_ : Nat) (s : State) : State :=
  if (s.part part).heat.getLsbD 0 then raiseHeat (acc == .load || acc == .atomic || acc == .ovl) (acc == .store || acc == .atomic) at_ s
  else s

/-- An access of a cohort used a translation: the TLB and the last-page register keep it, and heat is raised on a walk and
on each 2^SAMPLE-th access that a cache serves (R361, R363). -/
def noteUse (lane : Option Nat) (acc : Acc) (t : Tr) (s : State) : State :=
  let p := s.cur.pl
  let same := fun (x : Tlb) => x.core == p.core && x.part == p.part && x.asid == p.asid && x.vpn == t.va / leafSize t.level
    && x.pte == t.pte && x.at_ == t.at_
  let s := match s.tlb.find? same with
    | some x =>
      let n := x.served + 1
      let s := { s with tlb := replaceFirst same { x with served := n } s.tlb }
      if n % 2 ^ ((s.part p.part).heat.extractLsb' 8 4).toNat == 0 then heatFor p.part acc t.at_ s else s
    | none =>
      heatFor p.part acc t.at_
        { s with tlb := s.tlb ++ [⟨p.core, p.part, p.asid, t.va / leafSize t.level, t.level, t.pte, t.at_, 0⟩] }
  match lane with
  | none => s
  | some i => s.updX fun x =>
      { x with lastPages := x.lastPages.put i ⟨t.va / 4096, p.asid, genOf s p.core, t.pte, t.level, t.at_⟩ }

/-! ## Reads and writes in a tenant's space by agents that are no lane -/

/-- `n` bytes at a virtual address, byte by byte across pages: the bytes, or why not. -/
def readVirt (s : State) (part asid : Nat) (priv : Bool) (acc : Acc) (va : Nat) : Nat → Except Wk (List Byte)
  | 0 => .ok []
  | n + 1 =>
    match xlate s part asid priv acc va with
    | .ok t =>
      let pa := physOf s part t.pa
      if s.poison.contains (pa / 64 * 64) then .error .busy
      else match readVirt s part asid priv acc (va + 1) n with
        | .ok l => .ok (s.byte pa :: l)
        | .error w => .error w
    | w => .error w

end Sys2Proof.Machine
end

