-- ==== Sys2Proof/Machine/Park.lean ====
section
/-! DEFINITION. Late records of cohorts (R388, R391), and the conservation queue's parked requests (R399, R400). -/

namespace Sys2Proof.Machine

/-! ## Records for a cohort that need not be the issuing one -/

/-- A late record of a cohort (R388, R391); the slots are filled in at delivery. Its lanes are those active for the
originating instruction (log 43). -/
def lateRec (c : Cohort) (cause detail : Nat) (pc : Pc) (mask : Mask) (addr : Nat) : Rec where
  cause := cause
  detail := detail
  opnd := 0
  slotB := false
  late := true
  cls := 0
  mask := mask
  done := 0
  dstop := c.c.dstop
  count := 0
  pc := pc
  addr := addr
  slotA := c.c.a
  slotBp := c.c.b
  cohort := match c.x.gen with | some g => g.block | none => c.pl.lin
  queue := if c.x.gen.isSome then 0xFFFF else c.pl.queue
  aux := match c.x.gen with | some g => g.range + g.owner * 2 ^ 16 | none => 0xFFFFFFFF
  launch := if c.x.gen.isSome then none else c.pl.launch

/-- Give a cohort a late trap. One whose lanes have all left has its record written to the ring, and its launch completes
with CODE 1 (R313, R393). -/
def postLate (id cause detail opnd : Nat) (pc : Pc) (mask done : Mask) (addr : Nat) (s : State) : State :=
  match s.cohort? id with
  | none => s
  | some c =>
    let r := { lateRec c cause detail pc mask addr with opnd := opnd, done := done }
    if c.c.ending.isSome then
      let s := (s.ring c.pl.part r).2
      match c.pl.launch with
      | some l => s.updLaunch l fun x => { x with code := if x.code == 0 then 1 else x.code }
      | none => s
    else s.updCohort id fun c => { c with c := { c.c with late := addLate r c.c.late } }

/-- Bytes of a TYPE (R240). -/
def Ty.bytes : Ty → Nat
  | .u8 | .s8 => 1
  | .u16 | .s16 | .f16 | .bf16 => 2
  | .u64 | .s64 | .f64 => 8
  | .b128 => 16
  | _ => 4

/-! ## Parked requests (R399, R400) -/

/-- The cohort whose lane a request is. -/
def Req.cohort? : Req → Option Nat
  | .load c _ _ _ _ _ _ _ | .sload c _ _ _ _ _ _ | .store c _ _ _ | .atom c _ _ _ _ _ _ _ _ => some c
  | .held h => some h.cohort
  | _ => none

/-- Does a register result wait for the request (R36), or the report of an FXADD (R251)? -/
def Req.owes : Req → Bool
  | .load .. | .sload .. => true
  | .atom _ reg _ op _ _ _ _ _ => reg.isSome || op == .fxadd
  | .held h => h.reg.isSome
  | _ => false

/-- The bytes that a request of a lane touches: the first address and how many. -/
def Req.span : Req → Nat × Nat
  | .load _ _ _ pa ty _ _ _ | .sload _ _ pa ty _ _ _ => (pa, Ty.bytes ty)
  | .store _ _ data _ | .wback _ data => ((data.headD (0, 0#8)).1, data.length)
  | .atom _ _ pa _ ty _ _ _ _ => (pa, Ty.bytes ty)
  | .held h => (h.pa, h.width)
  | _ => (0, 0)

/-- The lanes that a request performs for; none of a uniform instruction or of a whole tile. -/
def Req.lanes : Req → Mask
  | .load _ _ i _ _ _ _ _ => Mask.one i
  | .store _ (some i) _ _ => Mask.one i
  | .atom _ _ _ _ _ _ _ ls _ => Mask.ofLanes (ls.map (·.1))
  | .held h => Mask.one (h.glane % 32)
  | _ => 0#32

/-- The lanes of an instruction that performed, when these did not. -/
def doneBut (mask lanes : Mask) : Mask := if lanes == 0#32 then 0#32 else mask &&& ~~~lanes

/-- A request that the conservation queue refuses or discards (R400). -/
def refuse (q : Parked) (s : State) : State :=
  match q.req with
  | .load c _ _ _ _ _ _ pc | .sload c _ _ _ _ _ pc | .store c _ _ pc | .atom c _ _ _ _ _ _ _ pc =>
    postLate c 0x0007 1 1 pc q.mask (doneBut q.mask (Req.lanes q.req)) q.va s
  | .held h => postLate h.cohort 0x0007 1 1 h.pc q.mask (doneBut q.mask (Req.lanes q.req)) q.va s
  | .host _ _ => { s with outs := s.outs ++ [.hostError q.va] }
  | .remote src _ _ | .ratom src _ _ _ _ _ _ _ => { s with outs := s.outs ++ [.zwiovFault src 7] }
  | .copy id => { s with copies := s.copies.map fun c => if c.id == id then { c with kind := .bad 6 q.va } else c }
  | .engine k => { s with refused := s.refused ++ [(k, q.pa)] }
  | .wback _ _ | .other => s

/-- Park a request on a sector: 64 entries a slice, 16 of one partition; the first on a sector writes a class 1 record. -/
def parkReq (part pa die va : Nat) (mask : Mask) (cause : Nat) (req : Req) (s : State) : State :=
  let (id, s) := s.fresh
  let core := match req with
    | .wback c _ => some c
    | r => (r.cohort?.bind s.cohort?).map (·.pl.core)
  let q : Parked := ⟨id, part, pa / 64 * 64, va, mask, cause, s.m.time, req, die, core⟩
  let slice := s.parked.filter fun x => sliceOf x.pa == sliceOf pa && x.die == die
  if 64 ≤ slice.length || 16 ≤ (slice.filter fun x => x.part == part).length then refuse q s
  else
    let s := if s.parked.any fun x => x.pa == q.pa then s else (s.ring part (plainRec cause 0 1 q.pa)).2
    { s with parked := s.parked ++ [q] }

/-- Is a byte of [pa, pa + n) in a poisoned sector? Accesses of up to 64 aligned bytes lie in one sector. -/
def State.poisoned (s : State) (pa : Nat) : Bool := s.poison.contains (pa / 64 * 64)

end Sys2Proof.Machine
end

