-- ==== Sys2Proof/Machine/Procs.lean ====
section
/-! DEFINITION. Procedural blocks as accesses meet them: the fill-state map, requests to a fill directory, the failures of
R344 (R339 to R344). -/

namespace Sys2Proof.Machine

/-- Block states (R339). -/
def blkEmpty : Nat := 0
def blkPending : Nat := 1
def blkFilled : Nat := 2
def blkFailed : Nat := 3

/-- The translation of the map byte of a block in OWNER's space. -/
def mapTr (s : State) (part : Nat) (r : Range) (blk : Nat) (acc : Acc) : Option Tr :=
  match xlate s part r.owner (privOf s part r.owner) acc (r.mapptr + blk / 4) with
  | .ok t => some t
  | _ => none

/-- The number under which a read of a range's map parks. -/
def mapKey (part asid : Nat) (r : Range) : Nat := 2 ^ 57 + (part * 2 ^ 16 + asid) * 256 + r.ix

/-- Has an access to the map byte of a block to wait, for a BUSY leaf (R360) or a poisoned sector that is not refused (R399)? -/
def mapBusy (s : State) (part asid : Nat) (r : Range) (blk : Nat) : Bool :=
  match xlate s part r.owner (privOf s part r.owner) .load (r.mapptr + blk / 4) with
  | .busy => true
  | .ok t => s.poisoned t.pa && !s.refused.contains (mapKey part asid r, t.pa / 64 * 64)
  | _ => false

/-- An access to a map byte that has to wait parks where its sector is poisoned. -/
def parkMap (part asid : Nat) (r : Range) (blk : Nat) (s : State) : State :=
  match mapTr s part r blk .load with
  | some t =>
    let w := t.pa / 64 * 64
    if !s.poisoned t.pa || s.parked.any fun q => q.pa == w && q.req == Req.engine (mapKey part asid r) then s
    else parkReq part t.pa (Pte.home t.pte) (r.mapptr + blk / 4) 0#32 0x0041 (.engine (mapKey part asid r)) s
  | none => s

/-- State of a block; none when its map faults. -/
def blkState (s : State) (part : Nat) (r : Range) (blk : Nat) : Option Nat :=
  ((mapTr s part r blk .load).filter fun t => !s.poisoned t.pa).map fun t => (s.byte t.pa).toNat / 4 ^ (blk % 4) % 4

/-- A range counts as disabled until the table is read again; the fault is counted, and waiting requesters are presented
again (R339). -/
def disableRange (part asid ix : Nat) (s : State) : State :=
  ((s.updPart part fun p =>
      { p with ranges := p.ranges.set asid ((p.ranges.get asid []).filter fun r => r.ix != ix) [] }).countMisc part).wake

/-- Write the state of a block; a map that cannot be written disables the range (R339). -/
def setBlk (part asid : Nat) (r : Range) (blk st : Nat) (s : State) : State :=
  match mapTr s part r blk .store with
  | some t =>
    let x := (s.byte t.pa).toNat
    let k := 4 ^ (blk % 4)
    s.setBytes t.pa [BitVec.ofNat 8 (x - x / k % 4 * k + st * k)]
  | none => disableRange part asid r.ix s

/-- The range of a tenant by its index, when it is enabled. -/
def rangeIx? (s : State) (part asid ix : Nat) : Option Range :=
  ((s.part part).ranges.get asid []).find? fun r => r.ix == ix

/-- The fill in progress for a block. -/
def fillOf (s : State) (part asid ix blk : Nat) : Option Fill :=
  s.fills.find? fun f => f.part == part && f.asid == asid && f.range == ix && f.block == blk

/-- The generator cohort of a fill. -/
def genOfFill (s : State) (id : Nat) : Option Cohort :=
  s.cohorts.find? fun c => match c.x.gen with | some g => g.fill == id | none => false

/-- Does the waits-for chain from a fill reach the fill `own`, or does it have `n` fills and more (R344)? -/
def chainReaches (s : State) (own : Nat) : Nat → Nat → Bool
  | 0, _ => true
  | n + 1, f =>
    if f == own then true
    else match genOfFill s f with
      | some c => match c.c.onFill with
        | some g => chainReaches s own n g
        | none => false
      | none => false

/-- What a requester of a block meets. -/
inductive Ask where
  /-- FILLED, or a generator's own block: the access proceeds -/
  | go
  /-- EMPTY or PENDING: the request is made, and the requester waits on this fill, if the directory took it -/
  | wait (fill : Option Nat)
  /-- the block is FAILED -/
  | failed
  /-- recursive miss or procedural cycle (R344) -/
  | fault (cause : Nat)
  /-- the map faulted: the range is disabled, the access takes proc-disabled -/
  | off
deriving DecidableEq, Repr

/-- Waiter entries in use in the directory of a die (R341). -/
def waiters (s : State) (die : Nat) : Nat :=
  (s.cohorts.filter fun c => match c.c.onFill with
    | some f => s.fills.any fun x => x.id == f && x.die == die
    | none => false).length

/-- Is a waiter entry free for a fill? Each die has 1,024 (R341). -/
def waiterFree (s : State) (die : Nat) : Bool := waiters s die < 1024

/-- Make a fill entry for an EMPTY block in the directory of the map byte's home die, which holds 4,096 (R341). -/
def startFill (part asid : Nat) (r : Range) (blk depth : Nat) (parent : Option Nat) (s : State) : Option Nat × State :=
  match mapTr s part r blk .load with
  | none => (none, s)
  | some t =>
    let die := Pte.home t.pte
    if 4096 ≤ (s.fills.filter fun f => f.die == die).length || !waiterFree s die then (none, s)
    else if (mapTr s part r blk .store).isNone then (none, disableRange part asid r.ix s)
    else
      let (id, s) := s.fresh
      let s := { s with failed := s.failed.filter fun e => !(e.1 == part && e.2.asid == asid && e.2.range == r.ix && e.2.block == blk) }
      (some id, setBlk part asid r blk blkPending
        { s with fills := s.fills ++ [⟨id, die, part, asid, r.owner, r.ix, blk, depth, false, parent, r.desc, none⟩] })

/-- A request for a block by an agent; `gen` is the context of a generator that asks (R341, R344). -/
def askBlock (part asid : Nat) (r : Range) (blk : Nat) (gen : Option Gen) (s : State) : Ask × State :=
  let own := match gen with
    | some g => g.asid == asid && g.range == r.ix && g.block == blk
    | none => false
  let attach := fun (s : State) => match fillOf s part asid r.ix blk with
    | some f => if waiterFree s f.die then some f.id else none
    | none => none
  if own then (.go, s)
  else if mapBusy s part asid r blk then (.wait none, parkMap part asid r blk s)
  else match blkState s part r blk with
    | none => (.off, disableRange part asid r.ix s)
    | some st =>
      if st == blkFilled then (.go, s)
      else if st == blkFailed then (.failed, s)
      else match gen with
        | some g =>
          if r.lim ≤ g.depth then (.fault 0x0017, s)
          else if st == blkPending then
            match fillOf s part asid r.ix blk with
            | some f => if chainReaches s g.fill 65 f.id then (.fault 0x0018, s) else (.wait (attach s), s)
            | none => (.wait none, s)
          else
            let (id, s) := startFill part asid r blk (g.depth + 1) (some g.fill) s
            (.wait id, s)
        | none =>
          if st == blkPending then (.wait (attach s), s)
          else
            let (id, s) := startFill part asid r blk 0 none s
            (.wait id, s)

/-- What an access of `n` bytes at a translated address meets; an access lies in one block (R241). -/
def askAt (part asid : Nat) (gen : Option Gen) (t : Tr) (s : State) : Ask × State :=
  if !Pte.proc t.pte then (.go, s)
  else match rangeFor s part asid t.va with
    | some r => askBlock part asid r (r.blockOf t.va) gen s
    | none => (.off, s)

/-- The same without making a request. -/
def peekAt (s : State) (part asid : Nat) (gen : Option Gen) (t : Tr) : Ask :=
  if !Pte.proc t.pte then .go
  else match rangeFor s part asid t.va with
    | none => .off
    | some r =>
      let blk := r.blockOf t.va
      let own := match gen with
        | some g => g.asid == asid && g.range == r.ix && g.block == blk
        | none => false
      if own then .go
      else if mapBusy s part asid r blk then .wait none
      else match blkState s part r blk with
        | none => .off
        | some st => if st == blkFilled then .go else if st == blkFailed then .failed else .wait none

end Sys2Proof.Machine
end

