-- ==== Sys2Proof/Machine/Access.lean ====
section
/-! DEFINITION. Where accesses perform (R208 to R221): the L1 with its per-byte masks, homes and scratchpad banks, the
on-chip map, parked requests (R399), the effects of releases and acquires. -/

namespace Sys2Proof.Machine

/-! ## The on-chip map (R380) -/

/-- The bytes of a range become undefined. -/
def undefBytes (lo n : Nat) (s : State) : State :=
  let (k, s) := s.draw
  if n == 0 then s else { s with lazies := s.lazies.flatMap (Lazy.cut lo (lo + n)) ++ [⟨lo, lo + n, 0, .undef k⟩] }

/-- Number of a tile of a quad among all tiles. -/
def tileKey (quad t : Nat) : Nat := 64 * quad + t
/-- A tile in its cleared state (R133): rows that are not listed are cleared, with anchor −256. -/
def Tile.zero : Tile := ⟨[], [], false, []⟩
def TRow.zero : TRow := ⟨0x100#9, false, false, false, false, false, 0⟩

/-- The cohort whose allocation holds row k of a partition of a core's vector register file. -/
def rowOwner (s : State) (core ipart k : Nat) : Option Cohort :=
  s.cohorts.find? fun c =>
    c.pl.core == core && c.pl.slotIx / 8 == ipart && c.r.vbase ≤ k && k < c.r.vbase + c.r.vregs

/-- Byte b of a word. -/
def byteOf (x : Word) (b : Nat) : Byte := x.extractLsb' (8 * b) 8
/-- A word with byte b replaced. -/
def setByteOf (x : Word) (b : Nat) (y : Byte) : Word :=
  (x &&& ~~~(0xFF#32 <<< (8 * b))) ||| (y.zeroExtend 32 <<< (8 * b))

/-- The residency slot that holds a byte of a core's instruction store, its block and the bit where the byte starts in it (R327, R380). -/
def storeAt? (s : State) (core off : Nat) : Option (OvSlot × Nat × Nat) :=
  match s.slots.find? fun o => o.core == core && o.st == .resident && o.gran.contains (off / 1024) with
  | some o =>
    let k := o.gran.findIdx (· == off / 1024) * 16 + off % 1024 / 64
    if k < o.blocks.length then some (o, k, off % 64 * 8) else none
  | none => none

/-- A byte of the on-chip map. A window's byte that no register, tile or loaded overlay holds is a byte of memory. -/
def chipByte (s : State) (pa : Nat) : Byte :=
  if 0xE_0002_0000_0000 ≤ pa then
    let o := pa - 0xE_0002_0000_0000
    let t := s.tiles.get (tileKey (o / 2 ^ 20) (o % 2 ^ 20 / 16384)) Tile.zero
    (t.cells.get (o % 16384 / 8) 0#64).extractLsb' (8 * (o % 8)) 8
  else
    let core := (pa - 0xE_0000_0000_0000) / 2 ^ 21
    let o := (pa - 0xE_0000_0000_0000) % 2 ^ 21
    if 0xC_0000 ≤ o && o < 0xF_0000 then
      match storeAt? s core (o - 0xC_0000) with
      | some (v, k, sh) => (nth v.blocks k 0#512).extractLsb' sh 8
      | none => s.byte pa
    else if 0x10_0000 ≤ o && o < 0x18_0000 then
      let k := (o - 0x10_0000) % 2 ^ 16 / 128
      match rowOwner s core ((o - 0x10_0000) / 2 ^ 16) k with
      | some c => byteOf (c.r.rdV (k - c.r.vbase) (o % 128 / 4)) (o % 4)
      | none => s.byte pa
    else if 0x18_0000 ≤ o && o < 0x18_8000 then
      match s.cohorts.find? fun c => c.pl.core == core && c.pl.slotIx == (o - 0x18_0000) / 512 with
      | some c => byteOf (c.r.rdS (o % 512 / 4)) (o % 4)
      | none => s.byte pa
    else s.byte pa

/-- Write a byte of the on-chip map. A write to a loaded overlay changes what its blocks hold (log 66). -/
def chipPut (pa : Nat) (x : Byte) (s : State) : State :=
  if 0xE_0002_0000_0000 ≤ pa then
    let o := pa - 0xE_0002_0000_0000
    let key := tileKey (o / 2 ^ 20) (o % 2 ^ 20 / 16384)
    let t := s.tiles.get key Tile.zero
    let old := t.cells.get (o % 16384 / 8) 0#64
    let sh := 8 * (o % 8)
    let new := (old &&& ~~~(0xFF#64 <<< sh)) ||| (x.zeroExtend 64 <<< sh)
    { s with tiles := s.tiles.set key { t with cells := t.cells.set (o % 16384 / 8) new 0#64 } Tile.zero }
  else
    let core := (pa - 0xE_0000_0000_0000) / 2 ^ 21
    let o := (pa - 0xE_0000_0000_0000) % 2 ^ 21
    if 0xC_0000 ≤ o && o < 0xF_0000 then
      match storeAt? s core (o - 0xC_0000) with
      | some (v, k, sh) =>
        { s with slots := s.slots.map fun y =>
            if y.core == v.core && y.ix == v.ix then
              { y with blocks := y.blocks.modify k fun w => (w &&& ~~~(0xFF#512 <<< sh)) ||| (x.zeroExtend 512 <<< sh) }
            else y }
      | none => s.setBytes pa [x]
    else if 0x10_0000 ≤ o && o < 0x18_0000 then
      let k := (o - 0x10_0000) % 2 ^ 16 / 128
      match rowOwner s core ((o - 0x10_0000) / 2 ^ 16) k with
      | some c => s.updCohort c.pl.id fun c =>
          { c with r := c.r.wrV (k - c.r.vbase) (o % 128 / 4)
                     (setByteOf (c.r.rdV (k - c.r.vbase) (o % 128 / 4)) (o % 4) x) }
      | none => s.setBytes pa [x]
    else if 0x18_0000 ≤ o && o < 0x18_8000 then
      match s.cohorts.find? fun c => c.pl.core == core && c.pl.slotIx == (o - 0x18_0000) / 512 with
      | some c => s.updCohort c.pl.id fun c =>
          { c with r := c.r.wrS (o % 512 / 4) (setByteOf (c.r.rdS (o % 512 / 4)) (o % 4) x) }
      | none => s.setBytes pa [x]
    else s.setBytes pa [x]

/-- `n` bytes of the on-chip map. -/
def chipBytes (s : State) (pa n : Nat) : List Byte := (List.range n).map fun k => chipByte s (pa + k)
def chipPutAll (pa : Nat) (bs : List Byte) (s : State) : State :=
  ((List.range bs.length).zip bs).foldl (fun s (k, b) => chipPut (pa + k) b s) s

/-! ## Live barrier words (R317, R325) -/

/-- Do [pa, pa + n) touch a live barrier word? -/
def State.touchesLive (s : State) (pa n : Nat) : Bool :=
  (List.range ((pa + n - 1) / 16 - pa / 16 + 1)).any fun k => s.live (pa / 16 * 16 + 16 * k)

/-! ## The L1 (R14, R215, R216) -/

namespace State

def l1? (s : State) (core line : Nat) : Option L1Line := s.l1.find? fun x => x.core == core && x.line == line
def putL1 (x : L1Line) (s : State) : State :=
  if (s.l1? x.core x.line).isSome then
    { s with l1 := replaceFirst (fun y => y.core == x.core && y.line == x.line) x s.l1 }
  else { s with l1 := s.l1 ++ [x] }
def delL1 (core line : Nat) (s : State) : State :=
  { s with l1 := s.l1.filter fun y => !(y.core == core && y.line == line) }

end State

/-- The byte mask of n bytes at an offset of a line. -/
def byteMask (o n : Nat) : Dword := BitVec.ofNat 64 ((2 ^ n - 1) * 2 ^ o)

/-- The dirty bytes of a line with their addresses. -/
def L1Line.dirtyBytes (x : L1Line) : List (Nat × Byte) :=
  ((List.range 64).filter fun k => x.dirty.getLsbD k).map fun k => (64 * x.line + k, nth x.data k 0#8)

/-- Write bytes at their addresses. -/
def putBytes (l : List (Nat × Byte)) (s : State) : State := l.foldl (fun s (a, b) => s.setBytes a [b]) s

/-- A write-back: the dirty bytes go to the home as one partial write; bytes that fall in a live barrier word are discarded
and counted (R216, R325); a partial write of a poisoned sector parks (R399). -/
def writeBack (core line : Nat) (s : State) : State :=
  match s.l1? core line with
  | none => s
  | some x =>
    if x.dirty == 0#64 then s
    else
      let bs := x.dirtyBytes
      let ok := bs.filter fun e => !s.live e.1
      let s := s.putL1 { x with dirty := 0#64 }
      let s := if ok.length < bs.length then s.countMisc x.part else s
      if ok.length == 64 then s.setBytes (64 * line) (ok.map (·.2))
      else if s.poisoned (64 * line) then parkReq x.part (64 * line) x.die (64 * line) 0#32 0x0041 (.wback core ok) s
      else putBytes ok s

/-- Write back every line of a core. -/
def writeBackAll (core : Nat) (s : State) : State :=
  (s.l1.filter fun x => x.core == core).foldl (fun s x => writeBack core x.line s) s

/-- No later load returns a value from a copy filled before (R217): only dirty bytes stay. -/
def dropFilled (core : Nat) (s : State) : State :=
  { s with l1 := (s.l1.map fun x => if x.core == core then { x with valid := x.dirty } else x).filter fun x =>
      !(x.core == core && x.valid == 0#64) }

/-- The victim of a set: evict-first lines, then the oldest that is not kept, then the oldest (R246). -/
def victim (l : List L1Line) : Option L1Line :=
  match l.find? fun x => x.hint == 1 with
  | some x => some x
  | none => match l.find? fun x => x.hint != 2 with
    | some x => some x
    | none => l.head?

/-- Room for a line in its set of eight ways (R14). The set is the line's number mod 256, and among lines of one rank the one
allocated first is evicted (log 51). -/
def makeRoom (core line : Nat) (s : State) : State :=
  let set := s.l1.filter fun x => x.core == core && x.line % 256 == line % 256
  if set.length < 8 then s
  else match victim set with
    | some x => (writeBack core x.line s).delL1 core x.line
    | none => s

/-- The tags of a line's four units, as their words stand (R317). -/
def lineTags (s : State) (line : Nat) : BitVec 4 :=
  (List.range 4).foldl (fun (m : BitVec 4) k =>
    if s.live (64 * line + 16 * k) then m ||| BitVec.ofNat 4 (2 ^ k) else m) 0#4

/-- The line of a core, allocated when absent. Its tags are those of its words at this moment (R317). -/
def allocL1 (core part line die hint : Nat) (s : State) : State :=
  match s.l1? core line with
  | some x => if hint == 0 then s else s.putL1 { x with hint := hint }
  | none =>
    let s := makeRoom core line s
    { s with l1 := s.l1 ++ [⟨core, line, List.replicate 64 0#8, 0#64, 0#64, lineTags s line, hint, part, die⟩] }

/-- Fill the bytes of a line that are not valid from the home; the tag of a unit comes with its bytes (R317). -/
def fillL1 (core part line die hint : Nat) (s : State) : State :=
  let s := allocL1 core part line die hint s
  match s.l1? core line with
  | none => s
  | some x =>
    let data := (List.range 64).map fun k => if x.valid.getLsbD k then nth x.data k 0#8 else s.byte (64 * line + k)
    let full := fun (k : Nat) => x.valid.extractLsb' (16 * k) 16 == 0xFFFF#16
    let old : BitVec 4 := (List.range 4).foldl (fun (m : BitVec 4) k => if full k then m ||| BitVec.ofNat 4 (2 ^ k) else m) 0#4
    s.putL1 { x with data := data, valid := BitVec.allOnes 64, tags := (x.tags &&& old) ||| (lineTags s line &&& ~~~old) }

/-- Are n bytes valid in the core's L1? -/
def l1Has (s : State) (core pa n : Nat) : Bool :=
  match s.l1? core (pa / 64) with
  | some x => x.valid &&& byteMask (pa % 64) n == byteMask (pa % 64) n
  | none => false

def l1Bytes (s : State) (core pa n : Nat) : List Byte :=
  match s.l1? core (pa / 64) with
  | some x => (List.range n).map fun k => nth x.data (pa % 64 + k) 0#8
  | none => []

/-- Bytes of a line replaced, marked valid, and dirty when `d`. -/
def pokeL1 (core pa : Nat) (bs : List Byte) (d : Bool) (s : State) : State :=
  match s.l1? core (pa / 64) with
  | none => s
  | some x =>
    let o := pa % 64
    let m := byteMask o bs.length
    let data := (List.range 64).map fun k => if o ≤ k && k < o + bs.length then nth bs (k - o) 0#8 else nth x.data k 0#8
    s.putL1 { x with data := data, valid := x.valid ||| m
                     dirty := if d then x.dirty ||| m else x.dirty &&& ~~~m }

/-- CACHE code as an allocation hint (R246). -/
def hintOf : Cache → Nat
  | .evf => 1
  | .keep => 2
  | _ => 0

/-- Is an access of a scope and a CACHE code served by the L1 (R215, R246)? -/
def l1Served (sc : Scope) (ca : Cache) : Bool := (sc == .coh || sc == .core) && ca != .nl1

/-! ## Performing one lane's access -/

/-- What a lane's access gives. -/
inductive Got where
  | val (bs : List Byte)
  /-- parked: the destination stays unwritten until it replays (R399) -/
  | parked
  | fault (t : Trap)
deriving DecidableEq, Repr

def poisonT (d addr : Nat) : Trap := { cause := Cause.poison, detail := d, addr := addr }
def clobberT (addr : Nat) : Trap := { cause := Cause.barClobber, addr := addr }

/-- Free bytes that a remote module answers (R278). -/
def remoteBytes (n : Nat) (s : State) : List Byte × State :=
  let (k, s) := s.draw
  ((List.range n).map (Config.remoteByte k), s)

/-- Is a scratchpad word of [pa, pa + n) poisoned (R401)? -/
def spPoisoned (s : State) (pa n : Nat) : Bool := s.spPoison.any fun w => pa < w + 4 && w < pa + n

/-- A load of n bytes for the issuing cohort's core at a place. `req` is what parks. -/
def loadAt (loc : Loc) (va n : Nat) (sc : Scope) (ca : Cache) (mask : Mask) (req : Req) (s : State) : Got × State :=
  let core := s.cur.pl.core
  let part := s.cur.pl.part
  match loc with
  | .dram pa die =>
    if l1Served sc ca then
      if l1Has s core pa n then (.val (l1Bytes s core pa n), s)
      else if s.poisoned pa then (.parked, parkReq part pa die va mask 0x0041 req s)
      else
        let s := fillL1 core part (pa / 64) die (hintOf ca) s
        (.val (l1Bytes s core pa n), s)
    else
      let s := writeBack core (pa / 64) s
      if s.poisoned pa then (.parked, parkReq part pa die va mask 0x0041 req s)
      else (.val (s.bytes pa n), s)
  | .chip pa => if isSp pa && spPoisoned s pa n then (.fault (poisonT 1 va), s) else (.val (chipBytes s pa n), s)
  | .host a => (.val (s.bytes (0xC_0000_0000_0000 + a) n), { s with outs := s.outs ++ [.hostLoad a n] })
  | .remote md o =>
    if s.m.fabDown.contains md then (.fault (accessT 8 va), s)
    else
      let (bs, s) := remoteBytes n s
      (.val bs, { s with outs := s.outs ++ [.zwiov md o (.rd n)] })
  | .bus => (.fault (accessT 1 va), s)

/-- A write or reduction of the issuing cohort is on its way to another module, or lost where the path has failed (R279). -/
def noteFab (md va : Nat) (mask lanes : Mask) (s : State) : State :=
  if s.m.fabDown.contains md then postLate s.cur.pl.id Cause.fabWrite 0 1 s.cur.pc mask (doneBut mask lanes) va s
  else { s with fabw := s.fabw ++ [⟨s.cur.pl.id, md, s.cur.pc, mask, doneBut mask lanes, va⟩] }

/-- A store of bytes for the issuing cohort's core at a place (R215, R216, R325). -/
def storeAt (loc : Loc) (va : Nat) (bs : List Byte) (sc : Scope) (ca : Cache) (mask : Mask) (req : Req) (s : State) :
    Got × State :=
  let core := s.cur.pl.core
  let part := s.cur.pl.part
  let n := bs.length
  match loc with
  | .dram pa die =>
    if l1Served sc ca then
      let s := allocL1 core part (pa / 64) die (hintOf ca) s
      let tagged := match s.l1? core (pa / 64) with
        | some x => x.tags.getLsbD (pa % 64 / 16) && s.live pa
        | none => false
      if tagged then (.fault (clobberT va), s) else (.val [], pokeL1 core pa bs true s)
    else if s.touchesLive pa n then (.fault (clobberT va), s)
    else
      let s := writeBack core (pa / 64) s
      if s.poisoned pa && n < 64 then (.parked, parkReq part pa die va mask 0x0041 req s)
      else (.val [], pokeL1 core pa bs false (s.setBytes pa bs))
  | .chip pa => if s.touchesLive pa n then (.fault (clobberT va), s) else (.val [], chipPutAll pa bs s)
  | .host a =>
    (.val [], { (s.setBytes (0xC_0000_0000_0000 + a) bs) with outs := s.outs ++ [.hostWrite a bs] })
  | .remote md o => (.val [], noteFab md va mask req.lanes { s with outs := s.outs ++ [.zwiov md o (.wr bs)] })
  | .bus => (.fault (accessT 1 va), s)

/-- A read-modify-write by a function of the old number, which answers the old bytes (R221). `hau`: at the home whatever
the scope (R251). `host` and `fab` are the messages that carry it outside the module. -/
def rmwAt (loc : Loc) (va n : Nat) (sc : Scope) (hau : Bool) (f : Nat → Nat) (host : Nat → Nat → List Outp) (fab : List ZMsg)
    (mask : Mask) (req : Req) (s : State) : Got × State :=
  let core := s.cur.pl.core
  let part := s.cur.pl.part
  match loc with
  | .dram pa die =>
    if l1Served sc .dflt && !hau then
      if !l1Has s core pa n && s.poisoned pa then (.parked, parkReq part pa die va mask 0x0041 req s)
      else
        let s := if l1Has s core pa n then s else fillL1 core part (pa / 64) die 0 s
        let tagged := match s.l1? core (pa / 64) with
          | some x => x.tags.getLsbD (pa % 64 / 16) && s.live pa
          | none => false
        if tagged then (.fault (clobberT va), s)
        else
          let old := l1Bytes s core pa n
          (.val old, pokeL1 core pa (leBytes n (f (leNat old))) true s)
    else if s.touchesLive pa n then (.fault (clobberT va), s)
    else
      let s := writeBack core (pa / 64) s
      if s.poisoned pa then (.parked, parkReq part pa die va mask 0x0041 req s)
      else
        let old := s.bytes pa n
        let new := leBytes n (f (leNat old))
        (.val old, pokeL1 core pa new false (s.setBytes pa new))
  | .chip pa =>
    if s.touchesLive pa n then (.fault (clobberT va), s)
    else if isSp pa && spPoisoned s pa n then (.fault (poisonT 1 va), s)
    else
      let old := chipBytes s pa n
      (.val old, chipPutAll pa (leBytes n (f (leNat old))) s)
  | .host a =>
    let old := s.bytes (0xC_0000_0000_0000 + a) n
    (.val old, { (s.setBytes (0xC_0000_0000_0000 + a) (leBytes n (f (leNat old)))) with outs := s.outs ++ host a (leNat old) })
  | .remote md o =>
    if s.m.fabDown.contains md then (.fault (accessT 8 va), s)
    else
      let (bs, s) := remoteBytes n s
      (.val bs, { s with outs := s.outs ++ fab.map (Outp.zwiov md o) })
  | .bus => (.fault (accessT 1 va), s)

/-! ## Releases and acquires (R217, R222) -/

/-- Is the scope .quad or wider? -/
def Scope.wide (sc : Scope) : Bool := !(sc == .coh || sc == .core)

/-- The late traps delivered at any release or fence (R255, R279, R397). -/
def latesRel : List Nat := [0x0022, 0x0023, 0x0024]

/-- Requests of a cohort that are parked. -/
def parkedOf (s : State) (id : Nat) : Bool := s.parked.any fun q => q.req.cohort? == some id
/-- Requests of the issuing cohort that are parked. -/
def ownParked (s : State) : Bool := parkedOf s s.cur.pl.id

/-- Does a cohort wait for a register result of a parked request, or of an update that its HAU has not taken yet (R36, R253, R399)? -/
def owed (s : State) (id : Nat) : Bool :=
  (s.parked.any fun q => q.req.cohort? == some id && q.req.owes) || s.held.any fun h => h.transit && h.cohort == id && h.reg.isSome

/-- Does an access to [pa, pa + n) meet a parked request of the issuing cohort? It waits for it (R219). -/
def parkStall (s : State) (pa n : Nat) : Bool :=
  s.parked.any fun q => q.req.cohort? == some s.cur.pl.id && q.req.span.1 < pa + n && pa < q.req.span.1 + q.req.span.2

/-- Write-backs of a core that are parked. -/
def backParked (s : State) (core : Nat) : Bool :=
  s.parked.any fun q => match q.req with | .wback c _ => c == core | _ => false

/-- Entries of the issuing cohort in the log that have not replayed. -/
def ownLogged (s : State) : Bool := s.dlog.any fun d => d.cohort == s.cur.pl.id

/-- Held updates of the issuing cohort on their way to an HAU (R234). -/
def ownTransit (s : State) : Bool := s.held.any fun h => h.transit && h.cohort == s.cur.pl.id

/-- Is a scope one of the fabric's (R212)? -/
def fabScope (sc : Scope) : Bool := sc == .fab || sc == .sys

/-- Have the earlier accesses of the issuing cohort performed? -/
def drained (s : State) : Bool := !ownLogged s && !ownParked s && !ownTransit s

/-- Every earlier access of the issuing cohort has performed: those in the log, the parked ones, the updates on their way. -/
def drainedM : M Unit := do
  M.waitUntil .log fun s => !ownLogged s
  M.waitUntil .parked fun s => !ownParked s && !ownTransit s

/-- The dirty bytes of the core have reached their homes. -/
def backM : M Unit := do
  M.upd fun s => writeBackAll s.cur.pl.core s
  M.waitUntil .parked fun s => !backParked s s.cur.pl.core

/-- A release of a scope: earlier accesses have performed and the log has replayed (R217, R231); at .quad and wider the L1 is
written back, at a scope of the fabric every remote write has been acknowledged (R279); it closes an idempotent region (R315). -/
def releaseM (sc : Scope) : M Unit := do
  drainedM
  if Scope.wide sc then do
    backM
    if fabScope sc then M.upd fun s => { s with fabw := s.fabw.filter fun w => w.cohort != s.cur.pl.id } else pure ()
  else pure ()
  M.upd fun s => s.updCur Cohort.closeIdem

/-- An acquire of a scope (R217). -/
def acquire (sc : Scope) (s : State) : State := if Scope.wide sc then dropFilled s.cur.pl.core s else s

/-- The acquire of an access: at once, or once the access has performed when it is parked (R217, R399). -/
def acquireWith (sc : Scope) (parked : Bool) (s : State) : State :=
  if parked then s.updC fun c => { c with acq := some sc } else acquire sc s

def Order.isRel (o : Order) : Bool := o == .rel || o == .ar
def Order.isAcq (o : Order) : Bool := o == .acq || o == .ar

end Sys2Proof.Machine
end

