-- ==== Sys2Proof/Machine/Mem.lean ====
section
/-! DEFINITION. The shape of every lane access (R237 to R245): effective addresses, the per-lane sequence of R243,
suspension, deferral into the log, the done mask. -/

namespace Sys2Proof.Machine

/-- Spaces of a lane access (R237). -/
inductive ASpace where
  | glob | own | quad
deriving DecidableEq, Repr

/-- What the address check and the translation of a lane give. -/
inductive LSt where
  | fault (t : Trap)
  | defer
  | busy
  | at_ (loc : Loc) (tr : Option Tr)
deriving DecidableEq, Repr

/-- A lane with its address; no lane in uniform form. -/
structure LaneAcc where
  lane : Option Nat
  addr : Nat
  st : LSt
deriving DecidableEq, Repr

/-- The level at which the units of one quad share scratchpads: the innermost of DOMAIN quad (R289). -/
def quadLevel (s : State) (c : Cohort) : Option Nat :=
  match c.pl.launch with
  | none => none
  | some l => match s.launch? l with
    | none => none
    | some x => (List.range x.rc.levels.length).find? fun n => (nth x.rc.levels n ⟨0, 0, 0, []⟩).domain == 2

/-- Base and size of the scratchpad allocation that a quad address names on a core (R239, R289). -/
def quadAlloc (s : State) (c : Cohort) (core : Nat) : Option (Nat × Nat) :=
  if core == c.pl.core then some (c.pl.spBase, c.pl.spSize)
  else match quadLevel s c with
    | none => none
    | some n =>
      (s.cohorts.find? fun o =>
        o.pl.launch == c.pl.launch && o.pl.core == core && o.pl.levels.drop n == c.pl.levels.drop n).map fun o =>
          (o.pl.spBase, o.pl.spSize)

/-- The place of an own-scratchpad offset (R238). -/
def ownAt (c : Cohort) (w off : Nat) : LSt :=
  if off + w ≤ c.pl.spSize then .at_ (.chip (spPa c.pl.core (c.pl.spBase + off))) none
  else .fault (accessT 0 off)

/-- The place of a quad address (R239). -/
def quadAt (s : State) (c : Cohort) (w a : Nat) : LSt :=
  let off := a % 2 ^ 20
  let core := c.pl.core / 4 * 4 + a / 2 ^ 20 % 4
  if a / 2 ^ 22 != 0 || 0xC_0000 ≤ off then .fault (accessT 0 a)
  else match quadAlloc s c core with
    | some (b, n) => if off + w ≤ n then .at_ (.chip (spPa core (b + off))) none else .fault (accessT 0 a)
    | none => .fault (accessT 0 a)

/-- Address check and translation of a lane: alignment first (R243). -/
def resolve (sp : ASpace) (acc : Acc) (canDefer : Bool) (w : Nat) (s : State) (lane : Option Nat) (a : Nat) : LSt :=
  if a % w != 0 then .fault { cause := Cause.alignment, addr := a }
  else match sp with
    | .own => ownAt s.cur w a
    | .quad => quadAt s s.cur w a
    | .glob => match xlateLane s s.cur lane acc a with
      | .ok t => .at_ (t.loc s s.cur.pl.part) (some t)
      | .busy => .busy
      | .poison => .fault (poisonT 0 a)
      | .bad d df => if df && canDefer then .defer else .fault (accessT d a)

/-- The block state that a lane meets. -/
def LaneAcc.ask (s : State) (l : LaneAcc) : Ask :=
  match l.st with
  | .at_ _ (some t) => peekAt s s.cur.pl.part s.cur.pl.asid s.cur.x.gen t
  | _ => .go

/-- The trap of a FAILED block: the fill's code, and the generator's record when the instruction waited for it (R340). -/
def genFaultT (s : State) (va : Nat) : Trap :=
  let base : Trap := { cause := Cause.generator, addr := va }
  match rangeFor s s.cur.pl.part s.cur.pl.asid (va % 2 ^ 57) with
  | none => base
  | some r =>
    let here := fun (e : FillEnd) => e.asid == s.cur.pl.asid && e.range == r.ix && e.block == r.blockOf (va % 2 ^ 57)
    match s.cur.c.fillEnd.filter here with
    | some e => { base with detail := e.code, aux := e.aux }
    | none => match s.failed.find? fun e => e.1 == s.cur.pl.part && here e.2 with
      | some e => { base with detail := e.2.code }
      | none => base

/-- The lowest-addressed of some lanes. -/
def lowest (l : List LaneAcc) : Option LaneAcc :=
  l.foldl (fun b x => match b with
    | none => some x
    | some y => if x.addr < y.addr then some x else some y) none

/-- A request for the block of an address, on which the instruction waits (R341); a map that faults disables its range. -/
def requestM (va : Nat) (t : Tr) : M Unit := fun s =>
  let (a, s) := askAt s.cur.pl.part s.cur.pl.asid s.cur.x.gen t s
  match a with
  | .fault c => M.trap { cause := c, addr := va } s
  | .wait f => M.wait .fill (s.updC fun c => { c with onFill := f })
  | _ => M.wait .fill s

/-- Suspension (R340, R360): decided for every lane before any lane performs. The request goes to the lowest-addressed
block that is EMPTY or PENDING. -/
def suspendM (ls : List LaneAcc) : M Unit := fun s =>
  if ls.any fun l => l.st == .busy then M.wait .busy s
  else match lowest (ls.filter fun l => match l.ask s with | .wait _ | .off => true | _ => false) with
    | none => .ok ((), s)
    | some l => match l.st with
      | .at_ _ (some t) => requestM l.addr t s
      | _ => .ok ((), s)

/-- Does an access to own-scratchpad bytes meet a range that stalls it (R17)? -/
def sbStall (s : State) (rd wr : Bool) (w : Nat) (l : LaneAcc) : Bool :=
  match l.st with
  | .at_ (.chip pa) _ => s.sb.any fun e =>
      e.core == s.cur.pl.core && spPa e.core e.lo < pa + w && pa < spPa e.core e.hi && ((rd || wr) && e.dst || wr)
  | _ => false

/-- Does an access overlap an entry of the cohort in the log (R231)? One that is itself deferred goes behind it. -/
def logStall (s : State) (sp : ASpace) (w : Nat) (l : LaneAcc) : Bool :=
  sp == .glob && (match l.st with
    | .defer => false
    | .fault t => t.cause != Cause.alignment
    | _ => true)
    && s.dlog.any fun d => d.cohort == s.cur.pl.id && d.va < l.addr + w && l.addr < d.va + d.width

/-- Does an access overlap a parked request of the cohort (R219)? -/
def LaneAcc.behind (s : State) (w : Nat) (l : LaneAcc) : Bool :=
  match l.st with
  | .at_ (.dram pa _) _ => parkStall s pa w
  | _ => false

/-- Lanes of a list as a mask; none for a uniform access. -/
def laneMask (ls : List LaneAcc) : Mask := Mask.ofLanes (ls.filterMap (·.lane))

/-- An access of every lane in the list, one after the other. -/
def oneByOne (f : LaneAcc → State → Got × State) : List LaneAcc → State → List (LaneAcc × Got) × State
  | [], s => ([], s)
  | l :: t, s =>
    let (g, s) := f l s
    let (r, s) := oneByOne f t s
    ((l, g) :: r, s)

/-- Does a lane's access find a procedural block? -/
def LaneAcc.proc (l : LaneAcc) : Bool :=
  match l.st with
  | .at_ _ (some t) => Pte.proc t.pte
  | _ => false

/-- The translations of performing lanes are kept and heat is raised (R361, R363); an access that finds its block FILLED acquires the
generator's writes (R232). -/
def noteLanes (acc : Acc) (ls : List LaneAcc) (s : State) : State :=
  let s := if ls.any LaneAcc.proc then dropFilled s.cur.pl.core s else s
  ls.foldl (fun s l => match l.st with
    | .at_ _ (some t) => noteUse l.lane acc t s
    | _ => s) s

/-- What every access instruction does: `perform` runs the lanes that have no fault, `put` turns what a lane read into its
writes, `log` enters a deferred lane into the log. -/
def accessM (sp : ASpace) (acc : Acc) (w : Nat) (acq : Option Scope)
    (log : Option (LaneAcc → State → State)) (perform : List LaneAcc → State → List (LaneAcc × Got) × State)
    (put : Option Nat → List Byte → List Wr) (addrs : List (Option Nat × Nat)) : M Unit := do
  let s ← get
  let ls := addrs.map fun (i, a) => (⟨i, a, resolve sp acc log.isSome w s i a⟩ : LaneAcc)
  suspendM ls
  M.waitUntil .scoreboard fun s => !ls.any (sbStall s (acc != .store) (acc != .load) w)
  M.waitUntil .log fun s => !ls.any (logStall s sp w)
  M.waitUntil .parked fun s => !ls.any (LaneAcc.behind s w)
  let s ← get
  let deferred := ls.filter fun l => l.st == .defer
  let room := deferred.length + (s.dlog.filter fun d => d.core == s.cur.pl.core).length ≤ 256
  let judge := fun (l : LaneAcc) => match l.st with
    | .fault t => some t
    | .defer => if room then none else some (accessT 4 l.addr)
    | .at_ _ _ => if l.ask s == Ask.failed then some (genFaultT s l.addr) else none
    | .busy => none
  let good := ls.filter fun l => (judge l).isNone && l.st != .defer
  M.upd (noteLanes acc good)
  match log with
  | some f => if room then M.upd fun s => deferred.foldl (fun s l => f l s) s else pure ()
  | none => pure ()
  let got ← M.run (perform good)
  emitR (got.flatMap fun (l, g) => match g with
    | .val bs => put l.lane bs
    | _ => []) 0 none
  match acq with
  | some sc => M.upd fun s => acquireWith sc (ownParked s || ownTransit s) s
  | none => pure ()
  let bad := (ls.filterMap fun l => (judge l).map fun t => (l, t))
    ++ got.filterMap fun (l, g) => match g with | .fault t => some (l, t) | _ => none
  let first := bad.foldl (fun (b : Option (LaneAcc × Trap)) x => match b with
    | none => some x
    | some y => if x.1.lane.getD 0 < y.1.lane.getD 0 then some x else some y) none
  match first with
  | none => pure ()
  | some (_, t) =>
    M.trap { t with done := laneMask (ls.filter fun l => !bad.any fun b => b.1.lane == l.lane) }

/-! ## Loads and stores (R240, R242) -/

/-- What a load writes: zero- or sign-extended from its width (R240). -/
def loadVal (ty : Ty) (bs : List Byte) : Nat :=
  let x := leNat bs
  match ty with
  | .s8 => wrapNat 32 (sextInt 8 x)
  | .s16 => wrapNat 32 (sextInt 16 x)
  | _ => x

/-- Global effective address (R238). -/
def gAddr (a : Opd) (off : Word) (s : State) (ln : Option Nat) : Nat := (src64 s ln a + off.signExtend 64).toNat
/-- Scratchpad effective address. -/
def spAddr (a : Opd) (off : Word) (s : State) (ln : Option Nat) : Nat := (src32 s ln a + off).toNat
def eAddr (sp : ASpace) (a : Opd) (off : Word) (s : State) (ln : Option Nat) : Nat :=
  if sp == .glob then gAddr a off s ln else spAddr a off s ln

/-- The addresses of the lanes an access runs for. -/
def addrsOf (uni : Bool) (act : Mask) (f : State → Option Nat → Nat) (s : State) : List (Option Nat × Nat) :=
  (runsFor uni act).map fun ln => (ln, f s ln)

/-- First V or S register of an operand. -/
def Opd.ix : Opd → Nat
  | .v n => n.toNat
  | .s n => n.toNat
  | .z n => n.toNat
  | .pl n => n.toNat
  | _ => 0

def LaneAcc.loc (l : LaneAcc) : Loc :=
  match l.st with
  | .at_ x _ => x
  | _ => .bus
/-- Physical address of a lane's access, where it is local. -/
def LaneAcc.pa (l : LaneAcc) : Nat :=
  match l.loc with
  | .dram pa _ => pa
  | .chip pa => pa
  | _ => 0

/-- A load of every form. -/
def loadI (h : Hdr) (sp : ASpace) (uni : Bool) (m : MMod) (d a : Opd) (off : Word) :
    State → Host.Outcome State Fault Refusal :=
  let k := m.ty.regs
  let ak := if sp == .glob then 2 else 1
  runI h { uni := uni, srcs := [(a, ak)], dsts := [(d, k)], opnd := 1 } false fun act => do
    let s ← get
    let one := fun (l : LaneAcc) (s : State) =>
      let req := match l.lane with
        | some i => Req.load s.cur.pl.id (Opd.ix d) i l.pa m.ty m.scope m.cache s.cur.pc
        | none => Req.sload s.cur.pl.id (Opd.ix d) l.pa m.ty m.scope m.cache s.cur.pc
      loadAt l.loc l.addr (Ty.bytes m.ty) m.scope m.cache act req s
    accessM sp .load (Ty.bytes m.ty) (if Order.isAcq m.order then some m.scope else none) none (oneByOne one)
      (fun ln bs => dstN d ln k (loadVal m.ty bs)) (addrsOf uni act (eAddr sp a off) s)

/-- The bytes that a store lane writes. -/
def storeBytes (s : State) (ln : Option Nat) (m : MMod) (b : Opd) : List Byte :=
  leBytes (Ty.bytes m.ty) (srcN s ln m.ty.regs b)

/-- A log entry of a store lane (R244, R397). -/
def logStore (m : MMod) (b : Opd) (act : Mask) (l : LaneAcc) (s : State) : State :=
  let (id, s) := s.fresh
  { s with dlog := s.dlog ++ [{
      core := s.cur.pl.core, cohort := s.cur.pl.id, launch := s.cur.pl.launch, part := s.cur.pl.part, asid := s.cur.pl.asid,
      va := l.addr, data := BitVec.ofNat 128 (srcN s l.lane m.ty.regs b), width := Ty.bytes m.ty, op := none, ty := m.ty,
      scope := m.scope, order := m.order, pc := s.cur.pc, mask := act, lane := l.lane.getD 0, round := 0
      glane := glaneOf s.cur (l.lane.getD 0), seq := id, held := false, since := s.m.time, cyc := s.m.cycle }] }

/-- A store of every form; all source values are read before any lane performs (R36). -/
def storeI (h : Hdr) (sp : ASpace) (m : MMod) (a b : Opd) (off : Word) : State → Host.Outcome State Fault Refusal :=
  let ak := if sp == .glob then 2 else 1
  runI h { srcs := [(a, ak), (b, m.ty.regs)], lates := if Order.isRel m.order then latesRel else [], opnd := 1 } false fun act => do
    if Order.isRel m.order then releaseM m.scope else pure ()
    let s ← get
    let one := fun (l : LaneAcc) (s' : State) =>
      let bs := storeBytes s l.lane m b
      storeAt l.loc l.addr bs m.scope m.cache act
        (.store s.cur.pl.id l.lane (((List.range bs.length).map (l.pa + ·)).zip bs) s.cur.pc) s'
    accessM sp .store (Ty.bytes m.ty) none (if sp == .glob then some (logStore m b act) else none) (oneByOne one)
      (fun _ _ => []) (addrsOf false act (eAddr sp a off) s)

def execLd (h : Hdr) (m : MMod) (d a : Opd) (off : Word) : State → Host.Outcome State Fault Refusal :=
  loadI h .glob false m d a off
def execLds (h : Hdr) (m : MMod) (d a : Opd) (off : Word) : State → Host.Outcome State Fault Refusal :=
  loadI h .own false m d a off
def execLdq (h : Hdr) (m : MMod) (d a : Opd) (off : Word) : State → Host.Outcome State Fault Refusal :=
  loadI h .quad false m d a off
def execLdsc (h : Hdr) (m : MMod) (d a : Opd) (off : Word) : State → Host.Outcome State Fault Refusal :=
  loadI h .glob true m d a off
def execSt (h : Hdr) (m : MMod) (a b : Opd) (off : Word) : State → Host.Outcome State Fault Refusal :=
  storeI h .glob m a b off
def execSts (h : Hdr) (m : MMod) (a b : Opd) (off : Word) : State → Host.Outcome State Fault Refusal :=
  storeI h .own m a b off
def execStq (h : Hdr) (m : MMod) (a b : Opd) (off : Word) : State → Host.Outcome State Fault Refusal :=
  storeI h .quad m a b off

/-! ## PREFETCH and CACHEOP (R247, R248) -/

/-- The DRAM address of a lane that a request may touch: aligned or not, translated, not poisoned, in no block that is not
FILLED. -/
def quietPa (s : State) (lane : Option Nat) (va : Nat) : Option (Nat × Nat) :=
  match xlateLane s s.cur lane .load va with
  | .ok t =>
    if peekAt s s.cur.pl.part s.cur.pl.asid none t != .go then none
    else match t.loc s s.cur.pl.part with
      | .dram pa die => if s.poisoned pa then none else some (pa, die)
      | _ => none
  | _ => none

/-- PREFETCH: a request for a line of each lane; without .l2 it is filled into the L1. It never faults. A request that is not
aligned to 4 bytes, the width of TYPE 0, is void. -/
def execPrefetch (h : Hdr) (l2 : Bool) (a : Opd) (off : Word) : State → Host.Outcome State Fault Refusal :=
  let uni := a.cls != .v
  runI h { uni := uni, srcs := [(a, 2)] } false fun act s =>
    .ok ((), (addrsOf uni act (gAddr a off) s).foldl (fun s (ln, va) =>
      if va % 4 != 0 then s
      else match quietPa s ln va with
        | some (pa, die) => if l2 then s else fillL1 s.cur.pl.core s.cur.pl.part (pa / 64) die 0 s
        | none => s) s)

/-- The lines that a CACHEOP names; an untranslatable address names none, and a BUSY leaf is waited for (R360). -/
def cacheLines (uni : Bool) (a : Opd) (off : Word) (act : Mask) : M (List Nat) := fun s =>
  if a.cls == .zr then .ok ((s.l1.filter fun x => x.core == s.cur.pl.core).map (·.line), s)
  else
    let ts := (addrsOf uni act (gAddr a off) s).map fun (ln, va) => xlateLane s s.cur ln .query va
    if ts.contains .busy then M.wait .busy s
    else .ok (ts.filterMap fun
      | .ok t => match t.loc s s.cur.pl.part with
        | .dram pa _ => some (pa / 64)
        | _ => none
      | _ => none, s)

/-- CACHEOP on each line named; it completes when every write-back of them has performed (R248, R399). -/
def cacheOp (h : Hdr) (a : Opd) (off : Word) (f : Nat → Nat → State → State) : State → Host.Outcome State Fault Refusal :=
  let uni := a.cls != .v
  runI h { uni := uni, srcs := [(a, 2)] } false fun act => do
    let ls ← cacheLines uni a off act
    M.upd fun s => ls.foldl (fun s l => f s.cur.pl.core l s) s
    M.waitUntil .parked fun s => !s.parked.any fun q => match q.req with
      | .wback c _ => c == s.cur.pl.core && (a.cls == .zr || ls.contains (q.pa / 64))
      | _ => false

/-- Invalidate a line that has no dirty bytes. -/
def invClean (core line : Nat) (s : State) : State :=
  match s.l1? core line with
  | some x => if x.dirty == 0#64 then s.delL1 core line else s
  | none => s

def execCacheopWb (h : Hdr) (a : Opd) (off : Word) : State → Host.Outcome State Fault Refusal := cacheOp h a off writeBack
def execCacheopInv (h : Hdr) (a : Opd) (off : Word) : State → Host.Outcome State Fault Refusal := cacheOp h a off invClean
def execCacheopWbinv (h : Hdr) (a : Opd) (off : Word) : State → Host.Outcome State Fault Refusal :=
  cacheOp h a off fun core line s => (writeBack core line s).delL1 core line

end Sys2Proof.Machine
end

