-- ==== Sys2Proof/Machine/Atomic.lean ====
section
/-! DEFINITION. Atomics, lane combining, deterministic rounds (R249 to R256, R234). -/

namespace Sys2Proof.Machine

/-! ## Operations (R249) -/

/-- The float format of a TYPE. -/
def fmtOf (ty : Ty) : Fmt := if ty == .f64 then .f64 else .f32

/-- The new value: of old, b and, for .cas, c. -/
def atomNew (op : AtomOp) (ty : Ty) (old b c : Nat) : Nat :=
  let w := 8 * Ty.bytes ty
  let sg := ty == .s32 || ty == .s64
  match op with
  | .add | .fxadd => (old + b) % 2 ^ w
  | .sub => (old + 2 ^ w - b % 2 ^ w) % 2 ^ w
  | .min => if intVal w sg old ≤ intVal w sg b then old else b
  | .max => if intVal w sg old ≤ intVal w sg b then b else old
  | .and => old &&& b
  | .or => old ||| b
  | .xor => old ^^^ b
  | .xchg => b
  | .cas => if old == c then b else old
  | .fadd => ((fmtOf ty).add .rne false false old b).1
  | .fmin => ((fmtOf ty).minmax false false old b).1
  | .fmax => ((fmtOf ty).minmax true false old b).1

/-- Is the exact sum of two FX64 cells outside the signed 64-bit range (R251)? -/
def fxOver (old b : Nat) : Bool :=
  let x := sextInt 64 old + sextInt 64 b
  decide (x < -(2 ^ 63 : Int)) || decide ((2 ^ 63 : Int) ≤ x)

/-- Lanes one at a time in ascending order: the last value, and what each receives. -/
def seqGroup (op : AtomOp) (ty : Ty) : Nat → List (Nat × Nat) → Nat × List Nat
  | old, [] => (old, [])
  | old, (b, c) :: l =>
    let (m, rs) := seqGroup op ty (atomNew op ty old b c) l
    (m, old :: rs)

/-- Exclusive left folds of the b values from an accumulator. -/
def faddFolds (ty : Ty) : Nat → List (Nat × Nat) → Nat × List Nat
  | acc, [] => (acc, [])
  | acc, (b, _) :: l =>
    let (m, ps) := faddFolds ty (atomNew .fadd ty acc b 0) l
    (m, acc :: ps)

/-- One group as one step (R252): memory afterwards and what each lane receives. -/
def groupRun (det : Bool) (op : AtomOp) (ty : Ty) (old : Nat) (g : List (Nat × Nat)) : Nat × List Nat :=
  if op == .fadd && !det then
    match g with
    | [] => (old, [])
    | (b, _) :: l =>
      let (s, ps) := faddFolds ty b l
      (atomNew .fadd ty old s 0, old :: ps.map fun p => atomNew .fadd ty old p 0)
  else seqGroup op ty old g

/-- Does some lane of a group report an FXADD overflow (R251)? -/
def groupOver (op : AtomOp) (ty : Ty) (old : Nat) (g : List (Nat × Nat)) : Bool :=
  op == .fxadd && ((seqGroup op ty old g).2.zip g).any fun (o, b, _) => fxOver o b

/-- Operations that PCIe carries (R272). -/
def hostAtomic (op : AtomOp) (ty : Ty) : Bool := (op == .add || op == .xchg || op == .cas) && ty != .b128

def AtomOp.fp : AtomOp → Bool
  | .fadd | .fmin | .fmax => true
  | _ => false

/-- An FP atomic that is not held meets held updates of open rounds at its location: their launches' breach bits are set
(R256). -/
def breachAt (pa w : Nat) (s : State) : State :=
  let ls := (s.held.filter fun h => !h.transit && h.pa < pa + w && pa < h.pa + h.width).map (·.launch)
  { s with launches := s.launches.map fun l => if ls.contains l.id then { l with breach := true } else l }

/-- The messages that carry a group to the host: AtomicOps, one a lane; a reduction leaves as a posted write (R272). -/
def hostMsgs (red : Bool) (op : AtomOp) (ty : Ty) (new : Nat → Nat) (g : List (Nat × Nat)) (a old : Nat) : List Outp :=
  if red then [.hostWrite a (leBytes (Ty.bytes ty) (new old))] else g.map fun (b, c) => .hostAtomic a op ty b c

/-- The messages that carry a group to another module (R278), one a lane; a combined FADD is one addend (R252). -/
def fabMsgs (red det : Bool) (op : AtomOp) (ty : Ty) (g : List (Nat × Nat)) : List ZMsg :=
  let g := match g with
    | (b, _) :: l => if op == AtomOp.fadd && !det then [((faddFolds ty b l).1, 0)] else g
    | [] => []
  g.map fun (b, c) =>
    if red then .red op ty none (BitVec.ofNat 128 b) else .at_ op ty none (BitVec.ofNat 128 b) (BitVec.ofNat 128 c)

/-- One group at its place: what its lanes read, or why not, and the overflow report. -/
def groupAt (loc : Loc) (va : Nat) (sc : Scope) (red det : Bool) (op : AtomOp) (ty : Ty) (g : List (Nat × Nat))
    (mask : Mask) (req : Req) (s : State) : (Got × List Nat × Bool) × State :=
  let w := Ty.bytes ty
  let isHost := match loc with | .host _ => true | _ => false
  if isHost && !red && !hostAtomic op ty then ((.fault (accessT 0 va), [], false), s)
  else
    let hau := op == .fxadd
    let s := match loc with
      | .dram pa _ => if AtomOp.fp op && Scope.wide sc then breachAt pa w s else s
      | _ => s
    let new := fun (old : Nat) => (groupRun det op ty old g).1
    let (r, s) := rmwAt loc va w sc hau new (hostMsgs red op ty new g) (fabMsgs red det op ty g) mask req s
    match r with
    | .val bs => ((r, (groupRun det op ty (leNat bs) g).2, groupOver op ty (leNat bs) g), s)
    | _ => ((r, [], false), s)

/-! ## Held updates (R253 to R255) -/

/-- Scopes at which the FP atomics of a deterministic launch are held. -/
def heldScope (sc : Scope) : Bool := !(sc == .coh || sc == .core || sc == .quad)

/-- The HAU that serves an address of a home die: one of each of the die's 64 slices (R19, R420). -/
def hauOf (pa die : Nat) : Nat := die * 64 + sliceOf pa

/-- Does an update find a tracked line with room (R254)? A tenant holds at most 48 of the 64 lines (R377). -/
def hasLine (s : State) (h : Held) : Bool :=
  let here := s.held.filter fun x => !x.transit && x.spilled.isNone && hauOf x.pa x.die == hauOf h.pa h.die
  let key := fun (x : Held) => (x.launch, x.round, x.pa / 256)
  let mine := here.filter fun x => key x == key h
  if mine.isEmpty then
    ((here.map key).eraseDups).length < 64
      && (((here.filter fun x => x.part == h.part && x.asid == h.asid).map key).eraseDups).length < 48
  else mine.length < 16

/-- The places of n bytes that are written in a tenant's space, byte by byte; a BUSY page and a poisoned sector are waited for. -/
def placesOf (s : State) (part asid : Nat) (priv : Bool) (va : Nat) : Nat → Except Wk (List Nat)
  | 0 => .ok []
  | n + 1 => match xlate s part asid priv .store va with
    | .ok t =>
      let pa := physOf s part t.pa
      if s.poisoned pa then .error .busy
      else match placesOf s part asid priv (va + 1) n with
        | .ok l => .ok (pa :: l)
        | .error w => .error w
    | w => .error w

/-- Bytes written in a tenant's space at the homes, or why not. -/
def writeVirt (part asid : Nat) (priv : Bool) (va : Nat) (bs : List Byte) (s : State) : Except Wk State :=
  match placesOf s part asid priv va bs.length with
  | .ok l => .ok (putBytes (l.zip bs) s)
  | .error w => .error w

/-- Record n of a spill region (R254). -/
def spillRec (h : Held) : List Byte :=
  leBytes 8 h.va ++ leBytes 8 (h.glane * 2 ^ 16 + h.seq) ++ leBytes 8 h.value.toNat ++ leBytes 4 h.round
    ++ leBytes 1 (match h.op with | .fadd => 9 | .fmin => 10 | _ => 11) ++ leBytes 1 h.width ++ leBytes 2 0

/-- What an update arriving at its HAU meets; `waits`: its spill write waits for a BUSY page or a poisoned sector (R360, R399). -/
inductive Accept where
  | accepted | late | refused | waits
deriving DecidableEq, Repr

/-- Write an update to the launch's spill region: its record number, or why it cannot be (R254, R255). -/
def spill (h : Held) (l : Launch) (s : State) : Except Accept (Nat × State) :=
  let priv := privOf s h.part h.asid
  let why := fun (w : Wk) => if w == .busy then Accept.waits else Accept.refused
  if l.rc.spill == 0 then .error .refused
  else match readVirt s h.part h.asid priv .load l.rc.spill 16 with
    | .error w => .error (why w)
    | .ok hd =>
      let n := fld hd 0 8
      if fld hd 8 8 ≤ n then .error .refused
      else match writeVirt h.part h.asid priv (l.rc.spill + 64 + 32 * n) (spillRec h) s with
        | .error w => .error (why w)
        | .ok s => match writeVirt h.part h.asid priv l.rc.spill (leBytes 8 (n + 1)) s with
          | .error w => .error (why w)
          | .ok s => .ok (n, s)

/-- An update arrives (R234, R254, R255): late when its round is closed, refused, or accepted into the buffer or the spill
region; a refusal fails its round. One that waits is left on its way. -/
def arrive (h : Held) (s : State) : Accept × State :=
  match s.launch? h.launch with
  | none => (.late, s)
  | some l =>
    if h.round < l.closed then (.late, s)
    else
      let bad := 65535 < h.seq
        || s.held.any fun x => !x.transit && x.launch == h.launch && x.round == h.round && x.pa == h.pa && x.width != h.width
      let refuse := fun s => (Accept.refused, s.updLaunch h.launch fun l =>
        { l with failedRounds := if l.failedRounds.contains h.round then l.failedRounds else l.failedRounds ++ [h.round] })
      if bad then refuse s
      else if hasLine s h then (.accepted, { s with held := s.held ++ [{ h with transit := false }] })
      else match spill h l s with
        | .ok (n, s) => (.accepted, { s with held := s.held ++ [{ h with transit := false, spilled := some n }] })
        | .error .waits => (.waits, { s with held := s.held ++ [{ h with transit := true }] })
        | .error _ => refuse s

/-- The home's bytes at a line with those of a core's L1 written back first (R216). -/
def homeFirst (core : Option Nat) (pa : Nat) (s : State) : State :=
  match core with
  | some c => writeBack c (pa / 64) s
  | none => s

/-- The core of the cohort whose update it is; another module's has none here. -/
def Held.core (s : State) (h : Held) : Option Nat := if h.src.isSome then none else (s.cohort? h.cohort).map (·.pl.core)

/-- A late update is applied at once and sets the breach bit (R234). -/
def applyLate (h : Held) (s : State) : State :=
  let s := homeFirst (h.core s) h.pa s
  let old := leNat (s.bytes h.pa h.width)
  let ty := if h.width == 8 then Ty.f64 else Ty.f32
  (s.setBytes h.pa (leBytes h.width (atomNew h.op ty old h.value.toNat 0))).updLaunch h.launch fun l =>
    { l with breach := true }

/-- The held update of a lane (R253). -/
def mkHeld (s : State) (id pa die va : Nat) (op : AtomOp) (ty : Ty) (lane b : Nat) (reg : Option Nat) (red : Bool) (act : Mask) : Held where
  id := id
  launch := s.cur.pl.launch.getD 0
  cohort := s.cur.pl.id
  round := s.cur.r.drround.toNat
  pa := pa
  die := die
  va := va
  width := Ty.bytes ty
  op := op
  glane := glaneOf s.cur lane
  seq := s.cur.r.rdSeq lane
  value := BitVec.ofNat 64 b
  spilled := none
  transit := red
  red := red
  pc := s.cur.pc
  part := s.cur.pl.part
  asid := s.cur.pl.asid
  mask := act
  reg := reg
  src := none

/-- A held lane of ATOM or RED. An ATOM returns the pre-round value and traps when refused; a RED is on its way until its
HAU takes it. -/
def heldLane (op : AtomOp) (ty : Ty) (red : Bool) (reg : Option Nat) (act : Mask) (b : Nat) (l : LaneAcc) (s : State) : Got × State :=
  let lane := l.lane.getD 0
  match l.loc with
  | .dram pa die =>
    if s.touchesLive pa (Ty.bytes ty) then (.fault (clobberT l.addr), s)
    else
      let s := writeBack s.cur.pl.core (pa / 64) s
      let (id, s) := s.fresh
      let h := mkHeld s id pa die l.addr op ty lane b reg red act
      let s := s.updR fun r => r.wrSeq lane (r.rdSeq lane + 1)
      if s.poisoned pa then (.parked, parkReq s.cur.pl.part pa die l.addr act 0x0041 (.held h) s)
      else
        if red then (.val [], { s with held := s.held ++ [h] })
        else
          let old := s.bytes pa (Ty.bytes ty)
          match arrive h s with
          | (.accepted, s) => (.val old, s)
          | (.late, s) => (.val old, applyLate h s)
          | (.refused, s) => (.fault { cause := Cause.drOverflow, addr := l.addr }, s)
          | (.waits, s) => (.parked, s)
  | .remote md o =>
    if !red && s.m.fabDown.contains md then (.fault (accessT 8 l.addr), s)
    else
      let h := mkHeld s 0 o 0 l.addr op ty lane b reg red act
      let key := some (⟨h.launch, h.round, h.glane, h.seq⟩ : RemoteKey)
      let s := s.updR fun r => r.wrSeq lane (r.rdSeq lane + 1)
      let (bs, s) := remoteBytes (Ty.bytes ty) s
      let x : Qword := BitVec.ofNat 128 b
      let s := if red then noteFab md l.addr act (Mask.one lane) s else s
      (.val bs, { s with outs := s.outs ++ [.zwiov md o (if red then .red op ty key x else .at_ op ty key x 0)] })
  | _ => (.fault (accessT 0 l.addr), s)

/-! ## The lanes of one instruction -/

/-- Insert a lane by address, after those of the same address. -/
def insertAddr (l : LaneAcc) : List LaneAcc → List LaneAcc
  | [] => [l]
  | x :: t => if x.addr ≤ l.addr then x :: insertAddr l t else l :: x :: t

/-- A place without the home die, which names no other location. -/
def Loc.norm : Loc → Loc
  | .dram pa _ => .dram pa 0
  | l => l

/-- The groups of lanes that name one location, lower addresses first, each in ascending lane order (R252). -/
def groupsOf (ls : List LaneAcc) : List (List LaneAcc) :=
  let ss := ls.foldl (fun acc l => insertAddr l acc) []
  (ss.map (·.loc.norm)).eraseDups.map fun x => ls.filter fun l => l.loc.norm == x

/-- All groups in order; the overflow report of FXADD joins FPSTAT with the result (R251). -/
def runGroups (sc : Scope) (det : Bool) (op : AtomOp) (ty : Ty) (reg : Option Nat) (act : Mask) (val : LaneAcc → Nat × Nat) :
    List (List LaneAcc) → State → List (LaneAcc × Got) × State
  | [], s => ([], s)
  | g :: t, s =>
    let l0 := g.headD ⟨none, 0, .busy⟩
    let req := Req.atom s.cur.pl.id reg l0.pa op ty sc det
      (g.map fun l => (l.lane.getD 0, BitVec.ofNat 128 (val l).1, BitVec.ofNat 128 (val l).2)) s.cur.pc
    let ((r, olds, ov), s) := groupAt l0.loc l0.addr sc reg.isNone det op ty (g.map val) act req s
    let s := if ov then s.updC fun c => { c with pend := c.pend ++ [⟨[], Fl.overflow, none⟩] } else s
    let s := match l0.loc, reg with
      | .remote md _, none => noteFab md l0.addr act (Req.lanes req) s
      | _, _ => s
    let here := match r with
      | .val _ => (g.zip olds).map fun (l, x) => (l, Got.val (leBytes (Ty.bytes ty) x))
      | .parked => g.map fun l => (l, Got.parked)
      | .fault tr => g.map fun l => (l, Got.fault { tr with addr := l.addr })
    let (rs, s) := runGroups sc det op ty reg act val t s
    (here ++ rs, s)

/-- A log entry of a reduction lane (R244, R397); a held update keeps its round and key, and counts in SEQ. -/
def logRed (m : MMod) (op : AtomOp) (ty : Ty) (held : Bool) (b : LaneAcc → Nat) (act : Mask) (l : LaneAcc) (s : State) :
    State :=
  let (id, s) := s.fresh
  let lane := l.lane.getD 0
  let e : Dent := {
    core := s.cur.pl.core, cohort := s.cur.pl.id, launch := s.cur.pl.launch, part := s.cur.pl.part, asid := s.cur.pl.asid,
    va := l.addr, data := BitVec.ofNat 128 (b l), width := Ty.bytes ty, op := some op, ty := ty, scope := m.scope
    order := m.order, pc := s.cur.pc, mask := act, lane := lane, round := s.cur.r.drround, glane := glaneOf s.cur lane
    seq := if held then s.cur.r.rdSeq lane else id, held := held, since := s.m.time, cyc := s.m.cycle }
  let s := if held then s.updR fun r => r.wrSeq lane (r.rdSeq lane + 1) else s
  { s with dlog := s.dlog ++ [e] }

/-- Every atomic form: `red` for RED, whose lanes may be deferred. -/
def atomI (h : Hdr) (sp : ASpace) (red : Bool) (m : MMod) (op : AtomOp) (d a b c : Opd) :
    State → Host.Outcome State Fault Refusal :=
  let ty := op.ty m.ty
  let k := ty.regs
  let ak := if sp == .glob then 2 else 1
  runI h { srcs := [(a, ak), (b, k), (c, k)], dsts := [(d, k)], lates := if Order.isRel m.order then latesRel else [], opnd := 1 } false
    fun act => do
      if Order.isRel m.order then releaseM m.scope else M.upd fun s => s.updCur Cohort.closeIdem
      let s ← get
      let val := fun (l : LaneAcc) =>
        if AtomOp.fp op then
          ((if ty == .f64 then srcF64 s l.lane b else srcF32 s l.lane b), 0)
        else (srcN s l.lane k b, srcN s l.lane k c)
      let det := s.cur.pl.det
      let held := det && AtomOp.fp op && sp == .glob && heldScope m.scope
      let reg := match d with | .v n => some n.toNat | _ => none
      let perform := fun (ls : List LaneAcc) (s : State) =>
        if held then oneByOne (fun l s => heldLane op ty red reg act (val l).1 l s) ls s
        else runGroups m.scope det op ty reg act val (groupsOf ls) s
      accessM sp .atomic (Ty.bytes ty) (if Order.isAcq m.order then some m.scope else none)
        (if red then some (logRed m op ty held (fun l => (val l).1) act) else none) perform
        (fun ln bs => dstN d ln k (leNat bs)) (addrsOf false act (eAddr sp a 0#32) s)

def execAtom (h : Hdr) (m : MMod) (op : AtomOp) (d a b c : Opd) : State → Host.Outcome State Fault Refusal :=
  atomI h .glob false m op d a b c
def execRed (h : Hdr) (m : MMod) (op : AtomOp) (a b : Opd) : State → Host.Outcome State Fault Refusal :=
  atomI h .glob true m op .none a b .none
def execAtoms (h : Hdr) (m : MMod) (op : AtomOp) (d a b c : Opd) : State → Host.Outcome State Fault Refusal :=
  atomI h .own false m op d a b c
def execAtomq (h : Hdr) (m : MMod) (op : AtomOp) (d a b c : Opd) : State → Host.Outcome State Fault Refusal :=
  atomI h .quad false m op d a b c

/-! ## A held update reaches its HAU (R234, R255) -/

/-- A destination register of an access that a request performed. -/
def landLoad (cohort reg lane : Nat) (uni : Bool) (ty : Ty) (bs : List Byte) (s : State) : State :=
  s.updCohort cohort fun c =>
    let ws := dstN (if uni then .s (BitVec.ofNat 7 reg) else .v (BitVec.ofNat 8 reg)) (some lane) ty.regs (loadVal ty bs)
    { c with r := Pend.apply ⟨ws, 0, none⟩ c.r }

/-- The answer to another module, when the update is one of its (R278). -/
def Held.reply (h : Held) (o : Nat → Outp) (s : State) : State :=
  match h.src with
  | some src => { s with outs := s.outs ++ [o src] }
  | none => s

/-- An update arrives at its HAU: an ATOM's lane receives the value before the round; a refusal is the cohort's late trap. -/
def landHeld (h : Held) (s : State) : State :=
  let s := homeFirst (h.core s) h.pa s
  let old := leBytes h.width (leNat (s.bytes h.pa h.width))
  let put := fun (s : State) =>
    let s := match h.reg with
      | some n => landLoad h.cohort n (h.glane % 32) false (if h.width == 8 then .f64 else .f32) old s
      | none => s
    h.reply (fun src => .zwiovReply src (if h.red then [] else old)) s
  match arrive h s with
  | (.accepted, s) => put s
  | (.late, s) => put (applyLate h s)
  | (.refused, s) =>
    if h.src.isSome then h.reply (fun src => .zwiovFault src Cause.drOverflow) s
    else postLate h.cohort Cause.drOverflow 0 1 h.pc h.mask (doneBut h.mask (Mask.one (h.glane % 32))) h.va s
  | (.waits, s) => s

def execHeldUpdateAccept (n : Nat) : State → Host.Outcome State Fault Refusal :=
  runE fun s =>
    match s.held.find? fun h => h.id == n && h.transit with
    | none => s
    | some h => landHeld h { s with held := s.held.filter fun x => x.id != n }

/-! ## DRCLOSE (R256) -/

/-- Order of updates: round, then key. -/
def heldLe (x y : Held) : Bool :=
  x.round < y.round || (x.round == y.round && (x.glane < y.glane || (x.glane == y.glane && x.seq ≤ y.seq)))
def insertHeld (h : Held) : List Held → List Held
  | [] => [h]
  | x :: l => if heldLe x h then x :: insertHeld h l else h :: x :: l

/-- Apply the updates of closing rounds, at every location in ascending order. -/
def applyRounds (hs : List Held) (s : State) : State :=
  (hs.foldl (fun acc h => insertHeld h acc) []).foldl (fun s h =>
    let ty := if h.width == 8 then Ty.f64 else Ty.f32
    s.setBytes h.pa (leBytes h.width (atomNew h.op ty (leNat (s.bytes h.pa h.width)) h.value.toNat 0))) s

/-- Close every round of a launch up to n at this module's HAUs: was none of them failed? -/
def closeRounds (lid n : Nat) (s : State) : Bool × State :=
  let mine := fun (x : Held) => x.launch == lid && !x.transit
  let closing := s.held.filter fun x => mine x && x.round ≤ n
  let failed := match s.launch? lid with
    | some l => l.failedRounds.any fun r => r ≤ n
    | none => false
  let s := { s with held := s.held.filter fun x => !(mine x && x.round ≤ n) }
  let s := if failed then s else applyRounds closing s
  (!failed, s.updLaunch lid fun l =>
    { l with closed := max l.closed (n + 1), failedRounds := l.failedRounds.filter fun r => n < r })

/-- Has a launch an open round up to n: one with held updates, or a failed one? -/
def openTo (s : State) (lid n : Nat) : Bool :=
  (s.held.any fun x => x.launch == lid && !x.transit && x.round ≤ n)
    || match s.launch? lid with
      | some l => l.failedRounds.any fun r => r ≤ n
      | none => false

/-- NEXT of the spill region is zero once no round of the launch is open; its page or sector may be waited for. -/
def resetNext (lid : Nat) (s : State) : Except Wk State :=
  match s.launch? lid with
  | some l =>
    if l.rc.spill == 0 || s.held.any fun x => x.launch == lid && !x.transit then .ok s
    else writeVirt l.part l.asid (privOf s l.part l.asid) l.rc.spill (leBytes 8 0) s
  | none => .ok s

/-- The modules that a partition's fabric windows name. -/
def fabModules (s : State) (part : Nat) : List Nat :=
  ((((List.range 256).map fun w => (s.part part).fabwin.get w 0#64).filter fun r => r.getLsbD 63).map fun r =>
    (r.extractLsb' 0 15).toNat).eraseDups.filter fun m => m != (s.m.fabid.extractLsb' 0 15).toNat

def execDrclose (h : Hdr) (sc : Scope) (d a : Opd) : State → Host.Outcome State Fault Refusal :=
  runI h { uni := true, srcs := [(a, 1)], dsts := [(d, 1)], lates := latesRel } false fun _ => do
    let s ← get
    if !s.cur.pl.det then M.trap (accessT 0)
    else do
      let n := (src32 s none a).toNat
      let lid := s.cur.pl.launch.getD 0
      releaseM sc
      let s ← get
      let (ok, s') := closeRounds lid n s
      let s' ← (if openTo s lid n then
        match resetNext lid s' with
        | .ok x => pure x
        | .error .busy => M.wait .busy
        | .error _ => pure s'
        else pure s' : M State)
      let far := if fabScope sc then (fabModules s s.cur.pl.part).map fun m => Outp.zwiov m 0 (.close lid n) else []
      set { s' with outs := s'.outs ++ far }
      emitR (dstP d none ok) 0 (some 0)
      M.upd (acquire sc)

end Sys2Proof.Machine
end

