-- ==== Sys2Proof/Machine/Barrier.lean ====
section
/-! DEFINITION. Barriers (R316 to R326): the word, its place, the six instructions, engine arrivals. -/

namespace Sys2Proof.Machine

/-! ## The word (R316) -/

structure BarWord where
  phase : Word
  st : BitVec 2
  det : Bool
  waiting : Bool
  expected : Word
  arrived : Word
deriving DecidableEq, Repr

def BarWord.ofBytes (b : List Byte) : BarWord :=
  let hi := fld b 8 4
  ⟨BitVec.ofNat 32 (fld b 12 4), BitVec.ofNat 2 (hi / 2 ^ 30), nbit hi 29, nbit hi 28, BitVec.ofNat 32 (fld b 4 4),
   BitVec.ofNat 32 (fld b 0 4)⟩

def BarWord.bytes (w : BarWord) : List Byte :=
  leBytes 4 w.arrived.toNat ++ leBytes 4 w.expected.toNat
    ++ leBytes 4 (w.st.toNat * 2 ^ 30 + (if w.det then 2 ^ 29 else 0) + (if w.waiting then 2 ^ 28 else 0))
    ++ leBytes 4 w.phase.toNat

/-- ARMED. -/
def BarWord.armed (w : BarWord) : Bool := w.st == 1#2

/-- The word at a physical address. -/
def barAt (s : State) (pa : Nat) : BarWord := .ofBytes (s.bytes pa 16)

/-- Write the word at its home or bank; a copy in the issuing core's L1 follows. -/
def putBar (core pa : Nat) (w : BarWord) (s : State) : State := pokeL1 core pa w.bytes false (s.setBytes pa w.bytes)

/-- Set the tag, in the issuing core's copy of the line too. -/
def setTag (core pa : Nat) (s : State) : State :=
  let s := { s with tags := if s.live pa then s.tags else s.tags ++ [pa / 16 * 16] }
  match s.l1? core (pa / 64) with
  | some x => s.putL1 { x with tags := x.tags ||| BitVec.ofNat 4 (2 ^ (pa % 64 / 16)) }
  | none => s

/-- Clear the tag at the home or bank and in every L1 copy (R322). -/
def clearTag (pa : Nat) (s : State) : State :=
  { s with
    tags := s.tags.filter fun a => a != pa / 16 * 16
    l1 := s.l1.map fun x =>
      if x.line == pa / 64 then { x with tags := x.tags &&& ~~~(BitVec.ofNat 4 (2 ^ (pa % 64 / 16))) } else x }

/-! ## Its place (R317, R318) -/

def barSpace : Space → ASpace
  | .own => .own
  | .quad => .quad
  | _ => .glob

def barKey (c : Cohort) : Nat := c.pl.id * 2 ^ 24 + 3

/-- The physical address of the word that an operand names: alignment, translation with the permission of a store, the
suspensions; a poisoned sector parks the step. PCIe and Zwiov Link carry no barrier step. -/
def barPlace (m : BMod) (a : Opd) : M Nat := do
  let s ← get
  let sp := barSpace m.space
  let va := eAddr sp a 0#32 s none
  let l : LaneAcc := ⟨none, va, resolve sp .store false 16 s none va⟩
  suspendM [l]
  M.waitUntil .scoreboard fun s => !sbStall s true true 16 l
  M.waitUntil .log fun s => !logStall s sp 16 l
  M.waitUntil .parked fun s => !l.behind s 16
  let s ← get
  match l.st with
  | .fault t => M.trap t
  | .defer | .busy => M.wait .busy
  | .at_ loc _ =>
    if l.ask s == Ask.failed then M.trap (genFaultT s va)
    else do
      M.upd (noteLanes .store [l])
      match loc with
      | .dram pa die =>
        if s.refused.contains (barKey s.cur, pa / 64 * 64) then M.trap (poisonT 1 va)
        else if s.poisoned pa then do
          if s.parked.any fun q => q.pa == pa / 64 * 64 && q.req == Req.engine (barKey s.cur) then pure ()
          else M.upd (parkReq s.cur.pl.part pa die va 0#32 0x0041 (.engine (barKey s.cur)))
          M.wait .parked
        else do
          M.upd fun s => writeBack s.cur.pl.core (pa / 64) s
          pure pa
      | .chip pa =>
        if !isSp pa then M.trap (accessT 0 va)
        else if spPoisoned s pa 16 then M.trap (poisonT 1 va)
        else pure pa
      | .bus => M.trap (accessT 1 va)
      | .host _ | .remote _ _ => M.trap (accessT 0 va)

/-- The word of a BARWAIT, or of a BARSYNC that has arrived: a suspended cohort waits on the word it named, one that was woken has its
answer; neither names it again (R321). -/
def barHere (m : BMod) (a : Opd) : M Nat := do
  let s ← get
  match s.cur.c.barAt, s.cur.c.barEnd with
  | some pa, _ => pure pa
  | none, some _ => pure 0
  | none, none => barPlace m a

def metaBar (srcs dsts : List (Opd × Nat)) (rel : Bool) : Meta :=
  { uni := true, srcs := srcs, dsts := dsts, lates := if rel then latesRel else [], opnd := 1 }

/-- Registers of the address operand. -/
def barRegs (m : BMod) : Nat := if m.space == .glob then 2 else 1

/-! ## Arrivals (R320, R326) -/

/-- What an arrival's step gives. -/
inductive Arrival where
  | notCounted (token : Word)
  | badIndex
  | counted (token : Word) (role : Bool)
deriving DecidableEq, Repr

/-- The waiters of a word are woken, each with the answer of its BARWAIT: the phase completed, or it was invalidated (R320, R322). -/
def wakeBar (pa : Nat) (ok : Bool) (s : State) : State :=
  s.updCohorts fun c => if c.c.barAt == some pa then { c with c := { c.c with barAt := none, wait := none, barEnd := some ok } } else c

/-- One arrival; an engine's has no index and takes no role. A completed phase wakes its waiters. -/
def arriveAt (core pa : Nat) (ix : Option Word) (s : State) : Arrival × State :=
  let w := barAt s pa
  if !s.live pa then (.notCounted 0#32, s)
  else if !w.armed then (.notCounted w.phase, s)
  else if w.det && (match ix with | some i => decide (w.expected.toNat ≤ i.toNat) | none => false) then (.badIndex, s)
  else
    let n := w.arrived + 1#32
    let last := n == w.expected
    let role := match ix with
      | some i => if w.det then i == w.expected - 1#32 else last
      | none => false
    let w' := if last then { w with phase := w.phase + 1#32, arrived := 0#32, waiting := false } else { w with arrived := n }
    let s := putBar core pa w' s
    let s := if last then wakeBar pa true s else s
    (.counted w.phase role, s)

/-- The waiting part of BARWAIT and BARSYNC: it suspends while the word is live, ARMED and in the token's phase; then it
answers whether the phase has moved on. One that was woken has its answer, whatever became of the word since. -/
def barWaitM (pa : Nat) (token : Word) (sc : Scope) (st : Stage) : M Bool := do
  let s ← get
  let w := barAt s pa
  match s.cur.c.barEnd with
  | some ok => do
    if ok then M.upd (acquire sc) else pure ()
    pure ok
  | none =>
  if s.live pa && w.armed && w.phase == token then do
    M.upd fun s => (putBar s.cur.pl.core pa { w with waiting := true } s).updC fun c => { c with barAt := some pa, stage := st }
    M.wait .barrier
  else if s.live pa && w.armed then do
    M.upd (acquire sc)
    pure true
  else pure false

/-! ## The instructions -/

def execBarinit (h : Hdr) (m : BMod) (det : Bool) (a b : Opd) : State → Host.Outcome State Fault Refusal :=
  runI h (metaBar [(a, barRegs m), (b, 1)] [] true) false fun _ => do
    let pa ← barPlace m a
    releaseM m.scope
    let s ← get
    let e := src32 s none b
    M.trapIf (e == 0#32) { accessT 0 with opnd := 2 }
    let w := barAt s pa
    M.trapIf (s.live pa && (w.arrived != 0#32 || w.waiting)) { cause := Cause.barBusy, opnd := 1 }
    M.upd fun s => setTag s.cur.pl.core pa (putBar s.cur.pl.core pa ⟨0#32, 1#2, det || s.cur.pl.det, false, e, 0#32⟩ s)

def execBararv (h : Hdr) (m : BMod) (d a b c : Opd) : State → Host.Outcome State Fault Refusal :=
  runI h (metaBar [(a, barRegs m), (b, 1)] [(d, 1), (c, 1)] true) false fun _ => do
    let pa ← barPlace m a
    releaseM m.scope
    let s ← get
    let r ← M.run (arriveAt s.cur.pl.core pa (some (src32 s none b)))
    match r with
    | .badIndex => M.trap { cause := Cause.barIndex, opnd := 2 }
    | .notCounted t => emitR (dst32 d none t ++ dstP c none false) 0 (some 0)
    | .counted t role => emitR (dst32 d none t ++ dstP c none role) 0 (some 0)

def execBarwait (h : Hdr) (m : BMod) (d a b : Opd) : State → Host.Outcome State Fault Refusal :=
  runI h (metaBar [(a, barRegs m), (b, 1)] [(d, 1)] false) false fun _ => do
    let pa ← barHere m a
    let s ← get
    let ok ← barWaitM pa (src32 s none b) m.scope .start
    emitR (dstP d none ok) 0 (some 0)

def execBarsync (h : Hdr) (m : BMod) (d a b c : Opd) : State → Host.Outcome State Fault Refusal :=
  runI h (metaBar [(a, barRegs m), (b, 1)] [(d, 1), (c, 1)] true) false fun _ => do
    let s ← get
    match s.cur.c.stage with
    | .arrived t role => do
      let pa ← barHere m a
      finish pa t role
    | _ => do
      let pa ← barPlace m a
      releaseM m.scope
      let s ← get
      let r ← M.run (arriveAt s.cur.pl.core pa (some (src32 s none b)))
      match r with
      | .badIndex => M.trap { cause := Cause.barIndex, opnd := 2 }
      | .notCounted _ => emitR (dstP d none false ++ dstP c none false) 0 (some 0)
      | .counted t role => finish pa t role
where
  finish (pa : Nat) (t : Word) (role : Bool) : M Unit := do
    let ok ← barWaitM pa t m.scope (.arrived t role)
    emitR (dstP d none ok ++ dstP c none (ok && role)) 0 (some 0)

/-- BARINV: INVALID and no arrivals; every waiter wakes. -/
def barinvM (m : BMod) (a : Opd) (free : Bool) : M Unit := do
  let pa ← barPlace m a
  releaseM m.scope
  let s ← get
  if !s.live pa then pure ()
  else do
    let w := barAt s pa
    M.upd fun s =>
      let s := putBar s.cur.pl.core pa { w with st := 2#2, arrived := 0#32, waiting := false } s
      let s := wakeBar pa false s
      if free then clearTag pa s else s

def execBarinv (h : Hdr) (m : BMod) (a : Opd) : State → Host.Outcome State Fault Refusal :=
  runI h (metaBar [(a, barRegs m)] [] true) false fun _ => barinvM m a false
def execBarinvFree (h : Hdr) (m : BMod) (a : Opd) : State → Host.Outcome State Fault Refusal :=
  runI h (metaBar [(a, barRegs m)] [] true) false fun _ => barinvM m a true

def execBarqry (h : Hdr) (m : BMod) (d a : Opd) : State → Host.Outcome State Fault Refusal :=
  runI h (metaBar [(a, barRegs m)] [(d, 4)] false) false fun _ => do
    let pa ← barPlace m a
    let s ← get
    emitR (dstN d none 4 (if s.live pa then leNat (s.bytes pa 16) else 0)) 0 (some 0)

end Sys2Proof.Machine
end

