-- ==== Sys2Proof/Machine/Agent.lean ====
section
/-! DEFINITION. Reads and writes that engines make in a tenant's space at the homes: translation, procedural blocks, parked
requests, live barrier words (R325, R340, R359, R399). -/

namespace Sys2Proof.Machine

/-- Why an engine's access does not perform: it waits, in the state given; or its reason (R359), poison, a FAILED block, a
live barrier word, each with the address; a cause that ends a generator (R344). -/
inductive AStop where
  | wait (s : State)
  | bad (detail addr : Nat)
  | poison (addr : Nat)
  | failed (addr : Nat)
  | live (addr : Nat)
  | gen (cause : Nat)

abbrev AM (α : Type) := StateT State (Except AStop) α

/-- Who accesses: partition, tenant, privilege, the key under which its requests park, the core whose dirty bytes it sees,
the generator context. -/
structure Agent where
  part : Nat
  asid : Nat
  priv : Bool
  key : Nat
  core : Option Nat := none
  gen : Option Gen := none
  /-- the cohort whose instruction it works for, which waits itself (R344) -/
  self : Option Nat := none

def AM.mapL {α β : Type} (l : List α) (f : α → AM β) : AM (List β) :=
  match l with
  | [] => pure []
  | x :: t => do
    let y ← f x
    let ys ← AM.mapL t f
    pure (y :: ys)

def AM.each {α : Type} (l : List α) (f : α → AM Unit) : AM Unit :=
  match l with
  | [] => pure ()
  | x :: t => do f x; AM.each t f

def AM.bad {α : Type} (d a : Nat) : AM α := fun _ => .error (.bad d a)

/-- The place of a byte: translation, then the block state (R340). An agent that is no generator requests fills of depth 0. `walk`: it
begins an access or a page, whose walk raises heat (R363). -/
def Agent.place (g : Agent) (acc : Acc) (a : Nat) (walk : Bool := true) : AM Loc := fun s =>
  match xlate s g.part g.asid g.priv acc (a % 2 ^ 64) with
  | .busy => .error (.wait s)
  | .bad d _ => .error (.bad d a)
  | .poison => .error (.poison a)
  | .ok t =>
    let l := t.loc s g.part
    let s := if walk then heatFor g.part acc t.at_ s else s
    match askAt g.part g.asid g.gen t s with
    | (.go, s') => .ok (l, s')
    | (.failed, _) => .error (.failed a)
    | (.off, s') => .error (.wait s')
    | (.fault c, _) => .error (.gen c)
    | (.wait f, s') => .error (.wait (match g.self, f with
      | some id, some f => s'.updCohort id fun c => { c with c := { c.c with onFill := some f } }
      | _, _ => s'))

/-- A poisoned sector parks the engine's request; once refused it is a memory fault (R399, R400). -/
def Agent.sector {α : Type} (g : Agent) (pa die a : Nat) : AM α := fun s =>
  let w := pa / 64 * 64
  if s.refused.contains (g.key, w) then .error (.poison a)
  else if s.parked.any fun q => q.pa == w && q.req == Req.engine g.key then .error (.wait s)
  else .error (.wait (parkReq g.part pa die a 0#32 0x0041 (.engine g.key) s))

/-- Read a byte. -/
def Agent.byte (g : Agent) (acc : Acc) (a : Nat) (walk : Bool := true) : AM Byte := do
  let l ← g.place acc a walk
  let s ← get
  match l with
  | .dram pa die =>
    if s.poisoned pa then g.sector pa die a
    else
      let s := match g.core with | some c => writeBack c (pa / 64) s | none => s
      set s
      pure (s.byte pa)
  | .chip pa => if isSp pa && spPoisoned s pa 1 then fun _ => .error (.poison a) else pure (chipByte s pa)
  | .host x =>
    set { s with outs := s.outs ++ [Outp.hostLoad x 1] }
    pure (s.byte (0xC_0000_0000_0000 + x))
  | .remote md o =>
    if s.m.fabDown.contains md then AM.bad 8 a
    else
      let (bs, s') := remoteBytes 1 s
      set { s' with outs := s'.outs ++ [Outp.zwiov md o (.rd 1)] }
      pure (nth bs 0 0#8)
  | .bus => AM.bad 1 a

/-- Read n bytes. -/
def Agent.read (g : Agent) (a n : Nat) (acc : Acc := .load) : AM (List Byte) :=
  AM.mapL (List.range n) fun k => g.byte acc ((a + k) % 2 ^ 64) (k == 0 || (a + k) % 4096 == 0)

/-- Read a little-endian number. -/
def Agent.num (g : Agent) (a n : Nat) : AM Nat := do
  let bs ← g.read a n
  pure (leNat bs)

/-- Write a byte that may be written. -/
def putByte (l : Loc) (b : Byte) (s : State) : State :=
  match l with
  | .dram pa _ => s.setBytes pa [b]
  | .chip pa => chipPut pa b s
  | .host x => { (s.setBytes (0xC_0000_0000_0000 + x) [b]) with outs := s.outs ++ [.hostWrite x [b]] }
  | .remote md o => { s with outs := s.outs ++ [.zwiov md o (.wr [b])] }
  | .bus => s

/-- Write bytes at the homes; the copy in the core's L1 follows (R215): every byte is placed first, then all are written; a live barrier word is left as it is (R325), a poisoned
sector that the write does not cover parks it (R399). -/
def Agent.write (g : Agent) (a : Nat) (bs : List Byte) : AM Unit := do
  let ls ← AM.mapL (List.range bs.length) fun k => g.place .store ((a + k) % 2 ^ 64) (k == 0 || (a + k) % 4096 == 0)
  let s ← get
  let pas := ls.filterMap fun l => match l with | .dram pa die => some (pa, die) | _ => none
  match ls.findIdx? fun l => match l with | .dram pa _ | .chip pa => s.live pa | _ => false with
  | some k => fun _ => .error (.live (a + k))
  | none =>
    let covers := fun (w : Nat) => (List.range 64).all fun k => pas.any fun e => e.1 == w + k
    match pas.find? fun e => s.poisoned e.1 && !covers (e.1 / 64 * 64) with
    | some (pa, die) => g.sector pa die a
    | none => do
      let s := match g.core with
        | some c => (pas.map (·.1 / 64)).eraseDups.foldl (fun s l => writeBack c l s) s
        | none => s
      let s := (ls.zip bs).foldl (fun s (l, b) =>
        let s := putByte l b s
        match g.core, l with
        | some c, .dram pa _ => pokeL1 c pa [b] false s
        | _, _ => s) s
      set { s with poison := s.poison.filter fun w => !covers w }

/-- An engine's reads and writes at physical addresses of a partition: poison parks. -/
def Agent.readPa (g : Agent) (pa n : Nat) : AM (List Byte) := fun s =>
  if s.poisoned pa then g.sector pa (dieHome pa 0) pa s else .ok (s.bytes pa n, s)

/-- The agent that a cohort's engine is. -/
def agentOf (c : Cohort) (key : Nat) : Agent := ⟨c.pl.part, c.pl.asid, c.pl.priv, key, some c.pl.core, c.x.gen, some c.pl.id⟩

end Sys2Proof.Machine
end

