-- ==== Sys2Proof/Machine/Overlay.lean ====
section
/-! DEFINITION. Overlays and the instruction store (R327 to R337): the catalogue, residency slots and their room, references,
the demand of a transfer, OVLD to OVEVICT, the load. -/

namespace Sys2Proof.Machine

/-! ## The catalogue (R328) -/

/-- An overlay descriptor that passed its checks. -/
structure OvDesc where
  image : Nat
  nblk : Nat
  traph : Bool
  gen : Bool
  genblk : Nat
deriving DecidableEq, Repr

/-- The descriptor in 64 bytes read for overlay n. -/
def ovDescOf (n : Nat) (b : List Byte) : Option OvDesc :=
  let fl := fld b 11 1
  let nblk := fld b 12 2
  let genblk := fld b 14 2
  if nbit fl 0 && fld b 8 3 == n && fl / 8 == 0 && allZero (b.drop 16) && 1 ≤ nblk && nblk ≤ 8192 && fld b 0 8 % 64 == 0
      && (!nbit fl 2 || genblk < nblk) then some ⟨fld b 0 8, nblk, nbit fl 1, nbit fl 2, genblk⟩
  else none

/-- Read the descriptor of an overlay of a tenant: none when it is not registered. -/
def readDesc (g : Agent) (n : Nat) : AM (Option OvDesc) := fun s =>
  match tenant? s g.part g.asid with
  | none => .error (.bad 5 0)
  | some t =>
    if n == 0 || 2 ^ 24 ≤ n || tCatLen t ≤ n then .ok (none, s)
    else match g.read (tCatBase t + 64 * n) 64 .load s with
      | .ok (b, s') => .ok (ovDescOf n b, s')
      | .error e => .error e

/-! ## Slots (R327, R330, R334) -/

/-- Granules of an overlay of so many blocks. -/
def granules (nblk : Nat) : Nat := ceilDiv nblk 16

/-- The slot that holds an overlay for a tenant on a core. -/
def slotOf (s : State) (core part asid n : Nat) : Option OvSlot := ovSlot? s core part asid n

/-- Does a cohort hold a reference to an overlay? A slot whose transfer waits names none. -/
def refsOv (c : Cohort) (n : Nat) : Bool :=
  let waits := match c.c.stage with | .ovl _ _ _ _ => true | _ => false
  let names := fun (p : Option PcPart) (b : Bool) => match p with
    | some p => p.pc.ovl == n && !(waits && c.c.isB == b)
    | none => false
  names c.c.a false || names c.c.b true || c.c.stack.any fun e => e.1 == n

/-- REFS of a slot. -/
def refCount (s : State) (o : OvSlot) : Nat :=
  (s.cohorts.filter fun c => c.pl.core == o.core && c.pl.part == o.part && c.pl.asid == o.asid && refsOv c o.ovl).length

def isSlot (o : OvSlot) (x : OvSlot) : Bool := x.core == o.core && x.ix == o.ix

def updSlot (o : OvSlot) (f : OvSlot → OvSlot) (s : State) : State :=
  { s with slots := s.slots.map fun x => if isSlot o x then f x else x }

/-- A slot becomes FREE; its generation stays, and what its granules hold is undefined. -/
def freeSlot (o : OvSlot) (s : State) : State :=
  let s := o.gran.foldl (fun s g => undefBytes (spPa o.core (0xC_0000 + 1024 * g)) 1024 s) s
  (updSlot o (fun x => { x with st := SlotSt.free, evict := false, pins := 0, blocks := [] }) s).wake

/-- EVICT-PENDING slots whose load has ended, whose REFS is 0 and which nothing has pinned since become FREE (R333, R335). -/
def sweepEvict (s : State) : State :=
  (s.slots.filter fun o => o.evict && o.st != .free && o.st != .loading && o.pins == 0 && refCount s o == 0).foldl
    (fun s o => freeSlot o s) s

/-- Granules in use by slots that satisfy a test. -/
def granulesOf (s : State) (f : OvSlot → Bool) : Nat :=
  ((s.slots.filter fun o => o.st != .free && f o).map fun o => granules o.nblk).foldl (· + ·) 0

/-- Slots of a tenant on a core that an allocation may free, the least recently allocated first. -/
def victims (s : State) (core part asid : Nat) (traph : Bool) : List OvSlot :=
  let l := s.slots.filter fun o => o.core == core && o.part == part && o.asid == asid && o.traph == traph
    && (o.st == .resident || o.st == .failed) && o.pins == 0 && refCount s o == 0
  l.foldl (fun acc o => (acc.takeWhile fun x => x.seq ≤ o.seq) ++ [o] ++ (acc.dropWhile fun x => x.seq ≤ o.seq)) []

/-- The tenant's instruction-store quota (R374). -/
def isQuota (s : State) (part asid : Nat) : Nat := match tenant? s part asid with | some t => tIsQuota t | none => 0

/-- The region's capacity and the tenant's share for an overlay. -/
def regionCap (traph : Bool) : Nat := if traph then 8 else 184
def ovShare (s : State) (part asid : Nat) (traph : Bool) : Nat := if traph then 8 else min 184 (isQuota s part asid)

/-- Is there room for g granules and a slot? -/
def ovRoom (s : State) (core part asid : Nat) (traph : Bool) (g : Nat) : Bool :=
  granulesOf s (fun o => o.core == core && o.traph == traph) + g ≤ regionCap traph
    && granulesOf s (fun o => o.core == core && o.part == part && o.asid == asid && o.traph == traph) + g
        ≤ ovShare s part asid traph
    && (s.slots.filter fun o => o.core == core && o.st != .free).length < 256

/-- Free victims one by one until there is room. -/
def makeOvRoom (core part asid : Nat) (traph : Bool) (g : Nat) : List OvSlot → State → Option State
  | [], s => if ovRoom s core part asid traph g then some s else none
  | v :: l, s => if ovRoom s core part asid traph g then some s else makeOvRoom core part asid traph g l (freeSlot v s)

/-- The lowest granules of the region of an overlay that nothing occupies on a core. -/
def freeGranules (s : State) (core : Nat) (traph : Bool) : List Nat :=
  (if traph then (List.range 8).map (184 + ·) else List.range 184).filter fun k =>
    !s.slots.any fun o => o.core == core && o.st != .free && o.gran.contains k

/-- Allocate a slot for an overlay whose descriptor has been read (R327, R330): LOADING, with the image to load. No room is made in place
of a FAILED slot of the overlay that is pinned (R333). -/
def allocSlot (core part asid n : Nat) (d : OvDesc) (s : State) : Option (OvSlot × State) :=
  let stuck : Bool := match slotOf s core part asid n with
    | some o => o.st == .failed && 0 < o.pins
    | none => false
  let s := match slotOf s core part asid n with
    | some o => if o.st == .failed then freeSlot o s else s
    | none => s
  let room := if stuck then none else makeOvRoom core part asid d.traph (granules d.nblk) (victims s core part asid d.traph) s
  match room with
  | none => none
  | some s =>
    let used := fun k => s.slots.any fun o => o.core == core && o.ix == k && o.st != .free
    match (List.range 256).find? fun k => !used k with
    | none => none
    | some k =>
      let old := s.slots.find? fun o => o.core == core && o.ix == k
      let g := match old with | some o => o.gen % 65535 + 1 | none => 1
      let (id, s) := s.fresh
      let o : OvSlot := ⟨core, k, .loading, false, n, part, asid, g, 0, d.nblk, d.traph, d.image, [], id,
        (freeGranules s core d.traph).take (granules d.nblk)⟩
      some (o, { s with slots := if old.isSome then s.slots.map fun x => if isSlot o x then o else x else s.slots ++ [o] })

/-- A residency token (R329). -/
def tokenOf (o : OvSlot) : Word := BitVec.ofNat 32 (o.ix * 2 ^ 24 + o.gen * 2 ^ 8 + o.ovl % 256)

/-- The slot of a current token of the issuing cohort. -/
def currentSlot (s : State) (t : Word) : Option OvSlot :=
  if t == 0#32 then none
  else s.slots.find? fun o => o.core == s.cur.pl.core && o.ix == (t.extractLsb' 24 8).toNat && o.st != .free
    && o.part == s.cur.pl.part && o.asid == s.cur.pl.asid && o.ovl % 256 == (t.extractLsb' 0 8).toNat
    && o.gen == (t.extractLsb' 8 16).toNat

/-! ## Reading the catalogue for a cohort -/

/-- Run an engine's access for an instruction: a wait suspends it, a fault is its trap. -/
def agentM {α : Type} (x : AM α) : M α := fun s =>
  match x s with
  | .ok r => .ok r
  | .error (.wait s') => .error (.wait .fill s')
  | .error (.bad d a) => M.trap (accessT d a) s
  | .error (.poison a) => M.trap (poisonT 0 a) s
  | .error (.failed a) => M.trap { cause := Cause.generator, addr := a } s
  | .error (.live a) => M.trap (clobberT a) s
  | .error (.gen c) => M.trap { cause := c } s

/-- The catalogue read of the issuing cohort, an acquire at .dev (R328). -/
def cohortDesc (n : Nat) : M (Option OvDesc) := do
  let s ← get
  let d ← agentM (readDesc (agentOf s.cur (s.cur.pl.id * 2 ^ 24 + 1)) n)
  pure d

/-! ## Transfers into an overlay (R337) -/

/-- Since when a cohort waits for an overlay. -/
def ovWaitOf (c : Cohort) : Option Nat := match c.c.stage with | .ovl _ t _ _ => some t | _ => none

/-- Does every cohort of the tenant on the core wait for an overlay, and has the issuing one waited longest? -/
def longestWaiter (s : State) : Bool :=
  let p := s.cur.pl
  let l := s.cohorts.filter fun c => c.pl.core == p.core && c.pl.part == p.part && c.pl.asid == p.asid
  let mine := ovWaitOf s.cur
  l.all fun c => match ovWaitOf c, mine with
    | some t, some u => u < t || (u == t && p.slotIx ≤ c.pl.slotIx)
    | _, _ => false

/-- The wait of a transfer: the instruction's fall-through is kept. -/
def ovWait {α : Type} (n : Nat) (next : Option PcPart) : M α := fun s =>
  let st : Stage := match s.cur.c.stage with
    | .ovl _ t h nx => .ovl n t h (if nx.isSome then nx else next)
    | _ => .ovl n s.m.cycle none next
  .error (.wait (.overlay n) (s.updC fun c => { c with stage := st }))

/-- A transfer of the issuing cohort into overlay n: it goes on when the overlay is there; else an OVLD is made on its behalf
and it waits, or takes the traps of R337. -/
def wantOverlay (n : Nat) (next : Option PcPart) : M Unit := do
  let s ← get
  let p := s.cur.pl
  let waited := match s.cur.c.stage with | .ovl k _ _ _ => k == n | _ => false
  match slotOf s p.core p.part p.asid n with
  | some o =>
    if o.st == .resident && (!o.evict || refsOv s.cur n) then pure ()
    else if waited && s.cur.c.ovFail then loadTrap
    else if o.st == .loading then ovWait n next
    else if o.evict then do
      M.trapIf ((victims s p.core p.part p.asid o.traph).isEmpty && longestWaiter s) { cause := Cause.ovQuota }
      ovWait n next
    else demand n next
  | none => if waited && s.cur.c.ovFail then loadTrap else demand n next
where
  /-- The load that it waited for has failed. -/
  loadTrap : M Unit := do
    M.upd fun s => s.updC fun c => { c with ovFail := false }
    M.trap { cause := Cause.ovLoad }
  /-- The OVLD on the cohort's behalf; its reads follow the cohort's earlier accesses (R331). -/
  demand (n : Nat) (next : Option PcPart) : M Unit := do
    let d ← cohortDesc n
    match d with
    | none => M.trap { cause := Cause.ovUnregistered }
    | some d =>
      let s ← get
      let p := s.cur.pl
      let pinned := granulesOf s fun o => o.core == p.core && o.part == p.part && o.asid == p.asid && o.traph == d.traph && o.pins != 0
      M.trapIf (decide (ovShare s p.part p.asid d.traph < pinned + granules d.nblk)) { cause := Cause.ovQuota }
      if !drained s then ovWait n next
      else match allocSlot p.core p.part p.asid n d s with
      | some (_, s') => do
        set s'
        ovWait n next
      | none =>
        M.trapIf (longestWaiter s) { cause := Cause.ovQuota }
        ovWait n next

/-- Blocks of an overlay: those of its resident copy, else those its descriptor gives. -/
def ovLength (n : Nat) : M Nat := do
  let s ← get
  let p := s.cur.pl
  match slotOf s p.core p.part p.asid n with
  | some o => if o.st == .resident then pure o.nblk else viaDesc n
  | none => viaDesc n
where
  viaDesc (n : Nat) : M Nat := do
    let d ← cohortDesc n
    match d with
    | none => M.trap { cause := Cause.ovUnregistered }
    | some d => pure d.nblk

/-! ## OVLD to OVEVICT (R331 to R335) -/

def execOvld (h : Hdr) (d a : Opd) : State → Host.Outcome State Fault Refusal :=
  runI h { uni := true, srcs := [(a, 1)], dsts := [(d, 1)] } false fun _ => do
    let s ← get
    let n := (src32 s none a).toNat
    let p := s.cur.pl
    let desc ← cohortDesc n
    match desc with
    | none => M.trap { cause := Cause.ovUnregistered }
    | some ds =>
      drainedM
      let s ← get
      M.upd fun s => s.updCur Cohort.closeIdem
      let held := match slotOf s p.core p.part p.asid n with
        | some o => if o.st == SlotSt.failed && !o.evict then none else some o
        | none => none
      match held with
      | some o => emitR (dst32 d none (if o.evict then 0#32 else tokenOf o)) 0 (some 0)
      | none => match allocSlot p.core p.part p.asid n ds s with
        | some (o, s') => do
          set (s'.updCur Cohort.closeIdem)
          emitR (dst32 d none (tokenOf o)) 0 (some 0)
        | none => emitR (dst32 d none 0#32) 0 (some 0)

def execOvwait (h : Hdr) (d a : Opd) : State → Host.Outcome State Fault Refusal :=
  runI h { uni := true, srcs := [(a, 1)], dsts := [(d, 1)] } false fun _ => do
    let s ← get
    let t := src32 s none a
    M.waitUntil .load fun s => match currentSlot s t with | some o => o.st != .loading | none => true
    let s ← get
    emitR (dstP d none (match currentSlot s t with | some o => o.st == .resident | none => false)) 0 (some 0)

/-- OVPIN and OVUNPIN: `f` gives the new count, when it changes. -/
def pinI (h : Hdr) (d a : Opd) (f : OvSlot → Option Nat) : State → Host.Outcome State Fault Refusal :=
  runI h { uni := true, srcs := [(a, 1)], dsts := [(d, 1)] } false fun _ => do
    let s ← get
    M.upd fun s => s.updCur Cohort.closeIdem
    match currentSlot s (src32 s none a) with
    | some o => match f o with
      | some n => do
        M.upd (updSlot o fun x => { x with pins := n })
        emitR (dstP d none true) 0 (some 0)
      | none => emitR (dstP d none false) 0 (some 0)
    | none => emitR (dstP d none false) 0 (some 0)

def execOvpin (h : Hdr) (d a : Opd) : State → Host.Outcome State Fault Refusal :=
  pinI h d a fun o => if (o.st == .loading || o.st == .resident) && o.pins < 255 then some (o.pins + 1) else none
def execOvunpin (h : Hdr) (d a : Opd) : State → Host.Outcome State Fault Refusal :=
  pinI h d a fun o => if 0 < o.pins then some (o.pins - 1) else none

def execOvevict (h : Hdr) (d a : Opd) : State → Host.Outcome State Fault Refusal :=
  runI h { uni := true, srcs := [(a, 1)], dsts := [(d, 1)] } false fun _ => do
    let s ← get
    M.upd fun s => s.updCur Cohort.closeIdem
    match currentSlot s (src32 s none a) with
    | none => emitR (dstP d none true) 0 (some 0)
    | some o =>
      if 0 < o.pins then emitR (dstP d none false) 0 (some 0)
      else do
        M.upd fun s => if refCount s o == 0 && o.st != .loading then freeSlot o s
          else updSlot o (fun x => { x with evict := true }) s
        emitR (dstP d none true) 0 (some 0)

/-! ## Loads (R331) -/

/-- A load ends FAILED; the transfers that wait for it take their trap when they are presented again (R337). -/
def failLoad (o : OvSlot) (s : State) : State :=
  (updSlot o (fun x => { x with st := SlotSt.failed }) s).updCohorts fun c =>
    if c.pl.core == o.core && c.pl.part == o.part && c.pl.asid == o.asid
        && (match c.c.stage with | .ovl n _ _ _ => n == o.ovl | _ => false) then { c with c := { c.c with ovFail := true } }
    else c

/-- The load of a residency slot's overlay: RESIDENT when every byte is read, FAILED when one cannot be. -/
def execOverlayLoad (core slot : Nat) : State → Host.Outcome State Fault Refusal :=
  runE fun s =>
    match s.slots.find? fun o => o.core == core && o.ix == slot && o.st == .loading with
    | none => s
    | some o =>
      let g : Agent := ⟨o.part, o.asid, privOf s o.part o.asid, o.seq, some core, none, none⟩
      let s' := match g.read o.image (64 * o.nblk) .ovl s with
        | .error (.wait s') => s'
        | .error _ => failLoad o s
        | .ok (bs, s') =>
          let blks := (List.range o.nblk).map fun k => BitVec.ofNat 512 (leNat ((bs.drop (64 * k)).take 64))
          updSlot o (fun x => { x with st := SlotSt.resident, blocks := blks }) s'
      sweepEvict s'

/-- A transfer that waits for its overlay tries again to have it loaded (R337). -/
def execOverlayTransferRetry (cohort : Nat) : State → Host.Outcome State Fault Refusal :=
  runE fun s =>
    let go := fun (s : State) => ((), match s.cur.c.stage with
      | .ovl n _ _ _ => match (wantOverlay n none) s with
        | .error (.wait _ s') => s'
        | _ => s
      | _ => s)
    (asCohort cohort () go s).2

end Sys2Proof.Machine
end

