-- ==== Sys2Proof/Machine/Fill.lean ====
section
/-! DEFINITION. Procedural fill (R339 to R348): the directory's requests, generators, the built-in kinds, the ends of a fill. -/

namespace Sys2Proof.Machine

/-! ## The end of a fill (R345) -/

/-- Every waiter of a fill learns how it ended. The waiters, and every later access that finds the block FILLED, acquire at .dev (R232): no
core keeps a copy from before the end. -/
def tellWaiters (fid : Nat) (e : Option FillEnd) (s : State) : State :=
  let cores := (s.l1.map (·.core)).eraseDups
  let s := s.updCohorts fun c =>
    if c.c.onFill == some fid then { c with c := { c.c with onFill := none, fillEnd := e, wait := none } } else c
  (cores.foldl (fun s c => dropFilled c s) s).wake

/-- A fill ends: the block is FILLED, or FAILED with a code and the ring index of the generator's record. A range that counts
as disabled has no map to change (R339); where the map cannot be written yet, the fill ends once it can. -/
def endFill (fid : Nat) (e : Option (Nat × Nat)) (s : State) : State :=
  match s.fills.find? fun f => f.id == fid with
  | none => s
  | some f =>
    let waits := match rangeIx? s f.part f.asid f.range with
      | some r => if mapBusy s f.part f.asid r f.block then some r else none
      | none => none
    if let some r := waits then
      parkMap f.part f.asid r f.block
        { s with fills := s.fills.map fun x => if x.id == fid then { x with done := some e, started := true } else x }
    else
    let fe : Option FillEnd := e.map fun (code, aux) => ⟨f.asid, f.range, f.block, code, aux⟩
    let s := { s with fills := s.fills.filter fun x => x.id != fid }
    let s := match rangeIx? s f.part f.asid f.range with
      | some r => setBlk f.part f.asid r f.block (if e.isNone then blkFilled else blkFailed) s
      | none => s
    let s := match fe with
      | some x => { s with failed := s.failed ++ [(f.part, x)] }
      | none => s
    tellWaiters fid fe s

/-- Fills whose map could not be written end when it can. -/
def settleFills (s : State) : State :=
  s.fills.foldl (fun s f => match f.done with
    | some e => endFill f.id e s
    | none => s) s

/-! ## FILLDONE, FILLFAIL, FILLQRY -/

/-- FILLDONE and FILLFAIL: a release at .dev, the end of the fill, the end of the generator. -/
def endGenM (e : State → Option (Nat × Nat)) : M Unit := do
  let s ← get
  match s.cur.x.gen with
  | none => M.trap (accessT 0)
  | some g => do
    releaseM .dev
    M.upd fun s' => endLanes 0 (endFill g.fill (e s) s')

def execFilldone (h : Hdr) : State → Host.Outcome State Fault Refusal :=
  runI h { uni := true, lates := latesRel } true fun _ => endGenM fun _ => none

def execFillfail (h : Hdr) (a : Opd) : State → Host.Outcome State Fault Refusal :=
  runI h { uni := true, srcs := [(a, 1)], lates := latesRel } true fun _ =>
    endGenM fun s => some (min ((src32 s none a).toNat % 256) 0xEF, 0xFFFFFFFF)

/-- FILLQRY: the state of the block that holds an address; it starts no fill (R347). -/
def execFillqry (h : Hdr) (acq : Bool) (d a : Opd) : State → Host.Outcome State Fault Refusal :=
  runI h { uni := true, srcs := [(a, 2)], dsts := [(d, 1)], opnd := 1 } false fun _ => do
    let s ← get
    let p := s.cur.pl
    let va := (src64 s none a).toNat
    match xlateLane s s.cur none .query va with
    | .busy => M.wait .busy
    | .bad x _ => M.trap (accessT x va)
    | .poison => M.trap (poisonT 0 va)
    | .ok t => do
      M.upd (noteUse none .query t)
      let found := if Pte.proc t.pte then rangeFor s p.part p.asid t.va else none
      match found with
      | some r =>
        if mapBusy s p.part p.asid r (r.blockOf t.va) then do
          M.upd (parkMap p.part p.asid r (r.blockOf t.va))
          M.wait .busy
        else pure ()
      | none => pure ()
      let st := match found with
        | some r => (blkState s p.part r (r.blockOf t.va)).map fun st => (r, st)
        | none => none
      match found, st with
      | some r, none => M.upd (disableRange p.part p.asid r.ix)
      | _, _ => pure ()
      let filled := match st with | some (_, x) => x == blkFilled | none => true
      if acq && filled then M.upd (acquire .dev) else pure ()
      let x := match st with
        | some (r, x) =>
          let mine := match s.cur.x.gen with
            | some g => g.asid == p.asid && g.range == r.ix && g.block == r.blockOf t.va
            | none => false
          x + 4 + (if mine then 8 else 0)
        | none => 2
      emitR (dst32 d none (BitVec.ofNat 32 x)) 0 (some 0)

/-! ## The directory (R341, R342) -/

/-- A request for the block that holds an address, by an agent that is no cohort. -/
def execFillRequest (part asid : Nat) (va : Dword) : State → Host.Outcome State Fault Refusal :=
  runE fun s =>
    match rangeFor s part asid (va.toNat % 2 ^ 57) with
    | some r => (askBlock part asid r (r.blockOf (va.toNat % 2 ^ 57)) none s).2
    | none => s

/-- KIND, block size, GENOVL and the address of the block in a fill's descriptor. -/
def Fill.rng (f : Fill) : Range := ⟨f.range, f.desc⟩
def Fill.va (f : Fill) : Nat := (fld f.desc 0 8 + f.block * f.rng.size) % 2 ^ 64

/-- Free reserved slots of a die (R342). -/
def freeReserved (s : State) (die : Nat) : Nat :=
  4096 - (s.cohorts.filter fun c => c.x.gen.isSome && c.pl.core / 1024 == die).length

/-- The generator cohort of a fill at its start (R296, R343): the last 64 rows of its partition's V registers, 16 KiB of the
last 64 KiB of the scratchpad. -/
def genCohort (s : State) (f : Fill) (pc : Pc) (core slotIx : Nat) : Cohort × State :=
  let (id, s) := s.fresh
  let (k, s) := s.draw
  let base := 0xB_0000 + 0x4000 * (slotIx / 8)
  let tbl := match tenant? s f.part f.asid with | some t => tProcTbl t | none => 0
  let w := fun (x : Nat) => [BitVec.ofNat 32 x, BitVec.ofNat 32 (x / 2 ^ 32)]
  let regs : List Word := w f.va ++ [BitVec.ofNat 32 f.rng.blklog, BitVec.ofNat 32 f.depth] ++ w (tbl + 64 * f.range) ++ w f.block
  let pl : Place := { Place.reset with
    id := id, core := core, slotIx := slotIx, part := f.part, asid := f.owner, priv := privOf s f.part f.owner, prio := 7
    spBase := base, spSize := 0x4000, entry := pc }
  let r : Regs := { Regs.reset with vregs := 64, vbase := 448, vfree := some k }
  let r := ((List.range 8).zip regs).foldl (fun (r : Regs) (n, x) => r.wrS n x) r
  let c : Ctl := { Ctl.reset with
    a := some ⟨true, pc, Mask.all, false⟩, readyAt := s.m.cycle, last := [s.m.cycle, s.m.cycle, s.m.cycle] }
  let x : Ext := { Ext.reset with gen := some { fill := f.id, asid := f.asid, owner := f.owner, range := f.range, block := f.block, depth := f.depth } }
  (⟨true, pl, r, c, x⟩, undefBytes (spPa core base) 0x4000 s)

/-- A fresh resident cohort is the issuing one when there is none. -/
def addCohort (c : Cohort) (s : State) : State :=
  if s.cur.resident then { s with others := s.others ++ [c] } else { s with cur := c }

/-- The directory starts the generator of a fill in a reserved slot of a core of its die: more than 7 − d slots must be free,
and deeper fills go first. A catalogue that gives no generator overlay fails the fill. -/
def execGeneratorStart (fill core slotIx : Nat) : State → Host.Outcome State Fault Refusal :=
  runE fun s =>
    match s.fills.find? fun f => f.id == fill && !f.started && f.rng.kind == 1 with
    | none => s
    | some f =>
      let deeper := s.fills.any fun g => g.die == f.die && !g.started && g.rng.kind == 1 && f.depth < g.depth
      let taken := s.cohorts.any fun c => c.pl.core == core && c.pl.slotIx == slotIx
      if deeper || taken || core / 1024 != f.die || slotIx % 8 != 7 || 32 ≤ slotIx || freeReserved s f.die ≤ 7 - f.depth then s
      else
        let g : Agent := ⟨f.part, f.owner, privOf s f.part f.owner, f.id, none, none, none⟩
        match readDesc g f.rng.genovl s with
        | .error (.wait s') => s'
        | .error _ => endFill fill (some (0xF2, 0xFFFFFFFF)) s
        | .ok (d, s) => match d with
          | some d =>
            if !d.gen then endFill fill (some (0xF2, 0xFFFFFFFF)) s
            else
              let s := { s with fills := s.fills.map fun x => if x.id == fill then { x with started := true } else x }
              let (c, s) := genCohort s f (Pc.mk f.rng.genovl d.genblk 0) core slotIx
              addCohort c s
          | none => endFill fill (some (0xF2, 0xFFFFFFFF)) s

/-! ## The built-in kinds (R346) -/

/-- The agent of a built-in fill: it works in OWNER's space, as the generator of its block. -/
def builtinAgent (s : State) (f : Fill) : Agent :=
  ⟨f.part, f.owner, privOf s f.part f.owner, f.id, none, some { fill := f.id, asid := f.asid, owner := f.owner, range := f.range, block := f.block, depth := f.depth }, none⟩

/-- A built-in fill: `x` answers the block's bytes, or none for malformed input. -/
def builtin (fill kind : Nat) (x : Fill → Agent → AM (Option (List Byte))) (s : State) : State :=
  match s.fills.find? fun f => f.id == fill && f.rng.kind == kind && f.done.isNone with
  | none => s
  | some f =>
    let g := builtinAgent s f
    let run : AM Bool := do
      let r ← x f g
      match r with
      | some bs => do
        g.write f.va bs
        pure true
      | none => pure false
    match run s with
    | .ok (true, s') => endFill fill none s'
    | .ok (false, s') => endFill fill (some (0xF5, 0xFFFFFFFF)) s'
    | .error (.wait s') => s'
    | .error (.gen c) => endFill fill (some (if c == Cause.recursive then 0xF3 else 0xF4, 0xFFFFFFFF)) s
    | .error _ => endFill fill (some (0xF6, 0xFFFFFFFF)) s

def execZeroFill (fill : Nat) : State → Host.Outcome State Fault Refusal :=
  runE (builtin fill 0 fun f _ => pure (some (List.replicate f.rng.size 0#8)))

/-- An LZ4 length extended by bytes of 255 and a last byte; the rest of the input. -/
def lz4Len : Nat → List Byte → Option (Nat × List Byte)
  | _, [] => none
  | n, b :: l => if b == 0xFF#8 then lz4Len (n + 255) l else some (n + b.toNat, l)

/-- A length nibble with its extension. -/
def lz4Nibble (n : Nat) (l : List Byte) : Option (Nat × List Byte) := if n == 15 then lz4Len 15 l else some (n, l)

/-- Copy n bytes from `off` bytes back; the output is held in reverse. -/
def lz4Copy (off : Nat) : Nat → List Byte → List Byte
  | 0, out => out
  | n + 1, out => lz4Copy off n (nth out (off - 1) 0#8 :: out)

/-- Decode an LZ4 block of exactly `size` bytes; the last sequence holds literals only. -/
def lz4 (size : Nat) : Nat → List Byte → List Byte → Option (List Byte)
  | 0, _, _ => none
  | _ + 1, [], _ => none
  | fuel + 1, t :: l, out =>
    match lz4Nibble (t.toNat / 16) l with
    | none => none
    | some (n, l) =>
      if l.length < n || size < out.length + n then none
      else
        let out := (l.take n).reverse ++ out
        match l.drop n with
        | [] => if out.length == size then some out.reverse else none
        | [_] => none
        | lo :: hi :: l =>
          let off := lo.toNat + 256 * hi.toNat
          if off == 0 || out.length < off then none
          else match lz4Nibble (t.toNat % 16) l with
            | none => none
            | some (m, l) => if size < out.length + m + 4 then none else lz4 size fuel l (lz4Copy off (m + 4) out)

/-- The LZ4 kind: the 16-byte entry of the block at SRCPTR names the compressed image. -/
def execLz4Fill (fill : Nat) : State → Host.Outcome State Fault Refusal :=
  runE (builtin fill 2 fun f g => do
    let e ← g.read (f.rng.srcptr + 16 * f.block) 16
    if fld e 12 4 != 0 then pure none
    else
      let img ← g.read (fld e 0 8) (fld e 8 4)
      pure (lz4 f.rng.size (img.length + 1) img []))

/-- The LZ4 sequence of literals ABCD and a match of 12 bytes four back. -/
theorem lz4_overlap : lz4 17 9 [0x48, 0x41, 0x42, 0x43, 0x44, 4, 0, 0x10, 0x45] []
    = some [0x41, 0x42, 0x43, 0x44, 0x41, 0x42, 0x43, 0x44, 0x41, 0x42, 0x43, 0x44, 0x41, 0x42, 0x43, 0x44, 0x45] := by
  decide +kernel

end Sys2Proof.Machine
end

