-- ==== Sys2Proof/Machine/Convert.lean ====
section
/-! DEFINITION. Conversions (R118 to R122). -/

namespace Sys2Proof.Machine

/-- Format codes of R118. -/
inductive CFmt where
  | flt (f : Fmt)
  | int (w : Nat) (signed : Bool)
  | e8m0
deriving DecidableEq, Repr

/-- The format of a code; the codes that R118 does not list do not occur in a well-formed word. -/
def cfmt (c : BitVec 5) : CFmt :=
  match c.toNat with
  | 1 => .flt .f64
  | 2 => .flt .f32
  | 3 => .flt .f16
  | 4 => .flt .bf16
  | 5 => .flt .e4m3
  | 6 => .flt .e5m2
  | 7 => .flt .e3m2
  | 8 => .flt .e2m3
  | 9 => .flt .e2m1
  | 10 => .int 8 true
  | 11 => .int 8 false
  | 12 => .int 4 true
  | 0x10 => .int 32 false
  | 0x11 => .int 32 true
  | 0x12 => .int 64 false
  | 0x13 => .int 64 true
  | 0x14 => .e8m0
  | 0x15 => .int 16 false
  | _ => .int 16 true

/-- The element format of a code (R121). -/
def efmt (c : BitVec 5) : Fmt :=
  match cfmt c with
  | .flt f => f
  | _ => .f32

/-- The source value of a conversion; a short immediate is its integer (R118). FTZ flushes a floating source (R68). -/
def cvtVal (s : State) (ln : Option Nat) (sf : BitVec 5) (ftz : Bool) (o : Opd) : Val :=
  match o, cfmt sf with
  | .imm x, .flt _ => Val.ofInt x.toInt
  | o, .flt f =>
    let c := srcN s ln (fmtRegs sf) o % 2 ^ f.w
    f.val (if ftz then f.ftz c else c)
  | o, .int w sg => Val.ofInt (intVal w sg (srcN s ln (fmtRegs sf) o))
  | o, .e8m0 => e8m0Val (src32 s ln o).toNat

/-- CVT (R119): the code in its destination format and its flags. -/
def cvtCode (m : CvtMod) (v : Val) : Nat × Flags :=
  match cfmt m.df, cfmt m.sf with
  | .flt f, _ => f.round m.rnd m.sat m.ftz v
  | .e8m0, _ => toE8m0 m.rnd v
  | .int w sg, .int _ _ =>
    match v with
    | .fin n k _ =>
      let x : Int := if n then -(k : Int) else k
      (wrapNat w (if m.sat then clampInt w sg x else x), 0)
    | _ => (0, 0)
  | .int w sg, _ => toInt m.rnd w sg v

def execCvt (h : Hdr) (m : CvtMod) (d a : Opd) : State → Host.Outcome State Fault Refusal :=
  runLanes h (.of d (fmtRegs m.df) [(a, fmtRegs m.sf)]) (some 4) fun s ln =>
    let r := cvtCode m (cvtVal s ln m.sf m.ftz a)
    (dstN d ln (fmtRegs m.df) r.1, r.2)

/-! ## Stochastic rounding (R120) -/

/-- |x| beyond the largest finite value of a format. -/
def Fmt.beyond (f : Fmt) (m : Nat) (e : Int) : Bool :=
  match f.val f.maxCode with
  | .fin _ k q => Val.lt (.fin false k q) (.fin false m e)
  | _ => false

/-- The choice of R120 for a value within the finite range: the code and its flags. -/
def Fmt.stoch (f : Fmt) (sat : Bool) (neg : Bool) (m : Nat) (e : Int) (r : Nat) : Nat × Flags :=
  let lo := (f.roundFin .rz false false false m e false).1
  match f.val lo with
  | .fin _ k q =>
    if Val.eq (.fin false k q) (.fin false m e) then (f.sgn neg + lo, 0)
    else
      -- lo and its neighbour differ by 2^q; t = floor((|x| − lo) / 2^q × 2^24)
      let z := min e q
      let dx : Int := Val.scaled false m e z - Val.scaled false k q z
      let t := (dx * 2 ^ 24 / 2 ^ (q - z).toNat).toNat
      let code := if r < t then lo + 1 else lo
      let uf := Val.lt (.fin false m e) (.fin false 1 (1 - (f.bias : Int)))
      let fl := Fl.inexact ||| (if uf then Fl.underflow else 0)
      if code > f.maxCode then (f.big .rne sat neg, fl ||| Fl.overflow) else (f.sgn neg + code, fl)
  | _ => (0, 0)

/-- CVTSR of a value with a random word (R120). -/
def cvtsr (f : Fmt) (sat ftz : Bool) (v : Val) (r : Nat) : Nat × Flags :=
  match v with
  | .fin neg m e =>
    if m == 0 then (f.sgn neg, 0)
    else if f.beyond m e then (f.big .rne sat neg, Fl.overflow ||| Fl.inexact)
    else
      let (c, fl) := f.stoch sat neg m e (r % 2 ^ 24)
      if ftz && f.sub c then (f.ftz c, fl ||| Fl.underflow ||| Fl.inexact) else (c, fl)
  | v => f.round .rne sat false v

def execCvtsr (h : Hdr) (m : CvtMod) (d a b : Opd) : State → Host.Outcome State Fault Refusal :=
  runLanes h (.of d 1 [(a, fmtRegs m.sf), (b, 1)]) (some 4) fun s ln =>
    let r := cvtsr (efmt m.df) m.sat m.ftz (cvtVal s ln m.sf m.ftz a) (src32 s ln b).toNat
    (dstN d ln 1 r.1, r.2)

/-! ## Block-scaled rows (R121, R122) -/

/-- emax of R121. -/
def Fmt.emax (f : Fmt) : Int :=
  if f = .e4m3 then 8 else if f = .e5m2 then 15 else if f = .e3m2 then 4 else 2

/-- |v| of the larger of two finite values. -/
def maxMag (x y : Val) : Val := if Val.lt x.abs y.abs then y.abs else x.abs

/-- One block of CVTPK: the lanes' values (none: inactive) give the scale code, the element codes and the flags. -/
def packBlock (f : Fmt) (rm : Rnd) (vs : List (Option Val)) : Nat × List Nat × Flags :=
  let act := vs.filterMap id
  let amax := act.foldl maxMag (.fin false 0 0)
  if act.any fun v => v.isNan || v.isInf then (0xFF, vs.map fun _ => 0, sigFlag act)
  else match amax with
    | .fin _ 0 _ => (0x7F, vs.map fun _ => 0, 0)
    | .fin _ k q =>
      let se := max (-127) (min 127 (lead k + q - f.emax))
      let rs := vs.map fun v => match v with
        | some (.fin n m e) => f.round rm true false (.fin n m (e - se))
        | _ => (0, 0)
      ((se + 127).toNat, rs.map Prod.fst, joinFlags (rs.map Prod.snd))
    | _ => (0xFF, vs.map fun _ => 0, 0)

/-- Codes of width `w` packed from element 0 up (R61). -/
def packBits (w : Nat) : List Nat → Nat
  | [] => 0
  | c :: l => c % 2 ^ w + 2 ^ w * packBits w l

/-- The block that lanes `lo` to `lo + n` form. -/
def packPart (s : State) (m : CvtMod) (act : Mask) (a : Opd) (lo n : Nat) : Nat × List Nat × Flags :=
  packBlock (efmt m.df) m.rnd ((List.range n).map fun j =>
    if act.has (lo + j) then some (cvtVal s (some (lo + j)) m.sf m.ftz a) else none)

/-- CVTPK: the packed row goes to the first lanes of D whatever their activity, the scale codes to the S register B; in
lane form, with a P guard. -/
def execCvtpk (h : Hdr) (m : CvtMod) (d a b : Opd) : State → Host.Outcome State Fault Refusal :=
  runI h { srcs := [(a, 1)], dsts := [(d, 1), (b, 1)] } false fun act s =>
    let bl := if m.b16 then [packPart s m act a 0 16, packPart s m act a 16 16] else [packPart s m act a 0 32]
    let bits := packBits (efmt m.df).w (bl.flatMap (·.2.1))
    let ws := (List.range (efmt m.df).w).flatMap fun j => dst32 d (some j) (BitVec.ofNat 32 (bits / 2 ^ (32 * j)))
    emitR (ws ++ dst32 b none (BitVec.ofNat 32 (packBits 8 (bl.map (·.1))))) (joinFlags (bl.map (·.2.2))) (some 8) s

/-- Element i of the packed string of CVTUP; a short immediate is its 32-bit pattern in every lane (R118, R122). -/
def packedElem (s : State) (w : Nat) (a : Opd) (i : Nat) : Nat :=
  let word := fun j => (src32 s (some j) a).toNat
  let k := w * i / 32
  (word k + 2 ^ 32 * word (min 31 (k + 1))) / 2 ^ (w * i % 32) % 2 ^ w

def execCvtup (h : Hdr) (m : CvtMod) (d a b : Opd) : State → Host.Outcome State Fault Refusal :=
  let f := efmt m.sf
  runLanes h { srcs := [(a, 1), (b, 1)], dsts := [(d, 1)] } (some 8) fun s ln =>
    let i := ln.getD 0
    let c := packedElem s f.w a i
    let c := if m.ftz then f.ftz c else c
    let sc := (src32 s none b).toNat / 2 ^ (if m.b16 then 8 * (i / 16) else 0) % 256
    let r := if sc == 0xFF then (Fmt.f32.nanCode, 0)
      else Fmt.f32.fin1 .rne false m.ftz (Val.mul (f.val c) (e8m0Val sc)) false (sigFlag [f.val c])
    (dstN d ln 1 r.1, r.2)

end Sys2Proof.Machine
end

