-- ==== Sys2Proof/Machine/Placard.lean ====
section
/-! DEFINITION. Placards and the tiles they describe (R70 to R86): fields and CRC, the checks of R83, where the areas lie,
scales, stored rows as exact values, pairing and inference. -/

namespace Sys2Proof.Machine

/-- A placard with its fields decoded (R70); `rows` and `cols` are counts. -/
structure Plac where
  magic : Nat
  efmt : Nat
  slay : Nat
  sfmt : Nat
  spar : Nat
  rows : Nat
  cols : Nat
  pitch : Nat
  anchor : Int
  brot : Nat
  pinned : Bool
  transposed : Bool
  poisoned : Bool
  rsv : Bool
  soff : Nat
  moff : Nat
  crc : Nat
deriving DecidableEq, Repr

/-- The 16 bytes of a placard. -/
def plBytes (q : Qword) : List Byte := leBytes 16 q.toNat

/-- Bits [127:112] replaced by the CRC of R76. -/
def reCrc (q : Qword) : Qword :=
  let low := q.toNat % 2 ^ 112
  BitVec.ofNat 128 (low + crc16 (leBytes 14 low) * 2 ^ 112)

namespace Plac

def ofQ (q : Qword) : Plac :=
  let x := q.toNat
  { magic := nbits x 7 0, efmt := nbits x 13 8, slay := nbits x 17 14, sfmt := nbits x 20 18, spar := nbits x 23 21
    rows := nbits x 35 24 + 1, cols := nbits x 47 36 + 1, pitch := nbits x 63 48, anchor := sextInt 9 (nbits x 72 64)
    brot := nbits x 75 73, pinned := nbit x 76, transposed := nbit x 77, poisoned := nbit x 78, rsv := nbit x 79
    soff := nbits x 95 80, moff := nbits x 111 96, crc := nbits x 127 112 }

/-- The placard with its CRC computed. -/
def toQ (p : Plac) : Qword :=
  let b := fun (x : Bool) (k : Nat) => if x then 2 ^ k else 0
  reCrc (BitVec.ofNat 128 (p.magic + p.efmt * 2 ^ 8 + p.slay * 2 ^ 14 + p.sfmt * 2 ^ 18 + p.spar * 2 ^ 21
    + (p.rows - 1) * 2 ^ 24 + (p.cols - 1) * 2 ^ 36 + p.pitch * 2 ^ 48 + wrapNat 9 p.anchor * 2 ^ 64 + p.brot * 2 ^ 73
    + b p.pinned 76 + b p.transposed 77 + b p.poisoned 78 + b p.rsv 79 + p.soff * 2 ^ 80 + p.moff * 2 ^ 96))

/-! Element formats (R71). -/
def isFX (p : Plac) : Bool := p.efmt == 0x0E
def isVQ (p : Plac) : Bool := p.efmt == 0x0D
def isCBT (p : Plac) : Bool := p.efmt == 0x0F

/-- Bits per element (R71). -/
def bits (p : Plac) : Nat := nth [0, 64, 32, 16, 16, 8, 8, 6, 6, 4, 8, 8, 4, 2, 64, 4] p.efmt 0

/-- The floating-point format of codes 1 to 9, and of the weights of VQ2. -/
def fmt? (p : Plac) : Option Fmt :=
  if p.isVQ then some .e2m1
  else nth [none, some .f64, some .f32, some .f16, some .bf16, some .e4m3, some .e5m2, some .e3m2, some .e2m3, some .e2m1]
    p.efmt none

/-- Width and sign of the integer formats. -/
def int? (p : Plac) : Option (Nat × Bool) :=
  if p.efmt == 0x0A then some (8, true) else if p.efmt == 0x0B then some (8, false)
  else if p.efmt == 0x0C then some (4, true) else none

/-! Extents and areas (R72, R77, R78). -/
def kext (p : Plac) : Nat := if p.transposed then p.rows else p.cols
def xext (p : Plac) : Nat := if p.transposed then p.cols else p.rows
/-- Elements that a row stores; a bitmap row stores fewer than COLS. -/
def stored (p : Plac) : Nat := if p.spar == 1 then p.cols / 2 else p.cols
def rowBytes (p : Plac) : Nat := ceilDiv (p.stored * p.bits) 8
/-- Bytes from one stored row to the next. -/
def rowPitch (p : Plac) : Nat := if p.isCBT then 4 else 16 * p.pitch
/-- Elements under one block scale; 0 where scales are not by block. -/
def blk (p : Plac) : Nat := if p.slay == 1 then 32 else if p.slay == 2 || p.slay == 5 then 16 else 0
/-- Bytes of one block scale. -/
def scBytes (p : Plac) : Nat := if p.slay == 3 || p.slay == 4 then 4 else 1
/-- Packed block scales of one line across K. -/
def lineBytes (p : Plac) : Nat := ceilDiv p.kext p.blk * p.scBytes
/-- Where the element area ends, from the base. -/
def elemEnd (p : Plac) : Nat := 16 + p.rows * p.rowPitch
def scaleOff (p : Plac) : Nat := p.elemEnd + 16 * p.soff
def scaleLen (p : Plac) : Nat :=
  if p.isFX then 16 * p.rows
  else if p.blk != 0 then p.xext * (16 * ceilDiv p.lineBytes 16) + (if p.slay == 5 then 16 else 0)
  else if p.slay == 3 then 4 * p.xext
  else if p.slay == 4 then 4 else 0
def metaOff (p : Plac) : Nat := p.elemEnd + 16 * p.moff
def metaStride (p : Plac) : Nat := 16 * ceilDiv p.cols 128
def metaLen (p : Plac) : Nat := if p.spar == 0 then 0 else p.rows * p.metaStride
/-- Where the tile's last area ends. -/
def endOff (p : Plac) : Nat :=
  max p.elemEnd (max (if p.scaleLen == 0 then 0 else p.scaleOff + p.scaleLen)
    (if p.metaLen == 0 then 0 else p.metaOff + p.metaLen))
/-- Offset of the 16-byte chunk c of stored row m (R77). -/
def chunkOff (p : Plac) (m c : Nat) : Nat := 16 + m * p.rowPitch + 16 * (c ^^^ (m % 2 ^ p.brot))
/-- Offset and length of a line's scales in the scale area. -/
def linePos (p : Plac) (line : Nat) : Nat × Nat :=
  if p.blk != 0 then ((if p.slay == 5 then 16 else 0) + line * (16 * ceilDiv p.lineBytes 16), p.lineBytes)
  else if p.slay == 3 then (4 * line, 4) else if p.slay == 4 then (0, 4) else (0, 0)

/-! Registers of a register tile (R80). -/

/-- V registers that hold a line's scales. -/
def scRegs (p : Plac) : Nat :=
  if p.blk != 0 then ceilDiv p.lineBytes 4 + (if p.slay == 5 then 1 else 0) else if p.slay == 3 || p.slay == 4 then 1 else 0
def metaRegs (p : Plac) : Nat := if p.spar == 1 then 4 * ceilDiv p.cols 128 else 0
/-- First register and count of the scale and the metadata registers. -/
def spans (p : Plac) : List (Nat × Nat) :=
  (if p.scRegs == 0 then [] else [(p.soff % 256, p.scRegs)]) ++ (if p.metaRegs == 0 then [] else [(p.moff % 256, p.metaRegs)])

end Plac

/-- Do two ranges (start, length) overlap? -/
def overlaps (a b : Nat × Nat) : Bool := a.1 < b.1 + b.2 && b.1 < a.1 + a.2

/-! ## The checks of R83 -/

namespace Plac

/-- Detail 4: the codes in use. -/
def codesOk (p : Plac) : Bool :=
  1 ≤ p.efmt && p.efmt ≤ 15 && p.slay ≤ 5 && p.sfmt ≤ 3 && p.spar ≤ 2 && !p.rsv

/-- Detail 5: R73 and R74. -/
def combOk (p : Plac) : Bool :=
  let sc := [p.slay, p.sfmt]
  (if p.isVQ then p.slay == 1 || p.slay == 4
   else if [1, 2, 14, 15].contains p.efmt then sc == [0, 0]
   else if [3, 4, 10, 11, 12].contains p.efmt then [[0, 0], [3, 3], [4, 3]].contains sc
   else [[0, 0], [1, 1], [2, 1], [2, 2], [3, 3], [4, 3], [5, 2]].contains sc)
  && (p.spar == 0 || (!p.transposed && [3, 4, 5, 6, 7, 8, 9, 10, 11, 12].contains p.efmt))

/-- Detail 6: R79, R80; the element group, where the instruction names one. -/
def regOk (p : Plac) (group : Option Nat) : Bool :=
  p.rows ≤ 32 && p.rowBytes ≤ 64 && p.pitch == 4 && p.brot == 0 && !p.transposed && p.spar ≤ 1 && p.soff < 256 && p.moff < 256
    && (match p.spans with | [a, b] => !overlaps a b | _ => true)
    && (match group with | some g => !p.spans.any (overlaps (g, 16)) | none => true)

/-- Detail 7: R72, R74, R77 and the geometry of R65; so too a SPAR 1 tile whose COLS is no multiple of 4 or whose kept elements are no whole
number of bytes, for which R83 names no detail (log 58). -/
def shapeOk (p : Plac) (reg : Bool) : Bool :=
  p.cols * p.bits % 8 == 0
    && (p.spar != 1 || (p.cols % 4 == 0 && p.stored * p.bits % 8 == 0))
    && (!p.isVQ || (p.cols % 8 == 0 && !p.transposed))
    && (if p.isCBT then p.rows == 256 && p.cols == 8 && p.pitch == 0 else p.spar == 2 || p.rowBytes ≤ 16 * p.pitch)
    && p.pitch % 2 ^ p.brot == 0
    && (reg || p.scaleLen == 0 || p.metaLen == 0 || !overlaps (p.scaleOff, p.scaleLen) (p.metaOff, p.metaLen))

end Plac

/-- The per-placard checks of R83 in order: the first failing detail, or 0. `inp`: the placard of an input (R84); `reg`: of
a register tile (R82), with its element group. -/
def plCheck (q : Qword) (inp reg : Bool) (group : Option Nat := none) : Nat :=
  let p := Plac.ofQ q
  if p.magic != 0xA7 then 1
  else if crc16 (leBytes 14 q.toNat) != p.crc then 2
  else if inp && p.poisoned then 3
  else if !p.codesOk then 4
  else if !p.combOk then 5
  else if reg && !p.regOk group then 6
  else if !p.shapeOk reg then 7
  else 0

/-- A placard fault (R83). -/
def placT (d opnd : Nat) : Trap := { cause := Cause.placard, detail := d, opnd := opnd }

/-! ## Scales and rows (R61, R64, R73, R74) -/

/-- A scale that is negative, −0 or NaN counts as NaN. -/
def posScale (v : Val) : Val := if v.isNan || v.neg? then Val.qnan else v

/-- The value of a scale code. -/
def Plac.scaleVal (p : Plac) (c : Nat) : Val :=
  if p.scBytes == 4 then posScale (Fmt.f32.val (c % 2 ^ 32))
  else if p.sfmt == 2 && !p.isVQ then posScale (Fmt.e4m3.val (c % 256))
  else e8m0Val c

/-- The scales of a line across K from its packed bytes; under TWO each is multiplied by the tile scale (R73). -/
def Plac.lineScales (p : Plac) (bs : List Byte) (tile : List Byte) : List Val :=
  if p.slay == 0 then [Val.one]
  else
    let l := (List.range (bs.length / p.scBytes)).map fun k => p.scaleVal (fld bs (k * p.scBytes) p.scBytes)
    if p.slay == 5 then
      let t := posScale (Fmt.f32.val (leNat (tile.take 4)))
      l.map fun v => (Val.mul v t).1
    else l

/-- The scale of element k along K. -/
def Plac.pick (p : Plac) (l : List Val) (k : Nat) : Val :=
  if p.blk == 0 then nth l 0 Val.one else nth l (k / p.blk) Val.one

/-- The decoded element of a code, flushed under FTZ (R68). -/
def Plac.elem (p : Plac) (ftz : Bool) (c : Nat) : Val :=
  match p.fmt?, p.int? with
  | some f, _ => f.val (if ftz then f.ftz c else c)
  | none, some (w, sg) => Val.ofInt (intVal w sg c)
  | none, none => Val.ofInt (sextInt p.bits c)

/-- Element times scale, exactly (R73); the flag says that the element was a signalling NaN. -/
def scaled (e s : Val) : Val := match e with
  | .nan sg n => .nan sg n
  | e => (Val.mul e s).1

/-- The columns that a row's metadata marks present (R74, R78); a bad 2:4 nibble is detail 11. -/
def Plac.present (p : Plac) (md : Nat) : Except Nat (List Nat) :=
  if p.spar == 1 then
    let nib := fun g => md / 16 ^ g % 16
    if (List.range (p.cols / 4)).any fun g => nib g / 4 ≤ nib g % 4 then .error 11
    else .ok ((List.range (p.cols / 4)).flatMap fun g => [4 * g + nib g % 4, 4 * g + nib g / 4])
  else if p.spar == 2 then .ok ((List.range p.cols).filter (nbit md))
  else .ok (List.range p.cols)

/-- A weight of a VQ2 row (R64). -/
def vqWeight (row : Nat) (cb : Nat → Word) (j : Nat) : Val :=
  let ix := row / 2 ^ (16 * (j / 8)) % 2 ^ 16
  match Fmt.e2m1.val ((cb (ix / 256)).toNat / 16 ^ (j % 8) % 16) with
  | .fin _ m e => .fin (nbit ix (j % 8)) m e
  | v => v

/-- The value of each column of a stored row, none where absent: `row` is the row's bit string, `room` its bytes, `sc` the
scale of a column. A bitmap row that exceeds its room is detail 7. -/
def Plac.rowVals (p : Plac) (row room md : Nat) (sc : Nat → Val) (cb : Nat → Word) (ftz : Bool := false) :
    Except Nat (List (Option Val)) :=
  if p.isVQ then .ok ((List.range p.cols).map fun j => some (scaled (vqWeight row cb j) (sc j)))
  else match p.present md with
    | .error d => .error d
    | .ok js =>
      if p.spar == 2 && 8 * room < js.length * p.bits then .error 7
      else .ok ((List.range p.cols).map fun j =>
        match js.findIdx? (· == j) with
        | some k => some (scaled (p.elem ftz (row / 2 ^ (p.bits * k) % 2 ^ p.bits)) (sc j))
        | none => none)

/-! ## Encoding values (R66, R67) -/

/-- A value as a code of an element format, with the flags. -/
def Plac.code (p : Plac) (rm : Rnd) (sat ftz : Bool) (v : Val) : Nat × Flags :=
  match p.fmt?, p.int? with
  | some f, _ => f.round rm sat ftz v
  | none, some (w, sg) => toInt rm w sg v
  | none, none => (0, 0)

/-! ## Pairing and inference (R85, R86) -/

/-- Groups of R85: 0 sixteen-bit, 1 FP8, 2 FP6 and FP4, 3 VQ2, 4 integer. -/
def Plac.group (p : Plac) : Nat := nth [9, 9, 9, 0, 0, 1, 1, 2, 2, 2, 4, 4, 4, 3, 9, 9] p.efmt 9

/-- K per pass in stored elements and clocks of a pair (R85). -/
def pairOf (a b : Plac) : Option (Nat × Nat) :=
  let x := min a.group b.group
  let y := max a.group b.group
  if x == 0 && y == 0 then some (32, 16)
  else if x == 1 && y ≤ 2 then some (64, 16)
  else if x == 2 && y == 2 then some (128, 16)
  else if x == 1 && y == 3 then some (256, 32)
  else if x == 4 && y == 4 then some (64, 16)
  else none

/-- Pairing with the sparsity rule of MMA or MMASP: logical K per pass and clocks. -/
def pairing (sparse : Bool) (a b : Plac) : Option (Nat × Nat) :=
  let ok := if sparse then (a.spar == 1 && b.spar == 0) || (a.spar == 0 && b.spar == 1) else a.spar == 0 && b.spar == 0
  if !ok then none else (pairOf a b).map fun (k, c) => (if sparse then 2 * k else k, c)

/-- The anchor rule of R86: ANCHOR and PINNED, or detail 10. -/
def inferAnchor (a b : Plac) : Except Nat (Int × Bool) :=
  if a.pinned && b.pinned then if a.anchor == b.anchor then .ok (a.anchor, true) else .error 10
  else if a.pinned then .ok (a.anchor, true)
  else if b.pinned then .ok (b.anchor, true)
  else .ok (0, false)

/-- The FX64 placard inferred for a product or a sum (R86), or the failing detail. -/
def inferPl (sum : Bool) (a b : Plac) : Except Nat Plac :=
  let ok := if sum then a.rows == b.rows && a.cols == b.cols else a.kext == b.kext
  let rows := if sum then a.rows else a.xext
  let cols := if sum then a.cols else b.xext
  if !ok then .error 9
  else match inferAnchor a b with
    | .error d => .error d
    | .ok (an, pin) => .ok {
        magic := 0xA7, efmt := 0x0E, slay := 0, sfmt := 0, spar := 0, rows := rows, cols := cols, pitch := ceilDiv cols 2
        anchor := an, brot := 0, pinned := pin, transposed := false, poisoned := false, rsv := false, soff := 0, moff := 0
        crc := 0 }

/-! ## PLSET to PLINFER (R156 to R159) -/

/-- Low bit and width of a field (R155). -/
def plField (f : Nat) : Nat × Nat :=
  nth [(0, 128), (8, 6), (14, 4), (18, 3), (21, 3), (24, 12), (36, 12), (48, 16), (64, 9), (73, 3), (76, 4), (80, 16), (96, 16),
    (0, 128)] f (0, 0)

/-- The placard register that an operand names. -/
def srcPL (s : State) (o : Opd) : Qword :=
  match o with
  | .pl n => s.cur.r.rdPL n.toNat
  | _ => 0#128

def dstPL (d : Opd) (x : Qword) : List Wr :=
  match d with
  | .pl n => [.pl n.toNat x]
  | _ => []

def execPlset (h : Hdr) (field : BitVec 4) (d a b : Opd) : State → Host.Outcome State Fault Refusal :=
  let f := field.toNat
  let whole := f == 0 || f == 13
  runI h { uni := true, srcs := [(a, if whole then 4 else 1)] } false fun _ => do
    let s ← get
    let (lo, w) := plField f
    let q := if whole then src128 s none a
      else
        let x := (srcPL s b).toNat
        let v := (src32 s none a).toNat % 2 ^ w
        BitVec.ofNat 128 (x - nbits x (lo + w - 1) lo * 2 ^ lo + v * 2 ^ lo)
    emitR (dstPL d (if f == 13 then q else reCrc q)) 0 (some 4)

def execPlget (h : Hdr) (field : BitVec 4) (d a : Opd) : State → Host.Outcome State Fault Refusal :=
  let f := field.toNat
  runI h { uni := true, dsts := [(d, if f == 0 then 4 else 1)] } false fun _ => do
    let s ← get
    let (lo, w) := plField f
    let x := nbits (srcPL s a).toNat (lo + w - 1) lo
    emitR (dstN d none (if f == 0 then 4 else 1) (if f == 8 then wrapNat 32 (sextInt 9 x) else x)) 0 (some 4)

/-- The placard that an operand names, read once and checked (R81, R83). -/
def checkedPl (q : Qword) (inp reg : Bool) (group : Option Nat) (opnd : Nat) : M Plac := do
  let d := plCheck q inp reg group
  M.trapIf (d != 0) (placT d opnd)
  pure (Plac.ofQ q)

def execPlchk (h : Hdr) (trap reg : Bool) (d a : Opd) : State → Host.Outcome State Fault Refusal :=
  runI h { uni := true, dsts := [(d, 1)] } false fun _ => do
    let s ← get
    let r := plCheck (srcPL s a) true reg
    M.trapIf (trap && r != 0) (placT r 1)
    emitR (dst32 d none (BitVec.ofNat 32 r)) 0 (some 4)

/-- The inferred placard; a failing cross-check raises its detail. -/
def inferM (sum : Bool) (a b : Plac) : M Plac :=
  match inferPl sum a b with
  | .ok p => pure p
  | .error d => M.trap (placT d 0)

def execPlinfer (h : Hdr) (sum : Bool) (d a b : Opd) : State → Host.Outcome State Fault Refusal :=
  runI h { uni := true } false fun _ => do
    let s ← get
    let pa ← checkedPl (srcPL s a) true false none 1
    let pb ← checkedPl (srcPL s b) true false none 2
    if sum then M.trapIf (!pa.isFX || !pb.isFX) (placT 8 0)
    else M.trapIf (pairing ((pa.spar == 1) != (pb.spar == 1)) pa pb).isNone (placT 8 0)
    let p ← inferM sum pa pb
    emitR (dstPL d p.toQ) 0 (some 4)

end Sys2Proof.Machine
end

