-- ==== Sys2Proof/Machine/Tile.lean ====
section
/-! DEFINITION. Tiles in memory and in registers as instructions read and write them (R77 to R82, R154): spans of bytes in the
own scratchpad or in global memory, stored rows, scales and metadata. -/

namespace Sys2Proof.Machine

/-! ## Spans of bytes -/

/-- The 16-byte units of [a, a + n): address and bytes. -/
def pieces (a n : Nat) : List (Nat × Nat) :=
  (List.range (ceilDiv n 16)).map fun k => ((a + 16 * k) % 2 ^ 64, min 16 (n - 16 * k))

/-- Address check and translation of a piece. -/
def resolvePiece (spad : Bool) (acc : Acc) (s : State) (a n : Nat) : LaneAcc :=
  ⟨none, a, if spad then ownAt s.cur n a else resolve .glob acc false 1 s none a⟩

/-- The checks of some pieces before anything is read or written: suspension, the scoreboard, the log, then the lowest
fault. -/
def checkPieces (spad : Bool) (acc : Acc) (opnd : Nat) (ps : List (Nat × Nat)) : M (List (LaneAcc × Nat)) := do
  let s ← get
  let ls := ps.map fun (x, k) => (resolvePiece spad acc s x k, k)
  suspendM (ls.map (·.1))
  M.waitUntil .scoreboard fun s => !ls.any fun (l, k) => sbStall s (acc != .store) (acc != .load) k l
  M.waitUntil .log fun s => !ls.any fun (l, k) => logStall s (if spad then .own else .glob) k l
  M.waitUntil .parked fun s => !ls.any fun (l, k) => l.behind s k
  let s ← get
  let bad := ls.filterMap fun (l, _) => match l.st with
    | .fault t => some (l.addr, t)
    | .at_ _ _ => if l.ask s == Ask.failed then some (l.addr, genFaultT s l.addr) else none
    | _ => none
  match bad.foldl (fun (b : Option (Nat × Trap)) x => match b with
    | none => some x
    | some y => if x.1 < y.1 then some x else some y) none with
  | some (_, t) => M.trap { t with opnd := opnd }
  | none =>
    M.upd (noteLanes acc (ls.map (·.1)))
    pure ls

/-- The same for a span. -/
def checkSpan (spad : Bool) (acc : Acc) (opnd a n : Nat) : M (List (LaneAcc × Nat)) :=
  checkPieces spad acc opnd (pieces a n)

/-- The request that parks for an access of a whole instruction: it performs nothing itself, and the instruction waits for
its sector. -/
def tileReq (s : State) : Req := .store s.cur.pl.id none [] s.cur.pc

/-- Read one piece; a poisoned sector parks the instruction (R399). -/
def readPiece (sc : Scope) (ca : Cache) (l : LaneAcc) (n : Nat) : M (List Byte) := fun s =>
  match loadAt l.loc l.addr n sc ca s.cur.smask (tileReq s) s with
  | (.val bs, s') => .ok (bs, s')
  | (.parked, s') =>
    let again := s.parked.any fun q => q.pa == l.pa / 64 * 64 && q.req == tileReq s
    M.wait .parked (if again then s else s')
  | (.fault t, s') => M.trap t s'

/-- Read a span. -/
def readSpan (spad : Bool) (sc : Scope) (ca : Cache) (opnd a n : Nat) : M (List Byte) := do
  let ls ← checkSpan spad .load opnd a n
  let bs ← M.mapL ls fun (l, k) => readPiece sc ca l k
  pure bs.flatten

/-- No byte of a span lies in a live barrier word (R325). -/
def checkLive (ls : List (LaneAcc × Nat)) : M Unit := fun s =>
  match ls.find? fun (l, k) => match l.loc with
    | .dram pa _ | .chip pa => s.touchesLive pa k
    | _ => false with
  | some (l, _) => M.trap (clobberT l.addr) s
  | none => .ok ((), s)

/-- A poisoned sector that a store at the home would meet parks the instruction before any byte is written, so that its stores keep
their order (R173, R399). -/
def openSector (sc : Scope) (ca : Cache) (l : LaneAcc) : M Unit := fun s =>
  match l.loc with
  | .dram pa die =>
    if l1Served sc ca || !s.poisoned pa then .ok ((), s)
    else if s.parked.any fun q => q.pa == pa / 64 * 64 && q.req == tileReq s then M.wait .parked s
    else M.wait .parked (parkReq s.cur.pl.part pa die l.addr s.cur.smask 0x0041 (tileReq s) s)
  | _ => .ok ((), s)

/-- Write bytes at an address inside a span that has been checked. -/
def writePiece (spad : Bool) (sc : Scope) (ca : Cache) (a : Nat) (bs : List Byte) : M Unit := fun s =>
  let l := resolvePiece spad .store s a bs.length
  let req := Req.store s.cur.pl.id none (((List.range bs.length).map (l.pa + ·)).zip bs) s.cur.pc
  match storeAt l.loc a bs sc ca s.cur.smask req s with
  | (.fault t, s') => M.trap t s'
  | (_, s') => .ok ((), s')

/-- Write bytes that may cross 16-byte units; the address is a multiple of 16. -/
def writeBytes (spad : Bool) (sc : Scope) (ca : Cache) (a : Nat) (bs : List Byte) : M Unit :=
  M.each ((List.range (ceilDiv bs.length 16)).map fun k => (k, (bs.drop (16 * k)).take 16)) fun (k, b) =>
    writePiece spad sc ca ((a + 16 * k) % 2 ^ 64) b

/-! ## Rows, scales and metadata of a memory tile; `rd o n` reads n bytes at offset o from its base -/

abbrev TileRd := Nat → Nat → List Byte

/-- Bytes of a row that are read. -/
def Plac.rowLen (p : Plac) : Nat := if p.spar == 2 then p.rowPitch else p.rowBytes

/-- A stored row as a number, its rotation undone (R77). -/
def memRow (p : Plac) (rd : TileRd) (m : Nat) : Nat :=
  if p.isCBT then leNat (rd (16 + 4 * m) 4)
  else leNat (((List.range (ceilDiv p.rowLen 16)).flatMap fun c => rd (p.chunkOff m c) 16).take p.rowLen)

/-- The scales of a line across K. -/
def memScales (p : Plac) (rd : TileRd) (line : Nat) : List Val :=
  let (o, n) := p.linePos line
  p.lineScales (rd (p.scaleOff + o) n) (if p.slay == 5 then rd p.scaleOff 4 else [])

/-- The metadata of a stored row. -/
def memMeta (p : Plac) (rd : TileRd) (m : Nat) : Nat :=
  if p.spar == 0 then 0 else leNat (rd (p.metaOff + m * p.metaStride) (ceilDiv p.cols 8))

/-- An element with its scale; none where absent. -/
abbrev Cell := Option (Val × Val)

/-- The elements of a stored row with their scales. -/
def memRowCells (p : Plac) (rd : TileRd) (cb : Nat → Word) (lines : List (List Val)) (m : Nat) : Except Nat (List Cell) :=
  let sc := fun j => if p.transposed then p.pick (nth lines j []) m else p.pick (nth lines m []) j
  match p.rowVals (memRow p rd m) p.rowPitch (memMeta p rd m) sc cb with
  | .error d => .error d
  | .ok l => .ok (((List.range p.cols).zip l).map fun (j, v) => v.map fun v => (v, sc j))

/-- All stored rows, in order; the first that fails stops. -/
def exceptAll {α : Type} : List (Except Nat α) → Except Nat (List α)
  | [] => .ok []
  | .error d :: _ => .error d
  | .ok x :: l => match exceptAll l with
    | .error d => .error d
    | .ok r => .ok (x :: r)

/-- The lines across K of a memory tile, each with its elements along K. -/
def memLines (p : Plac) (rd : TileRd) (cb : Nat → Word) : Except Nat (List (List Cell)) :=
  let lines := (List.range p.xext).map (memScales p rd)
  match exceptAll ((List.range p.rows).map (memRowCells p rd cb lines)) with
  | .error d => .error d
  | .ok rows =>
    .ok (if p.transposed then (List.range p.cols).map fun j => rows.map fun r => nth r j none else rows)

/-! ## Register tiles; `rg r m` reads V register r in lane m -/

abbrev RegRd := Nat → Nat → Word

/-- Registers r to r + n − 1 of a lane as bytes. -/
def laneBytes (rg : RegRd) (r n m : Nat) : List Byte := (List.range n).flatMap fun k => leBytes 4 (rg (r + k) m).toNat

/-- The scales of lane m (R80). -/
def regScales (p : Plac) (rg : RegRd) (m : Nat) : List Val :=
  let r := p.soff % 256
  if p.slay == 0 then [Val.one]
  else if p.slay == 4 then p.lineScales (laneBytes rg r 1 0) []
  else if p.slay == 3 then p.lineScales (laneBytes rg r 1 m) []
  else
    let r1 := if p.slay == 5 then r + 1 else r
    p.lineScales ((laneBytes rg r1 (ceilDiv p.lineBytes 4) m).take p.lineBytes) (laneBytes rg r 1 0)

def regMeta (p : Plac) (rg : RegRd) (m : Nat) : Nat :=
  if p.spar == 0 then 0 else leNat (laneBytes rg (p.moff % 256) p.metaRegs m)

/-- The elements of lane m of the register tile whose group begins at V a (R79). -/
def regRowCells (p : Plac) (rg : RegRd) (cb : Nat → Word) (a m : Nat) (ftz : Bool := false) : Except Nat (List Cell) :=
  let scs := regScales p rg m
  let sc := p.pick scs
  match p.rowVals (leNat (laneBytes rg a 16 m)) 64 (regMeta p rg m) sc cb ftz with
  | .error d => .error d
  | .ok l => .ok (((List.range p.cols).zip l).map fun (j, v) => v.map fun v => (v, sc j))

/-- Scale and metadata registers at or above the allocation (R80). -/
def spansBad (s : State) (p : Plac) : Bool := p.spans.any fun (r, n) => decide (s.cur.r.vregs < r + n)

/-- The V registers of the issuing cohort. -/
def ownRegs (s : State) : RegRd := s.cur.r.rdV

/-- Writes of a row string of n bytes into lane m of a group. -/
def rowWrites (d m n x : Nat) : List Wr :=
  (List.range (ceilDiv n 4)).map fun k => .v (d + k) m (BitVec.ofNat 32 (x / 2 ^ (32 * k)))

end Sys2Proof.Machine
end

