-- ==== Sys2Proof/Machine/Matrix.lean ====
section
/-! DEFINITION. The matrix engine (R133 to R153, R160 to R162, R169, R170, R300): accumulator tiles, passes, the reservation
table, MMA, MMASP, ZCLR, ZANCHOR, ZCHK, MWAIT and CBLOAD. -/

namespace Sys2Proof.Machine

/-! ## Accumulator tiles (R133, R145) -/

namespace Tile
def row (t : Tile) (m : Nat) : TRow := t.rows.get m TRow.zero
/-- The 64 cells of a row as integers. -/
def cellsOf (t : Tile) (m : Nat) : List Int := (List.range 64).map fun n => (t.cells.get (64 * m + n) 0#64).toInt
end Tile

/-- Sum of a row's cells modulo 2^64. -/
def checkOf (l : List Int) : Dword := BitVec.ofInt 64 (l.foldl (· + ·) 0)

/-- A row replaced: its cells modulo 2^64, CHECK their sum. -/
def Tile.setRow (t : Tile) (m : Nat) (cells : List Int) (r : TRow) : Tile :=
  { t with cells := ((List.range 64).zip cells).foldl (fun c (n, x) => c.set (64 * m + n) (BitVec.ofInt 64 x) 0#64) t.cells
           rows := t.rows.set m { r with check := checkOf cells } TRow.zero }

/-- The row's CHECK is the sum of its cells (R145). -/
def Tile.rowOk (t : Tile) (m : Nat) : Bool := (t.row m).check == checkOf (t.cellsOf m)

/-- Outside the 64-bit range. -/
def out64 (x : Int) : Bool := decide (x < -(2 ^ 63) ∨ 2 ^ 63 ≤ x)

/-- floor(x · 2^k). -/
def shiftInt (x k : Int) : Int := if 0 ≤ k then x * 2 ^ k.toNat else x / 2 ^ (-k).toNat

/-- Cells brought from one anchor to another: floor to the right, exact to the left (R142, R162, R167). -/
def bring (l : List Int) (fr dst : Int) : List Int × Bool :=
  let r := l.map fun x => shiftInt x (fr - dst)
  (r, r.any out64)

/-- A row re-anchored. -/
def Tile.reanchor (t : Tile) (m : Nat) (a : Int) : Tile :=
  let r := t.row m
  let (c, o) := bring (t.cellsOf m) r.anchor.toInt a
  t.setRow m c { r with anchor := BitVec.ofInt 9 a, ovf := r.ovf || o }

namespace State
/-- The tile of a quad by its number. -/
def tile (s : State) (quad n : Nat) : Tile := s.tiles.get (tileKey quad n) Tile.zero
def setTile (quad n : Nat) (t : Tile) (s : State) : State := { s with tiles := s.tiles.set (tileKey quad n) t Tile.zero }
/-- The quad of the issuing cohort. -/
def quad (s : State) : Nat := s.cur.pl.core / 4
end State

/-- The tile number that a Z operand names; the access check of R48 has found it bound. -/
def zTile (s : State) (z : Opd) : Nat := (s.cur.r.rdZ (Opd.ix z)).getD 0

/-- The tile of a Z operand of the issuing cohort. -/
def getTile (s : State) (z : Opd) : Tile := s.tile s.quad (zTile s z)
def putTile (z : Opd) (t : Tile) (s : State) : State := s.setTile s.quad (zTile s z) t

/-- The late record of a deferred pass fault (R147). -/
def passRec (s : State) (f : PassFault) : Rec :=
  { lateRec s.cur 0x0020 f.detail f.pc f.mask 0 with opnd := f.opnd, count := f.count }

/-- Take the issuing cohort's pending fault out of the tiles given, the first that holds one. -/
def takeFault (s : State) : List Nat → Option (PassFault × State)
  | [] => none
  | n :: l =>
    let t := s.tile s.quad n
    match t.faults.find? fun f => f.cohort == s.cur.pl.id with
    | some f => some (f, s.setTile s.quad n { t with faults := t.faults.filter fun f => f.cohort != s.cur.pl.id })
    | none => takeFault s l

/-- Deliver a pending fault of the issuing cohort on some tiles; in handler mode it stays pending (R392). -/
def deliverFault (tiles : List Nat) : M Unit := fun s =>
  if s.cur.c.hm then .ok ((), s)
  else match takeFault s tiles with
    | some (f, s') => M.late (passRec s f) s'
    | none => .ok ((), s)

/-- A Z instruction's place in the tile's order: the cohort's own passes on it have been granted, and every granted one has
retired (R134); then the cohort's pending fault is delivered. Until it has performed the cohort issues nothing else. -/
def zOrder (z : Opd) : M Unit := do
  M.upd fun s => s.updC fun c => { c with stage := .zwait }
  M.waitUntil .passes fun s => !s.passes.any fun p =>
    p.quad == s.quad && p.tile == zTile s z && (p.granted || p.cohort == s.cur.pl.id)
  let s ← get
  deliverFault [zTile s z]

def checksumT (opnd : Nat) : Trap := { cause := Cause.checksum, opnd := opnd }

/-- Verify rows of a tile (R145): a mismatch sets POISON and raises the checksum fault. -/
def verifyRows (z : Opd) (rows : List Nat) (opnd : Nat) : M Unit := fun s =>
  let t := getTile s z
  if rows.all t.rowOk then .ok ((), s) else M.trap (checksumT opnd) (putTile z { t with poison := true } s)

/-- The same, unless the tile's POISON is set. -/
def verifyUnlessPoison (z : Opd) (rows : List Nat) (opnd : Nat) : M Unit := do
  let s ← get
  if (getTile s z).poison then pure () else verifyRows z rows opnd

/-- All rows of a tile. -/
def allRows : List Nat := List.range 32

/-! ## Codebooks (R65, R140, R152) -/

def Codebook.zero : Codebook := ⟨none, []⟩
/-- Key of a slot of a quad. -/
def bookKey (quad slot : Nat) : Nat := 4 * quad + slot
/-- The patterns of the slot that a placard names as a launch reads them: all zero where it does not own the slot. -/
def bookWords (s : State) (quad : Nat) (launch : Option Nat) (p : Plac) : Map Word :=
  let b := s.books.get (bookKey quad (p.sfmt % 4)) Codebook.zero
  if b.owner.isSome && b.owner == launch then b.words else []
def bookOf (s : State) (quad : Nat) (launch : Option Nat) (p : Plac) : Nat → Word := fun k => (bookWords s quad launch p).get k 0#32

/-! ## Terms and their sums (R138, R141) -/

/-- What the terms of one cell give: flags NaN, +∞, −∞, one term out of range, and the sum. -/
structure Acc1 where
  nan : Bool := false
  pinf : Bool := false
  ninf : Bool := false
  big : Bool := false
  sum : Int := 0

/-- The exact value as a signed integer in units of 2^u, truncated toward −∞ (align_trunc, R55). -/
def alignTrunc (neg : Bool) (m : Nat) (e u : Int) : Int := shiftInt (if neg then -(m : Int) else m) (e - u)

/-- One term joins the sum in units of 2^u. -/
def Acc1.add (u : Int) (c : Acc1) (v : Val) : Acc1 :=
  match v with
  | .nan _ _ => { c with nan := true }
  | .inf false => { c with pinf := true }
  | .inf true => { c with ninf := true }
  | .fin n m e =>
    let q := alignTrunc n m e u
    { c with big := c.big || out64 q, sum := c.sum + q }

/-- The present terms of a row and a column (R138): products with their scale products. -/
def termsOf (a b : List Cell) : List (Val × Val) :=
  (a.zip b).filterMap fun (x, y) => match x, y with
    | some (v, sv), some (w, sw) => some ((Val.mul v w).1, (Val.mul sv sw).1)
    | _, _ => none

/-- Largest finite magnitude of an operand format as m · 2^e (R142). -/
def Plac.maxMag (p : Plac) : Nat × Int :=
  match p.fmt?, p.int? with
  | some f, _ => match f.val f.maxCode with
    | .fin _ m e => (m, e)
    | _ => (0, 0)
  | none, some (w, sg) => if sg then (1, (w : Int) - 1) else (2 ^ w - 1, 0)
  | none, none => (0, 0)

/-- floor(log2) + 1 of the largest of some positive finite values; none when there is none. -/
def boundOf (mm : Nat × Int) (l : List Val) : Option Int :=
  l.foldl (fun b v => match v with
    | .fin false m e =>
      if m == 0 then b
      else
        let x := lead (mm.1 * m) + mm.2 + e + 1
        match b with
        | none => some x
        | some y => some (max x y)
    | _ => b) none

/-! ## A pass on a tile (R137, R141 to R147) -/

/-- What a pass needs of its operands once decoded. -/
structure Plan where
  rows : List Nat
  /-- per row of `rows`, per column, the terms with their scale products -/
  terms : List (List (List (Val × Val)))
  mm : Nat × Int
  anchor : Int
  pinned : Bool

/-- The anchor and PINNED that a row takes (R142 to R144), or detail 10. -/
def Plan.target (p : Plan) (r : TRow) (ts : List (List (Val × Val))) : Except Nat (Int × Bool) :=
  if r.pinned then if p.pinned && r.anchor.toInt != p.anchor then .error 10 else .ok (r.anchor.toInt, true)
  else if p.pinned then .ok (p.anchor, true)
  else match boundOf p.mm (ts.flatMap fun l => l.map (·.2)) with
    | some b => .ok (if r.anchor.toInt < b then min b 255 else r.anchor.toInt, false)
    | none => .ok (r.anchor.toInt, false)

/-- R141 on one row whose anchor is set. -/
def applyRow (t : Tile) (m : Nat) (ts : List (List (Val × Val))) : Tile :=
  let r := t.row m
  let u := r.anchor.toInt - 43
  let cs := ts.map fun l => (l.map (·.1)).foldl (Acc1.add u) {}
  let old := t.cellsOf m
  let new := (List.range 64).map fun n => match cs[n]? with
    | some c => nth old n 0 + c.sum
    | none => nth old n 0
  let ovf := ((List.range 64).zip new).any fun (n, x) => match cs[n]? with
    | some c => c.big || out64 x
    | none => false
  let chk := r.check + BitVec.ofInt 64 (cs.foldl (fun s c => s + c.sum) 0)
  { t with cells := ((List.range 64).zip new).foldl (fun c (n, x) => c.set (64 * m + n) (BitVec.ofInt 64 x) 0#64) t.cells
           rows := t.rows.set m { r with nan := r.nan || cs.any (·.nan), pinf := r.pinf || cs.any (·.pinf)
                                         ninf := r.ninf || cs.any (·.ninf), ovf := r.ovf || ovf, check := chk } TRow.zero }

/-- A pass on a tile: the new tile, or the detail of the deferred pass fault. Every row is checked before any changes: one that is
re-anchored, or becomes pinned at the anchor it has, is verified first (R142, R144, R145). -/
def Plan.run (p : Plan) (t : Tile) : Except Nat Tile :=
  match exceptAll ((p.rows.zip p.terms).map fun (m, ts) => p.target (t.row m) ts) with
  | .error d => .error d
  | .ok tg =>
    let moves := fun (t : Tile) (m : Nat) (a : Int × Bool) => a.1 != (t.row m).anchor.toInt || a.2 != (t.row m).pinned
    let moved := (p.rows.zip tg).filter fun (m, a) => moves t m a
    if !t.poison && !moved.all fun (m, _) => t.rowOk m then .error 0x20
    else .ok (((p.rows.zip tg).zip p.terms).foldl (fun t ((m, a), ts) =>
      let t := if moves t m a then t.reanchor m a.1 else t
      let t := { t with rows := t.rows.set m { t.row m with pinned := a.2 } TRow.zero }
      applyRow t m ts) t)

/-- The captured registers of a pass. -/
def Pass.regRd (p : Pass) : RegRd := fun r m => p.regs.get (32 * r + m) 0#32

/-- Bytes of a core's scratchpad from an absolute offset. -/
def spRd (s : State) (core base : Nat) : TileRd := fun o n => s.bytes (spPa core (base + o)) n

/-- Decode a pass's operands as they stand. -/
def Pass.plan (s : State) (p : Pass) : Except Nat Plan :=
  let pa := Plac.ofQ p.pla
  let pb := Plac.ofQ p.plb
  let rows := (List.range pa.rows).filter p.mask.has
  let cbA := fun k => (nth p.cbs 0 []).get k 0#32
  let cbB := fun k => (nth p.cbs 1 []).get k 0#32
  match exceptAll (rows.map (regRowCells pa p.regRd cbA p.a)), memLines pb (spRd s p.core p.b) cbB, inferAnchor pa pb with
  | .ok as, .ok bs, .ok (an, pin) =>
    let (ma, ea) := pa.maxMag
    let (mb, eb) := pb.maxMag
    .ok ⟨rows, as.map fun a => bs.map (termsOf a), (ma * mb, ea + eb), an, pin⟩
  | .error d, _, _ => .error d
  | _, .error d, _ => .error d
  | _, _, .error d => .error d

/-- The operand that a pass fault concerns. -/
def passOpnd (detail : Nat) : Nat := if detail == 11 || detail == 7 then 2 else 0

/-- Hold a deferred pass fault: POISON set, the first kept, later ones counted (R147). -/
def holdFault (quad n cohort : Nat) (pc : Pc) (mask : Mask) (detail : Nat) (s : State) : State :=
  let t := s.tile quad n
  let t := { t with poison := true }
  let opnd := passOpnd detail
  let fs := if t.faults.any fun f => f.cohort == cohort then
      t.faults.map fun f => if f.cohort == cohort then { f with count := min 65535 (f.count + 1) } else f
    else if (match s.cohort? cohort with | some c => c.c.ending.isNone | none => false) then t.faults ++ [⟨cohort, pc, detail, opnd, mask, 0⟩] else t.faults
  s.setTile quad n { t with faults := fs }

/-- Remove a scoreboard entry of a copy or a pass (R17). -/
def sbDrop (owner : Nat) (s : State) : State := { s with sb := s.sb.filter fun e => e.owner != owner }

/-- A pass applies its terms and retires. A poisoned scratchpad word makes it fail as the datapath does (R401). -/
def retirePass (p : Pass) (s : State) : State :=
  let s1 := sbDrop p.id { s with passes := s.passes.filter fun x => x.id != p.id }
  let bad := spPoisoned s (spPa p.core p.b) (Plac.ofQ p.plb).endOff
  let r : Except Nat Tile := if bad then .error 0x21 else match p.plan s with
    | .error d => .error d
    | .ok pl => pl.run (s.tile p.quad p.tile)
  match r with
  | .ok t => s1.setTile p.quad p.tile t
  | .error d => failPass p d s1
where
  /-- The deferred fault of a pass, for its cohort or for what is left of its launch (R147). -/
  failPass (p : Pass) (d : Nat) (s : State) : State :=
    let s2 := holdFault p.quad p.tile p.cohort p.pc p.mask d s
    match s2.cohort? p.cohort with
    | some c => if c.c.ending.isSome then postLate p.cohort Cause.matrixPass d (passOpnd d) p.pc p.mask 0 0 s2 else s2
    | none => match p.launch.bind s2.launch? with
      | some l =>
        let r := { plainRec Cause.matrixPass d 0 0 with late := true, mask := p.mask, pc := p.pc, queue := l.queue }
        (s2.ring l.part r).2.updLaunch l.id fun x => { x with code := if x.code == 0 then 1 else x.code }
      | none => s2

/-- The granted pass of a quad applies its terms and retires. -/
def execPassExecute (quad : Nat) : State → Host.Outcome State Fault Refusal :=
  runE fun s => match s.passes.find? fun p => p.quad == quad && p.granted with
    | none => s
    | some p => retirePass p s

/-! ## Arbitration (R151, R300) -/

/-- Does a pass's B source meet a destination entry (R17)? -/
def heldBack (s : State) (p : Pass) : Bool :=
  s.sb.any fun e => e.dst && e.core == p.core && e.lo < p.b + (Plac.ofQ p.plb).endOff && p.b < e.hi

/-- Eligible passes of a quad (R300). -/
def eligible (s : State) (quad : Nat) : List Pass :=
  let w := s.passes.filter fun p => p.quad == quad && !p.granted
  w.filter fun p => !heldBack s p && !w.any fun q => q.cohort == p.cohort && q.id < p.id

/-- The pass that is granted next, if the engine can start one. -/
def nextPass (s : State) (quad : Nat) : Option Pass :=
  let el := eligible s quad
  let bal := (s.budget quad).balance
  let due := el.filter fun p => 256 ≤ p.age
  match due with
  | _ :: _ =>
    (due.foldl (fun (b : Option Pass) p => match b with
      | none => some p
      | some q => if q.age < p.age || (q.age == p.age && p.entry < q.entry) then some p else some q) none).filter
        fun p => p.u ≤ bal
  | [] =>
    let key := fun (p : Pass) => min 7 (p.prio + p.age / 64)
    let before := fun (p q : Pass) =>
      if key p != key q then decide (key q < key p)
      else if p.t != q.t then decide (p.t < q.t)
      else if p.age != q.age then decide (q.age < p.age)
      else decide (p.entry < q.entry)
    (el.filter fun p => p.u ≤ bal).foldl (fun (b : Option Pass) p => match b with
      | none => some p
      | some q => if before p q then some p else some q) none

/-- The engine of a quad, when idle, grants one pass. -/
def execPassGrant (quad : Nat) : State → Host.Outcome State Fault Refusal :=
  runE fun s =>
    if s.passes.any fun p => p.quad == quad && p.granted then s
    else match nextPass s quad with
      | none => s
      | some g =>
        let el := (eligible s quad).map (·.id)
        let b := s.budget quad
        { s with
          budgets := s.budgets.put quad { b with balance := b.balance - g.u }
          passes := s.passes.map fun p =>
            if p.id == g.id then
              { p with granted := true, cbs := [p.pla, p.plb].map fun q => bookWords s p.quad p.launch (Plac.ofQ q) }
            else if el.contains p.id then { p with age := p.age + 1 } else p }

/-! ## MMA and MMASP (R136, R160) -/

/-- Toggle estimate of B's element area (R150). -/
def toggles (rd : TileRd) (p : Plac) : Nat :=
  let area := p.rows * p.rowPitch
  let blkAt := fun j => leNat (rd (16 + 64 * j) (min 64 (area - 64 * j)))
  ((List.range 8).map fun j => popCount 512 (blkAt j ^^^ blkAt (j + 1))).foldl (· + ·) 0

/-- A span of the own scratchpad as an absolute offset of the core; outside the allocation it is an access trap (R154). -/
def spSpan (opnd off n : Nat) : M Nat := do
  let s ← get
  M.trapIf (decide (s.cur.pl.spSize < off + n)) { accessT 0 off with opnd := opnd }
  pure (s.cur.pl.spBase + off)

/-- A read of a core's scratchpad span waits for destination entries (R17). -/
def sbRead (base n : Nat) : M Unit :=
  M.waitUntil .scoreboard fun s => !s.sb.any fun e => e.dst && e.core == s.cur.pl.core && e.lo < base + n && base < e.hi

/-- The placard of a scratchpad tile, checked (R136 step 2, R154): its base, its bits. -/
def spPlacard (opnd off : Nat) : M (Nat × Qword) := do
  M.trapIf (off % 16 != 0) { cause := Cause.alignment, opnd := opnd, addr := off }
  let base ← spSpan opnd off 16
  sbRead base 16
  let s ← get
  M.trapIf (spPoisoned s (spPa s.cur.pl.core base) 16) { poisonT 1 off with opnd := opnd }
  pure (base, BitVec.ofNat 128 (leNat (spRd s s.cur.pl.core base 0 16)))

/-- Lowest table entry that is free. -/
def freeEntry (s : State) (quad : Nat) : Nat :=
  ((List.range 64).find? fun k => !s.passes.any fun p => p.quad == quad && p.entry == k).getD 64

/-- The registers that a pass captures. -/
def capture (s : State) (p : Plac) (a : Nat) : Map Word :=
  let rs := ((a, 16) :: p.spans).flatMap fun (r, n) => (List.range n).map (r + ·)
  rs.foldl (fun m r => (List.range 32).foldl (fun m l => m.set (32 * r + l) (s.cur.r.rdV r l) 0#32) m) []

/-- MMA and MMASP: the checks in the order of R136, then one pass is posted. -/
def mmaM (sparse : Bool) (d a b c : Opd) (act : Mask) : M Unit := do
  let s ← get
  let off := (src64 s none b).toNat
  M.trapIf (off % 16 != 0) { cause := Cause.alignment, opnd := 2, addr := off }
  let base ← spSpan 2 off 16
  let pa ← checkedPl (srcPL s c) true true (some (Opd.ix a)) 1
  M.trapIf (spansBad s pa) { accessT 0 with opnd := 1 }
  let (_, plb) ← spPlacard 2 off
  let pb ← checkedPl plb true false none 2
  match pairing sparse pa pb with
  | none => M.trap (placT 8 0)
  | some (kp, clocks) =>
    M.trapIf (pa.kext != pb.kext || decide (64 < pb.xext) || decide (kp < pa.kext)) (placT 9 0)
    let _ ← inferM false pa pb
    let rows := (List.range pa.rows).filter act.has
    M.trapIf (rows.any fun m => match pa.present (regMeta pa (ownRegs s) m) with | .error _ => true | .ok _ => false) (placT 11 1)
    let _ ← spSpan 2 off pb.endOff
    M.waitUntil .passes fun s => decide ((s.passes.filter fun p => p.quad == s.quad).length < 64)
    M.waitUntil .scoreboard fun s => decide ((s.sb.filter fun e => e.core == s.cur.pl.core).length < 32)
    M.upd fun s =>
      let (id, s) := s.fresh
      let t := toggles (spRd s s.cur.pl.core base) pb
      let p : Pass := {
        id := id, quad := s.quad, entry := freeEntry s s.quad, cohort := s.cur.pl.id, launch := s.cur.pl.launch
        prio := s.cur.pl.prio, core := s.cur.pl.core, pc := s.cur.pc, mask := act, tile := zTile s d
        regs := capture s pa (Opd.ix a), a := Opd.ix a, pla := srcPL s c, b := base, plb := plb, sparse := sparse, t := t
        u := clocks * (64 + t / 16), clocks := clocks, age := 0, granted := false }
      let e : Sb := ⟨s.cur.pl.core, base, base + pb.endOff, false, id⟩
      State.updCur { s with passes := s.passes ++ [p], sb := s.sb ++ [e] } Cohort.closeIdem

def mmaI (h : Hdr) (sparse : Bool) (d a b c : Opd) : State → Host.Outcome State Fault Refusal :=
  runI h { srcs := [(a, 16), (b, 2)], dsts := [(d, 1)] } false fun act =>
    if act == 0#32 then pure () else mmaM sparse d a b c act

def execMma (h : Hdr) (d a b c : Opd) : State → Host.Outcome State Fault Refusal := mmaI h false d a b c
def execMmasp (h : Hdr) (d a b c : Opd) : State → Host.Outcome State Fault Refusal := mmaI h true d a b c

/-! ## Z instructions of the whole tile -/

/-- ZCLR: the cleared state of R133; other cohorts' pending faults stay (R161). -/
def execZclr (h : Hdr) (d : Opd) : State → Host.Outcome State Fault Refusal :=
  runI h { uni := true, dsts := [(d, 1)] } false fun _ => do
    zOrder d
    M.upd fun s => (putTile d { Tile.zero with faults := (getTile s d).faults } s).updCur Cohort.closeIdem

/-- ZANCHOR (R162). -/
def execZanchor (h : Hdr) (pin : Bool) (d a : Opd) : State → Host.Outcome State Fault Refusal :=
  runI h { uni := true, srcs := [(a, 1)], dsts := [(d, 1)] } false fun _ => do
    zOrder d
    verifyUnlessPoison d allRows 4
    M.upd fun s =>
      let x := sextInt 9 (src32 s none a).toNat
      let t := allRows.foldl (fun t m =>
        let t := t.reanchor m x
        { t with rows := t.rows.set m { t.row m with pinned := pin } TRow.zero }) (getTile s d)
      (putTile d t s).updCur Cohort.closeIdem

/-- ZCHK (R168). On a poisoned tile Q[D] is false beside the fault (R146). -/
def execZchk (h : Hdr) (quiet : Bool) (d a : Opd) : State → Host.Outcome State Fault Refusal :=
  runI h { uni := true, srcs := [(a, 1)], dsts := [(d, 1)] } false fun _ => do
    zOrder a
    let s ← get
    let t := getTile s a
    let ok := allRows.all t.rowOk
    if !t.poison && !ok then do
      M.upd (putTile a { t with poison := true })
      M.trapIf (!quiet) (checksumT 1)
    else pure ()
    emitR (dstP d none (!t.poison && ok)) 0 (some 0)
    M.trapIf (t.poison && !quiet) (placT 3 1)

/-- Tiles that the issuing cohort's handles name. -/
def ownTiles (s : State) : List Nat := s.cur.r.z.map (·.2)

/-- MWAIT (R169). -/
def execMwait (h : Hdr) (a : Opd) : State → Host.Outcome State Fault Refusal :=
  runI h { uni := true, srcs := [(a, 1)] } false fun _ => do
    let all := a.cls == .zr
    M.waitUntil .passes fun s => !s.passes.any fun p => p.cohort == s.cur.pl.id && (all || p.tile == zTile s a)
    let s ← get
    deliverFault (if all then ownTiles s else [zTile s a])

/-- The per-placard checks of a source tile whose pattern words have been read with it: a CBT nibble with bit 3 set is detail 5, before
detail 7 (R65, R83). -/
def sourceCheck (q : Qword) (words : List Nat) : Nat :=
  let d := plCheck q true false
  if (d == 0 || d == 7) && (Plac.ofQ q).isCBT && words.any fun w => (List.range 8).any fun k => nbit w (4 * k + 3) then 5 else d

/-- The checks of CBLOAD's tile, its nibbles where they lie in the allocation. -/
def cbtCheck (s : State) (base off : Nat) (q : Qword) : Nat :=
  let n := (Plac.ofQ q).rows
  sourceCheck q (if off + 16 + 4 * n ≤ s.cur.pl.spSize then
    (List.range n).map fun k => leNat (spRd s s.cur.pl.core base (16 + 4 * k) 4) else [])

/-- CBLOAD (R152, R153, R170). -/
def execCbload (h : Hdr) (a b : Opd) : State → Host.Outcome State Fault Refusal :=
  runI h { uni := true, srcs := [(a, 2), (b, 1)] } false fun _ => do
    let s ← get
    let slot := (src32 s none b).toNat
    let off := (src64 s none a).toNat
    M.trapIf (decide (3 < slot)) { accessT 0 with opnd := 2 }
    let (base, q) ← spPlacard 1 off
    let d := cbtCheck s base off q
    M.trapIf (d != 0) (placT d 1)
    let p := Plac.ofQ q
    M.trapIf (!p.isCBT) (placT 8 1)
    let _ ← spSpan 1 off p.elemEnd
    sbRead base p.elemEnd
    let s ← get
    M.trapIf (spPoisoned s (spPa s.cur.pl.core base) p.elemEnd) { poisonT 1 off with opnd := 1 }
    let ws := (List.range 256).map fun k => leNat (spRd s s.cur.pl.core base (16 + 4 * k) 4)
    let key := bookKey s.quad slot
    let bk := s.books.get key Codebook.zero
    M.trapIf (bk.owner.isSome && bk.owner != s.cur.pl.launch) { accessT 0 with opnd := 2 }
    M.waitUntil .passes fun s => !s.passes.any fun p =>
      let reads := fun q => (Plac.ofQ q).isVQ && (Plac.ofQ q).sfmt % 4 == slot
      p.quad == s.quad && (reads p.pla || reads p.plb)
    M.upd fun s =>
      let words : Map Word := ((List.range 256).zip ws).foldl (fun m (k, w) => m.set k (BitVec.ofNat 32 w) 0#32) []
      State.updCur { s with books := s.books.set key (Codebook.mk s.cur.pl.launch words) Codebook.zero } Cohort.closeIdem

end Sys2Proof.Machine
end

