-- ==== Sys2Proof/Machine/Launch.lean ====
section
/-! DEFINITION. Launches (R283 to R296): the record and its checks, units and their shares, what a core has free, the placement of
a unit, the state in which a cohort starts. -/

namespace Sys2Proof.Machine

/-! ## The record (R283, R284) -/

def Level.ofBytes (b : List Byte) : Level := ⟨fld b 0 4, fld b 4 1, fld b 5 1, (b.drop 8).take 8⟩

def LRec.ofBytes (b : List Byte) : LRec where
  nlev := fld b 2 1
  prio := fld b 3 1 % 8
  det := fld b 3 1 / 8 % 4 == 1
  vregs := 8 * fld b 4 1
  zcount := fld b 5 1
  dsDepth := fld b 6 2
  spad := fld b 8 4
  zshare := fld b 12 2
  modCount := fld b 14 2
  start := fld b 16 8
  param := fld b 24 8
  cpl := fld b 32 8
  dsBase := fld b 40 8
  spill := fld b 48 8
  lkey := BitVec.ofNat 32 (fld b 56 4)
  trapOvl := fld b 60 3
  entry := BitVec.ofNat 40 (fld b 64 8)
  lcores := fld b 72 2
  wgroups := fld b 74 2
  ntiles := fld b 76 4
  ovlreq := (List.range 4).map fun k => fld b (80 + 4 * k) 3
  modBase := fld b 96 2
  graph := fld b 104 8
  save := fld b 112 8
  levels := (List.range (fld b 2 1)).map fun n => Level.ofBytes ((b.drop (128 + 16 * n)).take 16)
  raw := b

namespace LRec

def extent (r : LRec) (n : Nat) : Nat := (nth r.levels n ⟨1, 0, 0, []⟩).extent
def domain (r : LRec) (n : Nat) : Nat := (nth r.levels n ⟨1, 5, 0, []⟩).domain
/-- Product of the extents of the levels [lo, hi). -/
def span (r : LRec) (lo hi : Nat) : Nat := ((List.range hi).drop lo).foldl (fun p n => p * r.extent n) 1
/-- The highest level of a domain, and the lowest. -/
def topOf (r : LRec) (d : Nat) : Option Nat := ((List.range r.nlev).reverse).find? fun n => r.domain n == d
def lowOf (r : LRec) (d : Nat) : Option Nat := (List.range r.nlev).find? fun n => r.domain n == d
/-- The core-bound level (R286). -/
def coreLevel (r : LRec) : Nat := (r.topOf 1).getD 0
/-- The dispatch level: the outermost whose domain is module or narrower. -/
def dispLevel (r : LRec) : Nat := (((List.range r.nlev).reverse).find? fun n => r.domain n ≤ 4).getD 0
/-- Cohorts of a core-bound unit, core-bound units of the launch, dispatch units, core-bound units of a dispatch unit. -/
def perUnit (r : LRec) : Nat := r.span 0 r.coreLevel
def units (r : LRec) : Nat := r.span r.coreLevel r.nlev
def dispUnits (r : LRec) : Nat := r.span r.dispLevel r.nlev
/-- Cohorts that are placed, saved and restored together: a core-bound unit's, or the one of an invocation (R303). -/
def together (r : LRec) : Nat := if r.graph != 0 then 1 else r.perUnit
def perDisp (r : LRec) : Nat := r.span r.coreLevel r.dispLevel
/-- %level_n of a cohort of a linear index (R284). -/
def levelOf (r : LRec) (lin n : Nat) : Nat := if n < r.nlev then lin / r.span 0 n % r.extent n else 0
/-- The unit of level n that holds a core-bound unit. -/
def unitAt (r : LRec) (n cu : Nat) : Nat := cu / r.span r.coreLevel n
/-- Handles declared shared, and own ones. -/
def shared (r : LRec) : List Nat := (List.range r.zcount).filter fun h => nbit r.zshare h
def owned (r : LRec) : List Nat := (List.range r.zcount).filter fun h => !nbit r.zshare h
/-- Level whose units share the shared handles (R288). -/
def shareLevel (r : LRec) : Nat := (r.lowOf 2).getD r.coreLevel

end LRec

/-! ## Capacity of a core (R12, R294, R296) -/

/-- Slots and rows of V registers for launches in a partition of a core. -/
def slotCap (ip : Nat) : Nat := if ip < 4 then 7 else 8
def rowCap (ip : Nat) : Nat := if ip < 4 then 448 else 512
/-- Scratchpad bytes for launches. -/
def spCap : Nat := 0xB_0000

/-- Cohorts of so many V registers that an empty core holds. -/
def emptyHolds (v : Nat) : Nat := ((List.range 8).map fun ip => min (slotCap ip) (rowCap ip / max 1 v)).foldl (· + ·) 0

/-! ## The checks of R285 that the record and the tenant decide -/

def levelsOk (b : List Byte) (r : LRec) : Bool :=
  (List.range 8).all fun n =>
    let l := (b.drop (128 + 16 * n)).take 16
    let d := fld l 4 1
    if r.nlev ≤ n then allZero l
    else 1 ≤ fld l 0 4 && d ≤ 5 && fld l 5 1 ≤ 6 && d ≤ fld l 5 1 && fld l 6 2 == 0
      && (n != 0 || d == 0) && (n == 0 || r.domain (n - 1) ≤ d)

/-- The persistent fields (R292). -/
def persistOk (r : LRec) : Bool :=
  if r.lcores == 0 then r.wgroups == 0
  else
    let c := r.coreLevel
    1 ≤ c && 1 ≤ r.wgroups && r.wgroups ≤ 64 && r.extent (c - 1) == r.wgroups && r.units == r.lcores

def recordOk (addr : Nat) (b : List Byte) (r : LRec) : Bool :=
  fld b 0 2 == 1 && 1 ≤ r.nlev && r.nlev ≤ 8 && fld b 3 1 / 32 == 0 && fld b 3 1 / 8 % 4 ≤ 1 && 1 ≤ fld b 4 1 && fld b 4 1 ≤ 32
    && r.zcount ≤ 16 && r.spad % 256 == 0 && r.spad ≤ spCap && 1 ≤ r.modCount && r.modCount ≤ 32768 && fld b 63 1 == 0
    && fld b 69 3 == 0 && r.entry.slot == 0 && ((List.range 4).all fun k => fld b (83 + 4 * k) 1 == 0)
    && fld b 98 6 == 0 && allZero ((b.drop 120).take 8) && levelsOk b r && r.span 0 r.nlev ≤ 2 ^ 43 && persistOk r
    && addr % 64 == 0 && r.cpl % 32 == 0 && r.dsBase % 16 == 0 && r.spill % 64 == 0 && r.graph % 64 == 0
    && r.perUnit ≤ emptyHolds r.vregs && r.perUnit * r.owned.length + r.shared.length ≤ 64

/-! ## Units of a module (R286, R293) -/

/-- The module's index among those of the launch; none when it has no share (R421). -/
def moduleIx (s : State) (r : LRec) : Option Nat :=
  let me := (s.m.fabid.extractLsb' 0 15).toNat
  if r.modBase ≤ me && me < r.modBase + r.modCount then some (me - r.modBase) else none

/-- Dispatch units of this module among the first n. -/
def shareBelow (s : State) (r : LRec) (n : Nat) : Nat :=
  match moduleIx s r with
  | none => 0
  | some i => if i < n then (n - i - 1) / r.modCount + 1 else 0

/-- Core-bound units that this module runs. -/
def shareUnits (s : State) (r : LRec) : Nat := if r.graph != 0 then 0 else shareBelow s r r.dispUnits * r.perDisp

/-- Is a compute die up: its cores are ready (R407) and it has not failed. -/
def dieReady (s : State) (d : Nat) : Bool := s.m.ready.getLsbD (8 + 8 * d + 4) && !s.m.failedDies.contains d

/-- Quads of a core's group belong to the partition, and the partition runs. -/
def partRuns (s : State) (p : Nat) : Bool := (s.part p).cfg.getLsbD 0 && !(s.part p).cfg.getLsbD 1
def coreOf (s : State) (p core : Nat) : Bool :=
  core < 4096 && partRuns s p && (s.part p).cfg.getLsbD (32 + core / 256) && dieReady s (core / 1024)
def dieOf (s : State) (p die : Nat) : Bool :=
  die < 4 && partRuns s p && dieReady s die && (List.range 4).any fun g => (s.part p).cfg.getLsbD (32 + 4 * die + g)

/-- The leader die of a new launch. -/
def firstDie (s : State) (p : Nat) : Nat := ((List.range 4).find? (dieOf s p)).getD 0

/-! ## What a core has free -/

/-- V registers for launches in use in a partition of a core, as row ranges. -/
def rowsUsed (cs : List Cohort) (core ip : Nat) : List (Nat × Nat) :=
  (cs.filter fun c => c.pl.core == core && c.pl.slotIx / 8 == ip && c.x.gen.isNone).map fun c => (c.r.vbase, c.r.vbase + c.r.vregs)

/-- The least start of n free units below cap. -/
def firstFit (cap n : Nat) (used : List (Nat × Nat)) : Option Nat :=
  let starts := 0 :: used.map (·.2)
  (starts.filter fun a => a + n ≤ cap && !used.any fun u => a < u.2 && u.1 < a + n).foldl
    (fun (b : Option Nat) a => match b with | none => some a | some x => some (min x a)) none

/-- A cohort slot and a base row for v registers, in the first partition that has both. -/
def findSlot (cs : List Cohort) (core v : Nat) : Option (Nat × Nat) :=
  (List.range 8).findSome? fun ip =>
    let slot := ((List.range (slotCap ip)).map (8 * ip + ·)).find? fun k => !cs.any fun c => c.pl.core == core && c.pl.slotIx == k
    match slot, firstFit (rowCap ip) v (rowsUsed cs core ip) with
    | some k, some b => some (k, b)
    | _, _ => none

/-- Scratchpad of the units on a core. -/
def spUsed (s : State) (core : Nat) : List (Nat × Nat) :=
  (s.cohorts.filter fun c => c.pl.core == core && c.x.gen.isNone && c.pl.spSize != 0).map fun c => (c.pl.spBase, c.pl.spBase + c.pl.spSize)

/-- Tiles of a quad that no handle names, no sharing unit holds and no pass works on. -/
def freeTiles (s : State) (quad : Nat) : List Nat :=
  (List.range 64).filter fun t =>
    !(s.cohorts.any fun c => c.pl.core / 4 == quad && c.r.z.any fun e => e.2 == t)
      && !(s.launches.any fun l => l.shares.any fun e => e.2.2 == (quad, t))
      && !s.passes.any fun p => p.quad == quad && p.tile == t

/-- Instruction-store room for overlays (R294): those not resident fit into what the tenant's victims and the free granules
leave. A descriptor that cannot be read leaves no room. -/
def ovFits (s : State) (core part asid : Nat) (ns : List Nat) : Bool :=
  let g : Agent := ⟨part, asid, privOf s part asid, 0, none, none, none⟩
  let need := (ns.filter fun n => n != 0 && match slotOf s core part asid n with
    | some o => !(o.st == SlotSt.resident && !o.evict)
    | none => true).eraseDups
  let ds := need.map fun n => match readDesc g n s with
    | .ok (some d, _) => some d
    | _ => none
  let sum := fun (t : Bool) => ((ds.filterMap id).filter fun d => d.traph == t).foldl (fun k d => k + granules d.nblk) 0
  let fits := fun (t : Bool) =>
    let vs := victims s core part asid t
    let vg := vs.foldl (fun k o => k + granules o.nblk) 0
    granulesOf s (fun o => o.core == core && o.traph == t) - vg + sum t ≤ regionCap t
      && granulesOf s (fun o => o.core == core && o.part == part && o.asid == asid && o.traph == t) - vg + sum t ≤ ovShare s part asid t
  ds.all Option.isSome && fits false && fits true

/-! ## Cohorts at launch (R287, R298) -/

def Place.ofLaunch (s : State) (l : Launch) (id lin core slotIx unit unitIx dunit : Nat) (sp : Nat) : Place where
  id := id
  launch := some l.id
  queue := l.queue
  lin := lin
  core := core
  slotIx := slotIx
  part := l.part
  asid := l.asid
  priv := privOf s l.part l.asid
  unit := unit
  unitIx := unitIx
  dunit := dunit
  levels := (List.range 8).map (l.rc.levelOf lin)
  prio := l.rc.prio
  det := l.rc.det
  lkey := l.rc.lkey
  trapOvl := l.rc.trapOvl
  dsBase := l.rc.dsBase
  dsDepth := l.rc.dsDepth
  spBase := sp
  spSize := l.rc.spad
  entry := l.rc.entry

/-- S0 to S7 at launch. -/
def launchRegs (l : Launch) (unit unitIx : Nat) : List Word :=
  let lo := fun (x : Nat) => [BitVec.ofNat 32 x, BitVec.ofNat 32 (x / 2 ^ 32)]
  lo l.rc.param ++ lo l.recAddr
    ++ [BitVec.ofNat 32 unit, BitVec.ofNat 32 unitIx, BitVec.ofNat 32 (l.rc.lcores + 65536 * l.rc.wgroups), l.rc.lkey]

/-- A cohort in its first state; its V registers are undefined, drawn under a number of their own. -/
def newCohort (pl : Place) (vregs vbase pick now : Nat) (z : Map Nat) (pc : Pc) (mask : Mask) (ss : List Word) : Cohort :=
  let r : Regs := { Regs.reset with vregs := vregs, vbase := vbase, vfree := some pick, z := z }
  let r := ((List.range ss.length).zip ss).foldl (fun (r : Regs) (n, x) => r.wrS n x) r
  ⟨true, pl, r,
   { Ctl.reset with a := some ⟨true, pc, mask, false⟩, needEntry := true, readyAt := now, last := [now, now, now] }, Ext.reset⟩

/-- Bind handles on a quad: a shared one joins the tile that its unit has already, the rest take free tiles in order and clear
them (R133, R288). -/
def bindTiles (s : State) (l : Launch) (cs : List Cohort) (quad lin : Nat) : List Nat → List Nat → Option (Map Nat × List Nat)
  | [], free => some ([], free)
  | h :: hs, free =>
    let lv := l.rc.shareLevel
    let mate := if nbit l.rc.zshare h then
        cs.find? fun c => c.pl.launch == some l.id && c.pl.core / 4 == quad && c.pl.lin / l.rc.span 0 lv == lin / l.rc.span 0 lv
          && (c.r.rdZ h).isSome
      else none
    let kept := l.shares.find? fun e => nbit l.rc.zshare h && e.1 == lin / l.rc.span 0 lv && e.2.1 == h && e.2.2.1 == quad
    match (mate.bind fun c => c.r.rdZ h).or (kept.map (·.2.2.2)), free with
    | some t, free => (bindTiles s l cs quad lin hs free).map fun (m, f) => (Map.put m h t, f)
    | none, t :: free => (bindTiles s l cs quad lin hs free).map fun (m, f) => (Map.put m h t, f)
    | none, [] => none

/-- Lay out the cohorts of a unit on a core, one after the other. -/
def layUnit (s : State) (l : Launch) (core unit dunit sp : Nat) : Nat → List Nat → List Cohort → Option (List Cohort × List Nat)
  | 0, free, cs => some (cs, free)
  | n + 1, free, cs =>
    let k := l.rc.together - n - 1
    let lin := unit * l.rc.together + k
    match findSlot cs core l.rc.vregs, bindTiles s l cs (core / 4) lin (List.range l.rc.zcount) free with
    | some (slot, base), some (z, free) =>
      let pl := Place.ofLaunch s l (s.ids + k) lin core slot unit k dunit sp
      let c := newCohort pl l.rc.vregs base (s.pick + k) s.m.cycle z l.rc.entry Mask.all (launchRegs l unit k)
      layUnit s l core unit dunit sp n free (cs ++ [c])
    | _, _ => none

/-- A unit of a quad, die or module domain stays where its first unit went. -/
def homeOk (l : Launch) (core unit : Nat) : Bool :=
  l.rc.graph != 0 || [2, 3].all fun d => match l.rc.topOf d with
    | none => true
    | some n => match l.homes.find? fun e => e.1 == d && e.2.1 == l.rc.unitAt n unit with
      | none => true
      | some e => e.2.2 == (if d == 2 then core / 4 else core / 1024)

def addHomes (core unit : Nat) (l : Launch) : Launch :=
  if l.rc.graph != 0 then l else [2, 3].foldl (fun l d => match l.rc.topOf d with
    | none => l
    | some n =>
      let e := (d, l.rc.unitAt n unit, if d == 2 then core / 4 else core / 1024)
      { l with homes := if l.homes.contains e then l.homes else l.homes ++ [e] }) l

/-- The tiles that the shared handles of new cohorts name, held for their sharing units. -/
def addShares (quad : Nat) (cs : List Cohort) (l : Launch) : Launch :=
  cs.foldl (fun l c => c.r.z.foldl (fun l (h, t) =>
    let e := (c.pl.lin / l.rc.span 0 l.rc.shareLevel, h, quad, t)
    if nbit l.rc.zshare h && !l.shares.contains e then { l with shares := l.shares ++ [e] } else l) l) l

/-- Have not all units of a sharing unit ended yet? -/
def shareOpen (s : State) (l : Launch) (u : Nat) : Bool :=
  let at_ := fun (cu : Nat) => l.rc.unitAt l.rc.shareLevel cu == u
  (l.placed.any fun e => at_ e.1) || (l.waiting.any fun e => at_ e.1) || (s.saved.any fun x => x.launch == l.id && at_ x.unit)
    || decide (l.counter < (u + 1) * l.rc.span l.rc.coreLevel l.rc.shareLevel / l.rc.perDisp)

/-- The tiles of sharing units that have ended are given up. -/
def dropShares (id : Nat) (s : State) : State :=
  s.updLaunch id fun l => { l with shares := l.shares.filter fun e => shareOpen s l e.1 }

/-- What the start of a unit leaves in its launch: its first start, and whether its start time was measured against an unlocked device
time (R277, R282). -/
def noteStart (s : State) (l : Launch) : Launch :=
  { l with firstStart := if l.firstStart.isNone then some s.m.time else l.firstStart
           tunl := l.tunl || (l.rc.start != 0 && !s.m.locked) }

/-- A core-bound unit on a core, when everything it needs is free at once (R294). Its cohorts see what their launch follows: no copy of the
core's L1 stays. -/
def placeUnit (l : Launch) (unit core : Nat) (s : State) : Option State :=
  let n := l.rc.together
  let dunit := l.rc.unitAt l.rc.dispLevel unit
  if !coreOf s l.part core || !homeOk l core unit || !ovFits s core l.part l.asid (l.rc.entry.ovl :: l.rc.ovlreq) then none
  else match firstFit spCap l.rc.spad (spUsed s core) with
    | none => none
    | some sp =>
      let old := s.cohorts
      match layUnit s l core unit dunit sp n (freeTiles s (core / 4)) old with
      | none => none
      | some (cs, _) =>
        let new := cs.drop old.length
        let had := (old.filter fun c => c.pl.core / 4 == core / 4).flatMap fun c => c.r.z.map (·.2)
        let had := had ++ (l.shares.filter fun e => e.2.2.1 == core / 4).map (·.2.2.2)
        let fresh := ((new.flatMap fun c => c.r.z.map (·.2)).filter fun t => !had.contains t).eraseDups
        let s := { s with tiles := fresh.foldl (fun m t => m.del (tileKey (core / 4) t)) s.tiles }
        let s := new.foldl (fun s c => addCohort c s) s
        let s := undefBytes (spPa core sp) l.rc.spad { dropFilled core s with ids := s.ids + n, pick := s.pick + n }
        some (s.updLaunch l.id fun l => addShares (core / 4) new <| addHomes core unit <| noteStart s
          { l with waiting := l.waiting.filter fun e => e.1 != unit
                   placed := if l.rc.graph != 0 then l.placed else l.placed ++ [(unit, core, n)] })

end Sys2Proof.Machine
end

