-- ==== Sys2Proof/Machine/Graph.lean ====
section
/-! DEFINITION. Work graphs (R301 to R303, R349, R351, R352): the descriptor, the pool, invocations, EMIT, RESERVE, NODEEND. -/

namespace Sys2Proof.Machine

/-! ## The descriptor (R301) -/

def GNode.ofBytes (b : List Byte) : GNode where
  kind := fld b 0 1
  depth := fld b 1 1
  recsz := fld b 2 2
  batch := fld b 4 2
  entry := BitVec.ofNat 40 (fld b 8 8)
  edges := (List.range (fld b 6 2)).map fun e => (fld b (16 + 4 * e) 2, fld b (18 + 4 * e) 2)

def GNode.zero : GNode := ⟨0, 0, 64, 1, 0, []⟩

/-- Fields of a node entry in range; edges name shaders. -/
def nodeOk (nodes : List GNode) (ix : Nat) (b : List Byte) : Bool :=
  let n := GNode.ofBytes b
  n.kind ≤ 3 && n.depth ≤ 15 && n.recsz % 16 == 0 && 64 ≤ n.recsz && n.recsz ≤ 1024 && fld b 6 2 ≤ 8 && allZero (b.drop 48)
    && (if n.kind == 0 then 1 ≤ n.batch && n.batch ≤ 32 && fld b 13 3 == 0 && n.entry.slot == 0
        else n.edges.isEmpty && fld b 8 8 == 0)
    && (n.kind != 1 && n.kind != 3 || n.recsz == 64)
    && n.edges.all fun e => e.1 < nodes.length && 1 ≤ e.2 && (nth nodes e.1 GNode.zero).kind == 0 && (e.1 != ix || n.depth != 0)

/-- One round of longest paths; self edges do not count. -/
def relax (nodes : List GNode) (lv : List Nat) : List Nat :=
  ((List.range nodes.length).zip nodes).foldl (fun lv (i, n) =>
    n.edges.foldl (fun lv e => if e.1 == i then lv else lv.set e.1 (max (nth lv e.1 0) (nth lv i 0 + 1))) lv) lv

def relaxN (nodes : List GNode) : Nat → List Nat → List Nat
  | 0, lv => lv
  | k + 1, lv => relaxN nodes k (relax nodes lv)

/-- Levels of the nodes as longest paths; in a graph without cycles they settle within as many rounds as there are nodes. -/
def pathLevels (nodes : List GNode) : List Nat := relaxN nodes nodes.length (nodes.map fun _ => 0)
def acyclic (nodes : List GNode) : Bool := relax nodes (pathLevels nodes) == pathLevels nodes

/-- Longest paths from the root: a node the root does not reach has none. -/
def rootLevel (nodes : List GNode) (root : Nat) : List (Option Nat) :=
  let step := fun (lv : List (Option Nat)) =>
    ((List.range nodes.length).zip nodes).foldl (fun lv (i, n) => match nth lv i none with
      | none => lv
      | some d => n.edges.foldl (fun (lv : List (Option Nat)) e =>
          if e.1 == i then lv else lv.set e.1 (some (max ((nth lv e.1 none).getD 0) (d + 1)))) lv) lv
  let rec go : Nat → List (Option Nat) → List (Option Nat)
    | 0, lv => lv
    | k + 1, lv => go k (step lv)
  go nodes.length ((List.range nodes.length).map fun i => if i == root then some 0 else none)

/-- Records in a page of a node. -/
def perPage (n : GNode) : Nat := 4096 / max 1 n.recsz

/-- Pages reserved per edge of a node for an invocation of a depth (R302). -/
def edgePages (nodes : List GNode) (ix depth : Nat) : List Nat :=
  let n := nth nodes ix GNode.zero
  n.edges.map fun e => if e.1 == ix && n.depth ≤ depth then 0 else ceilDiv e.2 (perPage (nth nodes e.1 GNode.zero)) + 1

def reservation (nodes : List GNode) (ix depth : Nat) : Nat := (edgePages nodes ix depth).foldl (· + ·) 0
def largestRes (nodes : List GNode) : Nat := ((List.range nodes.length).map fun i => reservation nodes i 0).foldl max 0

/-- The graph of a descriptor, or none when it is invalid. The root records come first in the order of R303. -/
def graphOf (hd : List Byte) (ns : List (List Byte)) : Option Graph :=
  let nodes := ns.map GNode.ofBytes
  let root := fld hd 2 2
  let pages := fld hd 4 4
  let base := fld hd 8 8
  let rsz := (nth nodes root GNode.zero).recsz
  if ((List.range ns.length).zip ns).all (fun (i, b) => nodeOk nodes i b) && root < nodes.length && base % 4096 == 0
      && 1 ≤ fld hd 24 4 && allZero ((hd.drop 28).take 36) && acyclic nodes && 2 * largestRes nodes ≤ pages then
    some { nodes := nodes, root := root, pool := base, free := (List.range pages).map (base + 4096 * ·), live := []
           recs := (List.range (fld hd 24 4)).map fun k => ⟨root, fld hd 16 8 + rsz * k, 0, 0, k⟩, nextInv := 0, running := 0 }
  else none

/-- Read a work graph (R301): none when it is invalid. -/
def readGraph (g : Agent) (ptr : Nat) : AM (Option Graph) := do
  let hd ← g.read ptr 64
  let n := fld hd 0 2
  if n == 0 || 256 < n then pure none
  else
    let ns ← AM.mapL (List.range n) fun k => g.read (ptr + 64 + 64 * k) 64
    pure (graphOf hd ns)

/-! ## Records and invocations (R302, R303) -/

def State.updGraph (s : State) (l : Nat) (f : Graph → Graph) : State := s.updLaunch l fun x => { x with graph := x.graph.map f }

/-- Give pages back to the pool. -/
def givePages (ps : List Nat) (g : Graph) : Graph := { g with free := g.free ++ ps }

/-- Input records are consumed; a page whose last record is goes back. -/
def consume (inputs : List Nat) (g : Graph) : Graph :=
  inputs.foldl (fun g a =>
    let pg := a / 4096 * 4096
    match g.live.find? fun e => e.1 == pg with
    | none => g
    | some (_, n) => if n ≤ 1 then givePages [pg] { g with live := g.live.del pg } else { g with live := g.live.put pg (n - 1) }) g

/-- Records in the order of R303. -/
def recLe (a b : GRec) : Bool := a.inv < b.inv || (a.inv == b.inv && a.emission ≤ b.emission)
def insertRec (r : GRec) : List GRec → List GRec
  | [] => [r]
  | x :: l => if recLe x r then x :: insertRec r l else r :: x :: l

/-- The records of a list that follow a record without a gap, in its page and of its depth. -/
def contiguous (sz : Nat) (r : GRec) : Nat → List GRec → List GRec
  | 0, _ => []
  | n + 1, l => match l.find? fun x => x.addr == r.addr + sz && x.addr / 4096 == r.addr / 4096 && x.depth == r.depth with
    | some x => x :: contiguous sz x n l
    | none => []

/-- The same, where each must be the next of the list. -/
def inOrder (sz : Nat) (r : GRec) : Nat → List GRec → List GRec
  | 0, _ => []
  | _, [] => []
  | n + 1, x :: l =>
    if x.addr == r.addr + sz && x.addr / 4096 == r.addr / 4096 && x.depth == r.depth then x :: inOrder sz x n l else []

/-- The records of an invocation. Which form it is free in an ordinary launch; in a deterministic one they are the first in
order. -/
def batchOf (det : Bool) (pick : Nat) (g : Graph) (ix : Nat) : List GRec :=
  let n := nth g.nodes ix GNode.zero
  let rs := (g.recs.filter fun r => r.node == ix).foldl (fun acc r => insertRec r acc) []
  match rs with
  | [] => []
  | r0 :: rest =>
    if det then r0 :: inOrder n.recsz r0 (n.batch - 1) rest
    else
      let r := nth rs (Config.batchPick pick % rs.length) r0
      let run := r :: contiguous n.recsz r (n.batch - 1) rs
      run.take (Config.batchPick (pick + 1) % run.length + 1)

/-- A node's level. -/
def Graph.level (g : Graph) (ix : Nat) : Nat := (nth (rootLevel g.nodes g.root) ix none).getD 0

/-- The deepest level that holds unconsumed records. -/
def deepest (g : Graph) : Nat := (g.recs.map fun r => g.level r.node).foldl max 0

/-- May the records of a node be batched from this one in a deterministic launch (R303)? Every producer of the levels above has ended, and
every earlier invocation of the node itself, which could still publish an earlier record. Of the nodes of one level, a lower one has its
turn first, so that the numbers of invocations are fixed. -/
def producersEnded (s : State) (l : Launch) (g : Graph) (ix : Nat) (r : GRec) : Bool :=
  let above := fun (k : Nat) => g.level k < g.level ix || (g.level k == g.level ix && k < ix)
  let invs := (s.cohorts.filter fun c => c.pl.launch == some l.id).filterMap (·.x.inv)
    ++ ((s.saved.filter fun x => x.launch == l.id).flatMap fun x => x.cohorts.filterMap (·.inv))
  !(g.recs.any fun x => above x.node) && !invs.any fun i => above i.node || (i.node == ix && i.index + 1 < r.inv)

/-- The records that a node's next invocation takes, when it may start on some core: the launch runs on this module and its start time has
come, nothing of it is saved, and the pages are there (R282, R302 to R304, R421). An invocation that reserves no page needs none. -/
def invReady (s : State) (l : Launch) (g : Graph) (ix : Nat) : List GRec :=
  match batchOf l.rc.det s.pick g ix with
  | [] => []
  | r :: bs =>
    let need := reservation g.nodes ix r.depth
    let granted := need == 0 || decide (need + largestRes g.nodes ≤ g.free.length)
      || (decide (need ≤ g.free.length) && g.level ix == deepest g)
    if (nth g.nodes ix GNode.zero).kind != 0 || !granted || l.halted || s.m.stopped || (moduleIx s l.rc).isNone
        || s.m.time < l.rc.start || (l.rc.det && !producersEnded s l g ix r) || s.saved.any fun x => x.launch == l.id then []
    else r :: bs

/-- A shader invocation starts on a core: its pages are reserved, its records taken, its cohort placed. It acquires what its producers
published (R352). -/
def launchInv (l : Launch) (g : Graph) (node core slotIx : Nat) (s : State) : Option State :=
  match invReady s l g node with
  | [] => none
  | r :: rest =>
    let n := nth g.nodes node GNode.zero
    let bs := r :: rest
    let ip := slotIx / 8
    let taken := s.cohorts.any fun c => c.pl.core == core && c.pl.slotIx == slotIx
    if taken || 64 ≤ slotIx || slotCap ip ≤ slotIx % 8 || !coreOf s l.part core
        || !ovFits s core l.part l.asid (n.entry.ovl :: l.rc.ovlreq) then none
    else match firstFit (rowCap ip) l.rc.vregs (rowsUsed s.cohorts core ip), firstFit spCap l.rc.spad (spUsed s core),
        bindTiles s l s.cohorts (core / 4) g.nextInv (List.range l.rc.zcount) (freeTiles s (core / 4)) with
      | some base, some sp, some (z, _) =>
        let ps := edgePages g.nodes node r.depth
        let tagged := ((List.range ps.length).zip ps).flatMap fun (e, k) => List.replicate k e
        let pages := tagged.zip g.free
        let (id, s) := s.fresh
        let s := { dropFilled core s with pick := s.pick + 3 }
        let pl := { Place.ofLaunch s l id g.nextInv core slotIx g.nextInv 0 0 sp with
          levels := [g.nextInv, 0, 0, 0, 0, 0, 0, 0], entry := n.entry }
        let ss := [BitVec.ofNat 32 r.addr, BitVec.ofNat 32 (r.addr / 2 ^ 32), BitVec.ofNat 32 bs.length,
          BitVec.ofNat 32 r.depth, BitVec.ofNat 32 node] ++ (launchRegs l 0 0).drop 5
        let c := newCohort pl l.rc.vregs base (s.pick - 1) s.m.cycle z n.entry (BitVec.ofNat 32 (2 ^ bs.length - 1)) ss
        let c := { c with x := { c.x with inv := some ⟨g.nextInv, node, r.depth, bs.map (·.addr), pages, [], []⟩ } }
        let old := (s.cohorts.filter fun c => c.pl.core / 4 == core / 4).flatMap fun c => c.r.z.map (·.2)
        let new := (z.map (·.2)).filter fun t => !old.contains t
        let s := addCohort c { s with tiles := new.foldl (fun m t => m.del (tileKey (core / 4) t)) s.tiles }
        let s := undefBytes (spPa core sp) l.rc.spad s
        some ((s.updGraph l.id fun g =>
          { g with free := g.free.drop (reservation g.nodes node r.depth), recs := g.recs.filter fun x => !bs.contains x
                   nextInv := g.nextInv + 1, running := g.running + 1 }).updLaunch l.id (noteStart s))
      | _, _, _ => none

/-! ## EMIT and RESERVE (R349, R351) -/

/-- The node of the issuing invocation and its edge; an access trap where there is none. -/
def edgeM (e : Nat) : M (Inv × GNode × GNode × Nat) := do
  let s ← get
  match s.cur.x.inv, (s.cur.pl.launch.bind s.launch?).bind (·.graph) with
  | some i, some g =>
    let n := nth g.nodes i.node GNode.zero
    match n.edges[e]? with
    | some (t, mx) => pure (i, n, nth g.nodes t GNode.zero, if (t == i.node && n.depth ≤ i.depth) || i.dropped.contains e then 0 else mx)
    | none => M.trap { accessT 0 with opnd := 2 }
  | _, _ => M.trap (accessT 0)

/-- Records made on an edge. -/
def madeOn (i : Inv) (e : Nat) : Nat := (i.emitted.filter fun r => r.edge == e).length

/-- The address of record k of an edge. -/
def slotAddr (i : Inv) (e : Nat) (t : GNode) (k : Nat) : Nat :=
  nth ((i.pages.filter fun p => p.1 == e).map (·.2)) (k / perPage t) 0 + t.recsz * (k % perPage t)

def execEmit (h : Hdr) (d b : Opd) : State → Host.Outcome State Fault Refusal :=
  runI h { srcs := [(.none, 0), (b, 1)], dsts := [(d, 2)] } false fun act => do
    if act == 0#32 then pure ()
    else do
      let s ← get
      let e := (src32 s none b).toNat
      let (i, n, t, mx) ← edgeM e
      let k := madeOn i e
      M.trapIf (decide (mx < k + act.lanes.length)) { cause := Cause.emission }
      let self := match n.edges[e]? with | some (x, _) => x == i.node | none => false
      let lanes := (List.range act.lanes.length).zip act.lanes
      let recs := lanes.map fun (j, _) => Emitted.mk e (slotAddr i e t (k + j)) (if self then i.depth + 1 else 0)
      M.upd fun s => (s.updX fun x => { x with inv := some { i with emitted := i.emitted ++ recs } }).updCur Cohort.closeIdem
      emitR (lanes.flatMap fun (j, l) => dstN d (some l) 2 (slotAddr i e t (k + j))) 0 (some 0)

def execReserve (h : Hdr) (d b : Opd) : State → Host.Outcome State Fault Refusal :=
  runI h { uni := true, srcs := [(b, 1)], dsts := [(d, 1)] } false fun _ => do
    let s ← get
    let e := (src32 s none b).toNat
    let (i, _, _, mx) ← edgeM e
    emitR (dst32 d none (BitVec.ofNat 32 (mx - madeOn i e))) 0 (some 4)

/-- Pages of an edge that hold a record, in order. -/
def usedPages (i : Inv) (e : Nat) (t : GNode) : List Nat :=
  ((i.pages.filter fun p => p.1 == e).map (·.2)).take (ceilDiv (madeOn i e) (perPage t))

def execReserveDrop (h : Hdr) (b : Opd) : State → Host.Outcome State Fault Refusal :=
  runI h { uni := true, srcs := [(b, 1)] } false fun _ => do
    let s ← get
    let e := (src32 s none b).toNat
    let (i, _, t, _) ← edgeM e
    let used := usedPages i e t
    let back := (i.pages.filter fun p => p.1 == e && !used.contains p.2).map (·.2)
    let i' : Inv := { i with pages := i.pages.filter fun p => !(p.1 == e && back.contains p.2)
                             dropped := if i.dropped.contains e then i.dropped else i.dropped ++ [e] }
    M.upd fun s =>
      let s := (s.updX fun x => { x with inv := some i' }).updCur Cohort.closeIdem
      match s.cur.pl.launch with
      | some l => s.updGraph l (givePages back)
      | none => s

/-! ## The end of an invocation (R352) -/

/-- What an invocation's end does to the pool of its launch: it publishes its records or none, its inputs are consumed, the other pages of
its reservation return. -/
def closeInv (publish : Bool) (i : Inv) (l : Nat) (s : State) : State :=
    s.updGraph l fun g =>
      let n := nth g.nodes i.node GNode.zero
      let out := if publish then i.emitted else []
      let used := out.map fun r => r.addr / 4096 * 4096
      let live := used.foldl (fun (m : Map Nat) p => m.put p (m.get p 0 + 1)) g.live
      let recs := ((List.range out.length).zip out).map fun (k, r) =>
        (⟨(nth n.edges r.edge (0, 0)).1, r.addr, r.depth, i.index + 1, k⟩ : GRec)
      let back := (i.pages.map (·.2)).filter fun p => !used.contains p
      consume i.inputs (givePages back { g with live := live, recs := g.recs ++ recs, running := g.running - 1 })

/-- The end of the issuing cohort's invocation. -/
def endInvocation (publish : Bool) (s : State) : State :=
  match s.cur.x.inv, s.cur.pl.launch with
  | some i, some l => (closeInv publish i l s).updX fun x => { x with inv := none }
  | _, _ => s

end Sys2Proof.Machine
end

