-- ==== Sys2Proof/Machine/Gather.lean ====
section
/-! DEFINITION. Chains of loads that a lane of one instruction makes, each depending on the one before (LTSAMPLE, TEXF): a load
that must wait suspends the whole instruction, one that faults is its lane's trap (R243, R340). -/

namespace Sys2Proof.Machine

/-- Why a lane's chain of loads stops. -/
inductive GStop where
  | wait (w : WaitOn) (s : State)
  /-- the load touches a block that is not filled -/
  | block (va : Nat) (t : Tr) (s : State)
  | fault (t : Trap) (s : State)

abbrev GM (α : Type) := StateT State (Except GStop) α

/-- The number under which a lane's requests of a chain park. -/
def gatherKey (c : Cohort) (lane : Option Nat) : Nat := c.pl.id * 2 ^ 24 + 256 + lane.getD 32

def GM.trap {α : Type} (t : Trap) : GM α := fun s => .error (.fault t s)

/-- One aligned relaxed load of n bytes by a lane. -/
def gLoad (lane : Option Nat) (ca : Cache) (n va : Nat) : GM (List Byte) := fun s =>
  let l : LaneAcc := ⟨lane, va, resolve .glob .load false n s lane va⟩
  let open_ := match l.st, l.ask s with
    | .at_ _ (some t), .wait _ | .at_ _ (some t), .off => some t
    | _, _ => none
  match open_ with
  | some t => .error (.block va t s)
  | none =>
    if logStall s .glob n l then .error (.wait .log s)
    else if l.behind s n then .error (.wait .parked s)
    else match l.st with
    | .fault t => .error (.fault t s)
    | .defer | .busy => .error (.wait .busy s)
    | .at_ loc _ =>
      let key := gatherKey s.cur lane
      let sector := l.pa / 64 * 64
      if l.ask s == Ask.failed then .error (.fault (genFaultT s va) s)
      else if s.refused.contains (key, sector) then .error (.fault (poisonT 1 va) s)
      else if s.parked.any fun q => q.pa == sector && q.req == Req.engine key then .error (.wait .parked s)
      else match loadAt loc va n .coh ca 0#32 (.engine key) (noteLanes .load [l] s) with
        | (.val bs, s) => .ok (bs, s)
        | (.parked, s) => .error (.wait .parked s)
        | (.fault t, s) => .error (.fault t s)

/-- Bytes by aligned loads of w bytes. -/
def gBytes (lane : Option Nat) (ca : Cache) (w : Nat) : Nat → Nat → GM (List Byte)
  | 0, _ => pure []
  | k + 1, va => do
    let b ← gLoad lane ca w (va % 2 ^ 64)
    let t ← gBytes lane ca w k (va + w)
    pure (b ++ t)

/-- What the lanes of such an instruction come to: the writes of those that end, the traps of those that fault, the blocks that they have
to wait for, another reason to wait. -/
structure GRun where
  writes : List (List Wr × Flags)
  traps : List (Nat × Trap)
  blocks : List (Nat × Tr)
  waits : Option WaitOn
  s : State

/-- Run the lanes in ascending order. -/
def gLanes (f : Nat → GM (List Wr × Flags)) : List Nat → State → GRun
  | [], s => ⟨[], [], [], none, s⟩
  | i :: l, s =>
    match f i s with
    | .error (.wait w s') => { gLanes f l s' with waits := some w }
    | .error (.block va t s') => let r := gLanes f l s'; { r with blocks := (va, t) :: r.blocks }
    | .error (.fault t s') => let r := gLanes f l s'; { r with traps := (i, t) :: r.traps }
    | .ok (x, s') => let r := gLanes f l s'; { r with writes := x :: r.writes }

/-- The lowest-addressed of some blocks' addresses. -/
def lowestBlock (l : List (Nat × Tr)) : Option (Nat × Tr) :=
  l.foldl (fun b x => match b with
    | none => some x
    | some y => if x.1 < y.1 then some x else some y) none

/-- The body of an instruction whose lanes make chains of loads. One that has to wait waits whole, on the lowest-addressed block that it
touches and that is not filled (R341). -/
def gatherM (act : Mask) (f : Nat → GM (List Wr × Flags)) : M Unit := fun s =>
  let r := gLanes f act.lanes s
  match r.waits, lowestBlock r.blocks with
  | some w, _ => .error (.wait w r.s)
  | none, some (va, t) => requestM va t r.s
  | none, none => (do
      emitR (r.writes.flatMap Prod.fst) (joinFlags (r.writes.map Prod.snd)) none
      match r.traps with
      | [] => pure ()
      | (_, t) :: _ => M.trap { t with done := act &&& ~~~(Mask.ofLanes (r.traps.map Prod.fst)) } : M Unit) r.s

end Sys2Proof.Machine
end

