-- ==== Sys2Proof/Machine/Reservoir.lean ====
section
/-! DEFINITION. Reservoirs, random words and the light tree (R174 to R189). -/

namespace Sys2Proof.Machine

/-! ## Records (R174, R175) -/

abbrev Rsv := BitVec 256

namespace Rsv
def get (r : Rsv) (lo n : Nat) : Nat := nbits r.toNat (lo + n - 1) lo
def put (r : Rsv) (lo n x : Nat) : Rsv :=
  BitVec.ofNat 256 (r.toNat - nbits r.toNat (lo + n - 1) lo * 2 ^ lo + x % 2 ^ n * 2 ^ lo)
def sample (r : Rsv) : Nat := r.get 0 32
def phat (r : Rsv) : Nat := r.get 32 32
def wsum (r : Rsv) : Nat := r.get 64 32
def mcnt (r : Rsv) : Nat := r.get 96 16
def nf (r : Rsv) : Bool := nbit r.toNat 118
def valid (r : Rsv) : Bool := nbit r.toNat 119
def age (r : Rsv) : Nat := r.get 120 8
def ucw (r : Rsv) : Nat := r.get 128 32
def payload (r : Rsv) : Nat := r.get 160 96
def setNf (r : Rsv) : Rsv := r.put 118 1 1
/-- Reserved bits are stored as zero. -/
def stored (r : Rsv) : Rsv := r.put 112 6 0
/-- A group's words. -/
def ofWords (l : List Word) : Rsv := BitVec.ofNat 256 (l.foldr (fun w x => w.toNat + 2 ^ 32 * x) 0)
def words (r : Rsv) : List Word := (List.range 8).map fun k => BitVec.ofNat 32 (r.get (32 * k) 32)
end Rsv

/-- The record group of a lane, and its writes. -/
def groupAtLane (s : State) (o : Opd) (i : Nat) : Rsv := Rsv.ofWords (srcWords s (some i) o 8)
def writeGroup (d : Opd) (i : Nat) (r : Rsv) : List Wr := dstN d (some i) 8 r.toNat

/-! ## The arithmetic of R182 to R185 -/

/-- NaN, infinite or negative; −0 is not negative. -/
def badWeight (c : Nat) : Bool :=
  match Fmt.f32.val c with
  | .fin neg m _ => neg && m != 0
  | _ => true

/-- A uniform number of 24 bits. -/
def unif (w : Nat) : Val := .fin false (w / 256 % 2 ^ 24) (-24)
def rne32 (v : Val) : Nat := (Fmt.f32.round .rne false false v).1

/-- One candidate into a record: weight w, target p, `cnt` more counts, AGE of the sample; the record and whether RSVNF is
raised. -/
def stream (rc cand : Rsv) (p w g cnt age : Nat) : Rsv × Bool :=
  let bad := badWeight w || badWeight p
  let w := if bad || w == 0x8000_0000 then 0 else w
  let rc := if bad then rc.setNf else rc
  let (ws, fl) := Fmt.f32.add .rne true false rc.wsum w
  let rc := if fl &&& Fl.overflow != 0 then rc.setNf else rc
  let rc := (rc.put 64 32 ws).put 96 16 (min 65535 (rc.mcnt + cnt))
  let t := rne32 ((unif g).mul (Fmt.f32.val ws)).1
  let rc := if (Fmt.f32.val t).lt (Fmt.f32.val w) then
      ((((rc.put 0 32 cand.sample).put 32 32 p).put 160 96 cand.payload).put 119 1 1).put 120 8 age
    else rc
  (rc, bad)

/-- R182. -/
def rsvUpd (rc cand : Rsv) (g : Nat) : Rsv × Bool := stream rc cand cand.phat cand.wsum g 1 0

/-- R183. -/
def rsvMrg (rc a : Rsv) (p g : Nat) : Rsv × Bool :=
  let w := if badWeight p || badWeight a.ucw then Fmt.f32.nanCode
    else (Fmt.f32.mul .rne false false (Fmt.f32.mul .rne false false p a.ucw).1 (rne32 (.fin false a.mcnt 0))).1
  let (r, bad) := stream rc a p w g a.mcnt a.age
  (if a.nf then r.setNf else r, bad)

/-- R184. -/
def rsvNorm (rc : Rsv) : Rsv × Bool :=
  let pos := (Val.fin false 0 0).lt (Fmt.f32.val rc.phat)
  if !pos || rc.mcnt == 0 then (rc.put 128 32 0, false)
  else
    let den := (Fmt.f32.mul .rne false false (rne32 (.fin false rc.mcnt 0)) rc.phat).1
    let (q, fl) := Fmt.f32.div .rne true false rc.wsum den
    let ovf := fl &&& Fl.overflow != 0
    let rc := rc.put 128 32 q
    (if ovf then rc.setNf else rc, ovf)

/-- R185. -/
def rsvCap (rc : Rsv) (c : Nat) : Rsv :=
  if rc.mcnt ≤ c then rc
  else
    let f := (Fmt.f32.div .rne false false (rne32 (.fin false c 0)) (rne32 (.fin false rc.mcnt 0))).1
    (rc.put 64 32 (Fmt.f32.mul .rne false false rc.wsum f).1).put 96 16 c

/-- FPSTAT.RSVNF as a flag. -/
def nfFlag (b : Bool) : Flags := if b then Fl.rsvnf else 0

def execRsvupd (h : Hdr) (d a b : Opd) : State → Host.Outcome State Fault Refusal :=
  runLanes h (Meta.of d 8 [(a, 8), (b, 1), (d, 8)]) (some 8) fun s ln =>
    let i := ln.getD 0
    let (r, nf) := rsvUpd (groupAtLane s d i) (groupAtLane s a i) (src32 s ln b).toNat
    (writeGroup d i r, nfFlag nf)

def execRsvmrg (h : Hdr) (d a b c : Opd) : State → Host.Outcome State Fault Refusal :=
  runLanes h (Meta.of d 8 [(a, 8), (b, 1), (c, 1), (d, 8)]) (some 8) fun s ln =>
    let i := ln.getD 0
    let (r, nf) := rsvMrg (groupAtLane s d i) (groupAtLane s a i) (src32 s ln b).toNat (src32 s ln c).toNat
    (writeGroup d i r, nfFlag nf)

def execRsvnorm (h : Hdr) (d : Opd) : State → Host.Outcome State Fault Refusal :=
  runLanes h (Meta.of d 8 [(d, 8)]) (some 8) fun s ln =>
    let i := ln.getD 0
    let (r, nf) := rsvNorm (groupAtLane s d i)
    (writeGroup d i r, nfFlag nf)

def execRsvcap (h : Hdr) (d a : Opd) : State → Host.Outcome State Fault Refusal :=
  runLanes h (Meta.of d 8 [(a, 1), (d, 8)]) (some 8) fun s ln =>
    let i := ln.getD 0
    (writeGroup d i (rsvCap (groupAtLane s d i) ((src32 s ln a).toNat % 65536)), 0)

/-- The worked records of R185. -/
theorem rsv_worked :
    let r1 := (rsvUpd 0 (((0 : Rsv).put 0 32 11).put 32 32 0x40800000 |>.put 64 32 0x40000000) 0x8000_0000).1
    let r2 := (rsvUpd r1 (((0 : Rsv).put 0 32 12).put 32 32 0x3F800000 |>.put 64 32 0x40C00000) 0xC000_0000).1
    let r3 := rsvUpd r2 (((0 : Rsv).put 0 32 13).put 32 32 0x3F800000 |>.put 64 32 0x7FC00000) 0
    let r4 := (rsvNorm r3.1).1
    let r5 := rsvCap r4 1
    [r1.sample, r2.sample, r2.mcnt, r3.1.mcnt, if r3.2 then 1 else 0, r4.ucw, r5.wsum, r5.mcnt]
      = [11, 11, 2, 3, 1, 0x3F2AAAAB, 0x402AAAAB, 1] := by decide +kernel

/-! ## The surface (R176 to R178) -/

/-- RSVSURF's fields. -/
def surfW (s : State) : Nat := (s.m.rsvsurf.extractLsb' 0 14).toNat + 1
def surfH (s : State) : Nat := (s.m.rsvsurf.extractLsb' 16 14).toNat + 1
def surfEn (s : State) : Bool := s.m.rsvsurf.getLsbD 32
def surfOwned (s : State) (part asid : Nat) : Bool :=
  (s.m.rsvsurf.extractLsb' 44 4).toNat == part && (s.m.rsvsurf.extractLsb' 48 16).toNat == asid

/-- The number of a record of a plane. -/
def rsvKey (plane : Bool) (x y : Nat) : Nat := (if plane then 2 ^ 28 else 0) + y * 2 ^ 14 + x

def splitX (w : Nat) : Nat := ceilDiv (ceilDiv w 8) 2
/-- The die that owns a pixel (R177). -/
def pixelDie (w h x y : Nat) : Nat := (if splitX w ≤ x / 8 then 1 else 0) + (if splitX h ≤ y / 8 then 2 else 0)
/-- A die's quadrant: [x0, x1) × [y0, y1). -/
def quadrant (w h d : Nat) : Nat × Nat × Nat × Nat :=
  let (x0, x1) := if d % 2 == 1 then (min w (8 * splitX w), w) else (0, min w (8 * splitX w))
  let (y0, y1) := if 2 ≤ d then (min h (8 * splitX h), h) else (0, min h (8 * splitX h))
  (x0, x1, y0, y1)

/-- Bytes a die needs (R178). -/
def surfNeed (w h d : Nat) : Nat :=
  let (x0, x1, y0, y1) := quadrant w h d
  if x1 ≤ x0 || y1 ≤ y0 then 0
  else
    let q := (x1 - x0) * (y1 - y0)
    let e := (min w (x1 + 16) - (x0 - 16)) * (min h (y1 + 16) - (y0 - 16))
    64 * q + 32 * (e - q)

/-- Ways carved on a die. -/
def carved (s : State) (d : Nat) : Nat := (s.m.carve.toNat / 16 ^ d) % 16

/-- No reservoir instruction and no curator job is in flight (R16, R176): instructions perform whole, so jobs decide. -/
def surfIdle (s : State) : Bool := !s.jobs.any fun j => !j.build
/-- The same on one die. -/
def surfIdleDie (s : State) (d : Nat) : Bool := !s.jobs.any fun j => !j.build && j.die == d

/-! ## RSVLD, RSVST (R181) -/

/-- The pixel that a word names. -/
def pixelOf (w : Word) : Nat × Nat := (w.toNat % 65536, w.toNat / 65536)

/-- Is a record in the destination of a resample job (R199, R204)? -/
def jobWrites (j : Job) (plane : Bool) (x y : Nat) : Bool :=
  let n := if nbit (fld j.desc 4 1) 0 then 8 else 4
  let tx := fld j.desc 0 2
  let ty := fld j.desc 2 2
  !j.build && fld j.desc 4 1 / 2 % 4 == 0 && nbit (fld j.desc 4 1) 6 == plane
    && decide (tx ≤ x && x < tx + n && ty ≤ y && y < ty + n)

/-- A record in the destination of an accepted, unfinished job is waited for (R204). -/
def recordWait (act : Mask) (plane : Bool) (a : Opd) : M Unit :=
  M.waitUntil .record fun s => !act.lanes.any fun i =>
    let (x, y) := pixelOf (src32 s (some i) a)
    s.jobs.any fun j => jobWrites j plane x y

/-- The checks before any lane performs. -/
def surfCheck (act : Mask) (a : Opd) : M Unit := do
  let s ← get
  let p := s.cur.pl
  let off := act.lanes.any fun i =>
    let (x, y) := pixelOf (src32 s (some i) a)
    decide (surfW s ≤ x) || decide (surfH s ≤ y)
  M.trapIf (!surfEn s || !surfOwned s p.part p.asid || off) (accessT 0)

def execRsvld (h : Hdr) (m : MMod) (d a : Opd) : State → Host.Outcome State Fault Refusal :=
  runI h { srcs := [(a, 1)], dsts := [(d, 8)], opnd := 1 } false fun act => do
    surfCheck act a
    recordWait act m.x a
    let s ← get
    let key := fun (i : Nat) => let (x, y) := pixelOf (src32 s (some i) a); rsvKey m.x x y
    let ok := act.lanes.filter fun i => !s.rsvPoison.contains (key i)
    emitR (ok.flatMap fun i => writeGroup d i (s.resv.get (key i) 0#256)) 0 none
    M.trapIf (decide (ok.length < act.lanes.length)) { cause := Cause.poison, detail := 1, done := Mask.ofLanes ok }
    if Order.isAcq m.order then M.upd (acquire m.scope) else pure ()

def execRsvst (h : Hdr) (m : MMod) (a b : Opd) : State → Host.Outcome State Fault Refusal :=
  runI h { srcs := [(a, 1), (b, 8)], lates := if Order.isRel m.order then latesRel else [], opnd := 1 } false fun act => do
    surfCheck act a
    recordWait act m.x a
    if Order.isRel m.order then releaseM m.scope else pure ()
    M.upd fun s => act.lanes.foldl (fun s i =>
      let (x, y) := pixelOf (src32 s (some i) a)
      { s with resv := s.resv.set (rsvKey m.x x y) (groupAtLane s b i).stored 0#256
               rsvPoison := s.rsvPoison.filter fun k => k != rsvKey m.x x y }) s

/-! ## RNG (R179, R180) -/

/-- c1 of the streams of a cohort lane. -/
def laneC1 (tag glane : Nat) : Nat := tag * 65536 + glane / 2 ^ 32 % 65536

/-- The four words that a lane draws. -/
def laneWords (c : Cohort) (key : Dword) (tag n lane : Nat) : List Word :=
  let g := glaneOf c lane
  philox key.toNat n (laneC1 tag g) (g % 2 ^ 32) c.pl.lkey.toNat

def execRng (h : Hdr) (x4 : Bool) (d a b : Opd) : State → Host.Outcome State Fault Refusal :=
  let k := if x4 then 4 else 1
  runLanes h { srcs := [(a, 2), (b, 1)], dsts := [(d, k)] } (some 8) fun s ln =>
    let i := ln.getD 0
    let ws := laneWords s.cur (src64 s none a) 0 (src32 s ln b).toNat i
    (dstN d ln k ((ws.take k).foldr (fun w x => w.toNat + 2 ^ 32 * x) 0), 0)

/-! ## The light tree (R186 to R189) -/

/-- Exact values that are finite. -/
def Val.fin? : Val → Bool
  | .fin _ _ _ => true
  | _ => false

def Val.sub (x y : Val) : Val := (x.add .rne y.negate).1
def Val.sq (x : Val) : Val := (x.mul x).1
def Val.plus (x y : Val) : Val := (x.add .rne y).1
def Val.times (x y : Val) : Val := (x.mul y).1
/-- A code of binary32 as a value. -/
def f32v (c : Nat) : Val := Fmt.f32.val c
/-- Round, and back to a value. -/
def rv (v : Val) : Val := f32v (rne32 v)

/-- Round a finite x over the root of a finite positive y, once: the root of x²/y by integers. -/
def overRoot (x y : Val) : Nat :=
  match x, y with
  | .fin n m e, .fin _ k f =>
    if m == 0 then rne32 (.fin n 0 0)
    else
      -- x² / y = m² / k · 2^(2e − f)
      let odd := (2 * e - f) % 2 != 0
      let num := (if odd then 2 else 1) * m * m
      let ex := (if odd then 2 * e - f - 1 else 2 * e - f) / 2
      let sh := 100 + Nat.log2 k
      let q := num * 4 ^ sh / k
      let r := isqrt q
      (Fmt.f32.roundFin .rne false false n r (ex - sh) (r * r * k != num * 4 ^ sh)).1
  | _, _ => Fmt.f32.nanCode

/-- Round a + √b once, for finite a and finite b ≥ 0. -/
def plusRoot (a b : Val) : Nat :=
  match a, b with
  | .fin n m e, .fin _ k f =>
    let lo : Int := -400
    let ai := Val.scaled n m e (min lo e)
    let sh := (lo - min lo e).toNat
    let x := k * 2 ^ (f - 2 * lo).toNat
    let r := isqrt x * 2 ^ sh
    let st := isqrt x * isqrt x != x
    let z := ai + r
    let ex := min lo e
    if z < 0 then
      (if st then Fmt.f32.roundFin .rne false false true (z.natAbs - 1) ex true
        else Fmt.f32.roundFin .rne false false true z.natAbs ex false).1
    else (Fmt.f32.roundFin .rne false false false z.natAbs ex st).1
  | _, _ => Fmt.f32.nanCode

/-- A snorm16 coordinate of an octahedral direction, rounded once. -/
def snorm (c : Nat) : Val :=
  let x := sextInt 16 c
  let x := if x == -32768 then -32767 else x
  let (m, e, st) := divNat 60 x.natAbs 0 32767 0
  f32v (Fmt.f32.roundFin .rne false false (decide (x < 0)) m e st).1

/-- The axis of a node (R187). -/
def axisOf (a b : Nat) : List Val :=
  let ox := snorm a
  let oy := snorm b
  let nz := rv (Val.sub (Val.sub Val.one ox.abs) oy.abs)
  let fold := nz.lt (.fin false 0 0)
  let sgn := fun (x y : Val) => if y.neg? then x.negate else x
  let x := if fold then sgn (rv (Val.sub Val.one oy.abs)) ox else ox
  let y := if fold then sgn (rv (Val.sub Val.one ox.abs)) oy else oy
  let n2 := Val.plus (Val.plus (Val.sq x) (Val.sq y)) (Val.sq nz)
  [x, y, nz].map fun c => f32v (overRoot c n2)

/-- The importance of a node at a point (R188); a line whose exact value does not exist leaves a free value. -/
def importance (node : List Byte) (p : List Word) : Nat :=
  let power := f32v (fld node 8 4)
  let zero : Val := .fin false 0 0
  if !Val.fin? power || !zero.lt power then 0
  else
    let free := (Config.importance node p).toNat
    let isNan := fun (v : Val) => !v.eq v
    let ctr := (List.range 3).map fun k => Fmt.f16.val (fld node (2 * k) 2)
    let d := (p.zip ctr).map fun (x, c) => rv (Val.sub (f32v x.toNat) c)
    let rad := Fmt.f16.val (fld node 6 2)
    let cosc := Fmt.f16.val (fld node 16 2)
    let one := Val.one
    let dist2 := rv (d.foldl (fun x y => Val.plus x (Val.sq y)) zero)
    let rad2 := rv (Val.sq rad)
    if isNan dist2 || isNan rad2 then free
    else
      let axis := axisOf (fld node 12 2) (fld node 14 2)
      let dot := (axis.zip d).foldl (fun x (a, b) => Val.plus x (Val.times a b)) zero
      let ct := if Val.fin? dist2 then f32v (overRoot dot dist2) else .fin dot.neg? 0 0
      let near := cosc.lt one.negate || cosc.eq one.negate || dist2.isZero
      let all := near || (d.all Val.fin? && (cosc.lt ct || cosc.eq ct))
      let b := Val.times (Val.sub one (Val.sq ct)) (Val.sub one (Val.sq cosc))
      if !all && (!d.all Val.fin? || !Val.fin? cosc || one.lt ct.abs || one.lt cosc.abs) then free
      else
        let cb := if all then one else f32v (plusRoot (Val.times ct cosc) b)
        let den := if dist2.lt rad2 then rad2 else dist2
        let pos := zero.lt cb
        if den.isZero then (if pos then Fmt.f32.maxCode else 0)
        else match Val.times power (if pos then cb else zero), den with
          | .fin _ m e, .fin _ k f =>
            if m == 0 then 0
            else
              let (q, ex, st) := divNat 60 m e k f
              (Fmt.f32.roundFin .rne false false false q ex st).1
          | _, _ => 0

/-- A node of a tree, read by a lane; reserved bits set make it none. -/
def lightNode (lane base ix : Nat) : GM (List Byte × Bool) := do
  let b ← gLoad (some lane) .dflt 32 ((base + 32 * ix) % 2 ^ 64)
  pure (b, fld b 18 2 / 2 == 0 && fld b 28 4 == 0)

def lightFail : Nat × Nat := (0xFFFF_FFFF, 0)

/-- The walk of R189 from a node at step j. -/
def lightWalk (c : Cohort) (lane base : Nat) (key : Dword) (n : Nat) (p : List Word) :
    Nat → Nat → List Byte → Bool → Nat → GM (Nat × Nat)
  | 0, _, node, ok, pmf => pure (if ok && nbit (fld node 18 2) 0 then (fld node 20 4, pmf) else lightFail)
  | fuel + 1, j, node, ok, pmf =>
    if !ok then pure lightFail
    else if nbit (fld node 18 2) 0 then pure (fld node 20 4, pmf)
    else
      lightNode lane base (fld node 20 4) >>= fun (l, okl) =>
      lightNode lane base (fld node 24 4) >>= fun (r, okr) =>
        if !okl || !okr then pure lightFail
        else
          let il := importance l p
          let ir := importance r p
          let sm := (Fmt.f32.add .rne false false il ir).1
          if (f32v sm).isZero then pure lightFail
          else
            let pl := (Fmt.f32.div .rne false false il sm).1
            let w := (nth (laneWords c key (0x100 + j / 4) n lane) (j % 4) 0#32).toNat
            if (unif w).lt (f32v pl) then
              lightWalk c lane base key n p fuel (j + 1) l okl (Fmt.f32.mul .rne false false pmf pl).1
            else lightWalk c lane base key n p fuel (j + 1) r okr
              (Fmt.f32.mul .rne false false pmf (Fmt.f32.div .rne false false ir sm).1).1

def execLtsample (h : Hdr) (d a b c : Opd) : State → Host.Outcome State Fault Refusal :=
  runI h { srcs := [(a, 4), (b, 2), (c, 2)], dsts := [(d, 2)], opnd := 2 } false fun act => do
    let s ← get
    let base := (src64 s none b).toNat
    M.trapIf (act != 0#32 && base % 32 != 0) { cause := Cause.alignment, addr := base }
    gatherM act fun i => do
      let ws := srcWords s (some i) a 4
      let (root, ok) ← lightNode i base 0
      let (ix, pmf) ← lightWalk s.cur i base (src64 s none c) (nth ws 3 0#32).toNat (ws.take 3) 32 0 root ok 0x3F80_0000
      pure (dstN d (some i) 2 (ix + 2 ^ 32 * pmf), 0)

end Sys2Proof.Machine
end

