-- ==== Sys2Proof/Machine/Hart.lean ====
section
/-! DEFINITION. The embedded harts (R197, R198): RV32I with M, F, Zicsr, Zba and Zbb in user mode. -/

namespace Sys2Proof.Machine

/-- Registers and scratch of an evaluation. What nothing has written is a free value under `pick`. -/
structure HSt where
  pick : Nat
  /-- x at 0 to 31, f at 32 to 63 -/
  regs : Map Word
  pc : Nat
  fcsr : Nat
  ret : Nat
  nrand : Nat
  hv : Word
  scr : Map Byte
  /-- the cycle counter as it was last known, and how many instructions had retired then -/
  cyc : Nat
  cycAt : Nat

/-- What an evaluation is given. -/
structure HEnv where
  img : List Byte
  apbase : Nat
  budget : Nat
  kind : Nat
  pixel : Word
  slot : Word
  prim : Word
  rand : Nat → Word
  input : List Byte
  agent : Agent

/-- How an evaluation ends. -/
inductive HEnd where
  | ecall | budget | fault
deriving DecidableEq, Repr

def HSt.x (h : HSt) (n : Nat) : Word :=
  if n == 0 then 0#32 else match h.regs.find? (fun (e : Nat × Word) => e.1 == n) with | some e => e.2 | none => Config.hartReg h.pick n
def HSt.f (h : HSt) (n : Nat) : Nat :=
  (match h.regs.find? (fun (e : Nat × Word) => e.1 == 32 + n) with | some e => e.2 | none => Config.hartReg h.pick (32 + n)).toNat
def HSt.setX (h : HSt) (n : Nat) (v : Word) : HSt := if n == 0 then h else { h with regs := h.regs.put n v }
def HSt.setF (h : HSt) (n v : Nat) : HSt := { h with regs := h.regs.put (32 + n) (BitVec.ofNat 32 v) }
/-- Sticky fflags: NV, DZ, OF, UF, NX from bit 4 down. -/
def HSt.flags (h : HSt) (fl : Flags) : HSt :=
  let g := (List.range 5).foldl (fun g k => if fl.getLsbD k then g ||| 2 ^ (4 - k) else g) h.fcsr
  { h with fcsr := g }
def HSt.next (h : HSt) : HSt := { h with pc := (h.pc + 4) % 2 ^ 32 }

/-! ## Rounding modes: the fifth, to nearest with ties away -/

inductive HRnd where
  | std (r : Rnd)
  | rmm

/-- rm of an instruction, with frm for the dynamic code; reserved codes have none. -/
def HSt.rm (h : HSt) (code : Nat) : Option HRnd :=
  match if code == 7 then h.fcsr / 32 % 8 else code with
  | 0 => some (.std .rne)
  | 1 => some (.std .rz)
  | 2 => some (.std .rd)
  | 3 => some (.std .ru)
  | 4 => some .rmm
  | _ => none

/-- A format wide enough to carry sums, products, quotients and roots of FP32 values before their one rounding. -/
def Fmt.wide : Fmt := ⟨15, 600, 16383, .ieee⟩
def toWide (c : Nat) : Nat := (Fmt.wide.round .rne false false (Fmt.f32.val c)).1

/-- An operation under a mode. Ties away: an inexact result is rounded again from the wide truncated one as if a
remainder followed, which decides ties upward and nothing else. -/
def hartOp (m : HRnd) (f : Fmt → Rnd → List Nat → Nat × Flags) (xs : List Nat) : Nat × Flags :=
  match m with
  | .std r => f .f32 r xs
  | .rmm =>
    let (c, fl) := f .f32 .rne xs
    if fl &&& Fl.inexact == 0 then (c, fl)
    else match Fmt.wide.val (f .wide .rz (xs.map toWide)).1 with
      | .fin n k e => ((Fmt.f32.roundFin .rne false false n k e true).1, fl)
      | _ => (c, fl)

def a1 (xs : List Nat) : Nat := nth xs 0 0
def a2 (xs : List Nat) : Nat := nth xs 1 0
def a3 (xs : List Nat) : Nat := nth xs 2 0

/-- The fused multiply-add of the F extension: infinity times zero is invalid even with a quiet NaN addend. -/
def hartFma (f : Fmt) (r : Rnd) (xs : List Nat) : Nat × Flags :=
  let (c, fl) := f.fma r false false (a1 xs) (a2 xs) (a3 xs)
  (c, fl ||| (if (Val.mul (f.val (a1 xs)) (f.val (a2 xs))).2 then Fl.invalid else 0))

/-- FCVT.W.S and FCVT.WU.S: NaN gives the largest value. -/
def hartToInt (m : HRnd) (signed : Bool) (c : Nat) : Nat × Flags :=
  match Fmt.f32.val c with
  | .nan _ _ => (wrapNat 32 (intMax 32 signed), Fl.invalid)
  | .inf n => (wrapNat 32 (if n then intMin 32 signed else intMax 32 signed), Fl.invalid)
  | .fin n k e =>
    let (q, ix) := match m with
      | .std r => quantize r n k e false 0
      | .rmm => ((quantize .rne n k e true 0).1, (quantize .rne n k e false 0).2)
    let z : Int := if n then -(q : Int) else q
    let y := clampInt 32 signed z
    if y != z then (wrapNat 32 y, Fl.invalid) else (wrapNat 32 z, if ix then Fl.inexact else 0)

/-- FCVT.S.W and FCVT.S.WU. -/
def hartOfInt (m : HRnd) (v : Val) : Nat × Flags :=
  match m with
  | .std r => Fmt.f32.round r false false v
  | .rmm =>
    let (c, fl) := Fmt.f32.round .rne false false v
    if fl &&& Fl.inexact == 0 then (c, fl) else ((Fmt.f32.round .rne false false v true).1, fl)

/-! ## Memory (R198) -/

/-- A load of n bytes; none is a hart fault. -/
def HSt.load (e : HEnv) (h : HSt) (a n : Nat) : AM (Option Nat) :=
  if a % n != 0 then pure none
  else if a + n ≤ 0x1_0000 then pure (some (fld e.img a n))
  else if 0x1_0000 ≤ a && a + n ≤ 0x1_1000 then
    pure (some (leNat ((List.range n).map fun k =>
      match h.scr.find? fun x => x.1 == a + k - 0x1_0000 with
      | some x => x.2
      | none => Config.hartScratch h.pick (a + k - 0x1_0000))))
  else if 0x2_0000 ≤ a && a + n ≤ 0x2_0040 then pure (some (fld e.input (a - 0x2_0000) n))
  else if 0x8000_0000 ≤ a then do
    let bs ← e.agent.read ((e.apbase + (a - 0x8000_0000)) % 2 ^ 64) n
    pure (some (leNat bs))
  else pure none

/-- A store of n bytes; only the private scratch is writable. -/
def HSt.store (h : HSt) (a n x : Nat) : Option HSt :=
  if a % n != 0 || a < 0x1_0000 || 0x1_1000 < a + n then none
  else some { h with scr := (List.range n).foldl (fun m k => m.put (a + k - 0x1_0000) (BitVec.ofNat 8 (x / 256 ^ k))) h.scr }

/-! ## Integer operations -/

def hDiv (signed isRem : Bool) (a b : Word) : Word :=
  if b == 0#32 then (if isRem then a else 0xFFFF_FFFF#32)
  else match signed, isRem with
    | true, false => BitVec.ofInt 32 (a.toInt.tdiv b.toInt)
    | true, true => BitVec.ofInt 32 (a.toInt.tmod b.toInt)
    | false, false => a / b
    | false, true => a % b

/-- OP with M, Zba and Zbb, by funct7 and funct3; none is no encoding. -/
def hOp (f7 f3 rs2 : Nat) (a b : Word) : Option Word :=
  let sh := b.toNat % 32
  match f7, f3 with
  | 0x00, 0 => some (a + b)
  | 0x20, 0 => some (a - b)
  | 0x00, 1 => some (a <<< sh)
  | 0x00, 2 => some (if a.toInt < b.toInt then 1 else 0)
  | 0x00, 3 => some (if a < b then 1 else 0)
  | 0x00, 4 => some (a ^^^ b)
  | 0x00, 5 => some (a >>> sh)
  | 0x20, 5 => some (a.sshiftRight sh)
  | 0x00, 6 => some (a ||| b)
  | 0x00, 7 => some (a &&& b)
  | 0x01, 0 => some (a * b)
  | 0x01, 1 => some (BitVec.ofInt 32 (a.toInt * b.toInt / 2 ^ 32))
  | 0x01, 2 => some (BitVec.ofInt 32 (a.toInt * b.toNat / 2 ^ 32))
  | 0x01, 3 => some (BitVec.ofNat 32 (a.toNat * b.toNat / 2 ^ 32))
  | 0x01, 4 => some (hDiv true false a b)
  | 0x01, 5 => some (hDiv false false a b)
  | 0x01, 6 => some (hDiv true true a b)
  | 0x01, 7 => some (hDiv false true a b)
  | 0x10, 2 => some (a + a + b)
  | 0x10, 4 => some (4#32 * a + b)
  | 0x10, 6 => some (8#32 * a + b)
  | 0x20, 7 => some (a &&& ~~~b)
  | 0x20, 6 => some (a ||| ~~~b)
  | 0x20, 4 => some (~~~(a ^^^ b))
  | 0x05, 4 => some (if a.toInt < b.toInt then a else b)
  | 0x05, 5 => some (if a < b then a else b)
  | 0x05, 6 => some (if a.toInt < b.toInt then b else a)
  | 0x05, 7 => some (if a < b then b else a)
  | 0x30, 1 => some (a.rotateLeft sh)
  | 0x30, 5 => some (a.rotateRight sh)
  | 0x04, 4 => if rs2 == 0 then some (a &&& 0xFFFF#32) else none
  | _, _ => none

/-- OP-IMM with Zbb. -/
def hImm (f3 f7 sh : Nat) (im : Word) (a : Word) : Option Word :=
  match f3 with
  | 0 => some (a + im)
  | 2 => some (if a.toInt < im.toInt then 1 else 0)
  | 3 => some (if a < im then 1 else 0)
  | 4 => some (a ^^^ im)
  | 6 => some (a ||| im)
  | 7 => some (a &&& im)
  | 1 => match f7, sh with
    | 0x00, _ => some (a <<< sh)
    | 0x30, 0 => some (BitVec.ofNat 32 (if a == 0#32 then 32 else 31 - Nat.log2 a.toNat))
    | 0x30, 1 => some (BitVec.ofNat 32 (trailing 32 a.toNat))
    | 0x30, 2 => some (BitVec.ofNat 32 (popCount 32 a.toNat))
    | 0x30, 4 => some ((a.extractLsb' 0 8).signExtend 32)
    | 0x30, 5 => some ((a.extractLsb' 0 16).signExtend 32)
    | _, _ => none
  | _ => match f7, sh with
    | 0x00, _ => some (a >>> sh)
    | 0x20, _ => some (a.sshiftRight sh)
    | 0x30, _ => some (a.rotateRight sh)
    | 0x14, 7 => some (BitVec.ofNat 32 (leNat ((leBytes 4 a.toNat).map fun b => if b == 0#8 then 0#8 else 0xFF#8)))
    | 0x34, 24 => some (BitVec.ofNat 32 (leNat (leBytes 4 a.toNat).reverse))
    | _, _ => none

/-- A branch's condition. -/
def hBranch (f3 : Nat) (a b : Word) : Option Bool :=
  match f3 with
  | 0 => some (a == b)
  | 1 => some (a != b)
  | 4 => some (decide (a.toInt < b.toInt))
  | 5 => some (!decide (a.toInt < b.toInt))
  | 6 => some (decide (a < b))
  | 7 => some (!decide (a < b))
  | _ => none

/-! ## CSRs (R197) -/

/-- Read a CSR; none is a hart fault. The cycle counter has advanced by at least one clock an instruction (log 44). -/
def HSt.csr (e : HEnv) (h : HSt) (n : Nat) : AM (Option (Word × HSt)) := fun s =>
  let w := fun (x : Nat) => (Except.ok (some (BitVec.ofNat 32 x, h), s) : Except AStop (Option (Word × HSt) × State))
  match n with
  | 0x001 => w (h.fcsr % 32)
  | 0x002 => w (h.fcsr / 32 % 8)
  | 0x003 => w (h.fcsr % 256)
  | 0xC00 | 0xC80 =>
    let (k, s) := s.draw
    let c := h.cyc + (h.ret - h.cycAt) + Config.hartStall k
    .ok (some (BitVec.ofNat 32 (if n == 0xC00 then c else c / 2 ^ 32), { h with cyc := c, cycAt := h.ret }), s)
  | 0xC01 => w (s.m.time % 2 ^ 32)
  | 0xC81 => w (s.m.time / 2 ^ 32)
  | 0xC02 => w h.ret
  | 0xC82 => w (h.ret / 2 ^ 32)
  | 0xCC0 => w (e.budget - h.ret)
  | 0xCC1 => w e.pixel.toNat
  | 0xCC2 => w e.slot.toNat
  | 0xCC3 => w e.prim.toNat
  | 0xCC4 => .ok (some (if h.nrand < 1024 then e.rand h.nrand else 0#32, { h with nrand := h.nrand + 1 }), s)
  | 0xCC5 => w e.kind
  | 0x800 => w h.hv.toNat
  | _ => .ok (none, s)

/-- Write a CSR; none is a hart fault. -/
def HSt.setCsr (h : HSt) (n : Nat) (v : Word) : Option HSt :=
  match n with
  | 0x001 => some { h with fcsr := h.fcsr / 32 % 8 * 32 + v.toNat % 32 }
  | 0x002 => some { h with fcsr := h.fcsr % 32 + v.toNat % 8 * 32 }
  | 0x003 => some { h with fcsr := v.toNat % 256 }
  | 0x800 => some { h with hv := v }
  | _ => none

/-- The CSR instructions: CSRRW with rd x0 does not read, CSRRS and CSRRC with rs1 x0 do not write. -/
def hCsr (e : HEnv) (h : HSt) (n f3 rd rs1 : Nat) : AM (Option HSt) := do
  let src : Word := if 4 ≤ f3 then BitVec.ofNat 32 rs1 else h.x rs1
  let swap := f3 % 4 == 1
  let rd? := !swap || rd != 0
  let wr := swap || rs1 != 0
  if wr && (h.setCsr n 0).isNone then pure none
  else do
    let r ← if rd? then h.csr e n else pure (some (0#32, h))
    match r with
    | none => pure none
    | some (old, h') =>
      let v := if swap then src else if f3 % 4 == 2 then old ||| src else old &&& ~~~src
      match if wr then h'.setCsr n v else some h' with
      | none => pure none
      | some h'' => pure (some (h''.setX rd old).next)

/-! ## One instruction -/

/-- OP-FP. -/
def hFp (h : HSt) (f7 f3 rd rs1 rs2 : Nat) : Option HSt :=
  let a := h.f rs1
  let b := h.f rs2
  let arith := fun (f : Fmt → Rnd → List Nat → Nat × Flags) (xs : List Nat) =>
    (h.rm f3).map fun m => let (c, fl) := hartOp m f xs; (h.setF rd c).flags fl
  let toX := fun (r : Nat × Flags) => (h.setX rd (BitVec.ofNat 32 r.1)).flags r.2
  match f7 with
  | 0x00 => arith (fun f r xs => f.add r false false (a1 xs) (a2 xs)) [a, b]
  | 0x04 => arith (fun f r xs => f.add r false false (a1 xs) (a2 xs)) [a, Fmt.f32.mods (!(Fmt.f32.val b).isNan) false b]
  | 0x08 => arith (fun f r xs => f.mul r false false (a1 xs) (a2 xs)) [a, b]
  | 0x0C => arith (fun f r xs => f.div r false false (a1 xs) (a2 xs)) [a, b]
  | 0x2C => if rs2 == 0 then arith (fun f r xs => f.sqrt r false false (a1 xs)) [a] else none
  | 0x10 =>
    let s := match f3 with | 0 => some (nbit b 31) | 1 => some (!nbit b 31) | 2 => some (nbit a 31 != nbit b 31) | _ => none
    s.map fun s => h.setF rd (a % 2 ^ 31 + (if s then 2 ^ 31 else 0))
  | 0x14 => if f3 ≤ 1 then let (c, fl) := Fmt.f32.minmax (f3 == 1) false a b; some ((h.setF rd c).flags fl) else none
  | 0x60 => if rs2 ≤ 1 then (h.rm f3).map fun m => toX (hartToInt m (rs2 == 0) a) else none
  | 0x68 =>
    if rs2 ≤ 1 then
      (h.rm f3).map fun m =>
        let (c, fl) := hartOfInt m (Val.ofInt (if rs2 == 0 then (h.x rs1).toInt else (h.x rs1).toNat))
        (h.setF rd c).flags fl
    else none
  | 0x70 =>
    if rs2 != 0 then none
    else match f3 with
      | 0 => some (h.setX rd (BitVec.ofNat 32 a))
      | 1 => some (h.setX rd (BitVec.ofNat 32 (Fmt.f32.classify a)))
      | _ => none
  | 0x50 =>
    let op := match f3 with | 0 => some FCmp.le | 1 => some FCmp.lt | 2 => some FCmp.eq | _ => none
    op.map fun op => let (t, fl) := Fmt.f32.cmp op false a b; toX (if t then 1 else 0, fl)
  | 0x78 => if rs2 == 0 && f3 == 0 then some (h.setF rd (h.x rs1).toNat) else none
  | _ => none

/-- Execute an instruction word; none is a hart fault. -/
def hExec (e : HEnv) (h : HSt) (w : Nat) : AM (Option HSt) :=
  let rd := nbits w 11 7
  let f3 := nbits w 14 12
  let rs1 := nbits w 19 15
  let rs2 := nbits w 24 20
  let f7 := nbits w 31 25
  let a := h.x rs1
  let b := h.x rs2
  let im : Word := (BitVec.ofNat 12 (w / 2 ^ 20)).signExtend 32
  let ims : Word := (BitVec.ofNat 12 (f7 * 32 + rd)).signExtend 32
  let up := w / 4096 * 4096
  let goto := fun (h : HSt) (t : Nat) => if t % 4 == 0 then some { h with pc := t % 2 ^ 32 } else none
  match w % 128 with
  | 0x37 => pure (some (h.setX rd (BitVec.ofNat 32 up)).next)
  | 0x17 => pure (some (h.setX rd (BitVec.ofNat 32 (h.pc + up))).next)
  | 0x6F =>
    let off := sextInt 21 (nbits w 31 31 * 2 ^ 20 + nbits w 19 12 * 2 ^ 12 + nbits w 20 20 * 2 ^ 11 + nbits w 30 21 * 2)
    pure (goto (h.setX rd (BitVec.ofNat 32 (h.pc + 4))) (wrapNat 32 (h.pc + off)))
  | 0x67 =>
    pure (if f3 == 0 then goto (h.setX rd (BitVec.ofNat 32 (h.pc + 4))) ((a + im).toNat / 2 * 2) else none)
  | 0x63 =>
    let off := sextInt 13 (nbits w 31 31 * 2 ^ 12 + nbits w 7 7 * 2 ^ 11 + nbits w 30 25 * 2 ^ 5 + nbits w 11 8 * 2)
    match hBranch f3 a b with
    | none => pure none
    | some t => pure (if t then goto h (wrapNat 32 (h.pc + off)) else some h.next)
  | 0x03 =>
    if f3 == 3 || 6 ≤ f3 then pure none
    else do
      let n := 2 ^ (f3 % 4)
      match ← h.load e (a + im).toNat n with
      | none => pure none
      | some x => pure (some (h.setX rd (if f3 < 4 then BitVec.ofInt 32 (sextInt (8 * n) x) else BitVec.ofNat 32 x)).next)
  | 0x23 => pure (if 3 ≤ f3 then none else (h.store (a + ims).toNat (2 ^ f3) b.toNat).map HSt.next)
  | 0x13 => pure ((hImm f3 f7 rs2 im a).map fun v => (h.setX rd v).next)
  | 0x33 => pure ((hOp f7 f3 rs2 a b).map fun v => (h.setX rd v).next)
  | 0x0F => pure (if f3 == 0 then some h.next else none)
  | 0x73 => if f3 % 4 == 0 then pure none else hCsr e h (w / 2 ^ 20) f3 rd rs1
  | 0x07 =>
    if f3 != 2 then pure none
    else do
      match ← h.load e (a + im).toNat 4 with
      | none => pure none
      | some x => pure (some (h.setF rd x).next)
  | 0x27 => pure (if f3 != 2 then none else (h.store (a + ims).toNat 4 (h.f rs2)).map HSt.next)
  | 0x53 => pure ((hFp h f7 f3 rd rs1 rs2).map HSt.next)
  | o =>
    if (o == 0x43 || o == 0x47 || o == 0x4B || o == 0x4F) && f7 % 4 == 0 then
      let ngp := o == 0x4B || o == 0x4F
      let ngc := o == 0x47 || o == 0x4F
      let x := h.f rs1
      let z := h.f (w / 2 ^ 27)
      let xs := [if ngp then x ^^^ 2 ^ 31 else x, h.f rs2, if ngc then z ^^^ 2 ^ 31 else z]
      pure ((h.rm f3).map fun m => let (c, fl) := hartOp m hartFma xs; ((h.setF rd c).flags fl).next)
    else pure none

/-- Run until ECALL, a fault or the end of the budget; the ECALL that ends it is not counted. -/
def hRun (e : HEnv) : Nat → HSt → AM (HEnd × HSt)
  | 0, h => pure (.budget, h)
  | fuel + 1, h =>
    if h.pc % 4 != 0 || h.pc < 0x1000 || 0x1_0000 ≤ h.pc then pure (.fault, h)
    else
      let w := fld e.img h.pc 4
      if w == 0x73 then pure (.ecall, h)
      else if e.budget ≤ h.ret then pure (.budget, h)
      else do
        match ← hExec e h w with
        | none => pure (.fault, h)
        | some h' => hRun e fuel { h' with ret := h.ret + 1 }

/-! ## Images and evaluations (R198, R374, R377) -/

/-- The image that a unit holds for a tenant; another tenant's is replaced by the one at HARTIMG. -/
def hartImage (unit : Nat) (g : Agent) : AM (List Byte) := do
  let s ← get
  let base := match tenant? s g.part g.asid with | some d => tHartImg d | none => 0
  match s.harts.find? fun x => x.unit == unit with
  | some x =>
    if x.part == g.part && x.asid == g.asid && x.base == base then pure x.bytes
    else loadImg base
  | none => loadImg base
where
  loadImg (base : Nat) : AM (List Byte) := do
    let bs ← g.read base 0x1_0000
    modify fun s => { s with harts := ⟨unit, g.part, g.asid, base, bs⟩ :: s.harts.filter fun x => x.unit != unit }
    pure bs

/-- An entry of the callable table (R198). -/
structure Callable where
  entry : Nat
  budget : Nat
  apbase : Nat
  ok : Bool

def callableOf (img : List Byte) (n : Nat) : Callable :=
  let e := fld img (16 * n) 8
  let b := e / 2 ^ 32 % 65536
  ⟨e % 2 ^ 32, if b == 0 then 256 else b, fld img (16 * n + 8) 8, decide (n < 256) && e / 2 ^ 48 == 0 && decide (b ≤ 4096)⟩

/-- Evaluate a callable. -/
def evaluate (unit : Nat) (g : Agent) (n kind : Nat) (pixel slot prim : Word) (rand : Nat → Word) (input : List Byte) :
    AM (HEnd × HSt) := do
  let img ← hartImage unit g
  let (k, s) := (← get).draw
  set s
  let c := callableOf img n
  let h : HSt := ⟨k, [], c.entry, 0, 0, 0, 0, [], (Config.hartCycle k).toNat, 0⟩
  if !c.ok then pure (.fault, h)
  else hRun ⟨img, c.apbase, c.budget, kind, pixel, slot, prim, rand, input, g⟩ (c.budget + 1) h

/-- The unit numbers of the images. -/
def rtuUnit (quad : Nat) : Nat := quad
def curUnit (die : Nat) : Nat := 65536 + die

/-- An evaluation by itself: a curator's or an RTU's hart runs; its results are the requester's. -/
def execHartEvaluation (rq : EvalReq) : State → Host.Outcome State Fault Refusal :=
  runE fun s =>
    let g : Agent := ⟨rq.part, rq.asid, privOf s rq.part rq.asid, 2 ^ 60, none, none, none⟩
    let rand := fun n => nth (philox rq.key.toNat rq.c0.toNat ((rq.c1hi + n / 4) * 65536 + rq.c1lo) rq.c2.toNat rq.c3.toNat) (n % 4) 0#32
    let x := evaluate (if rq.kind == 0 then curUnit 0 else rtuUnit 0) g rq.callable rq.kind rq.pixel rq.slot rq.prim rand
      (rq.input.flatMap fun w => leBytes 4 w.toNat)
    match x s with
    | .ok (_, s') => s'
    | .error (.wait s') => s'
    | .error _ => s

end Sys2Proof.Machine
end

