-- ==== Sys2Proof/Machine/Ray.lean ====
section
/-! DEFINITION. Acceleration structures and rays (R190 to R196): build jobs, the triangle test, traversal with its programs,
TRACE, RHIT and RWAIT. -/

namespace Sys2Proof.Machine

/-! ## Jobs of a cohort (R203) -/

def ownJobs (s : State) : Nat := (s.jobs.filter fun j => j.cohort == s.cur.pl.id).length
/-- Room for one more job of the cohort and of a die. -/
def jobRoom (die : Nat) : M Unit :=
  M.waitUntil .jobs fun s => decide (ownJobs s < 16) && decide ((s.jobs.filter fun j => j.die == die).length < 1024)

/-- A computation of one chain of loads as an instruction's body. -/
def gM {α : Type} (x : GM α) : M α := fun s =>
  match x s with
  | .ok r => .ok r
  | .error (.wait w s') => .error (.wait w s')
  | .error (.block va t s') => match requestM va t s' with
    | .error e => .error e
    | .ok (_, s'') => .error (.wait .fill s'')
  | .error (.fault t s') => .error (.trap t s')

/-- Read a job descriptor as one 64-byte load (R190, R199). -/
def readJob (a : Opd) : M (List Byte) := do
  let s ← get
  let base := (src64 s none a).toNat
  M.trapIf (base % 64 != 0) { cause := Cause.alignment, opnd := 1, addr := base }
  gM (gLoad none .dflt 64 base)

/-- Post a job of the issuing cohort: its earlier accesses have performed and its stores are at their homes (R233). -/
def postJob (die : Nat) (build : Bool) (desc : List Byte) : M Unit := do
  drainedM
  backM
  M.upd fun s => s.updCur Cohort.closeIdem
  M.upd fun s =>
    let (id, s) := s.fresh
    let p := s.cur.pl
    { s with jobs := s.jobs ++ [⟨id, die, p.id, p.lin, p.queue, p.launch, p.part, p.asid, build, desc, s.cur.pc, 0⟩] }

/-- A record of an engine's write that could not be made (R191, R202): CLASS 0, LATE, counted in the launch's FAULTS. -/
def jobFault (j : Job) (cause detail addr : Nat) (s : State) : State :=
  (s.ring j.part { plainRec cause detail 0 addr with
    late := true, pc := j.pc, cohort := if j.launch.isNone then 2 ^ 44 - 1 else j.lin, queue := j.queue, launch := j.launch }).2

/-- DETAIL of a poison fault: 0 for a page's POISON, 1 for data (R387). -/
def poisonDetail (g : Agent) (acc : Acc) (a : Nat) (s : State) : Nat :=
  match xlate s g.part g.asid g.priv acc (a % 2 ^ 64) with | .poison => 0 | _ => 1

/-! ## Building (R190 to R192) -/

def bvhSize (g t : Nat) : Nat := alignUp (4096 + 64 * g + 96 * t) 4096
def bvhScratch (t : Nat) : Nat := alignUp (8192 + 48 * t) 4096

def execBvhsize (h : Hdr) (d a b : Opd) : State → Host.Outcome State Fault Refusal :=
  runLanes h (Meta.of d 4 [(a, 1), (b, 1)]) (some 4) fun s ln =>
    let t := (src32 s ln a).toNat
    let g := (src32 s ln b).toNat
    (dstN d ln 4 (bvhSize g t + 2 ^ 64 * bvhScratch t), 0)

def execBvhbuild (h : Hdr) (a : Opd) : State → Host.Outcome State Fault Refusal :=
  runI h { uni := true, srcs := [(a, 2)], opnd := 1 } false fun _ => do
    let s ← get
    let die := s.cur.pl.core / 1024
    jobRoom die
    let d ← readJob a
    M.trapIf (fld d 48 8 % 8 != 0) { cause := Cause.alignment, opnd := 1, addr := fld d 48 8 }
    postJob die true d

/-- An agent of a job. -/
def jobAgent (s : State) (j : Job) : Agent := ⟨j.part, j.asid, privOf s j.part j.asid, 2 ^ 48 + j.id, none, none, none⟩

/-- A page of an output range: writable, no live barrier word; its place in physical memory where that is kept as bytes. -/
def outPage (g : Agent) (a : Nat) : AM (Option Nat) := do
  let l ← g.place .store a
  let s ← get
  let pa := match l with
    | .dram pa _ => some pa
    | .chip pa => if isSp pa then some pa else none
    | .host x => some (0xC_0000_0000_0000 + x)
    | _ => none
  match pa with
  | none => if l == .bus then AM.bad 1 a else pure none
  | some pa =>
    match s.tags.find? fun t => pa ≤ t && t < pa + 4096 with
    | some t => fun _ => .error (.live (a + (t - pa)))
    | none => pure (some pa)

/-- Make a page's bytes come from a source. -/
def lazyPage (pa off : Nat) (src : LazySrc) (s : State) : State :=
  { s with
    lazies := ⟨pa, pa + 4096, off, src⟩ :: s.lazies.flatMap (Lazy.cut pa (pa + 4096))
    poison := s.poison.filter fun w => !(pa ≤ w && w < pa + 4096)
    spPoison := s.spPoison.filter fun w => !(pa ≤ w && w < pa + 4096) }

/-- Put [base, base + n) under a source; pages that no byte memory holds are written byte by byte. -/
def lazyRange (g : Agent) (base n : Nat) (src : LazySrc) (val : Nat → Byte) : AM Unit :=
  AM.each (List.range (n / 4096)) fun k => do
    match ← outPage g (base + 4096 * k) with
    | some pa => modify (lazyPage pa (4096 * k) src)
    | none => g.write (base + 4096 * k) ((List.range 4096).map fun i => val (4096 * k + i))

/-- The FP32 words of a primitive, or the failure code 2. -/
def primWords (g : Agent) (e : List Byte) (p : Nat) : AM (Except Nat (List Word × List Byte)) := do
  let vp := fld e 0 8
  let ip := fld e 8 8
  let words := fun (bs : List Byte) => (List.range (bs.length / 4)).map fun k => BitVec.ofNat 32 (fld bs (4 * k) 4)
  if nbit (fld e 24 2) 1 then do
    let bs ← g.read (vp + 24 * p) 24
    pure (.ok (words bs, bs))
  else do
    let (ix, raw) ← if ip == 0 then pure ([3 * p, 3 * p + 1, 3 * p + 2], [])
      else do
        let b ← g.read (ip + 12 * p) 12
        pure ([fld b 0 4, fld b 4 4, fld b 8 4], b)
    if ix.any fun i => fld e 16 4 ≤ i then pure (.error 2)
    else do
      let vs ← AM.mapL ix fun i => g.read (vp + 12 * i) 12
      pure (.ok (vs.flatMap words, raw ++ vs.flatten))

/-- The primitives of the geometries, in order. -/
def readGeos (g : Agent) : List (List Byte) → AM (Except Nat (List (List (List Word)) × List Byte))
  | [] => pure (.ok ([], []))
  | e :: t => do
    let ps ← AM.mapL (List.range (fld e 20 4)) fun p => primWords g e p
    match exceptAll ps with
    | .error c => pure (.error c)
    | .ok ps => do
      match ← readGeos g t with
      | .error c => pure (.error c)
      | .ok (gs, inp) => pure (.ok (ps.map Prod.fst :: gs, ps.flatMap Prod.snd ++ inp))
where
  exceptAll (l : List (Except Nat (List Word × List Byte))) : Except Nat (List (List Word × List Byte)) :=
    l.foldr (fun x acc => match x, acc with
      | .error c, _ => .error c
      | _, .error c => .error c
      | .ok y, .ok l => .ok (y :: l)) (.ok [])

/-- Do the descriptor's own fields agree with R190 (code 3)? -/
def buildDescOk (d : List Byte) : Bool :=
  fld d 12 4 == 0 && fld d 56 8 == 0 && decide (1 ≤ fld d 8 4) && decide (fld d 8 4 ≤ 65535)
    && fld d 0 8 % 8 == 0 && fld d 16 8 % 4096 == 0 && fld d 32 8 % 4096 == 0

/-- Build: the status code without its top bit, 0 for success. What a failed build leaves at the output, where it may be
written, is undefined. -/
def buildM (g : Agent) (id : Nat) (d : List Byte) : AM Nat := do
  if !buildDescOk d then pure 3
  else do
    let n := fld d 8 4
    let ents ← AM.mapL (List.range n) fun k => g.read (fld d 0 8 + 32 * k) 32
    if ents.any fun e => fld e 24 2 / 4 != 0 || fld e 28 4 != 0 then pure 3
    else
      let t := (ents.map fun e => fld e 20 4).foldl (· + ·) 0
      if fld d 24 8 < bvhSize n t || fld d 40 8 < bvhScratch t then pure 1
      else do
        match ← readGeos g ents with
        | .error c => pure c
        | .ok (prims, inp) => do
          let (k, s) := (← get).draw
          set s
          lazyRange g (fld d 32 8) (bvhScratch t) (.undef k) (Config.generatorScratch k)
          let inputs := ents.flatten ++ inp
          lazyRange g (fld d 16 8) (bvhSize n t) (.bvh id) (Config.bvhByte d inputs)
          modify fun s => { s with bvhs := ⟨id, g.part, g.asid, fld d 16 8, bvhSize n t, d, ents, inputs, prims⟩ :: s.bvhs }
          pure 0

/-- What a failed build leaves: undefined bytes wherever the output can be written. -/
def spoilOutput (g : Agent) (id : Nat) (d : List Byte) (s : State) : State :=
  if fld d 16 8 % 4096 != 0 then s
  else (List.range (fld d 24 8 / 4096)).foldl (fun s k =>
    match outPage g (fld d 16 8 + 4096 * k) s with
    | .ok (some pa, s') => lazyPage pa (4096 * k) (.bvh id) s'
    | _ => s) s

/-- The status word, with a release; a fault of its write is reported in the ring. -/
def buildStatus (j : Job) (g : Agent) (code : Nat) (s : State) : State :=
  let done := fun (s : State) => { s with jobs := s.jobs.filter fun x => x.id != j.id }
  let addr := fld j.desc 48 8
  match g.write addr (leBytes 8 (if code == 0 then 1 else 0x8000_0000 + code)) s with
  | .ok (_, s') => done s'
  | .error (.wait s') => s'
  | .error (.bad c _) => done (jobFault j Cause.access c addr s)
  | .error (.poison _) => done (jobFault j Cause.poison (poisonDetail g .store addr s) addr s)
  | .error (.live _) => done (jobFault j Cause.barClobber 0 addr s)
  | .error _ => done (jobFault j Cause.access 0 addr s)

/-- The build and its status word. -/
def execBuildJob (job : Nat) : State → Host.Outcome State Fault Refusal :=
  runE fun s =>
    match s.jobs.find? fun j => j.id == job && j.build with
    | none => s
    | some j =>
      let g := jobAgent s j
      match buildM g j.id j.desc s with
      | .error (.wait s') => s'
      | .ok (0, s') => buildStatus j g 0 s'
      | .ok (c, s') => buildStatus j g c (spoilOutput g j.id j.desc s')
      | .error _ => buildStatus j g 4 (spoilOutput g j.id j.desc s)

/-! ## The triangle test (R194) -/

/-- A quotient with one rounding. -/
def divV (f : Fmt) (x y : Val) : Val :=
  match x, y with
  | .fin n1 m1 e1, .fin n2 m2 e2 =>
    if m2 == 0 then (if m1 == 0 then Val.qnan else .inf (n1 != n2))
    else if m1 == 0 then .fin (n1 != n2) 0 0
    else
      let (q, e, st) := divNat (f.t + 3) m1 e1 m2 e2
      f.val (f.roundFin .rne false false (n1 != n2) q e st).1
  | .inf n, .fin n2 _ _ => .inf (n != n2)
  | .fin n1 _ _, .inf n => .fin (n1 != n) 0 0
  | _, _ => Val.qnan
def rnd (f : Fmt) (v : Val) : Val := f.val (f.round .rne false false v).1
def valAt (l : List Val) (k : Nat) : Val := nth l k Val.qnan
def sum3 (a b c : Val) : Val := Val.plus (Val.plus a b) c
/-- Is x ≤ y? -/
def Val.le (x y : Val) : Bool := x.lt y || x.eq y

/-- A candidate: t, det, u, v. -/
structure TriHit where
  t : Val
  front : Bool
  u : Val
  v : Val

/-- Is the edge P→Q owned (step 6)? Points are (x, y). -/
def ownedEdge (p q : Val × Val) : Bool := p.2.lt q.2 || (q.2.eq p.2 && q.1.lt p.1)

/-- Is a triangle degenerate: are its vertices on one line? -/
def degenerate (vs : List (List Val)) : Bool :=
  let e := fun (j k : Nat) => Val.sub (valAt (nth vs j []) k) (valAt (nth vs 0 []) k)
  (List.range 3).all fun k =>
    let i := (k + 1) % 3
    let j := (k + 2) % 3
    (Val.sub (Val.times (e 1 i) (e 2 j)) (Val.times (e 1 j) (e 2 i))).isZero

/-- Steps 1 to 8 for a ray origin, direction and three vertices. -/
def triTest (o d : List Val) (vs : List (List Val)) : Option TriHit :=
  let ad := fun k => (valAt d k).abs
  let kz := if (ad 1).le (ad 0) && (ad 2).le (ad 0) then 0 else if (ad 2).le (ad 1) then 1 else 2
  let k1 := (kz + 1) % 3
  let k2 := (k1 + 1) % 3
  let neg := (valAt d kz).lt (.fin false 0 0)
  let kx := if neg then k2 else k1
  let ky := if neg then k1 else k2
  let sx := divV .f32 (valAt d kx) (valAt d kz)
  let sy := divV .f32 (valAt d ky) (valAt d kz)
  let sz := divV .f32 Val.one (valAt d kz)
  let shear := fun (p : List Val) =>
    let q := (p.zip o).map fun (x, y) => rnd .f32 (Val.sub x y)
    let z := valAt q kz
    ((rnd .f32 (Val.sub (valAt q kx) (Val.times sx z)), rnd .f32 (Val.sub (valAt q ky) (Val.times sy z))), rnd .f32 (Val.times sz z))
  let (a, az) := shear (nth vs 0 [])
  let (b, bz) := shear (nth vs 1 [])
  let (c, cz) := shear (nth vs 2 [])
  let cross := fun (f : Fmt) (p q : Val × Val) => rnd f (Val.sub (Val.times p.1 q.2) (Val.times p.2 q.1))
  let uvw := fun (f : Fmt) => [cross f c b, cross f a c, cross f b a]
  let f := if (uvw .f32).any Val.isZero then Fmt.f64 else Fmt.f32
  let u := valAt (uvw f) 0
  let v := valAt (uvw f) 1
  let w := valAt (uvw f) 2
  let zero := Val.fin false 0 0
  let some' := fun (t : Val → Bool) => t u || t v || t w
  if some' (fun x => x.lt zero) && some' (fun x => zero.lt x) then none
  else
    let det := rnd f (sum3 u v w)
    if det.isZero then none
    else
      let own := fun (p q : Val × Val) => if det.lt zero then ownedEdge q p else ownedEdge p q
      if (u.isZero && !own b c) || (v.isZero && !own c a) || (w.isZero && !own a b) then none
      else
        let t := rnd f (sum3 (Val.times u az) (Val.times v bz) (Val.times w cz))
        some ⟨divV .f32 t det, zero.lt det, divV .f32 v det, divV .f32 w det⟩

/-! ## Boxes: the exact test -/

/-- A finite FP32 value in units of 2^-149. -/
def units149 (v : Val) : Int :=
  match v with
  | .fin n m e => Val.scaled n m e (-149)
  | _ => 0

/-- Does the ray meet the box within [tmin, tmax]? Parameters are fractions p / q with q > 0. -/
def boxMet (o d : List Val) (tmin tmax : Val) (lo hi : List Val) : Bool :=
  let axes := (List.range 3).map fun k => (units149 (valAt o k), units149 (valAt d k), units149 (valAt lo k), units149 (valAt hi k))
  let inside := axes.all fun (o, d, l, h) => d != 0 || (decide (l ≤ o) && decide (o ≤ h))
  let one : Int := 2 ^ 149
  let moving := axes.filter fun (_, d, _, _) => d != 0
  let lows := (units149 tmin, one) :: moving.map fun (o, d, l, h) => if 0 < d then (l - o, d) else (o - h, -d)
  let highs := (units149 tmax, one) :: moving.map fun (o, d, l, h) => if 0 < d then (h - o, d) else (o - l, -d)
  inside && lows.all fun (p, q) => highs.all fun (p', q') => decide (p * q' ≤ p' * q)

/-! ## Traversal (R193, R195, R198) -/

/-- A committed hit. -/
structure RHit where
  t : Val
  geo : Nat
  prim : Nat
  front : Bool
  hv : Word
  u : Val
  v : Val

/-- Progress of a traversal. -/
structure RSt where
  best : Option RHit
  overrun : Bool
  ended : Bool

/-- What a ray is given. -/
structure REnv where
  unit : Nat
  agent : Agent
  ray : List Word
  term : Bool
  cullb : Bool
  cullf : Bool
  noah : Bool
  pixel : Word
  rand : Nat → Word

/-- How a ray's traversal ends. -/
inductive REnd where
  | done (r : RSt)
  /-- a hart fault, with the hart's PC -/
  | fault (pc : Nat)

def REnv.comp (e : REnv) (k : Nat) : Val := f32v (nth e.ray k 0#32).toNat
def REnv.o (e : REnv) : List Val := [e.comp 0, e.comp 1, e.comp 2]
def REnv.dir (e : REnv) : List Val := [e.comp 4, e.comp 5, e.comp 6]
def REnv.tcur (e : REnv) (r : RSt) : Val := match r.best with | some h => h.t | none => e.comp 7
/-- A ray that casts nothing (R193). -/
def REnv.bad (e : REnv) : Bool :=
  !((e.o ++ e.dir ++ [e.comp 3, e.comp 7]).all Val.fin?) || e.dir.all Val.isZero || (e.comp 3).lt (.fin false 0 0)
    || (e.comp 7).lt (e.comp 3)

/-- A program's answer; an answer the spec does not list is one of those it lists. -/
def answerOf (n pick a0 : Nat) : Nat := if a0 < n then a0 else Config.rayOrder pick % n

/-- Commit an accepted candidate: the smaller t wins, then the lower (geometry, primitive). -/
def RSt.commit (r : RSt) (h : RHit) (last : Bool) : RSt :=
  let better := match r.best with
    | none => true
    | some b => h.t.lt b.t || (h.t.eq b.t && (decide (h.geo < b.geo) || (h.geo == b.geo && decide (h.prim < b.prim))))
  { r with best := if better then some h else r.best, ended := last }

/-- The 32 bytes of a ray. -/
def rayBytes (ray : List Word) : List Byte := (ray.take 8).flatMap fun w => leBytes 4 w.toNat
def f32Bytes (v : Val) : List Byte := leBytes 4 (rne32 v)

/-- Test one primitive; none is a hart fault, with its PC. -/
def rayPrim (e : REnv) (b : Bvh) (geo prim : Nat) (r : RSt) : AM (Except Nat RSt) := do
  let g := nth b.geos geo []
  let ws := (nth (nth b.prims geo []) prim []).map fun w => f32v w.toNat
  let flags := fld g 24 2
  let callable := fld g 26 2
  if nbit flags 1 then do
    let (k, s) := (← get).draw
    set s
    let met := ws.all Val.fin? && boxMet e.o e.dir (e.comp 3) (e.tcur r) (ws.take 3) (ws.drop 3)
    if !met && !Config.boxEval k then pure (.ok r)
    else do
      let (en, h) ← evaluate e.unit e.agent callable 2 e.pixel (BitVec.ofNat 32 geo) (BitVec.ofNat 32 prim) e.rand
        (rayBytes e.ray ++ ((nth (nth b.prims geo []) prim []).flatMap fun w => leBytes 4 w.toNat))
      match en with
      | .fault => pure (.error h.pc)
      | .budget => pure (.ok { r with overrun := true })
      | .ecall =>
        let t := f32v (h.f 10)
        if answerOf 2 k (h.x 10).toNat == 1 && (e.comp 3).le t && t.le (e.tcur r) then
          pure (.ok (r.commit ⟨t, geo, prim, Config.boxFront k, 0, f32v (h.f 11), f32v (h.f 12)⟩ e.term))
        else pure (.ok r)
  else
    let vs := [ws.take 3, (ws.drop 3).take 3, ws.drop 6]
    match if ws.all Val.fin? && !degenerate vs then triTest e.o e.dir vs else none with
    | none => pure (.ok r)
    | some c =>
      if !((e.comp 3).le c.t && c.t.le (e.tcur r)) || (e.cullb && !c.front) || (e.cullf && c.front) then pure (.ok r)
      else
        let hit := fun hv => (⟨c.t, geo, prim, c.front, hv, c.u, c.v⟩ : RHit)
        if nbit flags 0 || e.noah then pure (.ok (r.commit (hit 0) e.term))
        else do
          let (en, h) ← evaluate e.unit e.agent callable 1 e.pixel (BitVec.ofNat 32 geo) (BitVec.ofNat 32 prim) e.rand
            (rayBytes e.ray ++ f32Bytes c.t ++ f32Bytes c.u ++ f32Bytes c.v)
          let (k, s) := (← get).draw
          set s
          match en with
          | .fault => pure (.error h.pc)
          | .budget => pure (.ok { r with overrun := true })
          | .ecall =>
            match answerOf 3 k (h.x 10).toNat with
            | 0 => pure (.ok r)
            | 1 => pure (.ok (r.commit (hit h.hv) e.term))
            | _ => pure (.ok (r.commit (hit h.hv) true))

/-- Test the primitives in a free order until the ray ends. -/
def rayWalk (e : REnv) (b : Bvh) : Nat → List (Nat × Nat) → RSt → AM REnd
  | 0, _, r => pure (.done r)
  | fuel + 1, l, r =>
    if l.isEmpty || r.ended then pure (.done r)
    else do
      let (k, s) := (← get).draw
      set s
      let ix := Config.rayOrder k % l.length
      let (geo, prim) := nth l ix (0, 0)
      match ← rayPrim e b geo prim r with
      | .error pc => pure (.fault pc)
      | .ok r' => rayWalk e b fuel (l.eraseIdx ix) r'

/-- The structure that a successful build left at an address, if every byte of it still stands; every page is reached through
the tenant's mapping. -/
def structureAt (g : Agent) (base : Nat) : AM (Option Bvh) := do
  let s ← get
  match s.bvhs.find? fun b => b.part == g.part && b.asid == g.asid && b.base == base with
  | none => do
    let _ ← g.place .load base
    pure none
  | some b => do
    let oks ← AM.mapL (List.range (b.bytes / 4096)) fun k => do
      let l ← g.place .load (base + 4096 * k)
      let s ← get
      let pa := match l with
        | .dram pa _ | .chip pa => some pa
        | .host x => some (0xC_0000_0000_0000 + x)
        | _ => none
      match pa with
      | none => pure false
      | some pa =>
        match s.poison.find? fun w => pa ≤ w && w < pa + 4096 with
        | some w => g.sector w (dieHome w 0) (base + 4096 * k + (w - pa))
        | none => pure (s.lazies.any fun z =>
            z.src == .bvh b.id && z.lo ≤ pa && pa + 4096 ≤ z.hi && z.off + (pa - z.lo) == 4096 * k)
    pure (if oks.all id then some b else none)

/-- A whole ray: an undefined structure (none), the node bound (ended without a hit), or the traversal. -/
def rayM (e : REnv) (base : Nat) : AM (Option REnd) := do
  match ← structureAt e.agent base with
  | none => pure none
  | some b => do
    let l := ((List.range b.prims.length).zip b.prims).flatMap fun (g, ps) => (List.range ps.length).map fun p => (g, p)
    let (k, s) := (← get).draw
    set s
    if decide (2 ^ 23 < l.length) && Config.nodeBound k then pure (some (.done ⟨none, true, true⟩))
    else do
      let r ← rayWalk e b l.length l ⟨none, false, false⟩
      pure (some r)

/-- The hit words and barycentrics of a hit, or of a miss. -/
def hitWords (r : RSt) : List Word × Dword :=
  let ov : Nat := if r.overrun then 2 ^ 18 else 0
  match r.best with
  | none => ([0x7F80_0000#32, 0xFFFF_FFFF#32, BitVec.ofNat 32 ov, 0#32], 0)
  | some h =>
    ([BitVec.ofNat 32 (rne32 h.t), BitVec.ofNat 32 h.prim,
      BitVec.ofNat 32 (h.geo % 65536 + 2 ^ 16 + (if h.front then 2 ^ 17 else 0) + ov), h.hv],
     BitVec.ofNat 64 (rne32 h.u + 2 ^ 32 * rne32 h.v))
def badWords : List Word := [0x7F80_0000#32, 0xFFFF_FFFF#32, 0x0008_0000#32, 0#32]
def missWords : List Word := [0x7F80_0000#32, 0xFFFF_FFFF#32, 0#32, 0#32]

/-! ## TRACE, its traversal, RHIT and RWAIT -/

/-- The rays of a TRACE, one per active lane. -/
def tracePost (fl : BitVec 5) (d a b c : Opd) (act : Mask) (s : State) : State :=
  act.lanes.foldl (fun s i =>
    let (id, s) := s.fresh
    let p := s.cur.pl
    let r : Ray :=
      { id := id, quad := p.core / 4, cohort := some p.id, lane := i, dreg := Opd.ix d, ray := srcWords s (some i) a 8
        base := (src64 s none b).toNat, key := BitVec.ofNat 64 ((regAt s none b 2).toNat + 2 ^ 32 * (regAt s none b 3).toNat)
        n := src32 s none c, flags := fl, part := p.part, asid := p.asid, glane := glaneOf s.cur i, lkey := p.lkey
        pc := s.cur.pc, mask := act, out := none, launch := p.launch, recAddr := 0 }
    ({ s with rays := s.rays ++ [r] }).updX fun x => { x with lastRay := x.lastRay.put i id }) s

def execTrace (h : Hdr) (flags : BitVec 5) (d a b c : Opd) : State → Host.Outcome State Fault Refusal :=
  runI h { srcs := [(a, 8), (b, 4), (c, 1)], dsts := [(d, 4)] } false fun act => do
    let s ← get
    let base := (src64 s none b).toNat
    M.trapIf (act != 0#32 && base % 4096 != 0) { cause := Cause.alignment, opnd := 2, addr := base }
    M.waitUntil .rays fun s =>
      decide ((s.rays.filter fun r => r.quad == s.cur.pl.core / 4).length + act.lanes.length ≤ 2048)
    if act == 0#32 then pure ()
    else do
      drainedM
      backM
      M.upd (tracePost flags d a b c act)

/-- A record of a fixed node has been consumed (R302). -/
def consumed (launch : Option Nat) (addr : Nat) (s : State) : State :=
  match launch with
  | none => s
  | some l => s.updGraph l fun g => consume [addr] { g with running := g.running - 1 }

/-- A ring record for a node that no cohort works for. -/
def nodeFault (part : Nat) (launch : Option Nat) (cause detail addr : Nat) (s : State) : State :=
  let q := match launch.bind s.launch? with | some l => l.queue | none => 0xFFFF
  (s.ring part { plainRec cause detail 0 addr with late := true, queue := q }).2

/-- Deliver a ray's hit group: a cohort's registers, each by itself (R193), or the record's address (R301). -/
def rayDeliver (r : Ray) (g : Agent) (ws : List Word) (uv : Dword) (s : State) : State :=
  let done := fun (s : State) => { s with rays := s.rays.filter fun x => x.id != r.id }
  match r.cohort with
  | some c =>
    done (s.updCohort c fun co =>
      { co with
        c := { co.c with pend := co.c.pend ++ ((List.range 4).zip ws).map fun (k, w) => (⟨[Wr.v (r.dreg + k) r.lane w], 0, none⟩ : Pend) }
        x := { co.x with bary := if co.x.lastRay.get r.lane 0 == r.id then co.x.bary.set r.lane uv 0#64 else co.x.bary } })
  | none =>
    let fin := fun (s : State) => done (consumed r.launch r.recAddr s)
    match r.out with
    | none => fin s
    | some a =>
      match g.write a (ws.flatMap fun w => leBytes 4 w.toNat) s with
      | .ok (_, s') => fin s'
      | .error (.wait s') => s'
      | .error (.bad d x) => fin (nodeFault r.part r.launch Cause.access d x s)
      | .error (.poison x) => fin (nodeFault r.part r.launch Cause.poison (poisonDetail g .store x s) x s)
      | .error (.live x) => fin (nodeFault r.part r.launch Cause.barClobber 0 x s)
      | .error _ => fin (nodeFault r.part r.launch Cause.access 0 a s)

/-- A traversal fault: late for a cohort, to the ring for a node. -/
def rayFault (r : Ray) (cause detail addr : Nat) (s : State) : State :=
  match r.cohort with
  | some c => postLate c cause detail 0 r.pc r.mask (doneBut r.mask (Mask.one (r.glane % 32))) addr s
  | none => nodeFault r.part r.launch cause detail addr s

/-- One ray, whole (R193 to R198). -/
def execRayTraversal (ray : Nat) : State → Host.Outcome State Fault Refusal :=
  runE fun s =>
    match s.rays.find? fun r => r.id == ray with
    | none => s
    | some r =>
      let g : Agent := ⟨r.part, r.asid, privOf s r.part r.asid, 2 ^ 49 + r.id, none, none, none⟩
      let (pk, s1) := s.draw
      let lane := if r.cohort.isNone then (Config.nodeLane pk).toNat else r.glane
      let rand := fun n => nth (philox r.key.toNat r.lkey.toNat (laneC1 (0xA000 + n / 4) lane) (lane % 2 ^ 32) r.n.toNat) (n % 4) 0#32
      let e : REnv :=
        { unit := rtuUnit r.quad, agent := g, ray := r.ray, term := r.flags.getLsbD 0, cullb := r.flags.getLsbD 1
          cullf := r.flags.getLsbD 2, noah := r.flags.getLsbD 3
          pixel := if r.cohort.isNone then Config.hartPixel pk else BitVec.ofNat 32 r.lane, rand := rand }
      if e.bad then rayDeliver r g badWords 0#64 s
      else match rayM e r.base s1 with
        | .ok (some (.done t), s') =>
          let (ws, uv) := hitWords t
          let s' := if t.overrun && !(t.ended && t.best.isNone) && r.flags.getLsbD 4 then rayFault r Cause.traversal 2 0 s' else s'
          rayDeliver r g ws uv s'
        | .ok (some (.fault _), s') => rayDeliver r g missWords 0#64 (rayFault r Cause.traversal 1 0 s')
        | .ok (none, s') =>
          let s' := match (Config.undefTraceFault pk).toNat with
            | 1 => rayFault r Cause.traversal 1 0 s'
            | 2 => rayFault r Cause.access 0 r.base s'
            | 3 => rayFault r Cause.poison 0 r.base s'
            | _ => s'
          rayDeliver r g ((List.range 4).map (Config.undefHit pk)) (Config.undefHit pk 4 ++ Config.undefHit pk 5) s'
        | .error (.wait s') => s'
        | .error (.bad _ a) | .error (.poison a) | .error (.failed a) | .error (.live a) =>
          rayDeliver r g missWords 0#64 (rayFault r Cause.traversal 1 a s)
        | .error (.gen _) => rayDeliver r g missWords 0#64 (rayFault r Cause.traversal 1 0 s)

/-- Write the results that have no fixed latency. -/
def landLate (c : Cohort) : Cohort :=
  { c with r := (c.c.pend.filter fun p => p.due.isNone).foldl (fun r p => p.apply r) c.r
           c := { c.c with pend := c.c.pend.filter fun p => !p.due.isNone } }

def execRhit (h : Hdr) (d : Opd) : State → Host.Outcome State Fault Refusal :=
  runI h { dsts := [(d, 2)] } false fun act => do
    M.waitUntil .rays fun s => !act.lanes.any fun i =>
      s.rays.any fun r => r.cohort == some s.cur.pl.id && r.id == s.cur.x.lastRay.get i 0
    let s ← get
    emitR (act.lanes.flatMap fun i => dstN d (some i) 2 (s.cur.x.bary.get i 0#64).toNat) 0 none

def execRwait (h : Hdr) : State → Host.Outcome State Fault Refusal :=
  runI h { uni := true } false fun _ => do
    M.waitUntil .rays fun s => !s.rays.any fun r => r.cohort == some s.cur.pl.id
    let s ← get
    match dueLate s [Cause.traversal, Cause.access] with
    | some r => M.late r
    | none => M.upd fun s => s.updCur landLate

end Sys2Proof.Machine
end

