-- ==== Sys2Proof/Machine/Curator.lean ====
section
/-! DEFINITION. The curator (R199 to R204): CURATE, resample and halo-synchronisation jobs, CURWAIT; fixed nodes of a work
graph (R301). -/

namespace Sys2Proof.Machine

/-- A job descriptor (R199). -/
structure CDesc where
  tx : Nat
  ty : Nat
  size : Nat
  kind : Nat
  cplane : Bool
  nplane : Bool
  tplane : Bool
  dplane : Bool
  temp : Bool
  nspat : Nat
  table : Bool
  radius : Nat
  keep : Bool
  cullb : Bool
  cullf : Bool
  bfault : Bool
  target : Nat
  frame : Nat
  key : Nat
  mv : Nat
  pat : Nat
  bvh : Nat
  sig : Nat
  cpl : Nat
deriving DecidableEq, Repr

def CDesc.ofBytes (b : List Byte) : CDesc where
  tx := fld b 0 2
  ty := fld b 2 2
  size := if nbit (fld b 4 1) 0 then 8 else 4
  kind := fld b 4 1 / 2 % 4
  cplane := nbit (fld b 4 1) 3
  nplane := nbit (fld b 4 1) 4
  tplane := nbit (fld b 4 1) 5
  dplane := nbit (fld b 4 1) 6
  temp := nbit (fld b 4 1) 7
  nspat := fld b 5 1 % 16
  table := nbit (fld b 5 1) 4
  radius := fld b 6 1 % 32
  keep := nbit (fld b 7 1) 0
  cullb := nbit (fld b 7 1) 1
  cullf := nbit (fld b 7 1) 2
  bfault := nbit (fld b 7 1) 3
  target := fld b 8 2
  frame := fld b 12 4
  key := fld b 16 8
  mv := fld b 24 8
  pat := fld b 32 8
  bvh := fld b 40 8
  sig := fld b 48 8
  cpl := fld b 56 8

/-- The entry of the tenant's callable table, as the die's curator holds it or as HARTIMG does; empty beyond the table, and
where it cannot be read. -/
def entryEmpty (s : State) (part asid target : Nat) : Bool :=
  decide (256 ≤ target) ||
  match tenant? s part asid with
  | none => true
  | some t =>
    match readVirt s part asid (tPriv t) .load ((tHartImg t + 16 * target) % 2 ^ 64) 16 with
    | .ok bs => allZero bs
    | .error _ => true

/-- The checks of R199 on a descriptor, of a job of a tenant. -/
def cdescOk (s : State) (part asid : Nat) (b : List Byte) : Bool :=
  let d := CDesc.ofBytes b
  let reserved := 2 ≤ d.kind || fld b 5 1 / 32 != 0 || fld b 6 1 / 32 != 0 || fld b 7 1 / 16 != 0 || fld b 10 2 != 0
  !reserved && d.tx % d.size == 0 && d.ty % d.size == 0 && surfEn s && surfOwned s part asid
    && d.sig % 16 == 0 && d.cpl % 16 == 0 && !entryEmpty s part asid d.target
    && (d.kind == 1 || (!(decide (0 < d.nspat) && d.dplane == d.nplane) && !(d.temp && d.dplane == d.tplane)))

/-- The die that owns a job's tile. -/
def jobDie (s : State) (b : List Byte) : Nat := pixelDie (surfW s) (surfH s) (fld b 0 2) (fld b 2 2)

def execCurate (h : Hdr) (a : Opd) : State → Host.Outcome State Fault Refusal :=
  runI h { uni := true, srcs := [(a, 2)], opnd := 1 } false fun _ => do
    let d ← readJob a
    let s ← get
    M.trapIf (!cdescOk s s.cur.pl.part s.cur.pl.asid d) { cause := Cause.curatorDesc, opnd := 1, addr := (src64 s none a).toNat }
    jobRoom (jobDie s d)
    postJob (jobDie s d) false d

def execCurwait (h : Hdr) (a : Opd) : State → Host.Outcome State Fault Refusal :=
  runI h { uni := true, srcs := [(a, 1)] } false fun _ => do
    let s ← get
    let n := (src32 s none a).toNat
    M.waitUntil .jobs fun s => decide (ownJobs s ≤ n)
    M.upd (acquire .dev)

/-! ## Completion (R202) -/

/-- Counts of a job, and its first error. -/
structure JCount where
  rays : Nat
  ovrn : Nat
  occl : Nat
deriving DecidableEq, Repr

/-- Where a job's signal lands: none; a place; it fails, so the arrival is dropped; it waits. -/
inductive SigAt where
  | none
  | word (pa : Nat)
  | bad
  | wait (s : State)

def sigPlace (g : Agent) (sig : Nat) (s : State) : SigAt :=
  if sig == 0 then .none
  else match g.place .store sig true s with
    | .error (.wait s') => .wait s'
    | .error _ => .bad
    | .ok (.dram pa die, s') =>
      if s'.poisoned pa then
        match g.sector pa die sig s' with
        | (.error (.wait s'') : Except AStop (Unit × State)) => .wait s''
        | _ => .bad
      else .word pa
    | .ok (.chip pa, s') => if isSp pa && !spPoisoned s' pa 16 then .word pa else .bad
    | .ok _ => .bad

/-- The 16 bytes of a completion record. -/
def cplBytes (c : JCount) (code faddr : Nat) (failed dropped : Bool) : List Byte :=
  leBytes 1 (1 + (if failed then 2 else 0) + (if dropped then 4 else 0)) ++ leBytes 1 code
    ++ leBytes 2 (min 65535 c.occl) ++ leBytes 2 (min 65535 c.ovrn) ++ leBytes 2 (min 65535 c.rays) ++ leBytes 8 faddr

/-- An engine arrives on a word: no core. -/
def noCore : Nat := 1000000

/-- End a job: its records (`out`, none when it failed), the completion record, then the arrival. What must wait leaves the job
as it was. -/
def endJob (j : Job) (g : Agent) (c : JCount) (code faddr : Nat) (out : State → State) (s : State) : State :=
  let d := CDesc.ofBytes j.desc
  let failed := code != 0
  match sigPlace g d.sig s with
  | .wait s' => s'
  | sg =>
    let counted := match sg with
      | .word pa => match (arriveAt noCore pa none s).1 with | .counted _ _ => true | _ => false
      | _ => false
    let bad := match sg with | .bad => true | _ => false
    let dropped := d.sig != 0 && !counted
    let (code, faddr) := if bad && code == 0 then (4, d.sig) else (code, faddr)
    let fin := fun (s : State) =>
      let s := if failed then s else out s
      let s := match sg with | .word pa => (arriveAt noCore pa none s).2 | _ => s
      let s := { s with jobs := s.jobs.filter fun x => x.id != j.id }
      if j.cohort == 0 then consumed j.launch j.recAddr s else s
    match g.write d.cpl (cplBytes c code faddr failed dropped) s with
    | .ok (_, s') => fin s'
    | .error (.wait s') => s'
    | .error (.bad r _) => fin (jobFault j Cause.access r d.cpl s)
    | .error (.poison _) => fin (jobFault j Cause.poison (poisonDetail g .store d.cpl s) d.cpl s)
    | .error (.live _) => fin (jobFault j Cause.barClobber 0 d.cpl s)
    | .error _ => fin (jobFault j Cause.access 0 d.cpl s)

/-! ## Order of acceptance (R204) -/

/-- The planes that a job reads. -/
def readsPlane (d : CDesc) (p : Bool) : Bool :=
  if d.kind == 1 then d.nplane == p
  else d.cplane == p || (decide (0 < d.nspat) && d.nplane == p) || (d.temp && d.tplane == p)
def writesPlane (d : CDesc) (p : Bool) : Bool := d.kind == 0 && d.dplane == p
/-- May two jobs of a die touch one record, one of them writing it? -/
def jobsMeet (a b : CDesc) : Bool :=
  (a.kind == 1 && b.kind == 1) || writesPlane a b.dplane && writesPlane b b.dplane
    || [true, false].any fun p => (writesPlane a p && readsPlane b p) || (readsPlane a p && writesPlane b p)
/-- No earlier-accepted job of the die that it may meet is unfinished. -/
def jobTurn (s : State) (j : Job) : Bool :=
  !(s.jobs.takeWhile fun x => x.id != j.id).any fun x =>
    !x.build && x.die == j.die && jobsMeet (CDesc.ofBytes x.desc) (CDesc.ofBytes j.desc)

/-! ## Resampling (R201) -/

/-- How a pixel stops a job: code and address. -/
abbrev JErr := Nat × Nat

/-- floor(round_rne(x + 0.5 + m)) of a pixel coordinate and an FP16 motion component. -/
def motion (x m : Nat) : Option Int :=
  match rnd .f32 (Val.plus (.fin false (2 * x + 1) (-1)) (Fmt.f16.val m)) with
  | .fin n k e => some (Val.scaled n k e (min e 0) / 2 ^ (-(min e 0)).toNat)
  | _ => none

/-- Is a pixel on the surface? -/
def onSurf (s : State) (x y : Int) : Bool :=
  decide (0 ≤ x) && decide (x < surfW s) && decide (0 ≤ y) && decide (y < surfH s)

/-- Keys of halo parts and their records. -/
def haloPart (dst fr : Nat) : Nat := 4 * dst + fr
def haloKey (dst fr x y : Nat) : Nat := 2 ^ 40 * haloPart dst fr + rsvKey false x y

/-- Does a die's halo hold a pixel of another's quadrant (R178): one within 16 pixels of its own quadrant in x and y? -/
def inHalo (s : State) (die x y : Nat) : Bool :=
  let (a0, a1, b0, b1) := quadrant (surfW s) (surfH s) die
  let near := fun (v lo hi : Nat) => decide (lo ≤ v + 16) && decide (v < hi + 16)
  near x a0 a1 && near y b0 b1

/-- The record of a neighbour in NPLANE: the own die's store or the halo part of its owner; an error for a part that records
another plane or none. What a gather with a RADIUS above 16 finds beyond the halo is free. -/
def neighbour (s : State) (die : Nat) (d : CDesc) (x y : Nat) : Except JErr Rsv :=
  let o := pixelDie (surfW s) (surfH s) x y
  if o == die then
    if s.rsvPoison.contains (rsvKey d.nplane x y) then .error (4, 0) else .ok (s.resv.get (rsvKey d.nplane x y) 0)
  else match s.haloPl.find? fun e => e.1 == haloPart die o with
    | some (_, p) =>
      if p != d.nplane then .error (3, 0)
      else .ok (if inHalo s die x y then s.halo.get (haloKey die o x y) 0 else Config.farRecord d.key d.frame x y)
    | none => .error (3, 0)

/-- The candidate of a spatial slot whose call gives `ws`, if it is present. -/
def spatial (s : State) (die : Nat) (d : CDesc) (tab : List Byte) (x y : Nat) (ws : List Word) : Except JErr (Option Rsv) :=
  let w0 := (nth ws 0 0#32).toNat
  let w1 := (nth ws 1 0#32).toNat
  let (dx, dy) : Int × Int :=
    if d.table then (sextInt 8 (fld tab (2 * (w0 % 16)) 1), sextInt 8 (fld tab (2 * (w0 % 16) + 1) 1))
    else ((w0 % (2 * d.radius + 1) : Nat) - (d.radius : Int), (w1 % (2 * d.radius + 1) : Nat) - (d.radius : Int))
  let px := (x : Int) + dx
  let py := (y : Int) + dy
  if (decide (dx.natAbs ≤ d.radius) && decide (dy.natAbs ≤ d.radius)) && !(dx == 0 && dy == 0) && onSurf s px py then
    match neighbour s die d px.toNat py.toNat with
    | .ok r => .ok (some r)
    | .error e => .error e
  else .ok none

/-- The words of a candidate slot's call (R179). -/
def slotCall (s : State) (d : CDesc) (x y k : Nat) : List Word :=
  philox d.key d.frame ((0x0200 + k) * 65536) (y * surfW s + x) 0

/-- The candidates of a pixel, by slot. -/
def candidates (s : State) (die : Nat) (d : CDesc) (tab : List Byte) (mv : Nat) (x y : Nat) : Except JErr (List (Nat × Rsv)) :=
  let lost := d.temp && match motion x (mv % 65536), motion y (mv / 65536) with
    | some px, some py => onSurf s px py && s.rsvPoison.contains (rsvKey d.tplane px.toNat py.toNat)
    | _, _ => false
  let t : List (Nat × Rsv) :=
    if !d.temp then []
    else match motion x (mv % 65536), motion y (mv / 65536) with
      | some px, some py =>
        if onSurf s px py then
          let r : Rsv := s.resv.get (rsvKey d.tplane px.toNat py.toNat) 0
          [(0, r.put 120 8 (min 255 (r.age + 1)))]
        else []
      | _, _ => []
  (List.range d.nspat).foldl (fun acc k =>
    match acc with
    | .error e => .error e
    | .ok l => match spatial s die d tab x y (slotCall s d x y (k + 1)) with
      | .error e => .error e
      | .ok none => .ok l
      | .ok (some r) => .ok (l ++ [(k + 1, r)])) (if lost then .error (4, 0) else .ok t)

/-- A computation whose memory faults become the job's error 4. -/
def caught {α : Type} (x : AM (Except JErr α)) : AM (Except JErr α) := fun s =>
  match x s with
  | .ok r => .ok r
  | .error (.wait s') => .error (.wait s')
  | .error (.bad _ a) | .error (.poison a) | .error (.failed a) | .error (.live a) => .ok (.error (4, a), s)
  | .error (.gen _) => .ok (.error (4, 0), s)

/-- One candidate: the target, its ray, the merge. -/
def resampleSlot (j : Job) (g : Agent) (d : CDesc) (x y : Nat) (centre : Rsv) (k : Nat) (cand : Rsv) (r : Rsv) (c : JCount) :
    AM (Except JErr (Rsv × JCount)) := do
  let s ← get
  let unit := curUnit j.die
  let bytes := fun (r : Rsv) => leBytes 32 r.toNat
  let rand := fun n => nth (philox d.key d.frame ((0x8000 + 256 * k + n / 4) * 65536) (y * surfW s + x) 0) (n % 4) 0#32
  let (en, h) ← evaluate unit g d.target 0 (BitVec.ofNat 32 (x + 65536 * y)) (BitVec.ofNat 32 k) 0 rand (bytes centre ++ bytes cand)
  match en with
  | .fault => pure (.error (1, h.pc))
  | .budget =>
    if d.bfault then do
      let (n, s) := (← get).draw
      set s
      pure (.error (2, (Config.undefHit n 0).toNat + 2 ^ 32 * (Config.undefHit n 1).toNat))
    else pure (.ok (r, { c with ovrn := c.ovrn + 1 }))
  | .ecall => do
    let p := h.f 10
    let p := match Fmt.f32.val p with
      | .fin neg m _ => if neg || m == 0 then 0 else p
      | _ => 0
    let merge := fun (p : Nat) (c : JCount) =>
      (Except.ok ((rsvMrg r cand p (nth (slotCall s d x y k) 2 0#32).toNat).1, c) : Except JErr (Rsv × JCount))
    let (n, s) := (← get).draw
    set s
    if answerOf 2 n (h.x 10).toNat == 0 then pure (merge p c)
    else
      let w := fun k => BitVec.ofNat 32 (h.f k)
      let e : REnv :=
        { unit := unit, agent := g, ray := [w 11, w 12, w 13, h.x 11, w 14, w 15, w 16, w 17], term := true
          cullb := d.cullb, cullf := d.cullf, noah := false, pixel := Config.hartPixel n, rand := Config.hartRand n }
      if e.bad then pure (merge p c)
      else do
        let c := { c with rays := c.rays + 1 }
        let hit := fun (b : Bool) =>
          if !b then merge p c
          else if d.keep then merge 0 c
          else .ok (r, { c with occl := c.occl + 1 })
        match ← rayM e d.bvh with
        | some (.fault pc) => pure (.error (1, pc))
        | some (.done t) => pure (hit t.best.isSome)
        | none =>
          match (Config.undefTraceFault n).toNat with
          | 1 => pure (.error (1, (Config.undefHit n 0).toNat))
          | 2 | 3 => pure (.error (4, d.bvh))
          | _ => pure (hit ((Config.undefHit n 2).getLsbD 16))

/-- The slots of a pixel in ascending order. -/
def resampleSlots (j : Job) (g : Agent) (d : CDesc) (x y : Nat) (centre : Rsv) :
    List (Nat × Rsv) → Rsv → JCount → AM (Except (JErr × JCount) (Rsv × JCount))
  | [], r, c => pure (.ok (r, c))
  | (k, cand) :: l, r, c => do
    match ← caught (resampleSlot j g d x y centre k cand r c) with
    | .error e => pure (.error (e, c))
    | .ok (r', c') => resampleSlots j g d x y centre l r' c'

/-- The pixels of a tile: the records to write, by key; an error with the counts so far. -/
def resamplePixels (j : Job) (g : Agent) (d : CDesc) (tab : List Byte) :
    List (Nat × Nat) → List (Nat × Rsv) → JCount → AM (Except (JErr × JCount) (List (Nat × Rsv) × JCount))
  | [], out, c => pure (.ok (out, c))
  | (x, y) :: l, out, c => do
    let s ← get
    let centre : Rsv := s.resv.get (rsvKey d.cplane x y) 0
    let mv ← if d.temp then caught (do let n ← g.num ((d.mv + 4 * surfW s * y + 4 * x) % 2 ^ 64) 4; pure (.ok n)) else pure (.ok 0)
    let mv := if s.rsvPoison.contains (rsvKey d.cplane x y) then .error (4, 0) else mv
    match mv.bind fun mv => candidates s j.die d tab mv x y with
    | .error e => pure (.error (e, c))
    | .ok cs => do
      match ← resampleSlots j g d x y centre cs centre c with
      | .error e => pure (.error e)
      | .ok (r, c') => resamplePixels j g d tab l (out ++ [(rsvKey d.dplane x y, (rsvNorm r).1.stored)]) c'

/-- The pixels of a job's tile within the surface. -/
def tilePixels (s : State) (d : CDesc) : List (Nat × Nat) :=
  ((List.range d.size).flatMap fun j => (List.range d.size).map fun i => (d.tx + i, d.ty + j)).filter fun (x, y) =>
    decide (x < surfW s) && decide (y < surfH s)

/-- A resample job, whole. -/
def execResampleJob (job : Nat) : State → Host.Outcome State Fault Refusal :=
  runE fun s =>
    match s.jobs.find? fun j => j.id == job && !j.build && fld j.desc 4 1 / 2 % 4 == 0 with
    | none => s
    | some j =>
      if !jobTurn s j then s
      else
        let d := CDesc.ofBytes j.desc
        let g := jobAgent s j
        let zero : JCount := ⟨0, 0, 0⟩
        let body : AM (Except (JErr × JCount) (List (Nat × Rsv) × JCount)) := do
          let tab ← if d.table && decide (0 < d.nspat) then g.read d.pat 32 else pure []
          resamplePixels j g d tab (tilePixels s d) [] zero
        match body s with
        | .ok (.ok (out, c), s') => endJob j g c 0 0 (fun s =>
            { s with resv := out.foldl (fun m (k, r) => m.set k r 0#256) s.resv
                     rsvPoison := s.rsvPoison.filter fun k => !out.any fun e => e.1 == k }) s'
        | .ok (.error ((code, fa), c), s') => endJob j g c code fa id s'
        | .error (.wait s') => s'
        | .error (.bad _ a) | .error (.poison a) | .error (.failed a) | .error (.live a) => endJob j g zero 4 a id s
        | .error (.gen _) => endJob j g zero 4 0 id s

/-! ## Halo synchronisation (R178, R200) -/

/-- The records of a die's quadrant that lie in another die's halo. -/
def haloPush (s : State) (fr dst : Nat) (plane : Bool) (m : Map Rsv) : Map Rsv :=
  let (x0, x1, y0, y1) := quadrant (surfW s) (surfH s) fr
  let kept := m.filter fun e => e.1 / 2 ^ 40 != haloPart dst fr
  s.resv.foldl (fun m (k, r) =>
    let x := k % 2 ^ 14
    let y := k / 2 ^ 14 % 2 ^ 14
    if (decide (2 ^ 28 ≤ k) == plane) && decide (x0 ≤ x) && decide (x < x1) && decide (y0 ≤ y) && decide (y < y1)
        && inHalo s dst x y then m.set (haloKey dst fr x y) r 0#256 else m) kept

/-- Does a part of a die's halo fed by another exist: the receiving quadrant holds pixels? -/
def haveQuad (s : State) (d : Nat) : Bool :=
  let (x0, x1, y0, y1) := quadrant (surfW s) (surfH s) d
  decide (x0 < x1) && decide (y0 < y1)

def execHaloSyncJob (job : Nat) : State → Host.Outcome State Fault Refusal :=
  runE fun s =>
    match s.jobs.find? fun j => j.id == job && !j.build && fld j.desc 4 1 / 2 % 4 == 1 with
    | none => s
    | some j =>
      if !jobTurn s j then s
      else
        let d := CDesc.ofBytes j.desc
        let push := fun (s : State) =>
          ((List.range 4).filter fun t => t != j.die && haveQuad s t).foldl (fun s t =>
            { s with halo := haloPush s j.die t d.nplane s.halo, haloPl := s.haloPl.put (haloPart t j.die) d.nplane }) s
        let (x0, x1, y0, y1) := quadrant (surfW s) (surfH s) j.die
        let lost := s.rsvPoison.any fun k => (decide (2 ^ 28 ≤ k) == d.nplane)
          && decide (x0 ≤ k % 2 ^ 14 ∧ k % 2 ^ 14 < x1 ∧ y0 ≤ k / 2 ^ 14 % 2 ^ 14 ∧ k / 2 ^ 14 % 2 ^ 14 < y1)
          && (List.range 4).any fun t => t != j.die && haveQuad s t && inHalo s t (k % 2 ^ 14) (k / 2 ^ 14 % 2 ^ 14)
        endJob j (jobAgent s j) ⟨0, 0, 0⟩ (if lost then 4 else 0) 0 push s

end Sys2Proof.Machine
end

