-- ==== Sys2Proof/Machine/Csr.lean ====
section
/-! DEFINITION. Control registers (R384), the register blocks of BAR0 (R273, R290, R373, R390, R400, R403, R407 to R410, R421),
CSRR and CSRW, and the writes that have a behaviour of their own. -/

namespace Sys2Proof.Machine

/-- Bits [hi:lo]. -/
def bitsOf (hi lo : Nat) : Dword := BitVec.ofNat 64 ((2 ^ (hi + 1 - lo) - 1) * 2 ^ lo)

/-- The fields of a register by access (R7): RW and W1C bits, and RSV bits, whose nonzero write is counted. -/
structure RegAcc where
  rw : Dword
  w1c : Dword := 0
  rsv : Dword := 0

/-- A register after a write: RW bits taken, W1C bits cleared where 1 is written. -/
def RegAcc.put (a : RegAcc) (old x : Dword) : Dword := ((old &&& ~~~a.rw) ||| (x &&& a.rw)) &&& ~~~(x &&& a.w1c)

/-- Access of the partition registers. -/
def partAcc (n : Nat) : RegAcc :=
  match n with
  | 0x820 => { rw := bitsOf 47 16 ||| bitsOf 0 0, w1c := bitsOf 1 1, rsv := bitsOf 63 48 ||| bitsOf 15 2 }
  | 0x821 => { rw := bitsOf 51 12 ||| bitsOf 4 0, rsv := bitsOf 63 52 ||| bitsOf 11 5 }
  | 0x822 => { rw := bitsOf 41 32 ||| bitsOf 11 8 ||| bitsOf 1 0, rsv := bitsOf 63 42 ||| bitsOf 31 12 ||| bitsOf 7 2 }
  | 0x823 => { rw := bitsOf 31 16 ||| bitsOf 10 8 ||| bitsOf 0 0, rsv := bitsOf 63 32 ||| bitsOf 15 11 ||| bitsOf 7 1 }
  | 0x840 => { rw := bitsOf 51 6 ||| bitsOf 4 0, rsv := bitsOf 63 52 ||| bitsOf 5 5 }
  | 0x842 => { rw := bitsOf 31 0 }
  | 0x843 => { rw := bitsOf 63 16 ||| bitsOf 0 0, rsv := bitsOf 15 1 }
  | 0x844 => { rw := bitsOf 63 0 }
  | 0x845 => { rw := 0, rsv := bitsOf 63 52 ||| bitsOf 5 0 }
  | n =>
    if 0x828 ≤ n && n ≤ 0x82F then { rw := bitsOf 62 0, rsv := bitsOf 63 63 }
    else if 0x900 ≤ n && n ≤ 0x9FF then { rw := bitsOf 63 63 ||| bitsOf 14 0, rsv := bitsOf 62 15 }
    else { rw := 0 }

/-- Access of the module registers. -/
def modAcc (n : Nat) : RegAcc :=
  match n with
  | 0x812 => { rw := bitsOf 63 0 }
  | 0x813 => { rw := bitsOf 15 0, rsv := bitsOf 63 16 }
  | 0x815 => { rw := bitsOf 0 0, rsv := bitsOf 31 9 }
  | 0x816 => { rw := bitsOf 15 8 ||| bitsOf 0 0, rsv := bitsOf 63 24 ||| bitsOf 7 1 }
  | 0x817 => { rw := bitsOf 11 0, rsv := bitsOf 63 32 ||| bitsOf 15 12 }
  | 0x818 => { rw := bitsOf 14 0, rsv := bitsOf 63 15 }
  | 0x810 => { rw := bitsOf 63 48 ||| bitsOf 32 32 ||| bitsOf 29 16 ||| bitsOf 13 0, rsv := bitsOf 43 33 ||| bitsOf 31 30 ||| bitsOf 15 14 }
  | 0x814 => { rw := 0, rsv := bitsOf 40 40 ||| bitsOf 7 4 }
  | _ => { rw := 0 }

def isPartReg (n : Nat) : Bool :=
  (0x820 ≤ n && n ≤ 0x823) || (0x828 ≤ n && n ≤ 0x82F) || (0x840 ≤ n && n ≤ 0x845) || (0x900 ≤ n && n ≤ 0x9FF)
def isModReg (n : Nat) : Bool := 0x810 ≤ n && n ≤ 0x818

/-- The value of a partition register. -/
def partReg (x : Part) (n : Nat) : Dword :=
  match n with
  | 0x820 => x.cfg
  | 0x821 => x.tent
  | 0x822 => x.heat
  | 0x823 => x.preempt
  | 0x840 => x.fltBase
  | 0x841 => x.fltHead.zeroExtend 64
  | 0x842 => x.fltTail.zeroExtend 64
  | 0x843 => x.fltCtl
  | 0x844 => x.errCnt
  | n =>
    if 0x828 ≤ n && n ≤ 0x82F then nth x.prange (n - 0x828) 0
    else if 0x900 ≤ n && n ≤ 0x9FF then x.fabwin.get (n - 0x900) 0
    else 0

/-- Store a partition register as it stands. -/
def putPartReg (n : Nat) (v : Dword) (x : Part) : Part :=
  match n with
  | 0x820 => { x with cfg := v }
  | 0x821 => { x with tent := v }
  | 0x822 => { x with heat := v }
  | 0x823 => { x with preempt := v }
  | 0x840 => { x with fltBase := v }
  | 0x842 => { x with fltTail := v.extractLsb' 0 32 }
  | 0x843 => { x with fltCtl := v }
  | 0x844 => { x with errCnt := v }
  | n =>
    if 0x828 ≤ n && n ≤ 0x82F then { x with prange := setNth x.prange (n - 0x828) v }
    else if 0x900 ≤ n && n ≤ 0x9FF then { x with fabwin := x.fabwin.set (n - 0x900) v 0 }
    else x

/-- The value of a module register (R273). -/
def modReg (s : State) (n : Nat) : Dword :=
  match n with
  | 0x810 => s.m.rsvsurf
  | 0x811 => s.m.hopVisible ++ s.m.hopAssigned
  | 0x812 => s.m.qdt
  | 0x813 => s.m.carve
  | 0x814 => s.m.ready
  | 0x815 => s.m.startstat
  | 0x816 => s.m.marginctl
  | 0x817 => s.m.pwrctl
  | 0x818 => s.m.fabid
  | _ => 0

/-- Store a module register as it stands. -/
def putModReg (n : Nat) (v : Dword) (s : State) : State :=
  s.updM fun m =>
    match n with
    | 0x810 => { m with rsvsurf := v }
    | 0x812 => { m with qdt := v }
    | 0x813 => { m with carve := v }
    | 0x815 => { m with startstat := v }
    | 0x816 => { m with marginctl := v }
    | 0x817 => { m with pwrctl := v }
    | 0x818 => { m with fabid := v }
    | _ => m

/-- Count a nonzero write to reserved bits. -/
def countRsv (p : Nat) (a : RegAcc) (x : Dword) (s : State) : State := if x &&& a.rsv != 0 then s.countMisc p else s

/-! ## Writes with a behaviour of their own -/

/-- DRROUND: SEQ of every lane starts again (R253). -/
def writeDrround (x : Word) (s : State) : State := s.updR fun r => { r with drround := x, seq := [] }

/-- CQDISC: every request of the partition parked on the sector is refused (R400). -/
def writeCqdisc (p : Nat) (x : Dword) (s : State) : State :=
  let pa := (x.extractLsb' 6 46).toNat * 64
  let hit := s.parked.filter fun q => q.pa == pa && q.part == p
  let s := { s with parked := s.parked.filter fun q => !(q.pa == pa && q.part == p) }
  countRsv p (partAcc 0x845) x
    (hit.foldl (fun s q => refuse q ((s.ring p (plainRec Cause.discarded 0 1 pa)).2)) s)

/-- RSVSURF (R176, R377, R384), once no reservoir work is in flight. -/
def writeRsvsurf (p : Nat) (x : Dword) (s : State) : State :=
  let old := s.m.rsvsurf
  if old.getLsbD 32 && (old.extractLsb' 44 4).toNat != p then s.countMisc p
  else
    let s := countRsv p (modAcc 0x810) x s
    let v := (modAcc 0x810).put old x
    if !x.getLsbD 32 then putModReg 0x810 v s
    else
      let v := (v &&& ~~~(bitsOf 47 44)) ||| BitVec.ofNat 64 (p % 16 * 2 ^ 44)
      let w := (x.extractLsb' 0 14).toNat + 1
      let h := (x.extractLsb' 16 14).toNat + 1
      let quota := match tenant? s p (x.extractLsb' 48 16).toNat with | some t => tRsvQ t | none => 0
      let fits := (List.range 4).all fun d => decide (surfNeed w h d ≤ min quota (carved s d) * 0x400_0000)
      if fits then { putModReg 0x810 v s with resv := [], halo := [], haloPl := [], rsvPoison := [] }
      else (putModReg 0x810 (v &&& ~~~(bitsOf 32 32)) s).countMisc p

/-- Would so many ways leave a die below the need of the enabled surface (R16)? -/
def carveShort (s : State) (d w : Nat) : Bool := surfEn s && decide (w * 0x400_0000 < surfNeed (surfW s) (surfH s) d)

/-- The partition that counts a refused or faulty write of CARVECTL: RSVSURF.PART (log 50). -/
def surfOwner (s : State) : Nat := (s.m.rsvsurf.extractLsb' 44 4).toNat

/-- One die's carve-out changes, unless a surface enabled since the write needs more. -/
def carveDie (d w : Nat) (s : State) : State :=
  if carveShort s d w then s.countMisc (surfOwner s)
  else putModReg 0x813 ((s.m.carve &&& ~~~(bitsOf (4 * d + 3) (4 * d))) ||| BitVec.ofNat 64 (w % 16 * 2 ^ (4 * d))) s

/-- CARVECTL (R16, R377): a field above 8 is ignored and counted; a write that leaves a die below the need of the enabled surface is
refused whole and counted. A die's change waits, in order, while a curator job is in flight on that die. -/
def writeCarve (x : Dword) (s : State) : State :=
  let f := fun (d : Nat) => (x.extractLsb' (4 * d) 4).toNat
  let s := countRsv (surfOwner s) (modAcc 0x813) x s
  let s := ((List.range 4).filter fun d => 8 < f d).foldl (fun s _ => s.countMisc (surfOwner s)) s
  let ds := (List.range 4).filter fun d => f d ≤ 8
  if ds.any fun d => carveShort s d (f d) then s.countMisc (surfOwner s)
  else ds.foldl (fun s d =>
    if surfIdleDie s d && !s.m.pending.any fun e => e.1 == d then carveDie d (f d) s
    else s.updM fun m => { m with pending := m.pending ++ [(d, BitVec.ofNat 64 (f d))] }) s

/-- Changes that waited take effect, in order, once nothing is in flight on their die. -/
def settlePending (s : State) : State :=
  let (now, later) := s.m.pending.partition fun e => surfIdleDie s e.1
  now.foldl (fun s e => carveDie e.1 e.2.toNat s) (s.updM fun m => { m with pending := later })

/-- PWRCTL: LIMIT takes the nearer bound (R21); a write of reserved bits counts for partition 0 (log 50). -/
def writePwrctl (x : Dword) (s : State) : State :=
  let l := max 1500 (min 3400 (x.extractLsb' 0 12).toNat)
  putModReg 0x817 ((s.m.pwrctl &&& ~~~(bitsOf 11 0)) ||| BitVec.ofNat 64 l) (countRsv 0 (modAcc 0x817) x s)

/-- PARTCFG: a partition that owns quads of a die that is not ready is not enabled (R408). -/
def writePartcfg (p : Nat) (x : Dword) (s : State) : State :=
  let v := (partAcc 0x820).put (s.part p).cfg x
  let lost := (List.range 4).any fun d => v.extractLsb' (32 + 4 * d) 4 != 0#4 && !dieReady s d
  let v := if lost && !(s.part p).cfg.getLsbD 0 then v &&& ~~~1#64 else v
  countRsv p (partAcc 0x820) x (s.updPart p (putPartReg 0x820 v))

/-- FABID: ignored while a partition is enabled (R421). -/
def writeFabid (x : Dword) (s : State) : State :=
  let t := countRsv 0 (modAcc 0x818) x s
  if s.parts.any fun y => y.cfg.getLsbD 0 then t else putModReg 0x818 ((modAcc 0x818).put s.m.fabid x) t

/-- Write a register, by its number, for a partition (R7). -/
def regWrite (p n : Nat) (x : Dword) (s : State) : State :=
  match n with
  | 0x810 => writeRsvsurf p x s
  | 0x813 => writeCarve x s
  | 0x817 => writePwrctl x s
  | 0x818 => writeFabid x s
  | 0x820 => writePartcfg p x s
  | 0x845 => writeCqdisc p x s
  | n =>
    if isPartReg n then countRsv p (partAcc n) x (s.updPart p fun y => putPartReg n ((partAcc n).put (partReg y n) x) y)
    else countRsv p (modAcc n) x (putModReg n ((modAcc n).put (modReg s n) x) s)

/-! ## BAR0 -/

/-- Partition and number of the register at an offset of BAR0. Writes of reserved bits of a module register count for the partition
named here, 0 (log 50). -/
def barReg (off : Nat) : Option (Nat × Nat) :=
  if off % 8 != 0 then none
  else match off with
  | 0x100 => some (0, 0x811)
  | 0x200 => some (0, 0x813)
  | 0x208 => some (0, 0x812)
  | 0x300 => some (0, 0x814)
  | 0x308 => some (0, 0x815)
  | 0x310 => some (0, 0x816)
  | 0x318 => some (0, 0x817)
  | 0x320 => some (0, 0x818)
  | o =>
    if 0x4000 ≤ o && o < 0x4400 then
      let k := (o - 0x4000) % 0x40 / 8
      if k ≤ 5 then some ((o - 0x4000) / 0x40, 0x840 + k) else none
    else if 0x1_0000 ≤ o && o < 0x2_0000 then
      let p := (o - 0x1_0000) / 0x1000
      let r := (o - 0x1_0000) % 0x1000
      if r < 0x20 then some (p, 0x820 + r / 8)
      else if 0x40 ≤ r && r < 0x80 then some (p, 0x828 + (r - 0x40) / 8)
      else if 0x100 ≤ r && r < 0x900 then some (p, 0x900 + (r - 0x100) / 8)
      else none
    else none

/-- What a read of BAR0 returns; reserved offsets read zero (R373). -/
def barRead (s : State) (off : Nat) : Dword :=
  match barReg off with
  | some (p, n) => if isPartReg n then partReg (s.part p) n else modReg s n
  | none => 0

def execRegisterWrite (off : Nat) (x : Dword) : State → Host.Outcome State Fault Refusal :=
  runE fun s => match barReg off with
    | some (p, n) => regWrite p n x s
    | none => s
def execPwrctlWrite (x : Dword) : State → Host.Outcome State Fault Refusal := runE (writePwrctl x)
def execCarvectlWrite (x : Dword) : State → Host.Outcome State Fault Refusal := runE (writeCarve x)
def execCqdiscWrite (part : Nat) (x : Dword) : State → Host.Outcome State Fault Refusal := runE (writeCqdisc part x)
/-- The effect of CSRW on DRROUND, for the issuing cohort. -/
def execDrroundWrite (x : Word) : State → Host.Outcome State Fault Refusal := runE (writeDrround x)
/-- The effect of CSRW on RSVSURF; it waits while reservoir work is in flight (R16). -/
def execRsvsurfWrite (part : Nat) (x : Dword) : State → Host.Outcome State Fault Refusal :=
  runE fun s => if surfIdle s then writeRsvsurf part x s else s

/-! ## CSRR and CSRW (R384) -/

/-- Assigned numbers of a cohort's and a quad's registers. -/
def isCohortReg (n : Nat) : Bool :=
  n == 0x001 || n == 0x002 || n == 0x003 || n == 0x010 || (0x040 ≤ n && n ≤ 0x055)
def isAssigned (n : Nat) : Bool := isCohortReg n || isPartReg n || isModReg n
/-- 64-bit registers. -/
def isWideReg (n : Nat) : Bool := n == 0x010 || (isPartReg n && n != 0x841 && n != 0x842) || isModReg n
/-- Registers that are wholly RO. -/
def isRoReg (n : Nat) : Bool :=
  n == 0x003 || n == 0x010 || (0x040 ≤ n && n ≤ 0x04F) || n == 0x051 || n == 0x841 || n == 0x811 || n == 0x814
/-- Registers that only BAR0 writes. -/
def isBarReg (n : Nat) : Bool := n == 0x820 || n == 0x821 || (0x828 ≤ n && n ≤ 0x82F) || n == 0x812 || n == 0x813 || (0x815 ≤ n && n ≤ 0x818)

/-- ASIDCTL. -/
def asidctl (c : Cohort) : Nat := c.pl.part % 16 * 2 ^ 28 + (if c.pl.priv then 2 ^ 16 else 0) + c.pl.asid % 2 ^ 16
/-- MXBUDGET (R151). -/
def mxbudget (b : Budget) : Nat := b.refill % 2 ^ 21 * 2 ^ 22 + b.balance % 2 ^ 22

/-- What CSRR reads. -/
def csrRead (s : State) (n : Nat) : Nat :=
  let c := s.cur
  if n == 0x001 then (readFpstat c).toNat
  else if n == 0x002 then c.r.drround.toNat
  else if n == 0x003 then asidctl c
  else if n == 0x010 then mxbudget (s.budget (c.pl.core / 4))
  else if 0x040 ≤ n && n ≤ 0x04F then (match c.c.trec with | some r => (r.word (n - 0x040)).toNat | none => 0)
  else if n == 0x050 then c.c.tdone.toNat
  else if n == 0x051 then (if c.c.hm then 1 else 0)
  else if 0x052 ≤ n && n ≤ 0x055 then (nth c.c.tsave (n - 0x052) 0#32).toNat
  else if isPartReg n then (partReg (s.part c.pl.part) n).toNat
  else (modReg s n).toNat

/-- The trap of R384 that a number and a register raise, in the order of R48. -/
def csrTrap (wr : Bool) (n : Nat) (reg : Opd) (s : State) : Option Trap :=
  let odd := match reg with | .s r => r.toNat % 2 == 1 | _ => false
  if !isAssigned n || (wr && isRoReg n) || (isWideReg n && odd) then some { cause := Cause.illegal }
  else if (0x800 ≤ n && !s.cur.pl.priv) || (wr && isBarReg n) then some { cause := Cause.privilege }
  else none

/-- Is the operand a value of the instruction word itself? -/
def Opd.fixed (o : Opd) : Bool := match o with | .imm _ | .lit _ => true | _ => false

/-- The trap of a number that the word itself names: it is raised at decode, whatever the guard (R48). -/
def csrPre (wr : Bool) (a reg : Opd) (s : State) : Option Trap :=
  if Opd.fixed a then csrTrap wr (src32 s none a).toNat reg s else none

/-- The trap of a number that a register holds. -/
def csrChecks (wr : Bool) (n : Nat) (reg : Opd) : M Unit := fun s =>
  match csrTrap wr n reg s with
  | some t => M.trap t s
  | none => .ok ((), s)

/-- Every earlier result that can set a flag is written, the reports of FXADD among them (R91, R251). -/
def flagsM : M Unit := do
  M.upd fun s => s.updCur Cohort.drain
  M.waitUntil .parked fun s => !owed s s.cur.pl.id
  M.waitUntil .log fun s => !s.dlog.any fun d => d.cohort == s.cur.pl.id && d.op == some AtomOp.fxadd

def execCsrr (h : Hdr) (d a : Opd) : State → Host.Outcome State Fault Refusal :=
  runI h { uni := true, srcs := [(a, 1)], dsts := [(d, 1)], pre := csrPre false a d } false fun _ => do
    let s ← get
    let n := (src32 s none a).toNat
    csrChecks false n d
    if n == 0x001 then flagsM else pure ()
    let s ← get
    emitR (dstN d none (if isWideReg n then 2 else 1) (csrRead s n)) 0 (some 4)

/-- What CSRW does, after every earlier access has performed and every earlier result has been written (R91). -/
def csrWrite (n : Nat) (x : Dword) (s : State) : State :=
  let w := x.extractLsb' 0 32
  if n == 0x001 then
    let s := s.updCur (clearFpstat w)
    if w &&& 0xFFFF_FFC0#32 != 0 then s.countMisc s.cur.pl.part else s
  else if n == 0x002 then writeDrround w s
  else if n == 0x050 then s.updC fun c => { c with tdone := w }
  else if 0x052 ≤ n && n ≤ 0x055 then s.updC fun c => { c with tsave := setNth c.tsave (n - 0x052) w }
  else regWrite s.cur.pl.part n x s

/-- CSRW: its operands are read once every earlier result is written (log 54). -/
def execCsrw (h : Hdr) (a b : Opd) : State → Host.Outcome State Fault Refusal :=
  runI h { uni := true, srcs := [(a, 1), (b, 1)], pre := csrPre true a b } false fun _ => do
    M.upd fun s => s.updCur Cohort.drain
    M.waitUntil .parked fun s => !ownParked s && !ownTransit s
    let s ← get
    let n := (src32 s none a).toNat
    csrChecks true n b
    if n == 0x810 then M.waitUntil .surface surfIdle else pure ()
    M.upd fun s => csrWrite n (if isWideReg n then src64 s none b else (src32 s none b).zeroExtend 64) (s.updCur Cohort.closeIdem)

end Sys2Proof.Machine
end

