-- ==== Sys2Proof/Machine/Fence.lean ====
section
/-! DEFINITION. Fences and the heartbeat (R226 to R228, R257), and the passing of time to a tick. -/

namespace Sys2Proof.Machine

/-- Device time passes without issue, with the clock cycles that fit into it. -/
def passNs (ns : Nat) (s : State) : State :=
  (s.passTime ns).updM fun m => { m with cycle := m.cycle + ns * m.mhz / 1000 }

def execFence (h : Hdr) (o : Order) (sc : Scope) : State → Host.Outcome State Fault Refusal :=
  runI h { uni := true, lates := latesRel } false fun _ => do
    if Order.isRel o then releaseM sc else pure ()
    if Order.isAcq o then M.upd (acquire sc) else pure ()

/-- The device time at which an SC fence that has drained at `t` ends (R227). -/
def scUntil (sc : Scope) (t : Nat) : Nat :=
  if fabScope sc then (t / 2048 + 1) * 2048 + 128 else (t / 64 + 1) * 64

/-- Has every access issued by the cohorts of a core been performed (R227, step 1)? Copies are not counted. -/
def coreDrained (s : State) : Bool :=
  let ids := (s.cohorts.filter fun c => c.pl.core == s.cur.pl.core).map (·.pl.id)
  !(s.dlog.any fun d => d.core == s.cur.pl.core) && !(s.held.any fun x => x.transit && ids.contains x.cohort)
    && !(s.parked.any fun q => match q.req.cohort? with
      | some c => ids.contains c
      | none => false)

/-- At a scope of the fabric the remote writes of every cohort of the core have been acknowledged (R227, R279). -/
def coreAcked (sc : Scope) (s : State) : State :=
  let ids := (s.cohorts.filter fun c => c.pl.core == s.cur.pl.core).map (·.pl.id)
  if fabScope sc then { s with fabw := s.fabw.filter fun w => !ids.contains w.cohort } else s

def execFenceSc (h : Hdr) (sc : Scope) : State → Host.Outcome State Fault Refusal :=
  runI h { uni := true, lates := latesRel } false fun _ => do
    let s ← get
    match s.cur.c.stage with
    | .drained t =>
      M.waitUntil .tick fun s => t ≤ s.m.time
      M.upd (acquire sc)
    | _ =>
      M.trapIf (fabScope sc && !s.m.locked) { cause := Cause.timeUnlocked }
      M.waitUntil .log coreDrained
      backM
      M.upd fun s => (coreAcked sc s).updC fun c => { c with stage := .drained (scUntil sc s.m.time), idem := none }
      M.wait .tick

/-- A heartbeat tick comes: device time reaches the next multiple of its period (R227). -/
def execHeartbeatTick (fabric : Bool) : State → Host.Outcome State Fault Refusal :=
  runE fun s =>
    let p := if fabric then 2048 else 64
    passNs (p - s.m.time % p) s

/-- The next microsecond begins: every quad's balance is raised (R151). -/
def execBudgetRefill : State → Host.Outcome State Fault Refusal :=
  runE fun s => passNs (1000 - s.m.time % 1000) s

end Sys2Proof.Machine
end

