-- ==== Sys2Proof/Machine/Control.lean ====
section
/-! DEFINITION. Transfers of control, the divergence stack and its rules a to c, parking, idempotent regions (R43 to R45, R298,
R299, R308 to R315, R336). -/

namespace Sys2Proof.Machine

/-! ## Stack accesses (R298): relaxed accesses of the cohort at .coh -/

/-- The number under which a cohort's stack requests park. -/
def stackKey (c : Cohort) : Nat := c.pl.id * 2 ^ 24 + 2

/-- An aligned 16-byte access of the issuing cohort that no lane makes. -/
def stackAccess (acc : Acc) (a : Nat) (f : Loc → Req → State → Got × State) : M (List Byte) := do
  let s ← get
  let l : LaneAcc := ⟨none, a, resolve .glob acc false 16 s none a⟩
  suspendM [l]
  M.waitUntil .log fun s => !logStall s .glob 16 l
  M.waitUntil .parked fun s => !l.behind s 16
  let s ← get
  match l.st with
  | .fault t => M.trap t
  | .defer | .busy => M.wait .busy
  | .at_ loc _ =>
    if l.ask s == Ask.failed then M.trap (genFaultT s a)
    else
      let sector := l.pa / 64 * 64
      let key := stackKey s.cur
      M.upd (noteLanes acc [l])
      if s.refused.contains (key, sector) then M.trap (poisonT 1 a)
      else if s.parked.any fun q => q.pa == sector && q.req == Req.engine key then M.wait .parked
      else do
        let g ← M.run (f loc (.engine key))
        match g with
        | .val bs => pure bs
        | .parked => M.wait .parked
        | .fault t => M.trap t

def stackLoad (a : Nat) : M (List Byte) := stackAccess .load a fun loc req => loadAt loc a 16 .coh .dflt 0#32 req
def stackStore (a : Nat) (p : PcPart) : M Unit := do
  let _ ← stackAccess .store a fun loc req => storeAt loc a (slotBytes (some p)) .coh .dflt 0#32 req

/-- The part in an entry: none when STATE, a reserved byte or MASK is malformed. The entry has no place for the fact that a part ran past a LAST
block, which is lost (log 55). -/
def entryPart (b : List Byte) : Option PcPart :=
  let st := fld b 5 1
  let m := fld b 8 4
  if (st == 1 || st == 2) && allZero ((b.drop 6).take 2) && allZero (b.drop 12) && m != 0 then
    some ⟨st == 1, BitVec.ofNat 40 (fld b 0 5), BitVec.ofNat 32 m, false⟩
  else none

/-! ## Rules a to c (R299) -/

def Ctl.isWaitAt (p : Option PcPart) (pc : Pc) : Bool :=
  match p with
  | some p => !p.run && p.pc == pc
  | none => false

def isRunning (p : Option PcPart) : Bool := match p with | some p => p.run | none => false

/-- The end of a cohort at a malformed entry (R298). -/
def badEntry (pc : Pc) (lanes : Mask) (addr : Nat) : M Unit := fun s =>
  M.late (lateRec s.cur Cause.unrecoverable 4 pc lanes addr) s

/-- A pop leaves DSTOP lower; below the recorded value the open region closes (R315). -/
def popped (s : State) : State :=
  s.updC fun c =>
    let d := c.dstop - 1
    { c with dstop := d, stack := c.stack.drop 1
             idem := match c.idem with | some i => if d < i.dstop then none else some i | none => none }

/-- The merge of rule a. -/
def mergeAt (pc : Pc) (m : Mask) (s : State) : State := s.updC fun c => { c with a := some ⟨true, pc, m, false⟩, b := none }

/-- One step of rules a to c; false when none applies. -/
def ruleStep (pc : Pc) (lanes : Mask) : M Bool := do
  let s ← get
  let c := s.cur.c
  let top := s.cur.stackAt (c.dstop - 1)
  let slots := s.cur.slotLanes
  match c.a, c.b with
  | some a, some b =>
    if !a.run && !b.run && a.pc == b.pc then do
      M.upd (mergeAt a.pc (a.mask ||| b.mask))
      pure true
    else if a.run || b.run then pure false
    else if c.dstop == 0 then do
      M.upd fun s => s.updC fun c => { c with a := some { a with run := true }, b := some { b with run := true } }
      pure true
    else do
      let bs ← stackLoad top
      if fld bs 5 1 == 1 then
        match entryPart bs with
        | some e =>
          if e.mask &&& slots != 0#32 then do
            badEntry pc lanes top
            pure false
          else do
            stackStore top b
            M.upd fun s => s.updC fun c => { c with b := some e, stack := (b.pc.ovl, b.mask) :: c.stack.drop 1 }
            pure true
        | none => do
          badEntry pc lanes top
          pure false
      else if fld bs 5 1 == 2 && fld bs 0 5 != a.pc.toNat && fld bs 0 5 != b.pc.toNat then do
        M.upd fun s => s.updC fun c => { c with a := some { a with run := true }, b := some { b with run := true } }
        pure true
      else pure false
  | x, y =>
    if c.dstop == 0 then
      let held := if x.isSome then x else y
      if isRunning held || held.isNone then pure false
      else do
        let wake := fun (p : Option PcPart) => p.map fun p => { p with run := true }
        M.upd fun s => s.updC fun c => { c with a := wake c.a, b := wake c.b }
        pure true
    else do
      let bs ← stackLoad top
      match entryPart bs with
      | none => do
        badEntry pc lanes top
        pure false
      | some e =>
        if e.mask &&& slots != 0#32 then do
          badEntry pc lanes top
          pure false
        else do
          M.upd popped
          let other := if x.isSome then x else y
          match other with
          | some o =>
            if !e.run && !o.run && o.pc == e.pc then M.upd (mergeAt e.pc (o.mask ||| e.mask))
            else if x.isNone then M.upd fun s => s.updC fun c => { c with a := some e }
            else M.upd fun s => s.updC fun c => { c with b := some e }
          | none => M.upd fun s => s.updC fun c => { c with a := some e }
          pure true

/-- Rules a to c until none applies. -/
def runRules (pc : Pc) (lanes : Mask) : Nat → M Unit
  | 0 => pure ()
  | n + 1 => do
    let more ← ruleStep pc lanes
    if more then runRules pc lanes n else pure ()

/-- The rules after an event that an instruction caused. A stack access that faults is a late trap with the effects of the
event kept; one that waits is made again before the next issue (R299). -/
def settle (pc : Pc) (lanes : Mask) : M Unit := fun s =>
  match runRules pc lanes (s.cur.c.dstop + 4) (s.updC fun c => { c with stackTrap := none }) with
  | .error (.trap t s') =>
    M.late { lateRec s'.cur t.cause t.detail pc lanes t.addr with done := lanes, aux := t.aux } s'
  | .error (.wait _ s') => .ok ((), s'.updC fun c => { c with stackTrap := some (pc, lanes) })
  | r => r

/-! ## Targets (R45, R309, R310) -/

def branchRangeT : Trap := { cause := Cause.branchRange }
def alignT : Trap := { cause := Cause.alignment }

/-- The target of a relative transfer. -/
def relTarget (off : Word) : M Pc := do
  let s ← get
  let p := s.cur.pc
  let b : Int := p.blk + off.toInt
  let n ← ovLength p.ovl
  M.trapIf (decide (b < 0) || decide ((n : Int) ≤ b)) branchRangeT
  pure (Pc.mk p.ovl b.toNat 0)

/-- An indirect target; `far` ones may name another overlay. One that names another overlay where it may not and has a nonzero SLOT as well
is a branch-range trap (log 56). -/
def indTarget (a : Opd) (far : Bool) : M Pc := do
  let s ← get
  let x := src64 s none a
  M.trapIf (x.extractLsb' 40 24 != 0#24) alignT
  let t : Pc := x.extractLsb' 0 40
  M.trapIf (!far && t.ovl != s.cur.pc.ovl) branchRangeT
  M.trapIf (t.slot != 0) alignT
  let n ← ovLength t.ovl
  M.trapIf (decide (n ≤ t.blk)) branchRangeT
  pure t

/-- The part at the fall-through of the issuing instruction: kept by a transfer that waited (R337). -/
def fallThrough (s : State) : Option PcPart :=
  match s.cur.c.stage with
  | .ovl _ _ _ (some n) => some n
  | _ => s.cur.part?.map (PcPart.advance s s.cur)

/-- The target overlay is there, or the transfer waits for it (R337). -/
def reach (t : Pc) : M Unit := do
  let s ← get
  if t.ovl == s.cur.pc.ovl then pure () else wantOverlay t.ovl (fallThrough s)

/-- Taken lanes go to a target; the others fall through (R299). -/
def moveLanes (taken : Mask) (t : Pc) : M Unit := do
  let s ← get
  match s.cur.part? with
  | none => pure ()
  | some x =>
    if taken == x.mask then M.upd fun s => s.updCur fun c => c.setPart (some ⟨true, t, x.mask, false⟩)
    else
      let keep := (fallThrough s).map fun p => { p with mask := x.mask &&& ~~~taken }
      let go : PcPart := ⟨true, t, taken, false⟩
      match s.cur.other? with
      | none => M.upd fun s => s.updCur fun c => (c.setPart keep).setOther (some go)
      | some y => do
        M.trapIf (s.cur.c.hm || s.cur.c.dstop == s.cur.pl.dsDepth) { cause := Cause.dsOverflow }
        stackStore (s.cur.stackAt s.cur.c.dstop) y
        M.upd fun s => s.updCur fun c =>
          let c := (c.setPart keep).setOther (some go)
          { c with c := { c.c with dstop := c.c.dstop + 1, stack := (y.pc.ovl, y.mask) :: c.c.stack } }

/-- A lane-form transfer: with no lane taken nothing is checked (R309). -/
def branchM (act : Mask) (target : M Pc) : M Unit := do
  let s ← get
  if act == 0#32 then M.upd advancePc
  else do
    let t ← target
    reach t
    moveLanes act t
    settle s.cur.pc act

/-! ## BRA to RET -/

def execBra (h : Hdr) (off : Word) : State → Host.Outcome State Fault Refusal :=
  runI h {} true fun act => branchM act (relTarget off)

def execBrx (h : Hdr) (a : Opd) : State → Host.Outcome State Fault Refusal :=
  runI h { srcs := [(a, 2)] } true fun act => branchM act (indTarget a false)

/-- JOIN: the whole slot waits at the PC it names (R312). -/
def execJoin (h : Hdr) (off : Word) : State → Host.Outcome State Fault Refusal :=
  runI h {} true fun _ => do
    let s ← get
    let t ← relTarget off
    M.upd fun s => s.updCur fun c => c.setPart (some ⟨false, t, c.smask, false⟩)
    settle s.cur.pc s.cur.smask

/-- The link of R311. -/
def linkOf (p : Pc) : Nat := (Pc.mk p.ovl (p.blk + 1) 0).toNat

/-- CALL and CALLO once the target is known: the transfer of every lane, then the link. -/
def callTo (d : Opd) (t : Pc) : M Unit := do
  let s ← get
  let pc := s.cur.pc
  moveLanes s.cur.smask t
  emitR (dstN d none 2 (linkOf pc)) 0 (some 0)
  settle pc s.cur.smask

def execCallRel (h : Hdr) (d : Opd) (off : Word) : State → Host.Outcome State Fault Refusal :=
  runI h { uni := true, dsts := [(d, 2)] } true fun _ => do
    let t ← relTarget off
    callTo d t

def execCallInd (h : Hdr) (d a : Opd) : State → Host.Outcome State Fault Refusal :=
  runI h { uni := true, srcs := [(a, 2)], dsts := [(d, 2)] } true fun _ => do
    let t ← indTarget a true
    reach t
    callTo d t

def execRet (h : Hdr) (a : Opd) : State → Host.Outcome State Fault Refusal :=
  runI h { srcs := [(a, 2)] } true fun act => branchM act (indTarget a true)

/-- CALLO (R336): registration and NBLK first, then the wait of R337, then ENTRY. -/
def execCallo (h : Hdr) (d a b : Opd) : State → Host.Outcome State Fault Refusal :=
  runI h { uni := true, srcs := [(a, 1), (b, 1)], dsts := [(d, 2)] } true fun _ => do
    let s ← get
    let n := (src32 s none a).toNat
    let blk := (src32 s none b).toNat
    match s.cur.c.stage with
    | .ovl _ _ _ _ => pure ()
    | _ => do
      let ds ← cohortDesc n
      match ds with
      | none => M.trap { cause := Cause.ovUnregistered }
      | some ds => M.trapIf (decide (ds.nblk ≤ blk)) branchRangeT
    wantOverlay n (fallThrough s)
    let s ← get
    let p := s.cur.pl
    let entry := match blockAt? s p.core p.part p.asid (Pc.mk n blk 0) with
      | some x => decide (blk < 8192) && blkEntry x
      | none => false
    M.trapIf (!entry) branchRangeT
    callTo d (Pc.mk n blk 0)

/-! ## NOP, YIELD, SLEEP, TIMEWAIT (R314) -/

def execNop (h : Hdr) : State → Host.Outcome State Fault Refusal := runI h {} false fun _ => pure ()

/-- The last issue on each slot is now, and no run is held. -/
def yieldNow (s : State) : State :=
  s.updCur fun c =>
    let c := c.drain
    { c with c := { c.c with last := c.c.last.map fun _ => s.m.cycle, runs := c.c.runs.map fun _ => 0 } }

def execYield (h : Hdr) : State → Host.Outcome State Fault Refusal :=
  runI h { uni := true } false fun _ => M.upd yieldNow

/-- The cohort parks until a device time. -/
def parkUntil (t : Nat) (sleep : Bool) (s : State) : State :=
  s.updCur fun c =>
    let c := c.drain
    { c with c := { c.c with park := some t, sleeping := sleep } }

def execSleep (h : Hdr) (a : Opd) : State → Host.Outcome State Fault Refusal :=
  runI h { uni := true, srcs := [(a, 1)] } false fun _ => M.upd fun s =>
    let n := (src32 s none a).toNat
    if n == 0 then yieldNow s else parkUntil (s.m.time + n) true s

def execTimewait (h : Hdr) (a : Opd) : State → Host.Outcome State Fault Refusal :=
  runI h { uni := true, srcs := [(a, 2)] } false fun _ => M.upd fun s =>
    let t := (src64 s none a).toNat
    if t ≤ s.m.time then s else parkUntil t false s

/-- A parked cohort whose time has come goes on. -/
def unpark (now : Nat) (c : Cohort) : Cohort :=
  match c.c.park with
  | some t => if t ≤ now then { c with c := { c.c with park := none, sleeping := false } } else c
  | none => c

def execParkExpiry (cohort : Nat) : State → Host.Outcome State Fault Refusal :=
  runE fun s => s.updCohort cohort (unpark s.m.time)

/-! ## IDEM (R315) -/

/-- IDEM opens a region; the IDEM that a rollback resumes goes on with the region's count (R402). -/
def execIdem (h : Hdr) : State → Host.Outcome State Fault Refusal :=
  runI h { uni := true } false fun _ => M.upd fun s =>
    s.updC fun c =>
      let rolls := match c.idem with
        | some i => if i.again && i.pc == s.cur.pc then i.rolls else 0
        | none => 0
      { c with idem := some ⟨s.cur.pc, c.a, c.b, c.dstop, [], [], false, rolls, false⟩ }

def execIdemClose (h : Hdr) : State → Host.Outcome State Fault Refusal :=
  runI h { uni := true } false fun _ => M.upd fun s => s.updCur Cohort.closeIdem

end Sys2Proof.Machine
end

