-- ==== Sys2Proof/Machine/Exit.lean ====
section
/-! DEFINITION. EXIT and NODEEND (R313, R352), and what is freed when a cohort has ended (R152, R313, R330, R345, R393). -/

namespace Sys2Proof.Machine

/-- Deliver the held late trap of least cause among some causes. -/
def lateM (causes : List Nat) : M Unit := fun s =>
  match dueLate s causes with
  | some r => M.late r s
  | none => .ok ((), s)

/-- The last live lanes exit (R313): the results still owed, the log, the late traps, NODEEND in an invocation, the end. -/
def lastExit : M Unit := do
  M.waitUntil .parked fun s => !owed s s.cur.pl.id
  M.waitUntil .log fun s => !ownLogged s
  let s ← get
  deliverFault (ownTiles s)
  lateM latesRel
  if s.cur.x.inv.isSome then releaseM .dev else pure ()
  M.upd fun s => endLanes 0 (endInvocation true s)

def execExit (h : Hdr) : State → Host.Outcome State Fault Refusal :=
  runI h {} true fun act => do
    if act == 0#32 then M.upd advancePc
    else do
      M.upd fun s => s.updCur Cohort.closeIdem
      let s ← get
      if (s.cur.slotLanes ||| s.cur.stackLanes) &&& ~~~act == 0#32 then lastExit
      else do
        let rest := s.cur.smask &&& ~~~act
        M.upd fun s =>
          if rest == 0#32 then s.updCur fun c => c.setPart none
          else (advancePc s).updCur fun c => c.setPart (c.part?.map fun p => { p with mask := rest })
        settle s.cur.pc act

def execNodeend (h : Hdr) : State → Host.Outcome State Fault Refusal :=
  runI h { uni := true, lates := latesRel } true fun _ => do
    let s ← get
    M.trapIf s.cur.x.inv.isNone (accessT 0)
    releaseM .dev
    lastExit

/-! ## After the end -/

/-- Have the cohort's traces, batches, log entries and parked accesses ended (R313, R399)? -/
def endDone (s : State) (c : Cohort) : Bool :=
  !parkedOf s c.pl.id && !(s.held.any fun h => h.transit && h.cohort == c.pl.id) && !(s.dlog.any fun d => d.cohort == c.pl.id) && !(s.rays.any fun r => r.cohort == some c.pl.id)
    && !s.copies.any fun x => x.cohort == c.pl.id

/-- Pass faults that the cohort never took go to the ring (R393). -/
def ringPassFaults (c : Cohort) (s : State) : State :=
  s.tiles.foldl (fun s (k, t) => t.faults.foldl (fun s f =>
    if f.cohort == c.pl.id && k / 64 == c.pl.core / 4 then
      let s := s.setTile (k / 64) (k % 64) { s.tile (k / 64) (k % 64) with
        faults := (s.tile (k / 64) (k % 64)).faults.filter fun x => x.cohort != c.pl.id }
      if c.c.ending == some 1 then
        (s.ring c.pl.part { lateRec c Cause.matrixPass f.detail f.pc f.mask 0 with opnd := f.opnd, count := f.count }).2
      else s
    else s) s) s

/-- A codebook slot whose launch has no cohort left on the quad is all zeros and nobody's (R152). -/
def freeBooks (quad : Nat) (launch : Option Nat) (s : State) : State :=
  if s.cohorts.any fun c => c.pl.core / 4 == quad && c.pl.launch == launch then s
  else { s with books := s.books.filter fun (k, b) => !(k / 4 == quad && b.owner == launch) }

/-- Pins end with the tenant's last cohort on the core (R330). -/
def dropPins (core part asid : Nat) (s : State) : State :=
  if s.cohorts.any fun c => c.pl.core == core && c.pl.part == part && c.pl.asid == asid then s
  else { s with slots := s.slots.map fun o =>
    if o.core == core && o.part == part && o.asid == asid then { o with pins := 0 } else o }

/-- One cohort fewer in a unit of a launch. -/
def unitLeft (c : Cohort) (l : Launch) : Launch :=
  let left := l.placed.map fun (u, k, n) => if u == c.pl.unit && k == c.pl.core then (u, k, n - 1) else (u, k, n)
  { l with placed := left.filter fun e => e.2.2 != 0, ended := l.ended + (left.filter fun e => e.2.2 == 0).length }

/-- The cohort's slot and resources are freed: an invocation that did not publish gives back its pages, a generator that
did not end its fill ends it. -/
def freeCohort (c : Cohort) (s : State) : State :=
  let s := (asCohort c.pl.id () (fun s => ((), endInvocation false s)) s).2
  let s := ringPassFaults c { s with fabw := s.fabw.filter fun w => w.cohort != c.pl.id }
  let s := if s.cur.resident && s.cur.pl.id == c.pl.id then { s with cur := .reset }
    else { s with others := s.others.filter fun o => o.pl.id != c.pl.id }
  let s := match c.pl.launch with
    | some l => if c.x.inv.isSome then s else dropShares l (s.updLaunch l fun l => if l.graph.isSome then l else unitLeft c l)
    | none => s
  let s := match c.x.gen with
    | some g => endFill g.fill (some (g.end_.getD (0xF1, 0xFFFFFFFF))) s
    | none => s
  sweepEvict (dropPins c.pl.core c.pl.part c.pl.asid (freeBooks (c.pl.core / 4) c.pl.launch s))

/-- Free every cohort whose end is complete. -/
def finishEnd (s : State) : State :=
  (s.cohorts.filter fun c => c.c.ending.isSome && endDone s c).foldl (fun s c => freeCohort c s) s

end Sys2Proof.Machine
end

