-- ==== Sys2Proof/Machine/Dlog.lean ====
section
/-! DEFINITION. The deferred-store log (R231, R397, R398): retry and replay of its entries, their failures, DLOGQ. -/

namespace Sys2Proof.Machine

/-- What a retry of an entry comes to, in the context of its cohort. -/
inductive Retry where
  | performed | waits
  | failed (detail : Nat)
deriving DecidableEq, Repr

/-- Age at which an entry whose page is not present fails, in ns: DLTMO ms, 0 acts as 1 (R390). -/
def dltmo (s : State) (part : Nat) : Nat := max 1 ((s.part part).fltCtl.extractLsb' 16 16).toNat * 1000000

/-- The agent's view of an entry: its access kind. -/
def Dent.acc (d : Dent) : Acc := if d.op.isSome then .atomic else .store

/-- What a failed place of a replay counts as. -/
def replayFault (t : Trap) : Nat :=
  if t.cause == Cause.barClobber then 0x12 else if t.cause == Cause.access then t.detail else 0x11

/-- A held reduction arrives with its recorded round and key. -/
def replayHeld (d : Dent) (op : AtomOp) (pa die : Nat) (s : State) : Retry × State :=
  if s.touchesLive pa d.width then (.failed 0x12, s)
  else
    let (id, s) := s.fresh
    let h : Held := { id := id, launch := d.launch.getD 0, cohort := d.cohort, round := d.round.toNat, pa := pa, die := die, va := d.va,
                      width := d.width, op := op, glane := d.glane, seq := d.seq, value := d.data.extractLsb' 0 64, spilled := none
                      transit := false, red := true, pc := d.pc, part := d.part, asid := d.asid, mask := d.mask, reg := none, src := none }
    let s := writeBack d.core (pa / 64) s
    if s.poisoned pa then (.performed, parkReq d.part pa die d.va d.mask 0x0041 (.held h) s)
    else (.performed, landHeld h s)

/-- Perform entries of one instruction at one place as their instruction would have: a store, or a group of reductions (R252). -/
def replayAt (d : Dent) (g : List Dent) (loc : Loc) (s : State) : Retry × State :=
  let pa := match loc with | .dram pa _ => pa | .chip pa => pa | _ => 0
  match d.op with
  | none =>
    let bs := leBytes d.width d.data.toNat
    let req := Req.store d.cohort (some d.lane) (((List.range d.width).map (pa + ·)).zip bs) d.pc
    let (r, s) := storeAt loc d.va bs d.scope .dflt d.mask req s
    match r with
    | .fault t => (.failed (replayFault t), s)
    | _ => (.performed, s)
  | some op =>
    match d.held, loc with
    | true, .dram pa die => replayHeld d op pa die s
    | true, .remote md o =>
      let key : RemoteKey := ⟨d.launch.getD 0, d.round.toNat, d.glane, d.seq⟩
      (.performed, noteFab md d.va d.mask (Mask.one d.lane)
        { s with outs := s.outs ++ [.zwiov md o (.red op d.ty (some key) d.data)] })
    | true, _ => (.failed 0, s)
    | false, _ =>
      let req := Req.atom d.cohort none pa op d.ty d.scope s.cur.pl.det (g.map fun x => (x.lane, x.data, 0)) d.pc
      let ((r, _, ov), s) := groupAt loc d.va d.scope true s.cur.pl.det op d.ty (g.map fun x => (x.data.toNat, 0)) d.mask req s
      let s := if ov then s.updC fun c => { c with pend := c.pend ++ [⟨[], Fl.overflow, none⟩] } else s
      let s := match loc, r with
        | .remote md _, .val _ => noteFab md d.va d.mask req.lanes s
        | _, _ => s
      match r with
      | .fault t => (.failed (replayFault t), s)
      | _ => (.performed, s)

/-- The entries that perform with an entry: those of the same RED whose lanes name the same location now (R252). -/
def Dent.group (s : State) (d : Dent) : List Dent :=
  if d.op.isNone || d.held then [d]
  else
    let at_ := fun (x : Dent) => match xlate s x.part x.asid s.cur.pl.priv x.acc x.va with
      | .ok t => some (t.loc s x.part).norm
      | _ => none
    s.dlog.filter fun x => x.cohort == d.cohort && x.cyc == d.cyc && x.pc == d.pc && (at_ x == at_ d || x.va == d.va)

/-- Retry an entry: the walk is made afresh; a page that is still not present lets it wait until it is too old. -/
def retryOne (d : Dent) (g : List Dent) (s : State) : Retry × State :=
  match xlate s d.part d.asid s.cur.pl.priv d.acc d.va with
  | .busy => (.waits, s)
  | .poison => (.failed 0x11, s)
  | .bad 4 _ => if dltmo s d.part ≤ s.m.time - d.since then (.failed 4, s) else (.waits, s)
  | .bad x _ => (.failed x, s)
  | .ok t =>
    let s := heatFor d.part d.acc t.at_ s
    match askAt d.part d.asid s.cur.x.gen t s with
    | (.go, s) => replayAt d g (t.loc s d.part) s
    | (.failed, s) => (.failed 0x10, s)
    | (.fault _, s) => (.failed 0x10, s)
    | (_, s) => (.waits, s)

/-- Is it the entry? -/
def Dent.same (d x : Dent) : Bool := d.seq == x.seq && d.cohort == x.cohort && d.lane == x.lane && d.va == x.va && d.pc == x.pc && d.round == x.round

/-- A retry with its consequences for the log: the entries of the group leave it unless they wait; failed ones are a late trap. -/
def retryEntry (d : Dent) (s : State) : Bool × State :=
  let ((g, r), s) := asCohort d.cohort ([d], Retry.waits) (fun s =>
    let g := d.group s
    let (r, s) := retryOne d g s
    ((g, r), s)) s
  let gone := fun (s : State) => { s with dlog := s.dlog.filter fun x => !g.any fun y => y.same x }
  match r with
  | .performed => (true, gone s)
  | .waits => (false, s)
  | .failed x => (true, g.foldl (fun s d =>
      postLate d.cohort Cause.dlogFailed x 1 d.pc d.mask (doneBut d.mask (Mask.one d.lane)) d.va s) (gone s))

/-- The page of an entry. -/
def Dent.page (d : Dent) : Nat × Nat × Nat := (d.part, d.asid, d.va / 4096)

/-- Entries in log order; one that waits holds back the later ones of its page (R231, R397). -/
def retryList : List Dent → List (Nat × Nat × Nat) → State → State
  | [], _, s => s
  | d :: l, held, s =>
    if held.contains d.page || !s.dlog.any d.same then retryList l held s
    else
      let (go, s) := retryEntry d s
      retryList l (if go then held else d.page :: held) s

/-- The log of a core is retried. -/
def retryCore (core : Nat) (s : State) : State := retryList (s.dlog.filter fun d => d.core == core) [] s

/-- The retry that is made at least once every microsecond. -/
def execDeferredStoreRetry (core : Nat) : State → Host.Outcome State Fault Refusal := runE (retryCore core)

/-- The entries of a core that are old enough fail when their page is still not present. -/
def execDeferredStoreTimeout (core : Nat) : State → Host.Outcome State Fault Refusal :=
  runE fun s => (s.dlog.filter fun d => d.core == core && decide (dltmo s d.part ≤ s.m.time - d.since)).foldl
    (fun s d => match (asCohort d.cohort (Wk.busy) (fun s => (xlate s d.part d.asid s.cur.pl.priv d.acc d.va, s)) s).1 with
      | .bad 4 _ => (retryEntry d s).2
      | _ => s) s

/-! ## DLOGQ (R398) -/

/-- What the oldest entry of the issuing cohort is doing, with its address: an undelivered failure counts as the oldest. -/
def dlogState (s : State) : Nat × Nat :=
  match s.cur.c.late.find? fun r => r.cause == Cause.dlogFailed with
  | some r => (3, r.addr)
  | none => match s.dlog.find? fun d => d.cohort == s.cur.pl.id with
    | none => (0, 0)
    | some d => match xlate s d.part d.asid s.cur.pl.priv d.acc d.va with
      | .ok t => (if peekAt s d.part d.asid s.cur.x.gen t == .go then 1 else 2, d.va)
      | _ => (1, d.va)

/-- The four words of DLOGQ. -/
def dlogWords (s : State) : Nat :=
  let (st, a) := dlogState s
  (s.dlog.filter fun d => d.cohort == s.cur.pl.id).length + 2 ^ 16 * (s.dlog.filter fun d => d.core == s.cur.pl.core).length
    + 2 ^ 32 * st + 2 ^ 64 * a

def execDlogq (h : Hdr) (d : Opd) : State → Host.Outcome State Fault Refusal :=
  runI h { uni := true, dsts := [(d, 4)] } false fun _ => do
    let s ← get
    emitR (dstN d none 4 (dlogWords s)) 0 (some 4)

def execDlogqWait (h : Hdr) (d : Opd) : State → Host.Outcome State Fault Refusal :=
  runI h { uni := true, dsts := [(d, 4)], lates := [Cause.dlogFailed] } false fun _ => do
    M.waitUntil .log fun s => !ownLogged s
    let s ← get
    emitR (dstN d none 4 (dlogWords s)) 0 (some 0)

end Sys2Proof.Machine
end

