-- ==== Sys2Proof/Machine/Trans.lean ====
section
/-! DEFINITION. TLBINV, SPLINTER, MIGRATE, FILLEVICT, OPENWIN, CLOSEWIN, heat (R362 to R372, R382, R383). -/

namespace Sys2Proof.Machine

/-! ## Removing translations (R361, R362) -/

/-- Which translations of a partition go: all, those of an ASID, or those of pages that overlap [lo, hi) in an ASID. -/
structure Gone where
  part : Nat
  asid : Option Nat := none
  span : Option (Nat × Nat) := none
deriving DecidableEq, Repr

/-- Does a page of a size, at an address, go? -/
def Gone.page (g : Gone) (part asid va size : Nat) : Bool :=
  g.part == part && (match g.asid with | some a => a == asid | none => true)
    && match g.span with
      | some (lo, hi) => decide (va % 2 ^ 57 / size * size < hi) && decide (lo < va % 2 ^ 57 / size * size + size)
      | none => true

/-- The generation of a core rises; when it wraps, every last-page register of the core is cleared (R361). -/
def raiseGen (core : Nat) (s : State) : State :=
  let n := (genOf s core + 1) % 4096
  let s := { s with tgen := s.tgen.set core n 0 }
  if n == 0 then s.updCohorts fun c => if c.pl.core == core then { c with x := { c.x with lastPages := [] } } else c else s

/-- The cores of a partition on which anything could hold a translation. -/
def partCores (s : State) (part : Nat) : List Nat :=
  (((s.cohorts.filter fun c => c.pl.part == part).map (·.pl.core)) ++ ((s.tlb.filter fun t => t.part == part).map (·.core))).eraseDups

/-- Remove translations from every cache of the partition; the core's deferred-store logs are retried (R397). -/
def dropTr (g : Gone) (s : State) : State :=
  let cores := partCores s g.part
  let s := cores.foldl (fun s c => raiseGen c s)
    { s with tlb := s.tlb.filter fun t => !g.page t.part t.asid (t.vpn * leafSize t.level) (leafSize t.level) }
  (((s.dlog.filter fun d => d.part == g.part).map (·.core)).eraseDups).foldl (fun s c => retryCore c s) s

/-- Tenant of a parked request. -/
def Parked.asid (s : State) (q : Parked) : Option Nat :=
  match q.req with
  | .host _ _ => some ((s.part q.part).cfg.extractLsb' 16 16).toNat
  | r => ((Req.cohort? r).bind s.cohort?).map (·.pl.asid)

/-- Is an access that used a removed translation still outstanding: parked, on its way to an HAU, or a piece of a host write? `size`
is the largest page that the removed translation may have been of. -/
def outstanding (g : Gone) (size : Nat) (s : State) : Bool :=
  (s.parked.any fun q => match q.asid s with
    | some a => g.page q.part a q.va size
    | none => false)
    || (s.held.any fun h => h.transit && g.page h.part h.asid h.va size)
    || s.hop.any fun w => w.pieces.any fun p => p.1 != 8 && p.2.any fun e => g.page w.part w.asid e.2.1 size

/-- The four steps of TLBINV (R362); `f` is what is done with step 2. Nothing else moves while the instruction performs, so
waiting first and removing afterwards is the same. -/
def invM (g : Gone) (f : M Unit) : M Unit := do
  releaseM .dev
  M.waitUntil .parked fun s => !outstanding g (leafSize 2) s
  f
  M.upd (acquire .dev)

/-- ASIDs of a partition's tenant table (R373). -/
def asidOk (s : State) (part asid : Nat) : Bool :=
  let n := ((s.part part).tent.extractLsb' 0 5).toNat
  n ≤ 16 && asid < 2 ^ n

/-! ## The procedural range table (R369, R370) -/

/-- Is a descriptor with EN set well formed? -/
def rangeOk (b : List Byte) : Bool :=
  let r : Range := ⟨0, b⟩
  let lo := fld b 0 8
  let hi := fld b 8 8
  12 ≤ r.blklog && r.blklog ≤ 18 && lo % r.size == 0 && hi % r.size == 0 && canonical lo && canonical (hi + 2 ^ 64 - 1)
    && r.vbase < r.vlimit && r.vbase / 2 ^ 56 == (r.vlimit - 1) / 2 ^ 56 && r.mapptr % 8 == 0 && (r.kind == 2 || r.srcptr == 0)
    && fld b 35 1 < 3 && fld b 37 1 / 16 == 0 && fld b 38 1 < 2 && fld b 39 1 == 0 && allZero (b.drop 42)

/-- The enabled ranges that a tenant's table holds. -/
def readRanges (s : State) (part asid : Nat) : List Range :=
  match tenant? s part asid with
  | none => []
  | some t =>
    if tProcTbl t % 64 != 0 || 64 < tProcCnt t then []
    else (((List.range (tProcCnt t)).filter fun k => s.inRanges part (tProcTbl t + 64 * k)).map fun k =>
      (⟨k, s.bytes (physOf s part (tProcTbl t + 64 * k)) 64⟩ : Range)).filter fun r => r.en && rangeOk r.desc

/-- Write a range's map all EMPTY; a map that cannot be written leaves it disabled (R339, R370). -/
def initMap (part asid : Nat) (r : Range) : M Bool := fun s =>
  let g : Agent := ⟨part, r.owner, privOf s part r.owner, 2 ^ 50 + 2 ^ 6 * asid + r.ix, none, none, none⟩
  match g.write r.mapptr (List.replicate (ceilDiv r.blocks 4) 0#8) s with
  | .ok (_, s') => .ok (true, { s' with fills := s'.fills.filter fun f => !(f.part == part && f.asid == asid && f.range == r.ix) })
  | .error (.wait s') => .error (.wait .fill s')
  | .error _ => .ok (false, s.countMisc part)

/-- The new list of enabled ranges: those enabled afresh have their maps written. -/
def enableRanges (part asid : Nat) (old : List Range) : List Range → M (List Range)
  | [] => pure []
  | r :: l => do
    let ok ← if old.any fun x => x.ix == r.ix then pure true else initMap part asid r
    let rest ← enableRanges part asid old l
    pure (if ok then r :: rest else rest)

/-- TLBINV.asid reads the tenant's range table again; a range that is switched off waits for its PENDING blocks. -/
def rereadRanges (part asid : Nat) : M Unit := do
  let s ← get
  let old := (s.part part).ranges.get asid []
  let new := readRanges s part asid
  let off := old.filter fun r => !new.any fun x => x.ix == r.ix
  M.waitUntil .fill fun s => !s.fills.any fun f => f.part == part && f.asid == asid && off.any fun r => r.ix == f.range
  let rs ← enableRanges part asid old new
  M.upd fun s => s.updPart part fun p => { p with ranges := p.ranges.set asid rs [] }

/-! ## TLBINV -/

def metaInv (srcs : List (Opd × Nat)) : Meta := { uni := true, srcs := srcs, priv := true, lates := latesRel }

def execTlbinvAll (h : Hdr) : State → Host.Outcome State Fault Refusal :=
  runI h (metaInv []) false fun _ => do
    let s ← get
    let g : Gone := { part := s.cur.pl.part }
    invM g (M.upd (dropTr g))

def execTlbinvAsid (h : Hdr) (b : Opd) : State → Host.Outcome State Fault Refusal :=
  runI h (metaInv [(b, 1)]) false fun _ => do
    let s ← get
    let p := s.cur.pl.part
    let a := (src32 s none b).toNat
    M.trapIf (!asidOk s p a) { accessT 0 with opnd := 2 }
    let g : Gone := { part := p, asid := some a }
    invM g do
      rereadRanges p a
      M.upd (dropTr g)

def execTlbinvPage (h : Hdr) (a b : Opd) : State → Host.Outcome State Fault Refusal :=
  runI h (metaInv [(a, 2), (b, 1)]) false fun _ => do
    let s ← get
    let p := s.cur.pl.part
    let asid := (src32 s none b).toNat
    M.trapIf (!asidOk s p asid) { accessT 0 with opnd := 2 }
    let va := (src64 s none a).toNat % 2 ^ 57
    let g : Gone := { part := p, asid := some asid, span := some (va, va + 1) }
    invM g (M.upd (dropTr g))

def execTlbinvRange (h : Hdr) (a b c : Opd) : State → Host.Outcome State Fault Refusal :=
  runI h (metaInv [(a, 2), (b, 1), (c, 1)]) false fun _ => do
    let s ← get
    let p := s.cur.pl.part
    let asid := (src32 s none b).toNat
    M.trapIf (!asidOk s p asid) { accessT 0 with opnd := 2 }
    let va := (src64 s none a).toNat % 2 ^ 57
    let n := (src32 s none c).toNat
    let g : Gone := { part := p, asid := some asid, span := some (va, va + 4096 * n) }
    invM g (if n == 0 then pure () else M.upd (dropTr g))

/-! ## The descriptor of SPLINTER and MIGRATE (R365) -/

def TrOp.ofBytes (b : List Byte) : TrOp :=
  let f := fld b 26 1
  ⟨fld b 0 8, fld b 8 8, fld b 16 8, fld b 24 2, f % 4, nbit f 2, f / 8 % 4⟩

/-- Bytes that MIGRATE moves. -/
def TrOp.bytes (d : TrOp) : Nat := if d.size == 0 then 4096 else if d.size == 1 then 65536 else leafSize (d.size - 1)

/-- Does [pa, pa + n) lie in the partition's ranges? -/
def spanInRanges (s : State) (part pa n : Nat) : Bool :=
  (List.range ((pa + n - 1) / 2 ^ 21 - pa / 2 ^ 21 + 1)).all fun k => s.inRanges part (pa / 2 ^ 21 * 2 ^ 21 + k * 2 ^ 21)

/-- An entry's FRAME, TIER and HOME replaced. -/
def Pte.move (e : Dword) (frame : Nat) (tier : Bool) (home : Nat) : Dword :=
  (e &&& ~~~0x000F_FFFF_FFFF_FE00#64) ||| BitVec.ofNat 64 (frame / 4096 % 2 ^ 40 * 4096 + (if tier then 2048 else 0) + home % 4 * 512)

/-- The checks of R365 that no walk is needed for. -/
def trOpOk (s : State) (part : Nat) (b : List Byte) (mig : Bool) : Bool :=
  let d := TrOp.ofBytes b
  let st := d.stage == 0 || (d.stage % 4096 == 0 && d.stage < 2 ^ 52 && s.inRanges part d.stage)
  canonical d.va && asidOk s part d.asid && fld b 26 1 / 32 == 0 && allZero ((b.drop 27).take 5) && st
    && (if mig then
          d.va % d.bytes == 0 && d.newpa % d.bytes == 0 && d.newpa < 2 ^ 52 && spanInRanges s part d.newpa d.bytes
            && Pte.homeOk (Pte.move 0#64 d.newpa d.tier d.home)
        else d.newpa == 0 && fld b 26 1 == 0)

/-- Read and check the descriptor: a load of the cohort. -/
def trOpM (a : Opd) (mig : Bool) : M TrOp := do
  let s ← get
  let va := (src64 s none a).toNat
  M.trapIf (va % 32 != 0) (accessT 0 va)
  let b ← agentM ((agentOf s.cur (s.cur.pl.id * 2 ^ 24 + 5)).read va 32)
  let s ← get
  M.trapIf (!trOpOk s s.cur.pl.part b mig) (accessT 0 va)
  pure (TrOp.ofBytes b)

/-- The entry that covers an address: its level, address and value; none when an entry on the way is not valid. -/
def leafFrom (s : State) (part va : Nat) : Nat → Nat → Option (Nat × Nat × Dword)
  | level, tbl =>
    let at_ := physOf s part (tbl + 8 * vaIndex va level)
    let e : Dword := BitVec.ofNat 64 (leNat (s.bytes at_ 8))
    if !Pte.v e then none
    else match level with
      | 0 => if Pte.leaf e then some (0, at_, e) else none
      | l + 1 => if Pte.leaf e then some (l + 1, at_, e) else leafFrom s part va l (Pte.frame e)

/-- The leaf that covers an address of a tenant. A walk that a fault of the table format or an invalid tenant stops raises that
access trap. -/
def leafM (d : TrOp) : M (Option (Nat × Nat × Dword)) := do
  let s ← get
  let p := s.cur.pl.part
  match tenant? s p d.asid with
  | none => M.trap (accessT 5 d.va)
  | some t => match walk s p d.asid 0 d.va with
    | .bad 3 _ => M.trap (accessT 3 d.va)
    | _ => pure (leafFrom s p (d.va % 2 ^ 57) 4 (tRoot t))

/-! ## SPLINTER (R366) -/

/-- Entry j of the staging page. -/
def splinterEntry (e : Dword) (level j : Nat) : Dword :=
  let clr := e &&& ~~~0x0100_0000_0000_0020#64
  (clr &&& ~~~0x000F_FFFF_FFFF_F000#64) ||| BitVec.ofNat 64 (Pte.frame e + j * leafSize (level - 1))

/-- Does SPLINTER do its work? The leaf is larger than 4 KiB, a staging page is given, and BUSY can be set. -/
def canSplinter (d : TrOp) (x : Nat × Nat × Dword) : Bool := x.1 != 0 && d.stage != 0 && !Pte.busy x.2.2

/-- Bytes written at a physical address of a partition. -/
def putPa (part a : Nat) (bs : List Byte) (s : State) : State :=
  ((List.range bs.length).zip bs).foldl (fun s (k, b) => putByte (locate s part (a + k)) b s) s

/-- BUSY set in entries. -/
def setBusy (es : List (Nat × Dword)) (s : State) : State :=
  es.foldl (fun s (a, e) => s.setBytes a (leBytes 8 (e ||| busyBit).toNat)) s

/-- The stage of the issuing cohort's instruction. -/
def setStage (st : Stage) (s : State) : State := s.updC fun c => { c with stage := st }

/-- The span that a leaf covers. -/
def leafGone (part : Nat) (d : TrOp) (level : Nat) : Gone :=
  let lo := d.va % 2 ^ 57 / leafSize level * leafSize level
  { part := part, asid := some d.asid, span := some (lo, lo + leafSize level) }

/-- Steps 2 and 3: BUSY is set, the staging page is written. -/
def splinterStart (d : TrOp) (x : Nat × Nat × Dword) (s : State) : State :=
  let (level, at_, e) := x
  putPa s.cur.pl.part d.stage ((List.range 512).flatMap fun j => leBytes 8 (splinterEntry e level j).toNat)
    (setBusy [(at_, e)] s) |> setStage (.busy d true level [(at_, e)])

/-- Step 5 and the invalidation of step 6. -/
def splinterSwap (d : TrOp) (level at_ : Nat) (s : State) : State :=
  dropTr (leafGone s.cur.pl.part d level) (s.setBytes at_ (leBytes 8 (d.stage + 1))) |> setStage (.swept d level)

/-- The accesses that used the leaf have performed. -/
def sweptM (d : TrOp) (level : Nat) : M Unit := do
  M.waitUntil .parked fun s => !outstanding (leafGone s.cur.pl.part d level) 4096 s
  M.upd fun s => setStage .start (acquire .dev s)

/-- Steps 4 to 6: false when software has changed the entry since BUSY was set in it, and the entry stays as software wrote it. -/
def splinterEnd (d : TrOp) (level : Nat) (es : List (Nat × Dword)) : M Bool := do
  releaseM .dev
  let s ← get
  if es.all fun e => s.bytes e.1 8 == leBytes 8 (e.2 ||| busyBit).toNat then do
    M.upd (splinterSwap d level (es.headD (0, 0#64)).1)
    sweptM d level
    pure true
  else do
    M.upd (setStage .start)
    pure false

/-- SPLINTER: earlier accesses perform first; other agents act between setting BUSY and the swap. -/
def execSplinter (h : Hdr) (d a : Opd) : State → Host.Outcome State Fault Refusal :=
  runI h { uni := true, srcs := [(a, 2)], dsts := [(d, 1)], priv := true, lates := latesRel, opnd := 1 } false fun _ => do
    let s ← get
    let ok ← match s.cur.c.stage with
      | .busy op _ level es => splinterEnd op level es
      | .swept op level => do
        sweptM op level
        pure true
      | _ => do
        let op ← trOpM a false
        let x ← leafM op
        match x with
        | none => pure false
        | some x =>
          if canSplinter op x then do
            releaseM .dev
            M.upd (splinterStart op x)
            M.wait .busy
          else pure false
    emitR (dstP d none ok) 0 (some 0)

/-! ## MIGRATE (R367) -/

/-- Level of the leaves that a SIZE moves, and how many entries they are. -/
def sizeLevel (size : Nat) : Nat := size - 1
def sizeEntries (size : Nat) : Nat := if size == 1 then 16 else 1

/-- The entries of the page or group, with their addresses. -/
def migEntries (s : State) (d : TrOp) (at_ : Nat) : List (Nat × Dword) :=
  let base := if d.size == 1 then at_ / 128 * 128 else at_
  (List.range (sizeEntries d.size)).map fun k => (base + 8 * k, BitVec.ofNat 64 (leNat (s.bytes (base + 8 * k) 8)))

/-- Is the leaf of the size asked, and a group whole? -/
def migShape (d : TrOp) (level : Nat) (es : List (Nat × Dword)) : Bool :=
  level == sizeLevel d.size && (d.size != 1 || es.all fun e => Pte.v e.2 && Pte.leaf e.2 && Pte.cont e.2)

/-- Is a block of a procedural range in the page PENDING? -/
def pendingIn (s : State) (part : Nat) (d : TrOp) : Bool :=
  s.fills.any fun f => f.part == part && f.asid == d.asid
    && decide (f.va % 2 ^ 57 < d.va % 2 ^ 57 + d.bytes) && decide (d.va % 2 ^ 57 < f.va % 2 ^ 57 + f.rng.size)

/-- Is an update of an open round held for a line of [pa, pa + n)? -/
def heldIn (s : State) (pa n : Nat) : Bool := s.held.any fun h => !h.transit && pa ≤ h.pa && h.pa < pa + n

/-- L1 copies of the lines of [pa, pa + n) in a partition are written back and invalidated. -/
def flushL1 (part pa n : Nat) (s : State) : State :=
  (s.l1.filter fun x => x.part == part && decide (pa ≤ 64 * x.line) && decide (64 * x.line < pa + n)).foldl
    (fun s x => (writeBack x.core x.line s).delL1 x.core x.line) s

/-- The part of a range with a source that lies in [lo, hi), moved by a distance. -/
def Lazy.shift (lo hi new : Nat) (z : Lazy) : List Lazy :=
  let a := max lo z.lo
  let b := min hi z.hi
  if a < b then [⟨new + (a - lo), new + (b - lo), z.off + (a - z.lo), z.src⟩] else []

/-- Copy n bytes of local memory with what belongs to them: bytes without a value of their own, barrier tags, the places of
suspended cohorts. The old frame keeps its contents. -/
def copyFrame (old new n : Nat) (s : State) : State :=
  let zs := s.lazies.flatMap (Lazy.shift old (old + n) new)
  let bs := (List.range n).map fun k => Memory.read s.mem (old + k)
  let inOld := fun a => old ≤ a && a < old + n
  let inNew := fun a => new ≤ a && a < new + n
  let s := s.setBytes new bs
  let s := { s with
    lazies := s.lazies ++ zs
    poison := s.poison.filter fun w => !inNew w
    tags := (s.tags.filter fun a => !inNew a) ++ ((s.tags.filter inOld).map fun a => a - old + new) }
  s.updCohorts fun c => { c with c := { c.c with barAt := c.c.barAt.map fun a => if inOld a then a - old + new else a } }

/-- Copy n bytes between frames of any kind, byte by byte. -/
def copyAny (part old new n : Nat) (s : State) : State :=
  (List.range n).foldl (fun s k =>
    let (b, s) := match locate s part (old + k) with
      | .dram pa _ => (s.byte pa, s)
      | .chip pa => (chipByte s pa, s)
      | .host x => (s.byte (0xC_0000_0000_0000 + x), s)
      | .remote _ _ => let (l, s) := remoteBytes 1 s; (nth l 0 0#8, s)
      | .bus => (0#8, s)
    putByte (locate s part (new + k)) b s) s

/-- The span of a MIGRATE. -/
def migGone (part : Nat) (d : TrOp) : Gone :=
  { part := part, asid := some d.asid, span := some (d.va % 2 ^ 57, d.va % 2 ^ 57 + d.bytes) }

/-- The frame of the page or group that is moved. -/
def oldFrame (d : TrOp) (es : List (Nat × Dword)) : Nat := Pte.frame (es.headD (0, 0#64)).2 / d.bytes * d.bytes

/-- Step 3, and the invalidation and the write-backs of step 4. -/
def migrateStart (d : TrOp) (level : Nat) (es : List (Nat × Dword)) (s : State) : State :=
  let p := s.cur.pl.part
  flushL1 p (physOf s p (oldFrame d es)) d.bytes (dropTr (migGone p d) (setBusy es s)) |> setStage (.busy d false level es)

/-- Does an access to the old frame still wait: one that used its translation, or one of its lines' write-backs? -/
def oldInUse (d : TrOp) (es : List (Nat × Dword)) (s : State) : Bool :=
  let old := physOf s s.cur.pl.part (oldFrame d es)
  outstanding (migGone s.cur.pl.part d) 4096 s
    || s.parked.any fun q => match q.req with | .wback _ _ => old ≤ q.pa && q.pa < old + d.bytes | _ => false

/-- Steps 5 and 6: the page is copied and its entries take the new frame. -/
def migrateDo (d : TrOp) (es : List (Nat × Dword)) (s : State) : State :=
  let p := s.cur.pl.part
  let old := physOf s p (oldFrame d es)
  let new := physOf s p d.newpa
  let s := if isDram old && isDram new then copyFrame old new d.bytes s else copyAny p old new d.bytes s
  let s := ((List.range es.length).zip es).foldl (fun s (k, at_, e) =>
    s.setBytes at_ (leBytes 8 (Pte.move e (d.newpa + 4096 * k) d.tier d.home).toNat)) s
  setStage .start (acquire .dev s)

/-- A poisoned sector of the page parks the copy's read (R399); none when it was refused. -/
def sectorsM (part old n va : Nat) : M Bool := do
  let s ← get
  let key := s.cur.pl.id * 2 ^ 24 + 6
  match s.poison.find? fun w => old ≤ w && w < old + n with
  | none => pure true
  | some w =>
    if s.refused.contains (key, w) then do
      M.upd fun s => { s with refused := s.refused.filter fun e => e != (key, w) }
      pure false
    else do
      if s.parked.any fun q => q.pa == w && q.req == Req.engine key then pure ()
      else M.upd (parkReq part w (dieHome w 0) va 0#32 0x0041 (.engine key))
      M.wait .parked

/-- Steps 2 to 4: false where the page is not to be moved. A page outside the partition's ranges is never reached (R5, R359). -/
def migrateFrom (d : TrOp) : M Bool := do
  let x ← leafM d
  let s ← get
  let p := s.cur.pl.part
  match x with
  | none => pure false
  | some (level, at_, _) => do
    let es := migEntries s d at_
    if !migShape d level es || pendingIn s p d || heldIn s (physOf s p (oldFrame d es)) d.bytes || es.any fun e => Pte.busy e.2 then
      pure false
    else do
      M.trapIf (!spanInRanges s p (oldFrame d es) d.bytes) (accessT 5 d.va)
      M.upd (migrateStart d level es)
      M.wait .busy

/-- Steps 4 to 6 once BUSY is set: an error of the copy restores the entries. -/
def migrateEnd (d : TrOp) (es : List (Nat × Dword)) : M Bool := do
  M.waitUntil .parked fun s => !oldInUse d es s
  let s ← get
  let clean ← sectorsM s.cur.pl.part (physOf s s.cur.pl.part (oldFrame d es)) d.bytes d.va
  M.upd (if clean then migrateDo d es else fun s => setStage .start (unbusy es s))
  pure clean

/-- Step 1: the leaf that is one level larger is splintered first. -/
def migrateBegin (d : TrOp) : M Bool := do
  releaseM .dev
  let x ← leafM d
  match x with
  | none => pure false
  | some x =>
    if x.1 == sizeLevel d.size + 1 && d.size != 3 && canSplinter d x then do
      M.upd (splinterStart d x)
      M.wait .busy
    else migrateFrom d

def execMigrate (h : Hdr) (d a : Opd) : State → Host.Outcome State Fault Refusal :=
  runI h { uni := true, srcs := [(a, 2)], dsts := [(d, 1)], priv := true, lates := latesRel, opnd := 1 } false fun _ => do
    let s ← get
    let ok ← match s.cur.c.stage with
      | .busy op false _ es => migrateEnd op es
      | .busy op true level es => do
        let _ ← splinterEnd op level es
        migrateFrom op
      | .swept op level => do
        sweptM op level
        migrateFrom op
      | _ => do
        let op ← trOpM a true
        migrateBegin op
    emitR (dstP d none ok) 0 (some 0)

/-! ## Eviction (R371, R372) -/

/-- The physical 4 KiB pages of a block, where they are mapped to local memory. -/
def blockPages (s : State) (part asid : Nat) (r : Range) (blk : Nat) : List (Nat × Tr) :=
  (List.range (r.size / 4096)).filterMap fun k =>
    match xlate s part asid true .query (r.vbase + blk * r.size + 4096 * k) with
    | .ok t => some (t.pa, t)
    | _ => none

/-- Evict a block: false when it is PENDING or holds a live barrier word. Its lines and translations go. -/
def evictBlock (part asid : Nat) (r : Range) (blk : Nat) (s : State) : Bool × State :=
  match blkState s part r blk with
  | none => if mapBusy s part asid r blk then (false, s) else (false, disableRange part asid r.ix s)
  | some st =>
    if st == blkEmpty then (true, s)
    else if st == blkPending then (false, s)
    else
      let ps := blockPages s part asid r blk
      if ps.any fun p => s.tags.any fun a => p.1 ≤ a && a < p.1 + 4096 then (false, s)
      else
        let s := ps.foldl (fun s p => flushL1 part p.1 4096 s) s
        let lo := r.vbase + blk * r.size
        let s := dropTr { part := part, asid := some asid, span := some (lo, lo + r.size) } s
        (true, setBlk part asid r blk blkEmpty s)

def evictAll (part asid : Nat) (r : Range) : List Nat → State → Bool × State
  | [], s => (true, s)
  | b :: l, s =>
    let (x, s) := evictBlock part asid r b s
    let (y, s) := evictAll part asid r l s
    (x && y, s)

/-- FILLEVICT: blocks past the end of the range are none of its blocks. -/
def execFillevict (h : Hdr) (d a b c : Opd) : State → Host.Outcome State Fault Refusal :=
  runI h { uni := true, srcs := [(a, 2), (b, 1), (c, 1)], dsts := [(d, 1)], priv := true, lates := latesRel, opnd := 1 } false fun _ => do
    let s ← get
    let p := s.cur.pl.part
    let va := (src64 s none a).toNat
    let n := (src32 s none b).toNat
    let asid := (src32 s none c).toNat
    let r := if canonical va then rangeFor s p asid (va % 2 ^ 57) else none
    match r with
    | none => M.trap (accessT 0 va)
    | some r => do
      M.trapIf (n == 0 || decide (65536 < n)) { accessT 0 va with opnd := 2 }
      let b0 := r.blockOf (va % 2 ^ 57)
      let blks := ((List.range n).map (b0 + ·)).filter fun k => k < r.blocks
      let lo := r.vbase + b0 * r.size
      releaseM .dev
      M.waitUntil .parked fun s => !outstanding { part := p, asid := some asid, span := some (lo, lo + n * r.size) } 4096 s
      M.waitUntil .busy fun s => !blks.any fun k => mapBusy s p asid r k
      let ok ← M.run (evictAll p asid r blks)
      M.upd (acquire .dev)
      emitR (dstP d none ok) 0 (some 0)

/-! ## Mailbox windows (R382, R383) -/

/-- Physical address of a cohort's register row (R380). -/
def rowPa (c : Cohort) (n : Nat) : Nat := 0xE_0000_0000_0000 + 0x20_0000 * c.pl.core + 0x10_0000 + 0x1_0000 * (c.pl.slotIx / 8) + 128 * (c.r.vbase + n)

def execOpenwin (h : Hdr) (d a b : Opd) : State → Host.Outcome State Fault Refusal :=
  runI h { uni := true, srcs := [(b, 1)], dsts := [(d, 2)] } false fun _ => do
    let s ← get
    let n := (src32 s none b).toNat
    let v := Opd.ix a
    M.trapIf s.cur.x.win.isSome (accessT 0)
    M.trapIf (n == 0 || decide (64 < n)) { accessT 0 with opnd := 2 }
    M.trapIf (decide (s.cur.r.vregs < v + n)) { accessT 0 with opnd := 1 }
    M.upd fun s => s.updX fun x => { x with win := some (v, n) }
    emitR (dstN d none 2 (rowPa s.cur v)) 0 (some 0)

def execClosewin (h : Hdr) (d : Opd) : State → Host.Outcome State Fault Refusal :=
  runI h { uni := true, dsts := [(d, 1)] } false fun _ => do
    let s ← get
    M.upd fun s => acquire .core (s.updX fun x => { x with win := none })
    emitR (dstP d none s.cur.x.win.isSome) 0 (some 0)

/-! ## Heat and the docent (R363, R371) -/

/-- Lower the heat fields of an entry by one, each that is not zero; BUSY leaves are skipped. -/
def coolEntry (at_ : Nat) (s : State) : State :=
  let e : Dword := BitVec.ofNat 64 (leNat (s.bytes at_ 8))
  let dn := fun (x : BitVec 2) => if x == 0#2 then x else x - 1#2
  if Pte.busy e || (e &&& Pte.heatMask) == 0#64 then s
  else
    let b := s.byte (at_ + 7)
    s.setBytes (at_ + 7) [b.extractLsb' 5 3 ++ dn (b.extractLsb' 3 2) ++ dn (b.extractLsb' 1 2) ++ b.extractLsb' 0 1]

/-- Every leaf below a table. -/
def coolTable (part : Nat) : Nat → Nat → State → State
  | level, tbl, s =>
    if !s.inRanges part tbl then s
    else (List.range 512).foldl (fun s k =>
      let at_ := tbl + 8 * k
      let e : Dword := BitVec.ofNat 64 (leNat (s.bytes at_ 8))
      if !Pte.v e then s
      else match level with
        | 0 => if Pte.leaf e then coolEntry at_ s else s
        | l + 1 => if Pte.leaf e then (if 2 ≤ l then s else coolEntry at_ s) else coolTable part l (Pte.frame e) s) s

/-- Tenants of a partition. -/
def tenantsOf (s : State) (part : Nat) : List Nat := (List.range (2 ^ ((s.part part).tent.extractLsb' 0 5).toNat)).filter fun a => (tenant? s part a).isSome

/-- Is every page of a block cold? -/
def blockCold (s : State) (part asid : Nat) (r : Range) (blk : Nat) : Bool :=
  (List.range (r.size / 4096)).all fun k =>
    match tenant? s part asid with
    | none => true
    | some t => match leafFrom s part (r.vbase + blk * r.size + 4096 * k) 4 (tRoot t) with
      | some (_, _, e) => (e &&& Pte.heatMask) == 0#64
      | none => true

/-- Pressure eviction of a tenant: every FILLED block of its ranges with EVICT whose pages are all cold. -/
def pressure (part asid : Nat) (s : State) : State :=
  (((s.part part).ranges.get asid []).filter (·.evict)).foldl (fun s r =>
    (List.range r.blocks).foldl (fun s b =>
      if blkState s part r b == some blkFilled && blockCold s part asid r b then (evictBlock part asid r b s).2 else s) s) s

/-- Is a docent sweep of a partition due? PERIOD is in milliseconds, at most 1000; 0 stops the docent (R363). -/
def docentDue (s : State) (part : Nat) : Bool :=
  let ms := ((s.part part).heat.extractLsb' 32 10).toNat
  decide (part < 16) && ms != 0 && decide ((s.part part).swept + min ms 1000 * 1000000 ≤ s.m.time)

/-- A docent sweep, when one is due. -/
def execDocentSweep (part : Nat) : State → Host.Outcome State Fault Refusal :=
  runE fun s =>
    let hc := (s.part part).heat
    if !docentDue s part then s
    else
      let s := s.updPart part fun p => { p with swept := s.m.time }
      let ts := tenantsOf s part
      let s := ts.foldl (fun s a => match tenant? s part a with
        | some t => coolTable part 4 (tRoot t) s
        | none => s) s
      if hc.getLsbD 1 then ts.foldl (fun s a => pressure part a s) s else s

/-- The walker raises the heat of the leaf that serves an access. -/
def execHeatRaise (part asid : Nat) (va : Dword) (rd wr : Bool) : State → Host.Outcome State Fault Refusal :=
  runE fun s =>
    if !(s.part part).heat.getLsbD 0 then s
    else match walk s part asid 0 va.toNat with
      | .ok t => raiseHeat rd wr t.at_ s
      | _ => s

end Sys2Proof.Machine
end

