-- ==== Sys2Proof/Machine/Queue.lean ====
section
/-! DEFINITION. Work queues (R274 to R277, R290, R291): descriptors, rings, doorbells, arbitration, the kinds of entry, completion
records, EMIT.q (R350), and the checks of a launch record that need the tenant (R285). -/

namespace Sys2Proof.Machine

/-! ## Descriptors and rings (R274, R290) -/

structure QDesc where
  base : Nat
  log : Nat
  en : Bool
  prod : Bool
  prio : Nat
  weight : Nat
  asid : Nat
  part : Nat
  /-- well formed -/
  wf : Bool
deriving DecidableEq, Repr

/-- A queue descriptor; one that is malformed behaves as EN = 0. -/
def QDesc.ofBytes (b : List Byte) : QDesc :=
  let fl := fld b 9 1
  let ok := fl / 4 == 0 && fld b 10 1 / 8 == 0 && fld b 14 1 / 16 == 0 && allZero (b.drop 15) && 4 ≤ fld b 8 1 && fld b 8 1 ≤ 16
    && fld b 11 1 != 0 && fld b 0 8 % 64 == 0
  ⟨fld b 0 8, fld b 8 1, ok && nbit fl 0, nbit fl 1, fld b 10 1 % 8, fld b 11 1, fld b 12 2, fld b 14 1 % 16, ok⟩

def queueDesc (s : State) (q : Nat) : QDesc := .ofBytes (s.bytes (s.m.qdt.toNat + 32 * q) 32)

/-- Entries of a ring. -/
def QDesc.size (d : QDesc) : Nat := 2 ^ d.log

/-- The dispatcher's agent for a queue. -/
def queueAgent (s : State) (d : QDesc) (q : Nat) : Agent := ⟨d.part, d.asid, privOf s d.part d.asid, 2 ^ 51 + q, none, none, none⟩

/-- HEAD, TAIL and STATE of a ring. -/
def ringHead (g : Agent) (d : QDesc) : AM (Nat × Nat × Nat) := do
  let b ← g.read d.base 16
  pure (fld b 0 4, fld b 4 4, fld b 8 1)

/-- Address of a ring entry. -/
def QDesc.at_ (d : QDesc) (i : Nat) : Nat := d.base + 64 + 64 * (i % d.size)

/-- Entries between HEAD and TAIL. -/
def ringCount (head tail : Nat) : Nat := (tail + 2 ^ 32 - head) % 2 ^ 32

/-- Run an engine's work; where it cannot be done, `bad` says what happens. -/
def runAM {α : Type} (x : AM α) (ok : α → State → State) (bad : State → State) (s : State) : State :=
  match x s with
  | .ok (a, s') => ok a s'
  | .error (.wait s') => s'
  | .error _ => bad s

/-- STATE and ERR of a ring. -/
def ringError (g : Agent) (d : QDesc) (err : Nat) (s : State) : State :=
  runAM (g.write (d.base + 8) [1#8, BitVec.ofNat 8 err]) (fun _ s => s) id s

/-! ## Doorbells (R276) -/

/-- A doorbell takes effect, unless an access of it has to wait: then it is not taken. One to a malformed descriptor, which names no
ring, or to a ring that cannot be accessed is dropped and counted (log 62). -/
def ringDoorbell (off : Nat) (bytes : List Byte) (s : State) : Bool × State :=
  let q := (off - 0x80_0000) / 8
  let d := queueDesc s q
  let g := queueAgent s d q
  let drop := (true, s.countMisc d.part)
  let run : AM Bool := do
    let (head, _, st) ← ringHead g d
    let v := leNat bytes
    if st != 0 then pure false
    else do
      if 2 ^ 32 ≤ v || d.size < ringCount head v then g.write (d.base + 8) [1#8, 1#8] else g.write (d.base + 4) (leBytes 4 v)
      pure true
  if off % 8 != 0 || bytes.length != 8 || 65536 ≤ q || !d.wf || d.prod then drop
  else match run s with
    | .ok (true, s') => (true, s')
    | .error (.wait s') => (false, s')
    | _ => drop

/-! ## Arbitration (R291) -/

/-- What a queue offers the arbiter. -/
inductive Offer where
  | none
  | entry (d : QDesc) (head : Nat) (bytes : List Byte)
  /-- the ring cannot be read -/
  | bad (d : QDesc)

def offerOf (s : State) (p q : Nat) : Offer :=
  let d := queueDesc s q
  if !d.en || d.part != p then .none
  else
    let g := queueAgent s d q
    let look : AM (Option (Nat × List Byte)) := do
      let (head, tail, st) ← ringHead g d
      if st != 0 || ringCount head tail == 0 then pure Option.none
      else
        let e ← g.read (d.at_ head) 64
        pure (some (head, e))
    match look s with
    | .ok (some (head, e), _) =>
      if nbit (fld e 2 1) 1 && s.entries.any fun x => x.queue == q then .none else .entry d head e
    | .ok (Option.none, _) => .none
    | .error (.wait _) => .none
    | .error _ => .bad d

/-- Is an entry well formed (R275)? -/
def entryOk (e : List Byte) : Bool :=
  let k := fld e 0 2
  k ≤ 3 && fld e 2 1 < 4 && fld e 3 1 == 0 && allZero (e.drop 32) && fld e 24 8 % 32 == 0 && (k < 2 || fld e 8 8 % 8 == 0)

/-- An entry starts: HEAD moves past it. -/
def startEntry (q : Nat) (d : QDesc) (head : Nat) (e : List Byte) (s : State) : State :=
  let g := queueAgent s d q
  let x : Entry := ⟨q, d.part, d.asid, head, fld e 0 2, nbit (fld e 2 1) 0, fld e 4 4, fld e 8 8, fld e 16 8, fld e 24 8, s.m.time,
    none, if entryOk e then none else some 2⟩
  runAM (g.write d.base (leBytes 4 (head + 1))) (fun _ s => { s with entries := s.entries ++ [x] }) (ringError g d 2) s

/-- Started, unfinished launches of a partition. -/
def openLaunches (s : State) (p : Nat) : Nat := (s.entries.filter fun e => e.part == p && e.kind == 1).length

/-- The arbiter of a partition starts one entry: the highest QPRIO, then in rotation the first queue with credit. -/
def arbitrate (p : Nat) (s : State) : State :=
  if !partRuns s p || 16 ≤ p || 256 ≤ openLaunches s p then s
  else
    let os := (List.range 65536).filterMap fun q => match offerOf s p q with
      | .none => none
      | o => some (q, o)
    match os.findSome? fun (q, o) => match o with | .bad d => some (q, d) | _ => none with
    | some (q, d) => ringError (queueAgent s d q) d 2 s
    | none =>
      let es := os.filterMap fun (q, o) => match o with | .entry d h e => some (q, d, h, e) | _ => none
      let top := (es.map fun (_, d, _, _) => d.prio).foldl max 0
      let es := es.filter fun (_, d, _, _) => d.prio == top
      let last := (s.part p).lastQ.get top 65535
      let rot := es.filter (fun (q, _, _, _) => last < q) ++ es.filter fun (q, _, _, _) => q ≤ last
      let credit := fun q => (s.part p).credits.get q 0
      let (s, pick) := match rot.find? fun (q, _, _, _) => 0 < credit q with
        | some x => (s, some x)
        | none =>
          if rot.isEmpty then (s, none)
          else
            let full := ((List.range 65536).filter fun q => let d := queueDesc s q; d.en && d.part == p && d.prio == top)
            (s.updPart p fun x =>
              { x with credits := full.foldl (fun m q => m.set q (queueDesc s q).weight 0) x.credits }, rot.head?)
      match pick with
      | none => s
      | some (q, d, h, e) =>
        startEntry q d h e (s.updPart p fun x =>
          { x with lastQ := x.lastQ.set top q 65535, credits := x.credits.set q (x.credits.get q 0 - 1) 0 })

def execQueueArbitration (part : Nat) : State → Host.Outcome State Fault Refusal := runE (arbitrate part)

/-! ## Entries -/

def entry? (s : State) (q idx kind : Nat) : Option Entry :=
  s.entries.find? fun e => e.queue == q && e.idx == idx && e.kind == kind && e.code.isNone && e.launch.isNone

def updEntry (e : Entry) (f : Entry → Entry) (s : State) : State :=
  { s with entries := s.entries.map fun x => if x.queue == e.queue && x.idx == e.idx then f x else x }

def entryAgent (s : State) (e : Entry) : Agent := ⟨e.part, e.asid, privOf s e.part e.asid, 2 ^ 51 + e.queue, none, none, none⟩

/-- The entry is done with a code. -/
def endEntry (e : Entry) (code : Nat) (s : State) : State := updEntry e (fun x => { x with code := some code }) s

def execNopEntry (q idx : Nat) : State → Host.Outcome State Fault Refusal :=
  runE fun s => match entry? s q idx 0 with
    | some e => endEntry e 0 s
    | none => s

/-- WAIT: a word that cannot be read makes the entry invalid. -/
def execWaitEntry (q idx : Nat) : State → Host.Outcome State Fault Refusal :=
  runE fun s => match entry? s q idx 2 with
    | some e => runAM ((entryAgent s e).num e.arg0 8) (fun v s => if e.arg1 ≤ v then endEntry e 0 s else s) (endEntry e 2) s
    | none => s

/-- SIGNAL: a word that cannot be written makes the entry invalid. -/
def execSignalEntry (q idx : Nat) : State → Host.Outcome State Fault Refusal :=
  runE fun s => match entry? s q idx 3 with
    | some e => runAM ((entryAgent s e).write e.arg0 (leBytes 8 e.arg1)) (fun _ s => endEntry e 0 s) (endEntry e 2) s
    | none => s

/-! ## LAUNCH entries (R285) -/

/-- Is an overlay registered, with ENTRY in a block? -/
def entryBlockOk (g : Agent) (pc : Pc) : AM Bool := do
  let d ← readDesc g pc.ovl
  match d with
  | none => pure false
  | some d =>
    if d.nblk ≤ pc.blk then pure false
    else
      let t ← g.num (d.image + 64 * pc.blk + 60) 4 
      pure (nbit t 19)

/-- Instruction-store granules of overlays, in the ordinary region and in that of the trap handlers; none when one is not
registered. -/
def ovNeed (g : Agent) : List Nat → AM (Option (Nat × Nat))
  | [] => pure (some (0, 0))
  | n :: l => do
    let d ← readDesc g n
    let r ← ovNeed g l
    match d, r with
    | some d, some (a, b) => pure (some (if d.traph then (a, b + granules d.nblk) else (a + granules d.nblk, b)))
    | _, _ => pure none

/-- Units of a launch that an empty core holds. -/
def unitsPerCore (r : LRec) : Nat :=
  let c := emptyHolds r.vregs / max 1 r.perUnit
  if r.spad == 0 then c else min c (spCap / r.spad)

/-- Core-bound units that must share a quad, and those that must share a die (R286). -/
def quadGroup (r : LRec) : Nat := match r.topOf 2 with | some n => max 1 (r.span r.coreLevel n) | none => 1
def dieGroup (r : LRec) : Nat := match r.topOf 3 with | some n => max 1 (r.span r.coreLevel n) | none => quadGroup r

/-- Groups that an empty quad holds, by its cores and its 64 tiles. -/
def groupsPerQuad (r : LRec) : Nat :=
  let grp := quadGroup r
  let tiles := grp * r.perUnit * r.owned.length + grp / max 1 (r.span r.coreLevel r.shareLevel) * r.shared.length
  ((List.range (4 * unitsPerCore r + 1)).filter fun n => n * grp ≤ 4 * unitsPerCore r && n * tiles ≤ 64).foldl max 0

/-- Quads of a partition on a die that is ready. -/
def quadsOn (s : State) (p die : Nat) : Nat := ((List.range 4).filter fun g => coreOf s p (1024 * die + 256 * g)).length * 64

/-- Groups of units that must share a die that the empty partition's quads on a die hold. -/
def dieHolds (s : State) (p : Nat) (r : LRec) (die : Nat) : Nat := quadsOn s p die * groupsPerQuad r * quadGroup r / dieGroup r

/-- Can the empty partition hold every unit of a persistent launch? -/
def persistFits (s : State) (p : Nat) (r : LRec) : Bool :=
  r.lcores == 0 || shareUnits s r ≤ ((List.range 4).map (dieHolds s p r)).foldl (· + ·) 0 * dieGroup r

/-- Read and check a launch record: none when it is invalid. -/
def checkLaunch (g : Agent) (addr : Nat) : AM (Option (LRec × Option Graph)) := do
  let s ← get
  if (tenant? s g.part g.asid).isNone || addr % 64 != 0 then pure none
  else
    let b ← g.read addr 256
    let r := LRec.ofBytes b
    if !recordOk addr b r || !persistFits s g.part r then pure none
    else
      let ok ← entryBlockOk g r.entry
      let need ← ovNeed g ((r.entry.ovl :: r.ovlreq.filter (· != 0)).eraseDups)
      let fits := match need with
        | some (a, b) => a ≤ min 184 (isQuota s g.part g.asid) && b ≤ 8
        | none => false
      if !ok || !fits then pure none
      else if r.graph == 0 then pure (some (r, none))
      else
        let gr ← readGraph g r.graph
        pure (gr.map fun x => (r, some x))

def execLaunchEntry (q idx : Nat) : State → Host.Outcome State Fault Refusal :=
  runE fun s => match entry? s q idx 1 with
    | none => s
    | some e => runAM (checkLaunch (entryAgent s e) e.arg0) (fun x s => match x with
        | none => endEntry e 2 s
        | some (r, gr) =>
          let (id, s) := s.fresh
          let d := firstDie s e.part
          let gr := if (moduleIx s r).isSome then gr else gr.map fun g => { g with recs := [] }
          let l : Launch := ⟨id, e.part, e.asid, q, idx, id, e.arg0, r, 0, 0, d, [], [], [], 0, shareUnits s r, 0, 0, false, false,
            false, none, 0, [], 0, gr, s.m.time, [], []⟩
          updEntry e (fun x => { x with launch := some id }) { s with launches := s.launches ++ [l] })
        (endEntry e 2) s

/-! ## Completion (R275, R277) -/

/-- Has every unit of a launch exited, and everything it began ended? -/
def launchDone (s : State) (l : Launch) : Bool :=
  let mine := fun (x : Option Nat) => x == some l.id
  (l.halted || l.total ≤ l.ended) && !(s.cohorts.any fun c => mine c.pl.launch) && !(s.saved.any fun x => x.launch == l.id)
    && !(s.passes.any fun p => mine p.launch) && !(s.jobs.any fun j => mine j.launch) && !(s.rays.any fun r => mine r.launch)
    && !(s.dlog.any fun d => mine d.launch) && !(s.held.any fun h => h.transit && h.launch == l.id)
    && !(s.copies.any fun c => match c.node with | some (k, _) => k == l.id | none => false)
    && (l.halted || match l.graph with | some g => g.recs.isEmpty && g.running == 0 | none => true)

/-- The 32 bytes of a completion record. -/
def cplRecord (e : Entry) (l : Option Launch) (code now : Nat) : List Byte :=
  let (faults, start, fl) := match l with
    | some l => (l.faults, l.firstStart.getD e.start, (if l.breach then 2 ^ 9 else 0) + (if l.tunl then 2 ^ 10 else 0))
    | none => (0, e.start, 0)
  leBytes 4 (code % 256 + 2 ^ 8 + fl) ++ leBytes 4 (min faults (2 ^ 32 - 1)) ++ leBytes 8 start ++ leBytes 8 now ++ leBytes 4 e.idx
    ++ leBytes 4 0

/-- Write a completion record where a pointer asks for one; one that cannot be written is lost. -/
def putCpl (g : Agent) (ptr : Nat) (b : List Byte) : AM Unit := fun s =>
  if ptr == 0 then .ok ((), s)
  else match g.write ptr b s with
    | .error (.wait s') => .error (.wait s')
    | .ok x => .ok x
    | .error _ => .ok ((), s)

/-- The entry leaves: its completion records, then its MSI-X message; a launch's held updates that no round closed go with it. -/
def finishEntry (e : Entry) (code : Nat) (s : State) : State :=
  let l := e.launch.bind s.launch?
  let b := cplRecord e l code s.m.time
  let g := entryAgent s e
  let write : AM Unit := do
    putCpl g e.cpl b
    match l with
    | some l => putCpl g l.rc.cpl b
    | none => pure ()
  runAM write (fun _ s =>
    let s := if e.irq then { s with outs := s.outs ++ [.msix e.vector] } else s
    let s := match e.launch with
      | some k => { s with launches := s.launches.filter (fun x => x.id != k), held := s.held.filter fun h => h.launch != k }
      | none => s
    { s with entries := s.entries.filter fun x => !(x.queue == e.queue && x.idx == e.idx) }) id s

/-- The completion of an entry that is done. -/
def execEntryCompletion (q idx : Nat) : State → Host.Outcome State Fault Refusal :=
  runE fun s => match s.entries.find? fun e => e.queue == q && e.idx == idx with
    | none => s
    | some e => match e.code with
      | some c => finishEntry e c s
      | none => match e.launch.bind s.launch? with
        | some l => if launchDone s l then finishEntry e l.code s else s
        | none => s

/-! ## EMIT.q (R350) -/

/-- The atomic step of EMIT.q. -/
def emitStep (g : Agent) (d : QDesc) (src : Nat) : AM Bool := do
  let (head, tail, st) ← ringHead g d
  if st != 0 || ringCount head tail == d.size then pure false
  else do
    let e ← g.read src 64
    g.write (d.at_ tail) e
    g.write (d.base + 4) (leBytes 4 (tail + 1))
    pure true

def execEmitQ (h : Hdr) (d a b : Opd) : State → Host.Outcome State Fault Refusal :=
  runI h { uni := true, srcs := [(a, 2), (b, 1)], dsts := [(d, 1)], lates := latesRel, opnd := 1 } false fun _ => do
    let s ← get
    let p := s.cur.pl
    let src := (src64 s none a).toNat
    let q := (src32 s none b).toNat
    let qd := queueDesc s q
    M.trapIf (s.cur.x.gen.isSome || decide (65536 ≤ q) || !qd.en || !qd.prod || qd.asid != p.asid || qd.part != p.part) { accessT 0 with opnd := 2 }
    M.trapIf (src % 64 != 0) { cause := Cause.alignment, addr := src }
    releaseM .sys
    let s ← get
    let ok ← agentM (emitStep (agentOf s.cur (p.id * 2 ^ 24 + 8)) qd src)
    emitR (dstP d none ok) 0 (some 0)

end Sys2Proof.Machine
end

