-- ==== Sys2Proof/Machine/Place.lean ====
section
/-! DEFINITION. Units on their way to cores (R282, R286, R293, R294): grants of the leader die, its election, placement, the start
time, and what the failure of a compute die costs. -/

namespace Sys2Proof.Machine

/-! ## Grants (R286, R293) -/

/-- Core-bound units of a dispatch unit. -/
def cusOf (r : LRec) (u : Nat) : List Nat := (List.range r.perDisp).map (u * r.perDisp + ·)

/-- Up to n unassigned dispatch units of this module from an index on, and the index after the last. -/
def nextUnits (ix modCount units : Nat) : Nat → Nat → Nat → List Nat × Nat
  | 0, u, _ => ([], u)
  | fuel + 1, u, n =>
    if n == 0 || units ≤ u then ([], u)
    else if u % modCount == ix then
      let (l, e) := nextUnits ix modCount units fuel (u + 1) (n - 1)
      (u :: l, e)
    else nextUnits ix modCount units fuel (u + 1) n

/-- The first index of this module's share that is not below u. -/
def alignShare (ix modCount u : Nat) : Nat := if u ≤ ix then ix else ix + ceilDiv (u - ix) modCount * modCount

/-- How many units the leader may still grant a die. A persistent launch gives a die no more than it can hold, since all of the launch has to
be resident at once (R294). -/
def grantRoom (s : State) (l : Launch) (die : Nat) : Nat :=
  if l.rc.lcores == 0 || l.rc.domain l.rc.dispLevel == 4 then 16
  else dieHolds s l.part l.rc die - (l.granted.filter fun e => e.2 == die).length

/-- The leader grants a die up to 16 indices; the mirror takes the counter first. -/
def grant (l : Launch) (die count : Nat) (s : State) : State :=
  match moduleIx s l.rc with
  | none => s
  | some ix =>
    let n := min (grantRoom s l die) (max 1 (min 16 count))
    let (us, e) := nextUnits ix l.rc.modCount l.rc.dispUnits (n * l.rc.modCount) (alignShare ix l.rc.modCount l.counter) n
    s.updLaunch l.id fun l =>
      { l with mirror := e, counter := e, granted := l.granted ++ us.map fun u => (u, die)
               waiting := l.waiting ++ us.flatMap fun u => (cusOf l.rc u).map fun c => (c, die) }

/-- A die asks for units. -/
def execUnitGrant (launch die count : Nat) : State → Host.Outcome State Fault Refusal :=
  runE fun s => match s.launch? launch with
    | none => s
    | some l => if l.halted || l.rc.graph != 0 || !dieOf s l.part die || !dieOf s l.part l.leader then s else grant l die count s

/-- The leader's die has failed: the lowest-numbered survivor leads, and its counter is the mirror's. -/
def execLeaderElection (launch : Nat) : State → Host.Outcome State Fault Refusal :=
  runE fun s => match s.launch? launch with
    | none => s
    | some l => if dieOf s l.part l.leader then s
        else s.updLaunch launch fun l => { l with leader := firstDie s l.part, counter := l.mirror }

/-! ## Placement (R294) -/

/-- May a unit granted to a die run on a core? A unit of the module domain may run on any die. -/
def dieFits (l : Launch) (die core : Nat) : Bool := l.rc.domain l.rc.dispLevel == 4 || die == core / 1024

/-- The launch's unit that is next in turn for a core. -/
def nextFor (l : Launch) (core : Nat) : Option Nat :=
  (l.waiting.filter fun e => dieFits l e.2 core).foldl (fun (b : Option Nat) e => match b with
    | some u => some (min u e.1)
    | none => some e.1) none

/-- May the launch have units placed now? -/
def startable (s : State) (l : Launch) : Bool :=
  !l.halted && !s.m.stopped && l.rc.start ≤ s.m.time && !s.saved.any fun x => x.launch == l.id

/-- Place units, each on the first of some cores that takes it. -/
def placeOn (l : Launch) (cores : List Nat) : List Nat → State → Option State
  | [], s => some s
  | u :: us, s =>
    match cores.findSome? fun c => placeUnit ((s.launch? l.id).getD l) u c s with
    | none => none
    | some s => placeOn l cores us s

/-- The cores of the partition that are of some quad, or of some die. -/
def quadCores (s : State) (p quad : Nat) : List Nat := ((List.range 4).map (4 * quad + ·)).filter (coreOf s p)
def dieQuads (s : State) (p die : Nat) : List Nat := ((List.range 256).map (256 * die + ·)).filter fun q => coreOf s p (4 * q)

/-- Place groups of units that share a quad, each group whole in the first quad that takes it. -/
def placeQuads (l : Launch) (quads : List Nat) : List (List Nat) → State → Option State
  | [], s => some s
  | g :: gs, s =>
    match quads.findSome? fun q => placeOn l (quadCores s l.part q) g s with
    | none => none
    | some s => placeQuads l quads gs s

/-- Place groups of units that share a die, each group whole on the first die that may and can take it. -/
def placeDies (l : Launch) : List (List (Nat × Nat)) → State → Option State
  | [], s => some s
  | g :: gs, s =>
    match (List.range 4).findSome? fun d =>
        if g.all fun e => dieFits l e.2 (1024 * d) then
          placeQuads l (dieQuads s l.part d) (groupsBy (l.rc.unitAt · ·) g) s
        else none with
    | none => none
    | some s => placeDies l gs s
where
  /-- The units of a die's group, quad group by quad group. -/
  groupsBy (at_ : Nat → Nat → Nat) (g : List (Nat × Nat)) : List (List Nat) :=
    let key := fun (u : Nat) => match l.rc.topOf 2 with | some n => at_ n u | none => u
    let us := g.map (·.1)
    (us.map key).eraseDups.map fun k => us.filter fun u => key u == k

/-- Place all units of a persistent launch at once. The groups are alike and the quads independent, so that a first fit finds a place whenever
there is one. -/
def placeAll (l : Launch) (s : State) : Option State :=
  let key := fun (u : Nat) => match l.rc.topOf 3 with
    | some n => l.rc.unitAt n u
    | none => match l.rc.topOf 2 with | some n => l.rc.unitAt n u | none => u
  let ws := (List.range l.rc.units).flatMap fun u => l.waiting.filter fun e => e.1 == u
  placeDies l ((ws.map fun e => key e.1).eraseDups.map fun k => ws.filter fun e => key e.1 == k) s

/-- A launch's next unit on a core; a persistent launch is placed as a whole. -/
def tryPlace (l : Launch) (unit core : Nat) (s : State) : Option State :=
  if l.rc.lcores == 0 then placeUnit l unit core s
  else if l.waiting.length == l.total then placeAll l s
  else none

/-- Does a launch come before another: higher PRIO, then the order of entry start? -/
def before (a b : Launch) : Bool := b.rc.prio < a.rc.prio || (a.rc.prio == b.rc.prio && a.order < b.order)

/-- Can a core take the next unit of a launch, or an invocation of its graph? -/
def canTake (s : State) (l : Launch) (core : Nat) : Bool :=
  match l.graph with
  | some g => match findSlot s.cohorts core l.rc.vregs with
    | some (slot, _) => (List.range g.nodes.length).any fun k => (launchInv l g k core slot s).isSome
    | none => false
  | none => startable s l && match nextFor l core with
    | some u => (tryPlace l u core s).isSome
    | none => false

/-- Does a launch that comes first have a unit that fits the core? -/
def outranked (s : State) (l : Launch) (core : Nat) : Bool :=
  s.launches.any fun x => x.part == l.part && x.id != l.id && before x l && canTake s x core

/-- The launch has waited from now on. -/
def waitsFrom (launch now : Nat) (s : State) : State := s.updLaunch launch fun l => { l with waitSince := now }

def execUnitPlacement (launch unit core : Nat) : State → Host.Outcome State Fault Refusal :=
  runE fun s => match s.launch? launch with
    | none => s
    | some l =>
      if startable s l && nextFor l core == some unit && !outranked s l core then
        match tryPlace l unit core s with
        | some s' => waitsFrom launch s.m.time s'
        | none => s
      else s

/-- A shader invocation of a work graph starts (R302, R303). -/
def execInvocationLaunch (launch node core slotIx : Nat) : State → Host.Outcome State Fault Refusal :=
  runE fun s =>
    match s.launch? launch with
    | none => s
    | some l => match l.graph with
      | none => s
      | some g =>
        if outranked s l core then s
        else match launchInv l g node core slotIx s with
          | some s' => waitsFrom launch s.m.time s'
          | none => s

/-- Device time reaches a launch's start time. -/
def execStartTimeReached (launch : Nat) : State → Host.Outcome State Fault Refusal :=
  runE fun s => match s.launch? launch with
    | none => s
    | some l => passNs (l.rc.start - s.m.time) s

/-! ## The failure of a compute die (R293) -/

/-- A cohort goes with everything that it began; nothing of it ends in the ordinary way. -/
def dropCohort (id : Nat) (s : State) : State :=
  let gone := ((s.copies.filter fun c => c.cohort == id).map (·.id)) ++ ((s.passes.filter fun p => p.cohort == id).map (·.id))
  let s := { s with
    copies := s.copies.filter fun c => c.cohort != id
    passes := s.passes.filter fun p => p.cohort != id
    sb := s.sb.filter fun b => !gone.contains b.owner
    rays := s.rays.filter fun r => r.cohort != some id
    dlog := s.dlog.filter fun d => d.cohort != id
    held := s.held.filter fun h => !(h.transit && h.cohort == id)
    parked := s.parked.filter fun q => Req.cohort? q.req != some id }
  let s := (asCohort id () (fun s => ((), leaveBar s)) s).2
  match s.cohort? id with
  | some c => freeCohort c s
  | none => s

/-- A job ends as one that failed; one whose record cannot be written now goes all the same. -/
def stopJob (j : Job) (s : State) : State :=
  let g := jobAgent s j
  let s := if j.build then buildStatus j g 4 (spoilOutput g j.id j.desc s) else endJob j g ⟨0, 0, 0⟩ 4 0 id s
  { s with jobs := s.jobs.filter fun x => x.id != j.id }

/-- The record of a lost unit. -/
def lostRec (l : Launch) (lin : Nat) : Rec := { plainRec 0x0033 0 0 0 with cohort := lin, queue := l.queue, launch := some l.id }

/-- The dispatch units of a launch that are lost with a die: those granted to it, or with a part on it, that have not completed (R293). -/
def lostUnits (s : State) (l : Launch) (die : Nat) : List Nat :=
  let here := (l.placed.filter fun e => e.2.1 / 1024 == die).map (·.1)
    ++ ((s.saved.filter fun x => x.launch == l.id && x.die == die).map (·.unit))
  let open_ := l.waiting.map (·.1) ++ l.placed.map (·.1) ++ ((s.saved.filter fun x => x.launch == l.id).map (·.unit))
  let disp := l.rc.unitAt l.rc.dispLevel
  let granted := (l.granted.filter fun e => e.2 == die && open_.any fun u => disp u == e.1).map (·.1)
  if l.graph.isSome then [] else (granted ++ here.map disp).eraseDups

/-- What a launch loses with a die: one record for each dispatch unit, CODE 1; what of it waits or is saved is not run any more and counts as
ended. -/
def loseDie (us : List Nat) (l : Launch) (s : State) : State :=
  let s := us.foldl (fun s u => (s.ring l.part (lostRec l (u * l.rc.span 0 l.rc.dispLevel))).2) s
  let lost := fun (cu : Nat) => us.contains (l.rc.unitAt l.rc.dispLevel cu)
  let off := (l.waiting.filter fun e => lost e.1).length + (s.saved.filter fun x => x.launch == l.id && lost x.unit).length
  if us.isEmpty then s
  else
    let s := { s with saved := s.saved.filter fun x => !(x.launch == l.id && lost x.unit) }
    s.updLaunch l.id fun l =>
      { l with waiting := l.waiting.filter (fun e => !lost e.1), ended := l.ended + off, code := if l.code == 0 then 1 else l.code }

/-- The saved invocations of a launch whose die it was go too. -/
def loseSaved (die : Nat) (s : State) : State :=
  (s.saved.filter fun x => x.die == die).foldl (fun s x => match s.launch? x.launch with
    | some l =>
      let s := { s with saved := s.saved.filter fun y => y.id != x.id }
      let s := (s.ring l.part (lostRec l x.unit)).2
      let s := x.cohorts.foldl (fun s c => match c.inv with | some i => closeInv false i l.id s | none => s) s
      s.updLaunch l.id fun l => { l with code := if l.code == 0 then 1 else l.code }
    | none => s) s

/-- The invocations of a launch on a die are lost in the same way. -/
def loseInvocations (die : Nat) (s : State) : State :=
  (s.cohorts.filter fun c => c.pl.core / 1024 == die && c.x.inv.isSome).foldl (fun s c =>
    match c.pl.launch.bind s.launch? with
    | some l => ((s.ring l.part (lostRec l c.pl.lin)).2).updLaunch l.id fun l => { l with code := if l.code == 0 then 1 else l.code }
    | none => s) s

/-- A compute die fails: its units are lost, its cohorts, passes and rays and what its cores held with them. -/
def failDie (die : Nat) (s : State) : State :=
  let ids := (s.cohorts.filter fun c => c.pl.core / 1024 == die).map (·.pl.id)
  let s := s.updM fun m =>
    { m with failedDies := if m.failedDies.contains die then m.failedDies else m.failedDies ++ [die]
             ready := m.ready &&& ~~~(BitVec.ofNat 64 (255 * 2 ^ (8 + 8 * die))) }
  let lost := s.launches.map fun l => (l, lostUnits s l die)
  let s := lost.foldl (fun s (l, u) => loseDie u l s) s
  let s := loseSaved die (loseInvocations die s)
  let s := ids.foldl (fun s id => dropCohort id s) s
  let s := (s.jobs.filter fun j => j.die == die).foldl (fun s j => stopJob j s) s
  { s with
    l1 := s.l1.filter fun x => x.core / 1024 != die
    tlb := s.tlb.filter fun t => t.core / 1024 != die
    slots := s.slots.filter fun o => o.core / 1024 != die
    passes := s.passes.filter fun p => p.quad / 256 != die
    rays := s.rays.filter fun r => r.quad / 256 != die
    dlog := s.dlog.filter fun d => d.core / 1024 != die }

def execDieFailure (die : Nat) : State → Host.Outcome State Fault Refusal := runE (failDie (die % 4))

end Sys2Proof.Machine
end

