-- ==== Sys2Proof/Machine/Prov.lean ====
section
/-! DEFINITION. The provenance record and PROVCHK (R404, R405), TIME (R406). -/

namespace Sys2Proof.Machine

/-! ## The present record (R404) -/

/-- The 1,024 bytes of a codebook slot as a launch reads it. -/
def bookBytes (s : State) (quad slot : Nat) (launch : Option Nat) : List Byte :=
  let b := s.books.get (bookKey quad slot) Codebook.zero
  (List.range 256).flatMap fun k =>
    leBytes 4 (if b.owner.isSome && b.owner == launch then (b.words.get k 0#32).toNat else 0)

/-- Launch-record bytes 128 to 255 with every NAME zeroed. -/
def levelBytes (raw : List Byte) : List Byte :=
  (List.range 8).flatMap fun n => (raw.drop (128 + 16 * n)).take 8 ++ List.replicate 8 0#8

/-- Free bytes of a field. -/
def freeField (pick off n : Nat) : List Byte := (List.range n).map fun k => Config.provByte pick (off + k)

/-- Bytes 64 to 91: what the launch gives; a cohort of no launch has fields whose content is not stated. -/
def provLaunch (s : State) (pick : Nat) : List Byte :=
  let books := leBytes 4 (crc32 ((List.range 4).flatMap fun k => bookBytes s (s.cur.pl.core / 4) k s.cur.pl.launch))
  let c := s.cur
  leBytes 1 (if c.pl.det then 1 else 0) ++ leBytes 3 0 ++ leBytes 4 c.pl.lkey.toNat
    ++ (match c.pl.launch.bind s.launch? with
      | some l => leBytes 4 (l.rc.lcores + 65536 * l.rc.wgroups) ++ leBytes 4 l.rc.ntiles
          ++ leBytes 4 (l.rc.modCount + 65536 * l.rc.nlev) ++ leBytes 4 (crc32 (levelBytes l.rc.raw))
      | none => freeField pick 72 16)
    ++ books

/-- CRC-32 of the image of the entry overlay, read from its descriptor's IMAGE; free where there is none. -/
def codeSig (g : Agent) (pick : Nat) : AM (List Byte) := do
  let s ← get
  let e := match s.cur.pl.launch.bind s.launch? with
    | some l => l.rc.entry
    | none => s.cur.pl.entry
  let d ← readDesc g e.ovl
  match d with
  | some d => do
    let bs ← g.read d.image (64 * d.nblk)
    pure (leBytes 4 (crc32 bs))
  | none => pure (freeField pick 92 4)

/-- The 256 bytes of the present record, given its declarations. -/
def provRecord (g : Agent) (pick : Nat) (decl : List Byte) : AM (List Byte) := do
  let code ← codeSig g pick
  let s ← get
  pure (leBytes 4 (1 + 256 * 65536) ++ leBytes 4 (0x9240 + Config.stepping.toNat * 65536) ++ leBytes 8 Config.fwver.toNat
    ++ leBytes 8 Config.ucver.toNat ++ leBytes 4 Config.trainsig.toNat ++ leBytes 4 0
    ++ leBytes 8 (s.m.clkplan % 65536 + 1500 * 2 ^ 16 + 100 * 2 ^ 32) ++ leBytes 4 s.m.marginPt ++ leBytes 20 0
    ++ provLaunch s pick ++ code ++ leBytes 8 s.m.rsvsurf.toNat ++ leBytes 8 0 ++ leBytes 80 0 ++ decl)

/-- First byte of each field, with its ID. -/
def provFields : List (Nat × Nat) :=
  [(0, 1), (4, 2), (8, 3), (16, 4), (24, 5), (28, 6), (32, 7), (40, 8), (44, 9), (64, 10), (65, 11), (68, 12), (72, 13),
   (76, 14), (80, 15), (84, 16), (88, 17), (92, 18), (96, 19), (104, 20), (112, 1)]
  ++ (List.range 8).map fun k => (192 + 8 * k, 32 + k)

/-- The field that holds a byte. -/
def provField (k : Nat) : Nat := ((provFields.filter fun e => e.1 ≤ k).getLast?.map (·.2)).getD 0

/-- What PROVCHK writes: the lowest ID whose bytes differ, and the first byte that differs. -/
def provCompare (present stored : List Byte) : Nat :=
  let diff := (List.range 256).filter fun k => nth present k 0#8 != nth stored k 0#8
  match diff with
  | [] => 0
  | k :: _ =>
    (if diff.any fun j => 112 ≤ j && j < 192 then 1 else provField k) + 65536 * k

/-- The record formed for an instruction: DECL from the address in B, or zero. -/
def formM (b : Opd) : M (Agent × List Byte) := do
  let s ← get
  let g := agentOf s.cur (s.cur.pl.id * 2 ^ 24 + 7)
  let pick ← M.run State.draw
  let decl ← if b.cls == .zr then pure (List.replicate 64 0#8) else M.opnd 2 (agentM (g.read (src64 s none b).toNat 64))
  let r ← agentM (provRecord g pick decl)
  pure (g, r)

/-- PROVCHK: its accesses follow the cohort's earlier ones, some of which it may name (R219). -/
def execProvchk (h : Hdr) (d a b : Opd) : State → Host.Outcome State Fault Refusal :=
  runI h { uni := true, srcs := [(a, 2), (b, 2)], dsts := [(d, 1)], opnd := 1 } false fun _ => do
    let s ← get
    let va := (src64 s none a).toNat
    M.trapIf (va % 64 != 0) { cause := Cause.alignment, addr := va }
    drainedM
    let (g, r) ← formM b
    let old ← agentM (g.read va 256)
    emitR (dst32 d none (BitVec.ofNat 32 (provCompare r old))) 0 (some 0)

def execProvchkStore (h : Hdr) (d a b : Opd) : State → Host.Outcome State Fault Refusal :=
  runI h { uni := true, srcs := [(a, 2), (b, 2)], dsts := [(d, 1)], opnd := 1 } false fun _ => do
    let s ← get
    let va := (src64 s none a).toNat
    M.trapIf (va % 64 != 0) { cause := Cause.alignment, addr := va }
    drainedM
    let (g, r) ← formM b
    agentM (g.write va r)
    emitR (dst32 d none 0#32) 0 (some 0)

/-! ## TIME (R406) -/

/-- An offset in ns as a signed saturating 32-bit word. -/
def satOffset (x : Int) : Word := BitVec.ofInt 32 (max (-(2 ^ 31 : Int)) (min (2 ^ 31 - 1 : Int) x))

def execTime (h : Hdr) (d : Opd) : State → Host.Outcome State Fault Refusal :=
  runI h { uni := true, dsts := [(d, 4)] } false fun _ => do
    let s ← get
    let st := (if s.m.locked then 1 else 0) + (if s.m.src1pps then 2 else 0) + (if s.m.ever then 4 else 0)
    emitR (dstN d none 4 (s.m.time % 2 ^ 64 + 2 ^ 64 * st + 2 ^ 96 * (satOffset s.m.offset).toNat)) 0 (some 4)

/-- Every quad's budget listed as it stands. -/
def listBudgets (s : State) : State := { s with budgets := (List.range 1024).map fun q => (q, s.budget q) }

/-- Device time is stepped: no microsecond passes, so every budget stays as it is. -/
def stepTime (x : Int) (s : State) : State := (listBudgets s).updM fun m => { m with time := wrapNat 64 (m.time + x) }

def execTimeStep (h : Hdr) (a : Opd) : State → Host.Outcome State Fault Refusal :=
  runI h { uni := true, srcs := [(a, 2)], priv := true, opnd := 1 } false fun _ => do
    let s ← get
    let x := (src64 s none a).toInt
    M.trapIf (s.m.ever && decide (x < 0)) (accessT 0)
    M.upd (stepTime x)

end Sys2Proof.Machine
end

