-- ==== Sys2Proof/Machine/Power.lean ====
section
/-! DEFINITION. The power governor, the thermal point (R20 to R22, R151), and the disciplining of device time (R281). -/

namespace Sys2Proof.Machine

/-- The governor's step of the clock, the lowest clock, the budget floor and the largest refill (R20, R151). -/
def clockStep : Nat := 100
def clockMin : Nat := 1500
def refillMin : Nat := 10240
def refillMax : Nat := 2097151

/-- PWRCTL with the clock in force, the lower of both points, and the gate. -/
def setClock (gate : Nat) (s : State) : State :=
  s.updM fun m =>
    { m with pwrctl := BitVec.ofNat 64 (gate % 16 * 2 ^ 28 + min m.gov m.therm % 4096 * 2 ^ 16 + (m.pwrctl.extractLsb' 0 12).toNat) }

def gateOf (s : State) : Nat := (s.m.pwrctl.extractLsb' 28 4).toNat

/-- Every quad's REFILL, one value for all (log 53); no balance exceeds twice it. -/
def setRefill (r : Nat) (s : State) : State :=
  { s with budgets := (List.range 1024).map fun q => (q, ⟨r, min (2 * r) (s.budget q).balance⟩) }

/-- Does every quad's refill stand at its floor? -/
def atFloor (s : State) : Bool := (List.range 1024).all fun q => (s.budget q).refill == refillMin

/-- One measurement of the governor: above the limit it sets the refill it chose, then lowers the clock, then gates issue; at or
below it releases in the reverse order. -/
def govern (watts refill : Nat) (s : State) : State :=
  let r := max refillMin (min refillMax refill)
  let g := gateOf s
  if (s.m.pwrctl.extractLsb' 0 12).toNat < watts then
    if !atFloor s then setRefill r s
    else if clockMin < s.m.gov then setClock g (s.updM fun m => { m with gov := max clockMin (m.gov - clockStep) })
    else setClock (min 15 (g + 1)) s
  else if 0 < g then setClock (g - 1) s
  else if s.m.gov < s.m.clkplan then setClock g (s.updM fun m => { m with gov := min m.clkplan (m.gov + clockStep) })
  else setRefill r s

def execPowerGovernorMeasure (watts refill : Nat) : State → Host.Outcome State Fault Refusal := runE (govern watts refill)

/-- What is reported: a thermal step, a change of the lock, of the margin point. -/
def repThermal : Nat := 1
def repLock : Nat := 2
def repMargin : Nat := 3
def repPath : Nat := 4
def report (n : Nat) (s : State) : State := { s with outs := s.outs ++ [.report n] }

/-- The hottest sensor reads a temperature: from 105 °C on the clock is lowered step by step until the sensor falls below 100 °C;
from then on it rises again, 100 MHz a reading, which is not reported (log 52). -/
def thermal (celsius : Nat) (s : State) : State :=
  let hot := 105 ≤ celsius || (s.m.hot && 100 ≤ celsius)
  let s := s.updM fun m => { m with hot := hot }
  if hot then
    if clockMin < s.m.therm then report repThermal (setClock (gateOf s) (s.updM fun m => { m with therm := max clockMin (m.therm - clockStep) }))
    else s
  else if celsius < 100 && s.m.therm < s.m.clkplan then
    setClock (gateOf s) (s.updM fun m => { m with therm := min m.clkplan (m.therm + clockStep) })
  else s

/-! ## Device time (R281) -/

/-- A new estimate of the offset: device time is locked within 40 ns, and unlocked above 200 ns; both changes are reported. -/
def discipline (pps : Bool) (x : Int) (s : State) : State :=
  let n := x.natAbs
  let lock := if n ≤ 40 then true else if 200 < n then false else s.m.locked
  let s := if lock != s.m.locked then report repLock s else s
  s.updM fun m => { m with offset := x, locked := lock, src1pps := pps, ever := m.ever || lock }

/-- A PTP message at a Zwiov port, with the offset that its exchange gives: the port takes its hardware timestamp. There are 18 ports, and
the domains are numbered 0 to 127. -/
def ptpMessage (p : PtpMsg) (s : State) : State :=
  if 18 ≤ p.port || 127 < p.domain then s
  else (discipline false p.offset s).updM fun m => { m with stamps := m.stamps.put p.port s.m.time }

def execPtpMessage (msg : PtpMsg) : State → Host.Outcome State Fault Refusal := runE (ptpMessage msg)
def execPpsPulse (offset : Int) : State → Host.Outcome State Fault Refusal := runE (discipline true offset)

end Sys2Proof.Machine
end

