-- ==== Sys2Proof/Machine/Check.lean ====
section
/-! DEFINITION. Machine checks (R401, R402), corrections (R403), containment and quiescing (R379, R411), the thermal and power
machine checks (R22, R24). -/

namespace Sys2Proof.Machine

/-! ## Rollback (R402) -/

/-- A saturating count in a 16-bit field of ERRCNT. -/
def countErr (part lo : Nat) (s : State) : State :=
  s.updPart part fun x =>
    { x with errCnt := if x.errCnt.extractLsb' lo 16 == 0xFFFF#16 then x.errCnt else x.errCnt + (1#64 <<< lo) }

/-- The issuing cohort goes back to the IDEM of its open region; registers and memory stay. -/
def rollTo (i : Idem) (s : State) : State :=
  let isB := match i.a with | some p => !(p.run && p.pc == i.pc) | none => true
  (leaveBar s).updCur fun c =>
    let c := c.drain
    { c with c := { c.c with
        a := i.a, b := i.b, dstop := i.dstop, stack := c.c.stack.drop (c.c.dstop - i.dstop), isB := isB, lastB := !isB
        replay := none, stackTrap := none, park := none, wait := none, susp := false, onFill := none, fillEnd := none, stage := .start
        ovFail := false
        idem := some { i with inputs := [], written := [], spoiled := false, rolls := i.rolls + 1, again := true } } }

/-- The report of a rollback. -/
def rollRec (s : State) (i : Idem) : Rec :=
  { mkRec s { cause := Cause.rollback, detail := i.rolls + 1 } 0#32 with pc := i.pc, cls := 3 }

/-- A cohort ends with a cause, its record naming a PC. -/
def endWith (cause detail : Nat) (pc : Option Pc) (s : State) : State :=
  let r := mkRec s { cause := cause, detail := detail } s.cur.smask
  takeRec { r with pc := pc.getD r.pc } s

/-- A machine check of the issuing cohort: rollback, or what R402 puts in its place. In handler mode it is a double trap. -/
def rollback (s : State) : State :=
  if s.cur.c.hm then endWith Cause.unrecoverable 0 none s
  else match s.cur.c.idem with
    | none => endWith Cause.unrecoverable 1 none s
    | some i =>
      if i.spoiled then endWith Cause.nonIdem 0 (some i.pc) s
      else if 3 ≤ i.rolls then endWith Cause.unrecoverable 3 none s
      else
        let p := s.cur.pl.part
        rollTo i (countErr p 16 (s.ring p (rollRec s i)).2)

/-- A corrupted register: rollback when the region wrote it before this read; else the cohort ends (R401). -/
def badReg (key : Nat) (s : State) : State :=
  match s.cur.c.idem with
  | some i =>
    if s.cur.c.hm then rollback s
    else if i.written.contains key && !i.inputs.contains key then rollback s else endWith Cause.unrecoverable 2 none s
  | none => endWith Cause.unrecoverable 1 none s

/-- Run a state function as a cohort that has not ended. -/
def asLive (id : Nat) (f : State → State) (s : State) : State :=
  match s.cohort? id with
  | some c => if c.c.ending.isSome then s else (asCohort id () (fun s => ((), f s)) s).2
  | none => s

/-! ## Quiescing (R411) -/

/-- The parked requests of a partition are refused, each with its record. -/
def refuseAll (part : Nat) (s : State) : State :=
  let qs := s.parked.filter fun q => q.part == part
  qs.foldl (fun s q => refuse q ((s.ring part (plainRec Cause.discarded 0 1 q.pa)).2))
    { s with parked := s.parked.filter fun q => q.part != part }

/-- Every started entry of the partition completes with CODE 1. -/
def failEntries (part : Nat) (s : State) : State :=
  let s := { s with
    entries := s.entries.map fun (e : Entry) => if e.part == part then { e with code := some 1 } else e
    launches := s.launches.map fun (l : Launch) => if l.part == part then { l with code := 1, halted := true } else l }
  (s.entries.filter fun (e : Entry) => e.part == part).foldl (fun s e => finishEntry e 1 s) s

/-- The five steps. The units that have stopped never run again: the partition's cohorts are taken away with them. -/
def quiesce (part : Nat) (s : State) : State :=
  let s := (s.passes.filter fun p => (match s.cohort? p.cohort with | some c => c.pl.part == part | none => false)
    || (match p.launch.bind s.launch? with | some l => l.part == part | none => false)).foldl (fun s p => retirePass p s) s
  let cs := s.copies.filter fun c => c.part == part
  let s := { s with
    copies := s.copies.filter fun c => c.part != part
    sb := s.sb.filter fun e => !cs.any fun c => c.id == e.owner
    rays := s.rays.filter fun r => r.part != part }
  let s := (s.jobs.filter fun j => j.part == part).foldl (fun s j => stopJob j s) s
  let s := refuseAll part s
  let s := failEntries part s
  let s := ((s.cohorts.filter fun c => c.pl.part == part).map (·.pl.id)).foldl (fun s id => dropCohort id s) s
  let s := { s with saved := s.saved.filter fun x => match s.launch? x.launch with | some l => l.part != part | none => false }
  let s := (s.ring part (plainRec Cause.containment 0 2 0)).2
  State.updPart { s with outs := s.outs ++ [.msix 0] } part fun x => { x with cfg := x.cfg ||| 2#64 }

def execPartitionQuiesce (part : Nat) : State → Host.Outcome State Fault Refusal := runE (quiesce (part % 16))

/-- Partitions that are enabled. -/
def enabledParts (s : State) : List Nat := (List.range 16).filter fun p => (s.part p).cfg.getLsbD 0

/-- A module condition: its record in every enabled partition, the module quiesced, no issue any more. -/
def stopModule (cause : Nat) (s : State) : State :=
  let s := (enabledParts s).foldl (fun s p => quiesce p (s.ring p (plainRec cause 0 2 0)).2) s
  s.updM fun m => { m with stopped := true }

/-- The compute dies lose power and with it what they held (R22). -/
def dropDies (s : State) : State :=
  { s.updM fun m => { m with ready := m.ready &&& ~~~(bitsOf 63 63 ||| bitsOf 39 8) } with
    l1 := [], tlb := [], tgen := [], slots := [], sb := [], dlog := [], tiles := [], books := [], passes := [], budgets := [], rays := [],
    jobs := [], harts := [], fills := [], resv := [], halo := [], haloPl := [], rsvPoison := [], spPoison := [] }

/-- A reading of the hottest sensor: at 115 °C the module stops (R22). -/
def execThermalStep (celsius : Nat) : State → Host.Outcome State Fault Refusal :=
  runE fun s => if 115 ≤ celsius then dropDies (stopModule Cause.thermal s) else thermal celsius s

def execThermalMachineCheck : State → Host.Outcome State Fault Refusal := runE fun s => dropDies (stopModule Cause.thermal s)
def execPowerMachineCheck : State → Host.Outcome State Fault Refusal := runE (stopModule Cause.power)

/-! ## Uncorrectable errors (R401) -/

/-- The cohort of a core that consumes: the issuing one when it runs there. -/
def consumer (s : State) (core : Nat) : Option Nat := (s.cohorts.find? fun c => c.pl.core == core && c.c.ending.isNone).map (·.pl.id)

/-- Flip a bit of a byte of an instruction store's block: what the block holds is corrupt (R42). -/
def spoilBlock (core slot byte : Nat) (s : State) : State :=
  { s with slots := s.slots.map fun o =>
      if o.core == core && o.ix == slot then
        { o with blocks := o.blocks.modify (byte / 64) fun b => b ^^^ (1#512 <<< (8 * (byte % 64))) }
      else o }

/-- A job whose evaluation meets a hart fault. -/
def hartCheck (n : Nat) (s : State) : State :=
  match s.rays.find? fun r => r.id == n with
  | some r => rayFault r Cause.traversal 1 0 { s with rays := s.rays.filter fun x => x.id != n }
  | none => match s.jobs.find? fun j => j.id == n && !j.build with
    | some j => endJob j (jobAgent s j) ⟨0, 0, 0⟩ 1 0 id s
    | none => s

def uncorrectable (e : ErrSite) (s : State) : State :=
  match e with
  | .pipeline c => asLive c rollback s
  | .l1Clean core line =>
    let s := match s.l1? core line with
      | some x => if x.dirty == 0#64 then s.delL1 core line else s
      | none => s
    match consumer s core with
    | some c => asLive c rollback s
    | none => s
  | .register c cls ix => asLive c (badReg ((match cls with | 0 => 0 | 1 => 256 | 2 => 384 | _ => 392) + ix)) s
  | .l1Dirty core line =>
    -- the L1 holds no virtual address that the record of a class 2 could name (log 67)
    match s.l1? core line with
    | none => s
    | some x =>
      let s := s.delL1 core line
      let s := { s with poison := if s.poison.contains (64 * line) then s.poison else s.poison ++ [64 * line] }
      (s.ring x.part (plainRec Cause.l1Loss 0 2 0)).2
  | .scratch pa =>
    let w := pa / 4 * 4
    { s with spPoison := if s.spPoison.contains w then s.spPoison else s.spPoison ++ [w] }
  | .home pa =>
    let w := pa / 64 * 64
    parkReq s.cur.pl.part w (dieHome w 0) w 0#32 Cause.parkedUnc .other
      { s with poison := if s.poison.contains w then s.poison else s.poison ++ [w] }
  | .istore core slot byte => spoilBlock core slot byte s
  | .accum q t m =>
    let x := s.tile q t
    s.setTile q t { x with rows := x.rows.set m { x.row m with check := (x.row m).check + 1#64 } TRow.zero }
  | .passData q =>
    match (s.passes.filter fun p => p.quad == q).find? fun p => p.granted with
    | some p => retirePass.failPass p 0x21 (sbDrop p.id { s with passes := s.passes.filter fun x => x.id != p.id })
    | none => match s.passes.find? fun p => p.quad == q with
      | some p => retirePass.failPass p 0x21 (sbDrop p.id { s with passes := s.passes.filter fun x => x.id != p.id })
      | none => s
  | .reservoir plane x y =>
    let k := rsvKey plane x y
    { s with rsvPoison := if s.rsvPoison.contains k then s.rsvPoison else s.rsvPoison ++ [k] }
  | .hart n => hartCheck n s
  | .shared ps => (ps.filter (· < 16)).foldl (fun s p => quiesce p s) s

def execUncorrectableError (site : ErrSite) : State → Host.Outcome State Fault Refusal := runE (uncorrectable site)

/-! ## Corrections (R403) -/

/-- Does the partition ask for a record of each correction? -/
def recordsAll (s : State) (part : Nat) : Bool := (s.part part).fltCtl.getLsbD 0

def correction (part lo cause detail pa : Nat) (s : State) : State :=
  let s := countErr part lo s
  if recordsAll s part then (s.ring part (plainRec cause detail 3 pa)).2 else s

/-- A SECDED correction: the word is as it was. -/
def execEccCorrection (part structCode pa : Nat) : State → Host.Outcome State Fault Refusal :=
  runE (correction (part % 16) 48 Cause.ecc structCode pa)

/-- A replayed pipeline stage gives the result of an error-free execution. -/
def execTimingReplay (part : Nat) : State → Host.Outcome State Fault Refusal := runE (correction (part % 16) 32 Cause.replay 0 0)

end Sys2Proof.Machine
end

