-- ==== Sys2Proof/Machine/Ztile.lean ====
section
/-! DEFINITION. Read-out and writing of accumulator tiles (R148, R163 to R167) and register tiles: TCVT, TLD, TST (R171 to
R173). -/

namespace Sys2Proof.Machine

/-! ## Read-out (R148) -/

/-- A cell of a row in a target format. -/
def cellCode (p : Plac) (sat : Bool) (r : TRow) (c : Int) : Nat × Flags :=
  let v := if r.nan || (r.pinf && r.ninf) || r.ovf then Val.qnan
    else if r.pinf then .inf false
    else if r.ninf then .inf true
    else .fin (decide (c < 0)) c.natAbs (r.anchor.toInt - 43)
  p.code .rne sat false v

/-- Formats that ZREAD and ZWRITE accept (R163). -/
def zFormats : List Nat := [2, 3, 4, 5, 6, 7, 8, 9, 10, 11, 12]

/-- The limits of R163 on a register-tile placard, and of its window. -/
def zWindow (p : Plac) (opnd : Nat) (c0 : Nat) : M Unit := do
  M.trapIf (!zFormats.contains p.efmt || p.slay != 0 || p.spar != 0) (placT 8 opnd)
  M.trapIf (decide (64 < c0 + p.cols)) (placT 9 opnd)

/-- Active rows of a tile. -/
def actRows (p : Plac) (act : Mask) : List Nat := (List.range p.rows).filter act.has

/-- Row string of codes (R61). -/
def packCodes (p : Plac) (l : List (Nat × Flags)) : Nat := packBits p.bits (l.map Prod.fst)

def execZread (h : Hdr) (sat : Bool) (d a b c : Opd) : State → Host.Outcome State Fault Refusal :=
  runI h { srcs := [(a, 1), (b, 1)], dsts := [(d, 16)] } false fun act =>
    if act == 0#32 then pure () else do
      zOrder a
      let s ← get
      M.trapIf (getTile s a).poison (placT 3 1)
      let p ← checkedPl (srcPL s c) false true (some (Opd.ix d)) 4
      let c0 := (src32 s none b).toNat
      zWindow p 4 c0
      let rows := actRows p act
      verifyRows a rows 1
      let s ← get
      let t := getTile s a
      let rs := rows.map fun m =>
        (m, (((t.cellsOf m).drop c0).take p.cols).map (cellCode p sat (t.row m)))
      emitR (rs.flatMap fun (m, l) => rowWrites (Opd.ix d) m p.rowBytes (packCodes p l))
        (joinFlags (rs.flatMap fun (_, l) => l.map Prod.snd)) none

/-! ## ZWRITE (R164) -/

/-- A window of a row replaced by values. -/
def writeWindow (t : Tile) (m c0 : Nat) (vs : List Val) : Tile :=
  let r0 := t.row m
  let t := if r0.pinned then t
    else match boundOf (1, 0) (vs.map Val.abs) with
      | some b => if r0.anchor.toInt < b then t.reanchor m (min b 255) else t
      | none => t
  let r := t.row m
  let xs := vs.map fun v => match v with
    | .fin n k e => alignTrunc n k e (r.anchor.toInt - 43)
    | _ => 0
  let old := t.cellsOf m
  t.setRow m (old.take c0 ++ xs ++ old.drop (c0 + xs.length))
    { r with nan := r.nan || vs.any Val.isNan, pinf := r.pinf || vs.contains (.inf false)
             ninf := r.ninf || vs.contains (.inf true), ovf := r.ovf || xs.any out64 }

def execZwrite (h : Hdr) (d a b c : Opd) : State → Host.Outcome State Fault Refusal :=
  runI h { srcs := [(a, 16), (b, 1)], dsts := [(d, 1)] } false fun act =>
    if act == 0#32 then pure () else do
      zOrder d
      let s ← get
      let p ← checkedPl (srcPL s c) true true (some (Opd.ix a)) 1
      let c0 := (src32 s none b).toNat
      zWindow p 1 c0
      let rows := actRows p act
      verifyUnlessPoison d rows 4
      M.upd fun s =>
        let t := rows.foldl (fun t m =>
          match regRowCells p (ownRegs s) (fun _ => 0#32) (Opd.ix a) m with
          | .ok l => writeWindow t m c0 (l.map fun x => (x.map Prod.fst).getD (.fin false 0 0))
          | .error _ => t) (getTile s d)
        (putTile d t s).updCur Cohort.closeIdem

/-! ## Memory tiles of a Z instruction -/

/-- The base of a memory tile (R77). -/
def tileBase (opnd : Nat) (s : State) (o : Opd) : M Nat := do
  let a := (src64 s none o).toNat
  M.trapIf (a % 16 != 0) { cause := Cause.alignment, opnd := opnd, addr := a }
  pure a

/-- The writes that put a row string into a stored row (R77): offset and bytes. -/
def rowOut (p : Plac) (m x : Nat) : List (Nat × List Byte) :=
  (List.range (ceilDiv p.rowBytes 16)).map fun c =>
    (p.chunkOff m c, leBytes (min 16 (p.rowBytes - 16 * c)) (x / 2 ^ (128 * c)))

/-- Perform writes at offsets from a base: every byte is checked and no sector holds a store up before any is written, the
placard is written last. -/
def writeTile (spad : Bool) (sc : Scope) (ca : Cache) (opnd a : Nat) (ws : List (Nat × List Byte)) (pl : Qword) : M Unit := do
  let ps := ((a, 16) :: ws.map fun (o, b) => ((a + o) % 2 ^ 64, b.length))
  let ls ← checkPieces spad .store opnd ps
  checkLive ls
  M.each ls fun (l, _) => openSector sc ca l
  M.each ws fun (o, b) => writePiece spad sc ca ((a + o) % 2 ^ 64) b
  writePiece spad sc ca a (plBytes pl)

/-- A row record (R63). -/
def rowRecord (r : TRow) (chk : Dword) : List Byte :=
  let b := fun (x : Bool) (k : Nat) => if x then 2 ^ k else 0
  leBytes 8 (wrapNat 16 r.anchor.toInt + b r.nan 16 + b r.pinf 17 + b r.ninf 18 + b r.ovf 19 + b r.pinned 20) ++ leBytes 8 chk.toNat

/-- ZST (R165). Its memory traffic has no SCOPE; it performs at the home (log 41). -/
def execZst (h : Hdr) (spad sat : Bool) (a b c : Opd) : State → Host.Outcome State Fault Refusal :=
  runI h { uni := true, srcs := [(a, 1), (b, 2)] } false fun _ => do
    zOrder a
    let s ← get
    let base ← tileBase 2 s b
    if spad then do let _ ← spSpan 2 base 16 else pure ()
    let p ← checkedPl (srcPL s c) false false none 4
    M.trapIf (!(1 :: 14 :: zFormats).contains p.efmt || (!p.isFX && p.slay != 0) || p.spar != 0) (placT 8 4)
    M.trapIf (decide (32 < p.rows) || decide (64 < p.cols)) (placT 9 4)
    if spad then do let _ ← spSpan 2 base p.endOff else pure ()
    let t := getTile s a
    let rows := List.range p.rows
    let conv := rows.map fun m => (m, ((t.cellsOf m).take p.cols).map fun x =>
      if p.isFX then (wrapNat 64 x, (0 : Flags)) else cellCode p sat (t.row m) x)
    let recs := if p.isFX then rows.map fun m =>
        (p.scaleOff + 16 * m, rowRecord (t.row m) (checkOf ((t.cellsOf m).take p.cols))) else []
    let ws := (conv.flatMap fun (m, l) => rowOut p m (packCodes p l)) ++ recs
    let _ ← checkPieces spad .store 2 ((base, 16) :: ws.map fun (o, x) => ((base + o) % 2 ^ 64, x.length))
    verifyUnlessPoison a rows 1
    writeTile spad .quad .dflt 2 base ws ({ p with poisoned := t.poison }).toQ
    emitR [] (joinFlags (conv.flatMap fun (_, l) => l.map Prod.snd)) (some 0)

/-- A row record read back, or none when it is invalid (R63). -/
def readRecord (bs : List Byte) : Option TRow :=
  let x := fld bs 0 8
  let a := sextInt 16 (x % 2 ^ 16)
  if x / 2 ^ 21 != 0 || decide (a < -256) || decide (255 < a) then none
  else some ⟨BitVec.ofInt 9 a, nbit x 20, nbit x 16, nbit x 17, nbit x 18, nbit x 19, BitVec.ofNat 64 (fld bs 8 8)⟩

/-- Stored rows of an FX64 tile: cells and records (R63). -/
def fxRow (p : Plac) (rd : TileRd) (m : Nat) : List Int × Option TRow :=
  let x := memRow p rd m
  ((List.range p.cols).map fun n => sextInt 64 (x / 2 ^ (64 * n)), readRecord (rd (p.scaleOff + 16 * m) 16))

/-- A tile's bytes as a reader, from the units that have been read. -/
def rdOf (bs : List Byte) : TileRd := fun o n => (bs.drop o).take n

/-- The FX64 memory tile that ZLD and ZADD read (R166): its placard, its rows with 64 cells. -/
def fxSource (spad : Bool) (o : Opd) : M (Plac × List (List Int × TRow)) := do
  let s ← get
  let base ← tileBase 1 s o
  if spad then do let _ ← spSpan 1 base 16 else pure ()
  let pb ← readSpan spad .quad .dflt 1 base 16
  let p ← checkedPl (BitVec.ofNat 128 (leNat pb)) true false none 1
  M.trapIf (!p.isFX) (placT 8 1)
  M.trapIf (decide (32 < p.rows) || decide (64 < p.cols)) (placT 9 1)
  if spad then do let _ ← spSpan 1 base p.endOff else pure ()
  let es ← readSpan spad .quad .dflt 1 base p.elemEnd
  let rs ← readSpan spad .quad .dflt 1 ((base + p.scaleOff) % 2 ^ 64) p.scaleLen
  let rd : TileRd := fun o n => if p.elemEnd ≤ o then rdOf rs (o - p.scaleOff) n else rdOf es o n
  let rows ← M.mapL (List.range p.rows) fun m => do
    match fxRow p rd m with
    | (_, none) => M.trap (placT 11 1)
    | (l, some r) =>
      M.trapIf (r.check != checkOf l) (checksumT 1)
      pure (l ++ List.replicate (64 - l.length) 0, r)
  pure (p, rows)

/-- ZLD (R166). -/
def execZld (h : Hdr) (spad : Bool) (d a : Opd) : State → Host.Outcome State Fault Refusal :=
  runI h { uni := true, srcs := [(a, 2)], dsts := [(d, 1)] } false fun _ => do
    zOrder d
    let (_, rows) ← fxSource spad a
    M.upd fun s =>
      let t := ((List.range rows.length).zip rows).foldl (fun t (m, l, r) => t.setRow m l r)
        { Tile.zero with faults := (getTile s d).faults }
      (putTile d t s).updCur Cohort.closeIdem

/-- Anchor and PINNED of a row of a sum, or detail 10 (R167). -/
def sumAnchor (x y : TRow) : Except Nat (Int × Bool) :=
  if x.pinned && y.pinned then if x.anchor == y.anchor then .ok (x.anchor.toInt, true) else .error 10
  else if x.pinned then .ok (x.anchor.toInt, true)
  else if y.pinned then .ok (y.anchor.toInt, true)
  else .ok (max x.anchor.toInt y.anchor.toInt, false)

/-- A row with a source row added (R167). -/
def addRow (t : Tile) (m : Nat) (a : Int × Bool) (l : List Int) (r : TRow) : Tile :=
  let r0 := t.row m
  let (x, o1) := bring (t.cellsOf m) r0.anchor.toInt a.1
  let (y, o2) := bring l r.anchor.toInt a.1
  let z := (x.zip y).map fun (u, v) => u + v
  t.setRow m z { anchor := BitVec.ofInt 9 a.1, pinned := a.2, nan := r0.nan || r.nan, pinf := r0.pinf || r.pinf
                 ninf := r0.ninf || r.ninf, ovf := r0.ovf || r.ovf || o1 || o2 || z.any out64, check := 0 }

/-- ZADD (R167); only rows in the source's extent are concerned (R145). -/
def execZadd (h : Hdr) (spad : Bool) (d a : Opd) : State → Host.Outcome State Fault Refusal :=
  let isZ := a.cls == .z
  runI h { uni := true, srcs := [(a, if isZ then 1 else 2)], dsts := [(d, 1)] } false fun _ => do
    zOrder d
    let src ← if isZ then do
        zOrder a
        let s ← get
        M.trapIf (getTile s a).poison (placT 3 1)
        verifyRows a allRows 1
        let t := getTile s a
        pure (allRows.map fun m => (t.cellsOf m, t.row m))
      else do
        let (_, rows) ← fxSource spad a
        pure rows
    verifyUnlessPoison d (List.range src.length) 4
    let s ← get
    let t := getTile s d
    let plan := (List.range src.length).zip src
    match exceptAll (plan.map fun (m, _, r) => sumAnchor (t.row m) r) with
    | .error e => M.trap (placT e 0)
    | .ok as => M.upd fun s =>
      (putTile d ((plan.zip as).foldl (fun t ((m, l, r), an) => addRow t m an l r) t) s).updCur Cohort.closeIdem

/-! ## TCVT (R171) -/

/-- Is the placard one that TCVT takes? -/
def tcvtOk (p : Plac) (target : Bool) : Bool :=
  p.spar == 0 && !p.isVQ && !p.isFX && !p.isCBT
    && (!target || p.slay == 0 || ((p.slay == 1 || p.slay == 2) && p.sfmt == 1))

/-- A list cut into blocks of n. -/
def blocksOf {α : Type} (n : Nat) (l : List α) : List (List α) :=
  (List.range (ceilDiv l.length n)).map fun k => (l.drop (n * k)).take n

/-- A line of values along K in a target format, none where absent: scale bytes, codes and flags. -/
def encodeRow (p : Plac) (rm : Rnd) (sat ftz : Bool) (vs : List (Option Val)) : List Byte × List Nat × Flags :=
  match p.blk, p.fmt? with
  | 0, _ =>
    let r := vs.map fun v => match v with
      | some v => p.code rm sat ftz v
      | none => (0, 0)
    ([], r.map Prod.fst, joinFlags (r.map Prod.snd))
  | n, some f =>
    let bs := (blocksOf n vs).map fun l => packBlock f rm l
    (bs.map fun b => BitVec.ofNat 8 b.1, bs.flatMap (·.2.1), joinFlags (bs.map (·.2.2)))
  | _, none => ([], [], 0)

def execTcvt (h : Hdr) (m : AMod) (d a b c : Opd) : State → Host.Outcome State Fault Refusal :=
  runI h { srcs := [(a, 16)], dsts := [(d, 16)] } false fun act =>
    if act == 0#32 then pure () else do
      let s ← get
      let ps ← checkedPl (srcPL s c) true true (some (Opd.ix a)) 1
      let pt ← checkedPl (srcPL s b) false true (some (Opd.ix d)) 4
      M.trapIf (!tcvtOk ps false) (placT 8 1)
      M.trapIf (!tcvtOk pt true) (placT 8 4)
      M.trapIf (ps.rows != pt.rows || ps.cols != pt.cols) (placT 9 0)
      M.trapIf (spansBad s ps) { accessT 0 with opnd := 1 }
      M.trapIf (spansBad s pt) { accessT 0 with opnd := 4 }
      let rs := (actRows ps act).map fun ln =>
        match regRowCells ps (ownRegs s) (fun _ => 0#32) (Opd.ix a) ln m.ftz with
        | .error _ => ([], 0)
        | .ok l =>
          let (sc, codes, fl) := encodeRow pt m.rnd m.sat m.ftz (l.map fun x => x.map Prod.fst)
          (rowWrites (Opd.ix d) ln pt.rowBytes (packBits pt.bits codes)
            ++ rowWrites (pt.soff % 256) ln sc.length (leNat sc), fl)
      emitR (rs.flatMap Prod.fst) (joinFlags (rs.map Prod.snd)) (some 8)

/-! ## TLD and TST (R172, R173) -/

/-- Detail 6 of TLD: R79 apart from PITCH and BROT. -/
def tldOk (p : Plac) : Bool := p.rows ≤ 32 && p.rowBytes ≤ 64 && !p.transposed && p.spar ≤ 1

/-- The checks of TLD's source, detail 6 before 7. -/
def tldCheck (q : Qword) : Nat :=
  let c := plCheck q true false
  if (c == 0 || c == 7) && !tldOk (Plac.ofQ q) then 6 else c

/-- Pieces of a row, of its scales and of its metadata. -/
def rowPieces (p : Plac) (m : Nat) : List (Nat × Nat) :=
  ((List.range (ceilDiv p.rowBytes 16)).map fun c => (p.chunkOff m c, min 16 (p.rowBytes - 16 * c)))
    ++ (pieces (p.scaleOff + (p.linePos m).1) (if p.isFX then 0 else (p.linePos m).2))
    ++ (pieces (p.metaOff + m * p.metaStride) (if p.spar == 0 then 0 else p.metaStride))

/-- Bytes of pieces as a reader. -/
def rdPieces (ps : List ((Nat × Nat) × List Byte)) : TileRd := fun o n =>
  (List.range n).map fun k =>
    match ps.find? fun e => e.1.1 ≤ o + k && o + k < e.1.1 + e.2.length with
    | some e => nth e.2 (o + k - e.1.1) 0#8
    | none => 0#8

def execTld (h : Hdr) (m : MMod) (d a b c : Opd) : State → Host.Outcome State Fault Refusal :=
  runI h { srcs := [(a, 2)], dsts := [(d, 16)] } false fun act => do
    let s ← get
    let base ← tileBase 1 s a
    if m.x then do let _ ← spSpan 1 base 16 else pure ()
    let pb ← readSpan m.x m.scope m.cache 1 base 16
    let q : Qword := BitVec.ofNat 128 (leNat pb)
    let e := tldCheck q
    M.trapIf (e != 0) (placT e 1)
    let p := Plac.ofQ q
    let extra := p.scRegs != 0 || p.metaRegs != 0
    M.trapIf (extra == (b.cls == .zr)) (placT 6 2)
    let r := Opd.ix b
    M.trapIf (extra && overlaps (Opd.ix d, 16) (r, p.scRegs + p.metaRegs)) (placT 6 2)
    M.trapIf (extra && decide (s.cur.r.vregs < r + p.scRegs + p.metaRegs)) { accessT 0 with opnd := 2 }
    if m.x then do let _ ← spSpan 1 base p.endOff else pure ()
    let rows := actRows p act
    let two := if p.slay == 5 && !rows.isEmpty then [(p.scaleOff, 4)] else []
    let ps := rows.flatMap (rowPieces p) ++ two
    let ls ← checkPieces m.x .load 1 (ps.map fun (o, n) => ((base + o) % 2 ^ 64, n))
    let bs ← M.mapL ls fun (l, n) => readPiece m.scope m.cache l n
    let rd := rdPieces (ps.zip bs)
    M.trapIf (rows.any fun i => match p.present (memMeta p rd i) with | .error _ => true | .ok _ => false) (placT 11 1)
    let nsc := p.scRegs
    let scr := if p.slay == 5 then r + 1 else r
    let ws := rows.flatMap fun i =>
      let (o, n) := p.linePos i
      rowWrites (Opd.ix d) i p.rowBytes (memRow p rd i)
        ++ (if p.slay == 4 then [] else rowWrites scr i n (leNat (rd (p.scaleOff + o) n)))
        ++ rowWrites (r + nsc) i (4 * p.metaRegs) (memMeta p rd i)
    let ts := if (p.slay == 4 || p.slay == 5) && !rows.isEmpty then rowWrites r 0 4 (leNat (rd p.scaleOff 4)) else []
    let pl : Plac := { p with pitch := 4, brot := 0, soff := if nsc == 0 then 0 else r
                              moff := if p.metaRegs == 0 then 0 else r + nsc }
    emitR (ws ++ ts ++ dstPL c pl.toQ) 0 none
    if Order.isAcq m.order then M.upd (acquire m.scope) else pure ()

/-- The scale bytes of lane m as a line of the scale area holds them. -/
def laneScaleBytes (p : Plac) (rg : RegRd) (m : Nat) : List Byte :=
  let r := p.soff % 256
  if p.blk != 0 then (laneBytes rg (if p.slay == 5 then r + 1 else r) (ceilDiv p.lineBytes 4) m).take p.lineBytes
  else if p.slay == 3 then laneBytes rg r 1 m else []

def execTst (h : Hdr) (m : MMod) (a b c : Opd) : State → Host.Outcome State Fault Refusal :=
  runI h { srcs := [(a, 2), (b, 16)], lates := if Order.isRel m.order then latesRel else [] } false fun act => do
    let s ← get
    let base ← tileBase 1 s a
    if m.x then do let _ ← spSpan 1 base 16 else pure ()
    let p ← checkedPl (srcPL s c) true true (some (Opd.ix b)) 2
    M.trapIf (spansBad s p) { accessT 0 with opnd := 2 }
    let pt : Plac := { p with pitch := 4, brot := 0, soff := 0, moff := 0 }
    M.trapIf (!pt.shapeOk false) (placT 7 4)
    let rows := actRows p act
    let rg := ownRegs s
    M.trapIf (rows.any fun i => match p.present (regMeta p rg i) with | .error _ => true | .ok _ => false) (placT 11 2)
    if m.x then do let _ ← spSpan 1 base pt.endOff else pure ()
    if Order.isRel m.order then releaseM m.scope else pure ()
    let tile := if (p.slay == 4 || p.slay == 5) && !rows.isEmpty then [(pt.scaleOff, laneBytes rg (p.soff % 256) 1 0)] else []
    let cut := fun (o : Nat) (bs : List Byte) =>
      (List.range (ceilDiv bs.length 16)).map fun k => (o + 16 * k, (bs.drop (16 * k)).take 16)
    let ws := (rows.flatMap fun i =>
      rowOut pt i (leNat (laneBytes rg (Opd.ix b) 16 i))
        ++ cut (pt.scaleOff + (pt.linePos i).1) (laneScaleBytes p rg i)
        ++ cut (pt.metaOff + i * pt.metaStride) (laneBytes rg (p.moff % 256) p.metaRegs i)) ++ tile
    writeTile m.x m.scope m.cache 1 base ws pt.toQ

end Sys2Proof.Machine
end

