-- ==== Sys2Proof/Machine/Courier.lean ====
section
/-! DEFINITION. Courier copies (R18, R229, R258 to R267, R381): acceptance into the open batch, the transfers of each kind,
chains, re-formatting, CSEAL, CWAIT and CQUERY. -/

namespace Sys2Proof.Machine

/-! ## Where a copy may read and write -/

/-- Why a transfer does not go on: it waits, in the state given, or it ends with a cause, a DETAIL and an address (R265). -/
inductive CStop where
  | wait (s : State)
  | err (cause detail addr : Nat)

/-- A computation of a courier. -/
abbrev CM (α : Type) := StateT State (Except CStop) α

def CM.err {α : Type} (cause addr : Nat) (detail : Nat := 0) : CM α := fun _ => .error (.err cause detail addr)

/-- Collect the answers in order. -/
def CM.mapL {α β : Type} (l : List α) (f : α → CM β) : CM (List β) :=
  match l with
  | [] => pure []
  | x :: t => do
    let y ← f x
    let ys ← CM.mapL t f
    pure (y :: ys)

/-- Is a core in the quad groups of a partition (R373)? -/
def inGroups (s : State) (part core : Nat) : Bool := (s.part part).cfg.getLsbD (32 + core / 256)

/-- A space-3 byte that a copy of the issuing cohort may reach (R18, R381). -/
def mapAllowed (s : State) (wr : Bool) (pa : Nat) : Bool :=
  let c := s.cur
  let core := (pa - 0xE_0000_0000_0000) / 2 ^ 21
  let o := (pa - 0xE_0000_0000_0000) % 2 ^ 21
  if pa < 0xE_0000_0000_0000 || 0xE_0002_0000_0000 ≤ pa || !inGroups s c.pl.part core then false
  else if c.pl.priv && (o < 0xC_0000 || (!wr && 0x18_0000 ≤ o && o < 0x18_8000)) then true
  else wr && 0x10_0000 ≤ o && o < 0x18_0000 &&
    match rowOwner s core ((o - 0x10_0000) / 2 ^ 16) ((o - 0x10_0000) % 2 ^ 16 / 128) with
    | some t =>
      t.pl.part == c.pl.part && t.pl.asid == c.pl.asid &&
        (match t.x.win with
         | some (v, n) =>
           let r := (o - 0x10_0000) % 2 ^ 16 / 128 - t.r.vbase
           decide (v ≤ r && r < v + n)
         | none => false)
    | none => false

/-- The copy waits for a block that is not FILLED; one of a generator's own block is open to it (R340, R344). -/
def copyFill (a : Nat) (t : Tr) : CM Unit := fun s =>
  match peekAt s s.cur.pl.part s.cur.pl.asid s.cur.x.gen t with
  | .go => .ok ((), s)
  | _ =>
    let (r, s') := askAt s.cur.pl.part s.cur.pl.asid none t s
    match r with
    | .go => .ok ((), s')
    | .failed => .error (.err 9 0 a)
    | .off => .error (.wait s')
    | _ => .error (.wait s')

/-- The place of a byte of a copy. A module whose path has failed is not reached (R279). -/
def copyByte (sp : Space) (acc : Acc) (a : Nat) : CM Loc := do
  let s ← get
  let via := fun (st : LSt) => (match st with
    | .at_ (.remote md o) t => do
      if s.m.fabDown.contains md then CM.err 1 a
      else match t with
        | some t => do copyFill a t; pure (.remote md o)
        | none => pure (.remote md o)
    | .at_ l none => pure l
    | .at_ l (some t) => do copyFill a t; pure l
    | .busy => fun s => .error (.wait s)
    | .defer => CM.err 1 a
    | .fault t => CM.err (if t.cause == Cause.poison then 6 else 1) a : CM Loc)
  match sp with
  | .glob => via (resolve .glob acc false 1 s none a)
  | .own => if 2 ^ 32 ≤ a then CM.err 1 a else via (ownAt s.cur 1 a)
  | .quad => if 2 ^ 32 ≤ a then CM.err 1 a else via (quadAt s s.cur 1 a)
  | .map => if mapAllowed s (acc == .store) a then pure (.chip a) else CM.err 3 a

/-- A copy parks on a poisoned sector, once, and is tried again (R399). -/
def copyPark {α : Type} (id pa die va : Nat) : CM α := fun s =>
  let again := s.parked.any fun q => q.pa == pa / 64 * 64 && q.req == Req.copy id
  .error (.wait (if again then s else parkReq s.cur.pl.part pa die va 0#32 0x0041 (.copy id) s))

/-- The place of a source byte that can be read. -/
def copySrc (id : Nat) (sp : Space) (a : Nat) : CM Loc := do
  let l ← copyByte sp .load a
  let s ← get
  match l with
  | .dram pa die => if s.poisoned pa then copyPark id pa die a else pure l
  | .chip pa => if isSp pa && spPoisoned s pa 1 then CM.err 6 a else pure l
  | _ => pure l

/-- Read a byte for a copy: the core's dirty bytes first (R229). -/
def copyRead (l : Loc) (a : Nat) : CM Byte := fun s =>
  match loadAt l a 1 .quad .dflt 0#32 .other s with
  | (.val bs, s') => .ok (nth bs 0 0#8, s')
  | (_, s') => .ok (0#8, s')

/-! ## Moves: pieces of a transfer within one aligned 16-byte unit of the destination (R260) -/

structure Move where
  src : Nat
  dst : Nat
  n : Nat
deriving DecidableEq, Repr

/-- A run of bytes cut at the destination's units. -/
def cutMoves (src dst n : Nat) : List Move :=
  let u := dst % 16
  (List.range (ceilDiv (u + n) 16)).filterMap fun k =>
    let lo := 16 * k - u
    let hi := min n (16 * (k + 1) - u)
    if lo < hi then some ⟨(src + lo) % 2 ^ 64, (dst + lo) % 2 ^ 64, hi - lo⟩ else none

/-- A move whose bytes have all been placed. -/
structure Placed where
  mv : Move
  ss : List Loc
  ds : List Loc

/-- Physical address of a local place. -/
def Loc.pa? : Loc → Option Nat
  | .dram pa _ => some pa
  | .chip pa => some pa
  | _ => none

/-- Place a move: every source byte, every destination byte, no live barrier word in its unit. -/
def placeMove (id : Nat) (dsp ssp : Space) (m : Move) : CM Placed := do
  let ss ← CM.mapL (List.range m.n) fun k => copySrc id ssp ((m.src + k) % 2 ^ 64)
  let ds ← CM.mapL (List.range m.n) fun k => copyByte dsp .store ((m.dst + k) % 2 ^ 64)
  let s ← get
  match ds.findIdx? fun l => match l.pa? with | some pa => s.live pa | none => false with
  | some _ => CM.err 4 m.dst
  | none => pure ⟨m, ss, ds⟩

/-- Moves in order up to the first that fails. -/
def placeMoves (id : Nat) (dsp ssp : Space) : List Move → State → Except State (List Placed × Option (Nat × Nat × Nat) × State)
  | [], s => .ok ([], none, s)
  | m :: l, s =>
    match placeMove id dsp ssp m s with
    | .error (.wait s') => .error s'
    | .error (.err c d a) => .ok ([], some (c, d, a), s)
    | .ok (p, s') =>
      match placeMoves id dsp ssp l s' with
      | .error s'' => .error s''
      | .ok (ps, e, s'') => .ok (p :: ps, e, s'')

/-- Least and greatest of the local addresses of some places. -/
def paRange (l : List Loc) : Option (Nat × Nat) :=
  l.foldl (fun b x => match x.pa?, b with
    | some pa, some (lo, hi) => some (min lo pa, max hi pa)
    | some pa, none => some (pa, pa)
    | none, b => b) none

/-- May the sources and destinations of a copy overlap? -/
def mayOverlap (ps : List Placed) : Bool :=
  match paRange (ps.flatMap (·.ss)), paRange (ps.flatMap (·.ds)) with
  | some (a, b), some (c, d) => decide (a ≤ d && c ≤ b)
  | _, _ => false

/-- A run of bytes of another module: the module and the first address there. -/
def remoteRun (ls : List Loc) : Option (Nat × Nat) :=
  match ls with
  | .remote md o :: _ => if ((List.range ls.length).zip ls).all fun (k, l) => l == Loc.remote md (o + k) then some (md, o) else none
  | _ => none

/-- A pass in flight reads one of the bytes (R17). -/
def passHolds (s : State) (ds : List Loc) : Bool :=
  ds.any fun l => match l with
    | .chip pa => s.sb.any fun e => !e.dst && spPa e.core e.lo ≤ pa && pa < spPa e.core e.hi
    | _ => false

/-- Write a move's bytes at the home; those of another module go as a courier write, tagged with the copy (R278). What a pass holds
back is handed on: the unit's address and bytes. -/
def putMove (id : Nat) (p : Placed) (bs : List Byte) (s : State) : List (Nat × List Byte) × State :=
  match p.ds with
  | [] => ([], s)
  | l :: _ =>
    if passHolds s p.ds then ((l.pa?.map fun pa => (pa, bs)).toList, s)
    else match l with
      | .dram pa _ =>
        let s := writeBack s.cur.pl.core (pa / 64) s
        ([], pokeL1 s.cur.pl.core pa bs false (s.setBytes pa bs))
      | .remote md o => ([], { s with outs := s.outs ++ [.zwiov md o (.cwr id bs)] })
      | l => ([], (storeAt l p.mv.dst bs .quad .dflt 0#32 .other s).2)

/-- Read a move's source bytes; those of another module come by a courier read. -/
def readMove (id : Nat) (p : Placed) : CM (List Byte) :=
  match remoteRun p.ss with
  | some (md, o) => fun s =>
    let (bs, s) := remoteBytes p.mv.n s
    .ok (bs, { s with outs := s.outs ++ [.zwiov md o (.crd id p.mv.n)] })
  | none => CM.mapL ((List.range p.mv.n).zip p.ss) fun (k, l) => copyRead l (p.mv.src + k)

/-- Perform placed moves; what passes hold back is handed on. Bytes are read before the copy writes, but for units that may overlap
its writes, where the choice is free (R260). Of the units before a failure some subset is written (R265). -/
def runMoves (id pick : Nat) (failed : Bool) (ps : List Placed) (s : State) : List (Nat × List Byte) × State :=
  let ov := mayOverlap ps
  match (CM.mapL ps (readMove id)) s with
  | .error _ => ([], s)
  | .ok (olds, s) =>
    ((List.range ps.length).zip (ps.zip olds)).foldl (fun (ws, s) (k, p, old) =>
      if failed && !Config.copyKeeps pick k then (ws, s)
      else
        let (bs, s) := if ov && Config.copyLate pick k then
            match readMove id p s with
            | .ok (bs, s') => (bs, s')
            | .error _ => (old, s)
          else (old, s)
        let (w, s) := putMove id p bs s
        (ws ++ w, s)) ([], s)

/-- The places of local bytes in memory, with their home dies. -/
def dramOf (ps : List Placed) : List (Nat × Nat) :=
  (ps.flatMap (·.ds)).filterMap fun l => match l with | .dram pa die => some (pa, die) | _ => none

/-- Does every byte of a sector occur? -/
def wholeSector (ds : List (Nat × Nat)) (w : Nat) : Bool := (List.range 64).all fun k => ds.any fun e => e.1 == w + k

/-- Destination sectors that are poisoned and that the moves do not cover whole: a partial write parks (R399). -/
def partialPoison (s : State) (ps : List Placed) : Option (Nat × Nat) :=
  let ds := dramOf ps
  ds.find? fun e => s.poisoned e.1 && !wholeSector ds (e.1 / 64 * 64)

/-- Poisoned sectors that the moves cover whole are repaired (R400). -/
def repairCovered (ps : List Placed) (s : State) : State :=
  let ds := dramOf ps
  { s with poison := s.poison.filter fun w => !wholeSector ds w }

/-- The walks of a copy in the global space raise heat, one on each page that its units come to (R363). -/
def heatMoves (dsp ssp : Space) (ms : List Move) (s : State) : State :=
  let one := fun (sp : Space) (acc : Acc) (a b : Nat) (s : State) =>
    if sp != .glob || a / 4096 == b / 4096 then s
    else match resolve .glob acc false 1 s none a with
      | .at_ _ (some t) => heatFor s.cur.pl.part acc t.at_ s
      | _ => s
  (ms.foldl (fun (st : State × Nat × Nat) m =>
    (one dsp .store m.dst st.2.2 (one ssp .load m.src st.2.1 st.1), m.src, m.dst)) (s, 2 ^ 64, 2 ^ 64)).1

/-- What a transfer came to: its error, and the writes that passes hold back. -/
structure Did where
  err : Option (Nat × Nat × Nat)
  late : List (Nat × List Byte) := []

/-- The first byte of a use of space 3 that R18 or R258 forbids: then no byte of the copy is performed. -/
def forbidden (dsp ssp : Space) (ms : List Move) (s : State) : Option Nat :=
  ms.findSome? fun m =>
    let bad := fun (wr : Bool) (a : Nat) => (List.range m.n).findSome? fun k => if mapAllowed s wr (a + k) then none else some (a + k)
    match (if ssp == .map then bad false m.src else none) with
    | some a => some a
    | none => if dsp == .map then bad true m.dst else none

/-- Perform a list of moves: it waits, or it has performed, with an error or none. -/
def doMoves (id : Nat) (dsp ssp : Space) (ms : List Move) (e0 : Option (Nat × Nat × Nat)) (s : State) : Except State (Did × State) :=
  match forbidden dsp ssp ms s with
  | some a => .ok ({ err := some (3, 0, a) }, s)
  | none => match placeMoves id dsp ssp ms s with
    | .error s' => .error s'
    | .ok (ps, e, s1) => match partialPoison s1 ps with
      | some (pa, die) => match (copyPark (α := Unit) id pa die pa) s1 with
        | .error (.wait s') => .error s'
        | _ => .error s1
      | none =>
        let err := if e.isSome then e else e0
        let (k, s2) := s1.draw
        let (ws, s3) := runMoves id k err.isSome ps (heatMoves dsp ssp (ps.map (·.mv)) s2)
        .ok ({ err := err, late := ws }, if err.isSome then s3 else repairCovered ps s3)

/-! ## Ends (R265, R266) -/

/-- A copy retires: its scoreboard entry goes, its error is latched when the latch is clear. -/
def endCopy (cp : Copy) (e : Option (Nat × Nat × Nat)) (s : State) : State :=
  let s := sbDrop cp.id { s with copies := s.copies.filter fun c => c.id != cp.id }
  match e with
  | none => s
  | some (c, d, a) => s.updCohort cp.cohort fun x =>
    { x with x := { x.x with err := if x.x.err.isSome then x.x.err else some ⟨cp.batch, c, d, a⟩ } }

def setCopy (cp : Copy) (s : State) : State :=
  { s with copies := s.copies.map fun c => if c.id == cp.id then cp else c }

/-! ## Tensor layouts (R262) -/

/-- A tensor-layout record. -/
structure Layout where
  base : Nat
  ext : List Nat
  str : List Int
  elem : Nat
  mode : Nat
  idim : Nat
  ok : Bool

def layoutOf (bs : List Byte) : Layout where
  base := fld bs 0 8
  ext := (List.range 4).map fun k => fld bs (8 + 4 * k) 4
  str := (List.range 4).map fun k => sextInt 64 (fld bs (24 + 8 * k) 8)
  elem := fld bs 56 1
  mode := fld bs 57 1
  idim := fld bs 58 1
  ok := fld bs 56 1 < 8 && fld bs 57 1 ≤ 1 && fld bs 58 1 ≤ 3 && allZero ((bs.drop 59).take 5)
    && (List.range 4).all fun k => 1 ≤ fld bs (8 + 4 * k) 4

/-- The address of a point. -/
def Layout.at_ (l : Layout) (pt : List Nat) : Nat :=
  wrapNat 64 ((l.base : Int) + ((l.str.zip pt).map fun (t, p) => t * (p : Int)).foldl (· + ·) 0)

/-- The n-th point of an extent, dimension 0 fastest. -/
def pointOf : List Nat → Nat → List Nat
  | [], _ => []
  | e :: l, n => n % e :: pointOf l (n / e)

def volume (l : List Nat) : Nat := l.foldl (· * ·) 1

/-- Read a little-endian number for a copy. -/
def copyNum (id : Nat) (sp : Space) (a n : Nat) : CM Nat := do
  let bs ← CM.mapL (List.range n) fun k => do
    let l ← copySrc id sp ((a + k) % 2 ^ 64)
    copyRead l (a + k)
  pure (leNat bs)

/-- Space-3 addresses and lengths are multiples of 4 (R259). -/
def mapAligned (dsp ssp : Space) (dst src n : Nat) : Option Nat :=
  if dsp == .map && (dst % 4 != 0 || n % 4 != 0) then some dst
  else if ssp == .map && (src % 4 != 0 || n % 4 != 0) then some src
  else none

/-- A move whose space-3 addresses are aligned. -/
def alignedMove (dsp ssp : Space) (m : Move) : CM Move :=
  match mapAligned dsp ssp m.dst m.src m.n with
  | some a => CM.err 2 a
  | none => pure m

/-- The n-th element of a tensor copy as a move, or its error. -/
def tensorMove (id : Nat) (scat : Bool) (dsp ssp : Space) (near : Nat) (l1 l2 : Layout) (n : Nat) : CM Move := do
  let pt := pointOf l1.ext n
  let c ← if l1.mode == 1 then do
      let x ← copyNum id ssp (l1.at_ pt) 4
      pure (pt.set l1.idim x)
    else pure pt
  let e := 2 ^ l2.elem
  let far := l2.at_ c
  let nr := (near + e * n) % 2 ^ 64
  if (c.zip l2.ext).any fun (x, y) => decide (y ≤ x) then CM.err 8 far
  else if far % e != 0 then CM.err 2 far
  else if nr % e != 0 then CM.err 2 nr
  else alignedMove dsp ssp (if scat then ⟨nr, far, e⟩ else ⟨far, nr, e⟩)

/-- Build moves one by one up to the first error. -/
def buildMoves (f : Nat → CM Move) : Nat → Nat → State → Except State (List Move × Option (Nat × Nat × Nat) × State)
  | 0, _, s => .ok ([], none, s)
  | k + 1, n, s =>
    match f n s with
    | .error (.wait s') => .error s'
    | .error (.err c d a) => .ok ([], some (c, d, a), s)
    | .ok (m, s') =>
      match buildMoves f k (n + 1) s' with
      | .error s'' => .error s''
      | .ok (ms, e, s'') => .ok (m :: ms, e, s'')

/-- Perform built moves; an error in building ends the copy after those before it. -/
def doBuilt (id : Nat) (dsp ssp : Space) (f : Nat → CM Move) (n : Nat) (s : State) : Except State (Did × State) :=
  match buildMoves f n 0 s with
  | .error s' => .error s'
  | .ok (ms, e, s1) => doMoves id dsp ssp (ms.flatMap fun m => cutMoves m.src m.dst m.n) e s1

/-- An element of a gather (R263). -/
def gatherMove (id esz : Nat) (dsp ssp : Space) (dst list : Nat) (n : Nat) : CM Move := do
  let a ← copyNum id .glob ((list + 8 * n) % 2 ^ 64) 8
  if a % min (2 ^ esz) 16 != 0 then CM.err 2 a else alignedMove dsp ssp ⟨a, (dst + 2 ^ esz * n) % 2 ^ 64, 2 ^ esz⟩

/-! ## Re-formatting (R87, R261) -/

/-- Bytes of a tile for a courier, at an offset from its base. -/
def tileSpan (id : Nat) (sp : Space) (base o n : Nat) : CM (List Byte) :=
  CM.mapL (List.range n) fun k => do
    let a := (base + o + k) % 2 ^ 64
    let l ← copySrc id sp a
    copyRead l a

/-- The values of a stored row of an FX64 tile by its record (R148). -/
def fxVals (p : Plac) (rd : TileRd) (m : Nat) : Except Nat (List (Option Val)) :=
  match fxRow p rd m with
  | (_, none) => .error 11
  | (l, some r) => .ok (l.map fun c =>
    some (if r.nan || (r.pinf && r.ninf) || r.ovf then Val.qnan
      else if r.pinf then .inf false else if r.ninf then .inf true
      else .fin (decide (c < 0)) c.natAbs (r.anchor.toInt - 43)))

/-- Row m of the source as values. -/
def reformatRow (p : Plac) (rd : TileRd) (cb : Nat → Word) (lines : List (List Val)) (m : Nat) : Except Nat (List (Option Val)) :=
  if p.isFX then fxVals p rd m
  else if p.isCBT then .ok ((List.range 8).map fun j => some (Fmt.e2m1.val (memRow p rd m / 16 ^ j % 8)))
  else match memRowCells p rd cb lines m with
    | .error d => .error d
    | .ok l => .ok (l.map fun x => x.map Prod.fst)

/-- Rows before the first that fails, and its detail. A row of a bitmap target that does not fit fails with detail 7. -/
def goodRows (pt : Plac) : List (Except Nat (List (Option Val))) → List (List (Option Val)) × Option Nat
  | [] => ([], none)
  | .error d :: _ => ([], some d)
  | .ok l :: t =>
    if pt.spar == 2 && 8 * pt.rowPitch < (l.filter Option.isSome).length * pt.bits then ([], some 7)
    else
      let (r, e) := goodRows pt t
      (l :: r, e)

/-- Does the spec say how values enter the target's blocks: no scales, or E8M0 scales as CVTPK makes them (R73, R121)? -/
def Plac.scalesGiven (p : Plac) : Bool := !p.isVQ && (p.slay == 0 || ((p.slay == 1 || p.slay == 2) && p.sfmt == 1))

/-- The columns that a row of the target keeps: those present in the source; none where a 2:4 target would have to choose. -/
def keptCols (pt : Plac) (l : List (Option Val)) : Option (List Nat) :=
  let has := (List.range l.length).filter fun j => (nth l j none).isSome
  if pt.spar == 0 then some (List.range pt.cols)
  else if pt.spar == 2 then some has
  else if (List.range (pt.cols / 4)).all fun g => (has.filter fun j => j / 4 == g).length == 2 then some has
  else none

/-- The metadata of a row that keeps some columns (R78). -/
def metaWord (pt : Plac) (js : List Nat) : Nat :=
  if pt.spar == 2 then (js.map (2 ^ ·)).foldl (· + ·) 0
  else (List.range (pt.cols / 4)).foldl (fun x g => match js.filter fun j => j / 4 == g with
    | [a, b] => x + (a % 4 + 4 * (b % 4)) * 16 ^ g
    | _ => x) 0

/-- A row of values as a row of an FX64 target: under the target's pinned anchor, else under the one that the values need, as they
enter a cleared tile (R62, R164). -/
def fxOf (pt : Plac) (l : List (Option Val)) : List Int × TRow :=
  let vs := l.map fun v => v.getD (.fin false 0 0)
  let a : Int := if pt.pinned then pt.anchor else match boundOf (1, 0) (vs.map Val.abs) with
    | some b => max (-256) (min b 255)
    | none => -256
  let xs := vs.map fun v => match v with
    | .fin n k e => alignTrunc n k e (a - 43)
    | _ => 0
  (xs.map fun x => sextInt 64 (wrapNat 64 x),
    { TRow.zero with anchor := BitVec.ofInt 9 a, pinned := pt.pinned, nan := vs.any Val.isNan, pinf := vs.contains (.inf false)
                     ninf := vs.contains (.inf true), ovf := xs.any out64 })

/-- A free code (log 65). -/
def freeCode (pick k bits : Nat) : Nat := leNat ((List.range 8).map fun i => Config.reformatByte pick (8 * k + i)) % 2 ^ bits

/-- Free bytes at an offset (log 65). -/
def freeBytes (pick o n : Nat) : List Byte := (List.range n).map fun i => Config.reformatByte pick (2 ^ 40 + o + i)

/-- The magnitude nibble of a CBT target; none of a value that has none (R65). -/
def cbtCode (v : Option Val) : Option Nat :=
  match v with
  | some v => let c := (Fmt.e2m1.round .rne false false v).1; if c < 8 && !v.isNan then some c else none
  | none => none

/-- The writes of the target tile for the rows converted: stored rows, scales, metadata (offset and bytes). A scale that the spec gives no
rule for, the elements under it, an element that the source marks absent and a choice of 2:4 columns are free (log 65). -/
def reformatWrites (pick : Nat) (ps pt : Plac) (rd : TileRd) (rows : List (List (Option Val))) : List (Nat × List Byte) :=
  let cut := fun (o : Nat) (bs : List Byte) => (List.range (ceilDiv bs.length 16)).map fun k => (o + 16 * k, (bs.drop (16 * k)).take 16)
  let ix := (List.range rows.length).zip rows
  let enc := fun (l : List (Option Val)) => encodeRow pt .rne false false l
  let cols := (List.range pt.cols).map fun j => enc (rows.map fun r => nth r j none)
  let free := fun (m j : Nat) => freeCode pick (m * 4096 + j) pt.bits
  let code := fun (m : Nat) (l : List (Option Val)) (cs : List Nat) (j : Nat) =>
    if !pt.scalesGiven || (nth l j none).isNone then free m j
    else if pt.isCBT then (cbtCode (nth l j none)).getD (free m j % 8)
    else if pt.transposed then nth (nth cols j ([], [], 0)).2.1 m 0
    else nth cs j 0
  let put := fun (m : Nat) (cs : List Nat) =>
    if pt.isCBT then [(16 + 4 * m, leBytes 4 (packBits 4 cs))]
    else
      let n := ceilDiv (cs.length * pt.bits) 8
      let x := packBits pt.bits cs
      (List.range (ceilDiv n 16)).map fun c => (pt.chunkOff m c, leBytes (min 16 (n - 16 * c)) (x / 2 ^ (128 * c)))
  let scale := fun (line : Nat) (bs : List Byte) =>
    let o := pt.scaleOff + (pt.linePos line).1
    if pt.scalesGiven then cut o bs
    else cut o (freeBytes pick o (pt.linePos line).2) ++ (if pt.slay == 5 then cut pt.scaleOff (freeBytes pick pt.scaleOff 4) else [])
  let row := fun (m : Nat) (l : List (Option Val)) =>
    let e := enc l
    let (cs, md) := match keptCols pt l with
      | some js => (js.map (code m l e.2.1), leBytes pt.metaStride (metaWord pt js))
      | none => ((List.range pt.stored).map (free m), freeBytes pick (pt.metaOff + m * pt.metaStride) pt.metaStride)
    put m cs ++ (if pt.transposed then [] else scale m e.1) ++ (if pt.spar == 0 then [] else cut (pt.metaOff + m * pt.metaStride) md)
  if pt.isFX then ix.flatMap fun (m, l) =>
    if ps.isFX then rowOut pt m (memRow ps rd m) ++ [(pt.scaleOff + 16 * m, rd (ps.scaleOff + 16 * m) 16)]
    else
      let (xs, r) := fxOf pt l
      rowOut pt m (packBits 64 (xs.map (wrapNat 64))) ++ [(pt.scaleOff + 16 * m, rowRecord r (checkOf xs))]
  else (ix.flatMap fun (m, l) => row m l)
    ++ (if pt.transposed && !rows.isEmpty then (List.range pt.cols).flatMap fun j => scale j (nth cols j ([], [], 0)).1 else [])

/-- Read the source tile and the target placard, check them, convert: the writes, and the error that stopped. -/
def reformat (id : Nat) (dsp ssp : Space) (dst src : Nat) : CM (List (Nat × List Byte) × Option (Nat × Nat × Nat)) := do
  if src % 16 != 0 then CM.err 2 src
  else if dst % 16 != 0 then CM.err 2 dst
  else do
    let qs ← copyNum id ssp src 16
    let qt ← copyNum id dsp dst 16
    let d0 := plCheck (BitVec.ofNat 128 qs) true false
    let ps := Plac.ofQ (BitVec.ofNat 128 qs)
    let words ← if ps.isCBT && (d0 == 0 || d0 == 7) then
        CM.mapL (List.range ps.rows) fun m => copyNum id ssp ((src + 16 + 4 * m) % 2 ^ 64) 4
      else pure []
    let es := sourceCheck (BitVec.ofNat 128 qs) words
    let et := plCheck (BitVec.ofNat 128 qt) false false
    let pt := Plac.ofQ (BitVec.ofNat 128 qt)
    if es != 0 then CM.err 5 src es
    else if et != 0 then CM.err 5 dst et
    else if ps.rows != pt.rows || ps.cols != pt.cols then CM.err 5 dst 9
    else do
      let el ← tileSpan id ssp src 0 ps.elemEnd
      let sc ← tileSpan id ssp src ps.scaleOff ps.scaleLen
      let md ← tileSpan id ssp src ps.metaOff ps.metaLen
      let rd : TileRd := fun o n =>
        if ps.metaLen != 0 && ps.metaOff ≤ o && o < ps.metaOff + ps.metaLen then rdOf md (o - ps.metaOff) n
        else if ps.scaleLen != 0 && ps.scaleOff ≤ o && o < ps.scaleOff + ps.scaleLen then rdOf sc (o - ps.scaleOff) n
        else rdOf el o n
      let s ← get
      let cb := bookOf s s.quad s.cur.pl.launch ps
      let lines := (List.range ps.xext).map (memScales ps rd)
      let (rows, e) := goodRows pt ((List.range ps.rows).map (reformatRow ps rd cb lines))
      let (pick, s') := s.draw
      set s'
      let ms := reformatWrites pick ps pt rd rows
      match (if dsp == .map then ms.find? fun w => w.2.length % 4 != 0 else none) with
      | some w => CM.err 2 ((dst + w.1) % 2 ^ 64)
      | none => pure (ms, e.map fun d => (5, d, (src + 16 + ps.rowPitch * rows.length) % 2 ^ 64))

/-- Write bytes that a courier computed: every byte is placed, then all are written, but for those that a pass holds back. -/
def doWrites (id : Nat) (dsp : Space) (base : Nat) (ws : List (Nat × List Byte)) (s : State) : Except State (Did × State) :=
  let go := fun (w : Nat × List Byte) => (do
    let a := (base + w.1) % 2 ^ 64
    let ds ← CM.mapL (List.range w.2.length) fun k => copyByte dsp .store ((a + k) % 2 ^ 64)
    let s ← get
    if ds.any fun l => match l.pa? with | some pa => s.live pa | none => false then CM.err 4 a
    else pure (Placed.mk ⟨0, a, w.2.length⟩ [] ds, w.2) : CM (Placed × List Byte))
  match (CM.mapL ws go) s with
  | .error (.wait s') => .error s'
  | .error (.err c d a) => .ok ({ err := some (c, d, a) }, s)
  | .ok (ps, s') => match partialPoison s' (ps.map Prod.fst) with
    | some (pa, die) => match (copyPark (α := Unit) id pa die pa) s' with
      | .error (.wait s'') => .error s''
      | _ => .error s'
    | none =>
      let (late, s'') := ps.foldl (fun (l, s) (p, bs) => let (w, s) := putMove id p bs s; (l ++ w, s))
        (([] : List (Nat × List Byte)), heatMoves dsp .own (ps.map (·.1.mv)) s')
      .ok ({ err := none, late := late }, repairCovered (ps.map Prod.fst) s'')

/-! ## The transfer of a copy -/

/-- What a copy does, as its cohort: it waits, or it has performed. -/
def transfer (cp : Copy) (s : State) : Except State (Did × State) :=
  match cp.kind with
  | .plain dsp ssp dst src n =>
    match mapAligned dsp ssp dst src n with
    | some a => .ok ({ err := some (2, 0, a) }, s)
    | none => doMoves cp.id dsp ssp (cutMoves src dst n) none s
  | .tile dsp ssp dst src =>
    match reformat cp.id dsp ssp dst src s with
    | .error (.wait s') => .error s'
    | .error (.err c d a) => .ok ({ err := some (c, d, a) }, s)
    | .ok ((ws, e), s') =>
      match doWrites cp.id dsp dst ws s' with
      | .error s'' => .error s''
      | .ok (d, s'') => .ok ({ d with err := if d.err.isSome then d.err else e }, s'')
  | .tensor scat dsp ssp near b1 b2 =>
    let l1 := layoutOf b1
    let l2 := layoutOf b2
    if !l1.ok || !l2.ok || 4 < l2.elem || l2.mode != 0 || 2 ^ 32 < volume l1.ext then .ok ({ err := some (2, 0, near) }, s)
    else doBuilt cp.id dsp ssp (tensorMove cp.id scat dsp ssp near l1 l2) (volume l1.ext) s
  | .gather esz dsp ssp dst list cnt => doBuilt cp.id dsp ssp (gatherMove cp.id esz dsp ssp dst list) cnt s
  | .bad c a => .ok ({ err := some (c, 0, a) }, s)
  | .chain _ | .record _ _ | .late _ _ _ => .error s

/-- The writes that passes held back perform as the passes retire (R17); those still held stay. -/
def landBack (ws : List (Nat × List Byte)) (s : State) : List (Nat × List Byte) × State :=
  ws.foldl (fun (l, s) (pa, bs) =>
    if passHolds s ((List.range bs.length).map fun k => Loc.chip (pa + k)) then (l ++ [(pa, bs)], s) else (l, chipPutAll pa bs s)) ([], s)

/-- Addresses in a space at which the issuing cohort's own scratchpad is seen, and the offset in its core's scratchpad (R17, R239,
R380): start, offset, length. -/
def ownWindow (s : State) (sp : Space) : Option (Nat × Nat × Nat) :=
  let p := s.cur.pl
  match sp with
  | .glob => none
  | .own => some (0, p.spBase, p.spSize)
  | .quad => some (p.core % 4 * 2 ^ 20, p.spBase, p.spSize)
  | .map => some (spPa p.core 0, 0, 0xC_0000)

/-- The bytes of [lo, hi) in a space that lie in the own scratchpad, as offsets in it. -/
def ownRange (s : State) (sp : Space) (lo hi : Nat) : Option (Nat × Nat) :=
  match ownWindow s sp with
  | none => none
  | some (a, o, n) => if max lo a < min hi (a + n) then some (max lo a - a + o, min hi (a + n) - a + o) else none

/-- The spaces of a transfer record, and its transfer (R264). -/
def recSpace (k : Nat) : Space := if k == 0 then .glob else if k == 1 then .own else if k == 2 then .quad else .map

def recordMoves (id : Nat) (r : List Byte) (s : State) : Except State (Did × State) :=
  let src := fld r 0 8
  let dst := fld r 8 8
  let n := fld r 16 4
  let ssp := recSpace (fld r 20 1 % 4)
  let dsp := recSpace (fld r 20 1 / 4 % 4)
  match mapAligned dsp ssp dst src n with
  | some a => .ok ({ err := some (2, 0, a) }, s)
  | none => doMoves id dsp ssp (cutMoves src dst n) none s

/-- The next record of a chain: read with an acquire; one that belongs to the courier has its destination entry made, where it needs one
and the scoreboard has room (R17). -/
def chainStep (cp : Copy) (at_ : Nat) (s : State) : State :=
  if at_ % 64 != 0 then endCopy cp (some (2, 0, at_)) s
  else match tileSpan cp.id .glob at_ 0 64 s with
    | .error (.wait s') => s'
    | .error (.err c d a) => endCopy cp (some (c, d, a)) s
    | .ok (r, s) =>
      let s := acquire cp.scope s
      let dst := fld r 8 8
      if !nbit (fld r 21 1) 0 then endCopy cp none s
      else if fld r 20 1 / 16 != 0 || fld r 21 1 / 2 != 0 || fld r 23 1 != 0 then
        setCopy { cp with kind := .late [] (some (7, 0, at_)) (some (at_, 0)) } s
      else match ownRange s (recSpace (fld r 20 1 / 4 % 4)) dst (dst + fld r 16 4) with
        | none => setCopy { cp with kind := .record at_ r } s
        | some (lo, hi) =>
          if 32 ≤ (s.sb.filter fun e => e.core == cp.core).length then s
          else setCopy { cp with kind := .record at_ r } { s with sb := s.sb ++ [⟨cp.core, lo, hi, true, cp.id⟩] }

/-- The transfer of a record. -/
def recordStep (cp : Copy) (at_ : Nat) (r : List Byte) (s : State) : State :=
  match recordMoves cp.id r s with
  | .error s' => s'
  | .ok (d, s') => setCopy { cp with kind := .late d.late d.err (some (at_, fld r 24 8)) } s'

/-- The release at the copy's scope with which STATUS is written and OWN is cleared; the accesses before the CPYC had performed when it was
accepted (R229). Then the next record. -/
def statusStep (cp : Copy) (at_ next : Nat) (e : Option (Nat × Nat × Nat)) (s : State) : State :=
  let s := if Scope.wide cp.scope then writeBackAll cp.core s else s
  if Scope.wide cp.scope && backParked s cp.core then s
  else
    let st := match e with | some (c, _, _) => c | none => 0
    match doWrites cp.id .glob at_ [(21, [0#8, BitVec.ofNat 8 st])] s with
    | .error s' => s'
    | .ok (d, s') =>
      let e := if e.isSome then e else d.err
      if e.isSome || next == 0 || cp.node.isSome then endCopy cp e s'
      else sbDrop cp.id (setCopy { cp with kind := .chain next } s')

/-- What remains of a transfer that has performed. -/
def lateStep (cp : Copy) (ws : List (Nat × List Byte)) (e : Option (Nat × Nat × Nat)) (after : Option (Nat × Nat)) (s : State) : State :=
  let (ws', s) := landBack ws s
  if !ws'.isEmpty then setCopy { cp with kind := .late ws' e after } s
  else match after with
    | none => endCopy cp e s
    | some (at_, next) => statusStep { cp with kind := .late [] e after } at_ next e (setCopy { cp with kind := .late [] e after } s)

/-- A courier's turn at a copy, as its cohort: the transfer, a record of a chain, or what a pass held back. -/
def courierStep (cp : Copy) (s : State) : State :=
  match cp.kind with
  | .chain at_ => chainStep cp at_ s
  | .record at_ r => recordStep cp at_ r s
  | .late ws e after => lateStep cp ws e after s
  | _ => match transfer cp s with
    | .error s' => s'
    | .ok (d, s') => if d.late.isEmpty then endCopy cp d.err s' else setCopy { cp with kind := .late d.late d.err none } s'

/-! ## Acceptance (R259) -/

/-- Copies of a core in flight are limited; a copy's accesses follow every earlier access of the cohort, so these perform first
(R229). -/
def copyRoom : M Unit := do
  M.waitUntil .copies fun s => decide ((s.copies.filter fun c => c.core == s.cur.pl.core).length < 64)
  drainedM

/-- Enter a copy into the open batch, with a destination entry where bytes of [lo, hi) in its destination's space lie in the own
scratchpad. -/
def acceptCopy (sc : Scope) (kind : CopyKind) (sp : Space) (lo hi : Nat) : M Unit := do
  let s ← get
  let dst := match kind with
    | .bad _ _ | .chain _ => none
    | _ => ownRange s sp lo hi
  match dst with
  | some _ => M.waitUntil .scoreboard fun s => decide ((s.sb.filter fun e => e.core == s.cur.pl.core).length < 32)
  | none => pure ()
  M.upd fun s =>
    let (id, s) := s.fresh
    let p := s.cur.pl
    let cp : Copy := ⟨id, p.core, p.id, s.cur.x.batch, p.part, p.asid, p.priv, s.cur.smask, sc, kind, none⟩
    let e := match dst with
      | some (lo, hi) => [Sb.mk p.core lo hi true id]
      | none => []
    { s with copies := s.copies ++ [cp], sb := s.sb ++ e }

/-- Space 3 is closed to unprivileged sources, and scratchpad addresses have no high bits: the error of a copy at issue. -/
def issueErr (s : State) (m : CMod) (dst src : Option Nat) : Option (Nat × Nat) :=
  let hi := fun (sp : Space) (a : Option Nat) => match a with
    | some a => if (sp == .own || sp == .quad) && 2 ^ 32 ≤ a then some (1, a) else none
    | none => none
  if m.ssp == .map && !s.cur.pl.priv then some (3, src.getD 0)
  else match hi m.dsp dst with
    | some e => some e
    | none => hi m.ssp src

/-- The kind of a copy, or the error that it only ends with. -/
def orBad (e : Option (Nat × Nat)) (k : CopyKind) : CopyKind :=
  match e with
  | some (c, a) => .bad c a
  | none => k

def execCpy (h : Hdr) (m : CMod) (d a b : Opd) : State → Host.Outcome State Fault Refusal :=
  runI h { uni := true, srcs := [(d, 2), (a, 2), (b, 1)] } false fun _ => do
    copyRoom
    let s ← get
    let dst := (src64 s none d).toNat
    let src := (src64 s none a).toNat
    let n := (src32 s none b).toNat
    let k := orBad (issueErr s m (some dst) (some src)) (.plain m.dsp m.ssp dst src n)
    acceptCopy m.scope k m.dsp dst (dst + n)

def execCpyTile (h : Hdr) (m : CMod) (d a : Opd) : State → Host.Outcome State Fault Refusal :=
  runI h { uni := true, srcs := [(d, 2), (a, 2)] } false fun _ => do
    copyRoom
    let s ← get
    let dst := (src64 s none d).toNat
    let src := (src64 s none a).toNat
    let k := orBad (issueErr s m (some dst) (some src)) (.tile m.dsp m.ssp dst src)
    acceptCopy m.scope k m.dsp dst (dst / 2 ^ 20 * 2 ^ 20 + 2 ^ 20)

/-- The two layout records of CPYT, read at issue in the global space. A record that cannot be read makes a copy that only
ends with that error. -/
def readLayouts (a : Nat) : M (Except (Nat × Nat) (List Byte)) := fun s =>
  if a % 64 != 0 then .ok (.error (2, a), s)
  else match tileSpan 0 .glob a 0 128 s with
    | .ok (bs, s') => .ok (.ok bs, s')
    | .error (.err c _ x) => .ok (.error (c, x), s)
    | .error (.wait s') => .error (.wait .fill s')

def cpytI (h : Hdr) (scat : Bool) (m : CMod) (d a : Opd) : State → Host.Outcome State Fault Refusal :=
  runI h { uni := true, srcs := [(d, 2), (a, 2)] } false fun _ => do
    copyRoom
    let s ← get
    let near := (src64 s none d).toNat
    let r ← readLayouts (src64 s none a).toNat
    let e := issueErr s m (if scat then none else some near) (if scat then some near else none)
    let k := match r with
      | .error (c, x) => CopyKind.bad c x
      | .ok bs => orBad e (.tensor scat m.dsp m.ssp near (bs.take 64) (bs.drop 64))
    let len := match k with
      | .tensor _ _ _ _ b1 b2 => 2 ^ (layoutOf b2).elem * volume (layoutOf b1).ext
      | _ => 0
    if scat then acceptCopy m.scope k m.dsp 0 (2 ^ 64) else acceptCopy m.scope k m.dsp near (near + len)

def execCpyt (h : Hdr) (m : CMod) (d a : Opd) : State → Host.Outcome State Fault Refusal := cpytI h false m d a
def execCpytScat (h : Hdr) (m : CMod) (d a : Opd) : State → Host.Outcome State Fault Refusal := cpytI h true m d a

def execCpyg (h : Hdr) (m : CMod) (esz : BitVec 4) (d a b : Opd) : State → Host.Outcome State Fault Refusal :=
  runI h { uni := true, srcs := [(d, 2), (a, 2), (b, 1)] } false fun _ => do
    copyRoom
    let s ← get
    let dst := (src64 s none d).toNat
    let list := (src64 s none a).toNat
    let n := (src32 s none b).toNat
    let e := if n == 0 || 65536 < n then some (7, list) else if list % 8 != 0 then some (2, list) else issueErr s m (some dst) none
    let k := orBad e (.gather esz.toNat m.dsp m.ssp dst list n)
    acceptCopy m.scope k m.dsp dst (dst + 2 ^ esz.toNat * n)

def execCpyc (h : Hdr) (scope : Scope) (a : Opd) : State → Host.Outcome State Fault Refusal :=
  runI h { uni := true, srcs := [(a, 2)] } false fun _ => do
    copyRoom
    let s ← get
    acceptCopy scope (.chain (src64 s none a).toNat) .glob 0 0

/-! ## Batches (R266, R267) -/

/-- Numbers of the issuing cohort's unfinished batches. -/
def openBatches (s : State) : List Nat := ((s.copies.filter fun c => c.cohort == s.cur.pl.id).map (·.batch)).eraseDups

def execCseal (h : Hdr) : State → Host.Outcome State Fault Refusal :=
  runI h { uni := true } false fun _ => do
    M.waitUntil .copies fun s => decide (((openBatches s).filter fun b => b != s.cur.x.batch).length < 15)
    M.upd fun s => s.updX fun x => { x with batch := (x.batch + 1) % 65536 }

def execCwait (h : Hdr) (d a : Opd) : State → Host.Outcome State Fault Refusal :=
  runI h { uni := true, srcs := [(a, 1)], dsts := [(d, 1)] } false fun _ => do
    M.waitUntil .copies fun s => decide ((openBatches s).length ≤ (src32 s none a).toNat)
    let s ← get
    emitR (dstP d none s.cur.x.err.isNone) 0 (some 0)

def execCquery (h : Hdr) (clr : Bool) (d : Opd) : State → Host.Outcome State Fault Refusal :=
  runI h { uni := true, dsts := [(d, 4)] } false fun _ => do
    let s ← get
    let e := s.cur.x.err.getD ⟨0, 0, 0, 0⟩
    let x := ((openBatches s).length + s.cur.x.batch * 2 ^ 16) + (e.cause + e.detail * 2 ^ 8 + e.batch * 2 ^ 16) * 2 ^ 32
      + e.addr * 2 ^ 64
    emitR (dstN d none 4 x) 0 (some 4)
    if clr then M.upd fun s => s.updX fun x => { x with err := none } else pure ()

end Sys2Proof.Machine
end

