-- ==== Sys2Proof/Machine/Fp.lean ====
section
/-! DEFINITION. Floating-point instructions (R92 to R95, R109 to R117). -/

namespace Sys2Proof

/-- Source modifiers of R94. -/
def AMod.nega (m : AMod) : Bool := m.x.getLsbD 0
def AMod.negb (m : AMod) : Bool := m.x.getLsbD 1
def AMod.negc (m : AMod) : Bool := m.x.getLsbD 2
def AMod.absa (m : AMod) : Bool := m.x.getLsbD 3

end Sys2Proof

namespace Sys2Proof.Machine

/-- Latencies of R89. -/
def latFp : Option Nat := some 4
def latFp64 : Option Nat := some 10

/-! ## Shapes -/

/-- A single-precision instruction with one source. -/
def fp1 (h : Hdr) (m : AMod) (lat : Option Nat) (d a : Opd) (f : Nat → Nat × Flags) :
    State → Host.Outcome State Fault Refusal :=
  runLanes h (.of d 1 [(a, 1)]) lat fun s ln =>
    let r := f (Fmt.f32.mods m.nega m.absa (srcF32 s ln a))
    (dstN d ln 1 r.1, r.2)

/-- A single-precision instruction with two sources. -/
def fp2 (h : Hdr) (m : AMod) (lat : Option Nat) (d a b : Opd) (f : Nat → Nat → Nat × Flags) :
    State → Host.Outcome State Fault Refusal :=
  runLanes h (.of d 1 [(a, 1), (b, 1)]) lat fun s ln =>
    let r := f (Fmt.f32.mods m.nega m.absa (srcF32 s ln a)) (Fmt.f32.mods m.negb false (srcF32 s ln b))
    (dstN d ln 1 r.1, r.2)

/-- A double-precision instruction with two sources. -/
def dp2 (h : Hdr) (m : AMod) (d a b : Opd) (f : Nat → Nat → Nat × Flags) : State → Host.Outcome State Fault Refusal :=
  runLanes h (.of d 2 [(a, 2), (b, 2)]) latFp64 fun s ln =>
    let r := f (Fmt.f64.mods m.nega m.absa (srcF64 s ln a)) (Fmt.f64.mods m.negb false (srcF64 s ln b))
    (dstN d ln 2 r.1, r.2)

/-- The element format of the packed instructions (R117). -/
def halfFmt (m : AMod) : Fmt := if m.ty == .bf16 then .bf16 else .f16

/-- A packed instruction: each element in its own format, the flags of both joined (R117). -/
def hp (h : Hdr) (m : AMod) (d a b c : Opd) (f : Nat → Nat → Nat → Nat × Flags) :
    State → Host.Outcome State Fault Refusal :=
  runLanes h (.of d 1 [(a, 1), (b, 1), (c, 1)]) latFp fun s ln =>
    let el := fun k => f ((halfFmt m).mods m.nega m.absa (srcF16 (halfFmt m) s ln a k)) ((halfFmt m).mods m.negb false (srcF16 (halfFmt m) s ln b k))
      ((halfFmt m).mods m.negc false (srcF16 (halfFmt m) s ln c k))
    let lo := el 0
    let hi := el 1
    (dstN d ln 1 (lo.1 + hi.1 * 2 ^ 16), lo.2 ||| hi.2)

/-! ## Single precision -/

def execFadd (h : Hdr) (m : AMod) (d a b : Opd) : State → Host.Outcome State Fault Refusal :=
  fp2 h m latFp d a b (Fmt.f32.add m.rnd m.sat m.ftz)
/-- a − b: b with its sign changed, which no rule distinguishes from a subtraction. -/
def execFsub (h : Hdr) (m : AMod) (d a b : Opd) : State → Host.Outcome State Fault Refusal :=
  fp2 h m latFp d a b fun x y => Fmt.f32.add m.rnd m.sat m.ftz x (Fmt.f32.mods true false y)
def execFmul (h : Hdr) (m : AMod) (d a b : Opd) : State → Host.Outcome State Fault Refusal :=
  fp2 h m latFp d a b (Fmt.f32.mul m.rnd m.sat m.ftz)
def execFfma (h : Hdr) (m : AMod) (d a b c : Opd) : State → Host.Outcome State Fault Refusal :=
  runLanes h (.of d 1 [(a, 1), (b, 1), (c, 1)]) latFp fun s ln =>
    let r := Fmt.f32.fma m.rnd m.sat m.ftz (Fmt.f32.mods m.nega m.absa (srcF32 s ln a))
      (Fmt.f32.mods m.negb false (srcF32 s ln b)) (Fmt.f32.mods m.negc false (srcF32 s ln c))
    (dstN d ln 1 r.1, r.2)
def execFmin (h : Hdr) (m : AMod) (d a b : Opd) : State → Host.Outcome State Fault Refusal :=
  fp2 h m latFp d a b (Fmt.f32.minmax false m.ftz)
def execFmax (h : Hdr) (m : AMod) (d a b : Opd) : State → Host.Outcome State Fault Refusal :=
  fp2 h m latFp d a b (Fmt.f32.minmax true m.ftz)
/-- The predicate of R112. -/
def execFsetp (h : Hdr) (m : AMod) (cmp : FCmp) (d a b : Opd) : State → Host.Outcome State Fault Refusal :=
  runLanes h (.of d 1 [(a, 1), (b, 1)]) latFp fun s ln =>
    let r := Fmt.f32.cmp cmp m.ftz (Fmt.f32.mods m.nega m.absa (srcF32 s ln a)) (Fmt.f32.mods m.negb false (srcF32 s ln b))
    (dstP d ln r.1, r.2)
def execFclass (h : Hdr) (m : AMod) (d a : Opd) : State → Host.Outcome State Fault Refusal :=
  fp1 h m latFp d a fun x => (Fmt.f32.classify x, 0)
def execFrcp (h : Hdr) (m : AMod) (d a : Opd) : State → Host.Outcome State Fault Refusal :=
  fp1 h m none d a (Fmt.f32.rcp m.sat m.ftz)
def execFrsq (h : Hdr) (m : AMod) (d a : Opd) : State → Host.Outcome State Fault Refusal :=
  fp1 h m none d a (Fmt.f32.rsq m.sat m.ftz)
def execFsqrt (h : Hdr) (m : AMod) (d a : Opd) : State → Host.Outcome State Fault Refusal :=
  fp1 h m none d a (Fmt.f32.sqrt m.rnd m.sat m.ftz)
def execFdiv (h : Hdr) (m : AMod) (d a b : Opd) : State → Host.Outcome State Fault Refusal :=
  fp2 h m none d a b (Fmt.f32.div m.rnd m.sat m.ftz)
def execFexp2 (h : Hdr) (m : AMod) (d a : Opd) : State → Host.Outcome State Fault Refusal :=
  fp1 h m none d a (Fmt.f32.exp2 m.sat m.ftz)
def execFlog2 (h : Hdr) (m : AMod) (d a : Opd) : State → Host.Outcome State Fault Refusal :=
  fp1 h m none d a (Fmt.f32.log2 m.sat m.ftz)
def execFsin (h : Hdr) (m : AMod) (d a : Opd) : State → Host.Outcome State Fault Refusal :=
  fp1 h m none d a (Fmt.f32.sinT m.sat m.ftz)
def execFcos (h : Hdr) (m : AMod) (d a : Opd) : State → Host.Outcome State Fault Refusal :=
  fp1 h m none d a (Fmt.f32.cosT m.sat m.ftz)
def execFrnd (h : Hdr) (m : AMod) (d a : Opd) : State → Host.Outcome State Fault Refusal :=
  fp1 h m latFp d a (Fmt.f32.frnd m.rnd m.ftz)

/-! ## Double precision (R116) -/

def execDadd (h : Hdr) (m : AMod) (d a b : Opd) : State → Host.Outcome State Fault Refusal :=
  dp2 h m d a b (Fmt.f64.add m.rnd m.sat m.ftz)
def execDmul (h : Hdr) (m : AMod) (d a b : Opd) : State → Host.Outcome State Fault Refusal :=
  dp2 h m d a b (Fmt.f64.mul m.rnd m.sat m.ftz)
def execDfma (h : Hdr) (m : AMod) (d a b c : Opd) : State → Host.Outcome State Fault Refusal :=
  runLanes h (.of d 2 [(a, 2), (b, 2), (c, 2)]) latFp64 fun s ln =>
    let r := Fmt.f64.fma m.rnd m.sat m.ftz (Fmt.f64.mods m.nega m.absa (srcF64 s ln a))
      (Fmt.f64.mods m.negb false (srcF64 s ln b)) (Fmt.f64.mods m.negc false (srcF64 s ln c))
    (dstN d ln 2 r.1, r.2)
def execDsetp (h : Hdr) (m : AMod) (cmp : FCmp) (d a b : Opd) : State → Host.Outcome State Fault Refusal :=
  runLanes h (.of d 1 [(a, 2), (b, 2)]) latFp64 fun s ln =>
    let r := Fmt.f64.cmp cmp m.ftz (Fmt.f64.mods m.nega m.absa (srcF64 s ln a)) (Fmt.f64.mods m.negb false (srcF64 s ln b))
    (dstP d ln r.1, r.2)

/-! ## Packed halves (R117) -/

def execHfma2 (h : Hdr) (m : AMod) (d a b c : Opd) : State → Host.Outcome State Fault Refusal :=
  hp h m d a b c ((halfFmt m).fma m.rnd m.sat m.ftz)
def execHadd2 (h : Hdr) (m : AMod) (d a b : Opd) : State → Host.Outcome State Fault Refusal :=
  hp h m d a b b fun x y _ => (halfFmt m).add m.rnd m.sat m.ftz x y
def execHmul2 (h : Hdr) (m : AMod) (d a b : Opd) : State → Host.Outcome State Fault Refusal :=
  hp h m d a b b fun x y _ => (halfFmt m).mul m.rnd m.sat m.ftz x y

end Sys2Proof.Machine
end

