-- ==== Sys2Proof/Machine/Zwiov.lean ====
section
/-! DEFINITION. Zwiov Link (R278 to R280): what other modules send and how it is answered, replayed flits, failed paths. -/

namespace Sys2Proof.Machine

/-- An access by another module ends with a cause: 1 no such place, 7 poison, 8 fabric-unreachable, 0x0A a live barrier word, 0x22 a
refused held update. -/
def zFault (src cause : Nat) (s : State) : State := { s with outs := s.outs ++ [.zwiovFault src cause] }

/-- The answer or the acknowledgement. -/
def zReply (src : Nat) (bs : List Byte) (s : State) : State := { s with outs := s.outs ++ [.zwiovReply src bs] }

/-- Bytes of a transfer (R278). -/
def zCount (n : Nat) : Nat := max 1 (min 4096 n)

/-- The partition in whose ranges an address lies. -/
def partAt (s : State) (pa : Nat) : Nat := ((List.range 16).find? fun p => s.inRanges p pa).getD 0

/-- Why the module turns an access away: its address is not local memory, or its partition is stopped (R411). -/
def zRefuse (s : State) (pa n : Nat) : Option Nat :=
  if !isDram pa || !isDram (pa + n - 1) then some 1
  else if (s.part (partAt s pa)).cfg.getLsbD 1 then some 8
  else none

/-- The first poisoned sector that bytes touch; a write does not meet one that it covers. -/
def zPoison (s : State) (wr : Bool) (pa n : Nat) : Option Nat :=
  s.poison.find? fun w => decide (pa < w + 64 ∧ w < pa + n) && !(wr && decide (pa ≤ w ∧ w + 64 ≤ pa + n))

def zRead (src pa n : Nat) (s : State) : State :=
  let n := zCount n
  match zRefuse s pa n with
  | some c => zFault src c s
  | none => match zPoison s false pa n with
    | some w => parkReq (partAt s pa) w (dieHome pa 0) pa 0#32 0x0041 (.remote src none n) s
    | none => zReply src (s.bytes pa n) s

def zWrite (src pa : Nat) (bs : List Byte) (s : State) : State :=
  let bs := bs.take 4096
  if bs.isEmpty then s
  else match zRefuse s pa bs.length with
    | some c => zFault src c s
    | none =>
      if s.touchesLive pa bs.length then zFault src 0x0A s
      else match zPoison s true pa bs.length with
        | some w => parkReq (partAt s pa) w (dieHome pa 0) pa 0#32 0x0041 (.remote src (some bs) bs.length) s
        | none => zReply src [] (s.setBytes pa bs)

def execZwiovRd (src pa n : Nat) : State → Host.Outcome State Fault Refusal := runE (zRead src pa n)
def execZwiovWr (src pa : Nat) (bytes : List Byte) : State → Host.Outcome State Fault Refusal := runE (zWrite src pa bytes)

/-- A held update from another module. -/
def zHeld (s : State) (id src pa : Nat) (op : AtomOp) (ty : Ty) (k : RemoteKey) (b : Qword) (red : Bool) : Held :=
  let l := s.launch? k.launch
  { id := id, launch := k.launch, cohort := 0, round := k.round, pa := pa, die := dieHome pa 0, va := pa, width := Ty.bytes ty, op := op
    glane := k.glane, seq := k.seq, value := b.extractLsb' 0 64, spilled := none, transit := false, red := red, pc := 0
    part := (l.map (·.part)).getD 0, asid := (l.map (·.asid)).getD 0, mask := 0#32, reg := none, src := some src }

/-- An atomic or a reduction of another module that meets neither a live barrier word nor poison. A reduction that carries a key and
the operation of an exchange, which no reduction has, stands for the other module's DRCLOSE up to the key's round (R280, log 63). -/
def zPerform (src pa : Nat) (op : AtomOp) (ty : Ty) (key : Option RemoteKey) (b c : Qword) (red : Bool) (s : State) : State :=
  let w := Ty.bytes ty
  let old := leNat (s.bytes pa w)
  match key with
  | some k =>
    let (id, s) := s.fresh
    landHeld (zHeld s id src pa op ty k b red) s
  | none =>
    let g := [(b.toNat, c.toNat)]
    let s := if AtomOp.fp op then breachAt pa w s else s
    let s := s.setBytes pa (leBytes w (groupRun false op ty old g).1)
    let ovf := if op == .fxadd then [if groupOver op ty old g then 1#8 else 0#8] else []
    zReply src (if red then [] else leBytes w old ++ ovf) s

/-- Another module's DRCLOSE closes the rounds that are held here; NEXT of the spill region follows (R256, R280). -/
def zClose (src : Nat) (k : RemoteKey) (s : State) : State :=
  let (ok, s') := closeRounds k.launch k.round s
  let s' := if openTo s k.launch k.round then (match resetNext k.launch s' with | .ok x => x | .error _ => s') else s'
  zReply src [if ok then 1#8 else 0#8] s'

/-- An atomic or a reduction of another module. -/
def zAtomic (src pa : Nat) (op : AtomOp) (ty : Ty) (key : Option RemoteKey) (b c : Qword) (red : Bool) (s : State) : State :=
  let w := Ty.bytes ty
  match (if red && op == .xchg then key else none) with
  | some k => zClose src k s
  | none => match zRefuse s pa w with
  | some x => zFault src x s
  | none =>
    if s.touchesLive pa w then zFault src 0x0A s
    else match zPoison s false pa w with
      | some k => parkReq (partAt s pa) k (dieHome pa 0) pa 0#32 0x0041 (.ratom src pa op ty key b c red) s
      | none => zPerform src pa op ty key b c red s

def execZwiovAt (src pa : Nat) (op : AtomOp) (ty : Ty) (key : Option RemoteKey) (b c : Qword) :
    State → Host.Outcome State Fault Refusal := runE (zAtomic src pa op ty key b c false)
def execZwiovRed (src pa : Nat) (op : AtomOp) (ty : Ty) (key : Option RemoteKey) (b : Qword) :
    State → Host.Outcome State Fault Refusal := runE (zAtomic src pa op ty key b 0 true)

/-- A requester with the tag of its copy. -/
def tagged (src tag : Nat) : Nat := src + 2 ^ 16 * (tag + 1)

/-- The bytes of a courier write before the first 16-byte unit that touches a live barrier word (R325). -/
def untilLive (s : State) (pa : Nat) (bs : List Byte) : List Byte :=
  match (List.range bs.length).find? fun k => s.live (pa + k) with
  | some k => bs.take ((pa + k) / 16 * 16 - pa)
  | none => bs

/-- CRD and CWR. -/
def execZwiovCourier (src tag pa n : Nat) (bytes : Option (List Byte)) : State → Host.Outcome State Fault Refusal :=
  runE fun s => match bytes with
    | none => zRead (tagged src tag) pa n s
    | some bs =>
      let ok := untilLive s pa (bs.take 4096)
      if ok.length < (bs.take 4096).length && (zRefuse s pa bs.length).isNone then zFault (tagged src tag) 0x0A (s.setBytes pa ok)
      else zWrite (tagged src tag) pa bs s

/-- A replayed flit: every flit is delivered exactly once and in order, so nothing changes. -/
def execFlitReplay (_port : Nat) : State → Host.Outcome State Fault Refusal := runE id

/-- The path to a module fails: its outstanding writes and reductions are lost for their cohorts, and so is what takes the path from
now on; loads and atomics fault there (log 64). -/
def execPathFailure (module : Nat) : State → Host.Outcome State Fault Refusal :=
  runE fun s =>
    (s.fabw.filter fun w => w.module == module).foldl (fun s w => postLate w.cohort Cause.fabWrite 0 1 w.pc w.mask w.done w.va s)
      ({ s with fabw := s.fabw.filter fun w => w.module != module }.updM fun m =>
        { m with fabDown := if m.fabDown.contains module then m.fabDown else m.fabDown ++ [module] })

end Sys2Proof.Machine
end

