-- ==== Sys2Proof/Machine/Host.lean ====
section
/-! DEFINITION. The host ordering point (R269 to R273, R276, R376): posted writes, their pieces, reads, doorbells; and parked
requests as they replay or are given up (R399, R400). -/

namespace Sys2Proof.Machine

/-! ## Inbound addresses (R376) -/

/-- The agent of inbound accesses to BAR2: none when the partition is disabled or its tenant may not be named. -/
def hostAgent (s : State) (off : Nat) : Option Agent :=
  let p := off / 2 ^ 57 % 16
  let a := ((s.part p).cfg.extractLsb' 16 16).toNat
  if !(s.part p).cfg.getLsbD 0 then none
  else match tenant? s p a with
    | some t => if tHost t then some ⟨p, a, tPriv t, 2 ^ 52, none, none, none⟩ else none
    | none => none

/-- Virtual address of an offset of BAR2: the offset sign-extended to a canonical address. -/
def hostVa (off : Nat) : Nat := let v := off % 2 ^ 57; if v / 2 ^ 56 == 1 then v + (2 ^ 64 - 2 ^ 57) else v

/-- A host-access error: reported and counted. -/
def hostError (part off : Nat) (s : State) : State := State.countMisc { s with outs := s.outs ++ [Outp.hostError off] } part

/-- Place and home die of a byte of an inbound access. -/
def hostByte (s : State) (g : Agent) (acc : Acc) (va : Nat) : Except Wk (Nat × Nat × Tr) :=
  match xlate s g.part g.asid g.priv acc va with
  | .ok t => .ok (if isDram t.pa then Pte.home t.pte else 4, t.pa, t)
  | w => .error w

/-- The places of the bytes of a write: die, physical and virtual address; none where one cannot be translated. A wait is passed
on. -/
def hostBytes (s : State) (g : Agent) (va : Nat) : List Byte → Except Wk (List (Nat × Nat × Nat × Byte))
  | [] => .ok []
  | b :: l => match hostByte s g .store va, hostBytes s g (va + 1) l with
    | .ok (d, pa, _), .ok r => .ok ((d, pa, va, b) :: r)
    | .error .busy, _ => .error .busy
    | _, .error .busy => .error .busy
    | .error w, _ => .error w
    | _, .error w => .error w

/-- The walks of an inbound access raise heat, one on each page (R363). -/
def heatHost (g : Agent) (acc : Acc) (va n : Nat) (s : State) : State :=
  (List.range n).foldl (fun s k =>
    if k == 0 || (va + k) % 4096 == 0 then
      match xlate s g.part g.asid g.priv acc (va + k) with
      | .ok t => heatFor g.part acc t.at_ s
      | _ => s
    else s) s

/-- The pieces of a write, one for each home die. -/
def piecesOf (l : List (Nat × Nat × Nat × Byte)) : List (Nat × List (Nat × Nat × Byte)) :=
  ((l.map (·.1)).eraseDups).map fun d => (d, (l.filter fun e => e.1 == d).map (·.2))

/-! ## Sequence numbers (R269, R273) -/

/-- Is every piece of a write acknowledged? -/
def HopW.acked (w : HopW) : Bool := w.pieces.isEmpty && w.raw.isNone

/-- VISIBLE: the writes before the first one that has a piece left are acknowledged. -/
def settleHop (s : State) : State :=
  let h := s.hop.dropWhile HopW.acked
  { s with hop := h }.updM fun m =>
    { m with hopVisible := match h with | w :: _ => BitVec.ofNat 32 w.seq - 1#32 | [] => m.hopAssigned }

/-- A write takes its sequence number. -/
def assignHop (part asid : Nat) (ps : List (Nat × List (Nat × Nat × Byte))) (raw : Option (Nat × List Byte)) (s : State) : State :=
  let n := s.m.hopAssigned + 1#32
  settleHop { (s.updM fun m => { m with hopAssigned := n }) with hop := s.hop ++ [⟨n.toNat, part, asid, ps, raw⟩] }

/-- An inbound posted write to BAR2 arrives. One that meets a BUSY page holds its place in the order until it is translated. -/
def execHostPostedWrite (off : Nat) (bytes : List Byte) : State → Host.Outcome State Fault Refusal :=
  runE fun s =>
    let p := off / 2 ^ 57 % 16
    match hostAgent s off with
    | none => assignHop p 0 [] none (hostError p off s)
    | some g => match hostBytes s g (hostVa off) bytes with
      | .ok l => assignHop p g.asid (piecesOf l) none (heatHost g .store (hostVa off) bytes.length s)
      | .error .busy => assignHop p g.asid [] (some (off, bytes)) s
      | .error _ => assignHop p g.asid [] none (hostError p off s)

/-- The first write, which met a BUSY page, is translated again. -/
def retryHop (s : State) : State :=
  match s.hop with
  | w :: rest => match w.raw with
    | some (off, bytes) =>
      let put := fun (ps : List (Nat × List (Nat × Nat × Byte))) (s : State) =>
        settleHop { s with hop := { w with pieces := ps, raw := none } :: rest }
      match hostAgent s off with
      | none => put [] (hostError w.part off s)
      | some g => match hostBytes s g (hostVa off) bytes with
        | .ok l => put (piecesOf l) (heatHost g .store (hostVa off) bytes.length s)
        | .error .busy => s
        | .error _ => put [] (hostError w.part off s)
    | none => s
  | [] => s

/-- A doorbell arrives: an ordinary write of the HOP, to the mailboxes. -/
def execDoorbell (off : Nat) (bytes : List Byte) : State → Host.Outcome State Fault Refusal :=
  runE fun s => assignHop 0 0 [(8, ((List.range bytes.length).zip bytes).map fun (k, b) => (off + k, off + k, b))] none s

/-! ## Pieces (R270, R325, R340, R399) -/

/-- The number under which a piece's requests park. -/
def pieceKey (seq die : Nat) : Nat := 2 ^ 53 + 16 * seq + die

/-- What a piece meets before it performs: nothing, or a poisoned sector that it does not cover. -/
inductive PieceAt where
  | go | parked
  | park (sector : Nat)
deriving DecidableEq, Repr

/-- Does a piece write every byte of a sector? -/
def coversSector (bs : List (Nat × Byte)) (w : Nat) : Bool := (List.range 64).all fun k => bs.any fun e => e.1 == w + k

def pieceAt (s : State) (key : Nat) (bs : List (Nat × Byte)) : PieceAt :=
  let hit := ((bs.map fun e => e.1 / 64 * 64).eraseDups).filter fun w => isDram w && s.poison.contains w && !coversSector bs w
  match hit with
  | [] => .go
  | w :: _ => if s.parked.any fun q => q.pa == w && q.req == Req.engine key then .parked else .park w

/-- A piece performs: bytes in a live barrier word are dropped and reported. -/
def performPiece (part : Nat) (bs : List (Nat × Byte)) (s : State) : State :=
  let ok := bs.filter fun e => !s.live e.1
  let sect := ((bs.map fun e => e.1 / 64 * 64).eraseDups).filter (coversSector ok)
  let s := ok.foldl (fun s (a, b) => putByte (locate s part a) b s) s
  let s := { s with poison := s.poison.filter fun w => !sect.contains w }
  if ok.length < bs.length then hostError part (bs.headD (0, 0#8)).1 s else s

/-- Ask the procedural blocks that a piece's bytes lie in. -/
def askPiece (part asid : Nat) : List (Nat × Nat × Byte) → State → Ask × State
  | [], s => (.go, s)
  | (_, va, _) :: l, s => match xlate s part asid true .store va with
    | .ok t => match askAt part asid none t s with
      | (.go, s) => askPiece part asid l s
      | x => x
    | _ => askPiece part asid l s

/-- The first write that is not acknowledged has its piece for a die performed and acknowledged; pieces behind it wait (R270). A
doorbell whose ring is not to be reached yet stays (R276). -/
def execHopPieceAck (seq die : Nat) : State → Host.Outcome State Fault Refusal :=
  runE fun s =>
    let s := retryHop s
    match s.hop with
    | [] => s
    | w :: rest =>
      match w.pieces.find? fun p => p.1 == die with
      | none => s
      | some (_, ps) =>
        let bs := ps.map fun e => (e.1, e.2.2)
        let at_ := (bs.headD (0, 0#8)).1
        let key := pieceKey seq die
        let done := fun (s : State) => settleHop { s with
          hop := { w with pieces := w.pieces.filter fun p => p.1 != die } :: rest
          parked := s.parked.filter fun q => q.req != Req.engine key
          refused := s.refused.filter fun e => e.1 != key }
        if w.seq != seq then s
        else if die == 8 then
          match ringDoorbell at_ (bs.map (·.2)) s with
          | (true, s) => done s
          | (false, s) => s
        else if s.refused.any fun e => e.1 == key then done (hostError w.part at_ s)
        else match askPiece w.part w.asid ps s with
          | (.go, s) => match pieceAt s key bs with
            | .go => done (performPiece w.part bs s)
            | .parked => s
            | .park k => parkReq w.part k die k 0#32 0x0041 (.engine key) s
          | (.wait _, s) =>
            if s.parked.any fun q => q.req == Req.engine key then s else parkReq w.part at_ die at_ 0#32 0x0042 (.engine key) s
          | (_, s) => done (hostError w.part at_ s)

/-! ## Reads (R271) -/

/-- What an inbound read comes to: its bytes with the reads that leave for other modules, an error, a wait for a BUSY page, a
sector or block that parks it. -/
inductive HostGot where
  | bytes (l : List Byte) (far : List (Nat × Nat))
  | error
  | wait
  | park (pa die cause : Nat)

def hostRd (s : State) (g : Agent) (va : Nat) : Nat → HostGot
  | 0 => .bytes [] []
  | n + 1 => match hostByte s g .load va with
    | .error .busy => .wait
    | .error _ => .error
    | .ok (die, pa, t) =>
      if isDram pa && s.poisoned pa then .park pa die 0x0041
      else match askAt g.part g.asid none t s with
        | (.go, _) =>
          let b := match t.loc s g.part with
            | .dram pa _ => some (s.byte pa, [])
            | .chip pa => if isSp pa && spPoisoned s pa 1 then none else some (chipByte s pa, [])
            | .host x => some (s.byte (0xC_0000_0000_0000 + x), [])
            | .remote md o => if s.m.fabDown.contains md then none else some (Config.remoteByte s.pick o, [(md, o)])
            | .bus => none
          match b, hostRd s g (va + 1) n with
          | some (b, f), .bytes l far => .bytes (b :: l) (f ++ far)
          | none, _ => .error
          | _, x => x
        | (.wait _, _) => .park pa die 0x0042
        | (_, _) => .error

/-- The fills that a waiting read asks for. -/
def hostAsk (g : Agent) (va n : Nat) (s : State) : State :=
  (List.range n).foldl (fun s k => match hostByte s g .load (va + k) with
    | .ok (_, _, t) => (askAt g.part g.asid none t s).2
    | .error _ => s) s

/-- A read returns its bytes; those of another module come from it (R355). -/
def hostGive (l : List Byte) (far : List (Nat × Nat)) (s : State) : State :=
  let (_, s) := s.draw
  { s with outs := s.outs ++ far.map (fun (md, o) => Outp.zwiov md o (.rd 1)) ++ [.hostReply l] }

/-- A read of BAR2 performs; none where a BUSY page lets it wait. -/
def performRead (off n : Nat) (s : State) : Option State :=
  let p := off / 2 ^ 57 % 16
  match hostAgent s off with
  | none => some (hostError p off s)
  | some g => match hostRd s g (hostVa off) n with
    | .bytes l far => some (hostGive l far (heatHost g .load (hostVa off) n s))
    | .error => some (hostError p off s)
    | .wait => none
    | .park pa die c => some (parkReq p pa die (hostVa off) 0#32 c (.host none n) (hostAsk g (hostVa off) n s))

/-- The reads that waited perform once every earlier write is acknowledged. -/
def settleReads (s : State) : State :=
  s.reads.foldl (fun s r =>
    if r.after.any fun n => s.hop.any fun w => w.seq == n then { s with reads := s.reads ++ [r] }
    else match performRead r.off r.n s with
      | some s => s
      | none => { s with reads := s.reads ++ [r] }) { s with reads := [] }

/-- An inbound read of BAR2, which waits until every earlier write is acknowledged. Offsets from 2^61 on stand for those of BAR0, which
do not pass through the HOP but for the mailboxes. -/
def execHostRead (off n : Nat) : State → Host.Outcome State Fault Refusal :=
  runE fun s =>
    if 2 ^ 61 ≤ off then
      let o := off - 2 ^ 61
      { s with outs := s.outs ++ [.hostReply ((List.range n).map fun k =>
          byteOf ((barRead s ((o + k) / 8 * 8)).extractLsb' (32 * ((o + k) % 8 / 4)) 32) ((o + k) % 4))] }
    else settleReads { s with reads := s.reads ++ [⟨off / 2 ^ 57 % 16, off, n, s.hop.map (·.seq)⟩] }

/-! ## The conservation queue (R399, R400) -/

/-- A request parks: kind 0 an uncorrectable read, whose sector is then poisoned; 1 a poisoned sector; 2 an unfilled block. -/
def execParkedRequest (part pa kind : Nat) : State → Host.Outcome State Fault Refusal :=
  runE fun s =>
    let w := pa / 64 * 64
    let s := if kind == 0 && !s.poison.contains w then { s with poison := s.poison ++ [w] } else s
    parkReq part pa (dieHome pa 0) pa 0#32 (0x0040 + min kind 2) .other s

/-- A replayed load performs as its lane's would have, and writes its destination. -/
def replayLoad (q : Parked) (cohort reg lane pa : Nat) (uni : Bool) (ty : Ty) (sc : Scope) (ca : Cache) (s : State) : State :=
  (asCohort cohort () (fun s =>
    match loadAt (.dram pa q.die) q.va (Ty.bytes ty) sc ca q.mask q.req s with
    | (.val bs, s) => ((), landLoad cohort reg lane uni ty bs s)
    | (_, s) => ((), s)) s).2

/-- A replayed store performs at the home: the line's dirty bytes first, bytes in a live barrier word dropped and counted, the copy
in the core's L1 follows (R215, R216, R325, log 61). -/
def replayStore (core : Option Nat) (part : Nat) (data : List (Nat × Byte)) (s : State) : State :=
  let s := homeFirst core ((data.headD (0, 0#8)).1) s
  let ok := data.filter fun e => !s.live e.1
  let s := if ok.length < data.length then s.countMisc part else s
  match core with
  | some c => ok.foldl (fun s (a, b) => pokeL1 c a [b] false s) (putBytes ok s)
  | none => putBytes ok s

/-- A replayed atomic group performs as its instruction would have. -/
def replayAtom (q : Parked) (cohort : Nat) (reg : Option Nat) (pa : Nat) (op : AtomOp) (ty : Ty) (sc : Scope) (det : Bool)
    (lanes : List (Nat × Qword × Qword)) (s : State) : State :=
  let g := lanes.map fun (_, b, c) => (b.toNat, c.toNat)
  (asCohort cohort () (fun s =>
    let ((got, olds, ov), s) := groupAt (.dram pa q.die) q.va sc reg.isNone det op ty g q.mask q.req s
    match got with
    | .val _ =>
      let ws := match reg with
        | some n => (lanes.zip olds).flatMap fun ((l, _, _), x) => dstN (.v (BitVec.ofNat 8 n)) (some l) ty.regs x
        | none => []
      ((), s.updCur fun c => { c with r := Pend.apply ⟨ws, if ov then Fl.overflow else 0, none⟩ c.r })
    | .fault t => ((), postLate cohort Cause.poison 1 1 s.cur.pc q.mask (doneBut q.mask q.req.lanes) t.addr s)
    | .parked => ((), s)) s).2

/-- Is a parked request's sector repaired, or its block filled? -/
def replayable (s : State) (q : Parked) : Bool :=
  (if q.cause == 0x0042 then
    match q.req with
    | .host _ n => match hostAgent s (q.part * 2 ^ 57 + q.va % 2 ^ 57) with
      | some g => match hostRd s g q.va n with | .park _ _ _ => false | .wait => false | _ => true
      | none => true
    | _ => true
  else !s.poison.contains q.pa) && (s.parked.find? fun x => x.pa == q.pa && x.die == q.die) == some q

/-- The request performs. Those of engines and copies are tried again as wholes by their owners. -/
def replayReq (q : Parked) (s : State) : State :=
  match q.req with
  | .load c reg lane pa ty sc ca _ => replayLoad q c reg lane pa false ty sc ca s
  | .sload c reg pa ty sc ca _ => replayLoad q c reg 0 pa true ty sc ca s
  | .store _ _ data _ => replayStore q.core q.part data s
  | .wback _ data => replayStore none q.part data s
  | .atom c reg pa op ty sc det lanes _ => replayAtom q c reg pa op ty sc det lanes s
  | .held h => landHeld h s
  | .host none n => match hostAgent s (q.part * 2 ^ 57 + q.va % 2 ^ 57) with
    | some g => match hostRd s g q.va n with
      | .bytes l far => hostGive l far s
      | .error => hostError q.part q.va s
      | .wait | .park _ _ _ => { s with reads := s.reads ++ [⟨q.part, q.part * 2 ^ 57 + q.va % 2 ^ 57, n, []⟩] }
    | none => hostError q.part q.va s
  | .host (some _) _ => s
  | .remote src none n => zRead src q.va n s
  | .remote src (some bs) _ => zWrite src q.va bs s
  | .ratom src pa op ty key b c red => zAtomic src pa op ty key b c red s
  | .copy _ | .engine _ | .other => s

def execParkedReplay (n : Nat) : State → Host.Outcome State Fault Refusal :=
  runE fun s => match s.parked.find? fun q => q.id == n with
    | none => s
    | some q => if replayable s q then replayReq q { s with parked := s.parked.filter fun x => x.id != n } else s

/-- A sector that has been parked for CQTMO ms: every request of the partition on it is refused (R400). -/
def execConservationTimeout (n : Nat) : State → Host.Outcome State Fault Refusal :=
  runE fun s => match s.parked.find? fun q => q.id == n with
    | none => s
    | some q =>
      let tmo := ((s.part q.part).fltCtl.extractLsb' 32 16).toNat
      let since := ((s.parked.filter fun x => x.pa == q.pa && x.part == q.part).map (·.since)).foldl min q.since
      if tmo == 0 || s.m.time < since + tmo * 1000000 then s
      else writeCqdisc q.part (BitVec.ofNat 64 q.pa) s

end Sys2Proof.Machine
end

