-- ==== Sys2Proof/Machine/Int.lean ====
section
/-! DEFINITION. Integer, bit and address instructions (R96 to R108). -/

namespace Sys2Proof.Machine

/-- Signed or unsigned by TYPE (R97). -/
def Ty.signed : Ty → Bool
  | .s8 | .s16 | .s32 | .s64 => true
  | _ => false

/-- The integer a 32-bit value stands for under its TYPE. -/
def intOf (sg : Bool) (x : Word) : Int := if sg then x.toInt else x.toNat
/-- The integer a 64-bit value stands for under its TYPE. -/
def intOf64 (sg : Bool) (x : Dword) : Int := if sg then x.toInt else x.toNat

/-- An exact integer as a result: clamped under SAT, wrapped otherwise (R98). -/
def fit32 (sat sg : Bool) (x : Int) : Word := BitVec.ofInt 32 (if sat then clampInt 32 sg x else x)
def fit64 (sat sg : Bool) (x : Int) : Dword := BitVec.ofInt 64 (if sat then clampInt 64 sg x else x)

/-- Latencies of R89. -/
def latInt : Option Nat := some 4
def latMul : Option Nat := some 6

/-- A 32-bit integer instruction with two sources. -/
def int2 (h : Hdr) (lat : Option Nat) (d a b : Opd) (f : Word → Word → Word) : State → Host.Outcome State Fault Refusal :=
  runLanes h (.of d 1 [(a, 1), (b, 1)]) lat fun s ln => (dst32 d ln (f (src32 s ln a) (src32 s ln b)), 0)

/-- A 32-bit integer instruction with three sources. -/
def int3 (h : Hdr) (lat : Option Nat) (d a b c : Opd) (f : Word → Word → Word → Word) :
    State → Host.Outcome State Fault Refusal :=
  runLanes h (.of d 1 [(a, 1), (b, 1), (c, 1)]) lat fun s ln =>
    (dst32 d ln (f (src32 s ln a) (src32 s ln b) (src32 s ln c)), 0)

/-- A 32-bit integer instruction with one source. -/
def int1 (h : Hdr) (lat : Option Nat) (d a : Opd) (f : Word → Word) : State → Host.Outcome State Fault Refusal :=
  runLanes h (.of d 1 [(a, 1)]) lat fun s ln => (dst32 d ln (f (src32 s ln a)), 0)

/-! ## Arithmetic (R97 to R99) -/

def execIadd (h : Hdr) (m : AMod) (d a b : Opd) : State → Host.Outcome State Fault Refusal :=
  int2 h latInt d a b fun x y => fit32 m.sat (Ty.signed m.ty) (intOf (Ty.signed m.ty) x + intOf (Ty.signed m.ty) y)
def execIsub (h : Hdr) (m : AMod) (d a b : Opd) : State → Host.Outcome State Fault Refusal :=
  int2 h latInt d a b fun x y => fit32 m.sat (Ty.signed m.ty) (intOf (Ty.signed m.ty) x - intOf (Ty.signed m.ty) y)
def execImul (h : Hdr) (m : AMod) (d a b : Opd) : State → Host.Outcome State Fault Refusal :=
  int2 h latMul d a b fun x y => fit32 m.sat (Ty.signed m.ty) (intOf (Ty.signed m.ty) x * intOf (Ty.signed m.ty) y)
/-- Bits [63:32] of the exact product. -/
def execImulh (h : Hdr) (m : AMod) (d a b : Opd) : State → Host.Outcome State Fault Refusal :=
  int2 h latMul d a b fun x y =>
    (BitVec.ofInt 64 (intOf (Ty.signed m.ty) x * intOf (Ty.signed m.ty) y)).extractLsb' 32 32
def execImad (h : Hdr) (m : AMod) (d a b c : Opd) : State → Host.Outcome State Fault Refusal :=
  int3 h latMul d a b c fun x y z =>
    fit32 m.sat (Ty.signed m.ty)
      (intOf (Ty.signed m.ty) x * intOf (Ty.signed m.ty) y + intOf (Ty.signed m.ty) z)

/-- Quotient and remainder of R99. -/
def idiv (sg : Bool) (x y : Word) : Word × Word :=
  if y == 0#32 then (0xFFFF_FFFF#32, x)
  else if sg && x == 0x8000_0000#32 && y == 0xFFFF_FFFF#32 then (0x8000_0000#32, 0#32)
  else (BitVec.ofInt 32 ((intOf sg x).tdiv (intOf sg y)), BitVec.ofInt 32 ((intOf sg x).tmod (intOf sg y)))

def execIdiv (h : Hdr) (m : AMod) (d a b : Opd) : State → Host.Outcome State Fault Refusal :=
  int2 h none d a b fun x y => (idiv (Ty.signed m.ty) x y).1
def execIrem (h : Hdr) (m : AMod) (d a b : Opd) : State → Host.Outcome State Fault Refusal :=
  int2 h none d a b fun x y => (idiv (Ty.signed m.ty) x y).2
def execImin (h : Hdr) (m : AMod) (d a b : Opd) : State → Host.Outcome State Fault Refusal :=
  int2 h latInt d a b fun x y => if intOf (Ty.signed m.ty) x ≤ intOf (Ty.signed m.ty) y then x else y
def execImax (h : Hdr) (m : AMod) (d a b : Opd) : State → Host.Outcome State Fault Refusal :=
  int2 h latInt d a b fun x y => if intOf (Ty.signed m.ty) x ≤ intOf (Ty.signed m.ty) y then y else x
def execIabs (h : Hdr) (m : AMod) (d a : Opd) : State → Host.Outcome State Fault Refusal :=
  int1 h latInt d a fun x => fit32 m.sat true (x.toInt.natAbs : Int)
def execIneg (h : Hdr) (m : AMod) (d a : Opd) : State → Host.Outcome State Fault Refusal :=
  int1 h latInt d a fun x => fit32 m.sat true (-x.toInt)

/-! ## Bitwise (R97, R100) -/

/-- A bitwise instruction: its predicate form, and its data forms of one or two registers. -/
def logic2 (h : Hdr) (m : AMod) (d a b : Opd) (fb : Bool → Bool → Bool) (fw : Word → Word → Word)
    (fd : Dword → Dword → Dword) : State → Host.Outcome State Fault Refusal :=
  if d.cls == .p || d.cls == .q then
    runLanes h (.of d 1 [(a, 1), (b, 1)]) latInt fun s ln => (dstP d ln (fb (srcP s ln a) (srcP s ln b)), 0)
  else if m.ty == .u64 then
    runLanes h (.of d 2 [(a, 2), (b, 2)]) latInt fun s ln =>
      (dstN d ln 2 (fd (src64 s ln a) (src64 s ln b)).toNat, 0)
  else int2 h latInt d a b fw

def execAnd (h : Hdr) (m : AMod) (d a b : Opd) : State → Host.Outcome State Fault Refusal :=
  logic2 h m d a b (· && ·) (· &&& ·) (· &&& ·)
def execOr (h : Hdr) (m : AMod) (d a b : Opd) : State → Host.Outcome State Fault Refusal :=
  logic2 h m d a b (· || ·) (· ||| ·) (· ||| ·)
def execXor (h : Hdr) (m : AMod) (d a b : Opd) : State → Host.Outcome State Fault Refusal :=
  logic2 h m d a b xor (· ^^^ ·) (· ^^^ ·)
def execAndn (h : Hdr) (m : AMod) (d a b : Opd) : State → Host.Outcome State Fault Refusal :=
  logic2 h m d a b (fun x y => x && !y) (fun x y => x &&& ~~~y) (fun x y => x &&& ~~~y)
def execNot (h : Hdr) (m : AMod) (d a : Opd) : State → Host.Outcome State Fault Refusal :=
  logic2 h m d a a (fun x _ => !x) (fun x _ => ~~~x) (fun x _ => ~~~x)

/-! ## Shifts and rotates (R101) -/

/-- A shift of one or two registers by the low 32 bits of b, which is as wide as a (R97). -/
def shift (h : Hdr) (wide : Bool) (d a b : Opd) (fw : Word → Nat → Word) (fd : Dword → Nat → Dword) :
    State → Host.Outcome State Fault Refusal :=
  if wide then
    runLanes h (.of d 2 [(a, 2), (b, 2)]) latInt fun s ln =>
      (dstN d ln 2 (fd (src64 s ln a) ((src64 s ln b).extractLsb' 0 32).toNat).toNat, 0)
  else int2 h latInt d a b fun x y => fw x y.toNat

/-- A shift that gives 0 once the count reaches the width. -/
def shlBv {w : Nat} (x : BitVec w) (n : Nat) : BitVec w := if n < w then x <<< n else 0#w
def shrBv {w : Nat} (x : BitVec w) (n : Nat) : BitVec w := if n < w then x >>> n else 0#w
def sarBv {w : Nat} (x : BitVec w) (n : Nat) : BitVec w := x.sshiftRight (if n < w then n else w)

def execShl (h : Hdr) (m : AMod) (d a b : Opd) : State → Host.Outcome State Fault Refusal :=
  shift h (m.ty == .u64) d a b shlBv shlBv
def execShr (h : Hdr) (m : AMod) (d a b : Opd) : State → Host.Outcome State Fault Refusal :=
  shift h (m.ty == .u64) d a b shrBv shrBv
def execSar (h : Hdr) (m : AMod) (d a b : Opd) : State → Host.Outcome State Fault Refusal :=
  shift h (m.ty == .s64) d a b sarBv sarBv
def execRol (h : Hdr) (m : AMod) (d a b : Opd) : State → Host.Outcome State Fault Refusal :=
  shift h (m.ty == .u64) d a b (fun x n => x.rotateLeft (n % 32)) (fun x n => x.rotateLeft (n % 64))
def execRor (h : Hdr) (m : AMod) (d a b : Opd) : State → Host.Outcome State Fault Refusal :=
  shift h (m.ty == .u64) d a b (fun x n => x.rotateRight (n % 32)) (fun x n => x.rotateRight (n % 64))

/-! ## Fields, counts, bytes (R102 to R104) -/

/-- BFE of R102. -/
def bfe (sg : Bool) (x y : Word) : Word :=
  let pos := (y.extractLsb' 0 8).toNat
  let len := (y.extractLsb' 8 8).toNat
  if 32 ≤ pos || len == 0 then 0#32
  else
    let e := min len (32 - pos)
    let f := nbits x.toNat (pos + e - 1) pos
    if sg then BitVec.ofInt 32 (sextInt e f) else BitVec.ofNat 32 f

/-- BFI of R102. -/
def bfi (x y z : Word) : Word :=
  let pos := (y.extractLsb' 0 8).toNat
  let len := (y.extractLsb' 8 8).toNat
  if 32 ≤ pos || len == 0 then z
  else
    let e := min len (32 - pos)
    let msk : Word := BitVec.ofNat 32 ((2 ^ e - 1) * 2 ^ pos)
    (z &&& ~~~msk) ||| ((x <<< pos) &&& msk)

def execBfe (h : Hdr) (m : AMod) (d a b : Opd) : State → Host.Outcome State Fault Refusal :=
  int2 h latInt d a b (bfe (Ty.signed m.ty))
def execBfi (h : Hdr) (_m : AMod) (d a b c : Opd) : State → Host.Outcome State Fault Refusal :=
  int3 h latInt d a b c bfi

/-- A count over one or two registers, in one. -/
def count (h : Hdr) (m : AMod) (d a : Opd) (f : Nat → Nat → Nat) : State → Host.Outcome State Fault Refusal :=
  runLanes h (.of d 1 [(a, m.ty.regs)]) latInt fun s ln =>
    (dst32 d ln (BitVec.ofNat 32 (f (32 * m.ty.regs) (srcN s ln m.ty.regs a))), 0)

/-- Leading zeros of a number of `w` bits. -/
def leading (w x : Nat) : Nat := if x == 0 then w else w - 1 - ilog2 x

def execPopc (h : Hdr) (m : AMod) (d a : Opd) : State → Host.Outcome State Fault Refusal := count h m d a popCount
def execClz (h : Hdr) (m : AMod) (d a : Opd) : State → Host.Outcome State Fault Refusal := count h m d a leading
def execCtz (h : Hdr) (m : AMod) (d a : Opd) : State → Host.Outcome State Fault Refusal := count h m d a trailing
def execBrev (h : Hdr) (m : AMod) (d a : Opd) : State → Host.Outcome State Fault Refusal :=
  runLanes h (.of d m.ty.regs [(a, m.ty.regs)]) latInt fun s ln =>
    (dstN d ln m.ty.regs (bitRev (32 * m.ty.regs) (srcN s ln m.ty.regs a)), 0)

/-- Result byte k of BYTEPERM (R104). -/
def permByte (x y z : Word) (k : Nat) : Byte :=
  let nib := nbits z.toNat (4 * k + 3) (4 * k)
  let b := (y ++ x).extractLsb' (8 * (nib % 8)) 8
  if nib < 8 then b else if b.getLsbD 7 then 0xFF#8 else 0x00#8
def byteperm (x y z : Word) : Word := permByte x y z 3 ++ permByte x y z 2 ++ permByte x y z 1 ++ permByte x y z 0

def execByteperm (h : Hdr) (_m : AMod) (d a b c : Opd) : State → Host.Outcome State Fault Refusal :=
  int3 h latInt d a b c byteperm

/-! ## Compare and move (R105, R106) -/

/-- The relations of R105 on exact integers. -/
def icmp (op : ICmp) (x y : Int) : Bool :=
  match op with
  | .eq => x == y
  | .ne => x != y
  | .lt => decide (x < y)
  | .le => decide (x ≤ y)
  | .gt => decide (y < x)
  | .ge => decide (y ≤ x)

/-- A predicate destination has the class of its form: P in lane form, Q in uniform form. -/
def execIsetp (h : Hdr) (m : AMod) (cmp : ICmp) (d a b : Opd) : State → Host.Outcome State Fault Refusal :=
  let k := m.ty.regs
  let sg := Ty.signed m.ty
  runLanes h (.of d 1 [(a, k), (b, k)]) latInt fun s ln =>
    (dstP d ln (icmp cmp (intVal (32 * k) sg (srcN s ln k a)) (intVal (32 * k) sg (srcN s ln k b))), 0)

def execSel (h : Hdr) (m : AMod) (d a b c : Opd) : State → Host.Outcome State Fault Refusal :=
  let k := m.ty.regs
  runLanes h (.of d k [(a, k), (b, k), (c, 1)]) latInt fun s ln =>
    (dstN d ln k (if srcP s ln c then srcN s ln k a else srcN s ln k b), 0)

def execMov (h : Hdr) (m : AMod) (d a : Opd) : State → Host.Outcome State Fault Refusal :=
  let k := m.ty.regs
  runLanes h (.of d k [(a, k)]) latInt fun s ln => (dstN d ln k (srcN s ln k a), 0)

/-- The value that MOVI writes: IMM, its extensions, or IMM in the upper word (R106). -/
def moviVal (m : AMod) (x : Word) : Nat :=
  if m.ty == .u64 then (if m.x == 1#4 then x.toNat * 2 ^ 32 else x.toNat)
  else if m.ty == .s64 then (x.signExtend 64).toNat
  else x.toNat

def execMovi (h : Hdr) (m : AMod) (d : Opd) (x : Word) : State → Host.Outcome State Fault Refusal :=
  runLanes h (.of d m.ty.regs []) latInt fun _ ln => (dstN d ln m.ty.regs (moviVal m x), 0)

/-! ## Addresses and 64-bit sums (R107, R108) -/

def execLea (h : Hdr) (m : AMod) (d a b : Opd) : State → Host.Outcome State Fault Refusal :=
  runLanes h (.of d 2 [(a, 2), (b, 1)]) latInt fun s ln =>
    let y := src32 s ln b
    let e : Dword := if m.ty == .s32 then y.signExtend 64 else y.zeroExtend 64
    (dstN d ln 2 (src64 s ln a + (e <<< m.x.toNat)).toNat, 0)

def execIadd64 (h : Hdr) (m : AMod) (d a b : Opd) : State → Host.Outcome State Fault Refusal :=
  let sg := Ty.signed m.ty
  runLanes h (.of d 2 [(a, 2), (b, 2)]) latMul fun s ln =>
    (dstN d ln 2 (fit64 m.sat sg (intOf64 sg (src64 s ln a) + intOf64 sg (src64 s ln b))).toNat, 0)

def execImad64 (h : Hdr) (m : AMod) (d a b c : Opd) : State → Host.Outcome State Fault Refusal :=
  let sg := Ty.signed m.ty
  runLanes h (.of d 2 [(a, 1), (b, 1), (c, 2)]) latMul fun s ln =>
    (dstN d ln 2
      (fit64 m.sat sg (intOf sg (src32 s ln a) * intOf sg (src32 s ln b) + intOf64 sg (src64 s ln c))).toNat, 0)

end Sys2Proof.Machine
end

