-- ==== Sys2Proof/Machine/Lane.lean ====
section
/-! DEFINITION. Lane and cohort instructions (R123 to R132). -/

namespace Sys2Proof.Machine

/-- The truth of a P predicate or of a nonzero V register in a lane (R125). -/
def truth (s : State) (a : Opd) (i : Nat) : Bool :=
  match a with
  | .p _ => srcP s (some i) a
  | a => src32 s (some i) a != 0#32

/-! ## SHFL (R124) -/

/-- Segment width of a SEG code. -/
def segWidth (seg : BitVec 3) : Nat := 32 / 2 ^ seg.toNat

/-- The position, within its segment, of the lane that position p reads. -/
def shflSel (op : ShflOp) (n p : Nat) (b : Word) : Nat :=
  match op with
  | .idx => b.toNat % n
  | .rot => (((p : Int) - b.toInt) % (n : Int)).toNat
  | .rev => (n - 1 - p) ^^^ (b.toNat % n)
  | .xor => p ^^^ (b.toNat % n)

def execShfl (h : Hdr) (op : ShflOp) (seg : BitVec 3) (ty : Ty) (d a b c : Opd) :
    State → Host.Outcome State Fault Refusal :=
  let k := ty.regs
  runI h { srcs := [(a, k), (b, 1), (c, k)], dsts := [(d, k)] } false fun act =>
    perLane false (some 6) (fun s ln =>
      let i := ln.getD 0
      let n := segWidth seg
      let j := i / n * n + shflSel op n (i % n) (src32 s ln b)
      (dstN d ln k (if act.has j then srcN s (some j) k a else srcN s ln k c), 0)) act

/-! ## BALLOT, VOTE, MATCH (R125 to R127) -/

def execBallot (h : Hdr) (d a : Opd) : State → Host.Outcome State Fault Refusal :=
  runI h { uni := true, srcs := [(a, 1)], dsts := [(d, 1)] } false fun act s =>
    emitR (dst32 d none (Mask.ofLanes (act.lanes.filter (truth s a)))) 0 (some 4) s

/-- The value that VOTE writes. -/
def voteVal (op : VoteOp) (ty : Ty) (a : Opd) (s : State) (act : Mask) : Bool :=
  match op with
  | .all => act.lanes.all (truth s a)
  | .any => act.lanes.any (truth s a)
  | .uni =>
    let vals := act.lanes.map fun i => match a with
      | .p _ => if truth s a i then 1 else 0
      | a => srcN s (some i) ty.regs a
    vals.all fun x => x == vals.headD 0

def execVote (h : Hdr) (op : VoteOp) (ty : Ty) (d a : Opd) : State → Host.Outcome State Fault Refusal :=
  runI h { uni := true, srcs := [(a, ty.regs)], dsts := [(d, 1)] } false fun act s =>
    emitR (dstP d none (voteVal op ty a s act)) 0 (some 4) s

def execMatchL (h : Hdr) (all : Bool) (ty : Ty) (d a : Opd) : State → Host.Outcome State Fault Refusal :=
  runI h { srcs := [(a, ty.regs)], dsts := [(d, 1)] } false fun act =>
    perLane false (some 6) (fun s ln =>
      let x := srcN s ln ty.regs a
      let same := Mask.ofLanes (act.lanes.filter fun j => srcN s (some j) ty.regs a == x)
      (dst32 d ln (if all && same != act then 0#32 else same), 0)) act

/-! ## Folds (R128) -/

/-- One step of a fold. -/
def foldStep (op : FoldOp) (ty : Ty) (x y : Word) : Word × Flags :=
  let f := fun (r : Nat × Flags) => (BitVec.ofNat 32 r.1, r.2)
  match op with
  | .add => if ty == .f32 then f (Fmt.f32.add .rne false false x.toNat y.toNat) else (x + y, 0)
  | .min =>
    if ty == .f32 then f (Fmt.f32.minmax false false x.toNat y.toNat)
    else if ty == .s32 then (if x.toInt ≤ y.toInt then x else y, 0)
    else (if x.toNat ≤ y.toNat then x else y, 0)
  | .max =>
    if ty == .f32 then f (Fmt.f32.minmax true false x.toNat y.toNat)
    else if ty == .s32 then (if x.toInt ≤ y.toInt then y else x, 0)
    else (if x.toNat ≤ y.toNat then y else x, 0)
  | .and => (x &&& y, 0)
  | .or => (x ||| y, 0)
  | .xor => (x ^^^ y, 0)

/-- The identity of a fold. -/
def foldId (op : FoldOp) (ty : Ty) : Word :=
  match op with
  | .add => if ty == .f32 then 0x8000_0000#32 else 0#32
  | .min => if ty == .f32 then 0x7F80_0000#32 else if ty == .s32 then 0x7FFF_FFFF#32 else 0xFFFF_FFFF#32
  | .max => if ty == .f32 then 0xFF80_0000#32 else if ty == .s32 then 0x8000_0000#32 else 0#32
  | .and => 0xFFFF_FFFF#32
  | .or | .xor => 0#32

/-- The accumulator after each value in order; the first value stands as it is. -/
def foldSteps (op : FoldOp) (ty : Ty) : Word × Flags → List Word → List (Word × Flags)
  | _, [] => []
  | (acc, fl), x :: l =>
    let (r, g) := foldStep op ty acc x
    (r, fl ||| g) :: foldSteps op ty (r, fl ||| g) l

/-- The accumulator after each lane's step. -/
def foldAll (op : FoldOp) (ty : Ty) : List Word → List (Word × Flags)
  | [] => []
  | x :: l => (x, 0) :: foldSteps op ty (x, 0) l

/-- Latency of the folds (R89). -/
def latFold (ty : Ty) : Option Nat := if ty == .f32 then some 18 else some 10

def execRedux (h : Hdr) (op : FoldOp) (ty : Ty) (d a : Opd) : State → Host.Outcome State Fault Refusal :=
  runI h { uni := true, srcs := [(a, 1)], dsts := [(d, 1)] } false fun act s =>
    let r := ((foldAll op ty (act.lanes.map fun i => src32 s (some i) a)).getLast?).getD (foldId op ty, 0)
    emitR (dst32 d none r.1) r.2 (latFold ty) s

/-- PREFIX: lane k of the active ones receives the accumulator after its step, or before it under .excl. -/
def execPrefixL (h : Hdr) (op : FoldOp) (excl : Bool) (ty : Ty) (d a : Opd) :
    State → Host.Outcome State Fault Refusal :=
  runI h { srcs := [(a, 1)], dsts := [(d, 1)] } false fun act s =>
    let rs := foldAll op ty (act.lanes.map fun i => src32 s (some i) a)
    let shown := if excl then (foldId op ty, 0) :: rs else rs
    emitR ((act.lanes.zip shown).flatMap fun (i, r) => dst32 d (some i) r.1) (joinFlags (rs.map Prod.snd)) (latFold ty) s

/-! ## XCHGB, LANEMASK (R129, R130) -/

/-- Lane i's result of a stage of width s under mask M: its partner is read whatever its activity. -/
def xchgVal (s : State) (a : Opd) (w : Nat) (mk : Word) (i : Nat) : Word :=
  let lo := if (i / w) % 2 == 0 then i else i - w
  let x := src32 s (some lo) a
  let y := src32 s (some (lo + w)) a
  let t := (x ^^^ (y >>> w)) &&& mk
  if i == lo then x ^^^ t else y ^^^ (t <<< w)

def execXchgb (h : Hdr) (xs : BitVec 3) (d a b : Opd) : State → Host.Outcome State Fault Refusal :=
  runI h { srcs := [(a, 1), (b, 1)], dsts := [(d, 1)] } false fun act =>
    perLane false (some 6) (fun s ln =>
      (dst32 d ln (xchgVal s a (2 ^ xs.toNat) (src32 s none b) (ln.getD 0)), 0)) act

/-- The masks of R130. -/
def lanemask (op : LmOp) (i : Nat) : Word :=
  let lt := BitVec.ofNat 32 (2 ^ i - 1)
  let le := BitVec.ofNat 32 (2 ^ (i + 1) - 1)
  match op with
  | .eq => BitVec.ofNat 32 (2 ^ i)
  | .lt => lt
  | .le => le
  | .gt => ~~~le
  | .ge => ~~~lt

def execLanemask (h : Hdr) (op : LmOp) (d : Opd) : State → Host.Outcome State Fault Refusal :=
  runLanes h { dsts := [(d, 1)] } (some 6) fun _ ln => (dst32 d ln (lanemask op (ln.getD 0)), 0)

/-! ## REORDER (R131, R132) -/

/-- Lanes in ascending order of key, ties by lane. -/
def insertKey (key : Nat → Nat) (i : Nat) : List Nat → List Nat
  | [] => [i]
  | j :: l => if key j ≤ key i then j :: insertKey key i l else i :: j :: l
def sortLanes (key : Nat → Nat) (l : List Nat) : List Nat := l.foldl (fun acc i => insertKey key i acc) []

/-- Position p takes the state of lane q for every pair: all V registers of the allocation and P0 to P6. -/
def permute (mv : List (Nat × Nat)) (r : Regs) : Regs :=
  let vs := (List.range r.vregs).flatMap fun n => mv.map fun (p, q) => Wr.v n p (r.rdV n q)
  let ps := (List.range 7).flatMap fun n => mv.map fun (p, q) =>
    Wr.p n (Mask.one p) (if (r.rdP n).has q then Mask.all else 0#32)
  (vs ++ ps).foldl (fun r w => w.apply r) r

/-- REORDER, once every result of the cohort is written (R132). -/
def execReorder (h : Hdr) (strict : Bool) (d a : Opd) : State → Host.Outcome State Fault Refusal :=
  runI h { srcs := [(a, 1)], dsts := [(d, 1)] } false fun act s =>
    if s.cur.x.win.isSome then M.trap (accessT 0) s
    else if strict && ((s.cur.slotLanes ||| s.cur.stackLanes) &&& ~~~act) != 0#32 then
      M.trap { cause := Cause.partialReorder } s
    else if owed s s.cur.pl.id then M.wait .parked s
    else
      let order := sortLanes (fun i => (src32 s (some i) a).toNat) act.lanes
      let mv := act.lanes.zip order
      let s := s.updCur fun c => { c.drain with r := permute mv c.drain.r }
      emitR (mv.flatMap fun (p, q) => dst32 d (some p) (BitVec.ofNat 32 q)) 0 none s

end Sys2Proof.Machine
end

