-- ==== Sys2Proof/Machine/Node.lean ====
section
/-! DEFINITION. The couriers' turns (R259 to R264), for cohorts and for courier nodes, and the fixed nodes of a work graph
(R301). -/

namespace Sys2Proof.Machine

/-- The place from which a node's engine works: the launch's tenant, no scratchpad. -/
def nodePlace (cp : Copy) : Place :=
  { Place.reset with launch := cp.node.map Prod.fst, core := cp.core, part := cp.part, asid := cp.asid, priv := cp.priv }

/-- A courier's turn at a copy: as its cohort, or at a node's place; a node's copy ends with its one record. -/
def copyTurn (cp : Copy) (f : State → State) (s : State) : State :=
  match cp.node with
  | none => (asCohort cp.cohort () (fun s => ((), f s)) s).2
  | some (l, addr) =>
    let s' := (asPlace (nodePlace cp) (fun s => ((), f s)) s).2
    if s'.copies.any fun c => c.id == cp.id then s' else consumed (some l) addr s'

/-- The courier performs a copy (R259, R260). A copy that waits is tried again later. -/
def execCourierTransfer (copy : Nat) : State → Host.Outcome State Fault Refusal :=
  runE fun s =>
    match s.copies.find? fun c => c.id == copy with
    | none => s
    | some cp => copyTurn cp (courierStep cp) s

/-- The courier takes the next record of a chain (R264). -/
def execChainRecord (copy : Nat) : State → Host.Outcome State Fault Refusal :=
  runE fun s =>
    match s.copies.find? fun c => c.id == copy with
    | none => s
    | some cp => match cp.kind with
      | .chain _ => copyTurn cp (courierStep cp) s
      | _ => s

/-! ## Fixed nodes (R301, R302) -/

/-- Take a record out of those waiting: its consumption is in progress. -/
def takeRecord (launch : Nat) (r : GRec) (s : State) : State :=
  s.updGraph launch fun g => { g with recs := g.recs.filter fun x => x != r, running := g.running + 1 }

/-- The core at which a launch's fixed nodes work. -/
def nodeCore (s : State) (part : Nat) : Nat := ((List.range 4096).find? (coreOf s part)).getD 0

/-- A courier record becomes a copy of its own. -/
def courierNode (l : Launch) (r : GRec) (s : State) : State :=
  let (id, s) := s.fresh
  let cp : Copy := ⟨id, nodeCore s l.part, 0, 0, l.part, l.asid, privOf s l.part l.asid, 0#32, .dev, .chain r.addr, some (l.id, r.addr)⟩
  takeRecord l.id r { s with copies := s.copies ++ [cp] }

/-- A traversal record becomes a ray. -/
def traversalNode (l : Launch) (r : GRec) (s : State) : State :=
  let quad := nodeCore s l.part / 4
  if 2048 ≤ (s.rays.filter fun x => x.quad == quad).length then s
  else
    let g : Agent := ⟨l.part, l.asid, privOf s l.part l.asid, 2 ^ 65 + r.addr, none, none, none⟩
    match g.read r.addr 64 .load s with
    | .error (.wait s') => s'
    | .error (.bad d a) => consumed (some l.id) r.addr (takeRecord l.id r (nodeFault l.part (some l.id) Cause.access d a s))
    | .error (.poison a) =>
      consumed (some l.id) r.addr (takeRecord l.id r (nodeFault l.part (some l.id) Cause.poison (poisonDetail g .load a s) a s))
    | .error _ => consumed (some l.id) r.addr (takeRecord l.id r (nodeFault l.part (some l.id) Cause.access 0 r.addr s))
    | .ok (b, s) =>
      let (id, s) := s.fresh
      let ray : Ray :=
        { id := id, quad := quad, cohort := none, lane := 0, dreg := 0
          ray := (List.range 8).map fun k => BitVec.ofNat 32 (fld b (4 * k) 4)
          base := fld b 32 8, key := BitVec.ofNat 64 (fld b 40 8), n := BitVec.ofNat 32 (fld b 48 4)
          flags := BitVec.ofNat 5 (fld b 52 4), part := l.part, asid := l.asid, glane := 0, lkey := l.rc.lkey
          pc := 0, mask := 0, out := some (fld b 56 8), launch := some l.id, recAddr := r.addr }
      takeRecord l.id r { s with rays := s.rays ++ [ray] }

/-- A curator record becomes a job that no cohort counts; one that R199 would trap is reported and consumed. -/
def curatorNode (l : Launch) (r : GRec) (s : State) : State :=
  let g : Agent := ⟨l.part, l.asid, privOf s l.part l.asid, 2 ^ 65 + r.addr, none, none, none⟩
  match g.read r.addr 64 .load s with
  | .error (.wait s') => s'
  | .error (.bad d a) => consumed (some l.id) r.addr (takeRecord l.id r (nodeFault l.part (some l.id) Cause.access d a s))
  | .error (.poison a) =>
    consumed (some l.id) r.addr (takeRecord l.id r (nodeFault l.part (some l.id) Cause.poison (poisonDetail g .load a s) a s))
  | .error _ => consumed (some l.id) r.addr (takeRecord l.id r (nodeFault l.part (some l.id) Cause.access 0 r.addr s))
  | .ok (b, s) =>
    if !cdescOk s l.part l.asid b then
      consumed (some l.id) r.addr (takeRecord l.id r (nodeFault l.part (some l.id) Cause.curatorDesc 0 r.addr s))
    else
      let die := jobDie s b
      if 1024 ≤ (s.jobs.filter fun j => j.die == die).length then s
      else
        let (id, s) := s.fresh
        takeRecord l.id r { s with
          jobs := s.jobs ++ [⟨id, die, 0, 0, l.queue, some l.id, l.part, l.asid, false, b, 0, r.addr⟩] }

/-- A fixed node consumes one of its records, on a module that the launch runs on (R421). -/
def execFixedNodeConsume (launch node : Nat) : State → Host.Outcome State Fault Refusal :=
  runE fun s =>
    match s.launch? launch with
    | none => s
    | some l => match l.graph with
      | none => s
      | some g =>
        let n := nth g.nodes node GNode.zero
        let rs := g.recs.filter fun r => r.node == node
        let (k, s) := s.draw
        match rs[Config.batchPick k % max 1 rs.length]? with
        | none => s
        | some r =>
          if l.halted || (moduleIx s l.rc).isNone || s.m.time < l.rc.start then s
          else if n.kind == 1 then courierNode l r s
          else if n.kind == 2 then traversalNode l r s
          else if n.kind == 3 then curatorNode l r s
          else s

end Sys2Proof.Machine
end

