-- ==== Sys2Proof/Machine/Save.lean ====
section
/-! DEFINITION. Saving and restoring core-bound units (R304 to R307): the frame, a save, pre-emption by priority, the driver's
request, a restore. -/

namespace Sys2Proof.Machine

/-! ## The frame (R306) -/

def cohortFrame (r : LRec) : Nat := 1408 + 128 * r.vregs
/-- Bytes of a tile slot, and where its pending-fault state lies. -/
def tileSlot : Nat := 17408
def pendAt : Nat := 17392
def spadAt (r : LRec) : Nat := r.together * cohortFrame r
def tilesAt (r : LRec) : Nat := spadAt r + r.spad
def booksAt (r : LRec) : Nat := tilesAt r + tileSlot * r.zcount * r.together
/-- Bytes of a unit's frame. -/
def frameSize (r : LRec) : Nat := alignUp (booksAt r + 4096) 4096
def frameOf (r : LRec) (unit : Nat) : Nat := r.save + unit * frameSize r

/-- The late traps that a frame holds, in the order of their bits. -/
def frameLates : List Nat := [Cause.poison, Cause.traversal, Cause.drOverflow, Cause.fabWrite]

/-- The tile slot's placard: FX64, 32 rows of 64 cells. -/
def frameTile (poisoned : Bool) : Plac :=
  { magic := 0xA7, efmt := 0x0E, slay := 0, sfmt := 0, spar := 0, rows := 32, cols := 64, pitch := 32, anchor := 0, brot := 0
    pinned := false, transposed := false, poisoned := poisoned, rsv := false, soff := 0, moff := 0, crc := 0 }

/-- A tile as ZST writes an FX64 tile. A row's CHECK travels as it stands. -/
def tileBytes (t : Tile) : List Byte :=
  plBytes (frameTile t.poison).toQ
    ++ (List.range 32).flatMap (fun m => (t.cellsOf m).flatMap fun x => leBytes 8 (wrapNat 64 x))
    ++ (List.range 32).flatMap fun m => rowRecord (t.row m) (t.row m).check

/-- A tile read back; none when its bytes are no such tile. -/
def tileOf (b : List Byte) : Option Tile :=
  let q : Qword := BitVec.ofNat 128 (fld b 0 16)
  let p := Plac.ofQ q
  if p.toQ != q || { p with poisoned := false, crc := 0 } != frameTile false then none
  else
    let recs := (List.range 32).map fun m => readRecord ((b.drop (p.scaleOff + 16 * m)).take 16)
    if recs.all Option.isSome then
      some ((List.range 32).foldl (fun (t : Tile) m =>
        let cells := (List.range 64).map fun n => (BitVec.ofNat 64 (fld b (16 + 512 * m + 8 * n) 8) : Dword)
        { t with
          cells := ((List.range 64).zip cells).foldl (fun c (n, x) => c.set (64 * m + n) x 0#64) t.cells
          rows := t.rows.set m ((nth recs m none).getD TRow.zero) TRow.zero }) { Tile.zero with poison := p.poisoned })
    else none

/-- The pending-fault state of a cohort for a tile: valid, OPND, DETAIL, COUNT, PC, lanes. -/
def faultBytes (f : Option PassFault) : List Byte :=
  match f with
  | none => leBytes 16 0
  | some f => leBytes 1 (1 + 2 * f.opnd) ++ leBytes 1 f.detail ++ leBytes 2 f.count ++ leBytes 8 f.pc.toNat ++ leBytes 4 f.mask.toNat

def faultOf (cohort : Nat) (b : List Byte) : Option PassFault :=
  if nbit (fld b 0 1) 0 then
    some ⟨cohort, BitVec.ofNat 40 (fld b 4 8), fld b 1 1, fld b 0 1 / 2, BitVec.ofNat 32 (fld b 12 4), fld b 2 2⟩
  else none

/-- A saved PC slot read back. -/
def slotOfBytes (b : List Byte) : Option PcPart :=
  let st := fld b 5 1
  let m : Mask := BitVec.ofNat 32 (fld b 8 4)
  if (st == 1 || st == 2) && m != 0#32 then some ⟨st == 1, BitVec.ofNat 40 (fld b 0 5), m, false⟩ else none

/-- A fault record read back (R388). -/
def Rec.ofBytes (b : List Byte) : Rec :=
  let f := fld b 3 1
  let slot := fun (o : Nat) => slotOfBytes (((b.drop o).take 6) ++ leBytes 2 0 ++ ((b.drop (o + 6)).take 4) ++ leBytes 4 0)
  { cause := fld b 0 2, detail := fld b 2 1, opnd := f % 8, slotB := nbit f 3, late := nbit f 4, cls := f / 64
    mask := BitVec.ofNat 32 (fld b 4 4), done := BitVec.ofNat 32 (fld b 8 4), dstop := fld b 12 2, count := fld b 14 2
    pc := BitVec.ofNat 40 (fld b 16 8), addr := fld b 24 8, slotA := slot 32, slotBp := slot 42, cohort := fld b 52 6
    queue := fld b 58 2, aux := fld b 60 4 }

/-- The paused chains of a cohort. -/
def chainsOf (s : State) (c : Cohort) : List Copy :=
  s.copies.filter fun x => x.cohort == c.pl.id && match x.kind with | .chain _ => true | _ => false

def chainWord (c : Cohort) (x : Copy) : Nat :=
  match x.kind with
  | .chain a => (c.x.batch + 65536 - x.batch) % 16 * 2 ^ 60 + a / 64 % 2 ^ 51 * 64 + 1
  | _ => 0

/-- The frame of a cohort. -/
def cohortBytes (s : State) (l : Launch) (c : Cohort) : List Byte :=
  let rng := List.range
  let lateOf := fun k => c.c.late.find? fun r => r.cause == k
  let chains := chainsOf s c
  let err := match c.x.err with
    | some e => leBytes 1 e.cause ++ leBytes 1 e.detail ++ leBytes 2 e.batch ++ leBytes 8 e.addr
    | none => leBytes 12 0
  ((rng 128).flatMap fun n => leBytes 4 (c.r.rdS n).toNat)
    ++ ((rng 16).flatMap fun n => leBytes 16 (c.r.rdPL n).toNat)
    ++ ((rng 8).flatMap fun n => leBytes 4 (c.r.rdP n).toNat)
    ++ leBytes 4 (c.r.q ||| 0x80#8).toNat ++ leBytes 4 c.r.fpstat.toNat ++ leBytes 4 c.r.drround.toNat ++ leBytes 4 c.c.dstop
    ++ slotBytes c.c.a ++ slotBytes c.c.b ++ leBytes 4 (c.x.batch % 65536) ++ err
    ++ ((rng 16).flatMap fun k => leBytes 8 (match chains[k]? with | some x => chainWord c x | none => 0))
    ++ ((rng 16).flatMap fun k => leBytes 1 ((c.r.rdZ k).getD 255))
    ++ leBytes 8 l.id ++ leBytes 8 0
    ++ ((rng 32).flatMap fun i => leBytes 2 (min 65535 (c.r.rdSeq i)))
    ++ (c.c.tsave.flatMap fun w => leBytes 4 w.toNat)
    ++ leBytes 4 (((rng 4).zip frameLates).foldl (fun x (k, e) => if (lateOf e).isSome then x + 2 ^ k else x) 0)
    ++ leBytes 44 0
    ++ (frameLates.flatMap fun e => match lateOf e with | some r => r.bytes | none => leBytes 64 0)
    ++ ((rng l.rc.vregs).flatMap fun n => (rng 32).flatMap fun i => leBytes 4 (c.r.rdV n i).toNat)

/-- The frame of a cohort that has ended: its slots are EMPTY. -/
def endedBytes (l : Launch) : List Byte :=
  leBytes 992 0 ++ List.replicate 16 0xFF#8 ++ leBytes 8 l.id ++ leBytes (cohortFrame l.rc - 1016) 0

/-! ## Sharing (R288, R306) -/

/-- The unit of the sharing level that a cohort belongs to. -/
def shareGroup (l : Launch) (lin : Nat) : Nat := lin / l.rc.span 0 l.rc.shareLevel

/-- Linear indices of the cohorts of a sharing group that are resident or saved. -/
def holders (s : State) (l : Launch) (lin : Nat) : List Nat :=
  (((s.cohorts.filter fun c => c.pl.launch == some l.id).map (·.pl.lin))
    ++ ((s.saved.filter fun x => x.launch == l.id).flatMap fun x => x.cohorts.map fun c => x.unit * l.rc.together + c.ix)).filter
      fun k => shareGroup l k == shareGroup l lin

/-- The cohort in whose slot a handle's tile of a cohort is stored. -/
def slotHolder (s : State) (l : Launch) (lin h : Nat) : Nat :=
  if nbit l.rc.zshare h then (holders s l lin).foldl min lin else lin

/-- Address of the tile slot of a handle of a cohort. -/
def slotAt (l : Launch) (lin h : Nat) : Nat :=
  frameOf l.rc (lin / l.rc.together) + tilesAt l.rc + tileSlot * (lin % l.rc.together * l.rc.zcount + h)

/-! ## A save (R305) -/

/-- How a save of a unit ends. -/
inductive SaveEnd where
  | saved (s : State)
  | waits (s : State)
  /-- a cohort takes a failed log entry as a trap instead (R397) -/
  | abandoned (s : State)

def SaveEnd.state : SaveEnd → State
  | .saved s | .waits s | .abandoned s => s

/-- The cohorts of a unit. -/
def unitCohorts (s : State) (l : Launch) (unit : Nat) : List Cohort :=
  s.cohorts.filter fun c => c.pl.launch == some l.id && c.pl.unit == unit

/-- Does a cohort stand where it can be saved: outside its handler, with no replay or stack access pending, its rays and copies
complete but for chains between records, no access of its own parked or on its way? -/
def canSave (s : State) (c : Cohort) : Bool :=
  !c.c.hm && c.c.replay.isNone && c.c.stackTrap.isNone && c.c.ending.isNone
    && !(s.rays.any fun r => r.cohort == some c.pl.id)
    && (s.copies.all fun x => x.cohort != c.pl.id || match x.kind with | .chain _ => true | _ => false)
    && (chainsOf s c).length ≤ 16
    && !(s.parked.any fun q => Req.cohort? q.req == some c.pl.id)
    && !(s.held.any fun h => h.transit && h.cohort == c.pl.id)

/-- The log entries of a cohort replay, where they can. -/
def drainLog (id : Nat) (s : State) : State := retryList (s.dlog.filter fun d => d.cohort == id) [] s

/-- A failed entry is taken at once as a trap of the cohort. -/
def abandon (id : Nat) (s : State) : State :=
  (asCohort id () (fun s => ((), match s.cur.c.late.find? fun r => r.cause == Cause.dlogFailed with
    | some r => takeLate r s
    | none => s)) s).2

/-- The stage that outlives a save: BARSYNC's wait, and a transfer that waits for its overlay. -/
def savedStage : Stage → Stage
  | .arrived t r => .arrived t r
  | .ovl n t h p => .ovl n t h p
  | _ => .start

/-- What a cohort keeps outside its frame. A parked SLEEP keeps what is left of it. -/
def savedCohort (s : State) (l : Launch) (c : Cohort) : SavedCohort where
  ix := c.pl.unitIx
  id := c.pl.id
  ctl := { c.c with
    pend := [], wait := none, susp := false, barAt := none, onFill := none, fillEnd := none, stage := savedStage c.c.stage, idem := none
    park := c.c.park.map fun t => if c.c.sleeping then t - s.m.time else t }
  chains := chainsOf s c
  bary := c.x.bary
  slots := (List.range l.rc.zcount).map fun h => (h, slotHolder s l c.pl.lin h)
  inv := c.x.inv

/-- Steps 1 to 5 for a cohort: its results are written, its region and its window close. -/
def settleCohort (id : Nat) (s : State) : State :=
  drainLog id ((asCohort id () (fun s => ((), (leaveBar s).updCur fun c =>
    let c := c.drain.closeIdem
    { c with x := { c.x with win := none } })) s).2)

/-- The units of a launch on a quad. -/
def quadUnits (s : State) (l : Launch) (quad : Nat) : List Nat :=
  ((s.cohorts.filter fun c => c.pl.launch == some l.id && c.pl.core / 4 == quad).map (·.pl.unit)).eraseDups

/-- The codebook slots of a quad, those that the launch owns, zeros for the rest. -/
def bookFrame (s : State) (l : Launch) (quad : Nat) : List Byte :=
  (List.range 4).flatMap fun k =>
    let b := s.books.get (bookKey quad k) Codebook.zero
    (List.range 256).flatMap fun w => leBytes 4 (if b.owner == some l.id then (b.words.get w 0#32).toNat else 0)

/-- The writes of a unit's frames: address and bytes. -/
def frameWrites (s : State) (l : Launch) (unit core : Nat) : List (Nat × List Byte) :=
  let cs := unitCohorts s l unit
  let n := l.rc.together
  let base := frameOf l.rc unit
  let heads := (List.range n).map fun k => (base + k * cohortFrame l.rc,
    match cs.find? fun c => c.pl.unitIx == k with | some c => cohortBytes s l c | none => endedBytes l)
  let sp := match cs with | c :: _ => c.pl.spBase | [] => 0
  let pad := if l.rc.spad == 0 then [] else [(base + spadAt l.rc, s.bytes (spPa core sp) l.rc.spad)]
  let tiles := cs.flatMap fun c => c.r.z.flatMap fun (h, t) =>
    let x := s.tile (core / 4) t
    [(slotAt l (slotHolder s l c.pl.lin h) h, tileBytes x),
     (slotAt l c.pl.lin h + pendAt, faultBytes (x.faults.find? fun f => f.cohort == c.pl.id))]
  let low := (quadUnits s l (core / 4)).foldl min unit
  heads ++ pad ++ tiles ++ [(frameOf l.rc low + booksAt l.rc, bookFrame s l (core / 4))]

/-- Free a unit's resources: its cohorts leave, nothing of the launch ends. -/
def freeUnit (l : Launch) (unit core : Nat) (s : State) : State :=
  let cs := unitCohorts s l unit
  let ids := cs.map (·.pl.id)
  let mine := fun (c : Cohort) => ids.contains c.pl.id
  let tiles := s.tiles.map fun (k, t) => (k, { t with faults := t.faults.filter fun f => !ids.contains f.cohort })
  let s := { s with
    cur := if s.cur.resident && mine s.cur then .reset else s.cur
    others := s.others.filter fun c => !mine c
    copies := s.copies.filter fun x => !ids.contains x.cohort
    fabw := s.fabw.filter fun w => !ids.contains w.cohort
    tiles := tiles.filter fun e => e.2 != Tile.zero }
  let s := s.updLaunch l.id fun l =>
    let placed := l.placed.filter fun e => !(e.1 == unit && e.2.1 == core)
    { l with placed := placed
             homes := l.homes.filter fun e => !(e.1 == 2) || (match l.rc.topOf 2 with
               | some n => placed.any fun p => l.rc.unitAt n p.1 == e.2.1
               | none => true)
             shares := l.shares.filter fun e => placed.any fun p => l.rc.unitAt l.rc.shareLevel p.1 == e.1 }
  cs.foldl (fun s c => sweepEvict (dropPins c.pl.core c.pl.part c.pl.asid (freeBooks (c.pl.core / 4) c.pl.launch s))) s

/-- Is any request of some cohorts parked, or an update of theirs on its way? -/
def accessOut (s : State) (ids : List Nat) : Bool :=
  (s.parked.any fun q => match Req.cohort? q.req with | some c => ids.contains c | none => false)
    || s.held.any fun h => h.transit && ids.contains h.cohort

/-- Save a unit whole, in the order of R305. What still has to come keeps it where it is, with what has been done so far; a frame that
cannot be written, or a scratchpad word that is lost, does so too. -/
def saveUnit (l : Launch) (unit core : Nat) (s : State) : SaveEnd :=
  let cs := unitCohorts s l unit
  if cs.isEmpty || !cs.all (canSave s) then .waits s
  else
    let ids := cs.map (·.pl.id)
    let s := (s.passes.filter fun p => ids.contains p.cohort).foldl (fun s p => retirePass p s) s
    let s := ids.foldl (fun s id => settleCohort id s) s
    let failed := ids.filter fun id => match s.cohort? id with
      | some c => c.c.late.any fun r => r.cause == Cause.dlogFailed
      | none => false
    if !failed.isEmpty then .abandoned (failed.foldl (fun s id => abandon id s) s)
    else if (s.dlog.any fun d => ids.contains d.cohort) || accessOut s ids then .waits s
    else
      let s := writeBackAll core s
      match cs with
      | [] => .waits s
      | c :: _ =>
        if spPoisoned s (spPa core c.pl.spBase) l.rc.spad || backParked s core then .waits s
        else
          let g : Agent := ⟨l.part, l.asid, c.pl.priv, 2 ^ 66 + l.id * 2 ^ 44 + unit, some core, none, none⟩
          let ws := frameWrites s l unit core
          let cs := unitCohorts s l unit
          let owned := (List.range 4).filter fun k => (s.books.get (bookKey (core / 4) k) Codebook.zero).owner == some l.id
          let low := (quadUnits s l (core / 4)).foldl min unit
          match (AM.each ws fun (a, b) => g.write a b) s with
          | .error (.wait s') => .waits s'
          | .error _ => .waits s
          | .ok (_, s') =>
            let (id, s') := s'.fresh
            let x : Saved := ⟨id, l.id, unit, core / 1024, frameOf l.rc unit, cs.map (savedCohort s l), low, owned⟩
            let s' := freeUnit l unit core s'
            .saved { s' with saved := s'.saved ++ [x] }

/-! ## Requests (R304) -/

/-- Resident units of a launch that can be saved at all: SAVEPTR is given. The units of a work graph are its invocations. Each with its core and
the number of its youngest cohort. -/
def savable (s : State) (l : Launch) : List (Nat × Nat × Nat) :=
  if l.rc.save == 0 then []
  else
    let cs := s.cohorts.filter fun c => c.pl.launch == some l.id && c.x.gen.isNone
    ((cs.map fun c => (c.pl.unit, c.pl.core)).eraseDups).map fun (u, k) =>
      (u, k, ((cs.filter fun c => c.pl.unit == u).map (·.pl.id)).foldl max 0)

/-- A save is asked for. -/
def askSave (r : SaveReq) (s : State) : State := if s.saving.contains r then s else { s with saving := s.saving ++ [r] }

def askAll (l : Launch) (s : State) : State := (savable s l).foldl (fun s (u, k, _) => askSave (.unit l.id u k) s) s

/-- Work on the saves that are asked for: one that is done, or whose unit has ended, is taken off; one whose unit has to take a trap first is
tried again (R397); a partition's waits until its generators have ended (R348). -/
def settleSaves (s : State) : State :=
  s.saving.foldl (fun s r =>
    let off := fun (s : State) => { s with saving := s.saving.filter (· != r) }
    match r with
    | .part p =>
      if s.cohorts.any fun c => c.pl.part == p && c.x.gen.isSome then s
      else (s.launches.filter fun l => l.part == p).foldl (fun s l => askAll l s) (off s)
    | .unit id u k => match s.launch? id with
      | none => off s
      | some l =>
        if !(unitCohorts s l u).any fun c => c.pl.core == k then off s
        else match saveUnit l u k s with
          | .saved s => off s
          | x => x.state) s

/-- A driver's request names a launch or a partition. -/
def execDriverSaveRequest (byLaunch : Bool) (n : Nat) : State → Host.Outcome State Fault Refusal :=
  runE fun s => settleSaves (if byLaunch then (s.launches.filter fun l => l.id == n).foldl (fun s l => askAll l s) s else askSave (.part n) s)

/-- Can the launch's next unit, or an invocation of its graph, be placed on some core? -/
def placeable (s : State) (l : Launch) : Bool := ((List.range 4096).filter (coreOf s l.part)).any (canTake s l)

/-- Has a launch a unit to place, or an invocation? -/
def hasNext (s : State) (l : Launch) : Bool :=
  match l.graph with
  | some g => (List.range g.nodes.length).any fun k => !(invReady s l g k).isEmpty
  | none => startable s l && !l.waiting.isEmpty

/-- Has a launch waited WAITUS µs for its next unit? -/
def waitedLong (s : State) (l : Launch) : Bool :=
  hasNext s l && max l.waitSince l.rc.start + 1000 * max 1 ((s.part l.part).preempt.extractLsb' 16 16).toNat ≤ s.m.time

/-- Does a unit come before another as a victim: the lowest PRIO first, and within it the youngest? -/
def youngerUnit (a b : Launch × Nat × Nat × Nat) : Bool :=
  a.1.rc.prio < b.1.rc.prio || (a.1.rc.prio == b.1.rc.prio && b.2.2.2 < a.2.2.2)

/-- The units that a waiting launch may displace, in order. Units in a handler are none. -/
def saveVictims (s : State) (l : Launch) : List (Launch × Nat × Nat × Nat) :=
  let gap := max 1 ((s.part l.part).preempt.extractLsb' 8 3).toNat
  let vs := s.launches.filter fun v => v.part == l.part && v.rc.prio + gap ≤ l.rc.prio
  let us := vs.flatMap fun v => ((savable s v).filter fun (u, _) => (unitCohorts s v u).all fun c => !c.c.hm).map fun e => (v, e)
  us.foldl (fun acc x => (acc.takeWhile fun y => !youngerUnit x y) ++ [x] ++ (acc.dropWhile fun y => !youngerUnit x y)) []

/-- The launch of a partition for which units are saved: the first of those that have waited long and cannot be placed. -/
def preemptor (s : State) (part : Nat) : Option Launch :=
  if !(s.part part).preempt.getLsbD 0 then none
  else
    let ws := s.launches.filter fun l => l.part == part && waitedLong s l && !placeable s l
    ws.find? fun l => !ws.any fun x => before x l

/-- Are units of a partition being saved? -/
def savingIn (s : State) (part : Nat) : Bool :=
  s.saving.any fun r => match r with
    | .unit id _ _ => match s.launch? id with | some l => l.part == part | none => false
    | .part _ => false

/-- One victim after the other is saved, until the unit that waits can be placed. -/
def execPriorityPreemption (part : Nat) : State → Host.Outcome State Fault Refusal :=
  runE fun s =>
    if savingIn s part then s
    else match preemptor s part with
      | none => s
      | some l => match saveVictims s l with
        | [] => s
        | (v, u, k, _) :: _ => settleSaves (askSave (.unit v.id u k) s)

/-! ## Restore (R307) -/

/-- The registers that a cohort frame holds. -/
def frameRegs (b : List Byte) (vregs : Nat) (r : Regs) : Regs :=
  let rng := List.range
  { r with
    s := (rng 128).foldl (fun m n => Map.set m n (BitVec.ofNat 32 (fld b (4 * n) 4)) 0#32) []
    pl := (rng 16).foldl (fun m n => Map.set m n (BitVec.ofNat 128 (fld b (512 + 16 * n) 16)) 0#128) []
    p := (rng 7).foldl (fun m n => Map.set m n (BitVec.ofNat 32 (fld b (768 + 4 * n) 4)) 0#32) []
    q := BitVec.ofNat 8 (fld b 800 1 % 128)
    fpstat := BitVec.ofNat 32 (fld b 804 4), drround := BitVec.ofNat 32 (fld b 808 4)
    seq := (rng 32).foldl (fun m i => Map.set m i (fld b (1024 + 2 * i) 2) 0) []
    vfree := none
    v := (rng (32 * vregs)).foldl (fun m k => Map.set m k (BitVec.ofNat 32 (fld b (1408 + 4 * k) 4)) 0#32) [] }

/-- The control state of a restored cohort. -/
def frameCtl (s : State) (b : List Byte) (x : SavedCohort) : Ctl :=
  let bits := fld b 1104 4
  let now := s.m.cycle
  { x.ctl with
    a := (slotOfBytes ((b.drop 816).take 16)).map fun p => { p with off := match x.ctl.a with | some q => q.off && q.pc == p.pc | none => false }
    b := (slotOfBytes ((b.drop 832).take 16)).map fun p => { p with off := match x.ctl.b with | some q => q.off && q.pc == p.pc | none => false }
    dstop := fld b 812 4
    stack := x.ctl.stack.drop (x.ctl.stack.length - fld b 812 4)
    tsave := (List.range 4).map fun k => BitVec.ofNat 32 (fld b (1088 + 4 * k) 4)
    late := ((List.range 4).filter (nbit bits)).map fun k => Rec.ofBytes ((b.drop (1152 + 64 * k)).take 64)
    park := x.ctl.park.map fun t => if x.ctl.sleeping then s.m.time + t else t
    readyAt := now, last := [now, now, now], runs := [0, 0, 0], starve := [0, 0, 0] }

/-- The courier state of a restored cohort. -/
def frameExt (b : List Byte) (x : SavedCohort) : Ext :=
  { Ext.reset with
    batch := fld b 848 2
    err := if fld b 852 1 == 0 then none else some ⟨fld b 854 2, fld b 852 1, fld b 853 1, fld b 856 8⟩
    bary := x.bary
    inv := x.inv }

/-- The chains of a restored cohort go on in their batches. -/
def frameChains (b : List Byte) (c : Cohort) (x : SavedCohort) : List Copy :=
  let rec go : Nat → List Copy → List Copy
    | _, [] => []
    | k, y :: l =>
      let w := fld b (864 + 8 * k) 8
      let a := w / 64 % 2 ^ 51 * 64
      let a := if nbit a 56 then a + (2 ^ 64 - 2 ^ 57) else a
      if nbit w 0 then
        { y with core := c.pl.core, kind := .chain a, batch := (c.x.batch + 65536 - w / 2 ^ 60) % 65536 } :: go (k + 1) l
      else go (k + 1) l
  go 0 x.chains

/-- A restored cohort in the place of a newly laid one. An invocation keeps its index and the entry of its node. -/
def frameCohort (s : State) (l : Launch) (b : List Byte) (x : SavedCohort) (c : Cohort) : Cohort :=
  let pl : Place := match x.inv, l.graph with
    | some i, some g => { c.pl with id := x.id, levels := [i.index, 0, 0, 0, 0, 0, 0, 0], entry := (nth g.nodes i.node GNode.zero).entry }
    | _, _ => { c.pl with id := x.id }
  { c with pl := pl, r := frameRegs b l.rc.vregs c.r, c := frameCtl s b x, x := frameExt b x }

/-- A unit whose frame is unusable fails. -/
def failRestore (l : Launch) (x : Saved) (s : State) : State :=
  let r : Rec := { plainRec Cause.restoreFailed 0 0 x.frame with cohort := x.unit * l.rc.together, queue := l.queue, launch := some l.id }
  let s := (s.ring l.part r).2
  let s := x.cohorts.foldl (fun s c => match c.inv with | some i => closeInv false i l.id s | none => s) s
  s.updLaunch l.id fun l => { l with code := if l.code == 0 then 1 else l.code, ended := if l.rc.graph != 0 then l.ended else l.ended + 1 }

/-- The cohort frames are those that the launch wrote, and the tiles are tiles. -/
def frameOk (l : Launch) (heads : List (List Byte)) (tiles : List (Nat × Option Tile)) : Bool :=
  (heads.all fun b => fld b 1008 8 == l.id % 2 ^ 64) && tiles.all fun e => e.2.isSome

/-- Read a unit's frame: the cohort frames, the scratchpad, the tiles by linear index and handle, the pending faults, the
codebooks. -/
def readFrame (l : Launch) (x : Saved) (g : Agent) :
    AM (List (List Byte) × List Byte × List (Nat × Option Tile) × List (Nat × List Byte) × List Byte) := do
  let base := x.frame
  let heads ← AM.mapL (List.range l.rc.together) fun k => g.read (base + k * cohortFrame l.rc) (cohortFrame l.rc)
  let sp ← g.read (base + spadAt l.rc) l.rc.spad
  let hs := x.cohorts.flatMap fun c => c.slots.map fun (h, holder) => (x.unit * l.rc.together + c.ix, h, holder)
  let tiles ← AM.mapL hs fun (lin, h, holder) => do
    let b ← g.read (slotAt l holder h) pendAt
    pure (lin * 16 + h, tileOf b)
  let pend ← AM.mapL hs fun (lin, h, _) => do
    let b ← g.read (slotAt l lin h + pendAt) 16
    pure (lin * 16 + h, b)
  let books ← if x.books.isEmpty then pure [] else g.read (frameOf l.rc x.bookUnit + booksAt l.rc) 4096
  pure (heads, sp, tiles, pend, books)

/-- Put the tiles and pending faults of a restored cohort on its quad; a tile that another cohort holds already is left. -/
def putTiles (had : List Nat) (tiles : List (Nat × Option Tile)) (pend : List (Nat × List Byte)) (c : Cohort) (s : State) : State :=
  let quad := c.pl.core / 4
  c.r.z.foldl (fun s (h, t) =>
    let key := c.pl.lin * 16 + h
    let s := if had.contains t then s
      else match tiles.find? fun e => e.1 == key with
        | some (_, some x) => s.setTile quad t { x with faults := (s.tile quad t).faults }
        | _ => s
    match (pend.find? fun e => e.1 == key).bind fun e => faultOf c.pl.id e.2 with
    | some f => s.setTile quad t { s.tile quad t with faults := (s.tile quad t).faults ++ [f] }
    | none => s) s

/-- The codebook slots of the launch on a quad, where nobody owns them yet. -/
def putBooks (l : Launch) (quad : Nat) (ks : List Nat) (b : List Byte) (s : State) : State :=
  ks.foldl (fun s k =>
    if (s.books.get (bookKey quad k) Codebook.zero).owner.isSome then s
    else
      let ws : Map Word := (List.range 256).foldl (fun m w => m.set w (BitVec.ofNat 32 (fld b (1024 * k + 4 * w) 4)) 0#32) []
      { s with books := s.books.set (bookKey quad k) ⟨some l.id, ws⟩ Codebook.zero }) s

/-- Place a saved unit again, when a core takes it, and rewrite its state from the frame. -/
def restore (l : Launch) (x : Saved) (core : Nat) (s : State) : State :=
  let quad := core / 4
  let clash := x.books.any fun k => match (s.books.get (bookKey quad k) Codebook.zero).owner with
    | some o => o != l.id
    | none => false
  let had := ((s.cohorts.filter fun c => c.pl.core / 4 == quad).flatMap fun c => c.r.z.map (·.2))
    ++ (l.shares.filter fun e => e.2.2.1 == quad).map (·.2.2.2)
  match (if clash then none else placeUnit l x.unit core s) with
  | none => s
  | some s1 =>
    let g : Agent := ⟨l.part, l.asid, privOf s l.part l.asid, 2 ^ 66 + l.id * 2 ^ 44 + x.unit, none, none, none⟩
    let gone := fun (s : State) => { s with saved := s.saved.filter fun y => y.id != x.id }
    match readFrame l x g s with
    | .error (.wait s') => s'
    | .error _ => failRestore l x (gone s)
    | .ok ((heads, sp, tiles, pend, books), _) =>
      if !frameOk l heads tiles then failRestore l x (gone s)
      else
        let fresh := fun (c : Cohort) => s.ids ≤ c.pl.id && c.pl.launch == some l.id && c.pl.unit == x.unit
        let conv := fun (c : Cohort) => match x.cohorts.find? fun y => y.ix == c.pl.unitIx with
          | some y => frameCohort s l (nth heads y.ix []) y c
          | none => { c with resident := false }
        let new := ((s1.cohorts.filter fresh).map conv).filter (·.resident)
        let s2 := new.foldl (fun s c => addCohort c s)
          { s1 with cur := if s1.cur.resident && fresh s1.cur then .reset else s1.cur, others := s1.others.filter fun c => !fresh c }
        let s2 := new.foldl (fun s c => putTiles had tiles pend c s) s2
        let spb := match new with | c :: _ => c.pl.spBase | [] => 0
        let s2 := if l.rc.spad == 0 then s2 else s2.setBytes (spPa core spb) sp
        let s2 := putBooks l quad x.books books s2
        let chains := new.flatMap fun c => match x.cohorts.find? fun y => y.id == c.pl.id with
          | some y => frameChains (nth heads y.ix []) c y
          | none => []
        let s2 := { s2 with copies := s2.copies ++ chains }
        gone (s2.updLaunch l.id fun l' =>
          { l' with placed := l'.placed.map fun (u, k, n) => if u == x.unit && k == core then (u, k, new.length) else (u, k, n)
                    firstStart := l.firstStart, tunl := l.tunl, waitSince := s.m.time })

def execContextRestore (saved core : Nat) : State → Host.Outcome State Fault Refusal :=
  runE fun s => match s.saved.find? fun x => x.id == saved with
    | none => s
    | some x => match s.launch? x.launch with
      | none => s
      | some l =>
        if l.halted || s.m.stopped || !dieFits l x.die core || outranked s l core then s else restore l x core s

end Sys2Proof.Machine
end

