-- ==== Sys2Proof/Machine/Start.lean ====
section
/-! DEFINITION. Start-up (R407 to R409) and the margin planner (R410). -/

namespace Sys2Proof.Machine

/-! ## Steps (R408) -/

/-- READY bits of a range. -/
def readyBits (hi lo : Nat) : Dword := BitVec.ofNat 64 ((2 ^ (hi + 1 - lo) - 1) * 2 ^ lo)

/-- Bits lo to hi of the bytes of all dies but those that failed. -/
def dieBits (failed : List Nat) (hi lo : Nat) : Dword :=
  ((List.range 4).filter fun d => !failed.contains (16 + d)).foldl (fun x d => x ||| readyBits (8 + 8 * d + hi) (8 + 8 * d + lo)) 0#64

/-- The trained Zwiov ports. -/
def portBits (failed : List Nat) : Dword :=
  ((List.range 18).filter fun p => !failed.contains (32 + p)).foldl (fun x p => x ||| readyBits (42 + p) (42 + p)) 0#64

/-- The bits that a step sets. -/
def stepBits (failed : List Nat) : Nat → Dword
  | 1 => readyBits 3 3 ||| readyBits 0 0
  | 2 => dieBits failed 1 0
  | 3 => dieBits failed 2 2 ||| readyBits 60 60
  | 4 => dieBits failed 6 3 ||| readyBits 41 41 ||| portBits failed
  | 5 => readyBits 1 1
  | 6 => readyBits 61 61 ||| readyBits 2 2
  | 7 => readyBits 62 62
  | _ => 0#64

/-- The steps of a start that run and pass: those before the first that fails. -/
def passed (failed steps : List Nat) : List Nat := steps.takeWhile fun k => !failed.contains k

/-- The first step of a start that fails. -/
def failedStep (failed steps : List Nat) : Option Nat := steps.find? failed.contains

/-- READY after a start of some steps; the bits of skipped steps stand as their last run left them. -/
def readyAfter (failed steps : List Nat) (kept : Dword) : Dword :=
  let x := (passed failed steps).foldl (fun x k => x ||| stepBits failed k) kept
  if (failedStep failed steps).isNone then x ||| readyBits 63 63 else x

/-- STARTSTAT with COUNT, KIND and FAILED; KEEP is clear. -/
def startStat (count : Nat) (warm : Bool) (failed steps : List Nat) : Dword :=
  let f := match failedStep failed steps with | some k => 2 ^ k | none => 0
  BitVec.ofNat 64 (count % 2 ^ 32 * 2 ^ 32 + (if warm then 256 else 0) + f)

def startCount (s : State) : Nat := (s.m.startstat.extractLsb' 32 32).toNat + 1

/-- Dies that a start found failed. -/
def lostDies (failed : List Nat) : List Nat := (List.range 4).filter fun d => failed.contains (16 + d)

/-- A start: everything at its reset value, READY and STARTSTAT as its steps leave them. The model's own numbers go on, so that no free
value comes twice. -/
def started (s : State) (warm : Bool) (failed steps : List Nat) (kept : Dword) : State :=
  let t := { State.reset with ids := s.ids, pick := s.pick }
  t.updM fun m =>
    { m with ready := readyAfter failed steps kept, startstat := startStat (startCount s) warm failed steps, failedDies := lostDies failed }

/-- A cold start. `failed` names what fails: steps 1 to 7, 16 + d for a die, 32 + p for a port. -/
def execColdStart (failed : List Nat) : State → Host.Outcome State Fault Refusal :=
  runE fun s => started s false failed [1, 2, 3, 4, 5, 6, 7] 0#64

/-! ## Warm start (R409) -/

/-- Steps 2 and 3 are skipped when standby power was kept, training results and firmware are unchanged, unless they failed last. -/
def warmSteps (s : State) (standbyKept fwSame : Bool) : List Nat :=
  let old := s.m.startstat
  [1, 2, 3, 4, 5, 6, 7].filter fun k => !((k == 2 || k == 3) && standbyKept && fwSame && !old.getLsbD k)

/-- What a restart keeps: DRAM when it stayed in self-refresh, device time when standby power was kept. -/
def keepOver (s : State) (dram time : Bool) (s' : State) : State :=
  let low := fun (a : Nat) => decide (a < 2 ^ 51)
  let s' := if dram then { s' with
      mem := s.mem.filter fun c => low c.1
      lazies := s.lazies.filter fun z => low z.lo
      bvhs := s.bvhs
      poison := s.poison
      tags := s.tags.filter low } else s'
  if time then s'.updM fun m =>
    { m with time := s.m.time, phase := s.m.phase, locked := s.m.locked, src1pps := s.m.src1pps, ever := s.m.ever, offset := s.m.offset
             slewed := s.m.slewed, stamps := s.m.stamps }
  else s'

def execWarmStart (failed : List Nat) (standbyKept fwSame : Bool) : State → Host.Outcome State Fault Refusal :=
  runE fun s =>
    let steps := warmSteps s standbyKept fwSame
    let skip := fun k => !steps.contains k
    let kept := (if skip 2 then dieBits failed 1 0 else 0#64) ||| (if skip 3 then dieBits failed 2 2 ||| readyBits 60 60 else 0#64)
    keepOver s (s.m.startstat.getLsbD 0 && skip 3) standbyKept (started s true failed steps kept)

/-! ## The margin planner (R410) -/

/-- The planner proposes a point; it is applied within [LO, HI] when AUTO is set, and a change is recorded and reported. -/
def margin (p : Nat) (s : State) : State :=
  let p := p % 16
  let x := s.m.marginctl
  let lo := (x.extractLsb' 8 4).toNat
  let hi := (x.extractLsb' 12 4).toNat
  let x := (x &&& ~~~(readyBits 23 20)) ||| BitVec.ofNat 64 (p * 2 ^ 20)
  if x.getLsbD 0 && decide (lo ≤ p) && decide (p ≤ hi) then
    let x := (x &&& ~~~(readyBits 19 16)) ||| BitVec.ofNat 64 (p * 2 ^ 16)
    let s' := s.updM fun m => { m with marginctl := x, marginPt := p }
    if p == (s.m.marginctl.extractLsb' 16 4).toNat then s' else report repMargin s'
  else s.updM fun m => { m with marginctl := x }

def execMarginApply (proposed : Nat) : State → Host.Outcome State Fault Refusal := runE (margin proposed)

end Sys2Proof.Machine
end

