-- ==== Sys2Proof/Machine/Texf.lean ====
section
/-! DEFINITION. Filtered fetch (R205, R206). -/

namespace Sys2Proof.Machine

/-- A sampler record, with the tile's fields in place where TILE is set. -/
structure Sampler where
  base : Nat
  size : List Nat
  efmt : Nat
  ch : Nat
  filter : Nat
  norm : Bool
  rowPitch : Nat
  slicePitch : Nat
  modes : List Nat
  border : List Nat
deriving DecidableEq, Repr

def Sampler.ofBytes (b : List Byte) : Sampler where
  base := fld b 0 8
  size := [fld b 8 2 + 1, fld b 10 2 + 1, fld b 12 2 + 1]
  efmt := fld b 14 1
  ch := fld b 15 1 % 4
  filter := fld b 15 1 / 4 % 4
  norm := nbit (fld b 15 1) 4
  rowPitch := fld b 16 4
  slicePitch := fld b 24 8
  modes := [fld b 20 1 % 4, fld b 20 1 / 4 % 4, fld b 20 1 / 16 % 4]
  border := (List.range 4).map fun k => fld b (32 + 4 * k) 4

/-- Texel formats that TEXF reads. -/
def texFormats : List Nat := [2, 3, 4, 5, 6, 10, 11]
/-- Bytes and value of an element. -/
def texBytes (e : Nat) : Nat := if e == 2 then 4 else if e == 3 || e == 4 then 2 else 1
def texVal (e c : Nat) : Val :=
  match e with
  | 2 => Fmt.f32.val c
  | 3 => Fmt.f16.val c
  | 4 => Fmt.bf16.val c
  | 5 => Fmt.e4m3.val c
  | 6 => Fmt.e5m2.val c
  | 10 => Val.ofInt (sextInt 8 c)
  | _ => Val.ofInt (c % 256 : Nat)

/-- Is the record invalid (R205)? -/
def samplerBad (b : List Byte) : Bool :=
  let r := Sampler.ofBytes b
  let tile := nbit (fld b 15 1) 5
  let deep := decide (1 < nth r.size 2 1)
  fld b 15 1 / 64 != 0 || fld b 20 1 / 64 != 0 || fld b 21 3 != 0 || fld b 48 16 != 0 || r.modes.contains 3 || r.filter == 3
    || (r.filter == 1 && deep) || (r.filter == 2 && !deep)
    || (if tile then r.ch != 0 || deep || r.filter == 2 else !texFormats.contains r.efmt)

/-- The sampler that TILE makes of a placard. -/
def Sampler.ofTile (r : Sampler) (p : Plac) : Sampler :=
  { r with base := r.base + 16, size := [p.cols, p.rows, 1], efmt := p.efmt, rowPitch := 16 * p.pitch }

/-- floor of a finite value, and what is left of it. -/
def floorV : Val → Int × Val
  | .fin n m e =>
    let lo := min e 0
    let z := Val.scaled n m e lo
    let k := (2 : Int) ^ (-lo).toNat
    let r := z % k
    (z / k, .fin false r.toNat lo)
  | v => (0, v)

/-- The index of a texel on an axis, by border mode; none is outside. -/
def border (mode size : Nat) (k : Int) : Option Nat :=
  match mode with
  | 0 => some (max 0 (min k ((size : Int) - 1))).toNat
  | 1 => some (k % (size : Int)).toNat
  | _ => if 0 ≤ k && k < (size : Int) then some k.toNat else none

/-- The texel indices of an axis and the weight of the second. -/
def axisTexels (r : Sampler) (k : Nat) (c : Val) : Option (List (Option Nat) × Val) :=
  let size := nth r.size k 1
  let q := if r.norm then rnd .f32 (Val.times c (.fin false size 0)) else c
  if !Val.fin? q then none
  else
    let (i, f) := if r.filter == 0 then ((floorV q).1, .fin false 0 0) else floorV (rnd .f32 (Val.sub q (.fin false 1 (-1))))
    some ([border (nth r.modes k 0) size i, border (nth r.modes k 0) size (i + 1)], f)

/-- Axes used: x and y, and z of a volume. -/
def Sampler.axes (r : Sampler) : Nat := if 1 < nth r.size 2 1 then 3 else 2

/-- What a lane samples: per axis its texels and weight; none for a coordinate that is not finite. -/
def samplePlan (r : Sampler) (ws : List Word) : Option (List (List (Option Nat) × Val)) :=
  (List.range r.axes).foldr (fun k acc =>
    let c := f32v (nth ws k 0#32).toNat
    match acc, if Val.fin? c then axisTexels r k c else none with
    | some l, some a => some (a :: l)
    | _, _ => none) (some [])

/-- The texel positions of a plan, x fastest. -/
def gridOf : List (List (Option Nat) × Val) → List (List (Option Nat))
  | [] => [[]]
  | (ks, _) :: l => (gridOf l).flatMap fun t => ks.map fun k => k :: t

/-- The address of a channel of a texel; none outside. -/
def texAddr (r : Sampler) (pos : List (Option Nat)) (c : Nat) : Option Nat :=
  if pos.contains none then none
  else
    let at_ := fun k => (nth pos k (some 0)).getD 0
    some ((r.base + at_ 2 * r.slicePitch + at_ 1 * r.rowPitch + (at_ 0 * (r.ch + 1) + c) * texBytes r.efmt) % 2 ^ 64)

/-- The addresses of a lane, ascending, each once. -/
def laneTexels (r : Sampler) (plan : List (List (Option Nat) × Val)) : List Nat :=
  let as := (gridOf plan).flatMap fun pos => (List.range (r.ch + 1)).filterMap (texAddr r pos)
  (as.foldl (fun (m : Map Unit) a => m.put a ()) []).map Prod.fst

def lerp (a b f : Val) : Val :=
  rnd .f32 (Val.plus (Val.times (Val.sub Val.one f) a) (Val.times f b))

/-- Interpolate along x, then y, then z: values in the order of `gridOf`. -/
def lerpAll : List (List (Option Nat) × Val) → List Val → Val
  | [], vs => valAt vs 0
  | (_, f) :: l, vs =>
    lerpAll l ((List.range (vs.length / 2)).map fun k => lerp (valAt vs (2 * k)) (valAt vs (2 * k + 1)) f)

/-- A lane's channels, as the bits of its group. -/
def texLane (r : Sampler) (ca : Cache) (lane : Nat) (ws : List Word) : GM Nat := do
  match samplePlan r ws with
  | none => pure ((List.range (r.ch + 1)).foldl (fun x _ => x * 2 ^ 32 + 0x7FC0_0000) 0)
  | some plan => do
    let vals ← (laneTexels r plan).foldlM (fun (m : Map Nat) a => do
      let b ← gLoad (some lane) ca (texBytes r.efmt) a
      pure (m.put a (leNat b))) []
    let chan := fun c =>
      rne32 (lerpAll plan ((gridOf plan).map fun pos =>
        match texAddr r pos c with
        | some a => texVal r.efmt (vals.get a 0)
        | none => f32v (nth r.border c 0)))
    pure ((List.range (r.ch + 1)).foldr (fun c x => chan c + 2 ^ 32 * x) 0)

def execTexf (h : Hdr) (cache : Cache) (d a b : Opd) : State → Host.Outcome State Fault Refusal :=
  runI h { srcs := [(a, 2), (b, 3)], dsts := [(d, 4)], opnd := 1 } false fun act => do
    if act == 0#32 then pure ()
    else do
      let s ← get
      let at_ := (src64 s none a).toNat
      M.trapIf (at_ % 64 != 0) { cause := Cause.alignment, opnd := 1, addr := at_ }
      let rb ← gM (gLoad none cache 64 at_)
      M.trapIf (samplerBad rb) { cause := Cause.samplerInvalid, opnd := 1, addr := at_ }
      let r0 := Sampler.ofBytes rb
      let r ← if nbit (fld rb 15 1) 5 then do
          M.trapIf (r0.base % 16 != 0) { cause := Cause.alignment, opnd := 1, addr := r0.base }
          let pb ← gM (gLoad none cache 16 r0.base)
          let p ← checkedPl (BitVec.ofNat 128 (leNat pb)) true false none 1
          M.trapIf (p.spar != 0 || p.transposed || p.brot != 0 || p.slay != 0 || !texFormats.contains p.efmt) (placT 8 1)
          pure (r0.ofTile p)
        else pure r0
      let s ← get
      suspendM (act.lanes.flatMap fun i =>
        match samplePlan r (srcWords s (some i) b 3) with
        | none => []
        | some plan => (laneTexels r plan).map fun va => ⟨some i, va, resolve .glob .load false (texBytes r.efmt) s (some i) va⟩)
      gatherM act fun i => do
        let s ← get
        let x ← texLane r cache i (srcWords s (some i) b 3)
        pure (dstN d (some i) (r.ch + 1) x, 0)

end Sys2Proof.Machine
end

