-- ==== Sys2Proof/Machine/Trap.lean ====
section
/-! DEFINITION. TRAP, BRK, TRAPRET and HALT (R394 to R396). -/

namespace Sys2Proof.Machine

def execTrap (h : Hdr) (a : Opd) : State → Host.Outcome State Fault Refusal :=
  runI h { uni := true, srcs := [(a, 1)] } false fun _ => do
    let s ← get
    M.trap { cause := Cause.software, detail := ((src32 s none a).extractLsb' 0 8).toNat }

def execBrk (h : Hdr) : State → Host.Outcome State Fault Refusal :=
  runI h { uni := true } false fun _ => M.trap { cause := Cause.breakpoint }

/-! ## TRAPRET (R394) -/

/-- TRAPRET is issued in handler mode with SLOT-B EMPTY, else it raises an access trap; it answers the record of TREC. -/
def trapretM : M Rec := do
  let s ← get
  M.trapIf (!s.cur.c.hm || s.cur.c.b.isSome) (accessT 0)
  match s.cur.c.trec with
  | some r => pure r
  | none => M.trap (accessT 0)

/-- Was the trap of the record raised by a stack access of rule b or c (R299)? It alone is late with every lane done. -/
def Rec.ofStack (r : Rec) : Bool := r.late && r.cause < 0x20 && r.mask != 0#32 && r.done == r.mask

/-- The part that the record holds for the faulting slot. -/
def Rec.part (r : Rec) : Option PcPart := if r.slotB then r.slotBp else r.slotA

/-- The slots are restored, and rules a to c run. -/
def resumeM (r : Rec) (f : State → State) : M Unit := do
  M.upd fun s => f (restoreTrec (s.updCur Cohort.drain))
  settle r.pc r.mask

/-- The successor of a part's instruction (R44). -/
def PcPart.next (s : State) (p : PcPart) : PcPart := if p.off then p else PcPart.advance s s.cur p

/-- The faulting slot resumes after its instruction, in an overlay that has to be there. -/
def skipM (r : Rec) : M Unit :=
  match r.part with
  | some p => do
    wantOverlay p.pc.ovl none
    resumeM r fun s => s.updCur fun c => c.setPart (some (PcPart.next s p))
  | none => resumeM r id

def execTrapretReplay (h : Hdr) : State → Host.Outcome State Fault Refusal :=
  runI h { uni := true } true fun _ => do
    let r ← trapretM
    let s ← get
    let m := r.mask &&& ~~~s.cur.c.tdone
    if r.ofStack || r.late then resumeM r id
    else if m == 0#32 then skipM r
    else resumeM r fun s => s.updC fun c => { c with replay := some (r.slotB, m) }

def execTrapretSkip (h : Hdr) : State → Host.Outcome State Fault Refusal :=
  runI h { uni := true } true fun _ => do
    let r ← trapretM
    if r.ofStack then resumeM r id else skipM r

def execTrapretTo (h : Hdr) (a : Opd) : State → Host.Outcome State Fault Refusal :=
  runI h { uni := true, srcs := [(a, 2)] } true fun _ => do
    let r ← trapretM
    let t ← indTarget a true
    reach t
    resumeM r fun s => s.updCur fun c => c.setPart (c.part?.map fun p => { p with pc := t, run := true, off := false })

def execTrapretKill (h : Hdr) : State → Host.Outcome State Fault Refusal :=
  runI h { uni := true } true fun _ => do
    let r ← trapretM
    M.upd (endOnFault r)

/-! ## HALT (R396) -/

/-- The issuing cohort ends at once: normally, or on a fault in handler mode. -/
def haltNow (s : State) : State :=
  if s.cur.c.hm then
    match s.cur.c.trec with
    | some r => endOnFault r s
    | none => endLanes 1 s
  else endLanes 2 (ringLates s)

def execHalt (h : Hdr) : State → Host.Outcome State Fault Refusal :=
  runI h { uni := true, priv := true } true fun _ => M.upd haltNow

/-- Every cohort of a launch stands at an instruction boundary but the issuing one: each ends as at HALT, and no further unit is
placed. -/
def haltAll (l : Nat) (s : State) : State :=
  let s := s.updLaunch l fun x => { x with halted := true, code := 3 }
  ((s.cohorts.filter fun c => c.pl.launch == some l && c.c.ending.isNone).map (·.pl.id)).foldl
    (fun s id => (asCohort id () (fun s => ((), haltNow s)) s).2) s

def execHaltLaunch (h : Hdr) : State → Host.Outcome State Fault Refusal :=
  runI h { uni := true, priv := true } true fun _ => M.upd fun s =>
    match s.cur.pl.launch with
    | some l => haltAll l s
    | none => haltNow s

end Sys2Proof.Machine
end

