-- ==== Sys2Proof/Machine/Dispatch.lean ====
section
/-! DEFINITION. The dispatch: every constructor of Instr to its meaning. -/

namespace Sys2Proof.Machine

/-- What an instruction or event does. -/
def exec (i : Instr) (s : State) : Host.Outcome State Fault Refusal :=
  match i with
  | .bra h off => Sys2Proof.Machine.execBra h off s
  | .brx h a => Sys2Proof.Machine.execBrx h a s
  | .join h off => Sys2Proof.Machine.execJoin h off s
  | .callRel h d off => Sys2Proof.Machine.execCallRel h d off s
  | .callInd h d a => Sys2Proof.Machine.execCallInd h d a s
  | .ret h a => Sys2Proof.Machine.execRet h a s
  | .exit h => Sys2Proof.Machine.execExit h s
  | .nop h => Sys2Proof.Machine.execNop h s
  | .yield h => Sys2Proof.Machine.execYield h s
  | .sleep h a => Sys2Proof.Machine.execSleep h a s
  | .timewait h a => Sys2Proof.Machine.execTimewait h a s
  | .parkExpiry cohort => Sys2Proof.Machine.execParkExpiry cohort s
  | .idem h => Sys2Proof.Machine.execIdem h s
  | .idemClose h => Sys2Proof.Machine.execIdemClose h s
  | .iadd h m d a b => Sys2Proof.Machine.execIadd h m d a b s
  | .isub h m d a b => Sys2Proof.Machine.execIsub h m d a b s
  | .imul h m d a b => Sys2Proof.Machine.execImul h m d a b s
  | .imulh h m d a b => Sys2Proof.Machine.execImulh h m d a b s
  | .imad h m d a b c => Sys2Proof.Machine.execImad h m d a b c s
  | .idiv h m d a b => Sys2Proof.Machine.execIdiv h m d a b s
  | .irem h m d a b => Sys2Proof.Machine.execIrem h m d a b s
  | .imin h m d a b => Sys2Proof.Machine.execImin h m d a b s
  | .imax h m d a b => Sys2Proof.Machine.execImax h m d a b s
  | .iabs h m d a => Sys2Proof.Machine.execIabs h m d a s
  | .ineg h m d a => Sys2Proof.Machine.execIneg h m d a s
  | .and h m d a b => Sys2Proof.Machine.execAnd h m d a b s
  | .or h m d a b => Sys2Proof.Machine.execOr h m d a b s
  | .xor h m d a b => Sys2Proof.Machine.execXor h m d a b s
  | .not h m d a => Sys2Proof.Machine.execNot h m d a s
  | .andn h m d a b => Sys2Proof.Machine.execAndn h m d a b s
  | .shl h m d a b => Sys2Proof.Machine.execShl h m d a b s
  | .shr h m d a b => Sys2Proof.Machine.execShr h m d a b s
  | .sar h m d a b => Sys2Proof.Machine.execSar h m d a b s
  | .rol h m d a b => Sys2Proof.Machine.execRol h m d a b s
  | .ror h m d a b => Sys2Proof.Machine.execRor h m d a b s
  | .bfe h m d a b => Sys2Proof.Machine.execBfe h m d a b s
  | .bfi h m d a b c => Sys2Proof.Machine.execBfi h m d a b c s
  | .popc h m d a => Sys2Proof.Machine.execPopc h m d a s
  | .clz h m d a => Sys2Proof.Machine.execClz h m d a s
  | .ctz h m d a => Sys2Proof.Machine.execCtz h m d a s
  | .brev h m d a => Sys2Proof.Machine.execBrev h m d a s
  | .byteperm h m d a b c => Sys2Proof.Machine.execByteperm h m d a b c s
  | .isetp h m cmp d a b => Sys2Proof.Machine.execIsetp h m cmp d a b s
  | .sel h m d a b c => Sys2Proof.Machine.execSel h m d a b c s
  | .mov h m d a => Sys2Proof.Machine.execMov h m d a s
  | .movi h m d x => Sys2Proof.Machine.execMovi h m d x s
  | .lea h m d a b => Sys2Proof.Machine.execLea h m d a b s
  | .iadd64 h m d a b => Sys2Proof.Machine.execIadd64 h m d a b s
  | .imad64 h m d a b c => Sys2Proof.Machine.execImad64 h m d a b c s
  | .fadd h m d a b => Sys2Proof.Machine.execFadd h m d a b s
  | .fsub h m d a b => Sys2Proof.Machine.execFsub h m d a b s
  | .fmul h m d a b => Sys2Proof.Machine.execFmul h m d a b s
  | .ffma h m d a b c => Sys2Proof.Machine.execFfma h m d a b c s
  | .fmin h m d a b => Sys2Proof.Machine.execFmin h m d a b s
  | .fmax h m d a b => Sys2Proof.Machine.execFmax h m d a b s
  | .fsetp h m cmp d a b => Sys2Proof.Machine.execFsetp h m cmp d a b s
  | .fclass h m d a => Sys2Proof.Machine.execFclass h m d a s
  | .frcp h m d a => Sys2Proof.Machine.execFrcp h m d a s
  | .frsq h m d a => Sys2Proof.Machine.execFrsq h m d a s
  | .fsqrt h m d a => Sys2Proof.Machine.execFsqrt h m d a s
  | .fdiv h m d a b => Sys2Proof.Machine.execFdiv h m d a b s
  | .fexp2 h m d a => Sys2Proof.Machine.execFexp2 h m d a s
  | .flog2 h m d a => Sys2Proof.Machine.execFlog2 h m d a s
  | .fsin h m d a => Sys2Proof.Machine.execFsin h m d a s
  | .fcos h m d a => Sys2Proof.Machine.execFcos h m d a s
  | .frnd h m d a => Sys2Proof.Machine.execFrnd h m d a s
  | .dadd h m d a b => Sys2Proof.Machine.execDadd h m d a b s
  | .dmul h m d a b => Sys2Proof.Machine.execDmul h m d a b s
  | .dfma h m d a b c => Sys2Proof.Machine.execDfma h m d a b c s
  | .dsetp h m cmp d a b => Sys2Proof.Machine.execDsetp h m cmp d a b s
  | .hfma2 h m d a b c => Sys2Proof.Machine.execHfma2 h m d a b c s
  | .hadd2 h m d a b => Sys2Proof.Machine.execHadd2 h m d a b s
  | .hmul2 h m d a b => Sys2Proof.Machine.execHmul2 h m d a b s
  | .cvt h m d a => Sys2Proof.Machine.execCvt h m d a s
  | .cvtsr h m d a b => Sys2Proof.Machine.execCvtsr h m d a b s
  | .cvtpk h m d a b => Sys2Proof.Machine.execCvtpk h m d a b s
  | .cvtup h m d a b => Sys2Proof.Machine.execCvtup h m d a b s
  | .shfl h op seg ty d a b c => Sys2Proof.Machine.execShfl h op seg ty d a b c s
  | .ballot h d a => Sys2Proof.Machine.execBallot h d a s
  | .vote h op ty d a => Sys2Proof.Machine.execVote h op ty d a s
  | .matchL h all ty d a => Sys2Proof.Machine.execMatchL h all ty d a s
  | .redux h op ty d a => Sys2Proof.Machine.execRedux h op ty d a s
  | .prefixL h op excl ty d a => Sys2Proof.Machine.execPrefixL h op excl ty d a s
  | .xchgb h xs d a b => Sys2Proof.Machine.execXchgb h xs d a b s
  | .lanemask h op d => Sys2Proof.Machine.execLanemask h op d s
  | .reorder h strict d a => Sys2Proof.Machine.execReorder h strict d a s
  | .ld h m d a off => Sys2Proof.Machine.execLd h m d a off s
  | .st h m a b off => Sys2Proof.Machine.execSt h m a b off s
  | .lds h m d a off => Sys2Proof.Machine.execLds h m d a off s
  | .sts h m a b off => Sys2Proof.Machine.execSts h m a b off s
  | .ldq h m d a off => Sys2Proof.Machine.execLdq h m d a off s
  | .stq h m a b off => Sys2Proof.Machine.execStq h m a b off s
  | .ldsc h m d a off => Sys2Proof.Machine.execLdsc h m d a off s
  | .tld h m d a b c => Sys2Proof.Machine.execTld h m d a b c s
  | .tst h m a b c => Sys2Proof.Machine.execTst h m a b c s
  | .texf h cache d a b => Sys2Proof.Machine.execTexf h cache d a b s
  | .prefetch h l2 a off => Sys2Proof.Machine.execPrefetch h l2 a off s
  | .cacheopWb h a off => Sys2Proof.Machine.execCacheopWb h a off s
  | .cacheopInv h a off => Sys2Proof.Machine.execCacheopInv h a off s
  | .cacheopWbinv h a off => Sys2Proof.Machine.execCacheopWbinv h a off s
  | .atom h m op d a b c => Sys2Proof.Machine.execAtom h m op d a b c s
  | .red h m op a b => Sys2Proof.Machine.execRed h m op a b s
  | .atoms h m op d a b c => Sys2Proof.Machine.execAtoms h m op d a b c s
  | .atomq h m op d a b c => Sys2Proof.Machine.execAtomq h m op d a b c s
  | .fence h order scope => Sys2Proof.Machine.execFence h order scope s
  | .fenceSc h scope => Sys2Proof.Machine.execFenceSc h scope s
  | .heartbeatTick fabric => Sys2Proof.Machine.execHeartbeatTick fabric s
  | .drclose h scope d a => Sys2Proof.Machine.execDrclose h scope d a s
  | .cpy h m d a b => Sys2Proof.Machine.execCpy h m d a b s
  | .cpyTile h m d a => Sys2Proof.Machine.execCpyTile h m d a s
  | .cpyt h m d a => Sys2Proof.Machine.execCpyt h m d a s
  | .cpytScat h m d a => Sys2Proof.Machine.execCpytScat h m d a s
  | .cpyg h m esz d a b => Sys2Proof.Machine.execCpyg h m esz d a b s
  | .cpyc h scope a => Sys2Proof.Machine.execCpyc h scope a s
  | .cseal h => Sys2Proof.Machine.execCseal h s
  | .cwait h d a => Sys2Proof.Machine.execCwait h d a s
  | .cquery h clr d => Sys2Proof.Machine.execCquery h clr d s
  | .courierTransfer copy => Sys2Proof.Machine.execCourierTransfer copy s
  | .chainRecord copy => Sys2Proof.Machine.execChainRecord copy s
  | .plset h field d a b => Sys2Proof.Machine.execPlset h field d a b s
  | .plget h field d a => Sys2Proof.Machine.execPlget h field d a s
  | .plchk h trap reg d a => Sys2Proof.Machine.execPlchk h trap reg d a s
  | .plinfer h sum d a b => Sys2Proof.Machine.execPlinfer h sum d a b s
  | .mma h d a b c => Sys2Proof.Machine.execMma h d a b c s
  | .mmasp h d a b c => Sys2Proof.Machine.execMmasp h d a b c s
  | .passGrant quad => Sys2Proof.Machine.execPassGrant quad s
  | .passExecute quad => Sys2Proof.Machine.execPassExecute quad s
  | .budgetRefill => Sys2Proof.Machine.execBudgetRefill s
  | .zclr h d => Sys2Proof.Machine.execZclr h d s
  | .zanchor h pin d a => Sys2Proof.Machine.execZanchor h pin d a s
  | .zread h sat d a b c => Sys2Proof.Machine.execZread h sat d a b c s
  | .zwrite h d a b c => Sys2Proof.Machine.execZwrite h d a b c s
  | .zst h spad sat a b c => Sys2Proof.Machine.execZst h spad sat a b c s
  | .zld h spad d a => Sys2Proof.Machine.execZld h spad d a s
  | .zadd h spad d a => Sys2Proof.Machine.execZadd h spad d a s
  | .zchk h quiet d a => Sys2Proof.Machine.execZchk h quiet d a s
  | .mwait h a => Sys2Proof.Machine.execMwait h a s
  | .cbload h a b => Sys2Proof.Machine.execCbload h a b s
  | .tcvt h m d a b c => Sys2Proof.Machine.execTcvt h m d a b c s
  | .rng h x4 d a b => Sys2Proof.Machine.execRng h x4 d a b s
  | .rsvld h m d a => Sys2Proof.Machine.execRsvld h m d a s
  | .rsvst h m a b => Sys2Proof.Machine.execRsvst h m a b s
  | .rsvupd h d a b => Sys2Proof.Machine.execRsvupd h d a b s
  | .rsvmrg h d a b c => Sys2Proof.Machine.execRsvmrg h d a b c s
  | .rsvnorm h d => Sys2Proof.Machine.execRsvnorm h d s
  | .rsvcap h d a => Sys2Proof.Machine.execRsvcap h d a s
  | .ltsample h d a b c => Sys2Proof.Machine.execLtsample h d a b c s
  | .trace h flags d a b c => Sys2Proof.Machine.execTrace h flags d a b c s
  | .rayTraversal ray => Sys2Proof.Machine.execRayTraversal ray s
  | .hartEvaluation rq => Sys2Proof.Machine.execHartEvaluation rq s
  | .rhit h d => Sys2Proof.Machine.execRhit h d s
  | .rwait h => Sys2Proof.Machine.execRwait h s
  | .curate h a => Sys2Proof.Machine.execCurate h a s
  | .resampleJob job => Sys2Proof.Machine.execResampleJob job s
  | .haloSyncJob job => Sys2Proof.Machine.execHaloSyncJob job s
  | .curwait h a => Sys2Proof.Machine.execCurwait h a s
  | .bvhbuild h a => Sys2Proof.Machine.execBvhbuild h a s
  | .buildJob job => Sys2Proof.Machine.execBuildJob job s
  | .bvhsize h d a b => Sys2Proof.Machine.execBvhsize h d a b s
  | .barinit h m det a b => Sys2Proof.Machine.execBarinit h m det a b s
  | .bararv h m d a b c => Sys2Proof.Machine.execBararv h m d a b c s
  | .barwait h m d a b => Sys2Proof.Machine.execBarwait h m d a b s
  | .barsync h m d a b c => Sys2Proof.Machine.execBarsync h m d a b c s
  | .barinv h m a => Sys2Proof.Machine.execBarinv h m a s
  | .barinvFree h m a => Sys2Proof.Machine.execBarinvFree h m a s
  | .barqry h m d a => Sys2Proof.Machine.execBarqry h m d a s
  | .ovld h d a => Sys2Proof.Machine.execOvld h d a s
  | .overlayLoad core slot => Sys2Proof.Machine.execOverlayLoad core slot s
  | .ovwait h d a => Sys2Proof.Machine.execOvwait h d a s
  | .ovpin h d a => Sys2Proof.Machine.execOvpin h d a s
  | .ovunpin h d a => Sys2Proof.Machine.execOvunpin h d a s
  | .ovevict h d a => Sys2Proof.Machine.execOvevict h d a s
  | .callo h d a b => Sys2Proof.Machine.execCallo h d a b s
  | .overlayTransferRetry cohort => Sys2Proof.Machine.execOverlayTransferRetry cohort s
  | .emit h d b => Sys2Proof.Machine.execEmit h d b s
  | .emitQ h d a b => Sys2Proof.Machine.execEmitQ h d a b s
  | .reserve h d b => Sys2Proof.Machine.execReserve h d b s
  | .reserveDrop h b => Sys2Proof.Machine.execReserveDrop h b s
  | .nodeend h => Sys2Proof.Machine.execNodeend h s
  | .invocationLaunch launch node core slotIx => Sys2Proof.Machine.execInvocationLaunch launch node core slotIx s
  | .fixedNodeConsume launch node => Sys2Proof.Machine.execFixedNodeConsume launch node s
  | .filldone h => Sys2Proof.Machine.execFilldone h s
  | .fillfail h a => Sys2Proof.Machine.execFillfail h a s
  | .fillqry h acq d a => Sys2Proof.Machine.execFillqry h acq d a s
  | .fillRequest part asid va => Sys2Proof.Machine.execFillRequest part asid va s
  | .generatorStart fill core slotIx => Sys2Proof.Machine.execGeneratorStart fill core slotIx s
  | .zeroFill fill => Sys2Proof.Machine.execZeroFill fill s
  | .lz4Fill fill => Sys2Proof.Machine.execLz4Fill fill s
  | .csrr h d a => Sys2Proof.Machine.execCsrr h d a s
  | .csrw h a b => Sys2Proof.Machine.execCsrw h a b s
  | .drroundWrite x => Sys2Proof.Machine.execDrroundWrite x s
  | .rsvsurfWrite part x => Sys2Proof.Machine.execRsvsurfWrite part x s
  | .trap h a => Sys2Proof.Machine.execTrap h a s
  | .brk h => Sys2Proof.Machine.execBrk h s
  | .trapretReplay h => Sys2Proof.Machine.execTrapretReplay h s
  | .trapretSkip h => Sys2Proof.Machine.execTrapretSkip h s
  | .trapretTo h a => Sys2Proof.Machine.execTrapretTo h a s
  | .trapretKill h => Sys2Proof.Machine.execTrapretKill h s
  | .halt h => Sys2Proof.Machine.execHalt h s
  | .haltLaunch h => Sys2Proof.Machine.execHaltLaunch h s
  | .tlbinvAll h => Sys2Proof.Machine.execTlbinvAll h s
  | .tlbinvAsid h b => Sys2Proof.Machine.execTlbinvAsid h b s
  | .tlbinvPage h a b => Sys2Proof.Machine.execTlbinvPage h a b s
  | .tlbinvRange h a b c => Sys2Proof.Machine.execTlbinvRange h a b c s
  | .splinter h d a => Sys2Proof.Machine.execSplinter h d a s
  | .migrate h d a => Sys2Proof.Machine.execMigrate h d a s
  | .fillevict h d a b c => Sys2Proof.Machine.execFillevict h d a b c s
  | .openwin h d a b => Sys2Proof.Machine.execOpenwin h d a b s
  | .closewin h d => Sys2Proof.Machine.execClosewin h d s
  | .provchk h d a b => Sys2Proof.Machine.execProvchk h d a b s
  | .provchkStore h d a b => Sys2Proof.Machine.execProvchkStore h d a b s
  | .dlogq h d => Sys2Proof.Machine.execDlogq h d s
  | .dlogqWait h d => Sys2Proof.Machine.execDlogqWait h d s
  | .time h d => Sys2Proof.Machine.execTime h d s
  | .timeStep h a => Sys2Proof.Machine.execTimeStep h a s
  | .deferredStoreRetry core => Sys2Proof.Machine.execDeferredStoreRetry core s
  | .deferredStoreTimeout core => Sys2Proof.Machine.execDeferredStoreTimeout core s
  | .pwrctlWrite x => Sys2Proof.Machine.execPwrctlWrite x s
  | .carvectlWrite x => Sys2Proof.Machine.execCarvectlWrite x s
  | .cqdiscWrite part x => Sys2Proof.Machine.execCqdiscWrite part x s
  | .registerWrite off x => Sys2Proof.Machine.execRegisterWrite off x s
  | .doorbell off bytes => Sys2Proof.Machine.execDoorbell off bytes s
  | .hostPostedWrite off bytes => Sys2Proof.Machine.execHostPostedWrite off bytes s
  | .hopPieceAck seq die => Sys2Proof.Machine.execHopPieceAck seq die s
  | .hostRead off n => Sys2Proof.Machine.execHostRead off n s
  | .queueArbitration part => Sys2Proof.Machine.execQueueArbitration part s
  | .launchEntry q idx => Sys2Proof.Machine.execLaunchEntry q idx s
  | .waitEntry q idx => Sys2Proof.Machine.execWaitEntry q idx s
  | .signalEntry q idx => Sys2Proof.Machine.execSignalEntry q idx s
  | .nopEntry q idx => Sys2Proof.Machine.execNopEntry q idx s
  | .entryCompletion q idx => Sys2Proof.Machine.execEntryCompletion q idx s
  | .unitGrant launch die count => Sys2Proof.Machine.execUnitGrant launch die count s
  | .leaderElection launch => Sys2Proof.Machine.execLeaderElection launch s
  | .unitPlacement launch unit core => Sys2Proof.Machine.execUnitPlacement launch unit core s
  | .startTimeReached launch => Sys2Proof.Machine.execStartTimeReached launch s
  | .priorityPreemption part => Sys2Proof.Machine.execPriorityPreemption part s
  | .driverSaveRequest byLaunch n => Sys2Proof.Machine.execDriverSaveRequest byLaunch n s
  | .contextRestore saved core => Sys2Proof.Machine.execContextRestore saved core s
  | .parkedRequest part pa kind => Sys2Proof.Machine.execParkedRequest part pa kind s
  | .parkedReplay n => Sys2Proof.Machine.execParkedReplay n s
  | .conservationTimeout n => Sys2Proof.Machine.execConservationTimeout n s
  | .heldUpdateAccept n => Sys2Proof.Machine.execHeldUpdateAccept n s
  | .coldStart failed => Sys2Proof.Machine.execColdStart failed s
  | .warmStart failed standbyKept fwSame => Sys2Proof.Machine.execWarmStart failed standbyKept fwSame s
  | .dieFailure die => Sys2Proof.Machine.execDieFailure die s
  | .powerGovernorMeasure watts refill => Sys2Proof.Machine.execPowerGovernorMeasure watts refill s
  | .thermalStep celsius => Sys2Proof.Machine.execThermalStep celsius s
  | .thermalMachineCheck => Sys2Proof.Machine.execThermalMachineCheck s
  | .powerMachineCheck => Sys2Proof.Machine.execPowerMachineCheck s
  | .docentSweep part => Sys2Proof.Machine.execDocentSweep part s
  | .heatRaise part asid va rd wr => Sys2Proof.Machine.execHeatRaise part asid va rd wr s
  | .uncorrectableError site => Sys2Proof.Machine.execUncorrectableError site s
  | .eccCorrection part structCode pa => Sys2Proof.Machine.execEccCorrection part structCode pa s
  | .timingReplay part => Sys2Proof.Machine.execTimingReplay part s
  | .partitionQuiesce part => Sys2Proof.Machine.execPartitionQuiesce part s
  | .zwiovRd src pa n => Sys2Proof.Machine.execZwiovRd src pa n s
  | .zwiovWr src pa bytes => Sys2Proof.Machine.execZwiovWr src pa bytes s
  | .zwiovAt src pa op ty key b c => Sys2Proof.Machine.execZwiovAt src pa op ty key b c s
  | .zwiovRed src pa op ty key b => Sys2Proof.Machine.execZwiovRed src pa op ty key b s
  | .zwiovCourier src tag pa n bytes => Sys2Proof.Machine.execZwiovCourier src tag pa n bytes s
  | .ptpMessage msg => Sys2Proof.Machine.execPtpMessage msg s
  | .flitReplay port => Sys2Proof.Machine.execFlitReplay port s
  | .pathFailure module => Sys2Proof.Machine.execPathFailure module s
  | .marginApply proposed => Sys2Proof.Machine.execMarginApply proposed s
  | .ppsPulse offset => Sys2Proof.Machine.execPpsPulse offset s

end Sys2Proof.Machine
end

