-- ==== Sys2Proof/Decode.lean ====
section
/-! DEFINITION. Decoding of instruction words, total, with named rejections (R25 to R34, R46, R47), and the encoder. Both
go through the fields of R25 (`Raw`). -/

namespace Sys2Proof

/-- The fields of an instruction word (R25). -/
structure Raw where
  op : BitVec 8
  fmt : BitVec 4
  guard : BitVec 4
  d : BitVec 10
  a : BitVec 10
  b : BitVec 10
  imm : BitVec 32
  mod : BitVec 12
  sched : BitVec 6
deriving DecidableEq, Repr

/-- The word of the fields (R25). -/
def Raw.word (r : Raw) : BitVec 96 :=
  r.sched ++ r.mod ++ r.imm ++ r.b ++ r.a ++ r.d ++ r.guard ++ r.fmt ++ r.op

/-- The fields of a word (R25). -/
def Raw.ofWord (w : BitVec 96) : Raw where
  op := w.extractLsb' 0 8
  fmt := w.extractLsb' 8 4
  guard := w.extractLsb' 12 4
  d := w.extractLsb' 16 10
  a := w.extractLsb' 26 10
  b := w.extractLsb' 36 10
  imm := w.extractLsb' 46 32
  mod := w.extractLsb' 78 12
  sched := w.extractLsb' 90 6

/-- Why a word is no instruction (R47). -/
inductive Reject where
  /-- OP and FMT that R46 does not assign, or a reserved index or code in a field -/
  | unassigned
  /-- GUARD 0xF -/
  | guard
  /-- an operand, a MOD code or a bit that the entry does not accept -/
  | notAccepted
deriving DecidableEq, Repr

/-! ## Codes -/

def Ty.code : Ty → BitVec 4
  | .dflt => 0 | .u8 => 1 | .s8 => 2 | .u16 => 3 | .s16 => 4 | .u32 => 5 | .s32 => 6 | .u64 => 7 | .s64 => 8
  | .f16 => 9 | .bf16 => 10 | .f32 => 11 | .f64 => 12 | .b128 => 13
def Ty.ofCode (c : BitVec 4) : Option Ty :=
  match c.toNat with
  | 0 => some .dflt | 1 => some .u8 | 2 => some .s8 | 3 => some .u16 | 4 => some .s16 | 5 => some .u32
  | 6 => some .s32 | 7 => some .u64 | 8 => some .s64 | 9 => some .f16 | 10 => some .bf16 | 11 => some .f32
  | 12 => some .f64 | 13 => some .b128 | _ => none
def Rnd.code : Rnd → BitVec 2
  | .rne => 0 | .rz => 1 | .ru => 2 | .rd => 3
def Rnd.ofCode (c : BitVec 2) : Rnd :=
  match c.toNat with
  | 0 => .rne | 1 => .rz | 2 => .ru | _ => .rd
def Scope.code : Scope → BitVec 3
  | .coh => 0 | .core => 1 | .quad => 2 | .die => 3 | .dev => 4 | .fab => 5 | .sys => 6
def Scope.ofCode (c : BitVec 3) : Option Scope :=
  match c.toNat with
  | 0 => some .coh | 1 => some .core | 2 => some .quad | 3 => some .die | 4 => some .dev | 5 => some .fab
  | 6 => some .sys | _ => none
def Order.code : Order → BitVec 2
  | .rlx => 0 | .acq => 1 | .rel => 2 | .ar => 3
def Order.ofCode (c : BitVec 2) : Order :=
  match c.toNat with
  | 0 => .rlx | 1 => .acq | 2 => .rel | _ => .ar
def Cache.code : Cache → BitVec 2
  | .dflt => 0 | .nl1 => 1 | .evf => 2 | .keep => 3
def Cache.ofCode (c : BitVec 2) : Cache :=
  match c.toNat with
  | 0 => .dflt | 1 => .nl1 | 2 => .evf | _ => .keep
def Space.code : Space → BitVec 2
  | .glob => 0 | .own => 1 | .quad => 2 | .map => 3
def Space.ofCode (c : BitVec 2) : Space :=
  match c.toNat with
  | 0 => .glob | 1 => .own | 2 => .quad | _ => .map
def ICmp.code : ICmp → BitVec 4
  | .eq => 0 | .ne => 1 | .lt => 2 | .le => 3 | .gt => 4 | .ge => 5
def ICmp.ofCode (c : BitVec 4) : Option ICmp :=
  match c.toNat with
  | 0 => some .eq | 1 => some .ne | 2 => some .lt | 3 => some .le | 4 => some .gt | 5 => some .ge | _ => none
def FCmp.code : FCmp → BitVec 4
  | .eq => 0 | .ne => 1 | .lt => 2 | .le => 3 | .gt => 4 | .ge => 5 | .num => 6 | .nan => 7
def FCmp.ofCode (c : BitVec 4) : Option FCmp :=
  match c.toNat with
  | 0 => some .eq | 1 => some .ne | 2 => some .lt | 3 => some .le | 4 => some .gt | 5 => some .ge | 6 => some .num
  | 7 => some .nan | _ => none
def ShflOp.code : ShflOp → BitVec 4
  | .idx => 0 | .rot => 1 | .rev => 2 | .xor => 3
def ShflOp.ofCode (c : BitVec 4) : Option ShflOp :=
  match c.toNat with
  | 0 => some .idx | 1 => some .rot | 2 => some .rev | 3 => some .xor | _ => none
def VoteOp.code : VoteOp → BitVec 4
  | .all => 0 | .any => 1 | .uni => 2
def VoteOp.ofCode (c : BitVec 4) : Option VoteOp :=
  match c.toNat with
  | 0 => some .all | 1 => some .any | 2 => some .uni | _ => none
def FoldOp.code : FoldOp → BitVec 4
  | .add => 0 | .min => 1 | .max => 2 | .and => 3 | .or => 4 | .xor => 5
def FoldOp.ofCode (c : BitVec 4) : Option FoldOp :=
  match c.toNat with
  | 0 => some .add | 1 => some .min | 2 => some .max | 3 => some .and | 4 => some .or | 5 => some .xor | _ => none
def LmOp.code : LmOp → BitVec 4
  | .eq => 0 | .lt => 1 | .le => 2 | .gt => 3 | .ge => 4
def LmOp.ofCode (c : BitVec 4) : Option LmOp :=
  match c.toNat with
  | 0 => some .eq | 1 => some .lt | 2 => some .le | 3 => some .gt | 4 => some .ge | _ => none
def AtomOp.code : AtomOp → BitVec 4
  | .add => 0 | .sub => 1 | .min => 2 | .max => 3 | .and => 4 | .or => 5 | .xor => 6 | .xchg => 7 | .cas => 8
  | .fadd => 9 | .fmin => 10 | .fmax => 11 | .fxadd => 12
def AtomOp.ofCode (c : BitVec 4) : Option AtomOp :=
  match c.toNat with
  | 0 => some .add | 1 => some .sub | 2 => some .min | 3 => some .max | 4 => some .and | 5 => some .or
  | 6 => some .xor | 7 => some .xchg | 8 => some .cas | 9 => some .fadd | 10 => some .fmin | 11 => some .fmax
  | 12 => some .fxadd | _ => none
/-- A bit as a field. -/
def bit (b : Bool) : BitVec 1 := BitVec.ofBool b

/-! ## Operands (R27, R28) -/

/-- The operand field. -/
def Opd.field : Opd → BitVec 10
  | .v n => 0#2 ++ n
  | .s n => 0b010#3 ++ n
  | .sp n => 0b011#3 ++ n
  | .imm x => 0b10#2 ++ x
  | .p n => 0b1100000#7 ++ n
  | .q n => 0b1100001#7 ++ n
  | .pl n => 0b110001#6 ++ n
  | .z n => 0b110010#6 ++ n
  | .lit _ => 0x3FE#10
  | .zr => 0x3FF#10
  | .none => 0#10

/-- The IMM word of the operand that names the literal, else zero (R30). -/
def litOf : List Opd → Word
  | [] => 0#32
  | .lit x :: _ => x
  | _ :: l => litOf l

/-- The operand of a field (R27, R28); reserved indices give none. -/
def opd (f : BitVec 10) (imm : Word) : Option Opd :=
  match (f.extractLsb' 8 2).toNat with
  | 0 => some (.v (f.extractLsb' 0 8))
  | 1 => some (if f.getLsbD 7 then .sp (f.extractLsb' 0 7) else .s (f.extractLsb' 0 7))
  | 2 => some (.imm (f.extractLsb' 0 8))
  | _ =>
    match (f.extractLsb' 3 5).toNat with
    | 0 => some (.p (f.extractLsb' 0 3))
    | 1 => some (.q (f.extractLsb' 0 3))
    | 2 | 3 => some (.pl (f.extractLsb' 0 4))
    | 4 | 5 => some (.z (f.extractLsb' 0 4))
    | _ => if f == 0x3FE#10 then some (.lit imm) else if f == 0x3FF#10 then some .zr else none

/-- An operand that the form may leave out: the zero field is then no V0 (R47). -/
def opdN (f : BitVec 10) (imm : Word) : Option Opd := if f == 0#10 then some .none else opd f imm

/-! ## MOD layouts (R33, R118, R258, R318) -/

def AMod.bits (m : AMod) : BitVec 12 := m.x ++ bit m.ftz ++ bit m.sat ++ m.rnd.code ++ m.ty.code
def AMod.of (b : BitVec 12) : Option AMod := do
  let ty ← Ty.ofCode (b.extractLsb' 0 4)
  some ⟨b.extractLsb' 8 4, b.getLsbD 7, b.getLsbD 6, Rnd.ofCode (b.extractLsb' 4 2), ty⟩
def MMod.bits (m : MMod) : BitVec 12 := bit m.x ++ m.cache.code ++ m.order.code ++ m.scope.code ++ m.ty.code
def MMod.of (b : BitVec 12) : Option MMod := do
  let ty ← Ty.ofCode (b.extractLsb' 0 4)
  let sc ← Scope.ofCode (b.extractLsb' 4 3)
  some ⟨b.getLsbD 11, Cache.ofCode (b.extractLsb' 9 2), Order.ofCode (b.extractLsb' 7 2), sc, ty⟩
/-- The courier layout with MOD[7] and MOD[3:0] given (R258). -/
def CMod.bits (m : CMod) (x : Bool) (e : BitVec 4) : BitVec 12 := m.dsp.code ++ m.ssp.code ++ bit x ++ m.scope.code ++ e
def CMod.of (b : BitVec 12) : Option CMod := do
  let sc ← Scope.ofCode (b.extractLsb' 4 3)
  some ⟨Space.ofCode (b.extractLsb' 10 2), Space.ofCode (b.extractLsb' 8 2), sc⟩
/-- The barrier layout with MOD[11] given (R318). -/
def BMod.bits (m : BMod) (x : Bool) : BitVec 12 := bit x ++ m.space.code ++ 0#2 ++ m.scope.code ++ 0#4
def BMod.of (b : BitVec 12) : Option BMod := do
  let sc ← Scope.ofCode (b.extractLsb' 4 3)
  some ⟨Space.ofCode (b.extractLsb' 9 2), sc⟩
/-- MOD and IMM of the converting instructions (R118). -/
def CvtMod.bits (m : CvtMod) : BitVec 12 := 0#4 ++ bit m.ftz ++ bit m.sat ++ m.rnd.code ++ 0#4
def CvtMod.imm (m : CvtMod) : Word := 0#19 ++ m.sf ++ 0#2 ++ bit m.b16 ++ m.df
def CvtMod.of (b : BitVec 12) (imm : Word) : CvtMod :=
  ⟨imm.extractLsb' 8 5, imm.extractLsb' 0 5, imm.getLsbD 5, b.getLsbD 7, b.getLsbD 6, Rnd.ofCode (b.extractLsb' 4 2)⟩

/-- SCOPE alone (R256, R257). -/
def scopeBits (sc : Scope) : BitVec 12 := 0#5 ++ sc.code ++ 0#4

def Guard.bits (g : Guard) : BitVec 4 := bit g.neg ++ g.idx
def Sched.bits (s : Sched) : BitVec 6 := bit s.sw ++ s.fwd ++ s.stall

/-- A word of the header, an operation and its operands. -/
def mkRaw (h : Hdr) (op : BitVec 8) (fmt : BitVec 4) (d a b : Opd) (imm : Word) (mod : BitVec 12) : Raw :=
  ⟨op, fmt, h.g.bits, d.field, a.field, b.field, imm, mod, h.sc.bits⟩

/-- IMM of a fourth operand (R25). -/
def immC (c : Opd) : Word := 0#22 ++ c.field

/-- IMM of an atomic: C for .cas, else the literal of B or zero (R249). -/
def immAtom (op : AtomOp) (b c : Opd) : Word := if op == .cas then immC c else litOf [b]

/-! ## The encoder -/

/-- The fields of an instruction, from the encoding tables of the entries. An event has none and gives OP 0x00. -/
def Instr.toRaw : Instr → Raw
  | .bra h off => mkRaw h 0x01 0 .none .none .none off 0
  | .brx h a => mkRaw h 0x02 0 .none a .none 0 0
  | .join h off => mkRaw h 0x03 0 .none .none .none off 0
  | .callRel h d off => mkRaw h 0x04 0 d .none .none off 0
  | .callInd h d a => mkRaw h 0x04 0 d a .none 0 0
  | .ret h a => mkRaw h 0x05 0 .none a .none 0 0
  | .exit h => mkRaw h 0x06 0 .none .none .none 0 0
  | .nop h => mkRaw h 0x07 0 .none .none .none 0 0
  | .yield h => mkRaw h 0x08 0 .none .none .none 0 0
  | .sleep h a => mkRaw h 0x09 0 .none a .none (litOf [a]) 0
  | .idem h => mkRaw h 0x0A 0 .none .none .none 0 0
  | .idemClose h => mkRaw h 0x0A 0 .none .none .none 0 1
  | .timewait h a => mkRaw h 0x0B 0 .none a .none 0 0
  | .iadd h m d a b => mkRaw h 0x10 0 d a b (litOf [a, b]) m.bits
  | .isub h m d a b => mkRaw h 0x11 0 d a b (litOf [a, b]) m.bits
  | .imul h m d a b => mkRaw h 0x12 0 d a b (litOf [a, b]) m.bits
  | .imulh h m d a b => mkRaw h 0x13 0 d a b (litOf [a, b]) m.bits
  | .imad h m d a b c => mkRaw h 0x14 0 d a b (immC c) m.bits
  | .idiv h m d a b => mkRaw h 0x15 0 d a b (litOf [a, b]) m.bits
  | .irem h m d a b => mkRaw h 0x16 0 d a b (litOf [a, b]) m.bits
  | .imin h m d a b => mkRaw h 0x17 0 d a b (litOf [a, b]) m.bits
  | .imax h m d a b => mkRaw h 0x18 0 d a b (litOf [a, b]) m.bits
  | .iabs h m d a => mkRaw h 0x19 0 d a .none (litOf [a]) m.bits
  | .ineg h m d a => mkRaw h 0x1A 0 d a .none (litOf [a]) m.bits
  | .and h m d a b => mkRaw h 0x1B 0 d a b (litOf [a, b]) m.bits
  | .or h m d a b => mkRaw h 0x1C 0 d a b (litOf [a, b]) m.bits
  | .xor h m d a b => mkRaw h 0x1D 0 d a b (litOf [a, b]) m.bits
  | .not h m d a => mkRaw h 0x1E 0 d a .none (litOf [a]) m.bits
  | .andn h m d a b => mkRaw h 0x1F 0 d a b (litOf [a, b]) m.bits
  | .shl h m d a b => mkRaw h 0x20 0 d a b (litOf [a, b]) m.bits
  | .shr h m d a b => mkRaw h 0x21 0 d a b (litOf [a, b]) m.bits
  | .sar h m d a b => mkRaw h 0x22 0 d a b (litOf [a, b]) m.bits
  | .rol h m d a b => mkRaw h 0x23 0 d a b (litOf [a, b]) m.bits
  | .ror h m d a b => mkRaw h 0x24 0 d a b (litOf [a, b]) m.bits
  | .bfe h m d a b => mkRaw h 0x25 0 d a b (litOf [a, b]) m.bits
  | .bfi h m d a b c => mkRaw h 0x26 0 d a b (immC c) m.bits
  | .popc h m d a => mkRaw h 0x27 0 d a .none (litOf [a]) m.bits
  | .clz h m d a => mkRaw h 0x28 0 d a .none (litOf [a]) m.bits
  | .ctz h m d a => mkRaw h 0x29 0 d a .none (litOf [a]) m.bits
  | .brev h m d a => mkRaw h 0x2A 0 d a .none (litOf [a]) m.bits
  | .byteperm h m d a b c => mkRaw h 0x2B 0 d a b (immC c) m.bits
  | .isetp h m cmp d a b => mkRaw h 0x2C cmp.code d a b (litOf [a, b]) m.bits
  | .sel h m d a b c => mkRaw h 0x2D 0 d a b (immC c) m.bits
  | .mov h m d a => mkRaw h 0x2E 0 d a .none (litOf [a]) m.bits
  | .movi h m d x => mkRaw h 0x2F 0 d .none .none x m.bits
  | .lea h m d a b => mkRaw h 0x30 0 d a b (litOf [a, b]) m.bits
  | .iadd64 h m d a b => mkRaw h 0x31 0 d a b (litOf [a, b]) m.bits
  | .imad64 h m d a b c => mkRaw h 0x32 0 d a b (immC c) m.bits
  | .fadd h m d a b => mkRaw h 0x40 0 d a b (litOf [a, b]) m.bits
  | .fsub h m d a b => mkRaw h 0x41 0 d a b (litOf [a, b]) m.bits
  | .fmul h m d a b => mkRaw h 0x42 0 d a b (litOf [a, b]) m.bits
  | .ffma h m d a b c => mkRaw h 0x43 0 d a b (immC c) m.bits
  | .fmin h m d a b => mkRaw h 0x44 0 d a b (litOf [a, b]) m.bits
  | .fmax h m d a b => mkRaw h 0x45 0 d a b (litOf [a, b]) m.bits
  | .fsetp h m cmp d a b => mkRaw h 0x46 cmp.code d a b (litOf [a, b]) m.bits
  | .fclass h m d a => mkRaw h 0x47 0 d a .none (litOf [a]) m.bits
  | .frcp h m d a => mkRaw h 0x48 0 d a .none (litOf [a]) m.bits
  | .frsq h m d a => mkRaw h 0x49 0 d a .none (litOf [a]) m.bits
  | .fsqrt h m d a => mkRaw h 0x4A 0 d a .none (litOf [a]) m.bits
  | .fdiv h m d a b => mkRaw h 0x4B 0 d a b (litOf [a, b]) m.bits
  | .fexp2 h m d a => mkRaw h 0x4C 0 d a .none (litOf [a]) m.bits
  | .flog2 h m d a => mkRaw h 0x4D 0 d a .none (litOf [a]) m.bits
  | .fsin h m d a => mkRaw h 0x4E 0 d a .none (litOf [a]) m.bits
  | .fcos h m d a => mkRaw h 0x4F 0 d a .none (litOf [a]) m.bits
  | .frnd h m d a => mkRaw h 0x50 0 d a .none (litOf [a]) m.bits
  | .dadd h m d a b => mkRaw h 0x51 0 d a b (litOf [a, b]) m.bits
  | .dmul h m d a b => mkRaw h 0x52 0 d a b (litOf [a, b]) m.bits
  | .dfma h m d a b c => mkRaw h 0x53 0 d a b (immC c) m.bits
  | .dsetp h m cmp d a b => mkRaw h 0x54 cmp.code d a b (litOf [a, b]) m.bits
  | .hfma2 h m d a b c => mkRaw h 0x55 0 d a b (immC c) m.bits
  | .hadd2 h m d a b => mkRaw h 0x56 0 d a b (litOf [a, b]) m.bits
  | .hmul2 h m d a b => mkRaw h 0x57 0 d a b (litOf [a, b]) m.bits
  | .cvt h m d a => mkRaw h 0x70 0 d a .none m.imm m.bits
  | .cvtsr h m d a b => mkRaw h 0x71 0 d a b m.imm m.bits
  | .cvtpk h m d a b => mkRaw h 0x72 0 d a b m.imm m.bits
  | .cvtup h m d a b => mkRaw h 0x73 0 d a b m.imm m.bits
  | .shfl h op seg ty d a b c => mkRaw h 0x80 op.code d a b (immC c) (0#5 ++ seg ++ ty.code)
  | .ballot h d a => mkRaw h 0x81 0 d a .none 0 0
  | .vote h op ty d a => mkRaw h 0x82 op.code d a .none 0 (0#8 ++ ty.code)
  | .matchL h all ty d a => mkRaw h 0x83 (0#3 ++ bit all) d a .none 0 (0#8 ++ ty.code)
  | .redux h op ty d a => mkRaw h 0x84 op.code d a .none 0 (0#8 ++ ty.code)
  | .prefixL h op ex ty d a => mkRaw h 0x85 op.code d a .none 0 (0#3 ++ bit ex ++ 0#4 ++ ty.code)
  | .xchgb h xs d a b => mkRaw h 0x86 0 d a b (litOf [b]) (0#1 ++ xs ++ 0#8)
  | .lanemask h op d => mkRaw h 0x87 op.code d .none .none 0 0
  | .reorder h sr d a => mkRaw h 0x88 0 d a .none 0 (0#3 ++ bit sr ++ 0#8)
  | .ld h m d a off => mkRaw h 0x90 0 d a .none off m.bits
  | .st h m a b off => mkRaw h 0x91 0 .none a b off m.bits
  | .lds h m d a off => mkRaw h 0x92 0 d a .none off m.bits
  | .sts h m a b off => mkRaw h 0x93 0 .none a b off m.bits
  | .ldq h m d a off => mkRaw h 0x94 0 d a .none off m.bits
  | .stq h m a b off => mkRaw h 0x95 0 .none a b off m.bits
  | .ldsc h m d a off => mkRaw h 0x96 0 d a .none off m.bits
  | .tld h m d a b c => mkRaw h 0x97 0 d a b (immC c) m.bits
  | .tst h m a b c => mkRaw h 0x98 0 .none a b (immC c) m.bits
  | .texf h ca d a b => mkRaw h 0x99 0 d a b 0 (0#1 ++ ca.code ++ 0#9)
  | .prefetch h l2 a off => mkRaw h 0x9A 0 .none a .none off (bit l2 ++ 0#11)
  | .cacheopWb h a off => mkRaw h 0x9B 0 .none a .none off 0
  | .cacheopInv h a off => mkRaw h 0x9B 1 .none a .none off 0
  | .cacheopWbinv h a off => mkRaw h 0x9B 2 .none a .none off 0
  | .atom h m op d a b c => mkRaw h 0xA0 op.code d a b (immAtom op b c) m.bits
  | .red h m op a b => mkRaw h 0xA1 op.code .none a b (litOf [b]) m.bits
  | .atoms h m op d a b c => mkRaw h 0xA2 op.code d a b (immAtom op b c) m.bits
  | .atomq h m op d a b c => mkRaw h 0xA3 op.code d a b (immAtom op b c) m.bits
  | .fence h o sc => mkRaw h 0xA4 0 .none .none .none 0 (0#3 ++ o.code ++ sc.code ++ 0#4)
  | .fenceSc h sc => mkRaw h 0xA4 1 .none .none .none 0 (scopeBits sc)
  | .drclose h sc d a => mkRaw h 0xEA 0 d a .none (litOf [a]) (scopeBits sc)
  | .cpy h m d a b => mkRaw h 0xB0 0 d a b (litOf [b]) (m.bits false 0)
  | .cpyTile h m d a => mkRaw h 0xB0 0 d a .none 0 (m.bits true 0)
  | .cpyt h m d a => mkRaw h 0xB1 0 d a .none 0 (m.bits false 0)
  | .cpytScat h m d a => mkRaw h 0xB1 0 d a .none 0 (m.bits true 0)
  | .cpyg h m esz d a b => mkRaw h 0xB2 0 d a b (litOf [b]) (m.bits false esz)
  | .cpyc h sc a => mkRaw h 0xB3 0 .none a .none 0 (scopeBits sc)
  | .cseal h => mkRaw h 0xB4 0 .none .none .none 0 0
  | .cwait h d a => mkRaw h 0xB5 0 d a .none 0 0
  | .cquery h clr d => mkRaw h 0xB6 0 d .none .none 0 (0#11 ++ bit clr)
  | .plset h f d a b => mkRaw h 0xC0 0 d a b (litOf [a]) (0#8 ++ f)
  | .plget h f d a => mkRaw h 0xC1 0 d a .none 0 (0#8 ++ f)
  | .plchk h t r d a => mkRaw h 0xC2 0 d a .none 0 (0#10 ++ bit r ++ bit t)
  | .plinfer h sm d a b => mkRaw h 0xC3 0 d a b 0 (0#11 ++ bit sm)
  | .mma h d a b c => mkRaw h 0xC4 0 d a b (immC c) 0
  | .mmasp h d a b c => mkRaw h 0xC5 0 d a b (immC c) 0
  | .zclr h d => mkRaw h 0xC6 0 d .none .none 0 0
  | .zanchor h pin d a => mkRaw h 0xC7 0 d a .none (litOf [a]) (0#11 ++ bit pin)
  | .zread h sat d a b c => mkRaw h 0xC8 0 d a b (immC c) (0#5 ++ bit sat ++ 0#6)
  | .zwrite h d a b c => mkRaw h 0xC8 1 d a b (immC c) 0
  | .zst h sp sat a b c => mkRaw h 0xC9 0 .none a b (immC c) (bit sp ++ 0#4 ++ bit sat ++ 0#6)
  | .zld h sp d a => mkRaw h 0xCA 0 d a .none 0 (bit sp ++ 0#11)
  | .zadd h sp d a => mkRaw h 0xCB 0 d a .none 0 (bit sp ++ 0#11)
  | .zchk h qu d a => mkRaw h 0xCC 0 d a .none 0 (0#11 ++ bit qu)
  | .mwait h a => mkRaw h 0xCD 0 .none a .none 0 0
  | .cbload h a b => mkRaw h 0xCE 0 .none a b 0 0
  | .tcvt h m d a b c => mkRaw h 0xCF 0 d a b (immC c) m.bits
  | .rng h x4 d a b => mkRaw h 0xD0 0 d a b (litOf [b]) (0#11 ++ bit x4)
  | .rsvld h m d a => mkRaw h 0xD1 0 d a .none 0 m.bits
  | .rsvst h m a b => mkRaw h 0xD2 0 .none a b 0 m.bits
  | .rsvupd h d a b => mkRaw h 0xD3 0 d a b 0 0
  | .rsvmrg h d a b c => mkRaw h 0xD4 0 d a b (immC c) 0
  | .rsvnorm h d => mkRaw h 0xD5 0 d .none .none 0 0
  | .rsvcap h d a => mkRaw h 0xD6 0 d a .none (litOf [a]) 0
  | .ltsample h d a b c => mkRaw h 0xD7 0 d a b (immC c) 0
  | .trace h fl d a b c => mkRaw h 0xD8 0 d a b (immC c) (0#7 ++ fl)
  | .rhit h d => mkRaw h 0xD9 0 d .none .none 0 0
  | .rwait h => mkRaw h 0xDA 0 .none .none .none 0 0
  | .curate h a => mkRaw h 0xDB 0 .none a .none 0 0
  | .curwait h a => mkRaw h 0xDC 0 .none a .none 0 0
  | .bvhbuild h a => mkRaw h 0xDD 0 .none a .none 0 0
  | .bvhsize h d a b => mkRaw h 0xDE 0 d a b (litOf [a]) 0
  | .barinit h m det a b => mkRaw h 0xE0 0 .none a b (litOf [b]) (m.bits det)
  | .bararv h m d a b c => mkRaw h 0xE0 1 d a b (immC c) (m.bits false)
  | .barwait h m d a b => mkRaw h 0xE0 2 d a b 0 (m.bits false)
  | .barsync h m d a b c => mkRaw h 0xE0 3 d a b (immC c) (m.bits false)
  | .barinv h m a => mkRaw h 0xE0 4 .none a .none 0 (m.bits false)
  | .barinvFree h m a => mkRaw h 0xE0 4 .none a .none 0 (m.bits true)
  | .barqry h m d a => mkRaw h 0xE0 5 d a .none 0 (m.bits false)
  | .ovld h d a => mkRaw h 0xE1 0 d a .none (litOf [a]) 0
  | .ovwait h d a => mkRaw h 0xE2 0 d a .none 0 0
  | .ovpin h d a => mkRaw h 0xE3 0 d a .none 0 0
  | .ovunpin h d a => mkRaw h 0xE3 1 d a .none 0 0
  | .ovevict h d a => mkRaw h 0xE4 0 d a .none 0 0
  | .callo h d a b => mkRaw h 0xE5 0 d a b (litOf [a]) 0
  | .emit h d b => mkRaw h 0xE6 0 d .none b 0 0
  | .emitQ h d a b => mkRaw h 0xE6 0 d a b (litOf [b]) 1
  | .reserve h d b => mkRaw h 0xE7 0 d .none b 0 0
  | .reserveDrop h b => mkRaw h 0xE7 0 .none .none b 0 1
  | .nodeend h => mkRaw h 0xE8 0 .none .none .none 0 0
  | .filldone h => mkRaw h 0xE9 0 .none .none .none 0 0
  | .fillfail h a => mkRaw h 0xE9 1 .none a .none (litOf [a]) 0
  | .fillqry h acq d a => mkRaw h 0xE9 2 d a .none 0 (0#11 ++ bit acq)
  | .csrr h d a => mkRaw h 0xF0 0 d a .none (litOf [a]) 0
  | .csrw h a b => mkRaw h 0xF1 0 .none a b (litOf [a]) 0
  | .trap h a => mkRaw h 0xF2 0 .none a .none (litOf [a]) 0
  | .brk h => mkRaw h 0xF3 0 .none .none .none 0 0
  | .trapretReplay h => mkRaw h 0xF4 0 .none .none .none 0 0
  | .trapretSkip h => mkRaw h 0xF4 0 .none .none .none 0 1
  | .trapretTo h a => mkRaw h 0xF4 0 .none a .none 0 2
  | .trapretKill h => mkRaw h 0xF4 0 .none .none .none 0 3
  | .halt h => mkRaw h 0xF5 0 .none .none .none 0 0
  | .haltLaunch h => mkRaw h 0xF5 0 .none .none .none 0 1
  | .tlbinvAll h => mkRaw h 0xF6 0 .none .none .none 0 0
  | .tlbinvAsid h b => mkRaw h 0xF6 0 .none .none b (litOf [b]) 1
  | .tlbinvPage h a b => mkRaw h 0xF6 0 .none a b (litOf [b]) 2
  | .tlbinvRange h a b c => mkRaw h 0xF6 0 .none a b (immC c) 3
  | .splinter h d a => mkRaw h 0xF7 0 d a .none 0 0
  | .migrate h d a => mkRaw h 0xF8 0 d a .none 0 0
  | .fillevict h d a b c => mkRaw h 0xF9 0 d a b (immC c) 0
  | .openwin h d a b => mkRaw h 0xFA 0 d a b 0 0
  | .closewin h d => mkRaw h 0xFB 0 d .none .none 0 0
  | .provchk h d a b => mkRaw h 0xFC 0 d a b 0 0
  | .provchkStore h d a b => mkRaw h 0xFC 0 d a b 0 1
  | .dlogq h d => mkRaw h 0xFD 0 d .none .none 0 0
  | .dlogqWait h d => mkRaw h 0xFD 0 d .none .none 0 1
  | .time h d => mkRaw h 0xFE 0 d .none .none 0 0
  | .timeStep h a => mkRaw h 0xFE 0 .none a .none 0 1
  | .parkExpiry _ | .heartbeatTick _ | .courierTransfer _ | .chainRecord _ | .passGrant _ | .passExecute _
  | .budgetRefill | .rayTraversal _ | .hartEvaluation _ | .resampleJob _ | .haloSyncJob _ | .buildJob _
  | .overlayLoad _ _ | .overlayTransferRetry _ | .invocationLaunch _ _ _ _ | .fixedNodeConsume _ _ | .fillRequest _ _ _
  | .generatorStart _ _ _ | .zeroFill _ | .lz4Fill _ | .drroundWrite _ | .rsvsurfWrite _ _ | .deferredStoreRetry _
  | .deferredStoreTimeout _ | .powerGovernorMeasure _ _ | .thermalStep _ | .thermalMachineCheck | .powerMachineCheck
  | .pwrctlWrite _ | .carvectlWrite _ | .cqdiscWrite _ _ | .registerWrite _ _ | .doorbell _ _ | .hostPostedWrite _ _
  | .hopPieceAck _ _ | .hostRead _ _ | .queueArbitration _ | .launchEntry _ _ | .waitEntry _ _ | .signalEntry _ _
  | .nopEntry _ _ | .entryCompletion _ _ | .unitGrant _ _ _ | .leaderElection _ | .unitPlacement _ _ _
  | .startTimeReached _ | .priorityPreemption _ | .driverSaveRequest _ _ | .contextRestore _ _ | .docentSweep _
  | .heatRaise _ _ _ _ _ | .parkedRequest _ _ _ | .parkedReplay _ | .conservationTimeout _ | .heldUpdateAccept _
  | .uncorrectableError _ | .eccCorrection _ _ _ | .timingReplay _ | .partitionQuiesce _ | .zwiovRd _ _ _
  | .zwiovWr _ _ _ | .zwiovAt _ _ _ _ _ _ _ | .zwiovRed _ _ _ _ _ _ | .zwiovCourier _ _ _ _ _ | .ptpMessage _
  | .flitReplay _ | .pathFailure _ | .coldStart _ | .warmStart _ _ _ | .marginApply _ | .dieFailure _ | .ppsPulse _ =>
    ⟨0, 0, 0, 0, 0, 0, 0, 0, 0⟩

/-- The word of an instruction (R25, R26). -/
def encode (i : Instr) : BitVec 96 := i.toRaw.word

/-! ## The decoder -/

/-- The header of a word. -/
def Raw.hdr (r : Raw) : Hdr :=
  ⟨⟨r.guard.getLsbD 3, r.guard.extractLsb' 0 3⟩, ⟨r.sched.getLsbD 5, r.sched.extractLsb' 3 2, r.sched.extractLsb' 0 3⟩⟩

namespace Raw

/-- The fourth operand (R25). -/
def opC (r : Raw) : Option Opd := opd (r.imm.extractLsb' 0 10) r.imm
def opA (r : Raw) : Option Opd := opd r.a r.imm
def opB (r : Raw) : Option Opd := opd r.b r.imm
def opD (r : Raw) : Option Opd := opd r.d r.imm

/-- Arithmetic entries with D and A. -/
def ar1 (r : Raw) (k : Hdr → AMod → Opd → Opd → Instr) : Option Instr := do
  let m ← AMod.of r.mod
  let d ← r.opD
  let a ← r.opA
  some (k r.hdr m d a)
/-- Arithmetic entries with D, A and B. -/
def ar2 (r : Raw) (k : Hdr → AMod → Opd → Opd → Opd → Instr) : Option Instr := do
  let m ← AMod.of r.mod
  let d ← r.opD
  let a ← r.opA
  let b ← r.opB
  some (k r.hdr m d a b)
/-- Arithmetic entries with D, A, B and C. -/
def ar3 (r : Raw) (k : Hdr → AMod → Opd → Opd → Opd → Opd → Instr) : Option Instr := do
  let m ← AMod.of r.mod
  let d ← r.opD
  let a ← r.opA
  let b ← r.opB
  let c ← r.opC
  some (k r.hdr m d a b c)
/-- Entries with D. -/
def u1 (r : Raw) (k : Hdr → Opd → Instr) : Option Instr := do
  let d ← r.opD
  some (k r.hdr d)
/-- Entries with A. -/
def ua (r : Raw) (k : Hdr → Opd → Instr) : Option Instr := do
  let a ← r.opA
  some (k r.hdr a)
/-- Entries with D and A. -/
def u2 (r : Raw) (k : Hdr → Opd → Opd → Instr) : Option Instr := do
  let d ← r.opD
  let a ← r.opA
  some (k r.hdr d a)
/-- Entries with A and B. -/
def uab (r : Raw) (k : Hdr → Opd → Opd → Instr) : Option Instr := do
  let a ← r.opA
  let b ← r.opB
  some (k r.hdr a b)
/-- Entries with D, A and B. -/
def u3 (r : Raw) (k : Hdr → Opd → Opd → Opd → Instr) : Option Instr := do
  let d ← r.opD
  let a ← r.opA
  let b ← r.opB
  some (k r.hdr d a b)
/-- Entries with D, A, B and C. -/
def u4 (r : Raw) (k : Hdr → Opd → Opd → Opd → Opd → Instr) : Option Instr := do
  let d ← r.opD
  let a ← r.opA
  let b ← r.opB
  let c ← r.opC
  some (k r.hdr d a b c)
/-- Entries with A, B and C. -/
def uabc (r : Raw) (k : Hdr → Opd → Opd → Opd → Instr) : Option Instr := do
  let a ← r.opA
  let b ← r.opB
  let c ← r.opC
  some (k r.hdr a b c)

/-- Control (OP 0x01 to 0x0B, R308). -/
def shape0 (r : Raw) : Option Instr :=
  match r.op.toNat with
  | 0x01 => some (.bra r.hdr r.imm)
  | 0x02 => r.ua .brx
  | 0x03 => some (.join r.hdr r.imm)
  | 0x04 => if r.a == 0#10 then r.u1 fun h d => .callRel h d r.imm else r.u2 .callInd
  | 0x05 => r.ua .ret
  | 0x06 => some (.exit r.hdr)
  | 0x07 => some (.nop r.hdr)
  | 0x08 => some (.yield r.hdr)
  | 0x09 => r.ua .sleep
  | 0x0A => some (if r.mod.getLsbD 0 then .idemClose r.hdr else .idem r.hdr)
  | 0x0B => r.ua .timewait
  | _ => none

/-- Integer, bit and address entries (OP 0x10 to 0x32, R97). -/
def shapeInt (r : Raw) : Option Instr :=
  match r.op.toNat with
  | 0x10 => r.ar2 .iadd
  | 0x11 => r.ar2 .isub
  | 0x12 => r.ar2 .imul
  | 0x13 => r.ar2 .imulh
  | 0x14 => r.ar3 .imad
  | 0x15 => r.ar2 .idiv
  | 0x16 => r.ar2 .irem
  | 0x17 => r.ar2 .imin
  | 0x18 => r.ar2 .imax
  | 0x19 => r.ar1 .iabs
  | 0x1A => r.ar1 .ineg
  | 0x1B => r.ar2 .and
  | 0x1C => r.ar2 .or
  | 0x1D => r.ar2 .xor
  | 0x1E => r.ar1 .not
  | 0x1F => r.ar2 .andn
  | 0x20 => r.ar2 .shl
  | 0x21 => r.ar2 .shr
  | 0x22 => r.ar2 .sar
  | 0x23 => r.ar2 .rol
  | 0x24 => r.ar2 .ror
  | 0x25 => r.ar2 .bfe
  | 0x26 => r.ar3 .bfi
  | 0x27 => r.ar1 .popc
  | 0x28 => r.ar1 .clz
  | 0x29 => r.ar1 .ctz
  | 0x2A => r.ar1 .brev
  | 0x2B => r.ar3 .byteperm
  | 0x2C => (ICmp.ofCode r.fmt).bind fun c => r.ar2 fun h m d a b => .isetp h m c d a b
  | 0x2D => r.ar3 .sel
  | 0x2E => r.ar1 .mov
  | 0x2F => (AMod.of r.mod).bind fun m => r.u1 fun h d => .movi h m d r.imm
  | 0x30 => r.ar2 .lea
  | 0x31 => r.ar2 .iadd64
  | 0x32 => r.ar3 .imad64
  | _ => none

/-- Floating point and conversions (OP 0x40 to 0x73, R109, R116 to R118). -/
def shapeFp (r : Raw) : Option Instr :=
  match r.op.toNat with
  | 0x40 => r.ar2 .fadd
  | 0x41 => r.ar2 .fsub
  | 0x42 => r.ar2 .fmul
  | 0x43 => r.ar3 .ffma
  | 0x44 => r.ar2 .fmin
  | 0x45 => r.ar2 .fmax
  | 0x46 => (FCmp.ofCode r.fmt).bind fun c => r.ar2 fun h m d a b => .fsetp h m c d a b
  | 0x47 => r.ar1 .fclass
  | 0x48 => r.ar1 .frcp
  | 0x49 => r.ar1 .frsq
  | 0x4A => r.ar1 .fsqrt
  | 0x4B => r.ar2 .fdiv
  | 0x4C => r.ar1 .fexp2
  | 0x4D => r.ar1 .flog2
  | 0x4E => r.ar1 .fsin
  | 0x4F => r.ar1 .fcos
  | 0x50 => r.ar1 .frnd
  | 0x51 => r.ar2 .dadd
  | 0x52 => r.ar2 .dmul
  | 0x53 => r.ar3 .dfma
  | 0x54 => (FCmp.ofCode r.fmt).bind fun c => r.ar2 fun h m d a b => .dsetp h m c d a b
  | 0x55 => r.ar3 .hfma2
  | 0x56 => r.ar2 .hadd2
  | 0x57 => r.ar2 .hmul2
  | 0x70 => r.u2 fun h d a => .cvt h (.of r.mod r.imm) d a
  | 0x71 => r.u3 fun h d a b => .cvtsr h (.of r.mod r.imm) d a b
  | 0x72 => r.u3 fun h d a b => .cvtpk h (.of r.mod r.imm) d a b
  | 0x73 => r.u3 fun h d a b => .cvtup h (.of r.mod r.imm) d a b
  | _ => none

/-- Lane instructions (OP 0x80 to 0x88, R123). -/
def shapeLane (r : Raw) : Option Instr :=
  match r.op.toNat with
  | 0x80 => do
    let op ← ShflOp.ofCode r.fmt
    let ty ← Ty.ofCode (r.mod.extractLsb' 0 4)
    r.u4 fun h d a b c => .shfl h op (r.mod.extractLsb' 4 3) ty d a b c
  | 0x81 => r.u2 .ballot
  | 0x82 => do
    let op ← VoteOp.ofCode r.fmt
    let ty ← Ty.ofCode (r.mod.extractLsb' 0 4)
    r.u2 fun h d a => .vote h op ty d a
  | 0x83 => do
    let ty ← Ty.ofCode (r.mod.extractLsb' 0 4)
    r.u2 fun h d a => .matchL h (r.fmt.getLsbD 0) ty d a
  | 0x84 => do
    let op ← FoldOp.ofCode r.fmt
    let ty ← Ty.ofCode (r.mod.extractLsb' 0 4)
    r.u2 fun h d a => .redux h op ty d a
  | 0x85 => do
    let op ← FoldOp.ofCode r.fmt
    let ty ← Ty.ofCode (r.mod.extractLsb' 0 4)
    r.u2 fun h d a => .prefixL h op (r.mod.getLsbD 8) ty d a
  | 0x86 => r.u3 fun h d a b => .xchgb h (r.mod.extractLsb' 8 3) d a b
  | 0x87 => (LmOp.ofCode r.fmt).bind fun op => r.u1 fun h d => .lanemask h op d
  | 0x88 => r.u2 fun h d a => .reorder h (r.mod.getLsbD 8) d a
  | _ => none

/-- Loads: D, A and the offset. -/
def ldr (r : Raw) (k : Hdr → MMod → Opd → Opd → Word → Instr) : Option Instr := do
  let m ← MMod.of r.mod
  let d ← r.opD
  let a ← r.opA
  some (k r.hdr m d a r.imm)
/-- Stores: A, B and the offset. -/
def str (r : Raw) (k : Hdr → MMod → Opd → Opd → Word → Instr) : Option Instr := do
  let m ← MMod.of r.mod
  let a ← r.opA
  let b ← r.opB
  some (k r.hdr m a b r.imm)
/-- Atomics that may return a value: C only for .cas. -/
def at4 (r : Raw) (k : Hdr → MMod → AtomOp → Opd → Opd → Opd → Opd → Instr) : Option Instr := do
  let op ← AtomOp.ofCode r.fmt
  let m ← MMod.of r.mod
  let d ← r.opD
  let a ← r.opA
  let b ← r.opB
  let c ← if op == .cas then r.opC else some .none
  some (k r.hdr m op d a b c)

/-- Memory, atomics and fences (OP 0x90 to 0xA4, R268). -/
def shapeMem (r : Raw) : Option Instr :=
  match r.op.toNat with
  | 0x90 => r.ldr .ld
  | 0x91 => r.str .st
  | 0x92 => r.ldr .lds
  | 0x93 => r.str .sts
  | 0x94 => r.ldr .ldq
  | 0x95 => r.str .stq
  | 0x96 => r.ldr .ldsc
  | 0x97 => (MMod.of r.mod).bind fun m => r.u4 fun h d a b c => .tld h m d a b c
  | 0x98 => (MMod.of r.mod).bind fun m => r.uabc fun h a b c => .tst h m a b c
  | 0x99 => r.u3 fun h d a b => .texf h (Cache.ofCode (r.mod.extractLsb' 9 2)) d a b
  | 0x9A => r.ua fun h a => .prefetch h (r.mod.getLsbD 11) a r.imm
  | 0x9B => match r.fmt.toNat with
    | 0 => r.ua fun h a => .cacheopWb h a r.imm
    | 1 => r.ua fun h a => .cacheopInv h a r.imm
    | 2 => r.ua fun h a => .cacheopWbinv h a r.imm
    | _ => none
  | 0xA0 => r.at4 .atom
  | 0xA1 => do
    let op ← AtomOp.ofCode r.fmt
    let m ← MMod.of r.mod
    r.uab fun h a b => .red h m op a b
  | 0xA2 => r.at4 .atoms
  | 0xA3 => r.at4 .atomq
  | 0xA4 => do
    let sc ← Scope.ofCode (r.mod.extractLsb' 4 3)
    match r.fmt.toNat with
    | 0 => some (.fence r.hdr (Order.ofCode (r.mod.extractLsb' 7 2)) sc)
    | 1 => some (.fenceSc r.hdr sc)
    | _ => none
  | _ => none

/-- Courier (OP 0xB0 to 0xB6, R258, R268). -/
def shapeCour (r : Raw) : Option Instr :=
  match r.op.toNat with
  | 0xB0 => do
    let m ← CMod.of r.mod
    if r.mod.getLsbD 7 then r.u2 fun h d a => .cpyTile h m d a else r.u3 fun h d a b => .cpy h m d a b
  | 0xB1 => do
    let m ← CMod.of r.mod
    r.u2 fun h d a => if r.mod.getLsbD 7 then .cpytScat h m d a else .cpyt h m d a
  | 0xB2 => do
    let m ← CMod.of r.mod
    r.u3 fun h d a b => .cpyg h m (r.mod.extractLsb' 0 4) d a b
  | 0xB3 => do
    let sc ← Scope.ofCode (r.mod.extractLsb' 4 3)
    r.ua fun h a => .cpyc h sc a
  | 0xB4 => some (.cseal r.hdr)
  | 0xB5 => r.u2 .cwait
  | 0xB6 => r.u1 fun h d => .cquery h (r.mod.getLsbD 0) d
  | _ => none

/-- Placards and matrix (OP 0xC0 to 0xCF, R154). -/
def shapeMx (r : Raw) : Option Instr :=
  match r.op.toNat with
  | 0xC0 => do
    let d ← r.opD
    let a ← r.opA
    let b ← opdN r.b r.imm
    some (.plset r.hdr (r.mod.extractLsb' 0 4) d a b)
  | 0xC1 => r.u2 fun h d a => .plget h (r.mod.extractLsb' 0 4) d a
  | 0xC2 => r.u2 fun h d a => .plchk h (r.mod.getLsbD 0) (r.mod.getLsbD 1) d a
  | 0xC3 => r.u3 fun h d a b => .plinfer h (r.mod.getLsbD 0) d a b
  | 0xC4 => r.u4 .mma
  | 0xC5 => r.u4 .mmasp
  | 0xC6 => r.u1 .zclr
  | 0xC7 => r.u2 fun h d a => .zanchor h (r.mod.getLsbD 0) d a
  | 0xC8 => match r.fmt.toNat with
    | 0 => r.u4 fun h d a b c => .zread h (r.mod.getLsbD 6) d a b c
    | 1 => r.u4 .zwrite
    | _ => none
  | 0xC9 => r.uabc fun h a b c => .zst h (r.mod.getLsbD 11) (r.mod.getLsbD 6) a b c
  | 0xCA => r.u2 fun h d a => .zld h (r.mod.getLsbD 11) d a
  | 0xCB => r.u2 fun h d a => .zadd h (r.mod.getLsbD 11) d a
  | 0xCC => r.u2 fun h d a => .zchk h (r.mod.getLsbD 0) d a
  | 0xCD => r.ua .mwait
  | 0xCE => r.uab .cbload
  | 0xCF => r.ar3 .tcvt
  | _ => none

/-- Reservoirs, rays and the curator (OP 0xD0 to 0xDE, R207). -/
def shapeLt (r : Raw) : Option Instr :=
  match r.op.toNat with
  | 0xD0 => r.u3 fun h d a b => .rng h (r.mod.getLsbD 0) d a b
  | 0xD1 => (MMod.of r.mod).bind fun m => r.u2 fun h d a => .rsvld h m d a
  | 0xD2 => (MMod.of r.mod).bind fun m => r.uab fun h a b => .rsvst h m a b
  | 0xD3 => r.u3 .rsvupd
  | 0xD4 => r.u4 .rsvmrg
  | 0xD5 => r.u1 .rsvnorm
  | 0xD6 => r.u2 .rsvcap
  | 0xD7 => r.u4 .ltsample
  | 0xD8 => r.u4 fun h d a b c => .trace h (r.mod.extractLsb' 0 5) d a b c
  | 0xD9 => r.u1 .rhit
  | 0xDA => some (.rwait r.hdr)
  | 0xDB => r.ua .curate
  | 0xDC => r.ua .curwait
  | 0xDD => r.ua .bvhbuild
  | 0xDE => r.u3 .bvhsize
  | _ => none

/-- Barriers, overlays, fill and work graphs (OP 0xE0 to 0xEA, R318, R338, R353, R268). -/
def shapeBar (r : Raw) : Option Instr :=
  match r.op.toNat with
  | 0xE0 => do
    let m ← BMod.of r.mod
    match r.fmt.toNat with
    | 0 => r.uab fun h a b => .barinit h m (r.mod.getLsbD 11) a b
    | 1 => r.u4 fun h d a b c => .bararv h m d a b c
    | 2 => r.u3 fun h d a b => .barwait h m d a b
    | 3 => r.u4 fun h d a b c => .barsync h m d a b c
    | 4 => r.ua fun h a => if r.mod.getLsbD 11 then .barinvFree h m a else .barinv h m a
    | 5 => r.u2 fun h d a => .barqry h m d a
    | _ => none
  | 0xE1 => r.u2 .ovld
  | 0xE2 => r.u2 .ovwait
  | 0xE3 => match r.fmt.toNat with
    | 0 => r.u2 .ovpin
    | 1 => r.u2 .ovunpin
    | _ => none
  | 0xE4 => r.u2 .ovevict
  | 0xE5 => r.u3 .callo
  | 0xE6 =>
    if r.mod.getLsbD 0 then r.u3 .emitQ
    else do
      let d ← r.opD
      let b ← r.opB
      some (.emit r.hdr d b)
  | 0xE7 => do
    let b ← r.opB
    if r.mod.getLsbD 0 then some (.reserveDrop r.hdr b) else r.u1 fun h d => .reserve h d b
  | 0xE8 => some (.nodeend r.hdr)
  | 0xE9 => match r.fmt.toNat with
    | 0 => some (.filldone r.hdr)
    | 1 => r.ua .fillfail
    | 2 => r.u2 fun h d a => .fillqry h (r.mod.getLsbD 0) d a
    | _ => none
  | 0xEA => do
    let sc ← Scope.ofCode (r.mod.extractLsb' 4 3)
    r.u2 fun h d a => .drclose h sc d a
  | _ => none

/-- System entries (OP 0xF0 to 0xFE, R385, R412). -/
def shapeSys (r : Raw) : Option Instr :=
  match r.op.toNat with
  | 0xF0 => r.u2 .csrr
  | 0xF1 => r.uab .csrw
  | 0xF2 => r.ua .trap
  | 0xF3 => some (.brk r.hdr)
  | 0xF4 => match (r.mod.extractLsb' 0 2).toNat with
    | 0 => some (.trapretReplay r.hdr)
    | 1 => some (.trapretSkip r.hdr)
    | 2 => r.ua .trapretTo
    | _ => some (.trapretKill r.hdr)
  | 0xF5 => some (if r.mod.getLsbD 0 then .haltLaunch r.hdr else .halt r.hdr)
  | 0xF6 => match (r.mod.extractLsb' 0 2).toNat with
    | 0 => some (.tlbinvAll r.hdr)
    | 1 => r.opB.bind fun b => some (.tlbinvAsid r.hdr b)
    | 2 => r.uab .tlbinvPage
    | _ => r.uabc .tlbinvRange
  | 0xF7 => r.u2 .splinter
  | 0xF8 => r.u2 .migrate
  | 0xF9 => r.u4 .fillevict
  | 0xFA => r.u3 .openwin
  | 0xFB => r.u1 .closewin
  | 0xFC => r.u3 fun h d a b => if r.mod.getLsbD 0 then .provchkStore h d a b else .provchk h d a b
  | 0xFD => r.u1 fun h d => if r.mod.getLsbD 0 then .dlogqWait h d else .dlogq h d
  | 0xFE => if r.mod.getLsbD 0 then r.ua .timeStep else r.u1 .time
  | _ => none

/-- The instruction that the OP, the FMT and the fields name, before the checks of its entry (R46). -/
def shape (r : Raw) : Option Instr :=
  match (r.op.extractLsb' 4 4).toNat with
  | 0x0 => r.shape0
  | 0x1 | 0x2 | 0x3 => r.shapeInt
  | 0x4 | 0x5 | 0x7 => r.shapeFp
  | 0x8 => r.shapeLane
  | 0x9 | 0xA => r.shapeMem
  | 0xB => r.shapeCour
  | 0xC => r.shapeMx
  | 0xD => r.shapeLt
  | 0xE => r.shapeBar
  | 0xF => r.shapeSys
  | _ => none

end Raw

/-- Decode a word: its shape, then the checks of R47. Every bit that the entry does not use must be zero, since the word
must be the one that the instruction encodes to. -/
def decode (w : BitVec 96) : Except Reject Instr :=
  let r := Raw.ofWord w
  match r.shape with
  | none => .error .unassigned
  | some i =>
    if r.guard == 0xF#4 then .error .guard
    else if i.wf && i.toRaw == r then .ok i
    else .error .notAccepted

/-- A 96-bit word from three little-endian 32-bit words, word 0 first (R26). -/
def wordOf (w0 w1 w2 : Word) : BitVec 96 := w2 ++ w1 ++ w0

/-- What the decoder reads from the low `nbits` bits of `w`; a byte of the word is a byte of the number, since the three
words lie at rising addresses in little-endian order (R26). -/
def decodeTableWord (nbits w : Nat) : Option Instr :=
  match decode (BitVec.ofNat 96 (w % 2 ^ nbits)) with
  | .ok i => some i
  | .error _ => none

/-! ## Each constructor's decoding, on words written out from the encodings of R25 to R46 and the entries' tables -/

/-- Do the words decode to the instructions beside them, and encode back? -/
def decodesAll (l : List (BitVec 96 × Instr)) : Bool :=
  l.all fun (w, i) => decodeTableWord 96 w.toNat == some i && encode i == w

/-- An unconditional instruction without SCHED effects. -/
abbrev h0 : Hdr := ⟨⟨false, 7⟩, ⟨false, 0, 0⟩⟩

/-- `(P3) FFMA.rz V4, V5, V6, V7 :: sw, stall 2` and `IADD S10, S11, -5`, the worked encodings of 02. -/
theorem decodes_worked : decodesAll [
    (wordOf 0x14043043 0x0001C060 0x88040000,
      .ffma ⟨⟨false, 3⟩, ⟨true, 0, 2⟩⟩ ⟨0, false, false, .rz, .dflt⟩ (.v 4) (.v 5) (.v 6) (.v 7)),
    (wordOf 0x2D0A7010 0x00002FB4 0, .iadd h0 ⟨0, false, false, .rne, .dflt⟩ (.s 10) (.s 11) (.imm 0xFB))] = true := by
  decide +kernel

theorem decodes_control : decodesAll [
    (wordOf 0x00007001 0xFFFF8000 0x00003FFF, .bra h0 0xFFFFFFFE#32),
    (wordOf 0x28007002 0x00000004 0x00000000, .brx h0 (.s 10)),
    (wordOf 0x00007003 0x0000C000 0x00000000, .join h0 0x00000003#32),
    (wordOf 0x01147004 0x00010000 0x00000000, .callRel h0 (.s 20) 0x00000004#32),
    (wordOf 0x7BFF7004 0x00000004 0x00000000, .callInd h0 .zr (.s 30)),
    (wordOf 0x50007005 0x00000004 0x00000000, .ret h0 (.s 20)),
    (wordOf 0x00007006 0x00000000 0x00000000, .exit h0),
    (wordOf 0x00007007 0x00000000 0x00000000, .nop h0),
    (wordOf 0x00007008 0x00000000 0x00000000, .yield h0),
    (wordOf 0xF8007009 0x00FA000F 0x00000000, .sleep h0 (.lit 0x000003E8#32)),
    (wordOf 0x0000700A 0x00000000 0x00000000, .idem h0),
    (wordOf 0x0000700A 0x00000000 0x00004000, .idemClose h0),
    (wordOf 0x1000700B 0x00000004 0x00000000, .timewait h0 (.s 4))] = true := by decide +kernel
theorem decodes_integer1 : decodesAll [
    (wordOf 0x08017010 0x00002FB4 0x00118000, .iadd h0 ⟨0, false, true, .rne, .s32⟩ (.v 1) (.s 2) (.imm 251)),
    (wordOf 0x08017011 0x159E3FE0 0x0000048D, .isub h0 ⟨0, false, false, .rne, .dflt⟩ (.v 1) (.v 2) (.lit 0x12345678#32)),
    (wordOf 0x09017012 0x00001034 0x00014000, .imul h0 ⟨0, false, false, .rne, .u32⟩ (.s 1) (.s 2) (.s 3)),
    (wordOf 0x08017013 0x00000030 0x00018000, .imulh h0 ⟨0, false, false, .rne, .s32⟩ (.v 1) (.v 2) (.v 3)),
    (wordOf 0x08017014 0x00410030 0x00000000, .imad h0 ⟨0, false, false, .rne, .dflt⟩ (.v 1) (.v 2) (.v 3) (.s 4)),
    (wordOf 0x08017015 0x00000030 0x00018000, .idiv h0 ⟨0, false, false, .rne, .s32⟩ (.v 1) (.v 2) (.v 3)),
    (wordOf 0x08017016 0x00002070 0x00000000, .irem h0 ⟨0, false, false, .rne, .dflt⟩ (.v 1) (.v 2) (.imm 7)),
    (wordOf 0x08017017 0x00000030 0x00018000, .imin h0 ⟨0, false, false, .rne, .s32⟩ (.v 1) (.v 2) (.v 3)),
    (wordOf 0x08017018 0x00000030 0x00014000, .imax h0 ⟨0, false, false, .rne, .u32⟩ (.v 1) (.v 2) (.v 3)),
    (wordOf 0x08017019 0x00000000 0x00118000, .iabs h0 ⟨0, false, true, .rne, .s32⟩ (.v 1) (.v 2)),
    (wordOf 0x0801701A 0x00000000 0x00000000, .ineg h0 ⟨0, false, false, .rne, .dflt⟩ (.v 1) (.v 2)),
    (wordOf 0x1002701B 0x00000060 0x0001C000, .and h0 ⟨0, false, false, .rne, .u64⟩ (.v 2) (.v 4) (.v 6)),
    (wordOf 0x0B01701C 0x0000303C 0x00000000, .or h0 ⟨0, false, false, .rne, .dflt⟩ (.p 1) (.p 2) (.p 3)),
    (wordOf 0x2B09701D 0x000030BC 0x00000000, .xor h0 ⟨0, false, false, .rne, .dflt⟩ (.q 1) (.q 2) (.q 3)),
    (wordOf 0x0801701E 0x00000000 0x00000000, .not h0 ⟨0, false, false, .rne, .dflt⟩ (.v 1) (.v 2)),
    (wordOf 0x0801701F 0x00000030 0x00000000, .andn h0 ⟨0, false, false, .rne, .dflt⟩ (.v 1) (.v 2) (.v 3)),
    (wordOf 0x10027020 0x00000060 0x0001C000, .shl h0 ⟨0, false, false, .rne, .u64⟩ (.v 2) (.v 4) (.v 6)),
    (wordOf 0x08017021 0x00002040 0x00000000, .shr h0 ⟨0, false, false, .rne, .dflt⟩ (.v 1) (.v 2) (.imm 4))] = true := by decide +kernel
theorem decodes_integer2 : decodesAll [
    (wordOf 0x10027022 0x00002040 0x00020000, .sar h0 ⟨0, false, false, .rne, .s64⟩ (.v 2) (.v 4) (.imm 4)),
    (wordOf 0x08017023 0x00000030 0x00000000, .rol h0 ⟨0, false, false, .rne, .dflt⟩ (.v 1) (.v 2) (.v 3)),
    (wordOf 0x08017024 0x00000030 0x00000000, .ror h0 ⟨0, false, false, .rne, .dflt⟩ (.v 1) (.v 2) (.v 3)),
    (wordOf 0x08017025 0x00000030 0x00018000, .bfe h0 ⟨0, false, false, .rne, .s32⟩ (.v 1) (.v 2) (.v 3)),
    (wordOf 0x08017026 0x00010030 0x00000000, .bfi h0 ⟨0, false, false, .rne, .dflt⟩ (.v 1) (.v 2) (.v 3) (.v 4)),
    (wordOf 0x08017027 0x00000000 0x0001C000, .popc h0 ⟨0, false, false, .rne, .u64⟩ (.v 1) (.v 2)),
    (wordOf 0x08017028 0x00000000 0x00000000, .clz h0 ⟨0, false, false, .rne, .dflt⟩ (.v 1) (.v 2)),
    (wordOf 0x08017029 0x00000000 0x00000000, .ctz h0 ⟨0, false, false, .rne, .dflt⟩ (.v 1) (.v 2)),
    (wordOf 0x0801702A 0x00000000 0x00000000, .brev h0 ⟨0, false, false, .rne, .dflt⟩ (.v 1) (.v 2)),
    (wordOf 0x0801702B 0x00BFC030 0x00000000, .byteperm h0 ⟨0, false, false, .rne, .dflt⟩ (.v 1) (.v 2) (.v 3) (.imm 255)),
    (wordOf 0x0B01752C 0x00000040 0x00020000, .isetp h0 ⟨0, false, false, .rne, .s64⟩ .ge (.p 1) (.v 2) (.v 4)),
    (wordOf 0x0801702D 0x00C10030 0x00000000, .sel h0 ⟨0, false, false, .rne, .dflt⟩ (.v 1) (.v 2) (.v 3) (.p 4)),
    (wordOf 0x2004702E 0x00000004 0x00034000, .mov h0 ⟨0, false, false, .rne, .b128⟩ (.v 4) (.s 8)),
    (wordOf 0x0002702F 0x6FBBC000 0x0041F7AB, .movi h0 ⟨1, false, false, .rne, .u64⟩ (.v 2) 0xDEADBEEF#32),
    (wordOf 0x10027030 0x00000064 0x00C18000, .lea h0 ⟨3, false, false, .rne, .s32⟩ (.v 2) (.s 4) (.v 6)),
    (wordOf 0x10027031 0x00002FF0 0x00120000, .iadd64 h0 ⟨0, false, true, .rne, .s64⟩ (.v 2) (.v 4) (.imm 255)),
    (wordOf 0x10027032 0x00418050 0x00014000, .imad64 h0 ⟨0, false, false, .rne, .u32⟩ (.v 2) (.v 4) (.v 5) (.s 6))] = true := by decide +kernel
theorem decodes_floating1 : decodesAll [
    (wordOf 0x08017040 0x00000030 0x026AC000, .fadd h0 ⟨9, true, false, .ru, .f32⟩ (.v 1) (.v 2) (.v 3)),
    (wordOf 0x08017041 0x00003FE0 0x00000FE0, .fsub h0 ⟨0, false, false, .rne, .dflt⟩ (.v 1) (.v 2) (.lit 0x3F800000#32)),
    (wordOf 0x08017042 0x00000030 0x009C0000, .fmul h0 ⟨2, false, true, .rd, .dflt⟩ (.v 1) (.v 2) (.v 3)),
    (wordOf 0x14047043 0x0001C060 0x03C40000, .ffma h0 ⟨15, false, false, .rz, .dflt⟩ (.v 4) (.v 5) (.v 6) (.v 7)),
    (wordOf 0x08017044 0x00000030 0x00200000, .fmin h0 ⟨0, true, false, .rne, .dflt⟩ (.v 1) (.v 2) (.v 3)),
    (wordOf 0x08017045 0x00000030 0x00000000, .fmax h0 ⟨0, false, false, .rne, .dflt⟩ (.v 1) (.v 2) (.v 3)),
    (wordOf 0x0B017746 0x00000030 0x00000000, .fsetp h0 ⟨0, false, false, .rne, .dflt⟩ .nan (.p 1) (.v 2) (.v 3)),
    (wordOf 0x08017047 0x00000000 0x0002C000, .fclass h0 ⟨0, false, false, .rne, .f32⟩ (.v 1) (.v 2)),
    (wordOf 0x08017048 0x00000000 0x02400000, .frcp h0 ⟨9, false, false, .rne, .dflt⟩ (.v 1) (.v 2)),
    (wordOf 0x08017049 0x00000000 0x00000000, .frsq h0 ⟨0, false, false, .rne, .dflt⟩ (.v 1) (.v 2)),
    (wordOf 0x0801704A 0x00000000 0x00040000, .fsqrt h0 ⟨0, false, false, .rz, .dflt⟩ (.v 1) (.v 2)),
    (wordOf 0x0801704B 0x00000030 0x00000000, .fdiv h0 ⟨0, false, false, .rne, .dflt⟩ (.v 1) (.v 2) (.v 3)),
    (wordOf 0x0801704C 0x00000000 0x00000000, .fexp2 h0 ⟨0, false, false, .rne, .dflt⟩ (.v 1) (.v 2)),
    (wordOf 0x0801704D 0x00000000 0x00000000, .flog2 h0 ⟨0, false, false, .rne, .dflt⟩ (.v 1) (.v 2)),
    (wordOf 0x0801704E 0x00000000 0x00000000, .fsin h0 ⟨0, false, false, .rne, .dflt⟩ (.v 1) (.v 2)),
    (wordOf 0x0801704F 0x00000000 0x00000000, .fcos h0 ⟨0, false, false, .rne, .dflt⟩ (.v 1) (.v 2)),
    (wordOf 0x08017050 0x00000000 0x000C0000, .frnd h0 ⟨0, false, false, .rd, .dflt⟩ (.v 1) (.v 2)),
    (wordOf 0x10027051 0x00000060 0x00830000, .dadd h0 ⟨2, false, false, .rne, .f64⟩ (.v 2) (.v 4) (.v 6))] = true := by decide +kernel
theorem decodes_floating2 : decodesAll [
    (wordOf 0x10027052 0x00001060 0x00000000, .dmul h0 ⟨0, false, false, .rne, .dflt⟩ (.v 2) (.v 4) (.s 6)),
    (wordOf 0x10027053 0x00020060 0x01000000, .dfma h0 ⟨4, false, false, .rne, .dflt⟩ (.v 2) (.v 4) (.v 6) (.v 8)),
    (wordOf 0x0B097254 0x00001044 0x00000000, .dsetp h0 ⟨0, false, false, .rne, .dflt⟩ .lt (.q 1) (.s 2) (.s 4)),
    (wordOf 0x08017055 0x00010030 0x00028000, .hfma2 h0 ⟨0, false, false, .rne, .bf16⟩ (.v 1) (.v 2) (.v 3) (.v 4)),
    (wordOf 0x08017056 0x00000030 0x00024000, .hadd2 h0 ⟨0, false, false, .rne, .f16⟩ (.v 1) (.v 2) (.v 3)),
    (wordOf 0x08017057 0x00000030 0x00000000, .hmul2 h0 ⟨0, false, false, .rne, .dflt⟩ (.v 1) (.v 2) (.v 3)),
    (wordOf 0x0C097070 0x00814000 0x00100000, .cvt h0 ⟨2, 5, false, false, true, .rne⟩ (.v 9) (.v 3)),
    (wordOf 0x08017071 0x00824030 0x00000000, .cvtsr h0 ⟨2, 9, false, false, false, .rne⟩ (.v 1) (.v 2) (.v 3)),
    (wordOf 0x08017072 0x008A5030 0x00040000, .cvtpk h0 ⟨2, 9, true, false, false, .rz⟩ (.v 1) (.v 2) (.s 3)),
    (wordOf 0x08017073 0x02409030 0x00200000, .cvtup h0 ⟨9, 2, false, true, false, .rne⟩ (.v 1) (.v 2) (.s 3))] = true := by decide +kernel
theorem decodes_lane : decodesAll [
    (wordOf 0x10027180 0x00FFE010 0x0009C000, .shfl h0 .rot 2 .u64 (.v 2) (.v 4) (.imm 1) .zr),
    (wordOf 0x09017081 0x0000000C 0x00000000, .ballot h0 (.s 1) (.p 2)),
    (wordOf 0x0B097282 0x00000000 0x0001C000, .vote h0 .uni .u64 (.q 1) (.v 2)),
    (wordOf 0x08017183 0x00000000 0x00000000, .matchL h0 true .dflt (.v 1) (.v 2)),
    (wordOf 0x09017084 0x00000000 0x0002C000, .redux h0 .add .f32 (.s 1) (.v 2)),
    (wordOf 0x08017285 0x00000000 0x00418000, .prefixL h0 .max true .s32 (.v 1) (.v 2)),
    (wordOf 0x08017086 0x3FFFFFE0 0x01000000, .xchgb h0 4 (.v 1) (.v 2) (.lit 0x0000FFFF#32)),
    (wordOf 0x00017487 0x00000000 0x00000000, .lanemask h0 .ge (.v 1)),
    (wordOf 0x30147088 0x00000000 0x00400000, .reorder h0 true (.v 20) (.v 12))] = true := by decide +kernel
theorem decodes_memory1 : decodesAll [
    (wordOf 0x28067090 0x00100004 0x00310000, .ld h0 ⟨false, .dflt, .acq, .dev, .s16⟩ (.v 6) (.s 10) 0x00000040#32),
    (wordOf 0x28007091 0xFFFC0060 0x00D83FFF, .st h0 ⟨false, .nl1, .rel, .sys, .dflt⟩ (.v 10) (.v 6) 0xFFFFFFF0#32),
    (wordOf 0x04047092 0x00040004 0x00034000, .lds h0 ⟨false, .dflt, .rlx, .coh, .b128⟩ (.v 4) (.s 1) 0x00000010#32),
    (wordOf 0x04007093 0x00000020 0x00004000, .sts h0 ⟨false, .dflt, .rlx, .coh, .u8⟩ (.v 1) (.v 2) 0x00000000#32),
    (wordOf 0x04027094 0x00000000 0x0029C000, .ldq h0 ⟨false, .dflt, .acq, .quad, .u64⟩ (.v 2) (.v 1) 0x00000000#32),
    (wordOf 0x04007095 0x00000024 0x00480000, .stq h0 ⟨false, .dflt, .rel, .quad, .dflt⟩ (.s 1) (.v 2) 0x00000000#32),
    (wordOf 0x29087096 0x00000004 0x01B94000, .ldsc h0 ⟨false, .keep, .acq, .sys, .u32⟩ (.s 8) (.s 10) 0x00000000#32),
    (wordOf 0x08107097 0x00C4FFF4 0x02000000, .tld h0 ⟨true, .dflt, .rlx, .coh, .dflt⟩ (.v 16) (.s 2) .zr (.pl 3)),
    (wordOf 0x08007098 0x00C4C104 0x00500000, .tst h0 ⟨false, .dflt, .rel, .dev, .dflt⟩ (.s 2) (.v 16) (.pl 3)),
    (wordOf 0x08047099 0x00000084 0x01000000, .texf h0 .evf (.v 4) (.s 2) (.v 8)),
    (wordOf 0x0800709A 0x00010000 0x02000000, .prefetch h0 true (.v 2) 0x00000004#32),
    (wordOf 0x0800709B 0x00010004 0x00000000, .cacheopWb h0 (.s 2) 0x00000004#32),
    (wordOf 0x0800719B 0x00010000 0x00000000, .cacheopInv h0 (.v 2) 0x00000004#32),
    (wordOf 0xFC00729B 0x0000000F 0x00000000, .cacheopWbinv h0 .zr 0x00000000#32),
    (wordOf 0x080478A0 0x00030080 0x00734000, .atom h0 ⟨false, .dflt, .ar, .dev, .b128⟩ .cas (.v 4) (.v 2) (.v 8) (.v 12)),
    (wordOf 0x280079A1 0x00000080 0x00100000, .red h0 ⟨false, .dflt, .rlx, .dev, .dflt⟩ .fadd (.v 10) (.v 8)),
    (wordOf 0x07FF70A2 0x00002010 0x00000000, .atoms h0 ⟨false, .dflt, .rlx, .coh, .dflt⟩ .add .zr (.v 1) (.imm 1) .none),
    (wordOf 0x040277A3 0x00000044 0x0009C000, .atomq h0 ⟨false, .dflt, .rlx, .quad, .u64⟩ .xchg (.v 2) (.s 1) (.v 4) .none)] = true := by decide +kernel
theorem decodes_memory2 : decodesAll [
    (wordOf 0x000070A4 0x00000000 0x00500000, .fence h0 .rel .dev),
    (wordOf 0x000071A4 0x00000000 0x00180000, .fenceSc h0 .sys)] = true := by decide +kernel
theorem decodes_courier : decodesAll [
    (wordOf 0x110270B0 0x00001064 0x01080000, .cpy h0 ⟨.own, .glob, .quad⟩ (.s 2) (.s 4) (.s 6)),
    (wordOf 0x110270B0 0x00000004 0x00B00000, .cpyTile h0 ⟨.glob, .quad, .dev⟩ (.s 2) (.s 4)),
    (wordOf 0x110270B1 0x00000004 0x01000000, .cpyt h0 ⟨.own, .glob, .coh⟩ (.s 2) (.s 4)),
    (wordOf 0x110270B1 0x00000004 0x00600000, .cpytScat h0 ⟨.glob, .own, .coh⟩ (.s 2) (.s 4)),
    (wordOf 0x110270B2 0x00002084 0x01018000, .cpyg h0 ⟨.own, .glob, .coh⟩ 6 (.s 2) (.s 4) (.imm 8)),
    (wordOf 0x100070B3 0x00000004 0x00100000, .cpyc h0 .dev (.s 4)),
    (wordOf 0x000070B4 0x00000000 0x00000000, .cseal h0),
    (wordOf 0x030970B5 0x00000008 0x00000000, .cwait h0 (.q 1) (.imm 0)),
    (wordOf 0x010470B6 0x00000000 0x00004000, .cquery h0 true (.s 4))] = true := by decide +kernel
theorem decodes_matrix : decodesAll [
    (wordOf 0xFB1170C0 0x0007F12F 0x00014000, .plset h0 5 (.pl 1) (.lit 0x0000001F#32) (.pl 2)),
    (wordOf 0x450470C1 0x0000000C 0x00000000, .plget h0 0 (.s 4) (.pl 1)),
    (wordOf 0x490170C2 0x0000000C 0x0000C000, .plchk h0 true true (.s 1) (.pl 2)),
    (wordOf 0x4B1170C3 0x0000313C 0x00004000, .plinfer h0 true (.pl 1) (.pl 2) (.pl 3)),
    (wordOf 0x432370C4 0x00C49140 0x00000000, .mma h0 (.z 3) (.v 16) (.s 20) (.pl 2)),
    (wordOf 0x432370C5 0x00C49140 0x00000000, .mmasp h0 (.z 3) (.v 16) (.s 20) (.pl 2)),
    (wordOf 0x032170C6 0x00000000 0x00000000, .zclr h0 (.z 1)),
    (wordOf 0x032770C7 0x00000004 0x00004000, .zanchor h0 true (.z 7) (.s 0)),
    (wordOf 0x841070C8 0x00C4A00C 0x00100000, .zread h0 true (.v 16) (.z 1) (.imm 0) (.pl 2)),
    (wordOf 0x432171C8 0x00C49030 0x00000000, .zwrite h0 (.z 1) (.v 16) (.s 3) (.pl 2)),
    (wordOf 0x840070C9 0x00C4902C 0x02100000, .zst h0 true true (.z 1) (.s 2) (.pl 2)),
    (wordOf 0x0B2170CA 0x00000004 0x02000000, .zld h0 true (.z 1) (.s 2)),
    (wordOf 0x8B2170CB 0x0000000C 0x00000000, .zadd h0 false (.z 1) (.z 2)),
    (wordOf 0x8B0970CC 0x0000000C 0x00004000, .zchk h0 true (.q 1) (.z 2)),
    (wordOf 0xFC0070CD 0x0000000F 0x00000000, .mwait h0 .zr),
    (wordOf 0x080070CE 0x00002034 0x00000000, .cbload h0 (.s 2) (.imm 3)),
    (wordOf 0x801070CF 0x00C4B110 0x003C0000, .tcvt h0 ⟨0, true, true, .rd, .dflt⟩ (.v 16) (.v 32) (.pl 1) (.pl 2))] = true := by decide +kernel
theorem decodes_light : decodesAll [
    (wordOf 0x080470D0 0x00000014 0x00004000, .rng h0 true (.v 4) (.s 2) (.v 1)),
    (wordOf 0x040870D1 0x00000000 0x02300000, .rsvld h0 ⟨true, .dflt, .acq, .dev, .dflt⟩ (.v 8) (.v 1)),
    (wordOf 0x040070D2 0x00000080 0x00500000, .rsvst h0 ⟨false, .dflt, .rel, .dev, .dflt⟩ (.v 1) (.v 8)),
    (wordOf 0x601070D3 0x00000080 0x00000000, .rsvupd h0 (.v 16) (.v 24) (.v 8)),
    (wordOf 0x400870D4 0x00408010 0x00000000, .rsvmrg h0 (.v 8) (.v 16) (.v 1) (.s 2)),
    (wordOf 0x000870D5 0x00000000 0x00000000, .rsvnorm h0 (.v 8)),
    (wordOf 0x500870D6 0x00000008 0x00000000, .rsvcap h0 (.v 8) (.imm 20)),
    (wordOf 0x100270D7 0x00411020 0x00000000, .ltsample h0 (.v 2) (.v 4) (.s 2) (.s 4)),
    (wordOf 0x200470D8 0x00801040 0x00044000, .trace h0 17 (.v 4) (.v 8) (.s 4) (.imm 0)),
    (wordOf 0x000270D9 0x00000000 0x00000000, .rhit h0 (.v 2)),
    (wordOf 0x000070DA 0x00000000 0x00000000, .rwait h0),
    (wordOf 0x100070DB 0x00000004 0x00000000, .curate h0 (.s 4)),
    (wordOf 0x000070DC 0x00000008 0x00000000, .curwait h0 (.imm 0)),
    (wordOf 0x100070DD 0x00000004 0x00000000, .bvhbuild h0 (.s 4)),
    (wordOf 0xF90470DE 0x4000201F 0x00000000, .bvhsize h0 (.s 4) (.lit 0x00010000#32) (.imm 1))] = true := by decide +kernel
theorem decodes_barrier1 : decodesAll [
    (wordOf 0x080070E0 0x00002044 0x02100000, .barinit h0 ⟨.glob, .dev⟩ true (.s 2) (.imm 4)),
    (wordOf 0x0D0171E0 0x00C2BFF4 0x00840000, .bararv h0 ⟨.own, .core⟩ (.s 1) (.s 3) .zr (.q 2)),
    (wordOf 0x0F0972E0 0x00001044 0x01080000, .barwait h0 ⟨.quad, .quad⟩ (.q 1) (.s 3) (.s 4)),
    (wordOf 0x330973E0 0x00C29054 0x00100000, .barsync h0 ⟨.glob, .dev⟩ (.q 1) (.s 12) (.s 5) (.q 2)),
    (wordOf 0x080074E0 0x00000004 0x00000000, .barinv h0 ⟨.glob, .coh⟩ (.s 2)),
    (wordOf 0x080074E0 0x00000004 0x02000000, .barinvFree h0 ⟨.glob, .coh⟩ (.s 2)),
    (wordOf 0x0D0475E0 0x00000004 0x00800000, .barqry h0 ⟨.own, .coh⟩ (.s 4) (.s 3)),
    (wordOf 0x150170E1 0x00000008 0x00000000, .ovld h0 (.s 1) (.imm 5)),
    (wordOf 0x270A70E2 0x00000004 0x00000000, .ovwait h0 (.q 2) (.s 9)),
    (wordOf 0x270A70E3 0x00000004 0x00000000, .ovpin h0 (.q 2) (.s 9)),
    (wordOf 0x27FF71E3 0x00000004 0x00000000, .ovunpin h0 .zr (.s 9)),
    (wordOf 0x270970E4 0x00000004 0x00000000, .ovevict h0 (.q 1) (.s 9)),
    (wordOf 0xC11470E5 0x00002008 0x00000000, .callo h0 (.s 20) (.imm 48) (.imm 0)),
    (wordOf 0x000270E6 0x00002010 0x00000000, .emit h0 (.v 2) (.imm 1)),
    (wordOf 0x0B0970E6 0x00001044 0x00004000, .emitQ h0 (.q 1) (.s 2) (.s 4)),
    (wordOf 0x010170E7 0x00002020 0x00000000, .reserve h0 (.s 1) (.imm 2)),
    (wordOf 0x000070E7 0x00001030 0x00004000, .reserveDrop h0 (.s 3)),
    (wordOf 0x000070E8 0x00000000 0x00000000, .nodeend h0)] = true := by decide +kernel
theorem decodes_barrier2 : decodesAll [
    (wordOf 0x000070E9 0x00000000 0x00000000, .filldone h0),
    (wordOf 0xF80071E9 0x0004800F 0x00000000, .fillfail h0 (.lit 0x00000012#32)),
    (wordOf 0x090172E9 0x00000004 0x00004000, .fillqry h0 true (.s 1) (.s 2)),
    (wordOf 0x0B0970EA 0x00000004 0x00100000, .drclose h0 .dev (.q 1) (.s 2))] = true := by decide +kernel
theorem decodes_system1 : decodesAll [
    (wordOf 0xF90270F0 0x0211000F 0x00000000, .csrr h0 (.s 2) (.lit 0x00000844#32)),
    (wordOf 0x040070F1 0x00001028 0x00000000, .csrw h0 (.imm 1) (.s 2)),
    (wordOf 0x1C0070F2 0x00000008 0x00000000, .trap h0 (.imm 7)),
    (wordOf 0x000070F3 0x00000000 0x00000000, .brk h0),
    (wordOf 0x000070F4 0x00000000 0x00000000, .trapretReplay h0),
    (wordOf 0x000070F4 0x00000000 0x00004000, .trapretSkip h0),
    (wordOf 0x080070F4 0x00000004 0x00008000, .trapretTo h0 (.s 2)),
    (wordOf 0x000070F4 0x00000000 0x0000C000, .trapretKill h0),
    (wordOf 0x000070F5 0x00000000 0x00000000, .halt h0),
    (wordOf 0x000070F5 0x00000000 0x00004000, .haltLaunch h0),
    (wordOf 0x000070F6 0x00000000 0x00000000, .tlbinvAll h0),
    (wordOf 0x000070F6 0x00001060 0x00004000, .tlbinvAsid h0 (.s 6)),
    (wordOf 0x280070F6 0x00001064 0x00008000, .tlbinvPage h0 (.s 10) (.s 6)),
    (wordOf 0x280070F6 0x0041D064 0x0000C000, .tlbinvRange h0 (.s 10) (.s 6) (.s 7)),
    (wordOf 0x0B0970F7 0x00000004 0x00000000, .splinter h0 (.q 1) (.s 2)),
    (wordOf 0x0B0970F8 0x00000004 0x00000000, .migrate h0 (.q 1) (.s 2)),
    (wordOf 0x0B0970F9 0x0040E014 0x00000000, .fillevict h0 (.q 1) (.s 2) (.imm 1) (.s 3)),
    (wordOf 0x210270FA 0x00002040 0x00000000, .openwin h0 (.s 2) (.v 8) (.imm 4))] = true := by decide +kernel
theorem decodes_system2 : decodesAll [
    (wordOf 0x03FF70FB 0x00000000 0x00000000, .closewin h0 .zr),
    (wordOf 0x510870FC 0x00001164 0x00000000, .provchk h0 (.s 8) (.s 20) (.s 22)),
    (wordOf 0x510870FC 0x00003FF4 0x00004000, .provchkStore h0 (.s 8) (.s 20) .zr),
    (wordOf 0x010470FD 0x00000000 0x00000000, .dlogq h0 (.s 4)),
    (wordOf 0x010470FD 0x00000000 0x00004000, .dlogqWait h0 (.s 4)),
    (wordOf 0x010470FE 0x00000000 0x00000000, .time h0 (.s 4)),
    (wordOf 0x100070FE 0x00000004 0x00004000, .timeStep h0 (.s 4))] = true := by decide +kernel

end Sys2Proof
end

