-- ==== Sys2Proof/Machine/Fetch.lean ====
section
/-! DEFINITION. Fetching an instruction (R40 to R45, R337, R392), which PC slot and which cohort issue (R297), and the cohort that holds
a word for its next fetch. -/

namespace Sys2Proof.Machine

/-! ## Blocks -/

/-- The bytes of a block but its last, over which the CRC runs (R41). -/
def blkBytes (b : BitVec 512) : List Byte := leBytes 63 b.toNat

/-- The checks of R42 on a block's trailer. -/
def blockOk (ovl : Nat) (b : BitVec 512) : Bool :=
  crc8 (blkBytes b) == (b.extractLsb' 504 8).toNat && (b.extractLsb' 480 16).toNat == ovl % 2 ^ 16
    && 1 ≤ blkValid b && blkValid b ≤ 5 && b.extractLsb' 501 3 == 0#3

/-- The instruction word of a slot (R40). -/
def slotWord (b : BitVec 512) (k : Nat) : BitVec 96 := b.extractLsb' (96 * k) 96

/-! ## Fetch -/

/-- What a fetch gives. -/
inductive Fetched where
  | ok (i : Instr)
  | trap (t : Trap)
  /-- the overlay has to be there first (R337) -/
  | want (n : Nat)
deriving DecidableEq, Repr

/-- The instruction in a slot of a resident block. The branch-range traps of a fetch stand before the integrity check (BLK beyond NBLK) and
between it and the alignment of the PC (ENTRY missing) (log 57). -/
def fetchSlot (p : PcPart) (entry : Bool) (b : BitVec 512) : Fetched :=
  if !blockOk p.pc.ovl b then .trap { cause := Cause.integrity }
  else if entry && !blkEntry b then .trap branchRangeT
  else if blkValid b ≤ p.pc.slot then .trap alignT
  else match decode (slotWord b p.pc.slot) with
    | .ok i => .ok i
    | .error _ => .trap { cause := Cause.illegal }

/-- Fetch for a part of the cohort. -/
def fetchAt (s : State) (c : Cohort) (p : PcPart) : Fetched :=
  if p.off then .trap branchRangeT
  else match ovSlot? s c.pl.core c.pl.part c.pl.asid p.pc.ovl with
    | some o =>
      if o.st == .resident && (!o.evict || refsOv c p.pc.ovl) then
        if o.nblk ≤ p.pc.blk then .trap branchRangeT
        else match o.blocks[p.pc.blk]? with
          | some b => fetchSlot p c.c.needEntry b
          | none => .trap branchRangeT
      else .want p.pc.ovl
    | none => .want p.pc.ovl

/-! ## Which PC slot -/

/-- The PC slot that issues by R297; a suspended instruction keeps its slot. -/
def pickPc (c : Cohort) : Option Bool :=
  match c.c.stage with
  | .start =>
    if c.c.susp then some c.c.isB
    else if isRunning c.c.a && isRunning c.c.b then some (!c.c.lastB)
    else if isRunning c.c.a then some false
    else if isRunning c.c.b then some true
    else none
  | _ => some c.c.isB

/-- A PC slot that the agenda names is taken when it can issue. -/
def pickSlot (c : Cohort) : Option Bool → Option Bool
  | none => pickPc c
  | some b => match c.c.stage with
    | .start => if !c.c.susp && isRunning (if b then c.c.b else c.c.a) then some b else pickPc c
    | _ => pickPc c

/-- Does a save that is asked for keep a cohort from issuing (R305)? Not while a cohort of its unit is in a handler (R392), nor in the middle of
a replay or of rules a to c. -/
def stopsFor (s : State) (c : Cohort) : Bool :=
  let mine := fun (x : Cohort) => x.pl.launch == c.pl.launch && x.pl.unit == c.pl.unit && x.pl.core == c.pl.core
  (s.saving.any fun r => match r with
    | .unit l u k => c.pl.launch == some l && c.pl.unit == u && c.pl.core == k
    | .part _ => false)
    && c.c.replay.isNone && c.c.stackTrap.isNone && !s.cohorts.any fun x => mine x && x.c.hm

/-- Is a cohort ready to issue: not ended, parked or waiting, its stall elapsed, no result owed that it parked for (R38), no access
outstanding whose acquire orders what follows (R217)? -/
def ready (s : State) (c : Cohort) : Bool :=
  c.resident && c.c.ending.isNone && (match c.c.park with | some t => t ≤ s.m.time | none => true) && c.c.wait.isNone
    && c.c.readyAt ≤ s.m.cycle && !(c.c.hold && owed s c.pl.id) && !(c.c.acq.isSome && parkedOf s c.pl.id)
    && ((pickPc c).isSome || c.c.stackTrap.isSome) && !stopsFor s c

/-! ## Which cohort (R297) -/

/-- Does an instruction of the arithmetic codes name an S register, a Q predicate or the zero operand as its destination (R31)? -/
def uniformD (w : BitVec 96) : Bool :=
  let d := (w.extractLsb' 16 10).toNat
  d / 256 == 1 || d == 0x3FF || (0x308 ≤ d && d < 0x310)

/-- The issue slot of an instruction (R31, R89, R155, R200): 0 vector, 1 scalar, which every uniform instruction but CURATE takes, 2 memory,
control and engines. -/
def issueClass (i : Instr) : Nat :=
  match i with
  | .bra _ _ | .brx _ _ | .join _ _ | .ret _ _ | .exit _ | .nop _ | .ld .. | .lds .. | .ldq .. | .st .. | .sts .. | .stq .. | .tld ..
  | .tst .. | .texf .. | .atom .. | .red .. | .atoms .. | .atomq .. | .mma .. | .mmasp .. | .zread .. | .zwrite .. | .rsvld ..
  | .rsvst .. | .ltsample .. | .trace .. | .rhit .. | .emit .. | .reorder .. | .curate _ _ => 2
  | .prefetch _ _ a _ | .cacheopWb _ a _ | .cacheopInv _ a _ | .cacheopWbinv _ a _ => match a with | .v _ => 2 | _ => 1
  | .tcvt .. | .rng .. | .rsvupd .. | .rsvmrg .. | .rsvnorm .. | .rsvcap .. => 0
  | i =>
    let w := encode i
    let op := (w.extractLsb' 0 8).toNat
    if 0x10 ≤ op && op < 0x90 && !uniformD w then 0 else 1

/-- The PC slot from which a ready cohort offers an instruction to an issue slot. What no fetch gives is a matter of slot 2. -/
def offer (s : State) (slot : Nat) (c : Cohort) : Option Bool :=
  let fits := fun (b : Bool) => match (if b then c.c.b else c.c.a) with
    | some p => p.run && match fetchAt s c p with
      | .ok i => issueClass i == slot
      | _ => slot == 2
    | none => false
  if !ready s c then none
  else if c.c.stackTrap.isSome then (if slot == 2 then some c.c.isB else none)
  else match c.c.stage with
    | .start => if fits (!c.c.lastB) then some (!c.c.lastB) else if fits c.c.lastB then some c.c.lastB else none
    | .ovl _ _ (some i) _ => if issueClass i == slot then some c.c.isB else none
    | .ovl _ _ none _ => if slot == 2 then some c.c.isB else none
    | _ => if fits c.c.isB then some c.c.isB else none

/-- Effective priority: 7 after 4,096 missed opportunities. -/
def effPrio (c : Cohort) (slot : Nat) : Nat := if 4096 ≤ nth c.c.starve slot 0 then 7 else c.pl.prio

/-- Does a cohort come before another by the three rules? -/
def ahead (slot : Nat) (a b : Cohort) : Bool :=
  let pa := effPrio a slot
  let pb := effPrio b slot
  let holds := fun (c : Cohort) => 0 < nth c.c.runs slot 0 && nth c.c.runs slot 0 < 64
  let la := nth a.c.last slot 0
  let lb := nth b.c.last slot 0
  if pa != pb then pb < pa
  else if holds a != holds b then holds a
  else if la != lb then la < lb
  else a.pl.slotIx < b.pl.slotIx

/-- What an opportunity of a slot leaves in a cohort's counts: the effective priority 7, once reached, stays until it issues on the slot. -/
def countSlot (slot now : Nat) (cand picked : Bool) (c : Cohort) : Cohort :=
  { c with c := { c.c with
      starve := setNth c.c.starve slot
        (let n := nth c.c.starve slot 0; if picked then 0 else if cand then n + 1 else if 4096 ≤ n then n else 0)
      last := if picked then setNth c.c.last slot now else c.c.last
      runs := setNth c.c.runs slot (if picked then nth c.c.runs slot 0 + 1 else 0) } }

/-- The issue slot of a partition of a core picks a cohort, which becomes the issuing one; the PC slot that issues. -/
def selectFor (core ip slot : Nat) (s : State) : Option Bool × State :=
  let here := fun (c : Cohort) => c.pl.core == core && c.pl.slotIx / 8 == ip
  let cs := s.cohorts.filter fun c => here c && (offer s slot c).isSome
  match cs.find? fun c => cs.all fun x => x.pl.id == c.pl.id || ahead slot c x with
  | none => (none, s)
  | some c =>
    let s' := s.updCohorts fun x =>
      if here x then countSlot slot s.m.cycle (cs.any fun y => y.pl.id == x.pl.id) (x.pl.id == c.pl.id) x else x
    (offer s slot c, switchTo c.pl.id s')

/-! ## A word for the next fetch -/

/-- A block with a word in a slot: its overlay's number, VALID at least past the slot, ENTRY and LAST as given, the CRC over them. -/
def putSlot (ovl : Nat) (entry last : Bool) (b : BitVec 512) (k : Nat) (w : BitVec 96) : BitVec 512 :=
  let hole : BitVec 480 := (BitVec.allOnes 96).zeroExtend 480 <<< (96 * k)
  let ws : BitVec 480 := (b.extractLsb' 0 480 &&& ~~~hole) ||| (w.zeroExtend 480 <<< (96 * k))
  let t : Nat := ovl % 2 ^ 16 + max (min 5 (blkValid b)) (k + 1) * 2 ^ 16 + (if entry then 2 ^ 19 else 0) + (if last then 2 ^ 20 else 0)
  let x : BitVec 504 := BitVec.ofNat 24 t ++ ws
  BitVec.ofNat 8 (crc8 (leBytes 63 x.toNat)) ++ x

/-- A block that holds a word in its slot 0 and nothing else. -/
def wordBlock (ovl : Nat) (w : BitVec 96) : BitVec 512 := putSlot ovl true true 0#512 0 w

/-- The blocks of an overlay with a word at a PC; a block that was not there holds nothing else. -/
def putBlock (pc : Pc) (entry : Bool) (w : BitVec 96) (bs : List (BitVec 512)) : List (BitVec 512) :=
  let bs := bs ++ List.replicate (pc.blk + 1 - bs.length) 0#512
  bs.modify pc.blk fun b =>
    let fresh := blkValid b == 0
    putSlot pc.ovl (fresh || entry || blkEntry b) (fresh || blkLast b) b pc.slot w

/-- The cohort that runs a word placed from outside: core 0, cohort slot 0, every V register and sixteen tiles, overlay 1. -/
def wordCohort (s : State) : Cohort :=
  let pl : Place := { Place.reset with id := s.ids }
  let r : Regs := { Regs.reset with vregs := 256, z := (List.range 16).map fun k => (k, k) }
  ⟨true, pl, r, { Ctl.reset with a := some ⟨true, Pc.mk 1 0 0, Mask.all, false⟩, readyAt := s.m.cycle }, Ext.reset⟩

/-- The overlay that holds the word. -/
def wordSlot (s : State) (w : BitVec 96) : OvSlot :=
  ⟨0, 0, .resident, false, 1, 0, 0, 1, 0, 1, false, 0, [wordBlock 1 w], s.ids + 1, [0]⟩

/-- A word in a new cohort, which issues next. -/
def placeWord (w : BitVec 96) (s : State) : State :=
  { s with cur := wordCohort s, agenda := [.issue none], slots := [wordSlot s w], ids := s.ids + 2 }

/-- The PC slot from which the issuing cohort would fetch. -/
def fetchSlot? (s : State) : Option Bool :=
  let c := s.cur
  if c.resident && c.c.ending.isNone && c.c.park.isNone && c.c.stackTrap.isNone && c.c.stage == .start && !c.c.hold && c.c.acq.isNone
      && !stopsFor s c then pickPc c
  else none

/-- The word where the issuing cohort fetches next, where it has a resident overlay to fetch from; else in a new cohort. -/
def putWord (w : BitVec 96) (s : State) : State :=
  match fetchSlot? s with
  | none => placeWord w s
  | some b =>
    match (if b then s.cur.c.b else s.cur.c.a) with
    | none => placeWord w s
    | some p =>
      match ovSlot? s s.cur.pl.core s.cur.pl.part s.cur.pl.asid p.pc.ovl with
      | none => placeWord w s
      | some o =>
        if o.st != .resident || (o.evict && !refsOv s.cur p.pc.ovl) then placeWord w s
        else
          let s := s.updC fun c =>
            let p := some { p with off := false }
            { c with readyAt := min c.readyAt s.m.cycle, wait := none, a := if b then c.a else p, b := if b then p else c.b }
          { s with
            agenda := [.issue (some b)]
            slots := s.slots.map fun x =>
              if isSlot o x then
                { x with nblk := max x.nblk (p.pc.blk + 1), blocks := putBlock p.pc s.cur.c.needEntry w x.blocks }
              else x }

end Sys2Proof.Machine
end

