-- ==== Sys2Proof/Machine/Issue.lean ====
section
/-! DEFINITION. One issue of the issuing cohort (R23, R44, R297, R337), the turns of the agenda, and the order in which agents
move when the agenda names none. -/

namespace Sys2Proof.Machine

/-! ## After any step -/

/-- What goes on by itself: surface changes that waited (R16, R176), fills whose map could not be written (R339), evictions whose last
reference left (R335), cohorts whose end is complete (R313), saves that are asked for (R305), host reads whose earlier writes are
acknowledged (R271). -/
def tidy (s : State) : State := settleReads (settleSaves (finishEnd (sweepEvict (settleFills (settlePending s)))))

def after : Host.Outcome State Fault Refusal → Host.Outcome State Fault Refusal
  | .next s => .next (tidy s)
  | o => o

/-- Cycles pass without issue; waiting instructions may then be presented again. -/
def idle (n : Nat) (s : State) : Host.Outcome State Fault Refusal := .next ((s.tick (max 1 n)).wake)

/-! ## Issue -/

/-- Is the cycle one that GATE idles (R21)? -/
def gated (s : State) : Bool := s.m.cycle % 16 < (s.m.pwrctl.extractLsb' 28 4).toNat

/-- A transfer that an instruction left waiting keeps the instruction (R337). -/
def holdOvl (i : Instr) : Host.Outcome State Fault Refusal → Host.Outcome State Fault Refusal
  | .next s => match s.cur.c.stage with
    | .ovl n t none nx => .next (s.updC fun c => { c with stage := .ovl n t (some i) nx })
    | _ => .next s
  | o => o

/-- A fetched instruction runs: its block's ENTRY has been seen, and a wait for its own overlay is over. -/
def runFetched (i : Instr) (s : State) : Host.Outcome State Fault Refusal :=
  holdOvl i (exec i (s.updC fun c =>
    { c with needEntry := false, stage := match c.stage with | .ovl _ _ none _ => Stage.start | x => x }))

/-- A trap at a fetch, or before it. -/
def fetchTrap (t : Trap) (s : State) : Host.Outcome State Fault Refusal := .next ((takeTrap t s.cur.smask s).tick 1)

/-- The overlay that a fetch needs: a load is demanded and the cohort waits (R337). -/
def fetchWait (n : Nat) (s : State) : Host.Outcome State Fault Refusal :=
  match wantOverlay n none s with
  | .error (.trap t s') => fetchTrap t s'
  | .error (.late r s') => .next ((takeLate r s').tick 1)
  | .error (.wait w s') => .next (park w s')
  | .ok ((), s') => .next (s'.tick 1)

/-- Rules a to c that stopped at a stack access go on (R299). -/
def resettle (pc : Pc) (lanes : Mask) (s : State) : Host.Outcome State Fault Refusal :=
  match settle pc lanes s with
  | .error (.late r s') => .next ((takeLate r s').tick 1)
  | .error (.trap t s') => fetchTrap t s'
  | .error (.wait w s') => .next (park w s')
  | .ok ((), s') =>
    .next ((s'.updC fun c => { c with wait := if c.stackTrap.isSome then some WaitOn.log else none }).tick 1)

/-- The issuing cohort issues from a PC slot. -/
def issueSlot (b : Bool) (s : State) : Host.Outcome State Fault Refusal :=
  let s := s.updC fun c => { c with isB := b }
  match s.cur.c.stage with
  | .ovl _ _ (some i) _ => holdOvl i (exec i s)
  | _ => match s.cur.part? with
    | none => idle 1 s
    | some p => match fetchAt s s.cur p with
      | .ok i => runFetched i s
      | .trap t => fetchTrap t s
      | .want n => fetchWait n s

/-- The issuing cohort issues, from the PC slot named or by R297, when it is ready and the cycle is not idled. -/
def issue (b : Option Bool) (s : State) : Host.Outcome State Fault Refusal :=
  if gated s || !ready s s.cur then idle 1 s
  else
    let s := s.updCur (unpark s.m.time)
    let s := match s.cur.c.acq with
      | some sc => acquire sc s
      | none => s
    let s := s.updC fun c => { c with hold := false, acq := none }
    match s.cur.c.stackTrap with
    | some (pc, m) => resettle pc m s
    | none => match pickSlot s.cur b with
      | some b => issueSlot b s
      | none => idle 1 s

/-! ## Events -/

/-- Is it an event, which no word encodes? -/
def isEvent (i : Instr) : Bool :=
  match i with
  | .parkExpiry _ | .heartbeatTick _ | .courierTransfer _ | .chainRecord _ | .passGrant _ | .passExecute _
  | .budgetRefill | .rayTraversal _ | .hartEvaluation _ | .resampleJob _ | .haloSyncJob _ | .buildJob _
  | .overlayLoad _ _ | .overlayTransferRetry _ | .invocationLaunch _ _ _ _ | .fixedNodeConsume _ _ | .fillRequest _ _ _
  | .generatorStart _ _ _ | .zeroFill _ | .lz4Fill _ | .drroundWrite _ | .rsvsurfWrite _ _ | .deferredStoreRetry _
  | .deferredStoreTimeout _ | .powerGovernorMeasure _ _ | .thermalStep _ | .thermalMachineCheck | .powerMachineCheck
  | .pwrctlWrite _ | .carvectlWrite _ | .cqdiscWrite _ _ | .registerWrite _ _ | .doorbell _ _ | .hostPostedWrite _ _
  | .hopPieceAck _ _ | .hostRead _ _ | .queueArbitration _ | .launchEntry _ _ | .waitEntry _ _ | .signalEntry _ _
  | .nopEntry _ _ | .entryCompletion _ _ | .unitGrant _ _ _ | .leaderElection _ | .unitPlacement _ _ _
  | .startTimeReached _ | .priorityPreemption _ | .driverSaveRequest _ _ | .contextRestore _ _ | .docentSweep _
  | .heatRaise _ _ _ _ _ | .parkedRequest _ _ _ | .parkedReplay _ | .conservationTimeout _ | .heldUpdateAccept _
  | .uncorrectableError _ | .eccCorrection _ _ _ | .timingReplay _ | .partitionQuiesce _ | .zwiovRd _ _ _
  | .zwiovWr _ _ _ | .zwiovAt _ _ _ _ _ _ _ | .zwiovRed _ _ _ _ _ _ | .zwiovCourier _ _ _ _ _ | .ptpMessage _
  | .flitReplay _ | .pathFailure _ | .coldStart _ | .warmStart _ _ _ | .marginApply _ | .dieFailure _ | .ppsPulse _ => true
  | _ => false

/-- A start is the one thing that a stopped module does (R22, R24). -/
def isRestart (i : Instr) : Bool :=
  match i with
  | .coldStart _ | .warmStart _ _ _ => true
  | _ => false

/-- An event of the agenda; what is none, and what a stopped module does not do, lets a cycle pass. -/
def event (i : Instr) (s : State) : Host.Outcome State Fault Refusal :=
  if isEvent i && (!s.m.stopped || isRestart i) then exec i s else idle 1 s

/-! ## Work that engines have -/

/-- Numbers without repeats. -/
def distinct (l : List Nat) : List Nat := l.eraseDups

/-- The cores on which a partition's units may be placed. -/
def coresOf (s : State) (p : Nat) : List Nat := (List.range 4096).filter (coreOf s p)

/-- What passes, copies, rays, jobs, loads and fills may do next. -/
def engineWork (s : State) : List Instr :=
  (distinct (s.passes.map (·.quad))).map (fun q =>
      if s.passes.any fun p => p.quad == q && p.granted then Instr.passExecute q else Instr.passGrant q)
    ++ s.copies.map (fun c => match c.kind with | .chain _ => Instr.chainRecord c.id | _ => Instr.courierTransfer c.id)
    ++ s.rays.map (fun r => Instr.rayTraversal r.id)
    ++ s.jobs.map (fun j =>
      if j.build then Instr.buildJob j.id
      else if fld j.desc 4 1 / 2 % 4 == 0 then Instr.resampleJob j.id else Instr.haloSyncJob j.id)
    ++ (s.slots.filter fun o => o.st == .loading).map (fun o => Instr.overlayLoad o.core o.ix)
    ++ (s.fills.filter fun f => !f.started).map (fun f =>
      if f.rng.kind == 0 then Instr.zeroFill f.id
      else if f.rng.kind == 2 then Instr.lz4Fill f.id
      else
        let free := fun (k : Nat) => !s.cohorts.any fun c => c.pl.core == f.die * 1024 + k / 4 && c.pl.slotIx == k % 4 * 8 + 7
        Instr.generatorStart f.id (f.die * 1024 + ((List.range 4096).find? free).getD 0 / 4)
          (((List.range 4096).find? free).getD 0 % 4 * 8 + 7))

/-- What stores, held updates, parked requests and host writes may do next. -/
def memoryWork (s : State) : List Instr :=
  (distinct (s.dlog.map (·.core))).map Instr.deferredStoreRetry
    ++ (s.held.filter (·.transit)).map (fun h => Instr.heldUpdateAccept h.id)
    ++ (s.parked.filter (replayable s)).map (fun q => Instr.parkedReplay q.id)
    ++ (match s.hop with
        | w :: _ => if w.raw.isSome then [Instr.hopPieceAck w.seq 0] else w.pieces.map fun p => Instr.hopPieceAck w.seq p.1
        | [] => [])
    ++ ((List.range 16).filter fun p => (s.part p).cfg.getLsbD 0 && docentDue s p).map Instr.docentSweep

/-- What a started queue entry does next. -/
def entryWork (e : Entry) : List Instr :=
  if e.code.isSome || e.launch.isSome then [.entryCompletion e.queue e.idx]
  else match e.kind with
    | 0 => [.nopEntry e.queue e.idx]
    | 1 => [.launchEntry e.queue e.idx]
    | 2 => [.waitEntry e.queue e.idx]
    | _ => [.signalEntry e.queue e.idx]

/-- The first core of the partition that takes the next unit of a launch, or an invocation of a node. -/
def coreFor (s : State) (l : Launch) (take : Nat → Bool) : Option Nat := (coresOf s l.part).find? fun c => take c && !outranked s l c

/-- What a launch does next. -/
def launchWork (s : State) (l : Launch) : List Instr :=
  match l.graph with
  | some g =>
    (List.range g.nodes.length).flatMap fun k =>
      if !g.recs.any fun r => r.node == k then []
      else if (nth g.nodes k GNode.zero).kind != 0 then [Instr.fixedNodeConsume l.id k]
      else
        let slot := fun (c : Nat) => (findSlot s.cohorts c l.rc.vregs).map (·.1)
        match coreFor s l fun c => match slot c with | some x => (launchInv l g k c x s).isSome | none => false with
        | some c => [Instr.invocationLaunch l.id k c ((slot c).getD 0)]
        | none => []
  | none =>
    (if dieOf s l.part l.leader then [] else [Instr.leaderElection l.id])
      ++ (if l.counter < l.rc.dispUnits then ((List.range 4).filter (dieOf s l.part)).map fun d => Instr.unitGrant l.id d 16 else [])
      ++ (if l.waiting.isEmpty then []
          else match coreFor s l (canTake s l) with
          | some c => match nextFor l c with
            | some u => [Instr.unitPlacement l.id u c]
            | none => []
          | none => [])

/-- Where a saved unit may be placed again. -/
def restoreWork (s : State) (x : Saved) : List Instr :=
  match s.launch? x.launch with
  | none => []
  | some l => match coreFor s l fun c => dieFits l x.die c && (placeUnit l x.unit c s).isSome with
    | some c => [Instr.contextRestore x.id c]
    | none => []

/-- What the queues, the entries, the launches and the saved units do next. -/
def dispatchWork (s : State) : List Instr :=
  let ps := (List.range 16).filter fun p => (s.part p).cfg.getLsbD 0
  ps.map Instr.queueArbitration
    ++ s.entries.flatMap entryWork
    ++ s.launches.flatMap (launchWork s)
    ++ s.saved.flatMap (restoreWork s)
    ++ (ps.filter fun p => (s.part p).preempt.getLsbD 0 && !savingIn s p && (preemptor s p).isSome).map Instr.priorityPreemption

/-- An event that an engine may do next, another one each cycle. -/
def autoEvent (s : State) : Option Instr :=
  let l := engineWork s ++ memoryWork s ++ dispatchWork s
  l[s.m.cycle * 40503 / 256 % max 1 l.length]?

/-! ## Turns -/

/-- The k-th outstanding result of the issuing cohort, when its latency is not fixed. -/
def writeback (k : Nat) (s : State) : State :=
  match s.cur.c.pend[k]? with
  | some p =>
    if p.due.isNone then s.updCur fun c => { c with r := p.apply c.r, c := { c.c with pend := c.c.pend.eraseIdx k } } else s
  | none => s

/-- A turn that the agenda names. -/
def turn (t : Turn) (s : State) : Host.Outcome State Fault Refusal :=
  match t with
  | .event i => event i s
  | .idle n => idle n s
  | .switch id => .next (switchTo id s)
  | .writeback k => .next (writeback k s)
  | .issue b => if s.m.stopped then idle 1 s else issue b s
  | .select core ip slot =>
    if s.m.stopped then idle 1 s
    else match selectFor core ip slot s with
      | (some b, s') => issue (some b) s'
      | (none, s') => idle 1 s'

/-- An engine's event in a cycle of its own. -/
def autoTurn (i : Instr) (s : State) : Host.Outcome State Fault Refusal :=
  match exec i s with
  | .next s' => .next (s'.tick 1)
  | o => o

/-- The issue slots for which a cohort is ready: core, partition of the core, slot. -/
def openSlots (s : State) : List (Nat × Nat × Nat) :=
  ((s.cohorts.filter (ready s)).flatMap fun c => ((List.range 3).filter fun k => (offer s k c).isSome).map fun k =>
    (c.pl.core, c.pl.slotIx / 8, k)).eraseDups

/-- An issue slot for which a cohort is ready picks one by R297, another slot each cycle. -/
def issueTurn (s : State) : Option (Host.Outcome State Fault Refusal) :=
  let l := openSlots s
  l[s.m.cycle % max 1 l.length]?.map fun (core, ip, k) => turn (.select core ip k) s

/-- Who moves when the agenda names nobody. Cohorts issue; engines have the cycles that GATE idles, the cycles in which no cohort is
ready, and come first in one stretch of sixteen cycles out of sixteen, whose last cycle passes by and lets waiting instructions be
presented again when there is no engine's work. -/
def byDefault (s : State) : Host.Outcome State Fault Refusal :=
  let engine := (autoEvent s).map fun i => autoTurn i s
  if s.m.stopped then idle 1 s
  else if gated s then engine.getD (idle 1 s)
  else if s.m.cycle / 16 % 16 == 15 then
    engine.getD (if s.m.cycle % 16 == 15 then idle 1 s else (issueTurn s).getD (idle 1 s))
  else match issueTurn s with
    | some o => o
    | none => engine.getD (idle 1 s)

/-- One move: the first turn of the agenda, else who moves by default. What a turn does leaves the rest of the agenda. -/
def move (s : State) : Host.Outcome State Fault Refusal :=
  match s.agenda with
  | [] => byDefault s
  | t :: rest => match turn t { s with agenda := rest } with
    | .next s' => .next { s' with agenda := rest }
    | o => o

end Sys2Proof.Machine
end

