-- ==== Sys2Proof/Machine/Step.lean ====
section
/-! DEFINITION. One step of the machine, and a word placed where the next step fetches. -/

namespace Sys2Proof.Machine

/-- One step: one agent moves, then what ends by itself ends. -/
def step (s : State) : Host.Outcome State Fault Refusal := after (move s)

/-- An instruction placed from outside at the next fetch: bytes little-endian, so the table's numbering of its bits is the
number's. -/
def State.withFetchWord (s : State) (nbits w : Nat) : State := putWord (BitVec.ofNat 96 (w % 2 ^ nbits)) s

end Sys2Proof.Machine
end

