-- ==== Sys2Proof/Safety.lean ====
section
/-! DEFINITION. The terms in which claims speak of a run: when an instruction meets nothing but itself, how an instruction that
completes leaves the machine, what its registers read once outstanding results are written. -/

namespace Sys2Proof.Machine

/-- The issuing cohort is resident, and nothing of earlier instructions is outstanding: no result, no late trap, no lanes of a
replay, no idempotent region. -/
structure Calm (s : State) : Prop where
  resident : s.cur.resident = true
  pend : s.cur.c.pend = []
  late : s.cur.c.late = []
  replay : s.cur.c.replay = none
  idem : s.cur.c.idem = none

/-- The checks of R48 that an instruction's operands and mode pass. -/
structure Usable (s : State) (mt : Meta) : Prop where
  pre : mt.pre s = none
  opnds : badOpnd s mt = none
  mode : mt.priv = true → s.cur.pl.priv = true

/-- An instruction is over: the PC moves to the next instruction, and the cycle ends with the SCHED effects (R35, R44). -/
def finished (h : Hdr) (s : State) : State := retire h.sc (advancePc s)

/-- The outstanding result of an instruction that began with none. -/
def gives (ws : List Wr) (fl : Flags) (lat : Option Nat) (s : State) : State :=
  s.updC fun c => { c with pend := [⟨ws, fl, lat.map (s.m.cycle + ·)⟩] }

/-- The state after an instruction that computes one result per active lane, or one in uniform form, and does nothing else
(R31, R36, R88). -/
def laneDone (h : Hdr) (uni : Bool) (lat : Option Nat) (f : Option Nat → List Wr × Flags) (s : State) : State :=
  let m := activeMask h uni s.cur
  finished h (if uni && m == 0#32 then s
    else gives ((runsFor uni m).flatMap fun ln => (f ln).1) (joinFlags ((runsFor uni m).map fun ln => (f ln).2)) lat s)

/-- One 32-bit integer result per lane. -/
def wordDone (h : Hdr) (d : Opd) (lat : Option Nat) (f : Option Nat → Word) (s : State) : State :=
  laneDone h d.uni lat (fun ln => (dst32 d ln (f ln), 0)) s

/-- One integer result of k registers per lane. -/
def groupDone (h : Hdr) (d : Opd) (k : Nat) (lat : Option Nat) (f : Option Nat → Nat) (s : State) : State :=
  laneDone h d.uni lat (fun ln => (dstN d ln k (f ln), 0)) s

/-- One predicate result per lane. -/
def predDone (h : Hdr) (d : Opd) (lat : Option Nat) (f : Option Nat → Bool) (s : State) : State :=
  laneDone h d.uni lat (fun ln => (dstP d ln (f ln), 0)) s

/-- One result of k registers with its flags per lane. -/
def floatDone (h : Hdr) (d : Opd) (k : Nat) (lat : Option Nat) (f : Option Nat → Nat × Flags) (s : State) : State :=
  laneDone h d.uni lat (fun ln => (dstN d ln k (f ln).1, (f ln).2)) s

/-- The state after an instruction of the whole cohort in uniform form that gives one result from the lanes that take part. -/
def cohDone (h : Hdr) (lat : Option Nat) (f : Mask → List Wr × Flags) (s : State) : State :=
  let m := activeMask h true s.cur
  finished h (if m == 0#32 then s else gives (f m).1 (f m).2 lat s)

/-- A fold in order: the first value stands as it is, an empty one gives the identity (R128). -/
def foldLanes (op : FoldOp) (ty : Ty) : List Word → Word × Flags
  | [] => (foldId op ty, 0)
  | x :: l => l.foldl (fun acc y => ((foldStep op ty acc.1 y).1, acc.2 ||| (foldStep op ty acc.1 y).2)) (x, 0)

/-- An operand of the single, double and packed instructions with the source modifiers of R94. -/
def sgl (s : State) (ln : Option Nat) (neg abs : Bool) (o : Opd) : Nat := Fmt.f32.mods neg abs (srcF32 s ln o)
def dbl (s : State) (ln : Option Nat) (neg abs : Bool) (o : Opd) : Nat := Fmt.f64.mods neg abs (srcF64 s ln o)
def hlf (f : Fmt) (s : State) (ln : Option Nat) (neg abs : Bool) (o : Opd) (k : Nat) : Nat := f.mods neg abs (srcF16 f s ln o k)

/-- Two packed results with their flags (R117). -/
def both (lo hi : Nat × Flags) : Nat × Flags := (lo.1 + hi.1 * 2 ^ 16, lo.2 ||| hi.2)

/-! ## Lane accesses -/

/-- The lanes for which an access runs, with what the check and the translation of each give (R243). -/
def reached (h : Hdr) (sp : ASpace) (acc : Acc) (canDefer : Bool) (w : Nat) (uni : Bool) (addr : State → Option Nat → Nat) (s : State) :
    List LaneAcc :=
  (addrsOf uni (activeMask h uni s.cur) addr s).map fun (i, a) => ⟨i, a, resolve sp acc canDefer w s i a⟩

/-- Every lane lies at a place, in no block that is not FILLED, and no copy, no pass, no logged store and no parked request stalls it. -/
structure Reaches (sp : ASpace) (acc : Acc) (w : Nat) (ls : List LaneAcc) (s : State) : Prop where
  placed : ∀ l ∈ ls, ∃ x t, l.st = .at_ x t
  filled : ∀ l ∈ ls, l.ask s = .go
  free : ∀ l ∈ ls, sbStall s (acc != .store) (acc != .load) w l = false ∧ logStall s sp w l = false ∧ l.behind s w = false

/-- No lane's access meets a fault where it performs. -/
def NoFault (got : List (LaneAcc × Got)) : Prop := ∀ e ∈ got, ∀ t, e.2 ≠ .fault t

/-- The outcome is a next state of which a property holds. -/
def Answers (o : Host.Outcome State Fault Refusal) (P : State → Prop) : Prop := ∃ t, o = .next t ∧ P t

/-- One more outstanding result. -/
def addPend (ws : List Wr) (fl : Flags) (lat : Option Nat) (s : State) : State :=
  s.updC fun c => { c with pend := c.pend ++ [⟨ws, fl, lat.map (s.m.cycle + ·)⟩] }

/-- The lanes have performed: what they read is outstanding, and an acquire has taken effect, or will once a parked access of the
cohort has performed (R217, R399). -/
def accessed (put : Option Nat → List Byte → List Wr) (acq : Option Scope) (r : List (LaneAcc × Got) × State) : State :=
  let s := addPend (r.1.flatMap fun (l, g) => match g with
    | .val bs => put l.lane bs
    | _ => []) 0 none r.2
  match acq with
  | some sc => acquireWith sc (ownParked s || ownTransit s) s
  | none => s

/-- Nothing of the cohort is still on its way for a release (R217, R222): no logged store, no parked request, no held update. -/
structure Drained (s : State) : Prop where
  log : ownLogged s = false
  parked : ownParked s = false
  transit : ownTransit s = false

/-- The write-backs of the cohort's core perform: none of them parks (R216, R399). -/
def BackOk (s : State) : Prop := backParked (writeBackAll s.cur.pl.core s) s.cur.pl.core = false

/-- A release of a scope has nothing to wait for (R217, R231). -/
structure Quiet (sc : Scope) (s : State) : Prop extends Drained s where
  back : Scope.wide sc = true → BackOk s

/-- A release of a scope by a cohort that is drained: the L1 is written back, at a scope of the fabric every remote write is
acknowledged, an idempotent region is closed (R217, R279, R315). -/
def released (sc : Scope) (s : State) : State :=
  let s := if Scope.wide sc then writeBackAll s.cur.pl.core s else s
  let s := if fabScope sc then { s with fabw := s.fabw.filter fun w => w.cohort != s.cur.pl.id } else s
  s.updCur Cohort.closeIdem

/-- What the core of a number holds at a home: a byte of a line that its L1 has dirty (R216). -/
def dirtyAt (s : State) (core a : Nat) (b : Byte) : Prop :=
  ∃ x ∈ s.l1, x.core = core ∧ x.line = a / 64 ∧ x.dirty.getLsbD (a % 64) = true ∧ b = nth x.data (a % 64) 0#8

/-- The homes' bytes are as they were, but for those of a set and for dirty bytes that the core wrote back. -/
def KeepsBytes (s t : State) (core : Nat) (stored : Nat → Prop) : Prop :=
  ∀ a, ¬ stored a → t.byte a = s.byte a ∨ dirtyAt s core a (t.byte a)

/-- The bytes of a lane's access at its place, where it is local. -/
def LaneAcc.covers (l : LaneAcc) (w a : Nat) : Prop :=
  match l.loc with
  | .dram pa _ => pa ≤ a ∧ a < pa + w
  | .chip pa => pa ≤ a ∧ a < pa + w
  | .host o => 0xC_0000_0000_0000 + o ≤ a ∧ a < 0xC_0000_0000_0000 + o + w
  | _ => False

/-- Nothing that the place of an access records or reports about it: no poisoned sector, no heat. -/
structure Plain (s : State) : Prop where
  poison : s.poison = []
  heat : (s.part s.cur.pl.part).heat.getLsbD 0 = false

/-! ## Tiles -/

/-- A Z instruction can act on a tile: no granted pass and no pass of the cohort is on it, and the cohort has no pending fault there,
or is in handler mode (R134, R147, R392). -/
structure ZClear (s : State) (z : Opd) : Prop where
  passes : ∀ p ∈ s.passes, p.quad = s.quad → p.tile = zTile s z → p.granted = false ∧ p.cohort ≠ s.cur.pl.id
  faults : s.cur.c.hm = true ∨ ∀ f ∈ (getTile s z).faults, f.cohort ≠ s.cur.pl.id

/-- Rows whose CHECK is the sum of their cells, or a poisoned tile (R145, R146). -/
def Verified (t : Tile) (rows : List Nat) : Prop := t.poison = true ∨ rows.all t.rowOk = true

/-- The writes and flags of a read-out of rows of a tile (R148, R163). -/
def readOut (p : Plac) (sat : Bool) (t : Tile) (d : Opd) (rows : List Nat) (c0 : Nat) : List Wr × Flags :=
  let rs := rows.map fun m => (m, (((t.cellsOf m).drop c0).take p.cols).map (cellCode p sat (t.row m)))
  (rs.flatMap fun (m, l) => rowWrites (Opd.ix d) m p.rowBytes (packCodes p l), joinFlags (rs.flatMap fun (_, l) => l.map Prod.snd))

/-- The rows that a ZST converts, each with its codes and flags, and the bytes that it writes at offsets from the base (R165). -/
def zstRows (p : Plac) (sat : Bool) (t : Tile) : List (Nat × List (Nat × Flags)) :=
  (List.range p.rows).map fun m => (m, ((t.cellsOf m).take p.cols).map fun x =>
    if p.isFX then (wrapNat 64 x, (0 : Flags)) else cellCode p sat (t.row m) x)
def zstWrites (p : Plac) (sat : Bool) (t : Tile) : List (Nat × List Byte) :=
  ((zstRows p sat t).flatMap fun (m, l) => rowOut p m (packCodes p l))
    ++ if p.isFX then (List.range p.rows).map fun m =>
        (p.scaleOff + 16 * m, rowRecord (t.row m) (checkOf ((t.cellsOf m).take p.cols))) else []

/-- What a pass gives its tile, or the detail of its fault (R137, R147, R401). -/
def passResult (s : State) (p : Pass) : Except Nat Tile :=
  if spPoisoned s (spPa p.core p.b) (Plac.ofQ p.plb).endOff then .error 0x21
  else match p.plan s with
    | .error e => .error e
    | .ok pl => pl.run (s.tile p.quad p.tile)

/-- A span of the own scratchpad lies in the allocation. -/
def fits (s : State) (off n : Nat) : Prop := off + n ≤ s.cur.pl.spSize

/-! ## Copies -/

/-- The spaces of a copy are open to the cohort, and its scratchpad addresses have no high bits (R258, R259). -/
structure Spaces (s : State) (m : CMod) (dst src : Option Nat) : Prop where
  map : m.ssp = .map → s.cur.pl.priv = true
  dst : ∀ a, dst = some a → m.dsp = .own ∨ m.dsp = .quad → a < 2 ^ 32
  src : ∀ a, src = some a → m.ssp = .own ∨ m.ssp = .quad → a < 2 ^ 32

/-- A copy can be accepted: every earlier access of the cohort has performed, fewer than 64 copies of the core are in flight, there
is a free scoreboard entry (R17, R229, R259). -/
structure CopyRoom (s : State) : Prop extends Drained s where
  copies : (s.copies.filter fun c => c.core == s.cur.pl.core).length < 64
  sb : (s.sb.filter fun e => e.core == s.cur.pl.core).length < 32

/-- A copy of the issuing cohort has joined its open batch, with an entry for the bytes [lo, hi) of its core's scratchpad that it may
write in the own allocation (R17, R259). -/
def accepted (sc : Scope) (kind : CopyKind) (dst : Option (Nat × Nat)) (s : State) : State :=
  let p := s.cur.pl
  { s with
    ids := s.ids + 1
    copies := s.copies ++ [⟨s.ids, p.core, p.id, s.cur.x.batch, p.part, p.asid, p.priv, s.cur.smask, sc, kind, none⟩]
    sb := s.sb ++ match dst with
      | some (lo, hi) => [⟨p.core, lo, hi, true, s.ids⟩]
      | none => [] }

/-! ## Jobs and rays -/

/-- Room for a job of the issuing cohort on a die (R203). -/
structure JobRoom (s : State) (die : Nat) : Prop where
  own : (s.jobs.filter fun j => j.cohort == s.cur.pl.id).length < 16
  die : (s.jobs.filter fun j => j.die == die).length < 1024

/-- A job of the issuing cohort has been posted, after its core's dirty lines went home (R204, R233). -/
def posted (die : Nat) (build : Bool) (desc : List Byte) (s : State) : State :=
  let s := (writeBackAll s.cur.pl.core s).updCur Cohort.closeIdem
  let p := s.cur.pl
  { s with ids := s.ids + 1
           jobs := s.jobs ++ [⟨s.ids, die, p.id, p.lin, p.queue, p.launch, p.part, p.asid, build, desc, s.cur.pc, 0⟩] }

/-- The agent that reads for a ray. -/
def rayAgent (s : State) (r : Ray) : Agent := ⟨r.part, r.asid, privOf s r.part r.asid, 2 ^ 49 + r.id, none, none, none⟩

/-- The eight numbers of a ray. -/
def rayVal (r : Ray) (k : Nat) : Val := Fmt.f32.val (nth r.ray k 0#32).toNat

/-- A ray that casts nothing (R193). -/
def BadRay (r : Ray) : Prop :=
  (∃ k, k < 8 ∧ Val.fin? (rayVal r k) = false) ∨ (∀ k, 4 ≤ k → k < 7 → (rayVal r k).isZero = true)
    ∨ (rayVal r 3).lt (.fin false 0 0) = true ∨ (rayVal r 7).lt (rayVal r 3) = true

/-! ## Fetch -/

/-- The issuing cohort can issue at once from a PC slot, the one wanted or the one that R297 gives, and the bits at its PC, in a block of a resident overlay that passes its
checks, are those of an instruction (R40 to R45). -/
structure Fetches (s : State) (want : Option Bool) (sl : Bool) (p : PcPart) (i : Instr) : Prop where
  running : s.m.stopped = false
  open_ : gated s = false
  ready : ready s s.cur = true
  settled : s.cur.c.stackTrap = none
  stage : s.cur.c.stage = .start
  slot : pickSlot s.cur want = some sl
  part : (if sl then s.cur.c.b else s.cur.c.a) = some p
  on : p.off = false
  block : ∃ o b, ovSlot? s s.cur.pl.core s.cur.pl.part s.cur.pl.asid p.pc.ovl = some o ∧ o.st = .resident ∧ (o.evict = false ∨ refsOv s.cur p.pc.ovl = true)
    ∧ p.pc.blk < o.nblk ∧ o.blocks[p.pc.blk]? = some b ∧ blockOk p.pc.ovl b = true
    ∧ (s.cur.c.needEntry = true → blkEntry b = true) ∧ p.pc.slot < blkValid b
    ∧ decode (slotWord b p.pc.slot) = .ok i

/-- The state in which the fetched instruction runs: the acquire of an access that was parked has taken effect (R217, R399). -/
def atIssue (s : State) (sl : Bool) : State :=
  let s := s.updCur (unpark s.m.time)
  let s := match s.cur.c.acq with
    | some sc => acquire sc s
    | none => s
  s.updC fun c => { c with hold := false, acq := none, isB := sl, needEntry := false }

/-! ## Control flow -/

/-- The issuing slot holds a running part, no transfer and no rule of R299 is outstanding; the other part runs, or there is none
and the divergence stack is empty. -/
structure Rested (s : State) : Prop where
  trap : s.cur.c.stackTrap = none
  stage : s.cur.c.stage = .start
  part : ∃ x, s.cur.part? = some x ∧ x.run = true
  other : match s.cur.other? with
    | some y => y.run = true
    | none => s.cur.c.dstop = 0

/-- A block of an overlay that is resident for the cohort's tenant and open to it (R45, R337). -/
def Lands (s : State) (n blk : Nat) : Prop :=
  ∃ o, slotOf s s.cur.pl.core s.cur.pl.part s.cur.pl.asid n = some o ∧ o.st = .resident ∧ blk < o.nblk
    ∧ (o.evict = false ∨ refsOv s.cur n = true)

/-- Some lanes of the issuing slot go to a target, the others fall through; the taken ones fill the slot, or the other one. -/
def branched (m : Mask) (t : Pc) (s : State) : State := s.updCur fun c =>
  match c.part? with
  | none => c
  | some x =>
    if m = x.mask then c.setPart (some ⟨true, t, m, false⟩)
    else (c.setPart (some { PcPart.advance s c x with mask := x.mask &&& ~~~m })).setOther (some ⟨true, t, m, false⟩)

/-! ## Barriers -/

/-- The waiters of a barrier word go on, each with its answer. -/
def woken (pa : Nat) (ok : Bool) (s : State) : State := s.updCohorts fun c =>
  if c.c.barAt = some pa then { c with c := { c.c with barAt := none, wait := none, barEnd := some ok } } else c

/-- A counted arrival has performed at a word (R320). -/
def arrived (core pa : Nat) (s : State) : State :=
  let w := barAt s pa
  if w.arrived + 1 = w.expected then
    woken pa true (putBar core pa { w with phase := w.phase + 1, arrived := 0, waiting := false } s)
  else putBar core pa { w with arrived := w.arrived + 1 } s

/-! ## Work graphs -/

/-- The issuing cohort is an invocation whose node has an edge of a number: its launch and graph, the edge's target, whether it is a
self edge, how many records the invocation may make on it (R349). -/
structure OnEdge (s : State) (e : Nat) (l : Launch) (g : Graph) (i : Inv) (t : GNode) (self : Bool) (mx : Nat) : Prop where
  inv : s.cur.x.inv = some i
  launch : s.cur.pl.launch = some l.id
  found : s.launch? l.id = some l
  graph : l.graph = some g
  edge : ∃ x m, (nth g.nodes i.node GNode.zero).edges[e]? = some (x, m) ∧ t = nth g.nodes x GNode.zero ∧ self = (x == i.node)
    ∧ mx = if (self = true ∧ (nth g.nodes i.node GNode.zero).depth ≤ i.depth) ∨ e ∈ i.dropped then 0 else m

/-! ## Values -/

/-- The magnitude of an exact value. -/
def mag (m : Nat) (e : Int) : ℚ := (m : ℚ) * (2 : ℚ) ^ e

/-- The registers once every outstanding result is written. -/
def settled (s : State) : Regs := s.cur.drain.r

end Sys2Proof.Machine
end

