-- ==== Sys2Proof/Certificates/Slice0/Obligations.lean ====
section
/-! DEFINITION. The statements for the provers, from the rules of the spec. -/

section
open Sys2Proof Sys2Proof.Machine

/-- At reset no cohort is resident and none is launched, PWRCTL holds CLOCK 0xBB8 and LIMIT 0xD48, HOPSEQ reads all ones,
every partition's HEATCTL has SAMPLE 8, PREEMPTCTL WAITUS 0x64 and MINGAP 2, FLTCTL DLTMO 0x64 and its other registers zero,
every matrix budget refills 0x100000, and the first step answers a next state. Values of memory and of registers for which
the spec states none are the model's choice (logs 7 and 8) and are not claimed here. (R21, R151, R273, R304, R363, R390,
R403, R11, R90) -/
def Obligations.ResetValues : Prop :=
  let s := State.reset
  s.cur.resident = false ∧ s.others = [] ∧ s.launches = [] ∧ s.entries = []
  ∧ s.m.pwrctl = 0x0BB8_0D48#64 ∧ s.m.hopVisible = 0xFFFF_FFFF#32 ∧ s.m.hopAssigned = 0xFFFF_FFFF#32
  ∧ s.m.carve = 0#64 ∧ s.m.rsvsurf = 0#64 ∧ s.m.qdt = 0#64 ∧ s.m.marginctl = 0#64
  ∧ (∀ p, p < 16 →
      (s.part p).cfg = 0#64 ∧ (s.part p).tent = 0#64 ∧ ((s.part p).heat.extractLsb' 8 4) = 8#4 ∧ (s.part p).heat.getLsbD 0 = false
      ∧ (s.part p).preempt = 0x0064_0200#64 ∧ (s.part p).fltBase = 0#64 ∧ (s.part p).fltHead = 0#32 ∧ (s.part p).fltTail = 0#32
      ∧ (s.part p).fltCtl = 0x0064_0000#64 ∧ (s.part p).errCnt = 0#64 ∧ ∀ k, nth (s.part p).prange k 0#64 = 0#64)
  ∧ (∀ q, (s.budget q).refill = 0x10_0000)
  ∧ ∃ t, step s = .next t

/-- When the agenda lets the issuing cohort issue, from a PC slot that it names or from the one that R297 gives, and the word there
decodes to i, a step is exec of i in the state with that slot issuing and the entry check passed; so it is, with no agenda, for the
cohort and the slot that R297 selects for the issue slot whose turn the cycle is, outside the stretch of cycles in which engines come
first (the model's own order, log 72); a transfer that then waits keeps the instruction, the agenda goes on, and what ends by itself
ends. (R23, R40, R42, R43, R44, R45, R297) -/
def Obligations.StepRunsTheDecodedInstruction : Prop :=
  (∀ (s : State) (want : Option Bool) (sl : Bool) (p : PcPart) (i : Instr), Fetches s want sl p i →
    ∀ rest, s.agenda = .issue want :: rest → ∀ t, exec i (atIssue { s with agenda := rest } sl) = .next t →
      ∃ u, holdOvl i (.next t) = .next u ∧ step s = .next (tidy { u with agenda := rest }))
  ∧ (∀ (s s' : State) (core ip k : Nat) (sl : Bool) (p : PcPart) (i : Instr), s.agenda = [] → s.m.cycle / 16 % 16 ≠ 15 →
      (openSlots s)[s.m.cycle % max 1 (openSlots s).length]? = some (core, ip, k) → selectFor core ip k s = (some sl, s') →
      Fetches s' (some sl) sl p i → ∀ t, exec i (atIssue s' sl) = .next t →
        ∃ u, holdOvl i (.next t) = .next u ∧ step s = .next (tidy u))
  ∧ ∀ (i : Instr) (t : State), (∀ n w nx, t.cur.c.stage ≠ .ovl n w none nx) → holdOvl i (.next t) = .next t

/-- From every state, also one that no run reaches, a step answers a next state: no instruction, no event, no trap and no
reserved word stops the machine; an instruction of a cohort that is not resident is the one thing that exec refuses to run,
and no step issues one. (R37, R47, R48, R391, R392, R393) -/
def Obligations.StepNeverStops : Prop :=
  (∀ s : State, ∃ t, step s = .next t)
  ∧ (∀ (i : Instr) (s : State), s.cur.resident = true → ∃ t, exec i s = .next t)
  ∧ ∀ (i : Instr) (s : State), isEvent i = true → ∃ t, exec i s = .next t

/-- For every instruction word of the opcode table, with every guard, every SCHED field and every operand, modifier and
literal that its entry admits, decode of encode is the instruction: no bit of an encoding is dropped and no two instructions
share a word. (R25, R26, R27, R28, R29, R30, R32, R33, R34, R46, R47) -/
def Obligations.DecodeOfEncode : Prop :=
  ∀ i : Instr, i.wf = true → decode (encode i) = .ok i

/-- Whenever a word decodes, the instruction is well formed and encodes to exactly that word, so a word with any bit that its
entry does not use set is refused; and no word decodes to an event. (R25, R26, R47) -/
def Obligations.EncodeOfDecode : Prop :=
  ∀ (w : BitVec 96) (i : Instr), decode w = .ok i → i.wf = true ∧ encode i = w ∧ isEvent i = false

/-- The words of the spec's worked encodings decode as it says: FFMA, IADD with a short immediate and CVT.e4m3.f32.sat; and
words of BRA, EXIT, NOP and a word of zeros or of an unassigned OP behave as R46 and R47 say. (R25, R26, R30, R119, R308) -/
def Obligations.WordsOfTheSpecDecode : Prop :=
  decode (wordOf 0x14043043 0x0001C060 0x88040000) =
    .ok (.ffma ⟨⟨false, 3⟩, ⟨true, 0, 2⟩⟩ ⟨0, false, false, .rz, .dflt⟩ (.v 4) (.v 5) (.v 6) (.v 7))
  ∧ decode (wordOf 0x2D0A7010 0x00002FB4 0) =
    .ok (.iadd ⟨⟨false, 7⟩, ⟨false, 0, 0⟩⟩ ⟨0, false, false, .rne, .dflt⟩ (.s 10) (.s 11) (.imm 0xFB))
  ∧ decode (wordOf 0x0C097070 0x00814000 0x00100000) =
    .ok (.cvt ⟨⟨false, 7⟩, ⟨false, 0, 0⟩⟩ ⟨2, 5, false, false, true, .rne⟩ (.v 9) (.v 3))
  ∧ decode (wordOf 0x00007006 0 0) = .ok (.exit ⟨⟨false, 7⟩, ⟨false, 0, 0⟩⟩)
  ∧ decode (wordOf 0x00007007 0 0) = .ok (.nop ⟨⟨false, 7⟩, ⟨false, 0, 0⟩⟩)
  ∧ decode (wordOf 0x00007007 0 0x00004000) = .error .notAccepted
  ∧ decode 0#96 = .error .unassigned

/-- A trap of a cohort outside handler mode with a handler, that is no generator, and of no ending cause, first writes the
outstanding results, then records cause, detail, operand, lanes, done lanes, PC, address, both slots, DSTOP and the cohort in
TREC, sets TDONE to the done lanes and HM, puts SLOT-A at block 0 of the trap overlay with the faulting slot's mask, whose
ENTRY is then required, and empties SLOT-B; registers, stack, scratch registers and late traps are kept, and without
FLTCTL.ALL memory too, but for what the cohort gives up: a suspension on a barrier word, the BUSY of table entries. With
FLTCTL.ALL the record is in the ring at HEAD, which moves on. In handler mode every trap, and
otherwise a trap without a handler, in a generator, or of an ending cause, ends the cohort; in handler mode the record is the
first trap's with cause 0x30 and the second cause in DETAIL. (R392) -/
def Obligations.TakingAnException : Prop :=
  ∀ (t : Trap) (mask : Mask) (s : State),
    let u := takeTrap t mask s
    let p := s.cur.pl.part
    let q := s.part p
    let log2 := (q.fltBase.extractLsb' 0 5).toNat
    let at_ := (q.fltBase.extractLsb' 6 46).toNat * 64 + 64 * (q.fltHead.toNat % 2 ^ log2)
    let usable := p < s.parts.length ∧ 4 ≤ log2 ∧ log2 ≤ 20 ∧ (q.fltHead - q.fltTail).toNat ≠ 2 ^ log2 ∧ s.inRanges p at_ = true
    let new : Rec := { cause := t.cause, detail := t.detail, opnd := t.opnd, slotB := s.cur.c.isB, late := false, cls := 0
                       mask := mask, done := t.done, dstop := s.cur.c.dstop, count := 0, pc := s.cur.pc, addr := t.addr
                       slotA := s.cur.c.a, slotBp := s.cur.c.b, cohort := s.cur.pl.lin, queue := s.cur.pl.queue, aux := t.aux
                       launch := s.cur.pl.launch }
    (s.cur.c.hm = false → s.cur.pl.trapOvl ≠ 0 → s.cur.x.gen = none → Cause.ends t.cause = false →
      u.cur.resident = s.cur.resident ∧ u.cur.pl = s.cur.pl ∧ u.cur.x = s.cur.x ∧ u.cur.r = settled s ∧ u.others = s.others
      ∧ u.cur.c.trec = some new ∧ u.cur.c.tdone = t.done ∧ u.cur.c.hm = true
      ∧ u.cur.c.a = some ⟨true, Pc.mk s.cur.pl.trapOvl 0 0, s.cur.smask, false⟩ ∧ u.cur.c.b = none ∧ u.cur.c.isB = false
      ∧ u.cur.c.needEntry = true ∧ u.cur.c.dstop = s.cur.c.dstop ∧ u.cur.c.stack = s.cur.c.stack ∧ u.cur.c.tsave = s.cur.c.tsave
      ∧ u.cur.c.late = s.cur.c.late ∧ u.cur.c.pend = [] ∧ u.cur.c.idem = none
      ∧ (q.fltCtl.getLsbD 0 = false → u.parts = s.parts
          ∧ (s.cur.c.barAt = none → (∀ op st lv es, s.cur.c.stage ≠ .busy op st lv es) → u.mem = s.mem))
      ∧ (q.fltCtl.getLsbD 0 = true → usable → u.bytes at_ 64 = new.bytes ∧ (u.part p).fltHead = q.fltHead + 1))
    ∧ (s.cur.c.hm = true ∨ s.cur.pl.trapOvl = 0 ∨ s.cur.x.gen.isSome = true ∨ Cause.ends t.cause = true →
      u.cur.c.ending = some 1 ∧ u.cur.c.a = none ∧ u.cur.c.b = none ∧ u.cur.c.stack = [] ∧ u.cur.c.hm = false ∧ u.cur.c.late = []
      ∧ u.cur.pl = s.cur.pl ∧ u.cur.r = settled s
      ∧ (s.cur.c.late = [] → usable → (u.part p).fltHead = q.fltHead + 1
          ∧ (s.cur.x.gen = none →
            u.bytes at_ 64 = (if s.cur.c.hm then { (s.cur.c.trec.getD new) with cause := 0x0030, detail := t.cause % 256 } else new).bytes)))

/-- HALT, HALT.launch, TLBINV in its four forms, SPLINTER, MIGRATE, FILLEVICT and TIME.step, issued by a cohort of a tenant
without privilege, take the privilege trap with the slot's lanes and nothing else happens; whatever the operands, and whether
or not the guard is true. (R47, R384, R396) -/
def Obligations.PrivilegedInstructionsTrap : Prop :=
  ∀ (h : Hdr) (d a b c : Opd) (s : State), s.cur.resident = true → s.cur.c.pend = [] → s.cur.pl.priv = false →
    ∀ i ∈ [Instr.halt h, .haltLaunch h, .tlbinvAll h, .tlbinvAsid h b, .tlbinvPage h a b, .tlbinvRange h a b c, .splinter h d a,
        .migrate h d a, .fillevict h d a b c, .timeStep h a],
      exec i s = .next ((takeTrap { cause := 0x0002 } s.cur.smask s).tick 1)

/-- An instruction whose destination or source group reaches past the V registers allocated, or names an unbound Z handle,
takes the access trap with the code of the first such operand, destination before sources, and has no effect of its own:
shown for a two-source, a three-source, a load, a store and a matrix instruction. The operand's code is the rule of log 42.
(R12, R48, R388) -/
def Obligations.UnallocatedRegistersTrap : Prop :=
  ∀ (h : Hdr) (m : AMod) (mm : MMod) (d a b c : Opd) (off : Word) (s : State), s.cur.resident = true → s.cur.c.pend = [] →
    ∀ (i : Instr) (uni : Bool) (os : List (Opd × Nat × Nat)),
      (i, uni, os) ∈ [(Instr.iadd h m d a b, d.uni, [(d, 1, 4), (a, 1, 1), (b, 1, 2)]),
        (.ffma h m d a b c, d.uni, [(d, 1, 4), (a, 1, 1), (b, 1, 2), (c, 1, 3)]),
        (.dadd h m d a b, d.uni, [(d, 2, 4), (a, 2, 1), (b, 2, 2)]),
        (.ld h mm d a off, false, [(d, mm.ty.regs, 4), (a, 2, 1)]),
        (.st h mm a b off, false, [(a, 2, 1), (b, mm.ty.regs, 2)]),
        (.zclr h d, true, [(d, 1, 4)])] →
      ∀ pre e post, os = pre ++ e :: post →
        (∀ x ∈ pre, badOpd s (x.1, x.2.1) = false) → badOpd s (e.1, e.2.1) = true →
        exec i s = .next ((takeTrap { accessT 0 with opnd := e.2.2 } (if uni then s.cur.smask else activeMask h false s.cur) s).tick 1)

/-- For every integer, floating-point and converting instruction with one destination, when it answers a next state without a
trap: the machine differs only in the issuing cohort and the clock with its budgets; the cohort's place, couriers, stack,
trap registers and handler mode are as before; once the result is written, every V register of every lane outside the
destination group or of an inactive lane, every S register, P predicate lane and Q predicate other than the destination,
every placard, tile binding, SEQ and DRROUND is as before, and FPSTAT keeps its bits, its bits from 5 up unchanged. (R11,
R28, R31, R32, R36, R44, R90, R91) -/
def Obligations.RegisterInstructionsFrame : Prop :=
  ∀ (h : Hdr) (m : AMod) (cm : CvtMod) (ic : ICmp) (fc : FCmp) (d a b c : Opd) (x : Word) (s t : State), Calm s →
    let k := m.ty.regs
    ∀ (i : Instr) (kd : Nat) (srcs : List (Opd × Nat)),
      (i, kd, srcs) ∈ [(Instr.iadd h m d a b, 1, [(a, 1), (b, 1)]), (.isub h m d a b, 1, [(a, 1), (b, 1)]),
        (.imul h m d a b, 1, [(a, 1), (b, 1)]), (.imulh h m d a b, 1, [(a, 1), (b, 1)]), (.imad h m d a b c, 1, [(a, 1), (b, 1), (c, 1)]),
        (.idiv h m d a b, 1, [(a, 1), (b, 1)]), (.irem h m d a b, 1, [(a, 1), (b, 1)]), (.imin h m d a b, 1, [(a, 1), (b, 1)]),
        (.imax h m d a b, 1, [(a, 1), (b, 1)]), (.iabs h m d a, 1, [(a, 1)]), (.ineg h m d a, 1, [(a, 1)]),
        (.bfe h m d a b, 1, [(a, 1), (b, 1)]), (.bfi h m d a b c, 1, [(a, 1), (b, 1), (c, 1)]),
        (.byteperm h m d a b c, 1, [(a, 1), (b, 1), (c, 1)]), (.popc h m d a, 1, [(a, k)]), (.clz h m d a, 1, [(a, k)]),
        (.ctz h m d a, 1, [(a, k)]), (.brev h m d a, k, [(a, k)]), (.isetp h m ic d a b, 1, [(a, k), (b, k)]),
        (.sel h m d a b c, k, [(a, k), (b, k), (c, 1)]), (.mov h m d a, k, [(a, k)]), (.movi h m d x, k, []),
        (.lea h m d a b, 2, [(a, 2), (b, 1)]), (.iadd64 h m d a b, 2, [(a, 2), (b, 2)]),
        (.imad64 h m d a b c, 2, [(a, 1), (b, 1), (c, 2)]), (.fadd h m d a b, 1, [(a, 1), (b, 1)]), (.fsub h m d a b, 1, [(a, 1), (b, 1)]),
        (.fmul h m d a b, 1, [(a, 1), (b, 1)]), (.ffma h m d a b c, 1, [(a, 1), (b, 1), (c, 1)]), (.fmin h m d a b, 1, [(a, 1), (b, 1)]),
        (.fmax h m d a b, 1, [(a, 1), (b, 1)]), (.fsetp h m fc d a b, 1, [(a, 1), (b, 1)]), (.fclass h m d a, 1, [(a, 1)]),
        (.frcp h m d a, 1, [(a, 1)]), (.frsq h m d a, 1, [(a, 1)]), (.fsqrt h m d a, 1, [(a, 1)]), (.fdiv h m d a b, 1, [(a, 1), (b, 1)]),
        (.fexp2 h m d a, 1, [(a, 1)]), (.flog2 h m d a, 1, [(a, 1)]), (.fsin h m d a, 1, [(a, 1)]), (.fcos h m d a, 1, [(a, 1)]),
        (.frnd h m d a, 1, [(a, 1)]), (.dadd h m d a b, 2, [(a, 2), (b, 2)]), (.dmul h m d a b, 2, [(a, 2), (b, 2)]),
        (.dfma h m d a b c, 2, [(a, 2), (b, 2), (c, 2)]), (.dsetp h m fc d a b, 1, [(a, 2), (b, 2)]),
        (.cvt h cm d a, fmtRegs cm.df, [(a, fmtRegs cm.sf)]), (.cvtsr h cm d a b, 1, [(a, fmtRegs cm.sf), (b, 1)])] →
      Usable s (.of d kd srcs) → exec i s = .next t →
        t = { s with cur := t.cur, m := t.m, budgets := t.budgets }
        ∧ t.m = { s.m with cycle := t.m.cycle, time := t.m.time, phase := t.m.phase, offset := t.m.offset, slewed := t.m.slewed }
        ∧ t.cur.pl = s.cur.pl ∧ t.cur.x = s.cur.x
        ∧ t.cur.c = { s.cur.c with a := t.cur.c.a, b := t.cur.c.b, lastB := t.cur.c.lastB, pend := t.cur.c.pend, readyAt := t.cur.c.readyAt
                                   wait := none, barAt := none, barEnd := none, ovFail := false, onFill := none, fillEnd := none
                                   stage := .start, susp := false, hold := s.cur.c.hold || h.sc.sw }
        ∧ (∀ n lane, lane < 32 →
            ¬ (∃ r, d = .v r ∧ r.toNat ≤ n ∧ n < r.toNat + kd ∧ (activeMask h false s.cur).has lane = true) →
            (settled t).rdV n lane = s.cur.r.rdV n lane)
        ∧ (∀ n, ¬ (∃ r, d = .s r ∧ r.toNat ≤ n ∧ n < r.toNat + kd) → (settled t).rdS n = s.cur.r.rdS n)
        ∧ (∀ n lane, lane < 32 → ¬ (∃ r, d = .p r ∧ r.toNat = n ∧ (activeMask h false s.cur).has lane = true) →
            ((settled t).rdP n).has lane = (s.cur.r.rdP n).has lane)
        ∧ (∀ n, n < 8 → ¬ (∃ r, d = .q r ∧ r.toNat = n) → (settled t).rdQ n = s.cur.r.rdQ n)
        ∧ (settled t).pl = s.cur.r.pl ∧ (settled t).z = s.cur.r.z ∧ (settled t).seq = s.cur.r.seq
        ∧ (settled t).drround = s.cur.r.drround
        ∧ (settled t).fpstat &&& s.cur.r.fpstat = s.cur.r.fpstat
        ∧ (settled t).fpstat.extractLsb' 5 27 = s.cur.r.fpstat.extractLsb' 5 27

/-- When no sector is poisoned and heat is not counted, ST, STS and STQ leave every byte of every home as it was outside the
bytes of their lanes, whose addresses are those the lanes' check and translation give, except that a byte that the core's L1
held dirty may have been written back; LD, LDS, LDQ and LDSC leave every byte as it was with the same exception; neither
changes a register at once, unless a store names the on-chip windows of registers. (R214, R215, R216, R217, R243) -/
def Obligations.StoresChangeOnlyTheirBytes : Prop :=
  ∀ (h : Hdr) (m : MMod) (d a b : Opd) (off : Word) (s0 t : State), Calm s0 → Plain s0 →
    let w := Ty.bytes m.ty
    (∀ (sp : ASpace) (i : Instr),
      (sp, i) ∈ [(ASpace.glob, Instr.st h m a b off), (.own, .sts h m a b off), (.quad, .stq h m a b off)] →
      let addr := fun (s : State) (ln : Option Nat) =>
        if sp = .glob then (src64 s ln a + off.signExtend 64).toNat else (src32 s ln a + off).toNat
      let rel := m.order = .rel ∨ m.order = .ar
      let s := if rel then released m.scope s0 else s0
      let ls := reached h sp .store (sp == .glob) w false addr s
      let act := activeMask h false s0.cur
      let one := fun (l : LaneAcc) (s' : State) =>
        let bs := leBytes w (srcN s l.lane m.ty.regs b)
        storeAt l.loc l.addr bs m.scope m.cache act
          (.store s.cur.pl.id l.lane (((List.range bs.length).map (l.pa + ·)).zip bs) s.cur.pc) s'
      Usable s0 { srcs := [(a, if sp = .glob then 2 else 1), (b, m.ty.regs)], lates := if rel then latesRel else [], opnd := 1 } →
      (rel → Quiet m.scope s0) → Reaches sp .store w ls s →
      NoFault (oneByOne one ls (noteLanes .store ls s)).1 → exec i s0 = .next t →
        KeepsBytes s0 t s0.cur.pl.core (fun x => ∃ l ∈ ls, l.covers w x)
        ∧ ((∀ l ∈ ls, ∀ pa, l.loc = .chip pa → ∀ k, k < w → isSp (pa + k) = true) → settled t = s0.cur.r))
    ∧ ∀ (sp : ASpace) (uni : Bool) (i : Instr),
      (sp, uni, i) ∈ [(ASpace.glob, false, Instr.ld h m d a off), (.own, false, .lds h m d a off), (.quad, false, .ldq h m d a off),
        (.glob, true, .ldsc h m d a off)] →
      let addr := fun (s : State) (ln : Option Nat) =>
        if sp = .glob then (src64 s ln a + off.signExtend 64).toNat else (src32 s ln a + off).toNat
      let act := activeMask h uni s0.cur
      let ls := reached h sp .load false w uni addr s0
      let one := fun (l : LaneAcc) (s' : State) => loadAt l.loc l.addr w m.scope m.cache act (match l.lane with
        | some j => .load s'.cur.pl.id (Opd.ix d) j l.pa m.ty m.scope m.cache s'.cur.pc
        | none => .sload s'.cur.pl.id (Opd.ix d) l.pa m.ty m.scope m.cache s'.cur.pc) s'
      Usable s0 { uni := uni, srcs := [(a, if sp = .glob then 2 else 1)], dsts := [(d, m.ty.regs)], opnd := 1 } →
      (uni = true → act ≠ 0#32) → Reaches sp .load w ls s0 → NoFault (oneByOne one ls (noteLanes .load ls s0)).1 →
      exec i s0 = .next t →
        KeepsBytes s0 t s0.cur.pl.core (fun _ => False) ∧ (h.sc.sw = false → t.cur.r = s0.cur.r)

/-- With no outstanding result and accessible operands, IADD, ISUB, IMUL, IMAD, IABS and INEG answer the next state in which
every active lane (or the uniform destination) gets the sum, difference, product, sum of product, magnitude or negation
modulo 2^32, or that integer clamped to the range of TYPE under SAT, and nothing else changes but the PC and the cycle; IMULH
gives bits 63:32 of the exact product; IDIV and IREM truncate toward zero, give all ones and the dividend for a zero divisor,
0x80000000 and 0 for the one overflow, and never trap; IMIN and IMAX give the smaller and larger operand. (R98, R99) -/
def Obligations.IntegerArithmetic : Prop :=
  ∀ (h : Hdr) (m : AMod) (d a b c : Opd) (s : State), Calm s →
    let x := fun ln => src32 s ln a
    let y := fun ln => src32 s ln b
    let z := fun ln => src32 s ln c
    let sg := Ty.signed m.ty
    let fit := fun (wrapped : Word) (exact : Int) => if m.sat then BitVec.ofInt 32 (clampInt 32 sg exact) else wrapped
    (Usable s (.of d 1 [(a, 1), (b, 1)]) →
      exec (.iadd h m d a b) s =
        .next (wordDone h d (some 4) (fun ln => fit (x ln + y ln) (intOf sg (x ln) + intOf sg (y ln))) s)
      ∧ exec (.isub h m d a b) s =
        .next (wordDone h d (some 4) (fun ln => fit (x ln - y ln) (intOf sg (x ln) - intOf sg (y ln))) s)
      ∧ exec (.imul h m d a b) s =
        .next (wordDone h d (some 6) (fun ln => fit (x ln * y ln) (intOf sg (x ln) * intOf sg (y ln))) s)
      ∧ exec (.imulh h m d a b) s = .next (wordDone h d (some 6) (fun ln =>
          if sg then ((x ln).signExtend 64 * (y ln).signExtend 64).extractLsb' 32 32
          else ((x ln).zeroExtend 64 * (y ln).zeroExtend 64).extractLsb' 32 32) s)
      ∧ exec (.idiv h m d a b) s = .next (wordDone h d none (fun ln =>
          if y ln = 0#32 then 0xFFFF_FFFF#32 else if sg then (x ln).sdiv (y ln) else x ln / y ln) s)
      ∧ exec (.irem h m d a b) s = .next (wordDone h d none (fun ln =>
          if y ln = 0#32 then x ln else if sg then (x ln).srem (y ln) else x ln % y ln) s)
      ∧ exec (.imin h m d a b) s = .next (wordDone h d (some 4) (fun ln =>
          if (if sg then (x ln).sle (y ln) else (x ln).ule (y ln)) then x ln else y ln) s)
      ∧ exec (.imax h m d a b) s = .next (wordDone h d (some 4) (fun ln =>
          if (if sg then (x ln).sle (y ln) else (x ln).ule (y ln)) then y ln else x ln) s))
    ∧ (Usable s (.of d 1 [(a, 1), (b, 1), (c, 1)]) →
        exec (.imad h m d a b c) s = .next (wordDone h d (some 6) (fun ln =>
          fit (x ln * y ln + z ln) (intOf sg (x ln) * intOf sg (y ln) + intOf sg (z ln))) s))
    ∧ (Usable s (.of d 1 [(a, 1)]) →
        exec (.iabs h m d a) s = .next (wordDone h d (some 4) (fun ln =>
          if m.sat && x ln == 0x8000_0000#32 then 0x7FFF_FFFF#32 else (x ln).abs) s)
        ∧ exec (.ineg h m d a) s = .next (wordDone h d (some 4) (fun ln =>
          if m.sat && x ln == 0x8000_0000#32 then 0x7FFF_FFFF#32 else - x ln) s))

/-- A predicate destination selects the form on one-bit values, the .u64 TYPE the form on register pairs, anything else the
form on one register; each of AND, OR, XOR, NOT and ANDN answers the next state with the bitwise result of that form in every
active lane or in the uniform destination. (R97, R100) -/
def Obligations.BitwiseInThreeForms : Prop :=
  ∀ (h : Hdr) (m : AMod) (d a b : Opd) (s : State), Calm s →
    ((d.cls = .p ∨ d.cls = .q) → Usable s (.of d 1 [(a, 1), (b, 1)]) →
      exec (.and h m d a b) s = .next (predDone h d (some 4) (fun ln => srcP s ln a && srcP s ln b) s)
      ∧ exec (.or h m d a b) s = .next (predDone h d (some 4) (fun ln => srcP s ln a || srcP s ln b) s)
      ∧ exec (.xor h m d a b) s = .next (predDone h d (some 4) (fun ln => srcP s ln a != srcP s ln b) s)
      ∧ exec (.andn h m d a b) s = .next (predDone h d (some 4) (fun ln => srcP s ln a && !srcP s ln b) s)
      ∧ exec (.not h m d a) s = .next (predDone h d (some 4) (fun ln => !srcP s ln a) s))
    ∧ (d.cls ≠ .p → d.cls ≠ .q → m.ty = .u64 → Usable s (.of d 2 [(a, 2), (b, 2)]) →
      exec (.and h m d a b) s = .next (groupDone h d 2 (some 4) (fun ln => (src64 s ln a &&& src64 s ln b).toNat) s)
      ∧ exec (.or h m d a b) s = .next (groupDone h d 2 (some 4) (fun ln => (src64 s ln a ||| src64 s ln b).toNat) s)
      ∧ exec (.xor h m d a b) s = .next (groupDone h d 2 (some 4) (fun ln => (src64 s ln a ^^^ src64 s ln b).toNat) s)
      ∧ exec (.andn h m d a b) s = .next (groupDone h d 2 (some 4) (fun ln => (src64 s ln a &&& ~~~src64 s ln b).toNat) s)
      ∧ exec (.not h m d a) s = .next (groupDone h d 2 (some 4) (fun ln => (~~~src64 s ln a).toNat) s))
    ∧ (d.cls ≠ .p → d.cls ≠ .q → m.ty ≠ .u64 → Usable s (.of d 1 [(a, 1), (b, 1)]) →
      exec (.and h m d a b) s = .next (wordDone h d (some 4) (fun ln => src32 s ln a &&& src32 s ln b) s)
      ∧ exec (.or h m d a b) s = .next (wordDone h d (some 4) (fun ln => src32 s ln a ||| src32 s ln b) s)
      ∧ exec (.xor h m d a b) s = .next (wordDone h d (some 4) (fun ln => src32 s ln a ^^^ src32 s ln b) s)
      ∧ exec (.andn h m d a b) s = .next (wordDone h d (some 4) (fun ln => src32 s ln a &&& ~~~src32 s ln b) s)
      ∧ exec (.not h m d a) s = .next (wordDone h d (some 4) (fun ln => ~~~src32 s ln a) s))

/-- SHL, SHR, SAR, ROL and ROR shift or rotate one register, or a pair whose b is a pair too, by the whole low 32 bits of b, so that a count of the
width or more gives 0, 0, or copies of the sign bit, and a rotate takes the count modulo the width; BFE extracts the field of
b's position and length, clipped at bit 31, and extends it by TYPE; BFI replaces that field of c by the low bits of a; POPC,
CLZ and CTZ count set bits, leading and trailing zeros into one register; BREV reverses the bit order; BYTEPERM picks each
result byte by a nibble of c, or copies the sign bit of the byte picked. (R101, R102, R103, R104) -/
def Obligations.ShiftsAndFields : Prop :=
  ∀ (h : Hdr) (m : AMod) (d a b c : Opd) (s : State), Calm s →
    let n := fun ln => (src32 s ln b).toNat
    let nn := fun ln => ((src64 s ln b).extractLsb' 0 32).toNat
    let x := fun ln => src32 s ln a
    let xx := fun ln => src64 s ln a
    let k := m.ty.regs
    let v := fun ln => srcN s ln k a
    let pos := fun ln => ((src32 s ln b).extractLsb' 0 8).toNat
    let len := fun ln => ((src32 s ln b).extractLsb' 8 8).toNat
    (Usable s (.of d 2 [(a, 2), (b, 2)]) →
      (m.ty = .u64 →
        exec (.shl h m d a b) s = .next (groupDone h d 2 (some 4) (fun ln => (xx ln <<< nn ln).toNat) s)
        ∧ exec (.shr h m d a b) s = .next (groupDone h d 2 (some 4) (fun ln => (xx ln >>> nn ln).toNat) s)
        ∧ exec (.rol h m d a b) s = .next (groupDone h d 2 (some 4) (fun ln => ((xx ln).rotateLeft (nn ln)).toNat) s)
        ∧ exec (.ror h m d a b) s = .next (groupDone h d 2 (some 4) (fun ln => ((xx ln).rotateRight (nn ln)).toNat) s))
      ∧ (m.ty = .s64 →
        exec (.sar h m d a b) s = .next (groupDone h d 2 (some 4) (fun ln => ((xx ln).sshiftRight (nn ln)).toNat) s)))
    ∧ (Usable s (.of d 1 [(a, 1), (b, 1)]) →
      (m.ty ≠ .u64 →
        exec (.shl h m d a b) s = .next (wordDone h d (some 4) (fun ln => x ln <<< n ln) s)
        ∧ exec (.shr h m d a b) s = .next (wordDone h d (some 4) (fun ln => x ln >>> n ln) s)
        ∧ exec (.rol h m d a b) s = .next (wordDone h d (some 4) (fun ln => (x ln).rotateLeft (n ln)) s)
        ∧ exec (.ror h m d a b) s = .next (wordDone h d (some 4) (fun ln => (x ln).rotateRight (n ln)) s))
      ∧ (m.ty ≠ .s64 →
        exec (.sar h m d a b) s = .next (wordDone h d (some 4) (fun ln => (x ln).sshiftRight (n ln)) s))
      ∧ exec (.bfe h m d a b) s = .next (wordDone h d (some 4) (fun ln =>
          if 32 ≤ pos ln ∨ len ln = 0 then 0#32
          else
            let up := 32 - min (len ln) (32 - pos ln)
            if Ty.signed m.ty then ((x ln >>> pos ln) <<< up).sshiftRight up else ((x ln >>> pos ln) <<< up) >>> up) s))
    ∧ (Usable s (.of d 1 [(a, 1), (b, 1), (c, 1)]) →
      (∃ r : Option Nat → Word,
        exec (.bfi h m d a b c) s = .next (wordDone h d (some 4) r s)
        ∧ ∀ ln i, i < 32 → (r ln).getLsbD i =
            if pos ln ≤ i ∧ i < pos ln + len ln then (x ln).getLsbD (i - pos ln) else (src32 s ln c).getLsbD i)
      ∧ ∃ r : Option Nat → Word,
        exec (.byteperm h m d a b c) s = .next (wordDone h d (some 4) r s)
        ∧ ∀ ln j, j < 4 → (r ln).extractLsb' (8 * j) 8 =
            let e := (src32 s ln c).extractLsb' (4 * j) 4
            let by_ := (src32 s ln b ++ x ln).extractLsb' (8 * (e.extractLsb' 0 3).toNat) 8
            if e.getLsbD 3 then (if by_.getLsbD 7 then 0xFF#8 else 0x00#8) else by_)
    ∧ (Usable s (.of d 1 [(a, k)]) →
      exec (.popc h m d a) s = .next (wordDone h d (some 4) (fun ln =>
          BitVec.ofNat 32 ((List.range (32 * k)).countP fun i => (v ln).testBit i)) s)
      ∧ (∃ r : Option Nat → Nat,
        exec (.clz h m d a) s = .next (wordDone h d (some 4) (fun ln => BitVec.ofNat 32 (r ln)) s)
        ∧ ∀ ln, r ln ≤ 32 * k ∧ v ln < 2 ^ (32 * k - r ln) ∧ (r ln < 32 * k → 2 ^ (32 * k - 1 - r ln) ≤ v ln))
      ∧ ∃ r : Option Nat → Nat,
        exec (.ctz h m d a) s = .next (wordDone h d (some 4) (fun ln => BitVec.ofNat 32 (r ln)) s)
        ∧ ∀ ln, r ln ≤ 32 * k ∧ v ln % 2 ^ r ln = 0 ∧ (r ln < 32 * k → (v ln).testBit (r ln) = true))
    ∧ (Usable s (.of d k [(a, k)]) →
      ∃ r : Option Nat → Nat,
        exec (.brev h m d a) s = .next (groupDone h d k (some 4) r s)
        ∧ ∀ ln j, j < 32 * k → (r ln).testBit (32 * k - 1 - j) = (v ln).testBit j)

/-- ISETP compares a with b as integers of its TYPE into a predicate; SEL picks a where predicate C is true and b where not;
MOV copies one, two or four registers; MOVI writes IMM, zero-extended (.u64), sign-extended (.s64) or in the upper word
(.hi); LEA adds b, extended by TYPE and shifted left, to a; IADD64 and IMAD64 add modulo 2^64, clamped under SAT. (R105,
R106, R107, R108) -/
def Obligations.CompareMoveAndAddress : Prop :=
  ∀ (h : Hdr) (m : AMod) (cmp : ICmp) (d a b c : Opd) (i : Word) (s : State), Calm s →
    let k := m.ty.regs
    let sg := Ty.signed m.ty
    let num := fun o ln => if k = 1 then intOf sg (src32 s ln o) else intOf64 sg (src64 s ln o)
    let ext := fun ln => if m.ty = .s32 then (src32 s ln b).signExtend 64 else (src32 s ln b).zeroExtend 64
    let fit := fun (wrapped : Dword) (exact : Int) => (if m.sat then BitVec.ofInt 64 (clampInt 64 sg exact) else wrapped).toNat
    (Usable s (.of d 1 [(a, k), (b, k)]) → m.ty ≠ .b128 →
      exec (.isetp h m cmp d a b) s = .next (predDone h d (some 4) (fun ln =>
        match cmp with
        | .eq => decide (num a ln = num b ln)
        | .ne => decide (num a ln ≠ num b ln)
        | .lt => decide (num a ln < num b ln)
        | .le => decide (num a ln ≤ num b ln)
        | .gt => decide (num a ln > num b ln)
        | .ge => decide (num a ln ≥ num b ln)) s))
    ∧ (Usable s (.of d k [(a, k), (b, k), (c, 1)]) →
      exec (.sel h m d a b c) s = .next (groupDone h d k (some 4) (fun ln =>
        if srcP s ln c then srcN s ln k a else srcN s ln k b) s))
    ∧ (Usable s (.of d k [(a, k)]) →
      exec (.mov h m d a) s = .next (groupDone h d k (some 4) (fun ln => srcN s ln k a) s))
    ∧ (Usable s (.of d k []) →
      exec (.movi h m d i) s = .next (groupDone h d k (some 4) (fun _ =>
        if m.ty = .u64 ∧ m.x = 1#4 then (i ++ 0#32).toNat
        else if m.ty = .s64 then (i.signExtend 64).toNat else i.toNat) s))
    ∧ (Usable s (.of d 2 [(a, 2), (b, 1)]) →
      exec (.lea h m d a b) s = .next (groupDone h d 2 (some 4) (fun ln => (src64 s ln a + ext ln <<< m.x.toNat).toNat) s))
    ∧ (Usable s (.of d 2 [(a, 2), (b, 2)]) →
      exec (.iadd64 h m d a b) s = .next (groupDone h d 2 (some 6) (fun ln =>
        fit (src64 s ln a + src64 s ln b) (intOf64 sg (src64 s ln a) + intOf64 sg (src64 s ln b))) s))
    ∧ (Usable s (.of d 2 [(a, 1), (b, 1), (c, 2)]) →
      exec (.imad64 h m d a b c) s = .next (groupDone h d 2 (some 6) (fun ln =>
        let x : Dword := if sg then (src32 s ln a).signExtend 64 else (src32 s ln a).zeroExtend 64
        let y : Dword := if sg then (src32 s ln b).signExtend 64 else (src32 s ln b).zeroExtend 64
        fit (x * y + src64 s ln c)
          (intOf sg (src32 s ln a) * intOf sg (src32 s ln b) + intOf64 sg (src64 s ln c))) s))

/-- With no outstanding result and accessible operands, each of FADD, FSUB, FMUL, FFMA, FMIN, FMAX, FSETP, FCLASS, FRCP,
FRSQ, FSQRT, FDIV, FEXP2, FLOG2, FSIN, FCOS and FRND answers the next state in which every active lane (or the uniform
destination) gets the code of its operation on the operands after .absa and .neg, with the flags of the active lanes joined,
at the latency of R89. (R92, R93, R94, R109, R110, R111, R112, R113, R114, R115) -/
def Obligations.SinglePrecision : Prop :=
  ∀ (h : Hdr) (m : AMod) (cmp : FCmp) (d a b c : Opd) (s : State), Calm s →
    let x := fun ln => sgl s ln m.nega m.absa a
    let y := fun ln => sgl s ln m.negb false b
    let z := fun ln => sgl s ln m.negc false c
    (Usable s (.of d 1 [(a, 1), (b, 1)]) →
      exec (.fadd h m d a b) s = .next (floatDone h d 1 (some 4) (fun ln => Fmt.f32.add m.rnd m.sat m.ftz (x ln) (y ln)) s)
      ∧ exec (.fsub h m d a b) s = .next (floatDone h d 1 (some 4) (fun ln =>
          Fmt.f32.add m.rnd m.sat m.ftz (x ln) (y ln ^^^ 2 ^ 31)) s)
      ∧ exec (.fmul h m d a b) s = .next (floatDone h d 1 (some 4) (fun ln => Fmt.f32.mul m.rnd m.sat m.ftz (x ln) (y ln)) s)
      ∧ exec (.fmin h m d a b) s = .next (floatDone h d 1 (some 4) (fun ln => Fmt.f32.minmax false m.ftz (x ln) (y ln)) s)
      ∧ exec (.fmax h m d a b) s = .next (floatDone h d 1 (some 4) (fun ln => Fmt.f32.minmax true m.ftz (x ln) (y ln)) s)
      ∧ exec (.fdiv h m d a b) s = .next (floatDone h d 1 none (fun ln => Fmt.f32.div m.rnd m.sat m.ftz (x ln) (y ln)) s)
      ∧ exec (.fsetp h m cmp d a b) s = .next (laneDone h d.uni (some 4) (fun ln =>
          (dstP d ln (Fmt.f32.cmp cmp m.ftz (x ln) (y ln)).1, (Fmt.f32.cmp cmp m.ftz (x ln) (y ln)).2)) s))
    ∧ (Usable s (.of d 1 [(a, 1), (b, 1), (c, 1)]) →
      exec (.ffma h m d a b c) s = .next (floatDone h d 1 (some 4) (fun ln =>
        Fmt.f32.fma m.rnd m.sat m.ftz (x ln) (y ln) (z ln)) s))
    ∧ (Usable s (.of d 1 [(a, 1)]) →
      exec (.fclass h m d a) s = .next (floatDone h d 1 (some 4) (fun ln => (Fmt.f32.classify (x ln), 0)) s)
      ∧ exec (.frcp h m d a) s = .next (floatDone h d 1 none (fun ln => Fmt.f32.rcp m.sat m.ftz (x ln)) s)
      ∧ exec (.frsq h m d a) s = .next (floatDone h d 1 none (fun ln => Fmt.f32.rsq m.sat m.ftz (x ln)) s)
      ∧ exec (.fsqrt h m d a) s = .next (floatDone h d 1 none (fun ln => Fmt.f32.sqrt m.rnd m.sat m.ftz (x ln)) s)
      ∧ exec (.fexp2 h m d a) s = .next (floatDone h d 1 none (fun ln => Fmt.f32.exp2 m.sat m.ftz (x ln)) s)
      ∧ exec (.flog2 h m d a) s = .next (floatDone h d 1 none (fun ln => Fmt.f32.log2 m.sat m.ftz (x ln)) s)
      ∧ exec (.fsin h m d a) s = .next (floatDone h d 1 none (fun ln => Fmt.f32.sinT m.sat m.ftz (x ln)) s)
      ∧ exec (.fcos h m d a) s = .next (floatDone h d 1 none (fun ln => Fmt.f32.cosT m.sat m.ftz (x ln)) s)
      ∧ exec (.frnd h m d a) s = .next (floatDone h d 1 (some 4) (fun ln => Fmt.f32.frnd m.rnd m.ftz (x ln)) s))

/-- DADD, DMUL, DFMA and DSETP work on pairs in FP64; HFMA2, HADD2 and HMUL2 work on both 16-bit elements of a register, each
in the FP16 or BF16 of TYPE, with the flags of both joined. (R94, R116, R117) -/
def Obligations.DoubleAndPackedPrecision : Prop :=
  ∀ (h : Hdr) (m : AMod) (cmp : FCmp) (d a b c : Opd) (s : State), Calm s →
    let x := fun ln => dbl s ln m.nega m.absa a
    let y := fun ln => dbl s ln m.negb false b
    let z := fun ln => dbl s ln m.negc false c
    let f := if m.ty = .bf16 then Fmt.bf16 else Fmt.f16
    let u := fun ln k => hlf f s ln m.nega m.absa a k
    let v := fun ln k => hlf f s ln m.negb false b k
    let w := fun ln k => hlf f s ln m.negc false c k
    (Usable s (.of d 2 [(a, 2), (b, 2)]) →
      exec (.dadd h m d a b) s = .next (floatDone h d 2 (some 10) (fun ln => Fmt.f64.add m.rnd m.sat m.ftz (x ln) (y ln)) s)
      ∧ exec (.dmul h m d a b) s = .next (floatDone h d 2 (some 10) (fun ln =>
          Fmt.f64.mul m.rnd m.sat m.ftz (x ln) (y ln)) s))
    ∧ (Usable s (.of d 2 [(a, 2), (b, 2), (c, 2)]) →
      exec (.dfma h m d a b c) s = .next (floatDone h d 2 (some 10) (fun ln =>
        Fmt.f64.fma m.rnd m.sat m.ftz (x ln) (y ln) (z ln)) s))
    ∧ (Usable s (.of d 1 [(a, 2), (b, 2)]) →
      exec (.dsetp h m cmp d a b) s = .next (laneDone h d.uni (some 10) (fun ln =>
        (dstP d ln (Fmt.f64.cmp cmp m.ftz (x ln) (y ln)).1, (Fmt.f64.cmp cmp m.ftz (x ln) (y ln)).2)) s))
    ∧ (Usable s (.of d 1 [(a, 1), (b, 1)]) →
      exec (.hadd2 h m d a b) s = .next (floatDone h d 1 (some 4) (fun ln =>
        both (f.add m.rnd m.sat m.ftz (u ln 0) (v ln 0)) (f.add m.rnd m.sat m.ftz (u ln 1) (v ln 1))) s)
      ∧ exec (.hmul2 h m d a b) s = .next (floatDone h d 1 (some 4) (fun ln =>
        both (f.mul m.rnd m.sat m.ftz (u ln 0) (v ln 0)) (f.mul m.rnd m.sat m.ftz (u ln 1) (v ln 1))) s))
    ∧ (Usable s (.of d 1 [(a, 1), (b, 1), (c, 1)]) →
      exec (.hfma2 h m d a b c) s = .next (floatDone h d 1 (some 4) (fun ln =>
        both (f.fma m.rnd m.sat m.ftz (u ln 0) (v ln 0) (w ln 0)) (f.fma m.rnd m.sat m.ftz (u ln 1) (v ln 1) (w ln 1))) s))

/-- In every format, a finite exact value that the rounding does not turn into an overflow becomes a code of its sign whose
value is at least as near as that of every other finite code under .rne, is the largest value not beyond it under .rz (and
toward zero under .ru and .rd), and the smallest value not below it in magnitude otherwise; an exact value is kept without a
flag. (R55, R57, R58) -/
def Obligations.RoundingGivesTheNeighbour : Prop :=
  ∀ (f : Fmt), f ∈ [Fmt.f64, .f32, .f16, .bf16, .e4m3, .e5m2, .e3m2, .e2m3, .e2m1] →
    ∀ (rm : Rnd) (neg : Bool) (m : Nat) (e : Int),
      let r := f.roundFin rm false false neg m e false
      r.2 &&& Fl.overflow = 0 →
        ∃ (k : Nat) (q : Int), f.val r.1 = .fin neg k q
          ∧ (mag k q = mag m e → r.2 = 0)
          ∧ ∀ (c k' : Nat) (q' : Int), c < 2 ^ (f.e + f.t) → f.val c = .fin false k' q' →
            (rm = .rne → |mag k q - mag m e| ≤ |mag k' q' - mag m e|)
            ∧ ((rm = .rz ∨ (rm = .ru ∧ neg = true) ∨ (rm = .rd ∧ neg = false)) →
                mag k q ≤ mag m e ∧ (mag k' q' ≤ mag m e → mag k' q' ≤ mag k q))
            ∧ (((rm = .ru ∧ neg = false) ∨ (rm = .rd ∧ neg = true)) →
                mag m e ≤ mag k q ∧ (mag m e ≤ mag k' q' → mag k q ≤ mag k' q'))

/-- CVT gives the code of the source value in the destination format with its flags; CVTSR rounds stochastically with the low
24 bits of b; CVTPK writes the packed block-scaled row to the first lanes of D whatever their activity and the scale codes to
S register B; CVTUP gives in each active lane its element times the scale of its block, or the canonical NaN for the scale
0xFF. (R118, R119, R120, R121, R122) -/
def Obligations.Conversions : Prop :=
  ∀ (h : Hdr) (m : CvtMod) (d a b : Opd) (s : State), Calm s →
    (Usable s (.of d (fmtRegs m.df) [(a, fmtRegs m.sf)]) →
      exec (.cvt h m d a) s = .next (floatDone h d (fmtRegs m.df) (some 4) (fun ln =>
        cvtCode m (cvtVal s ln m.sf m.ftz a)) s))
    ∧ (Usable s (.of d 1 [(a, fmtRegs m.sf), (b, 1)]) →
      exec (.cvtsr h m d a b) s = .next (floatDone h d 1 (some 4) (fun ln =>
        cvtsr (efmt m.df) m.sat m.ftz (cvtVal s ln m.sf m.ftz a) (src32 s ln b).toNat) s))
    ∧ (Usable s { srcs := [(a, 1)], dsts := [(d, 1), (b, 1)] } →
      let act := activeMask h false s.cur
      let bl := if m.b16 then [packPart s m act a 0 16, packPart s m act a 16 16] else [packPart s m act a 0 32]
      let bits := packBits (efmt m.df).w (bl.flatMap (·.2.1))
      exec (.cvtpk h m d a b) s = .next (finished h (gives
        ((List.range (efmt m.df).w).flatMap (fun j => dst32 d (some j) (BitVec.ofNat 32 (bits / 2 ^ (32 * j))))
          ++ dst32 b none (BitVec.ofNat 32 (packBits 8 (bl.map (·.1)))))
        (joinFlags (bl.map (·.2.2))) (some 8) s)))
    ∧ (Usable s { srcs := [(a, 1), (b, 1)], dsts := [(d, 1)] } →
      exec (.cvtup h m d a b) s = .next (laneDone h false (some 8) (fun ln =>
        let f := efmt m.sf
        let c := packedElem s f.w a (ln.getD 0)
        let v := f.val (if m.ftz then f.ftz c else c)
        let sc := ((src32 s none b).extractLsb' (if m.b16 then 8 * (ln.getD 0 / 16) else 0) 8).toNat
        let r := if sc = 0xFF then (Fmt.f32.nanCode, 0)
          else Fmt.f32.fin1 .rne false m.ftz (Val.mul v (e8m0Val sc)) false (sigFlag [v])
        (dstN d ln 1 r.1, r.2)) s))

/-- SHFL gives each active lane the value of the lane its selector names within its segment, or the fill value when that lane
is not active; BALLOT sets the bits of the lanes that take part and whose source is true; VOTE writes all, any or uni over
them, true, false and true when there is none; MATCH gives the mask of the active lanes of equal value, or all of them or 0
under .all; REDUX folds in ascending lane order from the first value, the identity for none, and PREFIX gives each active
lane the fold of those up to it, or before it under .excl; XCHGB is one stage of the masked exchange, reading partners
whatever their activity; LANEMASK writes the masks of R130. (R124, R125, R126, R127, R128, R129, R130) -/
def Obligations.LaneInstructions : Prop :=
  ∀ (h : Hdr) (so : ShflOp) (vo : VoteOp) (fo : FoldOp) (lo : LmOp) (al ex : Bool) (seg xs : BitVec 3) (ty : Ty) (d a b c : Opd)
    (s : State), Calm s →
    let act := activeMask h false s.cur
    let isTrue := fun i => match a with
      | .p _ => srcP s (some i) a
      | o => src32 s (some i) o != 0#32
    let val := fun i => srcN s (some i) ty.regs a
    let word := fun i => src32 s (some i) a
    (Usable s { srcs := [(a, ty.regs), (b, 1), (c, ty.regs)], dsts := [(d, ty.regs)] } → seg.toNat ≤ 4 →
      exec (.shfl h so seg ty d a b c) s = .next (laneDone h false (some 6) (fun ln =>
        let i := ln.getD 0
        let n := 32 >>> seg.toNat
        let p := i % n
        let sel := src32 s ln b
        let k := match so with
          | .idx => sel.toNat % n
          | .rot => (((p : Int) - sel.toInt) % (n : Int)).toNat
          | .rev => (n - 1 - p) ^^^ (sel.toNat % n)
          | .xor => p ^^^ (sel.toNat % n)
        (dstN d ln ty.regs (if act.has (i - p + k) then val (i - p + k) else srcN s ln ty.regs c), 0)) s))
    ∧ (Usable s { uni := true, srcs := [(a, 1)], dsts := [(d, 1)] } →
      (∃ r : Mask → Word,
        exec (.ballot h d a) s = .next (cohDone h (some 4) (fun m => (dst32 d none (r m), 0)) s)
        ∧ ∀ m i, i < 32 → (r m).getLsbD i = (m.has i && isTrue i))
      ∧ exec (.redux h fo ty d a) s = .next (cohDone h (if ty = .f32 then some 18 else some 10) (fun m =>
          (dst32 d none (foldLanes fo ty (m.lanes.map word)).1, (foldLanes fo ty (m.lanes.map word)).2)) s))
    ∧ (Usable s { uni := true, srcs := [(a, ty.regs)], dsts := [(d, 1)] } →
      exec (.vote h vo ty d a) s = .next (cohDone h (some 4) (fun m => (dstP d none (match vo with
        | .all => m.lanes.all isTrue
        | .any => m.lanes.any isTrue
        | .uni => match a with
          | .p _ => m.lanes.all fun i => m.lanes.all fun j => isTrue i == isTrue j
          | _ => m.lanes.all fun i => m.lanes.all fun j => val i == val j), 0)) s))
    ∧ (Usable s { srcs := [(a, ty.regs)], dsts := [(d, 1)] } →
      ∃ r : Option Nat → Word,
        exec (.matchL h al ty d a) s = .next (laneDone h false (some 6) (fun ln => (dst32 d ln (r ln), 0)) s)
        ∧ ∀ i j, i < 32 → j < 32 → (r (some i)).getLsbD j =
            if al then act.has j && act.lanes.all fun l => val l == val i
            else act.has j && val j == val i)
    ∧ (Usable s { srcs := [(a, 1)], dsts := [(d, 1)] } →
      exec (.prefixL h fo ex ty d a) s = .next (finished h (gives
        ((List.range act.lanes.length).flatMap fun k => dst32 d (some (act.lanes.getD k 0))
          (foldLanes fo ty ((act.lanes.map word).take (if ex then k else k + 1))).1)
        (foldLanes fo ty (act.lanes.map word)).2 (if ty = .f32 then some 18 else some 10) s)))
    ∧ (Usable s { srcs := [(a, 1), (b, 1)], dsts := [(d, 1)] } → xs.toNat ≤ 4 →
      exec (.xchgb h xs d a b) s = .next (laneDone h false (some 6) (fun ln =>
        let i := ln.getD 0
        let w := 2 ^ xs.toNat
        let mk := src32 s none b
        (dst32 d ln (if i.testBit xs.toNat then word i ^^^ (((word (i - w) ^^^ (word i >>> w)) &&& mk) <<< w)
          else word i ^^^ ((word i ^^^ (word (i + w) >>> w)) &&& mk)), 0)) s))
    ∧ (Usable s { dsts := [(d, 1)] } →
      ∃ r : Option Nat → Word,
        exec (.lanemask h lo d) s = .next (laneDone h false (some 6) (fun ln => (dst32 d ln (r ln), 0)) s)
        ∧ ∀ i j, i < 32 → j < 32 → (r (some i)).getLsbD j = match lo with
          | .eq => decide (j = i)
          | .lt => decide (j < i)
          | .le => decide (j ≤ i)
          | .gt => decide (j > i)
          | .ge => decide (j ≥ i))

/-- With no open mailbox window, no register result of a parked request owed and, under .strict, every live lane active, REORDER answers the next state in which the
registers are those of a permutation of the active lanes that is ascending in the unsigned key and stable, D holding at each
active position the original lane of the state there, read once the result is written; with .strict and a live lane outside
the active ones it raises partial-reorder and nothing moves. (R131) -/
def Obligations.ReorderSortsActiveLanes : Prop :=
  ∀ (h : Hdr) (strict : Bool) (d a : Opd) (s : State), Calm s → Usable s { srcs := [(a, 1)], dsts := [(d, 1)] } →
    s.cur.x.win = none →
    let act := activeMask h false s.cur
    let live := s.cur.slotLanes ||| s.cur.stackLanes
    let key := fun i => (src32 s (some i) a).toNat
    ((strict = true ∧ live &&& ~~~act ≠ 0#32) →
      exec (.reorder h strict d a) s = .next ((takeTrap { cause := Cause.partialReorder } act s).tick 1))
    ∧ (¬ (strict = true ∧ live &&& ~~~act ≠ 0#32) → owed s s.cur.pl.id = false →
      ∃ (order : List Nat) (regs : Regs),
        order.Perm act.lanes
        ∧ order.Pairwise (fun i j => key i < key j ∨ (key i = key j ∧ i < j))
        ∧ exec (.reorder h strict d a) s = .next (finished h (gives
            ((act.lanes.zip order).flatMap fun e => dst32 d (some e.1) (BitVec.ofNat 32 e.2)) 0 none
            (s.updR fun _ => regs)))
        ∧ (∀ p q, (p, q) ∈ act.lanes.zip order →
            (∀ n, n < s.cur.r.vregs → regs.rdV n p = s.cur.r.rdV n q)
            ∧ (∀ n, n < 7 → (regs.rdP n).has p = (s.cur.r.rdP n).has q))
        ∧ (∀ p, p < 32 → act.has p = false →
            (∀ n, regs.rdV n p = s.cur.r.rdV n p) ∧ (∀ n, n < 7 → (regs.rdP n).has p = (s.cur.r.rdP n).has p))
        ∧ (∀ n, regs.rdS n = s.cur.r.rdS n) ∧ (∀ n, regs.rdQ n = s.cur.r.rdQ n) ∧ regs.fpstat = s.cur.r.fpstat)

/-- When every lane that the load runs for lies at a place, in no unfilled block, and nothing stalls it, and no access faults
where it performs, LD, LDS, LDQ and LDSC answer the next state: the lanes perform in order, what each reads, extended from
its width by TYPE, is outstanding for its registers, and an acquire takes effect after; a uniform load whose guard is false
only moves on. (R36, R217, R237, R238, R239, R240, R242, R243) -/
def Obligations.LoadsOfEverySpace : Prop :=
  ∀ (h : Hdr) (m : MMod) (d a : Opd) (off : Word) (s : State), Calm s →
    ∀ (sp : ASpace) (uni : Bool) (i : Instr),
      (sp, uni, i) ∈ [(ASpace.glob, false, Instr.ld h m d a off), (.own, false, .lds h m d a off), (.quad, false, .ldq h m d a off),
        (.glob, true, .ldsc h m d a off)] →
      let k := m.ty.regs
      let w := Ty.bytes m.ty
      let addr := fun (s : State) (ln : Option Nat) =>
        if sp = .glob then (src64 s ln a + off.signExtend 64).toNat else (src32 s ln a + off).toNat
      let act := activeMask h uni s.cur
      let ls := reached h sp .load false w uni addr s
      let one := fun (l : LaneAcc) (s' : State) => loadAt l.loc l.addr w m.scope m.cache act (match l.lane with
        | some j => .load s'.cur.pl.id (Opd.ix d) j l.pa m.ty m.scope m.cache s'.cur.pc
        | none => .sload s'.cur.pl.id (Opd.ix d) l.pa m.ty m.scope m.cache s'.cur.pc) s'
      let r := oneByOne one ls (noteLanes .load ls s)
      Usable s { uni := uni, srcs := [(a, if sp = .glob then 2 else 1)], dsts := [(d, k)], opnd := 1 } →
      (uni = true → act = 0#32 → exec i s = .next (finished h s))
      ∧ ((uni = true → act ≠ 0#32) → Reaches sp .load w ls s → NoFault r.1 →
          exec i s = .next (finished h (accessed (fun ln bs => dstN d ln k (match m.ty with
              | .s8 => (BitVec.ofInt 32 ((BitVec.ofNat 8 (leNat bs)).toInt)).toNat
              | .s16 => (BitVec.ofInt 32 ((BitVec.ofNat 16 (leNat bs)).toInt)).toNat
              | _ => leNat bs))
            (if m.order = .acq ∨ m.order = .ar then some m.scope else none) r)))

/-- When every lane lies at a place, in no unfilled block, nothing stalls it and no access faults where it performs, and for
a release nothing of the cohort is on its way, ST, STS and STQ answer the next state in which, after the release, each lane
in order has stored the little-endian bytes of its source as it stood before any lane performed. (R36, R217, R237, R238,
R239, R242, R243) -/
def Obligations.StoresOfEverySpace : Prop :=
  ∀ (h : Hdr) (m : MMod) (a b : Opd) (off : Word) (s0 : State), Calm s0 →
    ∀ (sp : ASpace) (i : Instr),
      (sp, i) ∈ [(ASpace.glob, Instr.st h m a b off), (.own, .sts h m a b off), (.quad, .stq h m a b off)] →
      let w := Ty.bytes m.ty
      let addr := fun (s : State) (ln : Option Nat) =>
        if sp = .glob then (src64 s ln a + off.signExtend 64).toNat else (src32 s ln a + off).toNat
      let rel := m.order = .rel ∨ m.order = .ar
      let s := if rel then released m.scope s0 else s0
      let act := activeMask h false s0.cur
      let ls := reached h sp .store (sp == .glob) w false addr s
      let one := fun (l : LaneAcc) (s' : State) =>
        let bs := leBytes w (srcN s l.lane m.ty.regs b)
        storeAt l.loc l.addr bs m.scope m.cache act
          (.store s.cur.pl.id l.lane (((List.range bs.length).map (l.pa + ·)).zip bs) s.cur.pc) s'
      let r := oneByOne one ls (noteLanes .store ls s)
      Usable s0 { srcs := [(a, if sp = .glob then 2 else 1), (b, m.ty.regs)], lates := if rel then latesRel else [], opnd := 1 } →
      (rel → Quiet m.scope s0) → Reaches sp .store w ls s → NoFault r.1 →
        exec i s0 = .next (finished h (accessed (fun _ _ => []) none r))

/-- After a store of at most 16 bytes that lie in one line of local DRAM, in the host's memory or in a scratchpad none of whose words
is left marked poisoned has performed, a load of the same bytes by the same cohort that goes the same way, through the L1 or to the home, answers exactly those bytes.
(R213, R214, R215, R216) -/
def Obligations.StoredBytesAreRead : Prop :=
  ∀ (loc : Loc) (va : Nat) (bs : List Byte) (sc sc' : Scope) (ca ca' : Cache) (mask mask' : Mask) (req req' : Req) (s s' : State),
    (match loc with
      | .dram pa _ => pa % 64 + bs.length ≤ 64
      | .host _ => True
      | .chip pa => (∀ k, k < bs.length → isSp (pa + k) = true) ∧ spPoisoned s' pa bs.length = false
      | _ => False) → bs.length ≤ 16 →
    l1Served sc' ca' = l1Served sc ca →
    storeAt loc va bs sc ca mask req s = (.val [], s') →
      ∃ s'', loadAt loc va bs.length sc' ca' mask' req' s' = (.val bs, s'')

/-- PREFETCH answers the next state in which each aligned address of a lane that is translated, in plain memory, not poisoned
and in a filled block has its line in the L1 unless .l2 is given; CACHEOP.WB, .INV and .WBINV, where no address has a BUSY leaf and no
write-back of a named line is parked, answer the next state in which each named line of the core has been written back, dropped
when clean, or written back and dropped; ZR names every line of the core. (R246, R247, R248) -/
def Obligations.CacheInstructions : Prop :=
  ∀ (h : Hdr) (a : Opd) (off : Word) (l2 : Bool) (s : State), Calm s →
    let uni := a.cls != .v
    let act := activeMask h uni s.cur
    let core := s.cur.pl.core
    let addrs := (runsFor uni act).map fun ln => (ln, (src64 s ln a + off.signExtend 64).toNat)
    let lines := if a = .zr then (s.l1.filter fun x => x.core == core).map (·.line)
      else addrs.filterMap fun (ln, va) => match xlateLane s s.cur ln .query va with
        | .ok t => match t.loc s s.cur.pl.part with
          | .dram pa _ => some (pa / 64)
          | _ => none
        | _ => none
    let sent := fun (t : State) => ∀ q ∈ t.parked, ∀ c b, q.req = .wback c b → c = core → a ≠ .zr ∧ q.pa / 64 ∉ lines
    let wb := lines.foldl (fun s l => writeBack core l s) s
    let inv := lines.foldl (fun s l =>
      match s.l1? core l with
      | some x => if x.dirty = 0#64 then s.delL1 core l else s
      | none => s) s
    let wbinv := lines.foldl (fun s l => (writeBack core l s).delL1 core l) s
    let still := a = .zr ∨ ∀ e ∈ addrs, xlateLane s s.cur e.1 .query e.2 ≠ .busy
    let off_ := uni && act == 0#32
    Usable s { uni := uni, srcs := [(a, 2)] } →
      exec (.prefetch h l2 a off) s = .next (finished h (if off_ then s else addrs.foldl (fun s (ln, va) =>
          if va % 4 = 0 then match quietPa s ln va with
            | some (pa, die) => if l2 then s else fillL1 s.cur.pl.core s.cur.pl.part (pa / 64) die 0 s
            | none => s
          else s) s))
      ∧ (still → sent wb → exec (.cacheopWb h a off) s = .next (finished h (if off_ then s else wb)))
      ∧ (still → sent inv → exec (.cacheopInv h a off) s = .next (finished h (if off_ then s else inv)))
      ∧ (still → sent wbinv → exec (.cacheopWbinv h a off) s = .next (finished h (if off_ then s else wbinv)))

/-- When every lane lies at a place, in no unfilled block, nothing stalls it and no access faults where it performs, and for
a release nothing of the cohort is on its way, ATOM, RED, ATOMS and ATOMQ answer the next state in which, after the release
(or the end of an idempotent region), the lanes that name one location have performed as one group, or, for a floating-point
operation of a deterministic launch at .die or wider in the global space, each lane's update is held; what each lane read is
outstanding for its registers, and an acquire takes effect after. (R249, R250, R251, R252, R253, R217, R243, R315) -/
def Obligations.AtomicsOfEverySpace : Prop :=
  ∀ (h : Hdr) (m : MMod) (op : AtomOp) (d a b c : Opd) (s0 : State), Calm s0 →
    ∀ (sp : ASpace) (red : Bool) (d' c' : Opd) (i : Instr),
      (sp, red, d', c', i) ∈ [(ASpace.glob, false, d, c, Instr.atom h m op d a b c), (.glob, true, .none, .none, .red h m op a b),
        (.own, false, d, c, .atoms h m op d a b c), (.quad, false, d, c, .atomq h m op d a b c)] →
      let ty := op.ty m.ty
      let k := ty.regs
      let w := Ty.bytes ty
      let addr := fun (s : State) (ln : Option Nat) => if sp = .glob then (src64 s ln a).toNat else (src32 s ln a).toNat
      let rel := m.order = .rel ∨ m.order = .ar
      let s := if rel then released m.scope s0 else s0
      let act := activeMask h false s0.cur
      let ls := reached h sp .atomic red w false addr s
      let val := fun (l : LaneAcc) =>
        if AtomOp.fp op then ((if ty = .f64 then srcF64 s l.lane b else srcF32 s l.lane b), 0)
        else (srcN s l.lane k b, srcN s l.lane k c')
      let reg := match d' with
        | .v n => some n.toNat
        | _ => none
      let held := s0.cur.pl.det = true ∧ AtomOp.fp op = true ∧ sp = .glob ∧ heldScope m.scope = true
      let s1 := noteLanes .atomic ls s
      let r := if held then oneByOne (fun l s => heldLane op ty red reg act (val l).1 l s) ls s1
        else runGroups m.scope s0.cur.pl.det op ty reg act val (groupsOf ls) s1
      Usable s0 { srcs := [(a, if sp = .glob then 2 else 1), (b, k), (c', k)], dsts := [(d', k)]
                  lates := if rel then latesRel else [], opnd := 1 } →
      (rel → Quiet m.scope s0) → Reaches sp .atomic w ls s → NoFault r.1 →
        exec i s0 = .next (finished h (accessed (fun ln bs => dstN d' ln k (leNat bs))
          (if m.order = .acq ∨ m.order = .ar then some m.scope else none) r))

/-- For every operation but .fadd, and for .fadd in a deterministic launch, the memory after a group's step is the fold of
the operation over the lanes in order and lane k receives the fold of the lanes before it; for .fadd in another launch memory
becomes old plus the left fold of the group's values, rounded at each step, lane k receives old plus the fold of the values
before it, and the first lane receives old. (R252) -/
def Obligations.GroupsActAsLanesInOrder : Prop :=
  ∀ (det : Bool) (op : AtomOp) (ty : Ty) (old : Nat) (g : List (Nat × Nat)),
    let one := fun (x : Nat) (e : Nat × Nat) => atomNew op ty x e.1 e.2
    let r := groupRun det op ty old g
    (¬ (op = .fadd ∧ det = false) →
      r.1 = g.foldl one old ∧ r.2.length = g.length ∧ ∀ k, k < g.length → r.2[k]? = some ((g.take k).foldl one old))
    ∧ (op = .fadd → det = false → ∀ e l, g = e :: l →
      r.1 = atomNew .fadd ty old (l.foldl (fun x y => atomNew .fadd ty x y.1 0) e.1) 0
      ∧ r.2.length = g.length ∧ r.2[0]? = some old
      ∧ ∀ k, k < l.length →
          r.2[k + 1]? = some (atomNew .fadd ty old ((l.take k).foldl (fun x y => atomNew .fadd ty x y.1 0) e.1) 0))

/-- At 32 and 64 bits, .add and .fxadd, .sub, .and, .or, .xor, .xchg and .cas give the wrapped sum and difference, the
bitwise results, the new value, and the new value exactly when the old one equals c; .min and .max compare as TYPE reads the
values. (R249, R251) -/
def Obligations.IntegerAtomicOperations : Prop :=
  (∀ (ty : Ty) (x y z : Word), ty = .u32 ∨ ty = .s32 →
    atomNew .add ty x.toNat y.toNat z.toNat = (x + y).toNat
    ∧ atomNew .sub ty x.toNat y.toNat z.toNat = (x - y).toNat
    ∧ atomNew .and ty x.toNat y.toNat z.toNat = (x &&& y).toNat
    ∧ atomNew .or ty x.toNat y.toNat z.toNat = (x ||| y).toNat
    ∧ atomNew .xor ty x.toNat y.toNat z.toNat = (x ^^^ y).toNat
    ∧ atomNew .xchg ty x.toNat y.toNat z.toNat = y.toNat
    ∧ atomNew .cas ty x.toNat y.toNat z.toNat = (if x = z then y else x).toNat
    ∧ atomNew .min ty x.toNat y.toNat z.toNat = (if (if ty = .s32 then x.sle y else x.ule y) then x else y).toNat
    ∧ atomNew .max ty x.toNat y.toNat z.toNat = (if (if ty = .s32 then x.sle y else x.ule y) then y else x).toNat)
  ∧ ∀ (ty : Ty) (x y z : Dword), ty = .u64 ∨ ty = .s64 →
    atomNew .add ty x.toNat y.toNat z.toNat = (x + y).toNat
    ∧ atomNew .fxadd ty x.toNat y.toNat z.toNat = (x + y).toNat
    ∧ atomNew .sub ty x.toNat y.toNat z.toNat = (x - y).toNat
    ∧ atomNew .cas ty x.toNat y.toNat z.toNat = (if x = z then y else x).toNat
    ∧ atomNew .min ty x.toNat y.toNat z.toNat = (if (if ty = .s64 then x.sle y else x.ule y) then x else y).toNat
    ∧ atomNew .max ty x.toNat y.toNat z.toNat = (if (if ty = .s64 then x.sle y else x.ule y) then y else x).toNat
    ∧ (fxOver x.toNat y.toNat = true ↔ (x.toInt + y.toInt < -(2 ^ 63) ∨ 2 ^ 63 ≤ x.toInt + y.toInt))

/-- A fence of a drained cohort answers the next state with its release and acquire done; FENCE.SC of a drained core, when a
scope of the fabric has time locked, first writes the L1 back and waits for the next multiple of 64 ns, or the next tick of
2048 ns plus 128 at a scope of the fabric, and completes with the acquire once device time has come there; DRCLOSE in a
deterministic launch, whose spill region has no BUSY page and no poisoned sector to wait for, applies in order the held updates of
rounds up to n unless one of those rounds failed, marks the rounds closed, writes whether they all held, and at a scope of the
fabric sends every module that a fabric window names the message that closes them there. (R217, R226, R227, R228, R253, R254, R256, R257) -/
def Obligations.FencesAndRounds : Prop :=
  ∀ (h : Hdr) (o : Order) (sc : Scope) (s : State), Calm s →
    let on := activeMask h true s.cur ≠ 0#32
    let until_ := if sc = .fab ∨ sc = .sys then (s.m.time / 2048 + 1) * 2048 + 128 else (s.m.time / 64 + 1) * 64
    (Usable s { uni := true, lates := latesRel } →
      (¬ on → exec (.fence h o sc) s = .next (finished h s) ∧ exec (.fenceSc h sc) s = .next (finished h s))
      ∧ (on → ((o = .rel ∨ o = .ar) → Quiet sc s) →
        exec (.fence h o sc) s = .next (finished h
          (let s1 := if o = .rel ∨ o = .ar then released sc s else s
           if o = .acq ∨ o = .ar then acquire sc s1 else s1)))
      ∧ (on → s.cur.c.stage = .start → (fabScope sc = true → s.m.locked = true) → coreDrained s = true → BackOk s →
        exec (.fenceSc h sc) s = .next (park .tick
          ((coreAcked sc (writeBackAll s.cur.pl.core s)).updC fun c => { c with stage := .drained until_, idem := none })))
      ∧ (on → s.cur.c.stage = .start → fabScope sc = true → s.m.locked = false →
        exec (.fenceSc h sc) s = .next ((takeTrap { cause := Cause.timeUnlocked } s.cur.smask s).tick 1))
      ∧ (on → ∀ t, s.cur.c.stage = .drained t → t ≤ s.m.time →
        exec (.fenceSc h sc) s = .next (finished h (acquire sc s))))
    ∧ ∀ (d a : Opd) (l : Launch), Usable s { uni := true, srcs := [(a, 1)], dsts := [(d, 1)], lates := latesRel } → on →
        Quiet sc s → s.cur.pl.det = true → s.cur.pl.launch = some l.id →
        (released sc s).launch? l.id = some l →
        let n := (src32 s none a).toNat
        let s1 := released sc s
        let mine := fun (x : Held) => x.launch == l.id && !x.transit
        let failed := l.failedRounds.any fun r => decide (r ≤ n)
        let open_ := (s1.held.any fun x => mine x && decide (x.round ≤ n)) || failed
        (open_ = true → resetNext l.id (closeRounds l.id n s1).2 ≠ .error .busy) →
        ∃ t, exec (.drclose h sc d a) s = .next (finished h (acquire sc (addPend (dstP d none (!failed)) 0 (some 0) t)))
          ∧ t.held = s1.held.filter (fun x => !(mine x && decide (x.round ≤ n)))
          ∧ t.launch? l.id = some { l with closed := max l.closed (n + 1), failedRounds := l.failedRounds.filter fun r => decide (n < r) }
          ∧ t.outs = s1.outs ++ (if fabScope sc then (fabModules s1 s.cur.pl.part).map fun m => .zwiov m 0 (.close l.id n) else [])
          ∧ ((t.held.any mine = true ∨ l.rc.spill = 0 ∨ open_ = false) →
              t.mem = (if failed then s1 else applyRounds (s1.held.filter fun x => mine x && decide (x.round ≤ n)) s1).mem)

/-- PLSET of a field replaces the field's bits by the low bits of A, keeps every other bit and recomputes the CRC; .whole
takes four registers with a new CRC and .raw with theirs. PLGET writes the field zero-extended, ANCHOR sign-extended. PLCHK
writes the first failing detail, and with .trap raises it instead. PLINFER, whose inputs pass their checks and pair, writes
the inferred placard. Each result has a latency of 4; a false guard only moves on. (R70, R76, R83, R85, R86, R155, R156,
R157, R158, R159) -/
def Obligations.PlacardInstructions : Prop :=
  ∀ (h : Hdr) (f : BitVec 4) (d a b : Opd) (s : State), Calm s →
    let lo := (plField f.toNat).1
    let w := (plField f.toNat).2
    let crcOk := fun (x : Qword) => (x.extractLsb' 112 16).toNat = crc16 (leBytes 14 x.toNat)
    (1 ≤ f.toNat → f.toNat ≤ 12 → Usable s { uni := true, srcs := [(a, 1)] } →
      ∃ x : Qword, exec (.plset h f d a b) s = .next (cohDone h (some 4) (fun _ => (dstPL d x, 0)) s)
        ∧ (∀ i, i < w → x.getLsbD (lo + i) = (src32 s none a).getLsbD i)
        ∧ (∀ i, i < 112 → i < lo ∨ lo + w ≤ i → x.getLsbD i = (srcPL s b).getLsbD i) ∧ crcOk x)
    ∧ (Usable s { uni := true, srcs := [(a, 4)] } →
      exec (.plset h 13 d a b) s = .next (cohDone h (some 4) (fun _ => (dstPL d (src128 s none a), 0)) s)
      ∧ ∃ x : Qword, exec (.plset h 0 d a b) s = .next (cohDone h (some 4) (fun _ => (dstPL d x, 0)) s)
        ∧ x.extractLsb' 0 112 = (src128 s none a).extractLsb' 0 112 ∧ crcOk x)
    ∧ (f.toNat ≤ 12 → Usable s { uni := true, dsts := [(d, if f = 0 then 4 else 1)] } →
      exec (.plget h f d a) s = .next (cohDone h (some 4) (fun _ =>
        (dstN d none (if f = 0 then 4 else 1)
          (if f = 8 then (((srcPL s a).extractLsb' 64 9).signExtend 32).toNat else ((srcPL s a).extractLsb' lo w).toNat), 0)) s))
    ∧ (∀ trap reg, Usable s { uni := true, dsts := [(d, 1)] } →
      let r := plCheck (srcPL s a) true reg
      (trap = false ∨ r = 0 → exec (.plchk h trap reg d a) s =
        .next (cohDone h (some 4) (fun _ => (dst32 d none (BitVec.ofNat 32 r), 0)) s))
      ∧ (trap = true → r ≠ 0 → activeMask h true s.cur ≠ 0#32 → exec (.plchk h trap reg d a) s =
        .next ((takeTrap (placT r 1) s.cur.smask s).tick 1)))
    ∧ ∀ sum p, plCheck (srcPL s a) true false = 0 → plCheck (srcPL s b) true false = 0 →
        let pa := Plac.ofQ (srcPL s a)
        let pb := Plac.ofQ (srcPL s b)
        (if sum then pa.isFX && pb.isFX else (pairing ((pa.spar == 1) != (pb.spar == 1)) pa pb).isSome) = true →
        inferPl sum pa pb = .ok p → Usable s { uni := true } →
        exec (.plinfer h sum d a b) s = .next (cohDone h (some 4) (fun _ => (dstPL d p.toQ, 0)) s)

/-- Whenever inference succeeds on inputs that pass their checks, the placard it gives is the FX64 tile with the product's or
the sum's extents, PITCH wide enough for its columns, PINNED exactly when an input is pinned, then at the anchor that the
pinned inputs agree on, otherwise adaptive at 0; and this placard, written to a register and read again, has exactly these
fields and a right CRC. (R62, R76, R83, R86) -/
def Obligations.InferredPlacards : Prop :=
  ∀ (sum : Bool) (x y : Qword) (p : Plac), plCheck x true false = 0 → plCheck y true false = 0 →
    let a := Plac.ofQ x
    let b := Plac.ofQ y
    inferPl sum a b = .ok p →
      (if sum then a.rows = b.rows ∧ a.cols = b.cols else a.kext = b.kext)
      ∧ p.rows = (if sum then a.rows else a.xext) ∧ p.cols = (if sum then a.cols else b.xext)
      ∧ p.isFX = true ∧ p.slay = 0 ∧ p.spar = 0 ∧ p.cols * 64 ≤ 8 * (16 * p.pitch)
      ∧ p.pinned = (a.pinned || b.pinned)
      ∧ (a.pinned = true → p.anchor = a.anchor) ∧ (b.pinned = true → p.anchor = b.anchor)
      ∧ (a.pinned = false → b.pinned = false → p.anchor = 0)
      ∧ { Plac.ofQ p.toQ with crc := 0 } = p ∧ (Plac.ofQ p.toQ).crc = crc16 (leBytes 14 p.toQ.toNat)

/-- Applying the terms of a row adds to each cell, modulo 2^64, the sum of the floors of its finite terms in units of
2^(ANCHOR - 43), leaves cells of columns without terms and every other row as they were, sets NAN, PINF and NINF when a term
is one and never clears a flag, adds the same sums to CHECK, so that a row whose CHECK is the sum of its cells stays one; and
the result is the same in whatever order the terms of each column are taken. (R62, R138, R141, R145, R149) -/
def Obligations.PassesAccumulateExactly : Prop :=
  ∀ (t : Tile) (m : Nat) (ts : List (List (Val × Val))), ts.length ≤ 64 →
    let u := applyRow t m ts
    let unit : ℚ := (2 : ℚ) ^ ((t.row m).anchor.toInt - 43)
    let sum := fun (l : List (Val × Val)) => (l.map fun e => match e.1 with
      | .fin n k x => ⌊(if n then -(mag k x) else mag k x) / unit⌋
      | _ => 0).sum
    (∀ n, n < 64 → u.cells.get (64 * m + n) 0#64 = t.cells.get (64 * m + n) 0#64 + BitVec.ofInt 64 (sum (nth ts n [])))
    ∧ (∀ k n, k ≠ m → n < 64 → u.cells.get (64 * k + n) 0#64 = t.cells.get (64 * k + n) 0#64)
    ∧ (∀ k, k ≠ m → u.row k = t.row k)
    ∧ (u.row m).anchor = (t.row m).anchor ∧ (u.row m).pinned = (t.row m).pinned
    ∧ (u.row m).nan = ((t.row m).nan || ts.any fun l => l.any fun e => e.1.isNan)
    ∧ (u.row m).pinf = ((t.row m).pinf || ts.any fun l => l.any fun e => e.1 == .inf false)
    ∧ (u.row m).ninf = ((t.row m).ninf || ts.any fun l => l.any fun e => e.1 == .inf true)
    ∧ ((t.row m).ovf = true → (u.row m).ovf = true)
    ∧ (u.row m).check = (t.row m).check + BitVec.ofInt 64 (ts.map sum).sum
    ∧ (t.rowOk m = true → u.rowOk m = true) ∧ u.poison = t.poison ∧ u.faults = t.faults
    ∧ ∀ ts', List.Forall₂ List.Perm ts ts' → applyRow t m ts' = u

/-- When A's and B's placards pass their checks, pair, agree in K within the pass, and B lies in the allocation with nothing
in its way, MMA and MMASP post one pass with the captured registers, its cost from the pair's clocks and B's toggles, and its
scoreboard entry, and write no register; without active lanes they only move on. The grant takes the chosen pass with the
codebooks as they stand, charges its cost and ages the other eligible ones. The granted pass puts the tile in the state of its rows' sums and retires; where it
fails it poisons the tile and leaves every cell. MWAIT of a cohort without passes there, and without a fault to deliver,
moves on. (R17, R83, R85, R86, R134, R135, R136, R137, R147, R151, R160, R169) -/
def Obligations.MatrixPasses : Prop :=
  ∀ (h : Hdr) (d a b c : Opd) (s : State), Calm s →
    let act := activeMask h false s.cur
    let off := (src64 s none b).toNat
    let core := s.cur.pl.core
    let base := s.cur.pl.spBase + off
    let plb : Qword := BitVec.ofNat 128 (leNat (spRd s core base 0 16))
    let pa := Plac.ofQ (srcPL s c)
    let pb := Plac.ofQ plb
    (∀ sparse i, (sparse, i) ∈ [(false, Instr.mma h d a b c), (true, .mmasp h d a b c)] →
      Usable s { srcs := [(a, 16), (b, 2)], dsts := [(d, 1)] } →
      (act = 0#32 → exec i s = .next (finished h s))
      ∧ ∀ kp clocks, act ≠ 0#32 → off % 16 = 0 → fits s off 16 → fits s off pb.endOff →
        plCheck (srcPL s c) true true (some (Opd.ix a)) = 0 → spansBad s pa = false →
        (∀ e ∈ s.sb, e.dst = true → e.core = core → e.hi ≤ base ∨ base + 16 ≤ e.lo) → spPoisoned s (spPa core base) 16 = false →
        plCheck plb true false = 0 → pairing sparse pa pb = some (kp, clocks) → pa.kext = pb.kext → pa.kext ≤ kp → pb.xext ≤ 64 →
        (∃ x, inferAnchor pa pb = .ok x) → (∀ m, m < pa.rows → act.has m = true → ∃ js, pa.present (regMeta pa (ownRegs s) m) = .ok js) →
        (s.passes.filter fun p => p.quad == s.quad).length < 64 → (s.sb.filter fun e => e.core == core).length < 32 →
        ∃ p : Pass, exec i s = .next (finished h { s with
            ids := s.ids + 1, passes := s.passes ++ [p], sb := s.sb ++ [⟨core, base, base + pb.endOff, false, s.ids⟩] })
          ∧ p.id = s.ids ∧ p.quad = s.quad ∧ p.cohort = s.cur.pl.id ∧ p.launch = s.cur.pl.launch ∧ p.core = core ∧ p.mask = act
          ∧ p.pc = s.cur.pc ∧ p.tile = zTile s d ∧ p.pla = srcPL s c ∧ p.plb = plb ∧ p.a = Opd.ix a ∧ p.b = base ∧ p.sparse = sparse
          ∧ p.clocks = clocks ∧ p.t = toggles (spRd s core base) pb ∧ p.u = clocks * (64 + p.t / 16) ∧ p.age = 0 ∧ p.granted = false
          ∧ (∀ r l, (∃ g ∈ (Opd.ix a, 16) :: pa.spans, g.1 ≤ r ∧ r < g.1 + g.2) → l < 32 → p.regRd r l = s.cur.r.rdV r l))
    ∧ (∀ q g, (∀ p ∈ s.passes, p.quad = q → p.granted = false) → nextPass s q = some g →
      Answers (exec (.passGrant q) s) fun t =>
        t.budget q = { s.budget q with balance := (s.budget q).balance - g.u }
        ∧ t.passes = s.passes.map (fun p => if p.id = g.id then
              { p with granted := true, cbs := [p.pla, p.plb].map fun q => bookWords s p.quad p.launch (Plac.ofQ q) }
            else if p.id ∈ (eligible s q).map (·.id) then { p with age := p.age + 1 } else p)
        ∧ t.tiles = s.tiles ∧ t.mem = s.mem ∧ t.cur.r = s.cur.r)
    ∧ (∀ q p, s.passes.find? (fun p => p.quad == q && p.granted) = some p →
      Answers (exec (.passExecute q) s) fun t =>
        t.passes = s.passes.filter (fun x => x.id != p.id) ∧ t.sb = s.sb.filter (fun e => e.owner != p.id) ∧ t.cur.r = s.cur.r
        ∧ (∀ k n, k ≠ p.quad ∨ n ≠ p.tile → n < 64 → p.tile < 64 → t.tile k n = s.tile k n)
        ∧ (∀ x, passResult s p = .ok x → t.tile p.quad p.tile = x)
        ∧ ∀ e, passResult s p = .error e → (t.tile p.quad p.tile).poison = true ∧ (t.tile p.quad p.tile).cells = (s.tile p.quad p.tile).cells)
    ∧ (Usable s { uni := true, srcs := [(a, 1)] } →
        (∀ p ∈ s.passes, p.cohort = s.cur.pl.id → a.cls ≠ .zr ∧ p.tile ≠ zTile s a) →
        (s.cur.c.hm = true ∨ ∀ n ∈ (if a.cls == .zr then ownTiles s else [zTile s a]),
          ∀ f ∈ (s.tile s.quad n).faults, f.cohort ≠ s.cur.pl.id) →
        exec (.mwait h a) s = .next (finished h s))

/-- On a tile that the cohort's turn has come for, ZCLR leaves the cleared state and other cohorts' faults; ZANCHOR with
verified rows brings every cell to the anchor of A by the floor or the exact shift, modulo 2^64, and sets PINNED; ZREAD of a
verified, unpoisoned tile gives the window of each active row, converted; ZWRITE replaces the window of each active row by
the floors of its values at the row's anchor, raised in an adaptive row as far as the largest value asks, and keeps other
rows; ZCHK says whether all rows match, and poisons a tile that does not; on a poisoned tile it says false, and without .q raises the
placard fault beside it; where the guard is false or no lane is
active nothing happens. (R133, R134, R142, R145, R146, R148, R161, R162, R163, R164, R168) -/
def Obligations.TileInstructions : Prop :=
  ∀ (h : Hdr) (d a b c : Opd) (s : State), Calm s →
    let on := activeMask h true s.cur ≠ 0#32
    let act := activeMask h false s.cur
    (Usable s { uni := true, dsts := [(d, 1)] } → (¬ on → exec (.zclr h d) s = .next (finished h s))
      ∧ (on → ZClear s d →
        exec (.zclr h d) s = .next (finished h (putTile d { Tile.zero with faults := (getTile s d).faults } s))))
    ∧ (∀ pin, Usable s { uni := true, srcs := [(a, 1)], dsts := [(d, 1)] } →
      (¬ on → exec (.zanchor h pin d a) s = .next (finished h s))
      ∧ (on → ZClear s d → Verified (getTile s d) (List.range 32) →
        let t := getTile s d
        let x := ((src32 s none a).setWidth 9).toInt
        ∃ u : Tile, exec (.zanchor h pin d a) s = .next (finished h (putTile d u s)) ∧ u.poison = t.poison ∧ u.faults = t.faults
          ∧ ∀ m, m < 32 → (u.row m).anchor.toInt = x ∧ (u.row m).pinned = pin ∧ u.rowOk m = true
            ∧ (u.row m).nan = (t.row m).nan ∧ (u.row m).pinf = (t.row m).pinf ∧ (u.row m).ninf = (t.row m).ninf
            ∧ (let moved := (t.cellsOf m).map fun y => ⌊(y : ℚ) * (2 : ℚ) ^ ((t.row m).anchor.toInt - x)⌋
               (u.row m).ovf = ((t.row m).ovf || moved.any out64)
               ∧ ∀ n, n < 64 → u.cells.get (64 * m + n) 0#64 = BitVec.ofInt 64 (nth moved n 0))))
    ∧ (∀ sat, Usable s { srcs := [(a, 1), (b, 1)], dsts := [(d, 16)] } →
      (act = 0#32 → exec (.zread h sat d a b c) s = .next (finished h s))
      ∧ (act ≠ 0#32 → ZClear s a → (getTile s a).poison = false → plCheck (srcPL s c) false true (some (Opd.ix d)) = 0 →
        let p := Plac.ofQ (srcPL s c)
        let c0 := (src32 s none b).toNat
        p.efmt ∈ [2, 3, 4, 5, 6, 7, 8, 9, 10, 11, 12] → p.slay = 0 → p.spar = 0 → c0 + p.cols ≤ 64 →
        Verified (getTile s a) (actRows p act) →
        let w := readOut p sat (getTile s a) d (actRows p act) c0
        exec (.zread h sat d a b c) s = .next (finished h (gives w.1 w.2 none s))))
    ∧ (Usable s { srcs := [(a, 16), (b, 1)], dsts := [(d, 1)] } →
      (act = 0#32 → exec (.zwrite h d a b c) s = .next (finished h s))
      ∧ (act ≠ 0#32 → ZClear s d → plCheck (srcPL s c) true true (some (Opd.ix a)) = 0 →
        let p := Plac.ofQ (srcPL s c)
        let c0 := (src32 s none b).toNat
        let t := getTile s d
        p.efmt ∈ [2, 3, 4, 5, 6, 7, 8, 9, 10, 11, 12] → p.slay = 0 → p.spar = 0 → c0 + p.cols ≤ 64 → Verified t (actRows p act) →
        ∃ u : Tile, exec (.zwrite h d a b c) s = .next (finished h (putTile d u s)) ∧ u.poison = t.poison ∧ u.faults = t.faults
          ∧ (∀ m, m ∉ actRows p act → u.row m = t.row m ∧ u.cellsOf m = t.cellsOf m)
          ∧ ∀ m ∈ actRows p act, ∀ l, regRowCells p (ownRegs s) (fun _ => 0#32) (Opd.ix a) m = .ok l →
            let vs := l.map fun x => (x.map Prod.fst).getD (.fin false 0 0)
            let an := (u.row m).anchor.toInt
            u.rowOk m = true ∧ (u.row m).pinned = (t.row m).pinned
            ∧ ((t.row m).pinned = true → an = (t.row m).anchor.toInt) ∧ (t.row m).anchor.toInt ≤ an
            ∧ (u.row m).nan = ((t.row m).nan || vs.any Val.isNan)
            ∧ (∀ n, n < p.cols → u.cells.get (64 * m + c0 + n) 0#64 = match nth vs n (.fin false 0 0) with
                | .fin sg k e => BitVec.ofInt 64 ⌊(if sg then -(mag k e) else mag k e) / (2 : ℚ) ^ (an - 43)⌋
                | _ => 0#64)
            ∧ (∀ n, n < 64 → n < c0 ∨ c0 + p.cols ≤ n →
                u.cells.get (64 * m + n) 0#64 = BitVec.ofInt 64 ⌊((nth (t.cellsOf m) n 0 : Int) : ℚ) * (2 : ℚ) ^ ((t.row m).anchor.toInt - an)⌋)))
    ∧ ∀ quiet, Usable s { uni := true, srcs := [(a, 1)], dsts := [(d, 1)] } →
        let t := getTile s a
        let ok := (List.range 32).all t.rowOk
        (¬ on → exec (.zchk h quiet d a) s = .next (finished h s))
        ∧ (on → ZClear s a → t.poison = false → ok = true →
          exec (.zchk h quiet d a) s = .next (finished h (gives (dstP d none true) 0 (some 0) s)))
        ∧ (on → ZClear s a → quiet = true → t.poison = true ∨ ok = false →
          exec (.zchk h quiet d a) s = .next (finished h (gives (dstP d none false) 0 (some 0)
            (if t.poison then s else putTile a { t with poison := true } s))))
        ∧ (on → ZClear s a → quiet = false → t.poison = false → ok = false →
          exec (.zchk h quiet d a) s =
            .next ((takeTrap { cause := 0x0011, opnd := 1 } s.cur.smask (putTile a { t with poison := true } s)).tick 1))
        ∧ (on → ZClear s a → quiet = false → t.poison = true →
          exec (.zchk h quiet d a) s =
            .next ((takeTrap (placT 3 1) s.cur.smask (gives (dstP d none false) 0 (some 0) s)).tick 1))

/-- Where the placards pass their checks and every byte that is read or written is reached, ZST writes the rows as its
placard says and the placard last, ZLD replaces the tile by the rows it reads and clears the rest, ZADD adds each source row
at the anchor that R167 gives, exactly modulo 2^64, TLD gives each active row with its scales and metadata and the placard of
the register tile, TST stores them, CBLOAD replaces a codebook slot, and TCVT gives each active row in the target's format.
(R63, R77, R81, R152, R154, R165, R166, R167, R170, R171, R172, R173) -/
def Obligations.TilesAndMemory : Prop :=
  ∀ (h : Hdr) (m : MMod) (d a b c : Opd) (s : State), Calm s →
    let on := activeMask h true s.cur ≠ 0#32
    let act := activeMask h false s.cur
    (∀ spad sat s1 s2 ls, on → Usable s { uni := true, srcs := [(a, 1), (b, 2)] } → ZClear s a →
      let base := (src64 s none b).toNat
      let q := srcPL s c
      let p := Plac.ofQ q
      let t := getTile s a
      let ws := zstWrites p sat t
      base % 16 = 0 → (spad = true → fits s base 16 ∧ fits s base p.endOff) → plCheck q false false = 0 →
      p.efmt ∈ [1, 2, 3, 4, 5, 6, 7, 8, 9, 10, 11, 12, 14] → (p.isFX = true ∨ p.slay = 0) → p.spar = 0 → p.rows ≤ 32 → p.cols ≤ 64 →
      checkPieces spad .store 2 ((base, 16) :: ws.map fun (o, x) => ((base + o) % 2 ^ 64, x.length)) s = .ok (ls, s1) →
      Verified t (List.range p.rows) →
      writeTile spad .quad .dflt 2 base ws ({ p with poisoned := t.poison }).toQ s1 = .ok ((), s2) →
      exec (.zst h spad sat a b c) s =
        .next (finished h (addPend [] (joinFlags ((zstRows p sat t).flatMap fun (_, l) => l.map Prod.snd)) (some 0) s2)))
    ∧ (∀ spad p rows s1, on → Usable s { uni := true, srcs := [(a, 2)], dsts := [(d, 1)] } → ZClear s d →
      fxSource spad a s = .ok ((p, rows), s1) →
      ∃ u : Tile, exec (.zld h spad d a) s = .next (finished h (putTile d u s1)) ∧ u.poison = false ∧ u.faults = (getTile s1 d).faults
        ∧ ∀ k, (∀ l r, rows[k]? = some (l, r) → u.cellsOf k = l ∧ u.row k = { r with check := checkOf l })
          ∧ (rows.length ≤ k → u.row k = TRow.zero ∧ u.cellsOf k = List.replicate 64 0))
    ∧ (∀ spad rows s1, on → Usable s { uni := true, srcs := [(a, if a.cls == .z then 1 else 2)], dsts := [(d, 1)] } → ZClear s d →
      (if a.cls == .z then ZClear s a ∧ (getTile s a).poison = false ∧ Verified (getTile s a) (List.range 32) ∧ s1 = s
          ∧ rows = (List.range 32).map fun k => ((getTile s a).cellsOf k, (getTile s a).row k)
        else ∃ p, fxSource spad a s = .ok ((p, rows), s1)) →
      let t := getTile s1 d
      Verified t (List.range rows.length) → (∀ k l r, rows[k]? = some (l, r) → ∃ x, sumAnchor (t.row k) r = .ok x) →
      ∃ u : Tile, exec (.zadd h spad d a) s = .next (finished h (putTile d u s1)) ∧ u.poison = t.poison
        ∧ (∀ k, rows.length ≤ k → u.row k = t.row k ∧ u.cellsOf k = t.cellsOf k)
        ∧ ∀ k l r x, k < 32 → rows[k]? = some (l, r) → sumAnchor (t.row k) r = .ok x → l.length = 64 →
          u.rowOk k = true ∧ (u.row k).anchor = BitVec.ofInt 9 x.1 ∧ (u.row k).pinned = x.2
          ∧ (u.row k).nan = ((t.row k).nan || r.nan) ∧ (u.row k).pinf = ((t.row k).pinf || r.pinf)
          ∧ (u.row k).ninf = ((t.row k).ninf || r.ninf)
          ∧ ∀ n, n < 64 → u.cells.get (64 * k + n) 0#64 =
              BitVec.ofInt 64 (⌊((nth (t.cellsOf k) n 0 : Int) : ℚ) * (2 : ℚ) ^ ((t.row k).anchor.toInt - x.1)⌋
                + ⌊((nth l n 0 : Int) : ℚ) * (2 : ℚ) ^ (r.anchor.toInt - x.1)⌋))
    ∧ (∀ pb s1 s2 s3 ls bs, Usable s { srcs := [(a, 2)], dsts := [(d, 16)] } →
      let base := (src64 s none a).toNat
      let q : Qword := BitVec.ofNat 128 (leNat pb)
      let p := Plac.ofQ q
      let rows := actRows p act
      let r := Opd.ix b
      let two := if p.slay = 5 ∧ rows ≠ [] then [(p.scaleOff, 4)] else []
      let ps := rows.flatMap (rowPieces p) ++ two
      let rd := rdPieces (ps.zip bs)
      base % 16 = 0 → (m.x = true → fits s base 16 ∧ fits s base p.endOff) → readSpan m.x m.scope m.cache 1 base 16 s = .ok (pb, s1) →
      tldCheck q = 0 → ((p.scRegs ≠ 0 ∨ p.metaRegs ≠ 0) ↔ b.cls ≠ .zr) → (b.cls = .zr ∨ (overlaps (Opd.ix d, 16) (r, p.scRegs + p.metaRegs) = false ∧ r + p.scRegs + p.metaRegs ≤ s.cur.r.vregs)) →
      checkPieces m.x .load 1 (ps.map fun (o, n) => ((base + o) % 2 ^ 64, n)) s1 = .ok (ls, s2) →
      M.mapL ls (fun (l, n) => readPiece m.scope m.cache l n) s2 = .ok (bs, s3) →
      (∀ i ∈ rows, ∃ js, p.present (memMeta p rd i) = .ok js) →
      ∃ ws, exec (.tld h m d a b c) s = .next (finished h
          (let t := addPend (ws ++ dstPL c ({ p with
              pitch := 4, brot := 0, soff := if p.scRegs = 0 then 0 else r, moff := if p.metaRegs = 0 then 0 else r + p.scRegs } : Plac).toQ) 0 none s3
           if m.order = .acq ∨ m.order = .ar then acquire m.scope t else t))
        ∧ (∀ i ∈ rows, ∀ w ∈ rowWrites (Opd.ix d) i p.rowBytes (memRow p rd i), w ∈ ws)
        ∧ (∀ i ∈ rows, ∀ w ∈ rowWrites (r + p.scRegs) i (4 * p.metaRegs) (memMeta p rd i), w ∈ ws)
        ∧ (∀ i ∈ rows, p.slay ≠ 4 → ∀ w ∈ rowWrites (if p.slay = 5 then r + 1 else r) i (p.linePos i).2
            (leNat (rd (p.scaleOff + (p.linePos i).1) (p.linePos i).2)), w ∈ ws)
        ∧ (p.slay = 4 ∨ p.slay = 5 → rows ≠ [] → ∀ w ∈ rowWrites r 0 4 (leNat (rd p.scaleOff 4)), w ∈ ws)
        ∧ ∀ w ∈ ws, ∃ n i x, w = .v n i x ∧ (i ∈ rows ∨ i = 0 ∧ n = r))
    ∧ (∀ s2, Usable s { srcs := [(a, 2), (b, 16)], lates := if m.order = .rel ∨ m.order = .ar then latesRel else [] } →
      let rel := m.order = .rel ∨ m.order = .ar
      let base := (src64 s none a).toNat
      let q := srcPL s c
      let p := Plac.ofQ q
      let pt : Plac := { p with pitch := 4, brot := 0, soff := 0, moff := 0 }
      let rows := actRows p act
      let rg := ownRegs s
      let cut := fun (o : Nat) (bs : List Byte) =>
        (List.range ((bs.length + 15) / 16)).map fun k => (o + 16 * k, (bs.drop (16 * k)).take 16)
      let ws := (rows.flatMap fun i => rowOut pt i (leNat (laneBytes rg (Opd.ix b) 16 i))
          ++ cut (pt.scaleOff + (pt.linePos i).1) (laneScaleBytes p rg i)
          ++ cut (pt.metaOff + i * pt.metaStride) (laneBytes rg (p.moff % 256) p.metaRegs i))
        ++ if (p.slay = 4 ∨ p.slay = 5) ∧ rows ≠ [] then [(pt.scaleOff, laneBytes rg (p.soff % 256) 1 0)] else []
      base % 16 = 0 → (m.x = true → fits s base 16 ∧ fits s base pt.endOff) → plCheck q true true (some (Opd.ix b)) = 0 →
      spansBad s p = false → pt.shapeOk false = true → (∀ i ∈ rows, ∃ js, p.present (regMeta p rg i) = .ok js) →
      (rel → Quiet m.scope s) →
      writeTile m.x m.scope m.cache 1 base ws pt.toQ (if rel then released m.scope s else s) = .ok ((), s2) →
      exec (.tst h m a b c) s = .next (finished h s2))
    ∧ (on → Usable s { uni := true, srcs := [(a, 2), (b, 1)] } →
      let slot := (src32 s none b).toNat
      let off := (src64 s none a).toNat
      let core := s.cur.pl.core
      let base := s.cur.pl.spBase + off
      let q : Qword := BitVec.ofNat 128 (leNat (spRd s core base 0 16))
      let word := fun k => leNat (spRd s core base (16 + 4 * k) 4)
      slot ≤ 3 → off % 16 = 0 → plCheck q true false = 0 → (Plac.ofQ q).isCBT = true → fits s off 1040 →
      (∀ e ∈ s.sb, e.dst = true → e.core = core → e.hi ≤ base ∨ base + 1040 ≤ e.lo) → spPoisoned s (spPa core base) 1040 = false →
      (∀ k, k < 256 → word k &&& 0x8888_8888 = 0) →
      (let o := (s.books.get (bookKey s.quad slot) Codebook.zero).owner
       o = none ∨ o = s.cur.pl.launch) →
      (∀ p ∈ s.passes, p.quad = s.quad → ∀ x ∈ [p.pla, p.plb], (Plac.ofQ x).isVQ = true → (Plac.ofQ x).sfmt % 4 ≠ slot) →
      ∃ bk : Codebook, exec (.cbload h a b) s = .next (finished h
          { s with books := s.books.set (bookKey s.quad slot) bk Codebook.zero })
        ∧ bk.owner = s.cur.pl.launch ∧ ∀ k, k < 256 → bk.words.get k 0#32 = BitVec.ofNat 32 (word k))
    ∧ ∀ am : AMod, Usable s { srcs := [(a, 16)], dsts := [(d, 16)] } →
      let ps := Plac.ofQ (srcPL s c)
      let pt := Plac.ofQ (srcPL s b)
      (act = 0#32 → exec (.tcvt h am d a b c) s = .next (finished h s))
      ∧ (act ≠ 0#32 → plCheck (srcPL s c) true true (some (Opd.ix a)) = 0 → plCheck (srcPL s b) false true (some (Opd.ix d)) = 0 →
        tcvtOk ps false = true → tcvtOk pt true = true → ps.rows = pt.rows → ps.cols = pt.cols → spansBad s ps = false →
        spansBad s pt = false →
        let rs := (actRows ps act).map fun ln => match regRowCells ps (ownRegs s) (fun _ => 0#32) (Opd.ix a) ln am.ftz with
          | .error _ => (([] : List Wr), (0 : Flags))
          | .ok l =>
            let e := encodeRow pt am.rnd am.sat am.ftz (l.map fun x => x.map Prod.fst)
            (rowWrites (Opd.ix d) ln pt.rowBytes (packBits pt.bits e.2.1)
              ++ rowWrites (pt.soff % 256) ln e.1.length (leNat e.1), e.2.2)
        exec (.tcvt h am d a b c) s = .next (finished h (gives (rs.flatMap Prod.fst) (joinFlags (rs.map Prod.snd)) (some 8) s)))

/-- With room for a copy and spaces open to the cohort, CPY, CPY.tile, CPYT, CPYT.scat, CPYG and CPYC only enter their copy,
with the number of the open batch and an entry over the bytes they may write in the own scratchpad, by whichever space of the
destination names it, and no register changes;
a source in the on-chip map without privilege enters a copy that only ends with a separation error. CSEAL opens the next
batch while fewer than 15 sealed ones are unfinished, CWAIT of at least the number of unfinished batches says whether the
latch is clear, CQUERY gives its four words and .clr clears the latch; with a false guard nothing happens. (R17, R229, R258,
R259, R261, R262, R263, R264, R265, R266, R267) -/
def Obligations.CopiesAreAccepted : Prop :=
  ∀ (h : Hdr) (m : CMod) (d a b : Opd) (s : State), Calm s →
    let on := activeMask h true s.cur ≠ 0#32
    let dst := (src64 s none d).toNat
    let src := (src64 s none a).toNat
    let n := (src32 s none b).toNat
    let own := fun (lo hi : Nat) => ownRange s m.dsp lo hi
    let batches := ((s.copies.filter fun c => c.cohort == s.cur.pl.id).map (·.batch)).eraseDups
    (CopyRoom s → on →
      (Usable s { uni := true, srcs := [(d, 2), (a, 2), (b, 1)] } →
        (Spaces s m (some dst) (some src) →
          exec (.cpy h m d a b) s = .next (finished h (accepted m.scope (.plain m.dsp m.ssp dst src n) (own dst (dst + n)) s)))
        ∧ (m.ssp = .map → s.cur.pl.priv = false →
          exec (.cpy h m d a b) s = .next (finished h (accepted m.scope (.bad 3 src) none s)))
        ∧ ∀ esz : BitVec 4, 1 ≤ n → n ≤ 65536 → src % 8 = 0 → Spaces s m (some dst) none →
          exec (.cpyg h m esz d a b) s = .next (finished h
            (accepted m.scope (.gather esz.toNat m.dsp m.ssp dst src n) (own dst (dst + 2 ^ esz.toNat * n)) s)))
      ∧ (Usable s { uni := true, srcs := [(d, 2), (a, 2)] } →
        (Spaces s m (some dst) (some src) →
          exec (.cpyTile h m d a) s = .next (finished h (accepted m.scope (.tile m.dsp m.ssp dst src) (own dst (dst / 2 ^ 20 * 2 ^ 20 + 2 ^ 20)) s)))
        ∧ ∀ bs s1, readLayouts src s = .ok (.ok bs, s1) →
          let len := 2 ^ (layoutOf (bs.drop 64)).elem * volume (layoutOf (bs.take 64)).ext
          (Spaces s m (some dst) none → CopyRoom s1 → exec (.cpyt h m d a) s = .next (finished h
            (accepted m.scope (.tensor false m.dsp m.ssp dst (bs.take 64) (bs.drop 64)) (own dst (dst + len)) s1)))
          ∧ (Spaces s m none (some dst) → CopyRoom s1 → exec (.cpytScat h m d a) s = .next (finished h
            (accepted m.scope (.tensor true m.dsp m.ssp dst (bs.take 64) (bs.drop 64)) (own 0 (2 ^ 64)) s1))))
      ∧ (Usable s { uni := true, srcs := [(a, 2)] } →
        exec (.cpyc h m.scope a) s = .next (finished h (accepted m.scope (.chain src) none s))))
    ∧ (¬ on → Usable s { uni := true, srcs := [(d, 2), (a, 2), (b, 1)] } → exec (.cpy h m d a b) s = .next (finished h s))
    ∧ (on → Usable s { uni := true } → (batches.filter fun k => k != s.cur.x.batch).length < 15 →
      exec (.cseal h) s = .next (finished h (s.updX fun x => { x with batch := (x.batch + 1) % 65536 })))
    ∧ (on → Usable s { uni := true, srcs := [(a, 1)], dsts := [(d, 1)] } → batches.length ≤ (src32 s none a).toNat →
      exec (.cwait h d a) s = .next (finished h (gives (dstP d none s.cur.x.err.isNone) 0 (some 0) s)))
    ∧ ∀ clr, on → Usable s { uni := true, dsts := [(d, 4)] } →
      let e := s.cur.x.err.getD ⟨0, 0, 0, 0⟩
      exec (.cquery h clr d) s = .next (finished h
        (let t := gives (dstN d none 4 (batches.length + s.cur.x.batch * 2 ^ 16 + (e.cause + e.detail * 2 ^ 8 + e.batch * 2 ^ 16) * 2 ^ 32
            + e.addr * 2 ^ 64)) 0 (some 4) s
         if clr then t.updX fun x => { x with err := none } else t))

/-- The turn of a plain copy within its cohort's scratchpad, between ranges that do not meet, nothing being poisoned, live or
read by a pass, leaves every byte of the destination equal to its source byte and every other scratchpad byte as it was, and
the copy has ended without an error. The turn of any copy whose transfer ends and that no pass holds back removes it and its
scoreboard entry, and latches its error with its batch when the latch is clear; one that a pass holds back keeps its last writes.
A chain's turn at a record that is not the courier's ends it without an error; at one that is, it takes the record, with an entry
for what it writes in the own scratchpad; the next turn performs the transfer; the last, once the core's dirty lines are home
where the scope asks it, writes STATUS and OWN and goes on to NEXT, or ends the copy. (R17, R229,
R259, R260, R261, R264, R265) -/
def Obligations.CopiesMoveBytes : Prop :=
  ∀ (cp : Copy) (s : State), s.cur.resident = true → cp.cohort = s.cur.pl.id → cp.node = none →
    s.copies.find? (fun c => c.id == cp.id) = some cp →
    (∀ dst src n, cp.kind = .plain .own .own dst src n →
      let core := s.cur.pl.core
      let at_ := fun o => spPa core (s.cur.pl.spBase + o)
      core < 4096 → s.cur.pl.spBase + s.cur.pl.spSize ≤ 0xC_0000 → fits s src n → fits s dst n → src + n ≤ dst ∨ dst + n ≤ src →
      (∀ k, k < n → spPoisoned s (at_ (src + k)) 1 = false ∧ s.live (at_ (dst + k)) = false) →
      (∀ e ∈ s.sb, e.dst = false → spPa e.core e.hi ≤ at_ dst ∨ at_ (dst + n) ≤ spPa e.core e.lo) →
      Answers (exec (.courierTransfer cp.id) s) fun t =>
        (∀ k, k < n → t.byte (at_ (dst + k)) = s.byte (at_ (src + k)))
        ∧ (∀ o, o < dst ∨ dst + n ≤ o → o < s.cur.pl.spSize → t.byte (at_ o) = s.byte (at_ o))
        ∧ t.copies = s.copies.filter (fun c => c.id != cp.id) ∧ t.sb = s.sb.filter (fun e => e.owner != cp.id)
        ∧ t.cur.x.err = s.cur.x.err ∧ t.cur.r = s.cur.r)
    ∧ (∀ e s1, transfer cp s = .ok ({ err := e }, s1) → s1.cur.resident = true → s1.cur.pl = s.cur.pl →
      Answers (exec (.courierTransfer cp.id) s) fun t =>
        t.copies = s1.copies.filter (fun c => c.id != cp.id) ∧ t.sb = s1.sb.filter (fun e => e.owner != cp.id)
        ∧ t.mem = s1.mem ∧ t.cur.r = s1.cur.r
        ∧ t.cur.x.err = (match s1.cur.x.err, e with
            | some x, _ => some x
            | none, some (c, d, a) => some ⟨cp.batch, c, d, a⟩
            | none, none => none))
    ∧ (∀ d s1, d.late ≠ [] → transfer cp s = .ok (d, s1) → s1.cur.resident = true → s1.cur.pl = s.cur.pl →
      exec (.courierTransfer cp.id) s = .next (setCopy { cp with kind := .late d.late d.err none } s1).wake)
    ∧ (∀ at_ r s1, cp.kind = .chain at_ → at_ % 64 = 0 → tileSpan cp.id .glob at_ 0 64 s = .ok (r, s1) →
        s1.cur.resident = true → s1.cur.pl = s.cur.pl →
        let s2 := acquire cp.scope s1
        let dst := fld r 8 8
        let taken := setCopy { cp with kind := .record at_ r } s2
        (nbit (fld r 21 1) 0 = false → exec (.chainRecord cp.id) s = .next (endCopy cp none s2).wake)
        ∧ (nbit (fld r 21 1) 0 = true → fld r 20 1 < 16 → fld r 21 1 < 2 → fld r 23 1 = 0 →
          (ownRange s2 (recSpace (fld r 20 1 / 4 % 4)) dst (dst + fld r 16 4) = none → exec (.chainRecord cp.id) s = .next taken.wake)
          ∧ ∀ lo hi, ownRange s2 (recSpace (fld r 20 1 / 4 % 4)) dst (dst + fld r 16 4) = some (lo, hi) →
            (s2.sb.filter fun e => e.core == cp.core).length < 32 →
            exec (.chainRecord cp.id) s = .next (State.wake { taken with sb := s2.sb ++ [⟨cp.core, lo, hi, true, cp.id⟩] })))
    ∧ (∀ at_ r d s1, cp.kind = .record at_ r → recordMoves cp.id r s = .ok (d, s1) → s1.cur.resident = true → s1.cur.pl = s.cur.pl →
        exec (.courierTransfer cp.id) s = .next (setCopy { cp with kind := .late d.late d.err (some (at_, fld r 24 8)) } s1).wake)
    ∧ ∀ at_ next e d s3, cp.kind = .late [] e (some (at_, next)) →
        let s0 := setCopy cp s
        let s1 := if Scope.wide cp.scope then writeBackAll cp.core s0 else s0
        (Scope.wide cp.scope = true → backParked s1 cp.core = false) →
        doWrites cp.id .glob at_ [(21, [0#8, match e with | some x => BitVec.ofNat 8 x.1 | none => 0#8])] s1 = .ok (d, s3) →
        s3.cur.resident = true → s3.cur.pl = s.cur.pl →
        let e' := if e.isSome then e else d.err
        exec (.courierTransfer cp.id) s = .next (State.wake
          (if e'.isSome ∨ next = 0 then endCopy cp e' s3 else sbDrop cp.id (setCopy { cp with kind := .chain next } s3)))

/-- RNG gives each active lane the words of its stream. RSVUPD, RSVMRG, RSVNORM and RSVCAP give each active lane its record
streamed, merged, normed or capped, with the flag; streaming counts, adds the weight with saturation, marks NF for a bad
weight or target, and keeps the candidate exactly when its rounded share is below the weight. On an enabled surface of the
cohort's tenant, every active lane naming a pixel of it whose record no unfinished job writes, RSVLD reads the records of the
lanes and RSVST writes them, reserved bits zero, the highest lane's last. (R56, R174, R175, R176, R179, R180, R181, R182,
R183, R184, R185, R204) -/
def Obligations.ReservoirInstructions : Prop :=
  (∀ (h : Hdr) (m : MMod) (d a b c : Opd) (s : State), Calm s →
    let act := activeMask h false s.cur
    let gr := fun (o : Opd) (ln : Option Nat) => groupAtLane s o (ln.getD 0)
    let rsv := fun (r : Option Nat → Rsv × Bool) =>
      laneDone h d.uni (some 8) (fun ln => (dstN d (some (ln.getD 0)) 8 (r ln).1.toNat, if (r ln).2 then 0x20#6 else 0)) s
    (∀ x4, Usable s { srcs := [(a, 2), (b, 1)], dsts := [(d, if x4 then 4 else 1)] } →
      exec (.rng h x4 d a b) s = .next (laneDone h false (some 8) (fun ln =>
        let g := 32 * s.cur.pl.lin + ln.getD 0
        let x := philox (src64 s none a).toNat (src32 s ln b).toNat (g / 2 ^ 32 % 2 ^ 16) (g % 2 ^ 32) s.cur.pl.lkey.toNat
        (dstN d ln (if x4 then 4 else 1) (if x4 then (nth x 0 0#32).toNat + 2 ^ 32 * ((nth x 1 0#32).toNat
          + 2 ^ 32 * ((nth x 2 0#32).toNat + 2 ^ 32 * (nth x 3 0#32).toNat)) else (nth x 0 0#32).toNat), 0)) s))
    ∧ (Usable s { uni := d.uni, srcs := [(a, 8), (b, 1), (d, 8)], dsts := [(d, 8)] } →
      exec (.rsvupd h d a b) s = .next (rsv fun ln => rsvUpd (gr d ln) (gr a ln) (src32 s ln b).toNat))
    ∧ (Usable s { uni := d.uni, srcs := [(a, 8), (b, 1), (c, 1), (d, 8)], dsts := [(d, 8)] } →
      exec (.rsvmrg h d a b c) s = .next (rsv fun ln => rsvMrg (gr d ln) (gr a ln) (src32 s ln b).toNat (src32 s ln c).toNat))
    ∧ (Usable s { uni := d.uni, srcs := [(d, 8)], dsts := [(d, 8)] } →
      exec (.rsvnorm h d) s = .next (rsv fun ln => rsvNorm (gr d ln)))
    ∧ (Usable s { uni := d.uni, srcs := [(a, 1), (d, 8)], dsts := [(d, 8)] } →
      exec (.rsvcap h d a) s = .next (rsv fun ln => (rsvCap (gr d ln) ((src32 s ln a).toNat % 2 ^ 16), false)))
    ∧ (surfEn s = true → surfOwned s s.cur.pl.part s.cur.pl.asid = true →
      let px := fun i => (src32 s (some i) a).toNat % 2 ^ 16
      let py := fun i => (src32 s (some i) a).toNat / 2 ^ 16
      let key := fun i => rsvKey m.x (px i) (py i)
      (∀ i, act.has i = true → px i < surfW s ∧ py i < surfH s ∧ ∀ j ∈ s.jobs, jobWrites j m.x (px i) (py i) = false) →
      (Usable s { srcs := [(a, 1)], dsts := [(d, 8)] } → (∀ i, act.has i = true → key i ∉ s.rsvPoison) →
        let t := gives (act.lanes.flatMap fun i => dstN d (some i) 8 (s.resv.get (key i) 0#256).toNat) 0 none s
        exec (.rsvld h m d a) s = .next (finished h (if m.order = .acq ∨ m.order = .ar then acquire m.scope t else t)))
      ∧ (Usable s { srcs := [(a, 1), (b, 8)], lates := if m.order = .rel ∨ m.order = .ar then latesRel else [] } →
        ((m.order = .rel ∨ m.order = .ar) → Quiet m.scope s) →
        let s0 := if m.order = .rel ∨ m.order = .ar then released m.scope s else s
        ∃ rs ps, exec (.rsvst h m a b) s = .next (finished h { s0 with resv := rs, rsvPoison := ps })
          ∧ (∀ k, (∀ i, act.has i = true → key i ≠ k) → rs.get k 0#256 = s.resv.get k 0#256)
          ∧ (∀ i, act.has i = true → (∀ j, i < j → act.has j = true → key j ≠ key i) →
              rs.get (key i) 0#256 = gr b (some i) &&& ~~~((0x3F#256) <<< 112) ∧ key i ∉ ps))))
  ∧ (∀ (rc cand : Rsv) (g : Nat),
      let bad := badWeight cand.wsum || badWeight cand.phat
      let w := if bad || cand.wsum == 0x8000_0000 then 0 else cand.wsum
      let sum := Fmt.f32.add .rne true false rc.wsum w
      let keep := (Fmt.f32.val (rne32 ((unif g).mul (Fmt.f32.val sum.1)).1)).lt (Fmt.f32.val w)
      let r := (rsvUpd rc cand g).1
      r.wsum = sum.1 ∧ r.mcnt = min 65535 (rc.mcnt + 1) ∧ r.ucw = rc.ucw ∧ (rsvUpd rc cand g).2 = bad
      ∧ r.nf = (rc.nf || bad || decide (sum.2 &&& Fl.overflow ≠ 0))
      ∧ (if keep then r.sample = cand.sample ∧ r.phat = cand.phat ∧ r.payload = cand.payload ∧ r.valid = true ∧ r.age = 0
         else r.sample = rc.sample ∧ r.phat = rc.phat ∧ r.payload = rc.payload ∧ r.valid = rc.valid ∧ r.age = rc.age))
  ∧ (∀ (rc : Rsv) (c : Nat), c < 2 ^ 16 →
      (rc.mcnt ≤ c → rsvCap rc c = rc)
      ∧ (c < rc.mcnt → (rsvCap rc c).mcnt = c ∧ (rsvCap rc c).sample = rc.sample ∧ (rsvCap rc c).ucw = rc.ucw
          ∧ (rsvCap rc c).phat = rc.phat ∧ (rsvCap rc c).payload = rc.payload ∧ (rsvCap rc c).nf = rc.nf))

/-- When the chains of loads of its lanes end without a wait or a fault, LTSAMPLE gives each active lane the result of its
walk and TEXF of a valid sampler the channels of its samples, with a variable latency; BVHSIZE gives the two rounded sizes. A
walk that stands at a leaf gives its light with the probability so far; after 32 steps, at a node with reserved bits set, and
where both children have importance 0 it gives the failure result; a node whose POWER is not positive has importance 0. Where
a line of R188 has no exact value the importance is a free value. (R186, R187, R188, R189, R192, R205, R206, R243) -/
def Obligations.SampledReads : Prop :=
  (∀ (h : Hdr) (ca : Cache) (d a b c : Opd) (s : State), Calm s →
    let act := activeMask h false s.cur
    (∀ ws s1, Usable s { srcs := [(a, 4), (b, 2), (c, 2)], dsts := [(d, 2)] } →
      let base := (src64 s none b).toNat
      base % 32 = 0 →
      gLanes (fun i => do
        let p := srcWords s (some i) a 4
        let (root, ok) ← lightNode i base 0
        let (ix, pmf) ← lightWalk s.cur i base (src64 s none c) (nth p 3 0#32).toNat (p.take 3) 32 0 root ok 0x3F80_0000
        pure (dstN d (some i) 2 (ix + 2 ^ 32 * pmf), 0)) act.lanes s = ⟨ws, [], [], none, s1⟩ →
      exec (.ltsample h d a b c) s = .next (finished h (addPend (ws.flatMap Prod.fst) (joinFlags (ws.map Prod.snd)) none s1)))
    ∧ (Usable s { srcs := [(a, 2), (b, 3)], dsts := [(d, 4)] } →
      (act = 0#32 → exec (.texf h ca d a b) s = .next (finished h s))
      ∧ ∀ rb s1 pb s2 s3 ws s4, act ≠ 0#32 →
        let at_ := (src64 s none a).toNat
        let r0 := Sampler.ofBytes rb
        let tiled := nbit (fld rb 15 1) 5
        let p := Plac.ofQ (BitVec.ofNat 128 (leNat pb))
        let r := if tiled then { r0 with base := r0.base + 16, size := [p.cols, p.rows, 1], efmt := p.efmt, rowPitch := 16 * p.pitch } else r0
        at_ % 64 = 0 → gLoad none ca 64 at_ s = .ok (rb, s1) → samplerBad rb = false →
        (if tiled then r0.base % 16 = 0 ∧ gLoad none ca 16 r0.base s1 = .ok (pb, s2)
            ∧ plCheck (BitVec.ofNat 128 (leNat pb)) true false = 0 ∧ p.spar = 0 ∧ p.transposed = false ∧ p.brot = 0 ∧ p.slay = 0
            ∧ p.efmt ∈ [2, 3, 4, 5, 6, 10, 11]
          else s2 = s1) →
        suspendM (act.lanes.flatMap fun i => match samplePlan r (srcWords s2 (some i) b 3) with
          | none => []
          | some plan => (laneTexels r plan).map fun va =>
              ⟨some i, va, resolve .glob .load false (texBytes r.efmt) s2 (some i) va⟩) s2 = .ok ((), s3) →
        gLanes (fun i => do
          let s ← get
          let x ← texLane r ca i (srcWords s (some i) b 3)
          pure (dstN d (some i) (r.ch + 1) x, 0)) act.lanes s3 = ⟨ws, [], [], none, s4⟩ →
        exec (.texf h ca d a b) s = .next (finished h (addPend (ws.flatMap Prod.fst) (joinFlags (ws.map Prod.snd)) none s4)))
    ∧ (Usable s { uni := d.uni, srcs := [(a, 1), (b, 1)], dsts := [(d, 4)] } →
      exec (.bvhsize h d a b) s = .next (groupDone h d 4 (some 4) (fun ln =>
        let t := (src32 s ln a).toNat
        let g := (src32 s ln b).toNat
        (4096 + 64 * g + 96 * t + 4095) / 4096 * 4096 + 2 ^ 64 * ((8192 + 48 * t + 4095) / 4096 * 4096)) s)))
  ∧ (∀ (c : Cohort) (lane base n fuel j : Nat) (key : Dword) (p : List Word) (node : List Byte) (ok : Bool) (pmf : Nat) (s : State),
      (ok = true → nbit (fld node 18 2) 0 = true →
        lightWalk c lane base key n p fuel j node ok pmf s = .ok ((fld node 20 4, pmf), s))
      ∧ (ok = false ∨ (fuel = 0 ∧ nbit (fld node 18 2) 0 = false) →
        lightWalk c lane base key n p fuel j node ok pmf s = .ok ((0xFFFF_FFFF, 0), s)))
  ∧ ∀ (node : List Byte) (p : List Word), (Fmt.f32.val (fld node 8 4)).neg? = true ∨ (Fmt.f32.val (fld node 8 4)).isZero = true
      ∨ Val.fin? (Fmt.f32.val (fld node 8 4)) = false → importance node p = 0

/-- TRACE at an aligned structure with room in its quad writes the core's dirty lines home and casts one ray per active lane
with the lane's eight numbers, key, N and flags. A ray that is bad delivers a miss with BADRAY; a ray through a structure of
one opaque triangle delivers the hit that the triangle test gives within tmin and tmax and the cull flags, or a miss; the ray
is then no longer in flight and its four words are outstanding; a degenerate triangle is never hit. RHIT with the lanes' rays
complete gives their barycentrics, and RWAIT with no ray of the cohort in flight writes every hit group. A hart's evaluation
completes from every state, changes no cohort's registers, no record, no ray and no job, and leaves what the program run from
its entry leaves; a program whose first word is ECALL ends there, having retired nothing. A hart's integer operations are those
of RV32IM. (R193, R194, R195, R196, R197, R198) -/
def Obligations.RaysOfACohort : Prop :=
  (∀ (h : Hdr) (fl : BitVec 5) (d a b c : Opd) (s : State), Calm s →
    let act := activeMask h false s.cur
    let quad := s.cur.pl.core / 4
    (Usable s { srcs := [(a, 8), (b, 4), (c, 1)], dsts := [(d, 4)] } →
      (act = 0#32 → exec (.trace h fl d a b c) s = .next (finished h s))
      ∧ (act ≠ 0#32 → (src64 s none b).toNat % 4096 = 0 → Drained s → BackOk s →
        (s.rays.filter fun r => r.quad == quad).length + act.lanes.length ≤ 2048 →
        Answers (exec (.trace h fl d a b c) s) fun t =>
          t.rays.take s.rays.length = s.rays ∧ t.rays.length = s.rays.length + act.lanes.length
          ∧ t.mem = (writeBackAll s.cur.pl.core s).mem ∧ t.cur.r = s.cur.r
          ∧ ∀ k i, act.lanes[k]? = some i → ∃ r, t.rays[s.rays.length + k]? = some r ∧ t.cur.x.lastRay.get i 0 = r.id
            ∧ r.quad = quad ∧ r.cohort = some s.cur.pl.id ∧ r.lane = i ∧ r.dreg = Opd.ix d ∧ r.ray = srcWords s (some i) a 8
            ∧ r.base = (src64 s none b).toNat ∧ r.key = regAt s none b 3 ++ regAt s none b 2 ∧ r.n = src32 s none c ∧ r.flags = fl
            ∧ r.glane = 32 * s.cur.pl.lin + i))
    ∧ (Usable s { dsts := [(d, 2)] } →
      (∀ r ∈ s.rays, r.cohort = some s.cur.pl.id → ∀ i, act.has i = true → r.id ≠ s.cur.x.lastRay.get i 0) →
      exec (.rhit h d) s = .next (finished h
        (gives (act.lanes.flatMap fun i => dstN d (some i) 2 (s.cur.x.bary.get i 0#64).toNat) 0 none s))))
  ∧ (∀ (h : Hdr) (s : State), s.cur.resident = true → s.cur.c.late = [] → s.cur.c.replay = none → s.cur.c.idem = none →
      (∀ p ∈ s.cur.c.pend, p.due = none) → (∀ r ∈ s.rays, r.cohort ≠ some s.cur.pl.id) → activeMask h true s.cur ≠ 0#32 →
      exec (.rwait h) s = .next (finished h (s.updCur landLate)))
  ∧ (∀ (s : State) (r : Ray), s.cur.resident = true → r.cohort = some s.cur.pl.id → s.rays.find? (fun x => x.id == r.id) = some r →
      let gone := fun (words : List Word) (t : State) =>
        t.rays = s.rays.filter (fun x => x.id != r.id)
        ∧ t.cur.c.pend = s.cur.c.pend ++ ((List.range 4).zip words).map (fun (k, w) => ⟨[.v (r.dreg + k) r.lane w], 0, none⟩)
      (BadRay r → Answers (exec (.rayTraversal r.id) s) (gone [0x7F80_0000#32, 0xFFFF_FFFF#32, 0x0008_0000#32, 0#32]))
      ∧ ∀ b s2 g ws, ¬ BadRay r → structureAt (rayAgent s r) r.base s.draw.2 = .ok (some b, s2) → s2.cur = s.cur → s2.rays = s.rays →
        b.prims = [[ws]] → b.geos = [g] → ws.length = 9 → fld g 24 2 % 4 = 1 → (∀ w ∈ ws, Val.fin? (Fmt.f32.val w.toNat) = true) →
        let v := fun (k : Nat) => Fmt.f32.val (nth ws k 0#32).toNat
        let vs := [[v 0, v 1, v 2], [v 3, v 4, v 5], [v 6, v 7, v 8]]
        let test := if degenerate vs then none
          else triTest [rayVal r 0, rayVal r 1, rayVal r 2] [rayVal r 4, rayVal r 5, rayVal r 6] vs
        let hit := fun (x : TriHit) => (rayVal r 3).le x.t && x.t.le (rayVal r 7)
          && !(r.flags.getLsbD 1 && !x.front) && !(r.flags.getLsbD 2 && x.front)
        Answers (exec (.rayTraversal r.id) s) (gone (match test.filter hit with
          | some x => [BitVec.ofNat 32 (rne32 x.t), 0#32, if x.front then 0x3_0000#32 else 0x1_0000#32, 0#32]
          | none => [0x7F80_0000#32, 0xFFFF_FFFF#32, 0#32, 0#32])))
  ∧ (∀ (rq : EvalReq) (s : State),
      let unit := if rq.kind = 0 then curUnit 0 else rtuUnit 0
      let g : Agent := ⟨rq.part, rq.asid, privOf s rq.part rq.asid, 2 ^ 60, none, none, none⟩
      let rand := fun n => nth (philox rq.key.toNat rq.c0.toNat ((rq.c1hi + n / 4) * 65536 + rq.c1lo) rq.c2.toNat rq.c3.toNat) (n % 4) 0#32
      let input := rq.input.flatMap fun w => leBytes 4 w.toNat
      (∃ t, exec (.hartEvaluation rq) s = .next t ∧ t.cur.r = s.cur.r ∧ t.resv = s.resv ∧ t.rays = s.rays ∧ t.jobs = s.jobs)
      ∧ (∀ r s1, evaluate unit g rq.callable rq.kind rq.pixel rq.slot rq.prim rand input s = .ok (r, s1) →
          exec (.hartEvaluation rq) s = .next (State.wake s1))
      ∧ ∀ (d : List Byte) (x : HartImg), tenant? s rq.part rq.asid = some d → s.harts.find? (fun x => x.unit == unit) = some x →
          x.part = rq.part → x.asid = rq.asid → x.base = tHartImg d → (callableOf x.bytes rq.callable).ok = true →
          let at_ := (callableOf x.bytes rq.callable).entry
          at_ % 4 = 0 → 0x1000 ≤ at_ → at_ < 0x1_0000 → fld x.bytes at_ 4 = 0x73 →
          (∃ e, evaluate unit g rq.callable rq.kind rq.pixel rq.slot rq.prim rand input s = .ok ((.ecall, e), s.draw.2) ∧ e.pc = at_ ∧ e.ret = 0)
          ∧ exec (.hartEvaluation rq) s = .next s.draw.2.wake)
  ∧ ∀ (a b : Word) (x : Nat),
      hOp 0x00 0 x a b = some (a + b) ∧ hOp 0x20 0 x a b = some (a - b) ∧ hOp 0x00 1 x a b = some (a <<< (b &&& 31#32))
      ∧ hOp 0x00 2 x a b = some (if a.slt b then 1 else 0) ∧ hOp 0x00 3 x a b = some (if a.ult b then 1 else 0)
      ∧ hOp 0x00 5 x a b = some (a >>> (b &&& 31#32)) ∧ hOp 0x20 5 x a b = some (a.sshiftRight' (b &&& 31#32))
      ∧ hOp 0x01 0 x a b = some (a * b)
      ∧ hOp 0x01 1 x a b = some ((a.signExtend 64 * b.signExtend 64).extractLsb' 32 32)
      ∧ hOp 0x01 2 x a b = some ((a.signExtend 64 * b.zeroExtend 64).extractLsb' 32 32)
      ∧ hOp 0x01 3 x a b = some ((a.zeroExtend 64 * b.zeroExtend 64).extractLsb' 32 32)
      ∧ hOp 0x01 4 x a b = some (if b = 0 then BitVec.allOnes 32 else a.sdiv b)
      ∧ hOp 0x01 5 x a b = some (if b = 0 then BitVec.allOnes 32 else a / b)
      ∧ hOp 0x01 6 x a b = some (a.srem b) ∧ hOp 0x01 7 x a b = some (a % b)

/-- CURATE with a valid descriptor and BVHBUILD with an aligned status pointer, with room for a job, write the core's dirty
lines home and post it; CURWAIT of at least the unfinished jobs acquires at .dev. A resample job in its turn, without
candidates, signal or lost record, leaves in the destination plane the normed centre record of every pixel of its tile on the
surface and no other record changed; a halo job leaves in every other die's part the records of its plane that lie within 16
pixels; both write their completion record and end. A build that ends writes its status word and ends, after a success with
the structure built from its inputs. (R178, R190, R191, R199, R200, R201, R202, R203, R204) -/
def Obligations.JobsOfEngines : Prop :=
  (∀ (h : Hdr) (a : Opd) (s : State), Calm s →
    let on := activeMask h true s.cur ≠ 0#32
    (∀ d s1, on → Usable s { uni := true, srcs := [(a, 2)] } → readJob a s = .ok (d, s1) →
      Drained s1 → BackOk s1 →
      (cdescOk s1 s1.cur.pl.part s1.cur.pl.asid d = true → JobRoom s1 (jobDie s1 d) →
        exec (.curate h a) s = .next (finished h (posted (jobDie s1 d) false d s1)))
      ∧ (fld d 48 8 % 8 = 0 → JobRoom s (s.cur.pl.core / 1024) →
        exec (.bvhbuild h a) s = .next (finished h (posted (s.cur.pl.core / 1024) true d s1))))
    ∧ (on → Usable s { uni := true, srcs := [(a, 1)] } →
      (s.jobs.filter fun j => j.cohort == s.cur.pl.id).length ≤ (src32 s none a).toNat →
      exec (.curwait h a) s = .next (finished h (acquire .dev s))))
  ∧ ∀ (s s1 : State) (j : Job), s.jobs.find? (fun x => x.id == j.id) = some j →
    let d := CDesc.ofBytes j.desc
    let gone := s.jobs.filter fun x => x.id != j.id
    (j.build = false → j.cohort ≠ 0 → jobTurn s j = true → d.sig = 0 →
      (jobAgent s j).write d.cpl (cplBytes ⟨0, 0, 0⟩ 0 0 false false) s = .ok ((), s1) → s1.resv = s.resv → s1.jobs = s.jobs → s1.m = s.m →
      (d.kind = 0 → d.nspat = 0 → d.temp = false →
        (∀ p ∈ tilePixels s d, rsvKey d.cplane p.1 p.2 ∉ s.rsvPoison) →
        Answers (exec (.resampleJob j.id) s) fun t => t.jobs = gone ∧ t.mem = s1.mem
          ∧ (∀ p ∈ tilePixels s d, t.resv.get (rsvKey d.dplane p.1 p.2) 0#256
              = (rsvNorm (s.resv.get (rsvKey d.cplane p.1 p.2) 0#256)).1 &&& ~~~((0x3F#256) <<< 112))
          ∧ ∀ k, (∀ p ∈ tilePixels s d, k ≠ rsvKey d.dplane p.1 p.2) → t.resv.get k 0#256 = s.resv.get k 0#256)
      ∧ (d.kind = 1 → s.rsvPoison = [] → (∀ e ∈ s.resv, e.1 < 2 ^ 29) → (s.resv.map Prod.fst).Nodup → j.die < 4 →
        Answers (exec (.haloSyncJob j.id) s) fun t => t.jobs = gone ∧ t.mem = s1.mem ∧ t.resv = s.resv
          ∧ ∀ tg, tg < 4 → tg ≠ j.die → haveQuad s tg = true → t.haloPl.get (haloPart tg j.die) (!d.nplane) = d.nplane
            ∧ ∀ x y, x < 2 ^ 14 → y < 2 ^ 14 →
                let q := quadrant (surfW s) (surfH s) j.die
                let r := quadrant (surfW s) (surfH s) tg
                q.1 ≤ x → x < q.2.1 → q.2.2.1 ≤ y → y < q.2.2.2 → r.1 ≤ x + 16 → x < r.2.1 + 16 → r.2.2.1 ≤ y + 16 → y < r.2.2.2 + 16 →
                t.halo.get (haloKey tg j.die x y) 0#256 = s.resv.get (rsvKey d.nplane x y) 0#256))
    ∧ (j.build = true →
      (∀ s2, buildM (jobAgent s j) j.id j.desc s = .ok (0, s1) →
        (jobAgent s j).write (fld j.desc 48 8) (leBytes 8 1) s1 = .ok ((), s2) →
        exec (.buildJob j.id) s = .next (State.wake { s2 with jobs := s2.jobs.filter fun x => x.id != j.id }))
      ∧ (∀ c s2, buildM (jobAgent s j) j.id j.desc s = .ok (c, s1) → c ≠ 0 →
        (jobAgent s j).write (fld j.desc 48 8) (leBytes 8 (0x8000_0000 + c)) (spoilOutput (jobAgent s j) j.id j.desc s1) = .ok ((), s2) →
        exec (.buildJob j.id) s = .next (State.wake { s2 with jobs := s2.jobs.filter fun x => x.id != j.id }))
      ∧ (buildDescOk j.desc = false → buildM (jobAgent s j) j.id j.desc s = .ok (3, s))
      ∧ ∀ s2, buildM (jobAgent s j) j.id j.desc s = .ok (0, s2) →
          ∃ b ∈ s2.bvhs, b.id = j.id ∧ b.desc = j.desc ∧ b.base = fld j.desc 16 8 ∧ b.part = j.part ∧ b.asid = j.asid
            ∧ b.geos.length = fld j.desc 8 4 ∧ b.prims.length = b.geos.length)

/-- With a slot whose other part runs, or with no other part and an empty stack, and a target block of a resident overlay,
BRA, BRX and RET send their taken lanes there, all of them within the slot, some of them into the other slot or, the other
part being pushed, on top of the divergence stack; with no taken lane they only move on. CALL sends every lane and gives the
link. EXIT drops its lanes, and its last lanes end the cohort. (R45, R298, R299, R309, R310, R311, R313, R337) -/
def Obligations.ControlTransfers : Prop :=
  ∀ (h : Hdr) (s : State), Calm s → Rested s →
    let act := activeMask h false s.cur
    let on := activeMask h true s.cur ≠ 0#32
    let pc := s.cur.pc
    let link := (Pc.mk pc.ovl (pc.blk + 1) 0).toNat
    (∀ (a : Opd) (off : Word) (i : Instr) (t : Pc),
      (i = .bra h off ∧ ∃ b : Nat, (pc.blk : Int) + off.toInt = b ∧ Lands s pc.ovl b ∧ t = Pc.mk pc.ovl b 0)
        ∨ ((i = .brx h a ∧ t.ovl = pc.ovl ∨ i = .ret h a) ∧ Usable s { srcs := [(a, 2)] } ∧ src64 s none a = t.zeroExtend 64
            ∧ t.slot = 0 ∧ Lands s t.ovl t.blk) →
      (act = 0#32 → exec i s = .next (finished h s))
      ∧ (act ≠ 0#32 → act = s.cur.smask ∨ s.cur.other? = none → exec i s = .next (retire h.sc (branched act t s)))
      ∧ (∀ y s1, act ≠ 0#32 → act ≠ s.cur.smask → s.cur.other? = some y → s.cur.c.hm = false → s.cur.c.dstop ≠ s.cur.pl.dsDepth →
          stackStore (s.cur.stackAt s.cur.c.dstop) y s = .ok ((), s1) → s1.cur.c = s.cur.c → s1.slots = s.slots → s1.cur.pl = s.cur.pl →
          exec i s = .next (retire h.sc ((branched act t s1).updC fun c =>
            { c with dstop := c.dstop + 1, stack := (y.pc.ovl, y.mask) :: c.stack }))))
    ∧ (∀ (d a : Opd) (off : Word) (i : Instr) (t : Pc),
      (i = .callRel h d off ∧ Usable s { uni := true, dsts := [(d, 2)] }
          ∧ ∃ b : Nat, (pc.blk : Int) + off.toInt = b ∧ Lands s pc.ovl b ∧ t = Pc.mk pc.ovl b 0)
        ∨ (i = .callInd h d a ∧ Usable s { uni := true, srcs := [(a, 2)], dsts := [(d, 2)] } ∧ src64 s none a = t.zeroExtend 64
            ∧ t.slot = 0 ∧ Lands s t.ovl t.blk) →
      (on → exec i s = .next (retire h.sc (gives (dstN d none 2 link) 0 (some 0) (branched s.cur.smask t s))))
      ∧ (¬ on → exec i s = .next (finished h s)))
    ∧ (act = 0#32 → exec (.exit h) s = .next (finished h s))
    ∧ (act ≠ 0#32 → (s.cur.slotLanes ||| s.cur.stackLanes) &&& ~~~act ≠ 0#32 →
      (s.cur.smask &&& ~~~act ≠ 0#32 → exec (.exit h) s = .next (retire h.sc ((advancePc s).updCur fun c =>
        c.setPart (c.part?.map fun p => { p with mask := s.cur.smask &&& ~~~act }))))
      ∧ (s.cur.smask &&& ~~~act = 0#32 → s.cur.c.dstop = 0 →
          exec (.exit h) s = .next (retire h.sc (s.updCur fun c => c.setPart none))))
    ∧ (act ≠ 0#32 → (s.cur.slotLanes ||| s.cur.stackLanes) &&& ~~~act = 0#32 → ownLogged s = false → owed s s.cur.pl.id = false →
      s.cur.x.inv = none →
      deliverFault (ownTiles s) s = .ok ((), s) →
      Answers (exec (.exit h) s) fun t => t.cur.c.ending = some 0 ∧ t.cur.c.a = none ∧ t.cur.c.b = none ∧ t.cur.c.stack = []
        ∧ t.cur.r = s.cur.r ∧ t.others = s.others)


/-- JOIN puts its whole slot into WAIT at its target, whatever its guard, and the rules follow; with no other part and an
empty stack it jumps. The rules merge two parts that wait at one PC into SLOT-A, make both run when none does and the stack
is empty, pop the top entry into an EMPTY slot or merge it with the part that waits at its PC, exchange a running top entry
with SLOT-B, and make both run when the top entry waits elsewhere; a malformed entry ends in the trap 0x31, detail 4. NOP
only moves on, YIELD marks the slots as just used, SLEEP and TIMEWAIT park until their time, or go on when it has come;
parkExpiry ends a park whose time has come and no other. IDEM records its PC, slots and DSTOP in place of an open region,
IDEM.close closes it. (R298, R299, R312, R314, R315) -/
def Obligations.SlotsWaitAndPark : Prop :=
  (∀ (h : Hdr) (s : State), Calm s →
    (∀ (off : Word) (b : Nat) (x : PcPart), s.cur.part? = some x → (s.cur.pc.blk : Int) + off.toInt = b → Lands s s.cur.pc.ovl b →
      let t := Pc.mk s.cur.pc.ovl b 0
      (∀ s', settle s.cur.pc s.cur.smask (s.updCur fun c => c.setPart (some ⟨false, t, x.mask, false⟩)) = .ok ((), s') →
        exec (.join h off) s = .next (retire h.sc s'))
      ∧ (s.cur.other? = none → s.cur.c.dstop = 0 → s.cur.c.stackTrap = none →
        exec (.join h off) s = .next (retire h.sc (s.updCur fun c => c.setPart (some ⟨true, t, x.mask, false⟩)))))
    ∧ exec (.nop h) s = .next (finished h s)
    ∧ (activeMask h true s.cur ≠ 0#32 →
      let yielded := s.updC fun c => { c with last := c.last.map fun _ => s.m.cycle, runs := c.runs.map fun _ => 0, hold := true }
      let parked := fun t z => s.updC fun c => { c with park := some t, sleeping := z, hold := true }
      exec (.yield h) s = .next (finished h yielded)
      ∧ (∀ a, Usable s { uni := true, srcs := [(a, 1)] } → exec (.sleep h a) s = .next (finished h
          (if src32 s none a = 0#32 then yielded else parked (s.m.time + (src32 s none a).toNat) true)))
      ∧ (∀ a, Usable s { uni := true, srcs := [(a, 2)] } → exec (.timewait h a) s = .next (finished h
          (if s.m.time < (src64 s none a).toNat then parked (src64 s none a).toNat false else s)))
      ∧ exec (.idem h) s = .next (finished h (s.updC fun c =>
          { c with idem := some ⟨s.cur.pc, c.a, c.b, c.dstop, [], [], false, 0, false⟩ }))
      ∧ ∀ r, exec (.idemClose h) (s.updC fun c => { c with idem := r }) = .next (finished h s)))
  ∧ (∀ (id : Nat) (s : State) (t : Nat), s.cur.resident = true → s.cur.pl.id = id → s.cur.c.park = some t →
      Answers (exec (.parkExpiry id) s) fun u => u.cur.r = s.cur.r ∧ u.m = s.m
        ∧ u.cur.c.park = if t ≤ s.m.time then none else some t)
  ∧ ∀ (pc : Pc) (lanes : Mask) (s : State), s.cur.c.stackTrap = none →
    let slots := fun (a b : Option PcPart) (t : State) => t.updC fun c => { c with a := a, b := b }
    let top := s.cur.stackAt (s.cur.c.dstop - 1)
    let run := fun (p : PcPart) => { p with run := true }
    (∀ a b, s.cur.c.a = some a → s.cur.c.b = some b →
      (a.run = true ∨ b.run = true → settle pc lanes s = .ok ((), s))
      ∧ (a.run = false → b.run = false → s.cur.c.dstop = 0 → settle pc lanes s = .ok ((), if a.pc = b.pc
          then slots (some ⟨true, a.pc, a.mask ||| b.mask, false⟩) none s else slots (some (run a)) (some (run b)) s))
      ∧ (∀ bs s1, a.run = false → b.run = false → a.pc ≠ b.pc → s.cur.c.dstop ≠ 0 → stackLoad top s = .ok (bs, s1) →
          s1.cur.c = s.cur.c →
          (∀ e s2, entryPart bs = some e → e.run = true → e.mask &&& s.cur.slotLanes = 0#32 →
            stackStore top b s1 = .ok ((), s2) → s2.cur.c = s.cur.c →
            settle pc lanes s = .ok ((), (slots (some a) (some e) s2).updC fun c =>
              { c with stack := (b.pc.ovl, b.mask) :: c.stack.drop 1 }))
          ∧ (fld bs 5 1 = 2 → fld bs 0 5 ≠ a.pc.toNat → fld bs 0 5 ≠ b.pc.toNat →
            settle pc lanes s = .ok ((), slots (some (run a)) (some (run b)) s1))))
    ∧ (∀ o bs s1 e, s.cur.c.dstop ≠ 0 → stackLoad top s = .ok (bs, s1) → s1.cur.c = s.cur.c → entryPart bs = some e →
        e.mask &&& s.cur.slotLanes = 0#32 →
        let popped := s1.updC fun c => { c with dstop := c.dstop - 1, stack := c.stack.drop 1, idem := c.idem.filter fun i =>
          i.dstop ≤ c.dstop - 1 }
        (s.cur.c.a = some o → s.cur.c.b = none → e.run = true ∨ o.run = true →
          settle pc lanes s = .ok ((), slots (some o) (some e) popped))
        ∧ (s.cur.c.a = none → s.cur.c.b = some o → e.run = true ∨ o.run = true →
          settle pc lanes s = .ok ((), slots (some e) (some o) popped))
        ∧ (s.cur.c.a = some o ∧ s.cur.c.b = none ∨ s.cur.c.a = none ∧ s.cur.c.b = some o → e.run = false → o.run = false →
          e.pc = o.pc → s.cur.c.dstop = 1 →
          settle pc lanes s = .ok ((), slots (some ⟨true, e.pc, o.mask ||| e.mask, false⟩) none popped)))
    ∧ ∀ bs s1, s.cur.c.a = none ∨ s.cur.c.b = none → s.cur.c.dstop ≠ 0 → stackLoad top s = .ok (bs, s1) →
        s1.cur = s.cur → entryPart bs = none →
        settle pc lanes s = .error (.late (lateRec s.cur Cause.unrecoverable 4 pc lanes top) s1)

/-- At a barrier word of the machine, with nothing of the cohort on its way for a release, BARINIT of a nonzero count arms
the word and tags it, and traps when the count is 0 or the live word is in use. BARARV counts at a live ARMED word, gives the
token and the role, and completes the phase and wakes the waiters with the last arrival; it does not count at another word
and traps on an index that is out of range of a DET word. BARWAIT suspends while the word is live, ARMED and in its phase,
and gives whether the phase has moved on, or the answer with which it was woken, whatever became of the word since. BARSYNC
arrives once and waits. BARINV makes a live word INVALID and wakes its
waiters, .free also takes its tag; BARQRY gives the word. A word that was written is the word that is read. (R316, R317,
R318, R319, R320, R321, R322, R323, R324) -/
def Obligations.BarrierInstructions : Prop :=
  (∀ (core pa : Nat) (w : BarWord) (s : State), barAt (putBar core pa w s) pa = w
    ∧ (setTag core pa s).live pa = true ∧ (clearTag pa s).live pa = false)
  ∧ ∀ (h : Hdr) (m : BMod) (d a b c : Opd) (s s1 : State) (pa : Nat), Calm s → activeMask h true s.cur ≠ 0#32 →
    barPlace m a s = .ok (pa, s1) → s1.cur.c = s.cur.c → s1.cur.pl = s.cur.pl → s1.cur.resident = true →
    let core := s.cur.pl.core
    let n := if m.space = .glob then 2 else 1
    let acts := fun (rel : Bool) (srcs dsts : List (Opd × Nat)) =>
      Usable s { uni := true, srcs := srcs, dsts := dsts, lates := if rel then latesRel else [], opnd := 1 }
        ∧ (rel = true → Quiet m.scope s1)
    let s2 := released m.scope s1
    let w := barAt s2 pa
    let counts := s2.live pa = true ∧ w.st = 1#2
    let ix := src32 s2 none b
    let outside := w.det = true ∧ w.expected.toNat ≤ ix.toNat
    let role := if w.det then decide (ix = w.expected - 1) else decide (w.arrived + 1 = w.expected)
    let traps := fun (t : Trap) => Host.Outcome.next ((takeTrap t s.cur.smask s2).tick 1)
    (∀ det, acts true [(a, n), (b, 1)] [] →
      (ix = 0#32 → exec (.barinit h m det a b) s = traps { accessT 0 with opnd := 2 })
      ∧ (ix ≠ 0#32 → s2.live pa = true → w.arrived ≠ 0#32 ∨ w.waiting = true →
        exec (.barinit h m det a b) s = traps { cause := Cause.barBusy, opnd := 1 })
      ∧ (ix ≠ 0#32 → s2.live pa = true → w.arrived = 0#32 ∧ w.waiting = false →
        exec (.barinit h m det a b) s = .next (finished h
          (setTag core pa (putBar core pa ⟨0#32, 1#2, det || s.cur.pl.det, false, ix, 0#32⟩ s2))))
      ∧ (ix ≠ 0#32 → s2.live pa = false →
        exec (.barinit h m det a b) s = .next (finished h
          (setTag core pa (putBar core pa ⟨0#32, 1#2, det || s.cur.pl.det, false, ix, 0#32⟩ s2)))))
    ∧ (acts true [(a, n), (b, 1)] [(d, 1), (c, 1)] →
      (¬ counts → exec (.bararv h m d a b c) s = .next (finished h
          (gives (dst32 d none (if s2.live pa then w.phase else 0#32) ++ dstP c none false) 0 (some 0) s2)))
      ∧ (counts → outside → exec (.bararv h m d a b c) s = traps { cause := Cause.barIndex, opnd := 2 })
      ∧ (counts → ¬ outside → exec (.bararv h m d a b c) s = .next (finished h
          (gives (dst32 d none w.phase ++ dstP c none role) 0 (some 0) (arrived core pa s2)))))
    ∧ (acts false [(a, n), (b, 1)] [(d, 1)] →
      (∀ ok, s.cur.c.barAt = none → s.cur.c.barEnd = some ok → exec (.barwait h m d a b) s = .next (finished h
        (gives (dstP d none ok) 0 (some 0) (if ok then acquire m.scope s else s))))
      ∧ ∀ p t, s.cur.c.barEnd = none → s.cur.c.barAt = some p ∧ t = s ∨ s.cur.c.barAt = none ∧ p = pa ∧ t = s1 →
        let w := barAt t p
        let still := t.live p = true ∧ w.st = 1#2 ∧ w.phase = src32 t none b
        let moved := t.live p = true ∧ w.st = 1#2 ∧ w.phase ≠ src32 t none b
        (still → exec (.barwait h m d a b) s = .next (park .barrier
          ((putBar core p { w with waiting := true } t).updC fun c => { c with barAt := some p, stage := .start })))
        ∧ (moved → exec (.barwait h m d a b) s = .next (finished h (gives (dstP d none true) 0 (some 0) (acquire m.scope t))))
        ∧ (¬ still → ¬ moved → exec (.barwait h m d a b) s = .next (finished h (gives (dstP d none false) 0 (some 0) t))))
    ∧ (acts true [(a, n), (b, 1)] [(d, 1), (c, 1)] →
      (s.cur.c.stage = .start → s.cur.c.barAt = none → s.cur.c.barEnd = none →
        (¬ counts → exec (.barsync h m d a b c) s = .next (finished h
            (gives (dstP d none false ++ dstP c none false) 0 (some 0) s2)))
        ∧ (counts → outside → exec (.barsync h m d a b c) s = traps { cause := Cause.barIndex, opnd := 2 })
        ∧ (counts → ¬ outside → w.arrived + 1 = w.expected → exec (.barsync h m d a b c) s = .next (finished h
            (gives (dstP d none true ++ dstP c none role) 0 (some 0) (acquire m.scope (arrived core pa s2)))))
        ∧ (counts → ¬ outside → w.arrived + 1 ≠ w.expected → exec (.barsync h m d a b c) s = .next (park .barrier
            ((putBar core pa { w with arrived := w.arrived + 1, waiting := true } (arrived core pa s2)).updC fun c =>
              { c with barAt := some pa, stage := .arrived w.phase role }))))
      ∧ (∀ token won, s.cur.c.stage = .arrived token won →
          (∀ ok, s.cur.c.barAt = none → s.cur.c.barEnd = some ok → exec (.barsync h m d a b c) s = .next (finished h
            (gives (dstP d none ok ++ dstP c none (ok && won)) 0 (some 0) (if ok then acquire m.scope s else s))))
          ∧ ∀ p t, s.cur.c.barEnd = none → s.cur.c.barAt = some p ∧ t = s ∨ s.cur.c.barAt = none ∧ p = pa ∧ t = s1 →
            t.live p = true → (barAt t p).st = 1#2 → (barAt t p).phase ≠ token →
            exec (.barsync h m d a b c) s = .next (finished h
              (gives (dstP d none true ++ dstP c none won) 0 (some 0) (acquire m.scope t)))))
    ∧ (acts true [(a, n)] [] →
      let gone := woken pa false (putBar core pa { w with st := 2#2, arrived := 0#32, waiting := false } s2)
      (s2.live pa = true → exec (.barinv h m a) s = .next (finished h gone)
        ∧ exec (.barinvFree h m a) s = .next (finished h (clearTag pa gone)))
      ∧ (s2.live pa = false → exec (.barinv h m a) s = .next (finished h s2)
        ∧ exec (.barinvFree h m a) s = .next (finished h s2)))
    ∧ (acts false [(a, n)] [(d, 4)] → exec (.barqry h m d a) s = .next (finished h
        (gives (dstN d none 4 (if s1.live pa then leNat (s1.bytes pa 16) else 0)) 0 (some 0) s1)))

/-- Once the catalogue is read, OVLD gives the token of the slot that holds the overlay, 0 for one that is EVICT-PENDING, or
a new LOADING slot's when there is room and 0 when there is none, and traps for an overlay that is not registered. OVWAIT of
a token that is not LOADING says whether it is RESIDENT. OVPIN counts a loading or resident slot up to 255, OVUNPIN down from
1. OVEVICT refuses a pinned slot and frees the others, later when they are referenced or LOADING. CALLO transfers the slot to
an ENTRY block of a resident overlay with the link, and waits for a LOADING one. A load makes its slot RESIDENT with the
image's blocks, or FAILED, and then each transfer that waits for it traps; a waiting transfer has its overlay loaded again. (R311, R327, R328, R329, R330, R331, R332, R333,
R334, R335, R336, R337) -/
def Obligations.OverlayInstructions : Prop :=
  (∀ (h : Hdr) (d a b : Opd) (s : State), Calm s → activeMask h true s.cur ≠ 0#32 →
    let n := (src32 s none a).toNat
    let p := s.cur.pl
    let t := src32 s none a
    let gave := fun (ws : List Wr) (s : State) => Host.Outcome.next (finished h (gives ws 0 (some 0) s))
    (∀ r s1, Usable s { uni := true, srcs := [(a, 1)], dsts := [(d, 1)] } → cohortDesc n s = .ok (r, s1) → s1.cur.c = s.cur.c →
      s1.cur.pl = p →
      (r = none → exec (.ovld h d a) s = .next ((takeTrap { cause := Cause.ovUnregistered } s.cur.smask s1).tick 1))
      ∧ (∀ ds o, r = some ds → Drained s1 → slotOf s1 p.core p.part p.asid n = some o → o.st ≠ .failed ∨ o.evict = true →
        exec (.ovld h d a) s = gave (dst32 d none (if o.evict then 0#32 else tokenOf o)) s1)
      ∧ (∀ ds, r = some ds → Drained s1 → (∀ o, slotOf s1 p.core p.part p.asid n = some o → o.st = .failed ∧ o.evict = false) →
        (allocSlot p.core p.part p.asid n ds s1 = none → exec (.ovld h d a) s = gave (dst32 d none 0#32) s1)
        ∧ ∀ o s2, allocSlot p.core p.part p.asid n ds s1 = some (o, s2) →
            exec (.ovld h d a) s = gave (dst32 d none (tokenOf o)) s2
            ∧ o ∈ s2.slots ∧ o.st = .loading ∧ o.ovl = n ∧ o.core = p.core ∧ o.part = p.part ∧ o.asid = p.asid ∧ o.nblk = ds.nblk
            ∧ o.image = ds.image ∧ o.pins = 0))
    ∧ (Usable s { uni := true, srcs := [(a, 1)], dsts := [(d, 1)] } →
      (currentSlot s t = none → exec (.ovwait h d a) s = gave (dstP d none false) s
        ∧ exec (.ovpin h d a) s = gave (dstP d none false) s ∧ exec (.ovunpin h d a) s = gave (dstP d none false) s
        ∧ exec (.ovevict h d a) s = gave (dstP d none true) s)
      ∧ ∀ o, currentSlot s t = some o →
        (o.st ≠ .loading → exec (.ovwait h d a) s = gave (dstP d none (o.st == .resident)) s)
        ∧ ((o.st = .loading ∨ o.st = .resident) ∧ o.pins < 255 → exec (.ovpin h d a) s = gave (dstP d none true)
            (updSlot o (fun x => { x with pins := o.pins + 1 }) s))
        ∧ (¬ ((o.st = .loading ∨ o.st = .resident) ∧ o.pins < 255) → exec (.ovpin h d a) s = gave (dstP d none false) s)
        ∧ (o.pins ≠ 0 → exec (.ovunpin h d a) s = gave (dstP d none true) (updSlot o (fun x => { x with pins := o.pins - 1 }) s)
            ∧ exec (.ovevict h d a) s = gave (dstP d none false) s)
        ∧ (o.pins = 0 → exec (.ovunpin h d a) s = gave (dstP d none false) s
            ∧ (refCount s o = 0 ∧ o.st ≠ .loading → exec (.ovevict h d a) s = gave (dstP d none true) (freeSlot o s))
            ∧ (¬ (refCount s o = 0 ∧ o.st ≠ .loading) →
              exec (.ovevict h d a) s = gave (dstP d none true) (updSlot o (fun x => { x with evict := true }) s))))
    ∧ (∀ ds s1 o, Usable s { uni := true, srcs := [(a, 1), (b, 1)], dsts := [(d, 2)] } → Rested s →
      let blk := (src32 s none b).toNat
      cohortDesc n s = .ok (some ds, s1) → s1.cur.c = s.cur.c → s1.cur.pl = p → blk < ds.nblk →
      slotOf s1 p.core p.part p.asid n = some o →
      (∀ x, o.st = .resident → o.evict = false ∨ refsOv s.cur n = true → blk < 8192 →
        blockAt? s1 p.core p.part p.asid (Pc.mk n blk 0) = some x → blkEntry x = true →
        exec (.callo h d a b) s = .next (retire h.sc (gives (dstN d none 2 (Pc.mk s.cur.pc.ovl (s.cur.pc.blk + 1) 0).toNat) 0 (some 0)
          (branched s.cur.smask (Pc.mk n blk 0) s1))))
      ∧ (o.st = .loading → exec (.callo h d a b) s = .next (park (.overlay n)
          (s1.updC fun c => { c with stage := .ovl n s1.m.cycle none (s.cur.part?.map (PcPart.advance s s.cur)) })))))
  ∧ (∀ (s s1 : State) (o : OvSlot) (bs : List Byte), (∀ x ∈ s.slots, x.evict = false) → s1.slots = s.slots →
      s.slots.find? (fun x => x.core == o.core && x.ix == o.ix && x.st == .loading) = some o →
      let read := (⟨o.part, o.asid, privOf s o.part o.asid, o.seq, some o.core, none, none⟩ : Agent).read o.image (64 * o.nblk) .ovl s
      (read = .ok (bs, s1) → exec (.overlayLoad o.core o.ix) s = .next (State.wake (updSlot o (fun x =>
          { x with st := SlotSt.resident, blocks := (List.range o.nblk).map fun k => BitVec.ofNat 512 (leNat ((bs.drop (64 * k)).take 64)) }) s1)))
      ∧ (∀ d a, read = .error (.bad d a) →
        exec (.overlayLoad o.core o.ix) s = .next (State.wake (failLoad o s))))
  ∧ (∀ (s : State) (o : OvSlot) (since : Nat) (i : Option Instr) (nx : Option PcPart), s.cur.resident = true →
      s.cur.c.stage = .ovl o.ovl since i nx → o.core = s.cur.pl.core → o.part = s.cur.pl.part → o.asid = s.cur.pl.asid →
      let t := failLoad o s
      t.cur.c.ovFail = true ∧ (∀ x ∈ s.slots, isSlot o x = true → { x with st := SlotSt.failed } ∈ t.slots)
      ∧ ((∀ x, slotOf t o.core o.part o.asid o.ovl = some x → x.st ≠ .resident) →
          wantOverlay o.ovl nx t = .error (.trap { cause := Cause.ovLoad } (t.updC fun c => { c with ovFail := false }))))
  ∧ ∀ (s s1 s2 : State) (n since : Nat) (i : Option Instr) (nx : Option PcPart) (ds : OvDesc) (o : OvSlot),
      let p := s.cur.pl
      s.cur.resident = true → s.cur.c.stage = .ovl n since i nx → s.cur.c.ovFail = false → slotOf s p.core p.part p.asid n = none →
      cohortDesc n s = .ok (some ds, s1) → s1.cur = s.cur → Drained s1 →
      granulesOf s1 (fun o => o.core == p.core && o.part == p.part && o.asid == p.asid && o.traph == ds.traph && o.pins != 0)
        + granules ds.nblk ≤ ovShare s1 p.part p.asid ds.traph →
      allocSlot p.core p.part p.asid n ds s1 = some (o, s2) →
      Answers (exec (.overlayTransferRetry p.id) s) fun t => o ∈ t.slots ∧ o.st = .loading ∧ t.cur.c.stage = s.cur.c.stage
        ∧ t.cur.r = s.cur.r

/-- In an invocation with an edge of the number in B, EMIT gives each active lane the next record slot of the edge's
reservation while the edge allows it and traps otherwise; RESERVE gives how many it still allows, RESERVE.drop ends it and
gives the unused pages back. EMIT.q to a ready device queue of the tenant, after the release, copies the entry, raises TAIL
and gives true, or gives false for a full or stopped ring. NODEEND publishes the records, consumes the inputs and ends the
cohort. A launched invocation is a cohort with its records' registers and lanes, its pages reserved and its records taken. A
fixed node turns a record into its copy, ray or job. (R301, R302, R303, R349, R350, R351, R352) -/
def Obligations.WorkGraphInstructions : Prop :=
  (∀ (h : Hdr) (d a b : Opd) (s : State), Calm s →
    let act := activeMask h false s.cur
    let on := activeMask h true s.cur ≠ 0#32
    let e := (src32 s none b).toNat
    (∀ l g i t self mx, OnEdge s e l g i t self mx →
      let made := (i.emitted.filter fun r => r.edge == e).length
      let lanes := (List.range act.lanes.length).zip act.lanes
      let at_ := fun j => slotAddr i e t (made + j)
      let holds := (i.pages.filter fun p => p.1 == e).map (·.2)
      let used := holds.take (ceilDiv made (4096 / max 1 t.recsz))
      let back := (i.pages.filter fun p => p.1 == e && !used.contains p.2).map (·.2)
      (Usable s { srcs := [(.none, 0), (b, 1)], dsts := [(d, 2)] } →
        (act = 0#32 → exec (.emit h d b) s = .next (finished h s))
        ∧ (act ≠ 0#32 → made + act.lanes.length ≤ mx → exec (.emit h d b) s = .next (finished h
            (gives (lanes.flatMap fun (j, k) => dstN d (some k) 2 (at_ j)) 0 (some 0) (s.updX fun x => { x with inv := some { i with
              emitted := i.emitted ++ lanes.map fun (j, _) => ⟨e, at_ j, if self then i.depth + 1 else 0⟩ } }))))
        ∧ (act ≠ 0#32 → mx < made + act.lanes.length →
            exec (.emit h d b) s = .next ((takeTrap { cause := Cause.emission } act s).tick 1)))
      ∧ (on → Usable s { uni := true, srcs := [(b, 1)], dsts := [(d, 1)] } →
        exec (.reserve h d b) s = .next (finished h (gives (dst32 d none (BitVec.ofNat 32 (mx - made))) 0 (some 4) s)))
      ∧ (on → Usable s { uni := true, srcs := [(b, 1)] } → exec (.reserveDrop h b) s = .next (finished h
          ((s.updX fun x => { x with inv := some { i with
              pages := i.pages.filter fun p => !(p.1 == e && back.contains p.2)
              dropped := if e ∈ i.dropped then i.dropped else i.dropped ++ [e] } }).updGraph l.id fun g => { g with free := g.free ++ back })))
      ∧ (∀ k, k < 4096 / max 1 t.recsz → slotAddr i e t k = nth holds 0 0 + t.recsz * k))
    ∧ (on → Usable s { uni := true, srcs := [(a, 2), (b, 1)], dsts := [(d, 1)], lates := latesRel, opnd := 1 } →
      let q := queueDesc s e
      let src := (src64 s none a).toNat
      s.cur.x.gen = none → e < 65536 → q.en = true → q.prod = true → q.asid = s.cur.pl.asid → q.part = s.cur.pl.part → src % 64 = 0 →
      Quiet .sys s → ∀ head tail st s2, let ag := agentOf s.cur (s.cur.pl.id * 2 ^ 24 + 8)
        ringHead ag q (released .sys s) = .ok ((head, tail, st), s2) → s2.cur.c = s.cur.c →
        (st ≠ 0 ∨ ringCount head tail = q.size →
          exec (.emitQ h d a b) s = .next (finished h (gives (dstP d none false) 0 (some 0) s2)))
        ∧ ∀ bs s3 s4 s5, st = 0 → ringCount head tail ≠ q.size → ag.read src 64 .load s2 = .ok (bs, s3) →
            ag.write (q.at_ tail) bs s3 = .ok ((), s4) → ag.write (q.base + 4) (leBytes 4 (tail + 1)) s4 = .ok ((), s5) →
            s5.cur.c = s.cur.c → exec (.emitQ h d a b) s = .next (finished h (gives (dstP d none true) 0 (some 0) s5)))
    ∧ (on → ∀ l g i, s.cur.x.inv = some i → s.cur.pl.launch = some l.id → s.launch? l.id = some l → l.graph = some g → Quiet .dev s →
      s.cur.pl.id ≠ 0 → deliverFault (ownTiles s) (released .dev s) = .ok ((), released .dev s) →
      Answers (exec (.nodeend h) s) fun t => t.cur.c.ending = some 0 ∧ t.cur.c.a = none ∧ t.cur.c.b = none ∧ t.cur.x.inv = none
        ∧ ∃ l' g', t.launch? l.id = some l' ∧ l'.graph = some g' ∧ g'.running = g.running - 1 ∧ g'.nodes = g.nodes
          ∧ g'.recs = g.recs ++ ((List.range i.emitted.length).zip i.emitted).map fun (k, r) =>
              ⟨(nth (nth g.nodes i.node GNode.zero).edges r.edge (0, 0)).1, r.addr, r.depth, i.index + 1, k⟩))
  ∧ (∀ (s : State) (l : Launch) (g : Graph) (node core slotIx base sp : Nat) (r : GRec) (rs : List GRec) (z : Map Nat) (f : List Nat),
      s.launch? l.id = some l → l.graph = some g → batchOf l.rc.det s.pick g node = r :: rs →
      let n := nth g.nodes node GNode.zero
      let need := reservation g.nodes node r.depth
      n.kind = 0 → need = 0 ∨ need + largestRes g.nodes ≤ g.free.length ∨ need ≤ g.free.length ∧ g.level node = deepest g →
      s.m.stopped = false → moduleIx s l.rc ≠ none → (∀ x ∈ s.saved, x.launch ≠ l.id) → outranked s l core = false →
      (∀ c ∈ s.cohorts, ¬ (c.pl.core = core ∧ c.pl.slotIx = slotIx)) → slotIx < 64 → slotIx % 8 < slotCap (slotIx / 8) → l.halted = false →
      coreOf s l.part core = true → l.rc.start ≤ s.m.time → (l.rc.det = true → producersEnded s l g node r = true) →
      ovFits s core l.part l.asid (n.entry.ovl :: l.rc.ovlreq) = true →
      firstFit (rowCap (slotIx / 8)) l.rc.vregs (rowsUsed s.cohorts core (slotIx / 8)) = some base →
      firstFit spCap l.rc.spad (spUsed s core) = some sp →
      bindTiles s l s.cohorts (core / 4) g.nextInv (List.range l.rc.zcount) (freeTiles s (core / 4)) = some (z, f) →
      Answers (exec (.invocationLaunch l.id node core slotIx) s) fun t =>
        (∃ c ∈ t.cohorts, c.pl.id = s.ids ∧ c.pl.core = core ∧ c.pl.slotIx = slotIx ∧ c.pl.launch = some l.id ∧ c.r.z = z
          ∧ c.c.a = some ⟨true, n.entry, BitVec.ofNat 32 (2 ^ (rs.length + 1) - 1), false⟩ ∧ c.c.b = none ∧ c.c.needEntry = true
          ∧ c.r.rdS 0 = BitVec.ofNat 32 r.addr ∧ c.r.rdS 1 = BitVec.ofNat 32 (r.addr / 2 ^ 32)
          ∧ c.r.rdS 2 = BitVec.ofNat 32 (rs.length + 1) ∧ c.r.rdS 3 = BitVec.ofNat 32 r.depth ∧ c.r.rdS 4 = BitVec.ofNat 32 node
          ∧ ∃ i, c.x.inv = some i ∧ i.node = node ∧ i.depth = r.depth ∧ i.inputs = (r :: rs).map (·.addr) ∧ i.emitted = []
            ∧ i.pages.map (·.2) = g.free.take need)
        ∧ ∃ l' g', t.launch? l.id = some l' ∧ l'.graph = some g' ∧ g'.free = g.free.drop need ∧ g'.running = g.running + 1
          ∧ g'.nextInv = g.nextInv + 1 ∧ g'.recs = g.recs.filter fun x => !(r :: rs).contains x)
  ∧ ∀ (s : State) (l : Launch) (g : Graph) (node : Nat) (r : GRec), s.launch? l.id = some l → l.graph = some g → l.halted = false →
      moduleIx s l.rc ≠ none → l.rc.start ≤ s.m.time →
      let mine := g.recs.filter fun x => x.node == node
      let kind := (nth g.nodes node GNode.zero).kind
      mine[Config.batchPick s.pick % max 1 mine.length]? = some r →
      let ag : Agent := ⟨l.part, l.asid, privOf s l.part l.asid, 2 ^ 65 + r.addr, none, none, none⟩
      let s0 := s.draw.2
      let taken := fun (t : State) => ∃ l' g', t.launch? l.id = some l' ∧ l'.graph = some g' ∧ g'.recs = g.recs.filter (fun x => x != r)
        ∧ g'.running = g.running + 1
      (kind = 1 → Answers (exec (.fixedNodeConsume l.id node) s) fun t => taken t ∧ ∃ c : Copy, t.copies = s.copies ++ [c]
          ∧ c.kind = .chain r.addr ∧ c.node = some (l.id, r.addr) ∧ c.part = l.part ∧ c.asid = l.asid)
      ∧ (∀ bs s1, kind = 2 → (s.rays.filter fun x => x.quad == nodeCore s l.part / 4).length < 2048 → ag.read r.addr 64 .load s0 = .ok (bs, s1) →
          s1.launches = s.launches → Answers (exec (.fixedNodeConsume l.id node) s) fun t => taken t ∧ ∃ y : Ray, t.rays = s1.rays ++ [y]
            ∧ y.ray = (List.range 8).map (fun k => BitVec.ofNat 32 (fld bs (4 * k) 4)) ∧ y.base = fld bs 32 8 ∧ y.out = some (fld bs 56 8)
            ∧ y.recAddr = r.addr ∧ y.flags = BitVec.ofNat 5 (fld bs 52 4) ∧ y.n = BitVec.ofNat 32 (fld bs 48 4))
      ∧ ∀ bs s1, kind = 3 → ag.read r.addr 64 .load s0 = .ok (bs, s1) → s1.launches = s.launches → cdescOk s1 l.part l.asid bs = true →
          (s1.jobs.filter fun j => j.die == jobDie s1 bs).length < 1024 →
          Answers (exec (.fixedNodeConsume l.id node) s) fun t => taken t ∧ ∃ j : Job, t.jobs = s1.jobs ++ [j] ∧ j.desc = bs ∧ j.cohort = 0
            ∧ j.launch = some l.id ∧ j.build = false ∧ j.recAddr = r.addr

/-- A request for an EMPTY block makes it PENDING with a fill entry of depth 0, a request for another block changes nothing.
A generator starts in a free reserved slot with the registers and the place of its block; a range without a generator overlay
fails with 0xF2. FILLDONE and FILLFAIL of a generator, after the release, end the fill and the cohort, elsewhere they take an
access trap. Zero fill and LZ4 write the block's bytes and end the fill, or end it with 0xF5 or 0xF6. The end of a fill makes
the block FILLED or FAILED, changes no other block of its map byte and wakes every waiter. FILLQRY gives the state of the
block with PROC and MINE, or 2. (R339, R340, R341, R342, R343, R345, R346, R347) -/
def Obligations.FillInstructionsAndEvents : Prop :=
  (∀ (h : Hdr) (acq : Bool) (d a : Opd) (s : State), Calm s → activeMask h true s.cur ≠ 0#32 →
    let p := s.cur.pl
    let trapped := Host.Outcome.next ((takeTrap (accessT 0) s.cur.smask s).tick 1)
    (s.cur.x.gen = none → exec (.filldone h) s = trapped
      ∧ (Usable s { uni := true, srcs := [(a, 1)], lates := latesRel } → exec (.fillfail h a) s = trapped))
    ∧ (∀ g, s.cur.x.gen = some g → Quiet .dev s →
      exec (.filldone h) s = .next (retire h.sc (endLanes 0 (endFill g.fill none (released .dev s))))
      ∧ (Usable s { uni := true, srcs := [(a, 1)], lates := latesRel } → exec (.fillfail h a) s = .next (retire h.sc
          (endLanes 0 (endFill g.fill (some (min ((src32 s none a).toNat % 256) 0xEF, 0xFFFFFFFF)) (released .dev s))))))
    ∧ (∀ t, Usable s { uni := true, srcs := [(a, 2)], dsts := [(d, 1)], opnd := 1 } →
      xlateLane s s.cur none .query (src64 s none a).toNat = .ok t →
      let gave := fun (filled : Bool) (x : Nat) => Host.Outcome.next (finished h (gives (dst32 d none (BitVec.ofNat 32 x)) 0 (some 0)
        (if acq && filled then acquire .dev (noteUse none .query t s) else noteUse none .query t s)))
      (Pte.proc t.pte = false ∨ rangeFor s p.part p.asid t.va = none → exec (.fillqry h acq d a) s = gave true 2)
      ∧ ∀ r st, Pte.proc t.pte = true → rangeFor s p.part p.asid t.va = some r → mapBusy s p.part p.asid r (r.blockOf t.va) = false →
          blkState s p.part r (r.blockOf t.va) = some st →
          exec (.fillqry h acq d a) s = gave (st == 2) (st + 4 + (match s.cur.x.gen with
            | some g => if g.asid = p.asid ∧ g.range = r.ix ∧ g.block = r.blockOf t.va then 8 else 0
            | none => 0))))
  ∧ (∀ (s : State) (f : Fill) (r : Range) (t : Tr) (e : Option (Nat × Nat)), s.fills.find? (fun x => x.id == f.id) = some f →
      rangeIx? s f.part f.asid f.range = some r → mapBusy s f.part f.asid r f.block = false → mapTr s f.part r f.block .store = some t →
      let u := endFill f.id e s
      let bits := fun (v : State) k => (v.byte t.pa).toNat / 4 ^ k % 4
      u.fills = s.fills.filter (fun x => x.id != f.id) ∧ (∀ c ∈ u.cohorts, c.c.onFill ≠ some f.id)
        ∧ bits u (f.block % 4) = (if e.isNone then 2 else 3) ∧ ∀ k, k < 4 → k ≠ f.block % 4 → bits u k = bits s k)
  ∧ (∀ (s : State) (part asid : Nat) (va : Dword) (r : Range) (t w : Tr) (st : Nat), rangeFor s part asid (va.toNat % 2 ^ 57) = some r →
      let blk := r.blockOf (va.toNat % 2 ^ 57)
      blkState s part r blk = some st → mapBusy s part asid r blk = false →
      (st ≠ 0 → exec (.fillRequest part asid va) s = .next s.wake)
      ∧ (st = 0 → mapTr s part r blk .load = some t → mapTr s part r blk .store = some w →
        (s.fills.filter fun f => f.die == Pte.home t.pte).length < 4096 → waiterFree s (Pte.home t.pte) = true →
        Answers (exec (.fillRequest part asid va) s) fun u => (u.byte w.pa).toNat / 4 ^ (blk % 4) % 4 = 1
          ∧ u.fills = s.fills ++ [⟨s.ids, Pte.home t.pte, part, asid, r.owner, r.ix, blk, 0, false, none, r.desc, none⟩]))
  ∧ (∀ (s s1 : State) (f : Fill) (core slotIx : Nat) (ds : Option OvDesc), f.started = false → f.rng.kind = 1 →
      s.fills.find? (fun x => x.id == f.id && !x.started && x.rng.kind == 1) = some f →
      (∀ g ∈ s.fills, g.die = f.die → g.started = false → g.rng.kind = 1 → g.depth ≤ f.depth) →
      (∀ c ∈ s.cohorts, ¬ (c.pl.core = core ∧ c.pl.slotIx = slotIx)) → core / 1024 = f.die → slotIx % 8 = 7 → slotIx < 32 →
      7 - f.depth < freeReserved s f.die →
      readDesc ⟨f.part, f.owner, privOf s f.part f.owner, f.id, none, none, none⟩ f.rng.genovl s = .ok (ds, s1) →
      ((∀ d, ds = some d → d.gen = false) →
        exec (.generatorStart f.id core slotIx) s = .next (State.wake (endFill f.id (some (0xF2, 0xFFFFFFFF)) s1)))
      ∧ ∀ d, ds = some d → d.gen = true → Answers (exec (.generatorStart f.id core slotIx) s) fun t =>
          (∃ x ∈ t.cohorts, x.pl.core = core ∧ x.pl.slotIx = slotIx ∧ x.pl.asid = f.owner ∧ x.pl.prio = 7 ∧ x.pl.dsDepth = 0
            ∧ x.pl.trapOvl = 0 ∧ x.r.vregs = 64 ∧ x.pl.spSize = 0x4000 ∧ x.r.z = [] ∧ x.c.b = none
            ∧ x.c.a = some ⟨true, Pc.mk f.rng.genovl d.genblk 0, Mask.all, false⟩
            ∧ x.x.gen = some { fill := f.id, asid := f.asid, owner := f.owner, range := f.range, block := f.block, depth := f.depth }
            ∧ x.r.rdS 0 = BitVec.ofNat 32 f.va ∧ x.r.rdS 1 = BitVec.ofNat 32 (f.va / 2 ^ 32) ∧ x.r.rdS 2 = BitVec.ofNat 32 f.rng.blklog
            ∧ x.r.rdS 3 = BitVec.ofNat 32 f.depth ∧ x.r.rdS 6 = BitVec.ofNat 32 f.block ∧ x.r.rdS 8 = 0#32)
          ∧ t.fills = s1.fills.map fun x => if x.id == f.id then { x with started := true } else x)
  ∧ ∀ (s : State) (f : Fill), s.fills.find? (fun x => x.id == f.id && x.rng.kind == f.rng.kind && x.done.isNone) = some f →
      let g := builtinAgent s f
      let ended := fun (e : Option Nat) (t : State) => Host.Outcome.next (State.wake (endFill f.id (e.map fun c => (c, 0xFFFFFFFF)) t))
      let zeros := g.write f.va (List.replicate f.rng.size 0#8) s
      (f.rng.kind = 0 → (∀ s1, zeros = .ok ((), s1) → exec (.zeroFill f.id) s = ended none s1)
        ∧ ∀ d a, zeros = .error (.bad d a) → exec (.zeroFill f.id) s = ended (some 0xF6) s)
      ∧ (∀ e s1, f.rng.kind = 2 → g.read (f.rng.srcptr + 16 * f.block) 16 .load s = .ok (e, s1) →
        (fld e 12 4 ≠ 0 → exec (.lz4Fill f.id) s = ended (some 0xF5) s1)
        ∧ ∀ img s2, fld e 12 4 = 0 → g.read (fld e 0 8) (fld e 8 4) .load s1 = .ok (img, s2) →
            let out := lz4 f.rng.size (img.length + 1) img []
            (out = none → exec (.lz4Fill f.id) s = ended (some 0xF5) s2)
            ∧ ∀ bs s3, out = some bs → g.write f.va bs s2 = .ok ((), s3) → exec (.lz4Fill f.id) s = ended none s3)
      ∧ ∀ l : List Byte, l.length < 15 → lz4 l.length (l.length + 2) (BitVec.ofNat 8 (16 * l.length) :: l) [] = some l

/-- CSRR of an assigned register that the cohort may read gives its value after 4 clocks, CSRW of one that it may write takes
the RW bits and clears the W1C bits given as 1 before the next instruction; an unassigned number, a write to a read-only
register and an odd register for a wide value take the illegal-instruction trap, a number from 0x800 of an unprivileged
cohort and a write that BAR0 reserves the privilege trap. A write to DRROUND starts SEQ again; RSVSURF enables an owned
surface that fits with zero records; PWRCTL takes the nearer bound of LIMIT; CARVECTL waits for reservoir work; CQDISC
refuses the parked requests of its sector; a write at a register's offset of BAR0 takes its RW and W1C bits, at another
offset none. The mode of an access to a register that only BAR0 writes is read in the order of R48 (the model's choice, log
21). (R7, R16, R21, R91, R176, R253, R373, R384, R389, R390, R400, R403) -/
def Obligations.ControlRegisters : Prop :=
  (∀ (h : Hdr) (d a b : Opd) (s : State), Calm s → activeMask h true s.cur ≠ 0#32 →
    let n := (src32 s none a).toNat
    let p := s.cur.pl.part
    let trapped := fun c => Host.Outcome.next ((takeTrap { cause := c } s.cur.smask s).tick 1)
    let oddAt := fun (o : Opd) => ∃ r : BitVec 7, o = .s r ∧ r.toNat % 2 = 1
    let reads := Usable s { uni := true, srcs := [(a, 1)], dsts := [(d, 1)] }
    let writes := Usable s { uni := true, srcs := [(a, 1), (b, 1)] }
    let u := s.updC fun c => { c with hold := true }
    let still := ownParked s = false ∧ ownTransit s = false
    let takes := fun (t : State) => still → exec (.csrw h a b) s = .next (finished h t)
    let gave := fun k (v : Nat) => exec (.csrr h d a) s = .next (finished h (gives (dstN d none k v) 0 (some 4) s))
    let misc := fun (c : Bool) (t : State) => if c then t.countMisc p else t
    let w := src32 s none b
    (reads → isAssigned n = false ∨ (isWideReg n = true ∧ oddAt d) → exec (.csrr h d a) s = trapped Cause.illegal)
    ∧ (writes → still ∨ Opd.fixed a = true → isAssigned n = false ∨ isRoReg n = true ∨ (isWideReg n = true ∧ oddAt b) →
        exec (.csrw h a b) s = trapped Cause.illegal)
    ∧ (reads → isAssigned n = true → ¬ (isWideReg n = true ∧ oddAt d) → 0x800 ≤ n → s.cur.pl.priv = false →
        exec (.csrr h d a) s = trapped Cause.privilege)
    ∧ (writes → still ∨ Opd.fixed a = true → isAssigned n = true → isRoReg n = false → ¬ (isWideReg n = true ∧ oddAt b) →
        isBarReg n = true ∨ (0x800 ≤ n ∧ s.cur.pl.priv = false) → exec (.csrw h a b) s = trapped Cause.privilege)
    ∧ (reads → (n = 0x001 → owed s s.cur.pl.id = false → (∀ l ∈ s.dlog, l.cohort = s.cur.pl.id → l.op ≠ some AtomOp.fxadd) →
          exec (.csrr h d a) s = .next (finished h (gives (dstN d none 1 s.cur.r.fpstat.toNat) 0 (some 4) u)))
        ∧ (n = 0x002 → gave 1 s.cur.r.drround.toNat)
        ∧ (n = 0x003 → gave 1 (s.cur.pl.part % 16 * 2 ^ 28 + (if s.cur.pl.priv then 2 ^ 16 else 0) + s.cur.pl.asid % 2 ^ 16))
        ∧ (∀ k r, k < 16 → n = 0x040 + k → s.cur.c.trec = some r → gave 1 (leNat ((r.bytes.drop (4 * k)).take 4) % 2 ^ 32))
        ∧ (n = 0x050 → gave 1 s.cur.c.tdone.toNat) ∧ (n = 0x051 → gave 1 (if s.cur.c.hm then 1 else 0))
        ∧ (∀ k, k < 4 → n = 0x052 + k → gave 1 (nth s.cur.c.tsave k 0#32).toNat)
        ∧ (¬ oddAt d →
          (n = 0x010 → gave 2 ((s.budget (s.cur.pl.core / 4)).refill % 2 ^ 21 * 2 ^ 22 + (s.budget (s.cur.pl.core / 4)).balance % 2 ^ 22))
          ∧ (s.cur.pl.priv = true → isPartReg n = true → gave (if n = 0x841 ∨ n = 0x842 then 1 else 2) (partReg (s.part p) n).toNat)
          ∧ (s.cur.pl.priv = true → isModReg n = true → gave 2 (modReg s n).toNat)))
    ∧ (writes → (n = 0x001 → takes (misc (w &&& 0xFFFF_FFC0#32 != 0#32) (u.updR fun r => { r with fpstat := r.fpstat &&& ~~~w })))
        ∧ (n = 0x002 → takes (u.updR fun r => { r with drround := w, seq := [] }))
        ∧ (n = 0x050 → takes (u.updC fun c => { c with tdone := w }))
        ∧ (∀ k, k < 4 → n = 0x052 + k → takes (u.updC fun c => { c with tsave := c.tsave.set k w }))
        ∧ (s.cur.pl.priv = true → n = 0x842 → takes (u.updPart p fun y => { y with fltTail := w }))
        ∧ ((n = 0x822 ∨ n = 0x823 ∨ n = 0x840 ∨ n = 0x843 ∨ n = 0x844 ∨ 0x900 ≤ n ∧ n ≤ 0x9FF) → s.cur.pl.priv = true → ¬ oddAt b →
          takes (misc (src64 s none b &&& (partAcc n).rsv != 0#64)
            (u.updPart p fun y => putPartReg n ((partAcc n).put (partReg y n) (src64 s none b)) y)))
        ∧ (n = 0x810 → s.cur.pl.priv = true → ¬ oddAt b → surfIdle s = true → takes (writeRsvsurf p (src64 s none b) u))
        ∧ (n = 0x845 → s.cur.pl.priv = true → ¬ oddAt b → takes (writeCqdisc p (src64 s none b) u))))
  ∧ (∀ (x : Word) (s : State), Answers (exec (.drroundWrite x) s) fun t => t.cur.r.drround = x ∧ ∀ i, t.cur.r.rdSeq i = 0)
  ∧ (∀ (p : Nat) (x : Dword) (s : State), p < 16 →
      (surfIdle s = false → exec (.rsvsurfWrite p x) s = .next s.wake)
      ∧ (surfIdle s = true → s.m.rsvsurf.getLsbD 32 = true ∧ (s.m.rsvsurf.extractLsb' 44 4).toNat ≠ p →
          Answers (exec (.rsvsurfWrite p x) s) fun t => t.m = s.m ∧ t.resv = s.resv)
      ∧ (surfIdle s = true → s.m.rsvsurf.getLsbD 32 = false ∨ (s.m.rsvsurf.extractLsb' 44 4).toNat = p →
        let quota := match tenant? s p (x.extractLsb' 48 16).toNat with | some t => tRsvQ t | none => 0
        let fits := ∀ d, d < 4 → surfNeed ((x.extractLsb' 0 14).toNat + 1) ((x.extractLsb' 16 14).toNat + 1) d
          ≤ min quota (carved s d) * 0x400_0000
        Answers (exec (.rsvsurfWrite p x) s) fun t =>
          t.m.rsvsurf.extractLsb' 0 14 = x.extractLsb' 0 14 ∧ t.m.rsvsurf.extractLsb' 16 14 = x.extractLsb' 16 14
          ∧ t.m.rsvsurf.extractLsb' 48 16 = x.extractLsb' 48 16
          ∧ (t.m.rsvsurf.getLsbD 32 = true ↔ x.getLsbD 32 = true ∧ fits)
          ∧ (x.getLsbD 32 = true → (t.m.rsvsurf.extractLsb' 44 4).toNat = p)
          ∧ (x.getLsbD 32 = true ∧ fits → t.resv = [] ∧ t.halo = [] ∧ t.haloPl = [])
          ∧ (¬ (x.getLsbD 32 = true ∧ fits) → t.resv = s.resv ∧ t.halo = s.halo)))
  ∧ (∀ (x : Dword) (s : State), Answers (exec (.pwrctlWrite x) s) fun t =>
      (t.m.pwrctl.extractLsb' 0 12).toNat = max 1500 (min 3400 (x.extractLsb' 0 12).toNat)
      ∧ t.m.pwrctl.extractLsb' 12 52 = s.m.pwrctl.extractLsb' 12 52)
  ∧ (∀ (x : Dword) (s : State),
      let ways := fun d => (x.extractLsb' (4 * d) 4).toNat
      let short := surfEn s = true ∧ ∃ d, d < 4 ∧ ways d ≤ 8 ∧ ways d * 0x400_0000 < surfNeed (surfW s) (surfH s) d
      Answers (exec (.carvectlWrite x) s) fun t =>
        (short → t.m = s.m)
        ∧ (¬ short → ∀ d, d < 4 →
          let now := surfIdleDie s d = true ∧ ∀ e ∈ s.m.pending, e.1 ≠ d
          (ways d ≤ 8 ∧ now → t.m.carve.extractLsb' (4 * d) 4 = x.extractLsb' (4 * d) 4)
          ∧ (¬ (ways d ≤ 8 ∧ now) → t.m.carve.extractLsb' (4 * d) 4 = s.m.carve.extractLsb' (4 * d) 4)
          ∧ (ways d ≤ 8 → ¬ now → (d, BitVec.ofNat 64 (ways d)) ∈ t.m.pending)))
  ∧ (∀ (p : Nat) (x : Dword) (s : State), let pa := (x.extractLsb' 6 46).toNat * 64
      Answers (exec (.cqdiscWrite p x) s) fun t => t.parked = s.parked.filter (fun q => !(q.pa == pa && q.part == p))
        ∧ ∀ q ∈ s.parked, q.pa = pa → q.part = p → (∀ k, q.req = .engine k → (k, pa) ∈ t.refused)
          ∧ (∀ c l, q.req = .host c l → .hostError q.va ∈ t.outs))
  ∧ ∀ (off : Nat) (x : Dword) (s : State), s.parts.length = 16 → (∀ y ∈ s.parts, y.prange.length = 8) →
      (barReg off = none → exec (.registerWrite off x) s = .next s.wake)
      ∧ ∀ p n, barReg off = some (p, n) →
        (isPartReg n = true → n ≠ 0x820 → n ≠ 0x845 → Answers (exec (.registerWrite off x) s) fun t =>
          partReg (t.part p) n = (partAcc n).put (partReg (s.part p) n) x ∧ t.m = s.m ∧ ∀ k, k ≠ p → t.part k = s.part k)
        ∧ (n = 0x812 → Answers (exec (.registerWrite off x) s) fun t => t.m.qdt = x)
        ∧ (n = 0x818 → Answers (exec (.registerWrite off x) s) fun t => t.m.fabid =
            if ∃ y ∈ s.parts, y.cfg.getLsbD 0 = true then s.m.fabid else (modAcc 0x818).put s.m.fabid x)

/-- TRAP takes the software trap with the low byte of A as its detail, BRK the breakpoint; with a false guard they only move
on. TRAPRET outside handler mode, or with SLOT-B occupied, takes an access trap. Otherwise it restores both slots, DSTOP and
the faulting slot's turn from TREC and ends handler mode: .replay reissues the instruction with the lanes of LANEMASK that
TDONE lacks, whole for a late trap, and skips it when none is left; .skip resumes after it, .to at the target in A, .kill
ends the cohort on the fault. HALT ends the cohort, in handler mode on a fault; HALT.launch ends every cohort of the launch,
stops it and gives it CODE 3. (R299, R311, R388, R392, R393, R394, R395, R396) -/
def Obligations.TrapInstructions : Prop :=
  ∀ (h : Hdr) (a : Opd) (s : State), Calm s →
    let on := activeMask h true s.cur ≠ 0#32
    let trapped := fun (t : Trap) => Host.Outcome.next ((takeTrap t s.cur.smask s).tick 1)
    (Usable s { uni := true, srcs := [(a, 1)] } →
      (on → exec (.trap h a) s = trapped { cause := 0x19, detail := (src32 s none a).toNat % 256 })
      ∧ (¬ on → exec (.trap h a) s = .next (finished h s)))
    ∧ (on → exec (.brk h) s = trapped { cause := 0x1A })
    ∧ (¬ on → exec (.brk h) s = .next (finished h s))
    ∧ (on → s.cur.c.hm = false ∨ s.cur.c.b.isSome = true →
      exec (.trapretReplay h) s = trapped { cause := 0x06 } ∧ exec (.trapretSkip h) s = trapped { cause := 0x06 }
      ∧ exec (.trapretKill h) s = trapped { cause := 0x06 })
    ∧ (∀ r, on → s.cur.c.hm = true → s.cur.c.b = none → s.cur.c.trec = some r →
      let back := s.updC fun c => { c with a := r.slotA, b := r.slotBp, dstop := r.dstop, hm := false, isB := r.slotB, hold := true }
      let left := r.mask &&& ~~~s.cur.c.tdone
      let again := back.updC fun c => { c with replay := some (r.slotB, left) }
      let stack := r.late = true ∧ r.cause < 0x20 ∧ r.mask ≠ 0#32 ∧ r.done = r.mask
      let goes := fun i (t : State) => Rested t → exec i s = .next (retire h.sc t)
      (r.late = false → left ≠ 0#32 → goes (.trapretReplay h) again)
      ∧ (r.late = true → goes (.trapretReplay h) back)
      ∧ (stack → goes (.trapretSkip h) back)
      ∧ (∀ p, (if r.slotB then r.slotBp else r.slotA) = some p → Lands s p.pc.ovl 0 → p.off = false →
        let past := back.updCur fun c => c.setPart (some (PcPart.advance s s.cur p))
        (r.late = false → left = 0#32 → goes (.trapretReplay h) past) ∧ (¬ stack → goes (.trapretSkip h) past)
        ∧ ∀ t : Pc, Usable s { uni := true, srcs := [(a, 2)] } → src64 s none a = t.zeroExtend 64 → t.slot = 0 → Lands s t.ovl t.blk →
            goes (.trapretTo h a) (back.updCur fun c => c.setPart (some { p with pc := t, run := true, off := false })))
      ∧ exec (.trapretKill h) s = .next (retire h.sc (endOnFault r s))
      ∧ (endOnFault r s).cur.c.ending = some 1)
    ∧ (on → s.cur.pl.priv = true →
      (s.cur.c.hm = false → exec (.halt h) s = .next (retire h.sc (endLanes 2 s)) ∧ (endLanes 2 s).cur.c.ending = some 2)
      ∧ (∀ r, s.cur.c.hm = true → s.cur.c.trec = some r → exec (.halt h) s = .next (retire h.sc (endOnFault r s)))
      ∧ ∀ l, s.cur.pl.launch = some l → (s.launch? l).isSome = true → (s.cohorts.map (·.pl.id)).Nodup →
          Answers (exec (.haltLaunch h) s) fun t => (∃ x, t.launch? l = some x ∧ x.halted = true ∧ x.code = 3)
            ∧ (∀ c ∈ t.cohorts, c.pl.launch = some l → c.c.ending.isSome = true)
            ∧ t.cohorts.length = s.cohorts.length)

/-- For a privileged cohort with nothing on its way and no access outstanding over a removed translation, TLBINV releases at
.dev, removes the translations of its kind, .asid after it has read the range table again, and acquires; an ASID outside the
table takes an access trap. Removing raises the generation of the partition's cores. SPLINTER sets BUSY in a leaf that it can
split, writes the table of the next size, and once the accesses in flight have performed puts the table in the leaf's place
and gives true, or false where software has changed the entry meanwhile; for another leaf it gives false. MIGRATE, after the
split it may need, sets BUSY in the leaf of a page of its size that is neither BUSY, PENDING nor held, and once nothing uses
the old frame copies it, moves the leaf and gives true, else false; a frame outside the partition's ranges takes an access
trap. FILLEVICT gives whether every block of its count is EMPTY now: an
EMPTY one is, a PENDING or live one is skipped, another becomes EMPTY. OPENWIN opens the window over its rows unless one is
open and gives their address, CLOSEWIN closes it and says whether it was open. (R339, R361, R362, R365, R366, R367, R368,
R370, R371, R372, R382, R383) -/
def Obligations.TranslationInstructions : Prop :=
  (∀ (h : Hdr) (d a b c : Opd) (s : State), Calm s → activeMask h true s.cur ≠ 0#32 →
    let p := s.cur.pl.part
    let va := (src64 s none a).toNat
    let vb := (src32 s none b).toNat
    let vc := (src32 s none c).toNat
    let r := released .dev s
    let trapped := fun (t : Trap) => Host.Outcome.next ((takeTrap t s.cur.smask s).tick 1)
    let clear := fun (g : Gone) (t : State) => Quiet .dev t ∧ outstanding g (leafSize 2) (released .dev t) = false
    let gave := fun x (t : State) => Host.Outcome.next (finished h (addPend (dstP d none x) 0 (some 0) t))
    (s.cur.pl.priv = true →
      (clear { part := p } s → exec (.tlbinvAll h) s = .next (finished h (acquire .dev (dropTr { part := p } r))))
      ∧ (Usable s (metaInv [(b, 1)]) → (asidOk s p vb = false → exec (.tlbinvAsid h b) s = trapped { accessT 0 with opnd := 2 })
        ∧ ∀ s1, asidOk s p vb = true → clear { part := p, asid := some vb } s → rereadRanges p vb r = .ok ((), s1) →
            exec (.tlbinvAsid h b) s = .next (finished h (acquire .dev (dropTr { part := p, asid := some vb } s1))))
      ∧ (Usable s (metaInv [(a, 2), (b, 1)]) → asidOk s p vb = true →
        let g : Gone := { part := p, asid := some vb, span := some (va % 2 ^ 57, va % 2 ^ 57 + 1) }
        clear g s → exec (.tlbinvPage h a b) s = .next (finished h (acquire .dev (dropTr g r))))
      ∧ (Usable s (metaInv [(a, 2), (b, 1), (c, 1)]) → asidOk s p vb = true →
        let g : Gone := { part := p, asid := some vb, span := some (va % 2 ^ 57, va % 2 ^ 57 + 4096 * vc) }
        clear g s → exec (.tlbinvRange h a b c) s = .next (finished h (acquire .dev (if vc = 0 then r else dropTr g r))))
      ∧ (Usable s { uni := true, srcs := [(a, 2)], dsts := [(d, 1)], priv := true, lates := latesRel, opnd := 1 } →
        let waits := fun (i : Instr) (t : State) => exec i s = .next (park .busy (t.updC fun c => { c with replay := none }))
        (∀ op x s1, s.cur.c.stage = .start → trOpM a false s = .ok (op, s1) → leafM op s1 = .ok (x, s1) →
          ((∀ y, x = some y → canSplinter op y = false) → exec (.splinter h d a) s = gave false s1)
          ∧ ∀ y, x = some y → canSplinter op y = true → Quiet .dev s1 → waits (.splinter h d a) (splinterStart op y (released .dev s1)))
        ∧ (∀ op level at_ e, s.cur.c.stage = .busy op true level [(at_, e)] → Quiet .dev s →
          let t := splinterSwap op level at_ r
          (r.bytes at_ 8 = leBytes 8 (e ||| busyBit).toNat → outstanding (leafGone t.cur.pl.part op level) 4096 t = false →
            exec (.splinter h d a) s = gave true (setStage .start (acquire .dev t)))
          ∧ (r.bytes at_ 8 ≠ leBytes 8 (e ||| busyBit).toNat → exec (.splinter h d a) s = gave false (setStage .start r)))
        ∧ (∀ op level, s.cur.c.stage = .swept op level → outstanding (leafGone p op level) 4096 s = false →
          exec (.splinter h d a) s = gave true (setStage .start (acquire .dev s)))
        ∧ let moves := fun (op : TrOp) (x : Option (Nat × Nat × Dword)) (t : State) =>
            (x = none → exec (.migrate h d a) s = gave false t)
            ∧ ∀ level at_ e, x = some (level, at_, e) →
              let es := migEntries t op at_
              let stays := migShape op level es = false ∨ pendingIn t t.cur.pl.part op = true
                ∨ heldIn t (physOf t t.cur.pl.part (oldFrame op es)) op.bytes = true ∨ ∃ x ∈ es, Pte.busy x.2 = true
              let mine := spanInRanges t t.cur.pl.part (oldFrame op es) op.bytes = true
              (stays → exec (.migrate h d a) s = gave false t)
              ∧ (¬ stays → mine → waits (.migrate h d a) (migrateStart op level es t))
              ∧ (¬ stays → ¬ mine → exec (.migrate h d a) s =
                  .next ((takeTrap { accessT 5 op.va with opnd := 1 } s.cur.smask t).tick 1))
          (∀ op x s1, s.cur.c.stage = .start → trOpM a true s = .ok (op, s1) → Quiet .dev s1 →
            let t := released .dev s1
            leafM op t = .ok (x, t) →
            (∀ y, x = some y → y.1 = sizeLevel op.size + 1 → op.size ≠ 3 → canSplinter op y = true →
              waits (.migrate h d a) (splinterStart op y t))
            ∧ ((∀ y, x = some y → ¬ (y.1 = sizeLevel op.size + 1 ∧ op.size ≠ 3 ∧ canSplinter op y = true)) → moves op x t))
          ∧ (∀ op level es ok x t, s.cur.c.stage = .busy op true level es → splinterEnd op level es s = .ok (ok, t) → leafM op t = .ok (x, t) →
            moves op x t)
          ∧ (∀ op level x t, s.cur.c.stage = .swept op level → sweptM op level s = .ok ((), t) → leafM op t = .ok (x, t) → moves op x t)
          ∧ ∀ op level es, s.cur.c.stage = .busy op false level es → oldInUse op es s = false →
            let old := physOf s p (oldFrame op es)
            (∀ w ∈ s.poison, w < old ∨ old + op.bytes ≤ w) → exec (.migrate h d a) s = gave true (migrateDo op es s))
      ∧ (Usable s { uni := true, srcs := [(a, 2), (b, 1), (c, 1)], dsts := [(d, 1)], priv := true, lates := latesRel, opnd := 1 } →
        let found := if canonical va then rangeFor s p vc (va % 2 ^ 57) else none
        (found = none → exec (.fillevict h d a b c) s = trapped { accessT 0 va with opnd := 1 })
        ∧ ∀ x, found = some x →
          (vb = 0 ∨ 65536 < vb → exec (.fillevict h d a b c) s = trapped { accessT 0 va with opnd := 2 })
          ∧ (1 ≤ vb → vb ≤ 65536 →
            let b0 := x.blockOf (va % 2 ^ 57)
            let lo := x.vbase + b0 * x.size
            let t := evictAll p vc x (((List.range vb).map (b0 + ·)).filter fun k => k < x.blocks) r
            Quiet .dev s → outstanding { part := p, asid := some vc, span := some (lo, lo + vb * x.size) } 4096 r = false →
            (∀ k, b0 ≤ k → k < b0 + vb → k < x.blocks → mapBusy r p vc x k = false) →
            exec (.fillevict h d a b c) s = gave t.1 (acquire .dev t.2))))
    ∧ (Usable s { uni := true, srcs := [(b, 1)], dsts := [(d, 2)] } →
      let fits := s.cur.x.win = none ∧ 1 ≤ vb ∧ vb ≤ 64 ∧ Opd.ix a + vb ≤ s.cur.r.vregs
      (fits → exec (.openwin h d a b) s = .next (finished h
          (gives (dstN d none 2 (0xE_0000_0000_0000 + 0x20_0000 * s.cur.pl.core + 0x10_0000 + 0x1_0000 * (s.cur.pl.slotIx / 8)
            + 128 * (s.cur.r.vbase + Opd.ix a))) 0 (some 0) (s.updX fun x => { x with win := some (Opd.ix a, vb) }))))
      ∧ (s.cur.x.win ≠ none → exec (.openwin h d a b) s = trapped (accessT 0)))
    ∧ (Usable s { uni := true, dsts := [(d, 1)] } →
      exec (.closewin h d) s = gave s.cur.x.win.isSome (s.updX fun x => { x with win := none })))
  ∧ (∀ (g : Gone) (s : State), s.dlog = [] → let t := dropTr g s
      t.tlb = s.tlb.filter (fun x => !g.page x.part x.asid (x.vpn * leafSize x.level) (leafSize x.level))
      ∧ (∀ k ∈ partCores s g.part, genOf t k = (genOf s k + 1) % 4096) ∧ t.mem = s.mem ∧ t.cur.r = s.cur.r)
  ∧ (∀ (p asid : Nat) (s : State), let old := (s.part p).ranges.get asid []
      let new := readRanges s p asid
      ((∀ r ∈ new, ∃ x ∈ old, x.ix = r.ix) → (∀ f ∈ s.fills, f.part = p → f.asid = asid → ∀ r ∈ old, r.ix = f.range → ∃ x ∈ new, x.ix = r.ix) →
        rereadRanges p asid s = .ok ((), s.updPart p fun y => { y with ranges := y.ranges.set asid new [] }))
      ∧ ∀ r s1, old = [] → new = [r] → (⟨p, r.owner, privOf s p r.owner, 2 ^ 50 + 2 ^ 6 * asid + r.ix, none, none, none⟩ : Agent).write r.mapptr
          (List.replicate (ceilDiv r.blocks 4) 0#8) s = .ok ((), s1) →
        ∃ t, rereadRanges p asid s = .ok ((), t) ∧ t.mem = s1.mem)
  ∧ (∀ (op : TrOp) (level at_ : Nat) (e : Dword) (s : State), s.dlog = [] → op.stage % 4096 = 0 → isDram op.stage = true →
      at_ + 8 ≤ op.stage ∨ op.stage + 4096 ≤ at_ →
      let u := splinterStart op (level, at_, e) s
      let t := splinterSwap op level at_ u
      u.bytes at_ 8 = leBytes 8 (e ||| busyBit).toNat ∧ t.bytes at_ 8 = leBytes 8 (op.stage + 1)
      ∧ ∀ j, j < 512 → u.bytes (op.stage + 8 * j) 8 = leBytes 8 (splinterEntry e level j).toNat
          ∧ t.bytes (op.stage + 8 * j) 8 = leBytes 8 (splinterEntry e level j).toNat)
  ∧ splinterEntry 0x1200_0031_0000_020F 1 5 = 0x1200_0031_0000_520F
  ∧ Pte.move 0x1200_0031_0000_520F 0x0000_0100_2000_0000 true 0 = 0x1200_0100_2000_080F
  ∧ (∀ (op : TrOp) (at_ : Nat) (e : Dword) (s : State), s.lazies = [] →
      let old := oldFrame op [(at_, e)]
      isDram old = true → isDram op.newpa = true → old + op.bytes ≤ op.newpa ∨ op.newpa + op.bytes ≤ old →
      at_ + 8 ≤ op.newpa ∨ op.newpa + op.bytes ≤ at_ →
      let t := migrateDo op [(at_, e)] s
      t.bytes at_ 8 = leBytes 8 (Pte.move e op.newpa op.tier op.home).toNat ∧ ∀ k, k < op.bytes → t.byte (op.newpa + k) = s.byte (old + k))
  ∧ ∀ (p asid blk st : Nat) (r : Range) (s : State), blkState s p r blk = some st →
      let t := evictBlock p asid r blk s
      (st = 0 → t = (true, s)) ∧ (st = 1 → t = (false, s))
      ∧ (2 ≤ st → (∃ x ∈ blockPages s p asid r blk, ∃ a ∈ s.tags, x.1 ≤ a ∧ a < x.1 + 4096) → t = (false, s))
      ∧ ∀ w, 2 ≤ st → (∀ x ∈ blockPages s p asid r blk, ∀ a ∈ s.tags, a < x.1 ∨ x.1 + 4096 ≤ a) → s.l1 = [] → s.dlog = [] →
          mapTr s p r blk .store = some w → t.1 = true ∧ (t.2.byte w.pa).toNat / 4 ^ (blk % 4) % 4 = 0

/-- PROVCHK at an aligned address gives 0 where the stored record equals the present one, else the ID of the field and the
place of the first byte that differs; .store writes the present record, of 256 bytes with its declarations last, and gives 0;
a misaligned address traps; the accesses before it have performed. TIME gives device time, its status bits and the offset; TIME.step adds to device time and keeps
every budget, and traps on a step back once the time was locked. DLOGQ gives the counts of the log, the state and the address
of the cohort's oldest entry, DLOGQ.wait waits for the cohort's entries. A retry performs an entry whose page has come and
leaves it while its page is missing; one that is too old leaves the log with a late trap. (R231, R282, R397, R398, R404,
R405, R406) -/
def Obligations.ProvenanceTimeAndLog : Prop :=
  (∀ (h : Hdr) (d a b : Opd) (s : State), Calm s → activeMask h true s.cur ≠ 0#32 →
    let va := (src64 s none a).toNat
    let trapped := fun (t : Trap) => Host.Outcome.next ((takeTrap t s.cur.smask s).tick 1)
    let own := s.dlog.filter fun x => x.cohort == s.cur.pl.id
    let all := s.dlog.filter fun x => x.core == s.cur.pl.core
    let gave := fun (lat v : Nat) => Host.Outcome.next (finished h (gives (dstN d none 4 v) 0 (some lat) s))
    let x := (src64 s none a).toInt
    (Usable s { uni := true, srcs := [(a, 2), (b, 2)], dsts := [(d, 1)], opnd := 1 } →
      (va % 64 ≠ 0 → exec (.provchk h d a b) s = trapped { cause := Cause.alignment, opnd := 1, addr := va }
        ∧ exec (.provchkStore h d a b) s = trapped { cause := Cause.alignment, opnd := 1, addr := va })
      ∧ ∀ g r s1, va % 64 = 0 → Drained s → formM b s = .ok ((g, r), s1) → s1.cur.c = s.cur.c →
        r.length = 256 ∧ r.take 4 = leBytes 4 (1 + 256 * 65536) ∧ (b = .zr → r.drop 192 = List.replicate 64 0#8)
        ∧ (∀ old s2, g.read va 256 .load s1 = .ok (old, s2) → s2.cur.c = s.cur.c → exec (.provchk h d a b) s = .next (finished h
            (gives (dst32 d none (BitVec.ofNat 32 (provCompare r old))) 0 (some 0) s2)))
        ∧ (∀ s2, g.write va r s1 = .ok ((), s2) → s2.cur.c = s.cur.c → exec (.provchkStore h d a b) s = .next (finished h
            (gives (dst32 d none 0#32) 0 (some 0) s2))))
    ∧ (Usable s { uni := true, dsts := [(d, 4)] } →
      exec (.time h d) s = gave 4 (s.m.time % 2 ^ 64 + 2 ^ 64 * ((if s.m.locked then 1 else 0) + (if s.m.src1pps then 2 else 0)
          + (if s.m.ever then 4 else 0)) + 2 ^ 96 * (BitVec.ofInt 32 (max (-2 ^ 31) (min (2 ^ 31 - 1) s.m.offset))).toNat)
      ∧ (own = [] → exec (.dlogq h d) s = gave 4 (2 ^ 16 * all.length) ∧ exec (.dlogqWait h d) s = gave 0 (2 ^ 16 * all.length))
      ∧ (∀ e l, own = e :: l →
        (∀ t, xlate s e.part e.asid s.cur.pl.priv e.acc e.va = .ok t → exec (.dlogq h d) s = gave 4 (own.length + 2 ^ 16 * all.length
            + 2 ^ 32 * (if peekAt s e.part e.asid s.cur.x.gen t = .go then 1 else 2) + 2 ^ 64 * e.va))
        ∧ (∀ n w, xlate s e.part e.asid s.cur.pl.priv e.acc e.va = .bad n w → exec (.dlogq h d) s = gave 4 (own.length
            + 2 ^ 16 * all.length + 2 ^ 32 + 2 ^ 64 * e.va))
        ∧ exec (.dlogqWait h d) s = .next (park .log s)))
    ∧ (s.cur.pl.priv = true → Usable s { uni := true, srcs := [(a, 2)], priv := true, opnd := 1 } →
      (s.m.ever = true → x < 0 → exec (.timeStep h a) s = trapped { cause := 0x06, opnd := 1 })
      ∧ (¬ (s.m.ever = true ∧ x < 0) → exec (.timeStep h a) s = .next (finished h (stepTime x s))
        ∧ ((stepTime x s).m.time : Int) = (s.m.time + x) % 2 ^ 64 ∧ (∀ q, q < 1024 → (stepTime x s).budget q = s.budget q)
        ∧ (stepTime x s).m.cycle = s.m.cycle ∧ (stepTime x s).cur = s.cur)))
  ∧ (∀ r old : List Byte, provCompare r r = 0
      ∧ ∀ k, k < 256 → nth r k 0#8 ≠ nth old k 0#8 → (∀ j, j < k → nth r j 0#8 = nth old j 0#8) →
          (∀ j, 112 ≤ j → j < 192 → nth r j 0#8 = nth old j 0#8) → provCompare r old = provField k + 65536 * k)
  ∧ (provField 3 = 1 ∧ provField 7 = 2 ∧ provField 64 = 10 ∧ provField 95 = 18 ∧ provField 111 = 20 ∧ provField 200 = 33)
  ∧ ∀ (e : Dent) (s : State), s.dlog = [e] → s.cur.resident = true → s.cur.pl.id = e.cohort → s.cur.c.ending = none →
      let w := xlate s e.part e.asid s.cur.pl.priv e.acc e.va
      let old := max 1 ((s.part e.part).fltCtl.extractLsb' 16 16).toNat * 1000000 ≤ s.m.time - e.since
      let failed := fun (t : State) => t.dlog = [] ∧ t.mem = s.mem ∧ ∃ r ∈ t.cur.c.late, r.cause = 0x24 ∧ (s.cur.c.late = [] → r.detail = 4
        ∧ r.addr = e.va ∧ r.pc = e.pc)
      (∀ t s1, w = .ok t → Pte.proc t.pte = false → e.op = none →
        let s0 := heatFor e.part e.acc t.at_ s
        let loc := t.loc s0 e.part
        let pa := match loc with | .dram pa _ => pa | .chip pa => pa | _ => 0
        let bs := leBytes e.width e.data.toNat
        storeAt loc e.va bs e.scope .dflt e.mask (.store e.cohort (some e.lane) (((List.range e.width).map (pa + ·)).zip bs) e.pc) s0
          = (.val [], s1) → s1.cur = s.cur → s1.dlog = s.dlog →
        Answers (exec (.deferredStoreRetry e.core) s) fun u => u.dlog = [] ∧ u.mem = s1.mem ∧ u.l1 = s1.l1)
      ∧ (∀ x, w = .bad 4 x → ¬ old → exec (.deferredStoreRetry e.core) s = .next s.wake
          ∧ exec (.deferredStoreTimeout e.core) s = .next s.wake)
      ∧ ∀ x, w = .bad 4 x → old → Answers (exec (.deferredStoreRetry e.core) s) failed
          ∧ Answers (exec (.deferredStoreTimeout e.core) s) failed

/-- A posted write and a doorbell take the next sequence number; one that fails translation or names no tenant with HOST is
dropped whole, reported and counted and takes its number too; one whose page is BUSY takes its number and holds its place until
it is translated. The first write that
is not acknowledged performs its piece for a die: its bytes but those in a live barrier word, and no others; VISIBLE is the
number before the first write that has a piece left, ASSIGNED where there is none. A piece of a later write waits. A doorbell
records the TAIL, or puts the queue into its error state, or is dropped and counted. A read is held until every earlier write
is acknowledged, then replies with the bytes, or reports an error. (R269, R270, R271, R273, R276, R376) -/
def Obligations.HostWritesReadsAndDoorbells : Prop :=
  (∀ (s : State) (off : Nat) (bytes : List Byte), (∀ w l, s.hop = w :: l → HopW.acked w = false) →
    let p := off / 2 ^ 57 % 16
    let n := s.m.hopAssigned + 1#32
    let queued := fun (ps : List (Nat × List (Nat × Nat × Byte))) (part asid : Nat) (raw : Option (Nat × List Byte)) (t : State) =>
      t.m.hopAssigned = n ∧ t.mem = s.mem ∧ t.outs = s.outs ∧ t.hop = s.hop ++ [HopW.mk n.toNat part asid ps raw]
      ∧ t.m.hopVisible = (match s.hop with | w :: _ => BitVec.ofNat 32 w.seq - 1#32 | [] => s.m.hopAssigned)
    let dropped := fun (t : State) => t.m.hopAssigned = n ∧ t.mem = s.mem ∧ t.outs = s.outs ++ [Outp.hostError off]
      ∧ (s.hop = [] → t.hop = [] ∧ t.m.hopVisible = n)
    Answers (exec (.doorbell off bytes) s) (queued [(8, ((List.range bytes.length).zip bytes).map fun e => (off + e.1, off + e.1, e.2))] 0 0 none)
    ∧ (hostAgent s off = none → Answers (exec (.hostPostedWrite off bytes) s) dropped)
    ∧ ((s.part p).cfg.getLsbD 0 = false → hostAgent s off = none)
    ∧ ∀ g, hostAgent s off = some g →
      (∀ d a, hostBytes s g (hostVa off) bytes = .error (.bad d a) → Answers (exec (.hostPostedWrite off bytes) s) dropped)
      ∧ (hostBytes s g (hostVa off) bytes = .error .busy →
        Answers (exec (.hostPostedWrite off bytes) s) (queued [] p g.asid (some (off, bytes))))
      ∧ ∀ l, bytes ≠ [] → (s.part p).heat.getLsbD 0 = false → hostBytes s g (hostVa off) bytes = .ok l →
          Answers (exec (.hostPostedWrite off bytes) s) (queued (piecesOf l) p g.asid none))
  ∧ (∀ (s : State) (w : HopW) (rest : List HopW) (die : Nat) (ps : List (Nat × Nat × Byte)), s.hop = w :: rest → w.raw = none →
    w.pieces.find? (fun p => p.1 == die) = some (die, ps) →
    let left := ({ w with pieces := w.pieces.filter fun p => p.1 != die } :: rest).dropWhile HopW.acked
    let acked := fun (t : State) => t.hop = left ∧ t.m.hopAssigned = s.m.hopAssigned
      ∧ t.m.hopVisible = (match left with | x :: _ => BitVec.ofNat 32 x.seq - 1#32 | [] => s.m.hopAssigned)
    (∀ seq, seq ≠ w.seq → exec (.hopPieceAck seq die) s = .next s.wake)
    ∧ (die ≠ 8 → (∀ e ∈ s.refused, e.1 ≠ pieceKey w.seq die) → askPiece w.part w.asid ps s = (.go, s) →
      pieceAt s (pieceKey w.seq die) (ps.map fun e => (e.1, e.2.2)) = .go → (∀ e ∈ ps, isDram e.1 = true) → (ps.map (·.1)).Nodup →
      Answers (exec (.hopPieceAck w.seq die) s) fun t => acked t
        ∧ (∀ e ∈ ps, s.live e.1 = false → t.byte e.1 = e.2.2) ∧ (∀ a, (∀ e ∈ ps, e.1 = a → s.live a = true) → t.byte a = s.byte a)
        ∧ ((∀ e ∈ ps, s.live e.1 = false) → t.outs = s.outs))
    ∧ (die = 8 →
      let off := (ps.headD (0, 0, 0#8)).1
      let bytes := ps.map fun e => e.2.2
      let q := (off - 0x80_0000) / 8
      let d := queueDesc s q
      let g := queueAgent s d q
      (off % 8 ≠ 0 ∨ bytes.length ≠ 8 ∨ 65536 ≤ q ∨ d.wf = false ∨ d.prod = true → Answers (exec (.hopPieceAck w.seq die) s) fun t =>
        acked t ∧ t.mem = s.mem ∧ (t.part d.part).errCnt = ((s.countMisc d.part).part d.part).errCnt)
      ∧ ∀ head tail st, off % 8 = 0 → bytes.length = 8 → q < 65536 → d.wf = true → d.prod = false →
        ringHead g d s = .ok ((head, tail, st), s) →
        (st ≠ 0 → Answers (exec (.hopPieceAck w.seq die) s) fun t =>
          acked t ∧ t.mem = s.mem ∧ (t.part d.part).errCnt = ((s.countMisc d.part).part d.part).errCnt)
        ∧ (∀ s1, st = 0 → leNat bytes < 2 ^ 32 → (leNat bytes + 2 ^ 32 - head) % 2 ^ 32 ≤ 2 ^ d.log →
          g.write (d.base + 4) (leBytes 4 (leNat bytes)) s = .ok ((), s1) → s1.hop = s.hop → s1.m = s.m →
          Answers (exec (.hopPieceAck w.seq die) s) fun t => acked t ∧ t.mem = s1.mem)
        ∧ ∀ s1, st = 0 → 2 ^ d.log < (leNat bytes + 2 ^ 32 - head) % 2 ^ 32 → g.write (d.base + 8) [1#8, 1#8] s = .ok ((), s1) →
          s1.hop = s.hop → s1.m = s.m → Answers (exec (.hopPieceAck w.seq die) s) fun t => acked t ∧ t.mem = s1.mem))
  ∧ (∀ (s : State) (w : HopW) (rest : List HopW) (off : Nat) (bytes : List Byte) (g : Agent) (l : List (Nat × Nat × Nat × Byte)),
      s.hop = w :: rest → w.raw = some (off, bytes) → bytes ≠ [] → (s.part g.part).heat.getLsbD 0 = false → hostAgent s off = some g →
      (hostBytes s g (hostVa off) bytes = .error .busy → retryHop s = s)
      ∧ (hostBytes s g (hostVa off) bytes = .ok l →
        (retryHop s).hop = { w with pieces := piecesOf l, raw := none } :: rest ∧ (retryHop s).mem = s.mem))
  ∧ ∀ (s : State) (off n : Nat), off < 2 ^ 61 →
    let p := off / 2 ^ 57 % 16
    let asked := fun (ws : List Nat) => (⟨p, off, n, ws⟩ : HostRd)
    (s.reads = [] → s.hop ≠ [] → Answers (exec (.hostRead off n) s) fun t => t.reads = [asked (s.hop.map (·.seq))] ∧ t.outs = s.outs
      ∧ t.mem = s.mem)
    ∧ (s.hop = [] → s.reads = [] → hostAgent s off = none →
      Answers (exec (.hostRead off n) s) fun t => t.outs = s.outs ++ [Outp.hostError off] ∧ t.mem = s.mem)
    ∧ ∀ (g : Agent) (pa : Nat → Nat), hostAgent s off = some g → (s.part g.part).heat.getLsbD 0 = false →
      (∀ k, k < n → ∃ d t, hostByte s g .load (hostVa off + k) = .ok (d, pa k, t) ∧ Pte.proc t.pte = false ∧ isDram (pa k) = true
        ∧ s.poisoned (pa k) = false) →
      let answered := fun (t : State) => t.outs = s.outs ++ [Outp.hostReply ((List.range n).map fun k => s.byte (pa k))] ∧ t.reads = []
        ∧ t.mem = s.mem ∧ t.m = s.m
      (s.hop = [] → s.reads = [] → Answers (exec (.hostRead off n) s) answered)
      ∧ ∀ ws, s.reads = [asked ws] → (∀ x ∈ s.hop, x.seq ∉ ws) → answered (settleReads s)

/-- A read of another module is answered with the bytes, a write stores its bytes and no others and is acknowledged, each of
1 to 4,096 bytes and as a courier transfer under its tag. An atomic writes the new value and gives the old one, with the
overflow report of .fxadd; a reduction is acknowledged. With a round and key an update is held, of a closed round it is
applied at once and sets the breach bit, and with a sequence number above 65,535 it is refused. An address that is no local
memory, a stopped partition and a live barrier word end the request with a fault and store nothing. A replayed flit changes
nothing; a failed path is down and gives each cohort that awaits a write of it a fabric-write-lost trap. A measured offset within 40 ns
locks device time, one above 200 ns unlocks it, and a change is reported; the time itself stays. (R23, R255, R278, R279,
R281, R325, R411) -/
def Obligations.ZwiovRequestsAndDeviceTime : Prop :=
  (∀ (s : State) (src pa n tag : Nat), 1 ≤ n → n ≤ 4096 →
    let reply := fun (id : Nat) => Host.Outcome.next (State.wake { s with outs := s.outs ++ [Outp.zwiovReply id ((List.range n).map fun k => s.byte (pa + k))] })
    let fault := fun (id c : Nat) => Host.Outcome.next (State.wake { s with outs := s.outs ++ [Outp.zwiovFault id c] })
    (zRefuse s pa n = none → (∀ k, k < n → s.poisoned (pa + k) = false) → (∀ w ∈ s.poison, w % 64 = 0) →
      exec (.zwiovRd src pa n) s = reply src ∧ exec (.zwiovCourier src tag pa n none) s = reply (src + 2 ^ 16 * (tag + 1)))
    ∧ (isDram pa = false → exec (.zwiovRd src pa n) s = fault src 1)
    ∧ (isDram pa = true → isDram (pa + n - 1) = true → (s.part (partAt s pa)).cfg.getLsbD 1 = true → exec (.zwiovRd src pa n) s = fault src 8))
  ∧ (∀ (s : State) (src pa tag : Nat) (bs : List Byte), bs ≠ [] → bs.length ≤ 4096 →
    let wrote := fun (id : Nat) (t : State) => t.outs = s.outs ++ [Outp.zwiovReply id []]
      ∧ (∀ k, k < bs.length → t.byte (pa + k) = nth bs k 0#8) ∧ ∀ a, a < pa ∨ pa + bs.length ≤ a → t.byte a = s.byte a
    let fault := fun (id c : Nat) => Host.Outcome.next (State.wake { s with outs := s.outs ++ [Outp.zwiovFault id c] })
    (zRefuse s pa bs.length = none → (∀ k, k < bs.length → s.live (pa + k) = false) → s.poison = [] →
      Answers (exec (.zwiovWr src pa bs) s) (wrote src) ∧ Answers (exec (.zwiovCourier src tag pa bs.length (some bs)) s) (wrote (src + 2 ^ 16 * (tag + 1))))
    ∧ (isDram pa = false → exec (.zwiovWr src pa bs) s = fault src 1)
    ∧ (zRefuse s pa bs.length = none → s.live pa = true → exec (.zwiovWr src pa bs) s = fault src 0x0A))
  ∧ (∀ (s : State) (src pa : Nat) (op : AtomOp) (ty : Ty) (b c : Qword),
    let w := Ty.bytes ty
    let old := leNat (s.bytes pa w)
    let put := fun (v : Nat) (t : State) => t.bytes pa w = leBytes w v ∧ ∀ a, a < pa ∨ pa + w ≤ a → t.byte a = s.byte a
    let said := fun (bs : List Byte) (t : State) => t.outs = s.outs ++ [Outp.zwiovReply src bs]
    let report := if op == .fxadd then [if fxOver old b.toNat then 1#8 else 0#8] else []
    (∀ key, isDram pa = false → op ≠ .xchg → exec (.zwiovAt src pa op ty key b c) s = .next (State.wake { s with outs := s.outs ++ [Outp.zwiovFault src 1] })
      ∧ exec (.zwiovRed src pa op ty key b) s = .next (State.wake { s with outs := s.outs ++ [Outp.zwiovFault src 1] }))
    ∧ (zRefuse s pa w = none → (∀ k, k < w → s.live (pa + k) = false) → s.poison = [] →
      Answers (exec (.zwiovAt src pa op ty none b c) s) (fun t => put (atomNew op ty old b.toNat c.toNat) t ∧ said (leBytes w old ++ report) t)
      ∧ Answers (exec (.zwiovRed src pa op ty none b) s) (fun t => put (atomNew op ty old b.toNat 0) t ∧ said [] t)
      ∧ ∀ (k : RemoteKey) (l : Launch), s.launch? k.launch = some l → op ≠ .xchg →
        let h := fun (red : Bool) => zHeld s s.ids src pa op ty k b red
        (l.closed ≤ k.round → k.seq ≤ 65535 → (∀ x ∈ s.held, x.transit = false → x.launch = k.launch → x.round = k.round → x.pa = pa → x.width = w) →
          hasLine s (h false) = true →
          Answers (exec (.zwiovAt src pa op ty (some k) b c) s) (fun t => t.held = s.held ++ [h false] ∧ t.mem = s.mem ∧ said (leBytes w old) t)
          ∧ Answers (exec (.zwiovRed src pa op ty (some k) b) s) (fun t => t.held = s.held ++ [h true] ∧ t.mem = s.mem ∧ said [] t))
        ∧ (k.round < l.closed → Answers (exec (.zwiovRed src pa op ty (some k) b) s) fun t => said [] t ∧ t.held = s.held
          ∧ put (atomNew op (if w = 8 then .f64 else .f32) old (b.toNat % 2 ^ 64) 0) t ∧ ∃ x ∈ t.launches, x.id = k.launch ∧ x.breach = true)
        ∧ (l.closed ≤ k.round → 65535 < k.seq → Answers (exec (.zwiovAt src pa op ty (some k) b c) s) fun t => t.mem = s.mem ∧ t.held = s.held
          ∧ t.outs = s.outs ++ [Outp.zwiovFault src 0x22] ∧ ∃ x ∈ t.launches, x.id = k.launch ∧ k.round ∈ x.failedRounds)))
  ∧ (∀ (s : State) (port : Nat), exec (.flitReplay port) s = .next s.wake)
  ∧ (∀ (s : State) (md : Nat), Answers (exec (.pathFailure md) s) fun t => t.fabw = s.fabw.filter (fun w => w.module != md)
      ∧ md ∈ t.m.fabDown ∧ ∀ w ∈ s.fabw, w.module = md → ∀ c, s.cohort? w.cohort = some c → c.c.ending = none →
          ∃ x, t.cohort? w.cohort = some x ∧ ∃ r ∈ x.c.late, r.cause = 0x23)
  ∧ ∀ (s : State) (x : Int),
    let lock := if x.natAbs ≤ 40 then true else if 200 < x.natAbs then false else s.m.locked
    let set := fun (pps : Bool) (st : Map Nat) (t : State) =>
      t.m = { s.m with offset := x, locked := lock, src1pps := pps, ever := s.m.ever || lock, stamps := st }
      ∧ t.outs = s.outs ++ (if lock = s.m.locked then [] else [Outp.report repLock])
    (∀ port domain, (port < 18 → domain < 128 → Answers (exec (.ptpMessage ⟨port, domain, x⟩) s) (set false (s.m.stamps.put port s.m.time)))
      ∧ (18 ≤ port ∨ 128 ≤ domain → exec (.ptpMessage ⟨port, domain, x⟩) s = .next s.wake))
    ∧ Answers (exec (.ppsPulse x) s) (set true s.m.stamps)

/-- Of the queues of the highest QPRIO that have a startable entry the arbiter serves the next in rotation that has credit
and takes one credit; where none has, every queue of that QPRIO first receives its WEIGHT. HEAD moves past the entry, and a
malformed entry is done with CODE 2; with 256 launches open nothing starts. NOP is done at once, WAIT once the word is at
least the threshold, SIGNAL stores its value, LAUNCH starts the launch of a valid record, whose leader is the lowest-numbered
ready die, and is done with CODE 2 otherwise. A done entry writes its completion records, then sends its message, and leaves;
a LAUNCH is done when nothing of the launch is left. (R274, R275, R277, R283, R284, R285, R291, R293) -/
def Obligations.WorkQueues : Prop :=
  (∀ (s : State) (p : Nat), p < 16 →
    (256 ≤ openLaunches s p ∨ (∀ q, q < 65536 → offerOf s p q = .none) → exec (.queueArbitration p) s = .next s.wake)
    ∧ ∀ (q : Nat) (d : QDesc) (head : Nat) (e : List Byte), q < 65536 → partRuns s p = true → openLaunches s p < 256 →
      (∀ x y, x < 65536 → offerOf s p x ≠ .bad y) → offerOf s p q = .entry d head e →
      (∀ x dx hx ex, x < 65536 → offerOf s p x = .entry dx hx ex → dx.prio ≤ d.prio) →
      let last := (s.part p).lastQ.get d.prio 65535
      let turn := fun (x : Nat) => (x + 65536 - (last + 1)) % 65536
      let credit := fun (x : Nat) => (s.part p).credits.get x 0
      let rival := fun (x : Nat) => x < 65536 ∧ ∃ dx hx ex, offerOf s p x = .entry dx hx ex ∧ dx.prio = d.prio
      let served := fun (c : Map Nat) => exec (.queueArbitration p) s = .next (State.wake (startEntry q d head e
          (s.updPart p fun x => { x with lastQ := x.lastQ.set d.prio q 65535, credits := c })))
      last < 65536 →
      (0 < credit q → (∀ x, rival x → x ≠ q → 0 < credit x → turn q < turn x) →
        ∃ c, served c ∧ ∀ x, c.get x 0 = if x = q then credit q - 1 else credit x)
      ∧ ((∀ x, rival x → credit x = 0) → (∀ x, rival x → x ≠ q → turn q < turn x) →
        ∃ c, served c ∧ c.get q 0 = d.weight - 1 ∧ ∀ x, x < 65536 → x ≠ q →
          c.get x 0 = if (queueDesc s x).en = true ∧ (queueDesc s x).part = p ∧ (queueDesc s x).prio = d.prio then (queueDesc s x).weight else credit x))
  ∧ (∀ (s s1 : State) (q head : Nat) (d : QDesc) (e : List Byte), (queueAgent s d q).write d.base (leBytes 4 (head + 1)) s = .ok ((), s1) →
      startEntry q d head e s = { s1 with entries := s1.entries ++ [⟨q, d.part, d.asid, head, fld e 0 2, nbit (fld e 2 1) 0, fld e 4 4,
        fld e 8 8, fld e 16 8, fld e 24 8, s.m.time, none, if entryOk e then none else some 2⟩] }
      ∧ (3 < fld e 0 2 ∨ fld e 3 1 ≠ 0 ∨ fld e 24 8 % 32 ≠ 0 → entryOk e = false))
  ∧ (∀ (s : State) (q idx : Nat) (e : Entry),
    let g := entryAgent s e
    let coded := fun (c : Nat) (s1 t : State) => t.mem = s1.mem ∧ t.outs = s1.outs
      ∧ t.entries = s1.entries.map fun x => if x.queue == e.queue && x.idx == e.idx then { x with code := some c } else x
    (entry? s q idx 0 = some e → Answers (exec (.nopEntry q idx) s) (coded 0 s))
    ∧ (entry? s q idx 2 = some e →
      (∀ v s1, g.num e.arg0 8 s = .ok (v, s1) → (e.arg1 ≤ v → Answers (exec (.waitEntry q idx) s) (coded 0 s1))
        ∧ (v < e.arg1 → exec (.waitEntry q idx) s = .next s1.wake))
      ∧ ∀ d a, g.num e.arg0 8 s = .error (.bad d a) → Answers (exec (.waitEntry q idx) s) (coded 2 s))
    ∧ (entry? s q idx 3 = some e →
      (∀ s1, g.write e.arg0 (leBytes 8 e.arg1) s = .ok ((), s1) → Answers (exec (.signalEntry q idx) s) (coded 0 s1))
      ∧ ∀ d a, g.write e.arg0 (leBytes 8 e.arg1) s = .error (.bad d a) → Answers (exec (.signalEntry q idx) s) (coded 2 s))
    ∧ (entry? s q idx 1 = some e →
      (∀ s1, checkLaunch g e.arg0 s = .ok (none, s1) → Answers (exec (.launchEntry q idx) s) (coded 2 s1))
      ∧ ∀ r gr s1, checkLaunch g e.arg0 s = .ok (some (r, gr), s1) →
        Answers (exec (.launchEntry q idx) s) fun t => t.mem = s1.mem ∧ (∃ l : Launch, t.launches = s1.launches ++ [l] ∧ l.id = s1.ids ∧ l.rc = r
          ∧ l.graph = (if (moduleIx s1 r).isSome then gr else gr.map fun x => { x with recs := [] })
          ∧ l.part = e.part ∧ l.asid = e.asid ∧ l.queue = q ∧ l.idx = idx ∧ l.recAddr = e.arg0 ∧ l.counter = 0 ∧ l.mirror = 0 ∧ l.placed = [] ∧ l.waiting = []
          ∧ l.leader = firstDie s1 e.part ∧ l.total = shareUnits s1 r ∧ l.ended = 0 ∧ l.code = 0 ∧ l.faults = 0 ∧ l.breach = false)
        ∧ t.entries = s1.entries.map fun x => if x.queue == e.queue && x.idx == e.idx then { x with launch := some s1.ids } else x))
  ∧ (∀ (s s1 : State) (g : Agent) (addr : Nat) (r : LRec) (gr : Option Graph), checkLaunch g addr s = .ok (some (r, gr), s1) →
      ∃ b s0, g.read addr 256 .load s = .ok (b, s0) ∧ r = LRec.ofBytes b ∧ addr % 64 = 0 ∧ fld b 0 2 = 1 ∧ 1 ≤ r.nlev ∧ r.nlev ≤ 8 ∧ 8 ≤ r.vregs
        ∧ r.vregs ≤ 256 ∧ r.zcount ≤ 16 ∧ r.spad % 256 = 0 ∧ r.spad ≤ 0xB_0000 ∧ 1 ≤ r.modCount ∧ r.modCount ≤ 32768 ∧ r.domain 0 = 0
        ∧ (∀ n, n + 1 < r.nlev → r.domain n ≤ r.domain (n + 1)) ∧ r.span 0 r.nlev ≤ 2 ^ 43 ∧ (r.graph = 0 ↔ gr = none))
  ∧ ∀ (s : State) (q idx : Nat) (e : Entry), s.entries.find? (fun x => x.queue == q && x.idx == idx) = some e →
    let g := entryAgent s e
    let left := fun (s1 t : State) => t.mem = s1.mem ∧ t.entries = s1.entries.filter (fun x => !(x.queue == e.queue && x.idx == e.idx))
      ∧ t.outs = s1.outs ++ if e.irq then [Outp.msix e.vector] else []
    let record := fun (c faults start flags : Nat) => leBytes 4 (c % 256 + 2 ^ 8 + flags) ++ leBytes 4 (min faults (2 ^ 32 - 1)) ++ leBytes 8 start
      ++ leBytes 8 s.m.time ++ leBytes 4 e.idx ++ leBytes 4 0
    (∀ c, e.code = some c → e.launch = none →
      (e.cpl = 0 → Answers (exec (.entryCompletion q idx) s) (left s))
      ∧ ∀ s1, e.cpl ≠ 0 → g.write e.cpl (record c 0 e.start 0) s = .ok ((), s1) → Answers (exec (.entryCompletion q idx) s) (left s1))
    ∧ ∀ k l, e.code = none → e.launch = some k → s.launch? k = some l →
      ((∃ c ∈ s.cohorts, c.pl.launch = some k) → exec (.entryCompletion q idx) s = .next s.wake)
      ∧ ∀ s1, launchDone s l = true → e.cpl ≠ 0 → l.rc.cpl = 0 →
        g.write e.cpl (record l.code l.faults (l.firstStart.getD e.start) ((if l.breach then 2 ^ 9 else 0) + if l.tunl then 2 ^ 10 else 0)) s = .ok ((), s1) →
        Answers (exec (.entryCompletion q idx) s) fun t => left s1 t ∧ t.launches = s1.launches.filter (fun x => x.id != k)
          ∧ t.held = s1.held.filter fun h => h.launch != k

/-- A grant takes up to 16 units of the module's share in ascending order, the next that no die has, of a persistent launch no more
than the die has room for, the counter and its mirror move past them and their core-bound units wait for the die; a module without a
share gets none. While the leader's die
is up nothing is elected; after its failure the lowest-numbered ready die leads and resumes from the mirror. The next unit of
a launch that nothing outranks is placed whole where its needs are free: each cohort in a free slot that is not reserved,
with its indices, its handles bound and S0 to S7 as stated, the rest of S zero; where it does not fit nothing changes, and a
persistent launch is placed with all its units or not at all. Time moves to a start time that has not come. A die that fails
loses its cohorts and jobs, and every launch that loses units completes with CODE 1. (R282, R284, R286, R287, R288, R293,
R294, R296) -/
def Obligations.UnitsOnTheirWayToCores : Prop :=
  (∀ (s : State) (l : Launch) (die count : Nat), s.launch? l.id = some l → l.halted = false → l.rc.graph = 0 → dieOf s l.part die = true →
    dieOf s l.part l.leader = true →
    (moduleIx s l.rc = none → exec (.unitGrant l.id die count) s = .next s.wake)
    ∧ ∀ ix, moduleIx s l.rc = some ix →
      let n := if l.rc.lcores = 0 then max 1 (min 16 count) else min (grantRoom s l die) (max 1 (min 16 count))
      Answers (exec (.unitGrant l.id die count) s) fun t =>
        ∃ (x : Launch) (us : List Nat), t.launch? l.id = some x ∧ x.mirror = x.counter ∧ l.counter ≤ x.counter ∧ x.granted = l.granted ++ us.map (fun u => (u, die))
          ∧ x.waiting = l.waiting ++ us.flatMap (fun u => (List.range l.rc.perDisp).map fun k => (u * l.rc.perDisp + k, die)) ∧ us.Pairwise (· < ·)
          ∧ (∀ u, u ∈ us ↔ l.counter ≤ u ∧ u < x.counter ∧ u < l.rc.dispUnits ∧ u % l.rc.modCount = ix) ∧ us.length ≤ n
          ∧ (us.length = n ∨ ∀ u, x.counter ≤ u → u < l.rc.dispUnits → u % l.rc.modCount ≠ ix))
  ∧ (∀ (s : State) (l : Launch), s.launch? l.id = some l →
    (dieOf s l.part l.leader = true → exec (.leaderElection l.id) s = .next s.wake)
    ∧ (dieOf s l.part l.leader = false → Answers (exec (.leaderElection l.id) s) fun t => ∃ x : Launch, t.launch? l.id = some x ∧ x.counter = l.mirror
        ∧ ∀ d, dieOf s l.part d = true → (∀ e, e < d → dieOf s l.part e = false) → x.leader = d)
    ∧ Answers (exec (.startTimeReached l.id) s) fun t => t.m.time = max s.m.time l.rc.start ∧ t.mem = s.mem ∧ t.launches = s.launches)
  ∧ (∀ (s : State) (l : Launch) (unit core : Nat), s.launch? l.id = some l → startable s l = true → nextFor l core = some unit → outranked s l core = false →
    (l.rc.lcores = 0 → placeUnit l unit core s = none → exec (.unitPlacement l.id unit core) s = .next s.wake)
    ∧ (l.rc.lcores ≠ 0 → l.waiting.length ≠ l.total → exec (.unitPlacement l.id unit core) s = .next s.wake)
    ∧ (∀ sp cs f, l.rc.lcores = 0 → l.rc.graph = 0 → coreOf s l.part core = true → homeOk l core unit = true → ovFits s core l.part l.asid (l.rc.entry.ovl :: l.rc.ovlreq) = true →
      firstFit spCap l.rc.spad (spUsed s core) = some sp →
      layUnit s l core unit (l.rc.unitAt l.rc.dispLevel unit) sp l.rc.perUnit (freeTiles s (core / 4)) s.cohorts = some (cs, f) →
      Answers (exec (.unitPlacement l.id unit core) s) fun t =>
        (∃ x : Launch, t.launch? l.id = some x ∧ x.placed = l.placed ++ [(unit, core, l.rc.perUnit)] ∧ x.waiting = l.waiting.filter (fun e => e.1 != unit)
          ∧ x.waitSince = s.m.time ∧ x.firstStart = some (l.firstStart.getD s.m.time))
        ∧ ∀ k, k < l.rc.perUnit → ∃ c ∈ t.cohorts, c.pl.id = s.ids + k ∧ c.pl.launch = some l.id ∧ c.pl.core = core ∧ c.pl.lin = unit * l.rc.perUnit + k
          ∧ c.pl.slotIx < 64 ∧ (c.pl.slotIx < 32 → c.pl.slotIx % 8 ≠ 7) ∧ (∀ x ∈ s.cohorts, ¬ (x.pl.core = core ∧ x.pl.slotIx = c.pl.slotIx))
          ∧ c.pl.levels = (List.range 8).map (l.rc.levelOf (unit * l.rc.perUnit + k)) ∧ c.pl.spBase = sp ∧ c.pl.spSize = l.rc.spad
          ∧ c.r.vregs = l.rc.vregs ∧ (∀ n, n < l.rc.zcount → (c.r.rdZ n).isSome = true)
          ∧ c.c.a = some ⟨true, l.rc.entry, Mask.all, false⟩ ∧ c.c.b = none ∧ c.c.needEntry = true
          ∧ (List.range 8).map c.r.rdS = [BitVec.ofNat 32 l.rc.param, BitVec.ofNat 32 (l.rc.param / 2 ^ 32), BitVec.ofNat 32 l.recAddr,
              BitVec.ofNat 32 (l.recAddr / 2 ^ 32), BitVec.ofNat 32 unit, BitVec.ofNat 32 k, BitVec.ofNat 32 (l.rc.lcores + 65536 * l.rc.wgroups), l.rc.lkey]
          ∧ ∀ n, 8 ≤ n → n < 128 → c.r.rdS n = 0#32)
    ∧ ∀ s1, l.rc.lcores ≠ 0 → (∀ e ∈ l.waiting, e.1 < l.rc.units) → tryPlace l unit core s = some s1 → Answers (exec (.unitPlacement l.id unit core) s) fun t =>
        t.cohorts.length = s1.cohorts.length ∧ ∃ x : Launch, t.launch? l.id = some x ∧ x.waiting = [])
  ∧ ∀ (s : State) (die : Nat), die < 4 → (s.cohorts.map fun c => c.pl.id).Nodup → Answers (exec (.dieFailure die) s) fun t => die ∈ t.m.failedDies ∧ dieReady t die = false
      ∧ (∀ c ∈ t.cohorts, c.pl.core / 1024 ≠ die) ∧ (∀ j ∈ t.jobs, j.die ≠ die) ∧ (∀ x ∈ t.l1, x.core / 1024 ≠ die)
      ∧ ∀ l ∈ s.launches, lostUnits s l die ≠ [] → ∃ x ∈ t.launches, x.id = l.id ∧ x.code ≠ 0
          ∧ ∀ e ∈ x.waiting, l.rc.unitAt l.rc.dispLevel e.1 ∉ lostUnits s l die

/-- A driver's request saves the named launch's unit: results are written, dirty bytes go home, the frame lies at SAVEPTR + u
× USZ, the unit's cohorts leave. A launch without SAVEPTR is not saved; where a cohort of the unit stands in its handler, or
the partition has a generator, the request stays. Pre-emption needs EN; its victims lie MINGAP below the waiting launch, have a
SAVEPTR and stand in no handler, the lowest PRIO first and of one PRIO the youngest unit, and it saves the first of them. A cohort frame holds its registers at the stated
bytes and gives them back. A restore waits for a place; it gives each cohort its registers, slots and batch from the frame
under its old indices, and the unit fails with CODE 1 where the frame cannot be read. No unplaced unit of a launch starts
before its saved units. (R304, R305, R306, R307) -/
def Obligations.SavedAndRestoredUnits : Prop :=
  (∀ (s : State) (l : Launch) (unit core : Nat) (c : Cohort) (rest : List Cohort), s.launches.filter (fun x => x.id == l.id) = [l] →
    (s.cohorts.map fun c => c.pl.id).Nodup →
    s.saving = [] →
    (l.rc.save = 0 → exec (.driverSaveRequest true l.id) s = .next s.wake)
    ∧ ∀ young, savable s l = [(unit, core, young)] → unitCohorts s l unit = c :: rest →
      let s0 := { s with saving := [SaveReq.unit l.id unit core] }
      ((∃ x ∈ c :: rest, x.c.hm = true) → exec (.driverSaveRequest true l.id) s = .next s0.wake)
      ∧ ((∀ x ∈ c :: rest, canSave s x = true) → s.passes = [] → s.dlog = [] → (∀ x ∈ c :: rest, ∀ r ∈ x.c.late, r.cause ≠ 0x24) →
        let s1 := (c :: rest).foldl (fun s x => settleCohort x.pl.id s) s0
        let s2 := writeBackAll core s1
        let g : Agent := ⟨l.part, l.asid, c.pl.priv, 2 ^ 66 + l.id * 2 ^ 44 + unit, some core, none, none⟩
        accessOut s1 ((c :: rest).map fun x => x.pl.id) = false → spPoisoned s2 (spPa core c.pl.spBase) l.rc.spad = false → backParked s2 core = false →
        ∀ s3, (AM.each (frameWrites s2 l unit core) fun e => g.write e.1 e.2) s2 = .ok ((), s3) → s3.cohorts = s2.cohorts →
          Answers (exec (.driverSaveRequest true l.id) s) fun t => t.mem = s3.mem ∧ SaveReq.unit l.id unit core ∉ t.saving
            ∧ (∀ x ∈ t.cohorts, ¬ (x.pl.launch = some l.id ∧ x.pl.unit = unit))
            ∧ ∃ y : Saved, t.saved = s3.saved ++ [y] ∧ y.launch = l.id ∧ y.unit = unit ∧ y.frame = l.rc.save + unit * frameSize l.rc))
  ∧ (∀ (s : State) (n : Nat), (∃ c ∈ s.cohorts, c.pl.part = n ∧ c.x.gen.isSome = true) → s.saving = [] →
      exec (.driverSaveRequest false n) s = .next (State.wake { s with saving := [.part n] }))
  ∧ (∀ r : LRec, frameSize r = (r.together * (1408 + 128 * r.vregs) + r.spad + 17408 * r.zcount * r.together + 4096 + 4095) / 4096 * 4096
      ∧ r.together = if r.graph = 0 then r.perUnit else 1)
  ∧ (∀ (s : State) (p : Nat) (l : Launch),
    let ws := s.launches.filter fun x => x.part == p && waitedLong s x && !placeable s x
    ((s.part p).preempt.getLsbD 0 = false ∨ ws = [] → exec (.priorityPreemption p) s = .next s.wake)
    ∧ ((s.part p).preempt.getLsbD 0 = true → ws = [l] → s.saving = [] → ∀ v u k y s1 more, saveVictims s l = (v, u, k, y) :: more →
        s.launch? v.id = some v → saveUnit v u k { s with saving := [.unit v.id u k] } = .saved s1 →
        exec (.priorityPreemption p) s = .next (State.wake { s1 with saving := s1.saving.filter (· != .unit v.id u k) }))
    ∧ (saveVictims s l).Pairwise (fun a b => a.1.rc.prio ≤ b.1.rc.prio ∧ (a.1.rc.prio = b.1.rc.prio → b.2.2.2 ≤ a.2.2.2))
    ∧ ∀ e ∈ saveVictims s l, e.1 ∈ s.launches ∧ e.1.part = l.part ∧ e.1.rc.save ≠ 0 ∧ e.1.rc.prio < l.rc.prio
        ∧ e.1.rc.prio + ((s.part l.part).preempt.extractLsb' 8 3).toNat ≤ l.rc.prio ∧ ∀ x ∈ unitCohorts s e.1 e.2.1, x.c.hm = false)
  ∧ (∀ (s : State) (l : Launch) (c : Cohort) (r : Regs), c.r.vregs = l.rc.vregs → c.c.tsave.length = 4 → (∀ i, i < 32 → c.r.rdSeq i ≤ 65535) →
    c.c.dstop < 2 ^ 32 →
    let b := cohortBytes s l c
    let x := frameRegs b l.rc.vregs r
    b.length = 1408 + 128 * l.rc.vregs
    ∧ (∀ n, n < 128 → fld b (4 * n) 4 = (c.r.rdS n).toNat ∧ x.rdS n = c.r.rdS n) ∧ (∀ n, n < 16 → fld b (512 + 16 * n) 16 = (c.r.rdPL n).toNat ∧ x.rdPL n = c.r.rdPL n)
    ∧ (∀ n, n < 8 → fld b (768 + 4 * n) 4 = (c.r.rdP n).toNat ∧ x.rdP n = c.r.rdP n ∧ x.rdQ n = c.r.rdQ n)
    ∧ fld b 804 4 = c.r.fpstat.toNat ∧ x.fpstat = c.r.fpstat ∧ fld b 808 4 = c.r.drround.toNat ∧ x.drround = c.r.drround ∧ fld b 812 4 = c.c.dstop
    ∧ fld b 848 4 = c.x.batch % 65536 ∧ fld b 1008 8 = l.id % 2 ^ 64 ∧ (∀ k, k < 4 → fld b (1088 + 4 * k) 4 = (nth c.c.tsave k 0#32).toNat)
    ∧ (∀ h, h < 16 → fld b (992 + h) 1 = (c.r.rdZ h).getD 255 % 256)
    ∧ (∀ i, i < 32 → fld b (1024 + 2 * i) 2 = c.r.rdSeq i ∧ x.rdSeq i = c.r.rdSeq i)
    ∧ ∀ n i, n < l.rc.vregs → i < 32 → fld b (1408 + 128 * n + 4 * i) 4 = (c.r.rdV n i).toNat ∧ x.rdV n i = c.r.rdV n i)
  ∧ (∀ (s : State) (l : Launch), (∃ x ∈ s.saved, x.launch = l.id) → startable s l = false)
  ∧ ∀ (s : State) (l : Launch) (x : Saved) (core : Nat), s.saved.find? (fun y => y.id == x.id) = some x → s.launch? x.launch = some l → l.halted = false →
    s.m.stopped = false → dieFits l x.die core = true → outranked s l core = false → x.books = [] →
    let g : Agent := ⟨l.part, l.asid, privOf s l.part l.asid, 2 ^ 66 + l.id * 2 ^ 44 + x.unit, none, none, none⟩
    (placeUnit l x.unit core s = none → exec (.contextRestore x.id core) s = .next s.wake)
    ∧ ∀ s1, placeUnit l x.unit core s = some s1 →
      (∀ d a, readFrame l x g s = .error (.bad d a) → Answers (exec (.contextRestore x.id core) s) fun t =>
        t.saved = s.saved.filter (fun y => y.id != x.id) ∧ t.cur = s.wake.cur ∧ ∃ y ∈ t.launches, y.id = l.id ∧ y.code ≠ 0)
      ∧ ∀ heads sp tiles pend books s2, readFrame l x g s = .ok ((heads, sp, tiles, pend, books), s2) → frameOk l heads tiles = true →
        (x.cohorts.map fun y => y.ix).Nodup → Answers (exec (.contextRestore x.id core) s) fun t => t.saved = s.saved.filter (fun y => y.id != x.id)
          ∧ ∀ y ∈ x.cohorts, y.ix < l.rc.together → ∃ c ∈ t.cohorts, c.pl.id = y.id ∧ c.pl.core = core ∧ c.pl.lin = x.unit * l.rc.together + y.ix
            ∧ (y.inv = none → c.pl.levels = (List.range 8).map (l.rc.levelOf c.pl.lin)) ∧ (∀ i, y.inv = some i → l.graph.isSome = true →
              c.pl.levels = [i.index, 0, 0, 0, 0, 0, 0, 0]) ∧ c.r.fpstat = BitVec.ofNat 32 (fld (nth heads y.ix []) 804 4)
            ∧ (∀ n, n < 128 → c.r.rdS n = BitVec.ofNat 32 (fld (nth heads y.ix []) (4 * n) 4))
            ∧ (∀ n i, n < l.rc.vregs → i < 32 → c.r.rdV n i = BitVec.ofNat 32 (fld (nth heads y.ix []) (1408 + 128 * n + 4 * i) 4))
            ∧ c.c.dstop = fld (nth heads y.ix []) 812 4 ∧ c.x.batch = fld (nth heads y.ix []) 848 2
            ∧ c.c.tsave = (List.range 4).map (fun k => BitVec.ofNat 32 (fld (nth heads y.ix []) (1088 + 4 * k) 4))

/-- A request parks where the slice and the partition have room, the first on its sector writes a class 1 record, an
uncorrectable read poisons the sector; a cohort's lane refused for want of room takes a late poison trap. The first request
on a repaired sector replays: a load's register receives the bytes, a store's bytes are written, a host read and a remote
read are answered; a poisoned sector keeps it parked. After CQTMO ms every request of the partition on the sector is refused,
with 0 none ever. A held update on its way is accepted into its buffer, applied at once when its round is closed, left
on its way while its spill write waits, and refused with a SEQ above 65,535: its round is failed and its cohort takes the late trap. (R234, R253, R254, R255, R399, R400) -/
def Obligations.ParkedRequestsAndHeldUpdates : Prop :=
  (∀ (s : State) (part pa kind : Nat), kind < 3 →
    let w := pa / 64 * 64
    let die := dieHome pa 0
    let same := s.parked.filter fun x => sliceOf x.pa == sliceOf pa && x.die == die
    let room := same.length < 64 ∧ (same.filter fun x => x.part == part).length < 16
    let poisons := fun (t : State) => t.poison = if kind = 0 ∧ w ∉ s.poison then s.poison ++ [w] else s.poison
    (room → w ∉ s.poison → (∀ x ∈ s.parked, x.pa ≠ w) → (s.part part).fltBase = 0#64 → Answers (exec (.parkedRequest part pa kind) s) fun t => poisons t ∧ t.mem = s.mem
      ∧ t.parked = s.parked ++ [Parked.mk s.ids part w pa 0#32 (0x40 + kind) s.m.time .other die none])
    ∧ (room → (∃ x ∈ s.parked, x.pa = w) → Answers (exec (.parkedRequest part pa kind) s) fun t => poisons t ∧ t.mem = s.mem ∧ t.parts = s.parts
      ∧ t.parked = s.parked ++ [Parked.mk s.ids part w pa 0#32 (0x40 + kind) s.m.time .other die none])
    ∧ (room → (∀ x ∈ s.parked, x.pa ≠ w) → ∀ req, ∃ k, parkReq part pa die pa 0#32 (0x40 + kind) req s
        = { ({ s with ids := s.ids + 1 }.ring part (plainRec (0x40 + kind) 0 1 w)).2 with parked := s.parked ++ [k] } ∧ k.req = req ∧ k.cause = 0x40 + kind ∧ k.die = die)
    ∧ (¬ room → Answers (exec (.parkedRequest part pa kind) s) fun t => poisons t ∧ t.parked = s.parked ∧ t.mem = s.mem)
    ∧ (¬ room → ∀ c reg lane ty sc ca pc x, s.cohort? c = some x → x.c.ending = none → ∃ y, (parkReq part pa die pa 0#32 0x41 (.load c reg lane pa ty sc ca pc) s).cohort? c = some y
        ∧ ∃ r ∈ y.c.late, r.cause = 0x07 ∧ (x.c.late = [] → r.detail = 1 ∧ r.pc = pc)))
  ∧ (∀ (s : State) (n : Nat) (q : Parked), s.parked.find? (fun x => x.id == n) = some q →
    let kept := s.parked.filter fun x => x.id != n
    let first := s.parked.find? (fun x => x.pa == q.pa && x.die == q.die) = some q
    let alone := fun (k a : Nat) => s.l1? k (a / 64) = none
    (q.cause ≠ 0x42 → q.pa ∈ s.poison → exec (.parkedReplay n) s = .next s.wake)
    ∧ (¬ first → exec (.parkedReplay n) s = .next s.wake)
    ∧ (q.cause ≠ 0x42 → q.pa ∉ s.poison → first →
      (∀ c reg lane pa ty sc ca pc x, q.req = .load c reg lane pa ty sc ca pc → s.cohort? c = some x → pa / 64 * 64 = q.pa → pa % 64 + Ty.bytes ty ≤ 64 →
        alone x.pl.core pa → Answers (exec (.parkedReplay n) s) fun t => (l1Served sc ca = false → t.parked = kept ∧ t.mem = s.mem) ∧ ∃ y, t.cohort? c = some y
          ∧ y.r = Pend.apply ⟨dstN (.v (BitVec.ofNat 8 reg)) (some lane) ty.regs (loadVal ty (s.bytes pa (Ty.bytes ty))), 0, none⟩ x.r)
      ∧ (∀ c lane data pc, q.req = .store c lane data pc → (data.map fun e => e.1).Nodup → (∀ k, q.core = some k → alone k (data.headD (0, 0#8)).1) →
        Answers (exec (.parkedReplay n) s) fun t => t.parked = kept
        ∧ (∀ e ∈ data, s.live e.1 = false → t.byte e.1 = e.2) ∧ ∀ a, (∀ e ∈ data, e.1 = a → s.live a = true) → t.byte a = s.byte a)
      ∧ (∀ src k, q.req = .remote src none k → zRefuse s q.va (zCount k) = none → zPoison s false q.va (zCount k) = none →
        Answers (exec (.parkedReplay n) s) fun t => t.parked = kept ∧ t.mem = s.mem
        ∧ t.outs = s.outs ++ [Outp.zwiovReply src (s.bytes q.va (zCount k))])
      ∧ (q.req = .other → Answers (exec (.parkedReplay n) s) fun t => t.parked = kept ∧ t.mem = s.mem ∧ t.outs = s.outs))
    ∧ (let tmo := ((s.part q.part).fltCtl.extractLsb' 32 16).toNat
      (tmo = 0 → exec (.conservationTimeout n) s = .next s.wake)
      ∧ ((∀ x ∈ s.parked, x.pa = q.pa → x.part = q.part → s.m.time < x.since + tmo * 1000000) → exec (.conservationTimeout n) s = .next s.wake)
      ∧ (tmo ≠ 0 → q.since + tmo * 1000000 ≤ s.m.time → q.pa % 64 = 0 → q.pa < 2 ^ 52 →
        Answers (exec (.conservationTimeout n) s) fun t => (∀ x ∈ t.parked, ¬ (x.pa = q.pa ∧ x.part = q.part))
          ∧ ∀ c reg lane pa ty sc ca pc x, q.req = .load c reg lane pa ty sc ca pc → s.cohort? c = some x → x.c.ending = none →
              ∃ y, t.cohort? c = some y ∧ ∃ r ∈ y.c.late, r.cause = 0x07)))
  ∧ ∀ (s : State) (n : Nat) (h : Held) (l : Launch), s.held.find? (fun x => x.id == n && x.transit) = some h → s.launch? h.launch = some l →
    let rest := s.held.filter fun x => x.id != n
    let s0 := { s with held := rest }
    (∀ k, h.core s = some k → s.l1? k (h.pa / 64) = none) →
    (l.closed ≤ h.round → h.seq ≤ 65535 → (∀ x ∈ rest, x.transit = false → x.launch = h.launch → x.round = h.round → x.pa = h.pa → x.width = h.width) →
      (hasLine s0 h = true → Answers (exec (.heldUpdateAccept n) s) fun t => t.held = rest ++ [{ h with transit := false }] ∧ t.mem = s.mem)
      ∧ (hasLine s0 h = false → spill h l s0 = .error .waits → Answers (exec (.heldUpdateAccept n) s) fun t =>
          t.held = rest ++ [{ h with transit := true }] ∧ t.mem = s.mem)
      ∧ ∀ k s1, hasLine s0 h = false → spill h l s0 = .ok (k, s1) → Answers (exec (.heldUpdateAccept n) s) fun t =>
          t.held = s1.held ++ [{ h with transit := false, spilled := some k }] ∧ t.mem = s1.mem)
    ∧ (h.round < l.closed → Answers (exec (.heldUpdateAccept n) s) fun t => t.held = rest ∧ (∃ x ∈ t.launches, x.id = h.launch ∧ x.breach = true)
      ∧ t.bytes h.pa h.width = leBytes h.width (atomNew h.op (if h.width = 8 then .f64 else .f32) (leNat (s.bytes h.pa h.width)) h.value.toNat 0)
      ∧ ∀ a, a < h.pa ∨ h.pa + h.width ≤ a → t.byte a = s.byte a)
    ∧ (l.closed ≤ h.round → 65535 < h.seq ∨ (l.rc.spill = 0 ∧ hasLine s0 h = false) → Answers (exec (.heldUpdateAccept n) s) fun t => t.held = rest
      ∧ (∃ x ∈ t.launches, x.id = h.launch ∧ h.round ∈ x.failedRounds)
      ∧ ∀ c, h.src = none → s.cohort? h.cohort = some c → c.c.ending = none → t.mem = s.mem ∧ ∃ y, t.cohort? h.cohort = some y ∧ ∃ r ∈ y.c.late, r.cause = 0x22)

/-- A cold start runs its steps in order up to the first that fails, sets their READY bits but those of failed dies and
ports, counts itself and clears memory; MODULE is set when every step passed. A warm start skips steps 2 and 3 when standby
power was kept, firmware is unchanged and they had not failed, keeps DRAM with KEEP and device time with standby power. A
proposed margin point is applied within [LO, HI] with AUTO alone, a change recorded and reported. Above the limit the
governor sets the refill, then lowers the clock, then gates; at or below it releases in the reverse order. From 105 °C on the
clock falls by 100 MHz, not below 1,500 MHz, each step reported, until 100 °C, and at 115 °C the
module stops. A docent sweep, once its PERIOD has passed, lowers each nonzero heat field
by one, an access raises them up to 3, BUSY leaves stay, and only the heat fields change. A tick and a refill let time pass
to the next multiple of their period. (R20, R22, R151, R227, R363, R371, R407, R408, R409, R410) -/
def Obligations.StartUpPowerHeatAndBeat : Prop :=
  (∀ (s : State) (failed : List Nat),
    let ok := fun (n : Nat) => ∀ k, 1 ≤ k → k ≤ n → k ∉ failed
    let booted := fun (warm : Bool) (t : State) => t.launches = [] ∧ t.entries = [] ∧ t.cohorts = [] ∧ t.parts = State.reset.parts
      ∧ (t.m.ready.getLsbD 63 = true ↔ ok 7) ∧ (t.m.ready.getLsbD 62 = true ↔ ok 7) ∧ (t.m.ready.getLsbD 61 = true ↔ ok 6) ∧ (t.m.ready.getLsbD 2 = true ↔ ok 6)
      ∧ (t.m.ready.getLsbD 1 = true ↔ ok 5) ∧ (t.m.ready.getLsbD 41 = true ↔ ok 4) ∧ (t.m.ready.getLsbD 3 = true ↔ ok 1)
      ∧ (∀ p, p < 18 → (t.m.ready.getLsbD (42 + p) = true ↔ ok 4 ∧ 32 + p ∉ failed))
      ∧ (∀ d j, d < 4 → 3 ≤ j → j < 7 → (t.m.ready.getLsbD (8 + 8 * d + j) = true ↔ ok 4 ∧ 16 + d ∉ failed))
      ∧ t.m.startstat.extractLsb' 32 32 = s.m.startstat.extractLsb' 32 32 + 1#32 ∧ t.m.startstat.getLsbD 8 = warm ∧ t.m.startstat.getLsbD 0 = false
      ∧ ∀ k, 1 ≤ k → k ≤ 7 → (t.m.startstat.getLsbD k = true ↔ k ∈ failed ∧ ok (k - 1))
    Answers (exec (.coldStart failed) s) (fun t => booted false t ∧ t.mem = [] ∧ (t.m.ready.getLsbD 60 = true ↔ ok 3)
      ∧ ∀ d, d < 4 → (t.m.ready.getLsbD (8 + 8 * d) = true ↔ ok 2 ∧ 16 + d ∉ failed))
    ∧ (2 ∉ failed → 3 ∉ failed → s.m.startstat.getLsbD 2 = false → s.m.startstat.getLsbD 3 = false → Answers (exec (.warmStart failed true true) s) fun t =>
        booted true t ∧ t.m.time = s.m.time ∧ t.m.ready.getLsbD 60 = true ∧ (∀ d, d < 4 → 16 + d ∉ failed → t.m.ready.getLsbD (8 + 8 * d) = true)
        ∧ (s.m.startstat.getLsbD 0 = true → ∀ a, a < 2 ^ 51 → t.byte a = s.byte a) ∧ (s.m.startstat.getLsbD 0 = false → t.mem = []))
    ∧ Answers (exec (.warmStart failed false false) s) (fun t => booted true t ∧ t.mem = [] ∧ t.m.time = 0))
  ∧ (∀ (s : State) (p : Nat), p < 16 →
    let c := s.m.marginctl
    let within := c.getLsbD 0 = true ∧ (c.extractLsb' 8 4).toNat ≤ p ∧ p ≤ (c.extractLsb' 12 4).toNat
    Answers (exec (.marginApply p) s) fun t => (t.m.marginctl.extractLsb' 20 4).toNat = p ∧ t.m.marginctl.extractLsb' 0 16 = c.extractLsb' 0 16 ∧ t.m.mhz = s.m.mhz
      ∧ (within → (t.m.marginctl.extractLsb' 16 4).toNat = p ∧ t.m.marginPt = p
        ∧ t.outs = s.outs ++ if (c.extractLsb' 16 4).toNat = p then [] else [Outp.report repMargin])
      ∧ (¬ within → t.m.marginctl.extractLsb' 16 4 = c.extractLsb' 16 4 ∧ t.m.marginPt = s.m.marginPt ∧ t.outs = s.outs))
  ∧ (∀ (s : State) (watts refill : Nat),
    let limit := (s.m.pwrctl.extractLsb' 0 12).toNat
    let gate := (s.m.pwrctl.extractLsb' 28 4).toNat
    let r := max 10240 (min 2097151 refill)
    let floor := ∀ q, q < 1024 → (s.budget q).refill = 10240
    let refilled := fun (t : State) => t.m = s.m ∧ ∀ q, q < 1024 → t.budget q = ⟨r, min (2 * r) (s.budget q).balance⟩
    let clocked := fun (g gov : Nat) (t : State) => t.m.gov = gov ∧ t.m.therm = s.m.therm ∧ (t.m.pwrctl.extractLsb' 28 4).toNat = g % 16
      ∧ (t.m.pwrctl.extractLsb' 16 12).toNat = min gov s.m.therm % 4096 ∧ (t.m.pwrctl.extractLsb' 0 12).toNat = limit ∧ t.budgets = s.budgets
    Answers (exec (.powerGovernorMeasure watts refill) s) fun t => t.mem = s.mem ∧ t.outs = s.outs
      ∧ (limit < watts → (¬ floor → refilled t) ∧ (floor → 1500 < s.m.gov → clocked gate (max 1500 (s.m.gov - 100)) t)
        ∧ (floor → s.m.gov ≤ 1500 → clocked (min 15 (gate + 1)) s.m.gov t))
      ∧ (watts ≤ limit → (0 < gate → clocked (gate - 1) s.m.gov t) ∧ (gate = 0 → s.m.gov < s.m.clkplan → clocked 0 (min s.m.clkplan (s.m.gov + 100)) t)
        ∧ (gate = 0 → s.m.clkplan ≤ s.m.gov → refilled t)))
  ∧ (∀ (s : State) (c : Nat),
    let hot := 105 ≤ c ∨ (s.m.hot = true ∧ 100 ≤ c)
    let set := fun (x : Nat) (t : State) => t.m.therm = x ∧ t.m.gov = s.m.gov ∧ (t.m.pwrctl.extractLsb' 16 12).toNat = min s.m.gov x % 4096
    (115 ≤ c → exec (.thermalStep c) s = exec .thermalMachineCheck s)
    ∧ (c < 115 → Answers (exec (.thermalStep c) s) fun t => t.mem = s.mem ∧ (t.m.hot = true ↔ hot)
      ∧ (hot → 1500 < s.m.therm → set (max 1500 (s.m.therm - 100)) t ∧ t.outs = s.outs ++ [Outp.report repThermal])
      ∧ (hot → s.m.therm ≤ 1500 → t.m.therm = s.m.therm ∧ t.m.pwrctl = s.m.pwrctl)
      ∧ (c < 100 → s.m.therm < s.m.clkplan → set (min s.m.clkplan (s.m.therm + 100)) t)
      ∧ (¬ hot → 100 ≤ c → t.m.therm = s.m.therm ∧ t.m.pwrctl = s.m.pwrctl)))
  ∧ (∀ (s : State) (at_ : Nat) (rd wr : Bool),
    let entry := fun (t : State) => (BitVec.ofNat 64 (leNat (t.bytes at_ 8)) : Dword)
    let e := entry s
    let heats := fun (t : State) => ((entry t).extractLsb' 59 2).toNat + 4 * ((entry t).extractLsb' 57 2).toNat
    let rest := fun (t : State) => (∀ i, i < 57 ∨ 60 < i → (entry t).getLsbD i = e.getLsbD i) ∧ ∀ a, a ≠ at_ + 7 → t.byte a = s.byte a
    let up := fun (b : Bool) (x : Nat) => if b then min 3 (x + 1) else x
    rest (coolEntry at_ s) ∧ rest (raiseHeat rd wr at_ s)
    ∧ (Pte.busy e = true → coolEntry at_ s = s ∧ raiseHeat rd wr at_ s = s)
    ∧ (Pte.busy e = false → heats (coolEntry at_ s) = ((e.extractLsb' 59 2).toNat - 1) + 4 * ((e.extractLsb' 57 2).toNat - 1))
    ∧ (Pte.busy e = false → Pte.v e = true → heats (raiseHeat rd wr at_ s) = up rd (e.extractLsb' 59 2).toNat + 4 * up wr (e.extractLsb' 57 2).toNat))
  ∧ (∀ (s : State) (part asid : Nat) (va : Dword) (rd wr : Bool) (t : Tr) (x : List Byte), part < 16 →
    ((s.part part).heat.getLsbD 0 = false → exec (.heatRaise part asid va rd wr) s = .next s.wake)
    ∧ ((s.part part).heat.getLsbD 0 = true → walk s part asid 0 va.toNat = .ok t → exec (.heatRaise part asid va rd wr) s = .next (State.wake (raiseHeat rd wr t.at_ s)))
    ∧ (let ms := ((s.part part).heat.extractLsb' 32 10).toNat
      (ms = 0 ∨ s.m.time < (s.part part).swept + min ms 1000 * 1000000 → exec (.docentSweep part) s = .next s.wake)
      ∧ ∀ a, ms ≠ 0 → (s.part part).swept + min ms 1000 * 1000000 ≤ s.m.time → (s.part part).heat.getLsbD 1 = false → tenantsOf s part = [a] →
        tenant? s part a = some x →
        exec (.docentSweep part) s = .next (State.wake (coolTable part 4 (tRoot x) (s.updPart part fun p => { p with swept := s.m.time })))))
  ∧ ∀ (s : State) (fabric : Bool),
    let p := if fabric then 2048 else 64
    Answers (exec (.heartbeatTick fabric) s) (fun t => t.m.time = (s.m.time / p + 1) * p ∧ t.mem = s.mem ∧ t.launches = s.launches)
    ∧ Answers (exec .budgetRefill s) fun t => t.m.time = (s.m.time / 1000 + 1) * 1000 ∧ t.mem = s.mem
        ∧ ∀ q, t.budget q = ⟨(s.budget q).refill, min (2 * (s.budget q).refill) ((s.budget q).balance + (s.budget q).refill)⟩

/-- An error in a pipeline rolls the cohort back to its open IDEM: slots and DSTOP as recorded, outstanding results written,
the rollback counted in ROLLB and recorded. Without an open region, after a changed input, after three rollbacks and in a
handler the cohort ends with 0x0031 detail 1, 0x0032, 0x0031 detail 3 and 0x0030. A register error rolls back where the
region wrote the register first and ends the cohort otherwise. Dirty L1 bytes are lost and poison their home, a scratchpad
word, a home sector and a reservoir record are marked, a row no longer matches its CHECK, a pass is discarded with POISON
set. A correction and a replayed stage change nothing but their saturating counter. Quiescing ends a partition's cohorts,
copies and parked requests, fails its entries with CODE 1, raises vector 0 and sets STOPPED; other partitions' cohorts stay.
The thermal and power checks stop the module. (R22, R24, R379, R401, R402, R403, R411) -/
def Obligations.MachineErrorsAndContainment : Prop :=
  (∀ (s : State), s.cur.resident = true → s.cur.c.ending = none → s.cur.pl.part < s.parts.length →
    let hit := fun (e : ErrSite) => exec (.uncorrectableError e) s
    let id := s.cur.pl.id
    let ended := fun (e : ErrSite) (cause detail : Nat) => ∃ r s', hit e = .next (State.wake (endOnFault r s')) ∧ r.cause = cause ∧ r.detail = detail
    (s.cur.c.hm = true → ended (.pipeline id) 0x30 0x31)
    ∧ (s.cur.c.hm = false → s.cur.c.idem = none → ended (.pipeline id) 0x31 1 ∧ ∀ cls ix, ended (.register id cls ix) 0x31 1)
    ∧ ∀ i, s.cur.c.hm = false → s.cur.c.idem = some i →
      (i.spoiled = true → ended (.pipeline id) 0x32 0) ∧ (i.spoiled = false → 3 ≤ i.rolls → ended (.pipeline id) 0x31 3)
      ∧ (i.spoiled = false → i.rolls < 3 → Answers (hit (.pipeline id)) fun t => t.cur.c.a = i.a ∧ t.cur.c.b = i.b ∧ t.cur.c.dstop = i.dstop
        ∧ t.cur.c.idem = some { i with inputs := [], written := [], spoiled := false, rolls := i.rolls + 1, again := true } ∧ t.cur.r = settled s
        ∧ (s.cur.c.barAt = none → t.mem = (s.ring s.cur.pl.part (rollRec s i)).2.mem) ∧ (rollRec s i).cause = 0x63 ∧ (rollRec s i).pc = i.pc
        ∧ (rollRec s i).detail = i.rolls + 1 ∧ (rollRec s i).cls = 3 ∧ (rollRec s i).addr = 0
        ∧ ((t.part s.cur.pl.part).errCnt.extractLsb' 16 16).toNat = min 65535 (((s.part s.cur.pl.part).errCnt.extractLsb' 16 16).toNat + 1))
      ∧ ∀ cls ix, cls < 4 →
        let key := (if cls = 0 then 0 else if cls = 1 then 256 else if cls = 2 then 384 else 392) + ix
        (key ∈ i.written → key ∉ i.inputs → hit (.register id cls ix) = hit (.pipeline id))
        ∧ (key ∉ i.written ∨ key ∈ i.inputs → ended (.register id cls ix) 0x31 2))
  ∧ (∀ (s : State),
    let hit := fun (e : ErrSite) => exec (.uncorrectableError e) s
    (∀ core line x, s.l1? core line = some x → x.dirty = 0#64 → (∀ c ∈ s.cohorts, c.pl.core ≠ core ∨ c.c.ending.isSome = true) →
        hit (.l1Clean core line) = .next (State.wake (s.delL1 core line)))
    ∧ (∀ core line x, s.l1? core line = some x → Answers (hit (.l1Dirty core line)) fun t => t.l1 = (s.delL1 core line).l1 ∧ ((s.part x.part).fltBase = 0#64 → 64 * line ∈ t.poison)
        ∧ t.mem = (s.ring x.part (plainRec 0x62 0 2 0)).2.mem)
    ∧ (∀ pa, Answers (hit (.scratch pa)) fun t => pa / 4 * 4 ∈ t.spPoison ∧ t.mem = s.mem)
    ∧ (∀ pa, (s.part s.cur.pl.part).fltBase = 0#64 → Answers (hit (.home pa)) fun t => pa / 64 * 64 ∈ t.poison)
    ∧ (∀ plane x y, Answers (hit (.reservoir plane x y)) fun t => rsvKey plane x y ∈ t.rsvPoison ∧ t.resv = s.resv)
    ∧ (∀ core slot byte, Answers (hit (.istore core slot byte)) fun t => t.mem = s.mem ∧ t.slots = s.slots.map fun o =>
        if o.core = core ∧ o.ix = slot then { o with blocks := o.blocks.modify (byte / 64) fun b => b ^^^ (1#512 <<< (8 * (byte % 64))) } else o)
    ∧ (∀ q t m, (s.tile q t).rowOk m = true → Answers (hit (.accum q t m)) fun u => (u.tile q t).rowOk m = false ∧ (u.tile q t).cells = (s.tile q t).cells)
    ∧ (∀ p, p ∈ s.passes → (∀ x ∈ s.passes, x.quad = p.quad → x = p) → Answers (hit (.passData p.quad)) fun t => p ∉ t.passes ∧ (t.tile p.quad p.tile).poison = true
        ∧ (t.tile p.quad p.tile).cells = (s.tile p.quad p.tile).cells)
    ∧ ∀ r c x, r ∈ s.rays → (∀ y ∈ s.rays, y.id = r.id → y = r) → r.cohort = some c → s.cohort? c = some x → x.c.ending = none →
        Answers (hit (.hart r.id)) fun t => r ∉ t.rays ∧ ∃ y, t.cohort? c = some y ∧ ∃ z ∈ y.c.late, z.cause = Cause.traversal)
  ∧ (∀ (s : State) (p code pa : Nat), p < 16 → p < s.parts.length →
    let count := fun (lo : Nat) (t : State) => ((t.part p).errCnt.extractLsb' lo 16).toNat = min 65535 (((s.part p).errCnt.extractLsb' lo 16).toNat + 1)
      ∧ ∀ k, k < 4 → 16 * k ≠ lo → (t.part p).errCnt.extractLsb' (16 * k) 16 = (s.part p).errCnt.extractLsb' (16 * k) 16
    let kept := fun (t : State) => t.cur = s.wake.cur ∧ t.others = s.wake.others
    Answers (exec (.eccCorrection p code pa) s) (fun t => count 48 t ∧ kept t
      ∧ t.mem = if (s.part p).fltCtl.getLsbD 0 = true then (s.ring p (plainRec 0x60 code 3 pa)).2.mem else s.mem)
    ∧ Answers (exec (.timingReplay p) s) (fun t => count 32 t ∧ kept t
      ∧ t.mem = if (s.part p).fltCtl.getLsbD 0 = true then (s.ring p (plainRec 0x61 0 3 0)).2.mem else s.mem))
  ∧ (∀ (s : State) (p : Nat), p < 16 → p < s.parts.length → (s.cohorts.map fun c => c.pl.id).Nodup →
    exec (.uncorrectableError (.shared [p])) s = exec (.partitionQuiesce p) s
    ∧ Answers (exec (.partitionQuiesce p) s) fun t => (t.part p).cfg.getLsbD 1 = true ∧ (∃ o, t.outs = o ++ [Outp.msix 0])
      ∧ (∀ c ∈ t.cohorts, c.pl.part ≠ p) ∧ (∀ c ∈ s.cohorts, c.pl.part ≠ p → ∃ x ∈ t.cohorts, x.pl = c.pl) ∧ (∀ c ∈ t.copies, c.part ≠ p)
      ∧ (∀ j ∈ t.jobs, j.part ≠ p) ∧ ((∀ e ∈ s.entries, e.part ≠ p) → ∀ q ∈ t.parked, q.part ≠ p) ∧ (∀ e ∈ t.entries, e.part = p → e.code = some 1)
      ∧ ∀ l ∈ t.launches, l.part = p → l.halted = true ∧ l.code ≠ 0)
  ∧ ∀ s : State,
    let down := fun (t : State) => t.m.stopped = true ∧ ∀ p, p < 16 → p < s.parts.length → (s.part p).cfg.getLsbD 0 = true → (t.part p).cfg.getLsbD 1 = true
    Answers (exec .powerMachineCheck s) down
    ∧ Answers (exec .thermalMachineCheck s) fun t => down t ∧ t.l1 = [] ∧ t.tiles = [] ∧ t.resv = [] ∧ t.m.ready.getLsbD 63 = false
        ∧ ∀ d, d < 4 → dieReady t d = false

/-- A module that a machine check has stopped, with no start among the turns that its agenda names, is stopped after every
step, has no start among the turns that are left, and holds no cohort that it did not hold before; the step takes the first
turn from the agenda. (R22, R24, R408, R409) -/
def Obligations.StoppedModuleStaysStopped : Prop :=
  ∀ s t : State, s.m.stopped = true → (∀ i, Turn.event i ∈ s.agenda → isRestart i = false) → step s = .next t →
    t.m.stopped = true ∧ (∀ i, Turn.event i ∈ t.agenda → isRestart i = false) ∧ t.agenda = s.agenda.tail
      ∧ ∀ c ∈ t.cohorts, ∃ x ∈ s.cohorts, x.pl = c.pl

end
end

