-- ==== Sys2Proof/Laws/Memory.lean ====
section
/-! SUPPORT. Memory and finite maps: a read after a write gives what was written and leaves every other place alone, and every
operation keeps the canonical form. -/

namespace Sys2Proof.Machine

namespace Memory

/-! ## Read after write -/

theorem read_put_same (m : List Host.Cell) (a : Nat) (x : Byte) : read (put m a x) a = x := by
  induction m with
  | nil => simp [put, read]
  | cons c l ih =>
    obtain ⟨j, y⟩ := c
    simp only [put]
    by_cases h1 : a < j
    · simp [h1, read]
    · by_cases h2 : a = j
      · simp [h2, read]
      · simp [h1, h2, read, ih]

theorem read_put_other (m : List Host.Cell) {a b : Nat} (h : b ≠ a) (x : Byte) : read (put m a x) b = read m b := by
  induction m with
  | nil => simp [put, read, h]
  | cons c l ih =>
    obtain ⟨j, y⟩ := c
    simp only [put]
    by_cases h1 : a < j
    · simp [h1, read, h]
    · by_cases h2 : a = j
      · subst h2; simp [read, h]
      · simp [h1, h2, read, ih]

theorem read_del_same (m : List Host.Cell) (a : Nat) : read (del m a) a = 0#8 := by
  induction m with
  | nil => rfl
  | cons c l ih =>
    obtain ⟨j, y⟩ := c
    by_cases h : j = a
    · simpa [del, h] using ih
    · simpa [del, h, read, Ne.symm h] using ih

theorem read_del_other (m : List Host.Cell) {a b : Nat} (h : b ≠ a) : read (del m a) b = read m b := by
  induction m with
  | nil => rfl
  | cons c l ih =>
    obtain ⟨j, y⟩ := c
    by_cases h1 : j = a
    · subst h1; simpa [del, read, h] using ih
    · by_cases h2 : b = j
      · simp [del, h1, read, h2]
      · simpa [del, h1, read, h2] using ih

@[simp] theorem read_write_same (m : List Host.Cell) (a : Nat) (x : Byte) : read (write m a x) a = x := by
  unfold write
  split
  · next h => rw [read_del_same, eq_of_beq h]
  · exact read_put_same m a x

theorem read_write_other (m : List Host.Cell) {a b : Nat} (h : b ≠ a) (x : Byte) : read (write m a x) b = read m b := by
  unfold write
  split
  · exact read_del_other m h
  · exact read_put_other m h x

theorem read_store_out (l : List Byte) (m : List Host.Cell) {a b : Nat} (h : b < a ∨ a + l.length ≤ b) :
    read (store m a l) b = read m b := by
  induction l generalizing m a with
  | nil => rfl
  | cons x l ih =>
    simp only [List.length_cons] at h
    rw [store, ih _ (by omega), read_write_other _ (by omega)]

theorem read_store_in (l : List Byte) (m : List Host.Cell) (a : Nat) {k : Nat} (h : k < l.length) :
    read (store m a l) (a + k) = l[k] := by
  induction l generalizing m a k with
  | nil => simp at h
  | cons x l ih =>
    cases k with
    | zero => rw [store, read_store_out _ _ (by omega)]; simp
    | succ k =>
      have := ih (write m a x) (a + 1) (k := k) (by simpa using h)
      rw [store, show a + (k + 1) = a + 1 + k by omega, this]; rfl

/-! ## The canonical form -/

theorem wfFrom_mono {m : List Host.Cell} {lo hi : Nat} (h : lo ≤ hi) (hm : wfFrom hi m = true) : wfFrom lo m = true := by
  cases m with
  | nil => rfl
  | cons c l => obtain ⟨j, y⟩ := c; simp only [wfFrom, Bool.and_eq_true, decide_eq_true_eq] at hm ⊢; exact ⟨⟨by omega, hm.1.2⟩, hm.2⟩

theorem wfFrom_put {m : List Host.Cell} {lo a : Nat} {x : Byte} (hx : x ≠ 0#8) (ha : lo ≤ a) (hm : wfFrom lo m = true) :
    wfFrom lo (put m a x) = true := by
  induction m generalizing lo with
  | nil => simp [put, wfFrom, hx, ha]
  | cons c l ih =>
    obtain ⟨j, y⟩ := c
    simp only [wfFrom, Bool.and_eq_true, decide_eq_true_eq] at hm
    simp only [put]
    by_cases h1 : a < j
    · simp only [h1, if_true, wfFrom, Bool.and_eq_true, decide_eq_true_eq]
      exact ⟨⟨ha, by simpa using hx⟩, ⟨by omega, hm.1.2⟩, hm.2⟩
    · by_cases h2 : a = j
      · subst h2; simp [wfFrom, hx, ha, hm.2]
      · have hj : j + 1 ≤ a := by omega
        simp [h1, h2, wfFrom, hm.1.1, ih hj hm.2]
        simpa using hm.1.2

theorem wfFrom_filter {m : List Host.Cell} {lo : Nat} (p : Host.Cell → Bool) (hm : wfFrom lo m = true) : wfFrom lo (m.filter p) = true := by
  induction m generalizing lo with
  | nil => rfl
  | cons c l ih =>
    obtain ⟨j, y⟩ := c
    simp only [wfFrom, Bool.and_eq_true, decide_eq_true_eq] at hm
    rw [List.filter_cons]
    split
    · simp only [wfFrom, Bool.and_eq_true, decide_eq_true_eq]; exact ⟨hm.1, ih hm.2⟩
    · exact wfFrom_mono (by omega) (ih hm.2)

/-- Writing one byte keeps the canonical form. -/
theorem wf_write {m : List Host.Cell} (hm : wf m = true) (a : Nat) (x : Byte) : wf (write m a x) = true := by
  unfold write
  split
  · exact wfFrom_filter _ hm
  · next h => exact wfFrom_put (by simpa using h) (Nat.zero_le a) hm

/-- Writing bytes keeps the canonical form. -/
theorem wf_store (l : List Byte) {m : List Host.Cell} (hm : wf m = true) (a : Nat) : wf (store m a l) = true := by
  induction l generalizing m a with
  | nil => exact hm
  | cons x l ih => exact ih (wf_write hm a x) _

/-- Dropping cells keeps the canonical form. -/
theorem wf_filter {m : List Host.Cell} (hm : wf m = true) (p : Host.Cell → Bool) : wf (m.filter p) = true := wfFrom_filter p hm

end Memory

theorem reset_mem_wf : Memory.wf State.reset.mem = true := rfl

theorem setBytes_wf {s : State} (h : Memory.wf s.mem = true) (a : Nat) (bs : List Byte) : Memory.wf (s.setBytes a bs).mem = true :=
  Memory.wf_store bs h a

/-! ## Bytes of a state -/

/-- The first range of a list of cut ranges that covers an address outside the cut is a piece of the first that covered it. -/
theorem find_cut_out (l : List Lazy) {lo hi a : Nat} (hle : lo ≤ hi) (h : a < lo ∨ hi ≤ a) :
    ((l.flatMap (Lazy.cut lo hi)).find? fun z => z.lo ≤ a && a < z.hi) = none ∧ (l.find? fun z => z.lo ≤ a && a < z.hi) = none
    ∨ ∃ y z, ((l.flatMap (Lazy.cut lo hi)).find? fun z => z.lo ≤ a && a < z.hi) = some y ∧ (l.find? fun z => z.lo ≤ a && a < z.hi) = some z
        ∧ y.src = z.src ∧ y.off + (a - y.lo) = z.off + (a - z.lo) := by
  induction l with
  | nil => exact .inl ⟨rfl, rfl⟩
  | cons w l ih =>
    simp only [List.flatMap_cons, List.find?_append, List.find?_cons]
    by_cases hw : w.lo ≤ a ∧ a < w.hi
    · refine .inr ?_
      have hd : (decide (w.lo ≤ a) && decide (a < w.hi)) = true := by simp [hw]
      simp only [hd]
      unfold Lazy.cut
      by_cases h1 : hi ≤ w.lo ∨ w.hi ≤ lo
      · simp [h1, hw]
      · have h1' : (decide (hi ≤ w.lo) || decide (w.hi ≤ lo)) = false := by simpa using h1
        simp only [h1', Bool.false_eq_true, if_false]
        rcases h with h | h
        · have : w.lo < lo := by omega
          simp [this, hw, h]
        · have h3 : hi < w.hi := by omega
          by_cases h2 : w.lo < lo
          · have : ¬ a < lo := by omega
            simp [h2, h3, hw, h, this]
            omega
          · simp [h2, h3, hw, h]; omega
    · have hd : (decide (w.lo ≤ a) && decide (a < w.hi)) = false := by
        rw [Bool.and_eq_false_iff]; simp; omega
      have hc : ((Lazy.cut lo hi w).find? fun z => z.lo ≤ a && a < z.hi) = none := by
        rw [List.find?_eq_none]
        intro z hz
        unfold Lazy.cut at hz
        split at hz
        · simp at hz; subst hz; simpa using hd
        · next hn =>
          simp only [Bool.or_eq_true, decide_eq_true_eq, not_or, Nat.not_le] at hn
          simp only [List.mem_append] at hz
          rcases hz with hz | hz
          · split at hz
            · simp at hz; subst hz; simp; omega
            · simp at hz
          · split at hz
            · simp at hz; subst hz; simp; omega
            · simp at hz
      simpa [hd, hc] using ih

theorem find_cut_in (l : List Lazy) {lo hi a : Nat} (h1 : lo ≤ a) (h2 : a < hi) :
    ((l.flatMap (Lazy.cut lo hi)).find? fun z => z.lo ≤ a && a < z.hi) = none := by
  rw [List.find?_eq_none]
  intro z hz
  obtain ⟨w, -, hz⟩ := List.mem_flatMap.mp hz
  unfold Lazy.cut at hz
  split at hz
  · next h => simp at hz h; subst hz; simp; omega
  · simp only [List.mem_append] at hz
    rcases hz with hz | hz
    · split at hz
      · simp at hz; subst hz; simp; omega
      · simp at hz
    · split at hz
      · simp at hz; subst hz; simp; omega
      · simp at hz

/-- A byte that is written reads as written. -/
theorem byte_setBytes_in (s : State) (a : Nat) (bs : List Byte) {k : Nat} (h : k < bs.length) : (s.setBytes a bs).byte (a + k) = bs[k] := by
  have hf := find_cut_in s.lazies (lo := a) (hi := a + bs.length) (a := a + k) (by omega) (by omega)
  simp only [State.byte, State.setBytes, hf]
  exact Memory.read_store_in bs s.mem a h

/-- Every other byte reads as before. -/
theorem byte_setBytes_out (s : State) {a b : Nat} (bs : List Byte) (h : b < a ∨ a + bs.length ≤ b) : (s.setBytes a bs).byte b = s.byte b := by
  rcases find_cut_out s.lazies (lo := a) (hi := a + bs.length) (by omega) h with ⟨h1, h2⟩ | ⟨y, z, h1, h2, h3, h4⟩
  · simp only [State.byte, State.setBytes, h1, h2]
    exact Memory.read_store_out bs s.mem h
  · simp only [State.byte, State.setBytes, h1, h2, Lazy.value, h3, h4]

/-! ## Maps -/

theorem Map.get_put_same {α : Type} (m : Map α) (k : Nat) (x d : α) : (m.put k x).get k d = x := by
  induction m with
  | nil => simp [Map.put, Map.get]
  | cons c l ih =>
    obtain ⟨j, y⟩ := c
    simp only [Map.put]
    by_cases h1 : k < j
    · simp [h1, Map.get]
    · by_cases h2 : k = j
      · simp [h2, Map.get]
      · simp [h1, h2, Map.get, ih]

theorem Map.get_put_other {α : Type} (m : Map α) {k n : Nat} (h : n ≠ k) (x d : α) : (m.put k x).get n d = m.get n d := by
  induction m with
  | nil => simp [Map.put, Map.get, h]
  | cons c l ih =>
    obtain ⟨j, y⟩ := c
    simp only [Map.put]
    by_cases h1 : k < j
    · simp [h1, Map.get, h]
    · by_cases h2 : k = j
      · subst h2; simp [Map.get, h]
      · simp [h1, h2, Map.get, ih]

theorem Map.get_del_same {α : Type} (m : Map α) (k : Nat) (d : α) : (m.del k).get k d = d := by
  induction m with
  | nil => rfl
  | cons c l ih =>
    obtain ⟨j, y⟩ := c
    by_cases h : j = k
    · simpa [Map.del, h] using ih
    · simpa [Map.del, h, Map.get, Ne.symm h] using ih

theorem Map.get_del_other {α : Type} (m : Map α) {k n : Nat} (h : n ≠ k) (d : α) : (m.del k).get n d = m.get n d := by
  induction m with
  | nil => rfl
  | cons c l ih =>
    obtain ⟨j, y⟩ := c
    by_cases h1 : j = k
    · subst h1; simpa [Map.del, Map.get, h] using ih
    · by_cases h2 : n = j
      · simp [Map.del, h1, Map.get, h2]
      · simpa [Map.del, h1, Map.get, h2] using ih

@[simp] theorem Map.get_set_same {α : Type} [DecidableEq α] (m : Map α) (k : Nat) (x d : α) : (m.set k x d).get k d = x := by
  unfold Map.set
  split
  · next h => rw [Map.get_del_same, h]
  · exact Map.get_put_same m k x d

theorem Map.get_set_other {α : Type} [DecidableEq α] (m : Map α) {k n : Nat} (h : n ≠ k) (x d : α) :
    (m.set k x d).get n d = m.get n d := by
  unfold Map.set
  split
  · exact Map.get_del_other m h d
  · exact Map.get_put_other m h x d

/-! ## Registers -/

@[simp] theorem rdS_wrS_same (r : Regs) (n : Nat) (x : Word) : (r.wrS n x).rdS n = x := Map.get_set_same _ _ _ _
theorem rdS_wrS_other (r : Regs) {n k : Nat} (h : k ≠ n) (x : Word) : (r.wrS n x).rdS k = r.rdS k := Map.get_set_other _ h _ _
@[simp] theorem rdPL_wrPL_same (r : Regs) (n : Nat) (x : Qword) : (r.wrPL n x).rdPL n = x := Map.get_set_same _ _ _ _
theorem rdPL_wrPL_other (r : Regs) {n k : Nat} (h : k ≠ n) (x : Qword) : (r.wrPL n x).rdPL k = r.rdPL k := Map.get_set_other _ h _ _
/-- P7 reads all-true whatever is written to it. -/
@[simp] theorem rdP_wrP_7 (r : Regs) (lanes vals : Mask) : (r.wrP 7 lanes vals).rdP 7 = Mask.all := by simp [Regs.rdP]

end Sys2Proof.Machine
end

