-- ==== Sys2Proof/Laws/State.lean ====
section
/-! SUPPORT. What each update of the state leaves: one lemma per field per update, so that no proof unfolds a record update. -/

namespace Sys2Proof.Machine

namespace State

/-! ## `updCur` -/

@[simp] theorem updCur_cur (s : State) (f : Cohort → Cohort) : (s.updCur f).cur = f s.cur := rfl
@[simp] theorem updCur_others (s : State) (f : Cohort → Cohort) : (s.updCur f).others = s.others := rfl
@[simp] theorem updCur_agenda (s : State) (f : Cohort → Cohort) : (s.updCur f).agenda = s.agenda := rfl
@[simp] theorem updCur_mem (s : State) (f : Cohort → Cohort) : (s.updCur f).mem = s.mem := rfl
@[simp] theorem updCur_lazies (s : State) (f : Cohort → Cohort) : (s.updCur f).lazies = s.lazies := rfl
@[simp] theorem updCur_tags (s : State) (f : Cohort → Cohort) : (s.updCur f).tags = s.tags := rfl
@[simp] theorem updCur_poison (s : State) (f : Cohort → Cohort) : (s.updCur f).poison = s.poison := rfl
@[simp] theorem updCur_spPoison (s : State) (f : Cohort → Cohort) : (s.updCur f).spPoison = s.spPoison := rfl
@[simp] theorem updCur_l1 (s : State) (f : Cohort → Cohort) : (s.updCur f).l1 = s.l1 := rfl
@[simp] theorem updCur_tlb (s : State) (f : Cohort → Cohort) : (s.updCur f).tlb = s.tlb := rfl
@[simp] theorem updCur_tgen (s : State) (f : Cohort → Cohort) : (s.updCur f).tgen = s.tgen := rfl
@[simp] theorem updCur_slots (s : State) (f : Cohort → Cohort) : (s.updCur f).slots = s.slots := rfl
@[simp] theorem updCur_sb (s : State) (f : Cohort → Cohort) : (s.updCur f).sb = s.sb := rfl
@[simp] theorem updCur_copies (s : State) (f : Cohort → Cohort) : (s.updCur f).copies = s.copies := rfl
@[simp] theorem updCur_dlog (s : State) (f : Cohort → Cohort) : (s.updCur f).dlog = s.dlog := rfl
@[simp] theorem updCur_tiles (s : State) (f : Cohort → Cohort) : (s.updCur f).tiles = s.tiles := rfl
@[simp] theorem updCur_books (s : State) (f : Cohort → Cohort) : (s.updCur f).books = s.books := rfl
@[simp] theorem updCur_passes (s : State) (f : Cohort → Cohort) : (s.updCur f).passes = s.passes := rfl
@[simp] theorem updCur_budgets (s : State) (f : Cohort → Cohort) : (s.updCur f).budgets = s.budgets := rfl
@[simp] theorem updCur_rays (s : State) (f : Cohort → Cohort) : (s.updCur f).rays = s.rays := rfl
@[simp] theorem updCur_jobs (s : State) (f : Cohort → Cohort) : (s.updCur f).jobs = s.jobs := rfl
@[simp] theorem updCur_bvhs (s : State) (f : Cohort → Cohort) : (s.updCur f).bvhs = s.bvhs := rfl
@[simp] theorem updCur_harts (s : State) (f : Cohort → Cohort) : (s.updCur f).harts = s.harts := rfl
@[simp] theorem updCur_fills (s : State) (f : Cohort → Cohort) : (s.updCur f).fills = s.fills := rfl
@[simp] theorem updCur_failed (s : State) (f : Cohort → Cohort) : (s.updCur f).failed = s.failed := rfl
@[simp] theorem updCur_resv (s : State) (f : Cohort → Cohort) : (s.updCur f).resv = s.resv := rfl
@[simp] theorem updCur_halo (s : State) (f : Cohort → Cohort) : (s.updCur f).halo = s.halo := rfl
@[simp] theorem updCur_haloPl (s : State) (f : Cohort → Cohort) : (s.updCur f).haloPl = s.haloPl := rfl
@[simp] theorem updCur_rsvPoison (s : State) (f : Cohort → Cohort) : (s.updCur f).rsvPoison = s.rsvPoison := rfl
@[simp] theorem updCur_held (s : State) (f : Cohort → Cohort) : (s.updCur f).held = s.held := rfl
@[simp] theorem updCur_parked (s : State) (f : Cohort → Cohort) : (s.updCur f).parked = s.parked := rfl
@[simp] theorem updCur_refused (s : State) (f : Cohort → Cohort) : (s.updCur f).refused = s.refused := rfl
@[simp] theorem updCur_fabw (s : State) (f : Cohort → Cohort) : (s.updCur f).fabw = s.fabw := rfl
@[simp] theorem updCur_parts (s : State) (f : Cohort → Cohort) : (s.updCur f).parts = s.parts := rfl
@[simp] theorem updCur_launches (s : State) (f : Cohort → Cohort) : (s.updCur f).launches = s.launches := rfl
@[simp] theorem updCur_entries (s : State) (f : Cohort → Cohort) : (s.updCur f).entries = s.entries := rfl
@[simp] theorem updCur_saved (s : State) (f : Cohort → Cohort) : (s.updCur f).saved = s.saved := rfl
@[simp] theorem updCur_saving (s : State) (f : Cohort → Cohort) : (s.updCur f).saving = s.saving := rfl
@[simp] theorem updCur_hop (s : State) (f : Cohort → Cohort) : (s.updCur f).hop = s.hop := rfl
@[simp] theorem updCur_reads (s : State) (f : Cohort → Cohort) : (s.updCur f).reads = s.reads := rfl
@[simp] theorem updCur_outs (s : State) (f : Cohort → Cohort) : (s.updCur f).outs = s.outs := rfl
@[simp] theorem updCur_m (s : State) (f : Cohort → Cohort) : (s.updCur f).m = s.m := rfl
@[simp] theorem updCur_ids (s : State) (f : Cohort → Cohort) : (s.updCur f).ids = s.ids := rfl
@[simp] theorem updCur_pick (s : State) (f : Cohort → Cohort) : (s.updCur f).pick = s.pick := rfl

/-! ## `updM` -/

@[simp] theorem updM_cur (s : State) (f : Modl → Modl) : (s.updM f).cur = s.cur := rfl
@[simp] theorem updM_others (s : State) (f : Modl → Modl) : (s.updM f).others = s.others := rfl
@[simp] theorem updM_agenda (s : State) (f : Modl → Modl) : (s.updM f).agenda = s.agenda := rfl
@[simp] theorem updM_mem (s : State) (f : Modl → Modl) : (s.updM f).mem = s.mem := rfl
@[simp] theorem updM_lazies (s : State) (f : Modl → Modl) : (s.updM f).lazies = s.lazies := rfl
@[simp] theorem updM_tags (s : State) (f : Modl → Modl) : (s.updM f).tags = s.tags := rfl
@[simp] theorem updM_poison (s : State) (f : Modl → Modl) : (s.updM f).poison = s.poison := rfl
@[simp] theorem updM_spPoison (s : State) (f : Modl → Modl) : (s.updM f).spPoison = s.spPoison := rfl
@[simp] theorem updM_l1 (s : State) (f : Modl → Modl) : (s.updM f).l1 = s.l1 := rfl
@[simp] theorem updM_tlb (s : State) (f : Modl → Modl) : (s.updM f).tlb = s.tlb := rfl
@[simp] theorem updM_tgen (s : State) (f : Modl → Modl) : (s.updM f).tgen = s.tgen := rfl
@[simp] theorem updM_slots (s : State) (f : Modl → Modl) : (s.updM f).slots = s.slots := rfl
@[simp] theorem updM_sb (s : State) (f : Modl → Modl) : (s.updM f).sb = s.sb := rfl
@[simp] theorem updM_copies (s : State) (f : Modl → Modl) : (s.updM f).copies = s.copies := rfl
@[simp] theorem updM_dlog (s : State) (f : Modl → Modl) : (s.updM f).dlog = s.dlog := rfl
@[simp] theorem updM_tiles (s : State) (f : Modl → Modl) : (s.updM f).tiles = s.tiles := rfl
@[simp] theorem updM_books (s : State) (f : Modl → Modl) : (s.updM f).books = s.books := rfl
@[simp] theorem updM_passes (s : State) (f : Modl → Modl) : (s.updM f).passes = s.passes := rfl
@[simp] theorem updM_budgets (s : State) (f : Modl → Modl) : (s.updM f).budgets = s.budgets := rfl
@[simp] theorem updM_rays (s : State) (f : Modl → Modl) : (s.updM f).rays = s.rays := rfl
@[simp] theorem updM_jobs (s : State) (f : Modl → Modl) : (s.updM f).jobs = s.jobs := rfl
@[simp] theorem updM_bvhs (s : State) (f : Modl → Modl) : (s.updM f).bvhs = s.bvhs := rfl
@[simp] theorem updM_harts (s : State) (f : Modl → Modl) : (s.updM f).harts = s.harts := rfl
@[simp] theorem updM_fills (s : State) (f : Modl → Modl) : (s.updM f).fills = s.fills := rfl
@[simp] theorem updM_failed (s : State) (f : Modl → Modl) : (s.updM f).failed = s.failed := rfl
@[simp] theorem updM_resv (s : State) (f : Modl → Modl) : (s.updM f).resv = s.resv := rfl
@[simp] theorem updM_halo (s : State) (f : Modl → Modl) : (s.updM f).halo = s.halo := rfl
@[simp] theorem updM_haloPl (s : State) (f : Modl → Modl) : (s.updM f).haloPl = s.haloPl := rfl
@[simp] theorem updM_rsvPoison (s : State) (f : Modl → Modl) : (s.updM f).rsvPoison = s.rsvPoison := rfl
@[simp] theorem updM_held (s : State) (f : Modl → Modl) : (s.updM f).held = s.held := rfl
@[simp] theorem updM_parked (s : State) (f : Modl → Modl) : (s.updM f).parked = s.parked := rfl
@[simp] theorem updM_refused (s : State) (f : Modl → Modl) : (s.updM f).refused = s.refused := rfl
@[simp] theorem updM_fabw (s : State) (f : Modl → Modl) : (s.updM f).fabw = s.fabw := rfl
@[simp] theorem updM_parts (s : State) (f : Modl → Modl) : (s.updM f).parts = s.parts := rfl
@[simp] theorem updM_launches (s : State) (f : Modl → Modl) : (s.updM f).launches = s.launches := rfl
@[simp] theorem updM_entries (s : State) (f : Modl → Modl) : (s.updM f).entries = s.entries := rfl
@[simp] theorem updM_saved (s : State) (f : Modl → Modl) : (s.updM f).saved = s.saved := rfl
@[simp] theorem updM_saving (s : State) (f : Modl → Modl) : (s.updM f).saving = s.saving := rfl
@[simp] theorem updM_hop (s : State) (f : Modl → Modl) : (s.updM f).hop = s.hop := rfl
@[simp] theorem updM_reads (s : State) (f : Modl → Modl) : (s.updM f).reads = s.reads := rfl
@[simp] theorem updM_outs (s : State) (f : Modl → Modl) : (s.updM f).outs = s.outs := rfl
@[simp] theorem updM_m (s : State) (f : Modl → Modl) : (s.updM f).m = f s.m := rfl
@[simp] theorem updM_ids (s : State) (f : Modl → Modl) : (s.updM f).ids = s.ids := rfl
@[simp] theorem updM_pick (s : State) (f : Modl → Modl) : (s.updM f).pick = s.pick := rfl

/-! ## `updPart` -/

@[simp] theorem updPart_cur (s : State) (p : Nat) (f : Part → Part) : (s.updPart p f).cur = s.cur := rfl
@[simp] theorem updPart_others (s : State) (p : Nat) (f : Part → Part) : (s.updPart p f).others = s.others := rfl
@[simp] theorem updPart_agenda (s : State) (p : Nat) (f : Part → Part) : (s.updPart p f).agenda = s.agenda := rfl
@[simp] theorem updPart_mem (s : State) (p : Nat) (f : Part → Part) : (s.updPart p f).mem = s.mem := rfl
@[simp] theorem updPart_lazies (s : State) (p : Nat) (f : Part → Part) : (s.updPart p f).lazies = s.lazies := rfl
@[simp] theorem updPart_tags (s : State) (p : Nat) (f : Part → Part) : (s.updPart p f).tags = s.tags := rfl
@[simp] theorem updPart_poison (s : State) (p : Nat) (f : Part → Part) : (s.updPart p f).poison = s.poison := rfl
@[simp] theorem updPart_spPoison (s : State) (p : Nat) (f : Part → Part) : (s.updPart p f).spPoison = s.spPoison := rfl
@[simp] theorem updPart_l1 (s : State) (p : Nat) (f : Part → Part) : (s.updPart p f).l1 = s.l1 := rfl
@[simp] theorem updPart_tlb (s : State) (p : Nat) (f : Part → Part) : (s.updPart p f).tlb = s.tlb := rfl
@[simp] theorem updPart_tgen (s : State) (p : Nat) (f : Part → Part) : (s.updPart p f).tgen = s.tgen := rfl
@[simp] theorem updPart_slots (s : State) (p : Nat) (f : Part → Part) : (s.updPart p f).slots = s.slots := rfl
@[simp] theorem updPart_sb (s : State) (p : Nat) (f : Part → Part) : (s.updPart p f).sb = s.sb := rfl
@[simp] theorem updPart_copies (s : State) (p : Nat) (f : Part → Part) : (s.updPart p f).copies = s.copies := rfl
@[simp] theorem updPart_dlog (s : State) (p : Nat) (f : Part → Part) : (s.updPart p f).dlog = s.dlog := rfl
@[simp] theorem updPart_tiles (s : State) (p : Nat) (f : Part → Part) : (s.updPart p f).tiles = s.tiles := rfl
@[simp] theorem updPart_books (s : State) (p : Nat) (f : Part → Part) : (s.updPart p f).books = s.books := rfl
@[simp] theorem updPart_passes (s : State) (p : Nat) (f : Part → Part) : (s.updPart p f).passes = s.passes := rfl
@[simp] theorem updPart_budgets (s : State) (p : Nat) (f : Part → Part) : (s.updPart p f).budgets = s.budgets := rfl
@[simp] theorem updPart_rays (s : State) (p : Nat) (f : Part → Part) : (s.updPart p f).rays = s.rays := rfl
@[simp] theorem updPart_jobs (s : State) (p : Nat) (f : Part → Part) : (s.updPart p f).jobs = s.jobs := rfl
@[simp] theorem updPart_bvhs (s : State) (p : Nat) (f : Part → Part) : (s.updPart p f).bvhs = s.bvhs := rfl
@[simp] theorem updPart_harts (s : State) (p : Nat) (f : Part → Part) : (s.updPart p f).harts = s.harts := rfl
@[simp] theorem updPart_fills (s : State) (p : Nat) (f : Part → Part) : (s.updPart p f).fills = s.fills := rfl
@[simp] theorem updPart_failed (s : State) (p : Nat) (f : Part → Part) : (s.updPart p f).failed = s.failed := rfl
@[simp] theorem updPart_resv (s : State) (p : Nat) (f : Part → Part) : (s.updPart p f).resv = s.resv := rfl
@[simp] theorem updPart_halo (s : State) (p : Nat) (f : Part → Part) : (s.updPart p f).halo = s.halo := rfl
@[simp] theorem updPart_haloPl (s : State) (p : Nat) (f : Part → Part) : (s.updPart p f).haloPl = s.haloPl := rfl
@[simp] theorem updPart_rsvPoison (s : State) (p : Nat) (f : Part → Part) : (s.updPart p f).rsvPoison = s.rsvPoison := rfl
@[simp] theorem updPart_held (s : State) (p : Nat) (f : Part → Part) : (s.updPart p f).held = s.held := rfl
@[simp] theorem updPart_parked (s : State) (p : Nat) (f : Part → Part) : (s.updPart p f).parked = s.parked := rfl
@[simp] theorem updPart_refused (s : State) (p : Nat) (f : Part → Part) : (s.updPart p f).refused = s.refused := rfl
@[simp] theorem updPart_fabw (s : State) (p : Nat) (f : Part → Part) : (s.updPart p f).fabw = s.fabw := rfl
@[simp] theorem updPart_parts (s : State) (p : Nat) (f : Part → Part) : (s.updPart p f).parts = setNth s.parts p (f (s.part p)) := rfl
@[simp] theorem updPart_launches (s : State) (p : Nat) (f : Part → Part) : (s.updPart p f).launches = s.launches := rfl
@[simp] theorem updPart_entries (s : State) (p : Nat) (f : Part → Part) : (s.updPart p f).entries = s.entries := rfl
@[simp] theorem updPart_saved (s : State) (p : Nat) (f : Part → Part) : (s.updPart p f).saved = s.saved := rfl
@[simp] theorem updPart_saving (s : State) (p : Nat) (f : Part → Part) : (s.updPart p f).saving = s.saving := rfl
@[simp] theorem updPart_hop (s : State) (p : Nat) (f : Part → Part) : (s.updPart p f).hop = s.hop := rfl
@[simp] theorem updPart_reads (s : State) (p : Nat) (f : Part → Part) : (s.updPart p f).reads = s.reads := rfl
@[simp] theorem updPart_outs (s : State) (p : Nat) (f : Part → Part) : (s.updPart p f).outs = s.outs := rfl
@[simp] theorem updPart_m (s : State) (p : Nat) (f : Part → Part) : (s.updPart p f).m = s.m := rfl
@[simp] theorem updPart_ids (s : State) (p : Nat) (f : Part → Part) : (s.updPart p f).ids = s.ids := rfl
@[simp] theorem updPart_pick (s : State) (p : Nat) (f : Part → Part) : (s.updPart p f).pick = s.pick := rfl

/-! ## `updLaunch` -/

@[simp] theorem updLaunch_cur (s : State) (id : Nat) (f : Launch → Launch) : (s.updLaunch id f).cur = s.cur := rfl
@[simp] theorem updLaunch_others (s : State) (id : Nat) (f : Launch → Launch) : (s.updLaunch id f).others = s.others := rfl
@[simp] theorem updLaunch_agenda (s : State) (id : Nat) (f : Launch → Launch) : (s.updLaunch id f).agenda = s.agenda := rfl
@[simp] theorem updLaunch_mem (s : State) (id : Nat) (f : Launch → Launch) : (s.updLaunch id f).mem = s.mem := rfl
@[simp] theorem updLaunch_lazies (s : State) (id : Nat) (f : Launch → Launch) : (s.updLaunch id f).lazies = s.lazies := rfl
@[simp] theorem updLaunch_tags (s : State) (id : Nat) (f : Launch → Launch) : (s.updLaunch id f).tags = s.tags := rfl
@[simp] theorem updLaunch_poison (s : State) (id : Nat) (f : Launch → Launch) : (s.updLaunch id f).poison = s.poison := rfl
@[simp] theorem updLaunch_spPoison (s : State) (id : Nat) (f : Launch → Launch) : (s.updLaunch id f).spPoison = s.spPoison := rfl
@[simp] theorem updLaunch_l1 (s : State) (id : Nat) (f : Launch → Launch) : (s.updLaunch id f).l1 = s.l1 := rfl
@[simp] theorem updLaunch_tlb (s : State) (id : Nat) (f : Launch → Launch) : (s.updLaunch id f).tlb = s.tlb := rfl
@[simp] theorem updLaunch_tgen (s : State) (id : Nat) (f : Launch → Launch) : (s.updLaunch id f).tgen = s.tgen := rfl
@[simp] theorem updLaunch_slots (s : State) (id : Nat) (f : Launch → Launch) : (s.updLaunch id f).slots = s.slots := rfl
@[simp] theorem updLaunch_sb (s : State) (id : Nat) (f : Launch → Launch) : (s.updLaunch id f).sb = s.sb := rfl
@[simp] theorem updLaunch_copies (s : State) (id : Nat) (f : Launch → Launch) : (s.updLaunch id f).copies = s.copies := rfl
@[simp] theorem updLaunch_dlog (s : State) (id : Nat) (f : Launch → Launch) : (s.updLaunch id f).dlog = s.dlog := rfl
@[simp] theorem updLaunch_tiles (s : State) (id : Nat) (f : Launch → Launch) : (s.updLaunch id f).tiles = s.tiles := rfl
@[simp] theorem updLaunch_books (s : State) (id : Nat) (f : Launch → Launch) : (s.updLaunch id f).books = s.books := rfl
@[simp] theorem updLaunch_passes (s : State) (id : Nat) (f : Launch → Launch) : (s.updLaunch id f).passes = s.passes := rfl
@[simp] theorem updLaunch_budgets (s : State) (id : Nat) (f : Launch → Launch) : (s.updLaunch id f).budgets = s.budgets := rfl
@[simp] theorem updLaunch_rays (s : State) (id : Nat) (f : Launch → Launch) : (s.updLaunch id f).rays = s.rays := rfl
@[simp] theorem updLaunch_jobs (s : State) (id : Nat) (f : Launch → Launch) : (s.updLaunch id f).jobs = s.jobs := rfl
@[simp] theorem updLaunch_bvhs (s : State) (id : Nat) (f : Launch → Launch) : (s.updLaunch id f).bvhs = s.bvhs := rfl
@[simp] theorem updLaunch_harts (s : State) (id : Nat) (f : Launch → Launch) : (s.updLaunch id f).harts = s.harts := rfl
@[simp] theorem updLaunch_fills (s : State) (id : Nat) (f : Launch → Launch) : (s.updLaunch id f).fills = s.fills := rfl
@[simp] theorem updLaunch_failed (s : State) (id : Nat) (f : Launch → Launch) : (s.updLaunch id f).failed = s.failed := rfl
@[simp] theorem updLaunch_resv (s : State) (id : Nat) (f : Launch → Launch) : (s.updLaunch id f).resv = s.resv := rfl
@[simp] theorem updLaunch_halo (s : State) (id : Nat) (f : Launch → Launch) : (s.updLaunch id f).halo = s.halo := rfl
@[simp] theorem updLaunch_haloPl (s : State) (id : Nat) (f : Launch → Launch) : (s.updLaunch id f).haloPl = s.haloPl := rfl
@[simp] theorem updLaunch_rsvPoison (s : State) (id : Nat) (f : Launch → Launch) : (s.updLaunch id f).rsvPoison = s.rsvPoison := rfl
@[simp] theorem updLaunch_held (s : State) (id : Nat) (f : Launch → Launch) : (s.updLaunch id f).held = s.held := rfl
@[simp] theorem updLaunch_parked (s : State) (id : Nat) (f : Launch → Launch) : (s.updLaunch id f).parked = s.parked := rfl
@[simp] theorem updLaunch_refused (s : State) (id : Nat) (f : Launch → Launch) : (s.updLaunch id f).refused = s.refused := rfl
@[simp] theorem updLaunch_fabw (s : State) (id : Nat) (f : Launch → Launch) : (s.updLaunch id f).fabw = s.fabw := rfl
@[simp] theorem updLaunch_parts (s : State) (id : Nat) (f : Launch → Launch) : (s.updLaunch id f).parts = s.parts := rfl
@[simp] theorem updLaunch_launches (s : State) (id : Nat) (f : Launch → Launch) : (s.updLaunch id f).launches = s.launches.map fun l => if l.id == id then f l else l := rfl
@[simp] theorem updLaunch_entries (s : State) (id : Nat) (f : Launch → Launch) : (s.updLaunch id f).entries = s.entries := rfl
@[simp] theorem updLaunch_saved (s : State) (id : Nat) (f : Launch → Launch) : (s.updLaunch id f).saved = s.saved := rfl
@[simp] theorem updLaunch_saving (s : State) (id : Nat) (f : Launch → Launch) : (s.updLaunch id f).saving = s.saving := rfl
@[simp] theorem updLaunch_hop (s : State) (id : Nat) (f : Launch → Launch) : (s.updLaunch id f).hop = s.hop := rfl
@[simp] theorem updLaunch_reads (s : State) (id : Nat) (f : Launch → Launch) : (s.updLaunch id f).reads = s.reads := rfl
@[simp] theorem updLaunch_outs (s : State) (id : Nat) (f : Launch → Launch) : (s.updLaunch id f).outs = s.outs := rfl
@[simp] theorem updLaunch_m (s : State) (id : Nat) (f : Launch → Launch) : (s.updLaunch id f).m = s.m := rfl
@[simp] theorem updLaunch_ids (s : State) (id : Nat) (f : Launch → Launch) : (s.updLaunch id f).ids = s.ids := rfl
@[simp] theorem updLaunch_pick (s : State) (id : Nat) (f : Launch → Launch) : (s.updLaunch id f).pick = s.pick := rfl

/-! ## `updR`, `updC`, `updX` -/

@[simp] theorem updR_others (s : State) (f : Regs → Regs) : (s.updR f).others = s.others := rfl
@[simp] theorem updR_agenda (s : State) (f : Regs → Regs) : (s.updR f).agenda = s.agenda := rfl
@[simp] theorem updR_mem (s : State) (f : Regs → Regs) : (s.updR f).mem = s.mem := rfl
@[simp] theorem updR_lazies (s : State) (f : Regs → Regs) : (s.updR f).lazies = s.lazies := rfl
@[simp] theorem updR_tags (s : State) (f : Regs → Regs) : (s.updR f).tags = s.tags := rfl
@[simp] theorem updR_poison (s : State) (f : Regs → Regs) : (s.updR f).poison = s.poison := rfl
@[simp] theorem updR_spPoison (s : State) (f : Regs → Regs) : (s.updR f).spPoison = s.spPoison := rfl
@[simp] theorem updR_l1 (s : State) (f : Regs → Regs) : (s.updR f).l1 = s.l1 := rfl
@[simp] theorem updR_tlb (s : State) (f : Regs → Regs) : (s.updR f).tlb = s.tlb := rfl
@[simp] theorem updR_tgen (s : State) (f : Regs → Regs) : (s.updR f).tgen = s.tgen := rfl
@[simp] theorem updR_slots (s : State) (f : Regs → Regs) : (s.updR f).slots = s.slots := rfl
@[simp] theorem updR_sb (s : State) (f : Regs → Regs) : (s.updR f).sb = s.sb := rfl
@[simp] theorem updR_copies (s : State) (f : Regs → Regs) : (s.updR f).copies = s.copies := rfl
@[simp] theorem updR_dlog (s : State) (f : Regs → Regs) : (s.updR f).dlog = s.dlog := rfl
@[simp] theorem updR_tiles (s : State) (f : Regs → Regs) : (s.updR f).tiles = s.tiles := rfl
@[simp] theorem updR_books (s : State) (f : Regs → Regs) : (s.updR f).books = s.books := rfl
@[simp] theorem updR_passes (s : State) (f : Regs → Regs) : (s.updR f).passes = s.passes := rfl
@[simp] theorem updR_budgets (s : State) (f : Regs → Regs) : (s.updR f).budgets = s.budgets := rfl
@[simp] theorem updR_rays (s : State) (f : Regs → Regs) : (s.updR f).rays = s.rays := rfl
@[simp] theorem updR_jobs (s : State) (f : Regs → Regs) : (s.updR f).jobs = s.jobs := rfl
@[simp] theorem updR_bvhs (s : State) (f : Regs → Regs) : (s.updR f).bvhs = s.bvhs := rfl
@[simp] theorem updR_harts (s : State) (f : Regs → Regs) : (s.updR f).harts = s.harts := rfl
@[simp] theorem updR_fills (s : State) (f : Regs → Regs) : (s.updR f).fills = s.fills := rfl
@[simp] theorem updR_failed (s : State) (f : Regs → Regs) : (s.updR f).failed = s.failed := rfl
@[simp] theorem updR_resv (s : State) (f : Regs → Regs) : (s.updR f).resv = s.resv := rfl
@[simp] theorem updR_halo (s : State) (f : Regs → Regs) : (s.updR f).halo = s.halo := rfl
@[simp] theorem updR_haloPl (s : State) (f : Regs → Regs) : (s.updR f).haloPl = s.haloPl := rfl
@[simp] theorem updR_rsvPoison (s : State) (f : Regs → Regs) : (s.updR f).rsvPoison = s.rsvPoison := rfl
@[simp] theorem updR_held (s : State) (f : Regs → Regs) : (s.updR f).held = s.held := rfl
@[simp] theorem updR_parked (s : State) (f : Regs → Regs) : (s.updR f).parked = s.parked := rfl
@[simp] theorem updR_refused (s : State) (f : Regs → Regs) : (s.updR f).refused = s.refused := rfl
@[simp] theorem updR_fabw (s : State) (f : Regs → Regs) : (s.updR f).fabw = s.fabw := rfl
@[simp] theorem updR_parts (s : State) (f : Regs → Regs) : (s.updR f).parts = s.parts := rfl
@[simp] theorem updR_launches (s : State) (f : Regs → Regs) : (s.updR f).launches = s.launches := rfl
@[simp] theorem updR_entries (s : State) (f : Regs → Regs) : (s.updR f).entries = s.entries := rfl
@[simp] theorem updR_saved (s : State) (f : Regs → Regs) : (s.updR f).saved = s.saved := rfl
@[simp] theorem updR_saving (s : State) (f : Regs → Regs) : (s.updR f).saving = s.saving := rfl
@[simp] theorem updR_hop (s : State) (f : Regs → Regs) : (s.updR f).hop = s.hop := rfl
@[simp] theorem updR_reads (s : State) (f : Regs → Regs) : (s.updR f).reads = s.reads := rfl
@[simp] theorem updR_outs (s : State) (f : Regs → Regs) : (s.updR f).outs = s.outs := rfl
@[simp] theorem updR_m (s : State) (f : Regs → Regs) : (s.updR f).m = s.m := rfl
@[simp] theorem updR_ids (s : State) (f : Regs → Regs) : (s.updR f).ids = s.ids := rfl
@[simp] theorem updR_pick (s : State) (f : Regs → Regs) : (s.updR f).pick = s.pick := rfl
@[simp] theorem updR_cur_resident (s : State) (f : Regs → Regs) : (s.updR f).cur.resident = s.cur.resident := rfl
@[simp] theorem updR_cur_pl (s : State) (f : Regs → Regs) : (s.updR f).cur.pl = s.cur.pl := rfl
@[simp] theorem updR_cur_r (s : State) (f : Regs → Regs) : (s.updR f).cur.r = f s.cur.r := rfl
@[simp] theorem updR_cur_c (s : State) (f : Regs → Regs) : (s.updR f).cur.c = s.cur.c := rfl
@[simp] theorem updR_cur_x (s : State) (f : Regs → Regs) : (s.updR f).cur.x = s.cur.x := rfl

@[simp] theorem updC_others (s : State) (f : Ctl → Ctl) : (s.updC f).others = s.others := rfl
@[simp] theorem updC_agenda (s : State) (f : Ctl → Ctl) : (s.updC f).agenda = s.agenda := rfl
@[simp] theorem updC_mem (s : State) (f : Ctl → Ctl) : (s.updC f).mem = s.mem := rfl
@[simp] theorem updC_lazies (s : State) (f : Ctl → Ctl) : (s.updC f).lazies = s.lazies := rfl
@[simp] theorem updC_tags (s : State) (f : Ctl → Ctl) : (s.updC f).tags = s.tags := rfl
@[simp] theorem updC_poison (s : State) (f : Ctl → Ctl) : (s.updC f).poison = s.poison := rfl
@[simp] theorem updC_spPoison (s : State) (f : Ctl → Ctl) : (s.updC f).spPoison = s.spPoison := rfl
@[simp] theorem updC_l1 (s : State) (f : Ctl → Ctl) : (s.updC f).l1 = s.l1 := rfl
@[simp] theorem updC_tlb (s : State) (f : Ctl → Ctl) : (s.updC f).tlb = s.tlb := rfl
@[simp] theorem updC_tgen (s : State) (f : Ctl → Ctl) : (s.updC f).tgen = s.tgen := rfl
@[simp] theorem updC_slots (s : State) (f : Ctl → Ctl) : (s.updC f).slots = s.slots := rfl
@[simp] theorem updC_sb (s : State) (f : Ctl → Ctl) : (s.updC f).sb = s.sb := rfl
@[simp] theorem updC_copies (s : State) (f : Ctl → Ctl) : (s.updC f).copies = s.copies := rfl
@[simp] theorem updC_dlog (s : State) (f : Ctl → Ctl) : (s.updC f).dlog = s.dlog := rfl
@[simp] theorem updC_tiles (s : State) (f : Ctl → Ctl) : (s.updC f).tiles = s.tiles := rfl
@[simp] theorem updC_books (s : State) (f : Ctl → Ctl) : (s.updC f).books = s.books := rfl
@[simp] theorem updC_passes (s : State) (f : Ctl → Ctl) : (s.updC f).passes = s.passes := rfl
@[simp] theorem updC_budgets (s : State) (f : Ctl → Ctl) : (s.updC f).budgets = s.budgets := rfl
@[simp] theorem updC_rays (s : State) (f : Ctl → Ctl) : (s.updC f).rays = s.rays := rfl
@[simp] theorem updC_jobs (s : State) (f : Ctl → Ctl) : (s.updC f).jobs = s.jobs := rfl
@[simp] theorem updC_bvhs (s : State) (f : Ctl → Ctl) : (s.updC f).bvhs = s.bvhs := rfl
@[simp] theorem updC_harts (s : State) (f : Ctl → Ctl) : (s.updC f).harts = s.harts := rfl
@[simp] theorem updC_fills (s : State) (f : Ctl → Ctl) : (s.updC f).fills = s.fills := rfl
@[simp] theorem updC_failed (s : State) (f : Ctl → Ctl) : (s.updC f).failed = s.failed := rfl
@[simp] theorem updC_resv (s : State) (f : Ctl → Ctl) : (s.updC f).resv = s.resv := rfl
@[simp] theorem updC_halo (s : State) (f : Ctl → Ctl) : (s.updC f).halo = s.halo := rfl
@[simp] theorem updC_haloPl (s : State) (f : Ctl → Ctl) : (s.updC f).haloPl = s.haloPl := rfl
@[simp] theorem updC_rsvPoison (s : State) (f : Ctl → Ctl) : (s.updC f).rsvPoison = s.rsvPoison := rfl
@[simp] theorem updC_held (s : State) (f : Ctl → Ctl) : (s.updC f).held = s.held := rfl
@[simp] theorem updC_parked (s : State) (f : Ctl → Ctl) : (s.updC f).parked = s.parked := rfl
@[simp] theorem updC_refused (s : State) (f : Ctl → Ctl) : (s.updC f).refused = s.refused := rfl
@[simp] theorem updC_fabw (s : State) (f : Ctl → Ctl) : (s.updC f).fabw = s.fabw := rfl
@[simp] theorem updC_parts (s : State) (f : Ctl → Ctl) : (s.updC f).parts = s.parts := rfl
@[simp] theorem updC_launches (s : State) (f : Ctl → Ctl) : (s.updC f).launches = s.launches := rfl
@[simp] theorem updC_entries (s : State) (f : Ctl → Ctl) : (s.updC f).entries = s.entries := rfl
@[simp] theorem updC_saved (s : State) (f : Ctl → Ctl) : (s.updC f).saved = s.saved := rfl
@[simp] theorem updC_saving (s : State) (f : Ctl → Ctl) : (s.updC f).saving = s.saving := rfl
@[simp] theorem updC_hop (s : State) (f : Ctl → Ctl) : (s.updC f).hop = s.hop := rfl
@[simp] theorem updC_reads (s : State) (f : Ctl → Ctl) : (s.updC f).reads = s.reads := rfl
@[simp] theorem updC_outs (s : State) (f : Ctl → Ctl) : (s.updC f).outs = s.outs := rfl
@[simp] theorem updC_m (s : State) (f : Ctl → Ctl) : (s.updC f).m = s.m := rfl
@[simp] theorem updC_ids (s : State) (f : Ctl → Ctl) : (s.updC f).ids = s.ids := rfl
@[simp] theorem updC_pick (s : State) (f : Ctl → Ctl) : (s.updC f).pick = s.pick := rfl
@[simp] theorem updC_cur_resident (s : State) (f : Ctl → Ctl) : (s.updC f).cur.resident = s.cur.resident := rfl
@[simp] theorem updC_cur_pl (s : State) (f : Ctl → Ctl) : (s.updC f).cur.pl = s.cur.pl := rfl
@[simp] theorem updC_cur_r (s : State) (f : Ctl → Ctl) : (s.updC f).cur.r = s.cur.r := rfl
@[simp] theorem updC_cur_c (s : State) (f : Ctl → Ctl) : (s.updC f).cur.c = f s.cur.c := rfl
@[simp] theorem updC_cur_x (s : State) (f : Ctl → Ctl) : (s.updC f).cur.x = s.cur.x := rfl

@[simp] theorem updX_others (s : State) (f : Ext → Ext) : (s.updX f).others = s.others := rfl
@[simp] theorem updX_agenda (s : State) (f : Ext → Ext) : (s.updX f).agenda = s.agenda := rfl
@[simp] theorem updX_mem (s : State) (f : Ext → Ext) : (s.updX f).mem = s.mem := rfl
@[simp] theorem updX_lazies (s : State) (f : Ext → Ext) : (s.updX f).lazies = s.lazies := rfl
@[simp] theorem updX_tags (s : State) (f : Ext → Ext) : (s.updX f).tags = s.tags := rfl
@[simp] theorem updX_poison (s : State) (f : Ext → Ext) : (s.updX f).poison = s.poison := rfl
@[simp] theorem updX_spPoison (s : State) (f : Ext → Ext) : (s.updX f).spPoison = s.spPoison := rfl
@[simp] theorem updX_l1 (s : State) (f : Ext → Ext) : (s.updX f).l1 = s.l1 := rfl
@[simp] theorem updX_tlb (s : State) (f : Ext → Ext) : (s.updX f).tlb = s.tlb := rfl
@[simp] theorem updX_tgen (s : State) (f : Ext → Ext) : (s.updX f).tgen = s.tgen := rfl
@[simp] theorem updX_slots (s : State) (f : Ext → Ext) : (s.updX f).slots = s.slots := rfl
@[simp] theorem updX_sb (s : State) (f : Ext → Ext) : (s.updX f).sb = s.sb := rfl
@[simp] theorem updX_copies (s : State) (f : Ext → Ext) : (s.updX f).copies = s.copies := rfl
@[simp] theorem updX_dlog (s : State) (f : Ext → Ext) : (s.updX f).dlog = s.dlog := rfl
@[simp] theorem updX_tiles (s : State) (f : Ext → Ext) : (s.updX f).tiles = s.tiles := rfl
@[simp] theorem updX_books (s : State) (f : Ext → Ext) : (s.updX f).books = s.books := rfl
@[simp] theorem updX_passes (s : State) (f : Ext → Ext) : (s.updX f).passes = s.passes := rfl
@[simp] theorem updX_budgets (s : State) (f : Ext → Ext) : (s.updX f).budgets = s.budgets := rfl
@[simp] theorem updX_rays (s : State) (f : Ext → Ext) : (s.updX f).rays = s.rays := rfl
@[simp] theorem updX_jobs (s : State) (f : Ext → Ext) : (s.updX f).jobs = s.jobs := rfl
@[simp] theorem updX_bvhs (s : State) (f : Ext → Ext) : (s.updX f).bvhs = s.bvhs := rfl
@[simp] theorem updX_harts (s : State) (f : Ext → Ext) : (s.updX f).harts = s.harts := rfl
@[simp] theorem updX_fills (s : State) (f : Ext → Ext) : (s.updX f).fills = s.fills := rfl
@[simp] theorem updX_failed (s : State) (f : Ext → Ext) : (s.updX f).failed = s.failed := rfl
@[simp] theorem updX_resv (s : State) (f : Ext → Ext) : (s.updX f).resv = s.resv := rfl
@[simp] theorem updX_halo (s : State) (f : Ext → Ext) : (s.updX f).halo = s.halo := rfl
@[simp] theorem updX_haloPl (s : State) (f : Ext → Ext) : (s.updX f).haloPl = s.haloPl := rfl
@[simp] theorem updX_rsvPoison (s : State) (f : Ext → Ext) : (s.updX f).rsvPoison = s.rsvPoison := rfl
@[simp] theorem updX_held (s : State) (f : Ext → Ext) : (s.updX f).held = s.held := rfl
@[simp] theorem updX_parked (s : State) (f : Ext → Ext) : (s.updX f).parked = s.parked := rfl
@[simp] theorem updX_refused (s : State) (f : Ext → Ext) : (s.updX f).refused = s.refused := rfl
@[simp] theorem updX_fabw (s : State) (f : Ext → Ext) : (s.updX f).fabw = s.fabw := rfl
@[simp] theorem updX_parts (s : State) (f : Ext → Ext) : (s.updX f).parts = s.parts := rfl
@[simp] theorem updX_launches (s : State) (f : Ext → Ext) : (s.updX f).launches = s.launches := rfl
@[simp] theorem updX_entries (s : State) (f : Ext → Ext) : (s.updX f).entries = s.entries := rfl
@[simp] theorem updX_saved (s : State) (f : Ext → Ext) : (s.updX f).saved = s.saved := rfl
@[simp] theorem updX_saving (s : State) (f : Ext → Ext) : (s.updX f).saving = s.saving := rfl
@[simp] theorem updX_hop (s : State) (f : Ext → Ext) : (s.updX f).hop = s.hop := rfl
@[simp] theorem updX_reads (s : State) (f : Ext → Ext) : (s.updX f).reads = s.reads := rfl
@[simp] theorem updX_outs (s : State) (f : Ext → Ext) : (s.updX f).outs = s.outs := rfl
@[simp] theorem updX_m (s : State) (f : Ext → Ext) : (s.updX f).m = s.m := rfl
@[simp] theorem updX_ids (s : State) (f : Ext → Ext) : (s.updX f).ids = s.ids := rfl
@[simp] theorem updX_pick (s : State) (f : Ext → Ext) : (s.updX f).pick = s.pick := rfl
@[simp] theorem updX_cur_resident (s : State) (f : Ext → Ext) : (s.updX f).cur.resident = s.cur.resident := rfl
@[simp] theorem updX_cur_pl (s : State) (f : Ext → Ext) : (s.updX f).cur.pl = s.cur.pl := rfl
@[simp] theorem updX_cur_r (s : State) (f : Ext → Ext) : (s.updX f).cur.r = s.cur.r := rfl
@[simp] theorem updX_cur_c (s : State) (f : Ext → Ext) : (s.updX f).cur.c = s.cur.c := rfl
@[simp] theorem updX_cur_x (s : State) (f : Ext → Ext) : (s.updX f).cur.x = f s.cur.x := rfl

/-! ## `wake` -/

@[simp] theorem wake_agenda (s : State) : s.wake.agenda = s.agenda := rfl
@[simp] theorem wake_mem (s : State) : s.wake.mem = s.mem := rfl
@[simp] theorem wake_lazies (s : State) : s.wake.lazies = s.lazies := rfl
@[simp] theorem wake_tags (s : State) : s.wake.tags = s.tags := rfl
@[simp] theorem wake_poison (s : State) : s.wake.poison = s.poison := rfl
@[simp] theorem wake_spPoison (s : State) : s.wake.spPoison = s.spPoison := rfl
@[simp] theorem wake_l1 (s : State) : s.wake.l1 = s.l1 := rfl
@[simp] theorem wake_tlb (s : State) : s.wake.tlb = s.tlb := rfl
@[simp] theorem wake_tgen (s : State) : s.wake.tgen = s.tgen := rfl
@[simp] theorem wake_slots (s : State) : s.wake.slots = s.slots := rfl
@[simp] theorem wake_sb (s : State) : s.wake.sb = s.sb := rfl
@[simp] theorem wake_copies (s : State) : s.wake.copies = s.copies := rfl
@[simp] theorem wake_dlog (s : State) : s.wake.dlog = s.dlog := rfl
@[simp] theorem wake_tiles (s : State) : s.wake.tiles = s.tiles := rfl
@[simp] theorem wake_books (s : State) : s.wake.books = s.books := rfl
@[simp] theorem wake_passes (s : State) : s.wake.passes = s.passes := rfl
@[simp] theorem wake_budgets (s : State) : s.wake.budgets = s.budgets := rfl
@[simp] theorem wake_rays (s : State) : s.wake.rays = s.rays := rfl
@[simp] theorem wake_jobs (s : State) : s.wake.jobs = s.jobs := rfl
@[simp] theorem wake_bvhs (s : State) : s.wake.bvhs = s.bvhs := rfl
@[simp] theorem wake_harts (s : State) : s.wake.harts = s.harts := rfl
@[simp] theorem wake_fills (s : State) : s.wake.fills = s.fills := rfl
@[simp] theorem wake_failed (s : State) : s.wake.failed = s.failed := rfl
@[simp] theorem wake_resv (s : State) : s.wake.resv = s.resv := rfl
@[simp] theorem wake_halo (s : State) : s.wake.halo = s.halo := rfl
@[simp] theorem wake_haloPl (s : State) : s.wake.haloPl = s.haloPl := rfl
@[simp] theorem wake_rsvPoison (s : State) : s.wake.rsvPoison = s.rsvPoison := rfl
@[simp] theorem wake_held (s : State) : s.wake.held = s.held := rfl
@[simp] theorem wake_parked (s : State) : s.wake.parked = s.parked := rfl
@[simp] theorem wake_refused (s : State) : s.wake.refused = s.refused := rfl
@[simp] theorem wake_fabw (s : State) : s.wake.fabw = s.fabw := rfl
@[simp] theorem wake_parts (s : State) : s.wake.parts = s.parts := rfl
@[simp] theorem wake_launches (s : State) : s.wake.launches = s.launches := rfl
@[simp] theorem wake_entries (s : State) : s.wake.entries = s.entries := rfl
@[simp] theorem wake_saved (s : State) : s.wake.saved = s.saved := rfl
@[simp] theorem wake_saving (s : State) : s.wake.saving = s.saving := rfl
@[simp] theorem wake_hop (s : State) : s.wake.hop = s.hop := rfl
@[simp] theorem wake_reads (s : State) : s.wake.reads = s.reads := rfl
@[simp] theorem wake_outs (s : State) : s.wake.outs = s.outs := rfl
@[simp] theorem wake_m (s : State) : s.wake.m = s.m := rfl
@[simp] theorem wake_ids (s : State) : s.wake.ids = s.ids := rfl
@[simp] theorem wake_pick (s : State) : s.wake.pick = s.pick := rfl

/-! ## `setBytes` -/

@[simp] theorem setBytes_cur (s : State) (a : Nat) (bs : List Byte) : (s.setBytes a bs).cur = s.cur := rfl
@[simp] theorem setBytes_others (s : State) (a : Nat) (bs : List Byte) : (s.setBytes a bs).others = s.others := rfl
@[simp] theorem setBytes_agenda (s : State) (a : Nat) (bs : List Byte) : (s.setBytes a bs).agenda = s.agenda := rfl
@[simp] theorem setBytes_mem (s : State) (a : Nat) (bs : List Byte) : (s.setBytes a bs).mem = Memory.store s.mem a bs := rfl
@[simp] theorem setBytes_lazies (s : State) (a : Nat) (bs : List Byte) : (s.setBytes a bs).lazies = s.lazies.flatMap (Lazy.cut a (a + bs.length)) := rfl
@[simp] theorem setBytes_tags (s : State) (a : Nat) (bs : List Byte) : (s.setBytes a bs).tags = s.tags := rfl
@[simp] theorem setBytes_poison (s : State) (a : Nat) (bs : List Byte) : (s.setBytes a bs).poison = s.poison.filter fun w => !(decide (a ≤ w) && decide (w + 64 ≤ a + bs.length)) := rfl
@[simp] theorem setBytes_spPoison (s : State) (a : Nat) (bs : List Byte) : (s.setBytes a bs).spPoison = s.spPoison.filter fun w => !(decide (a ≤ w) && decide (w + 4 ≤ a + bs.length)) := rfl
@[simp] theorem setBytes_l1 (s : State) (a : Nat) (bs : List Byte) : (s.setBytes a bs).l1 = s.l1 := rfl
@[simp] theorem setBytes_tlb (s : State) (a : Nat) (bs : List Byte) : (s.setBytes a bs).tlb = s.tlb := rfl
@[simp] theorem setBytes_tgen (s : State) (a : Nat) (bs : List Byte) : (s.setBytes a bs).tgen = s.tgen := rfl
@[simp] theorem setBytes_slots (s : State) (a : Nat) (bs : List Byte) : (s.setBytes a bs).slots = s.slots := rfl
@[simp] theorem setBytes_sb (s : State) (a : Nat) (bs : List Byte) : (s.setBytes a bs).sb = s.sb := rfl
@[simp] theorem setBytes_copies (s : State) (a : Nat) (bs : List Byte) : (s.setBytes a bs).copies = s.copies := rfl
@[simp] theorem setBytes_dlog (s : State) (a : Nat) (bs : List Byte) : (s.setBytes a bs).dlog = s.dlog := rfl
@[simp] theorem setBytes_tiles (s : State) (a : Nat) (bs : List Byte) : (s.setBytes a bs).tiles = s.tiles := rfl
@[simp] theorem setBytes_books (s : State) (a : Nat) (bs : List Byte) : (s.setBytes a bs).books = s.books := rfl
@[simp] theorem setBytes_passes (s : State) (a : Nat) (bs : List Byte) : (s.setBytes a bs).passes = s.passes := rfl
@[simp] theorem setBytes_budgets (s : State) (a : Nat) (bs : List Byte) : (s.setBytes a bs).budgets = s.budgets := rfl
@[simp] theorem setBytes_rays (s : State) (a : Nat) (bs : List Byte) : (s.setBytes a bs).rays = s.rays := rfl
@[simp] theorem setBytes_jobs (s : State) (a : Nat) (bs : List Byte) : (s.setBytes a bs).jobs = s.jobs := rfl
@[simp] theorem setBytes_bvhs (s : State) (a : Nat) (bs : List Byte) : (s.setBytes a bs).bvhs = s.bvhs := rfl
@[simp] theorem setBytes_harts (s : State) (a : Nat) (bs : List Byte) : (s.setBytes a bs).harts = s.harts := rfl
@[simp] theorem setBytes_fills (s : State) (a : Nat) (bs : List Byte) : (s.setBytes a bs).fills = s.fills := rfl
@[simp] theorem setBytes_failed (s : State) (a : Nat) (bs : List Byte) : (s.setBytes a bs).failed = s.failed := rfl
@[simp] theorem setBytes_resv (s : State) (a : Nat) (bs : List Byte) : (s.setBytes a bs).resv = s.resv := rfl
@[simp] theorem setBytes_halo (s : State) (a : Nat) (bs : List Byte) : (s.setBytes a bs).halo = s.halo := rfl
@[simp] theorem setBytes_haloPl (s : State) (a : Nat) (bs : List Byte) : (s.setBytes a bs).haloPl = s.haloPl := rfl
@[simp] theorem setBytes_rsvPoison (s : State) (a : Nat) (bs : List Byte) : (s.setBytes a bs).rsvPoison = s.rsvPoison := rfl
@[simp] theorem setBytes_held (s : State) (a : Nat) (bs : List Byte) : (s.setBytes a bs).held = s.held := rfl
@[simp] theorem setBytes_parked (s : State) (a : Nat) (bs : List Byte) : (s.setBytes a bs).parked = s.parked := rfl
@[simp] theorem setBytes_refused (s : State) (a : Nat) (bs : List Byte) : (s.setBytes a bs).refused = s.refused := rfl
@[simp] theorem setBytes_fabw (s : State) (a : Nat) (bs : List Byte) : (s.setBytes a bs).fabw = s.fabw := rfl
@[simp] theorem setBytes_parts (s : State) (a : Nat) (bs : List Byte) : (s.setBytes a bs).parts = s.parts := rfl
@[simp] theorem setBytes_launches (s : State) (a : Nat) (bs : List Byte) : (s.setBytes a bs).launches = s.launches := rfl
@[simp] theorem setBytes_entries (s : State) (a : Nat) (bs : List Byte) : (s.setBytes a bs).entries = s.entries := rfl
@[simp] theorem setBytes_saved (s : State) (a : Nat) (bs : List Byte) : (s.setBytes a bs).saved = s.saved := rfl
@[simp] theorem setBytes_saving (s : State) (a : Nat) (bs : List Byte) : (s.setBytes a bs).saving = s.saving := rfl
@[simp] theorem setBytes_hop (s : State) (a : Nat) (bs : List Byte) : (s.setBytes a bs).hop = s.hop := rfl
@[simp] theorem setBytes_reads (s : State) (a : Nat) (bs : List Byte) : (s.setBytes a bs).reads = s.reads := rfl
@[simp] theorem setBytes_outs (s : State) (a : Nat) (bs : List Byte) : (s.setBytes a bs).outs = s.outs := rfl
@[simp] theorem setBytes_m (s : State) (a : Nat) (bs : List Byte) : (s.setBytes a bs).m = s.m := rfl
@[simp] theorem setBytes_ids (s : State) (a : Nat) (bs : List Byte) : (s.setBytes a bs).ids = s.ids := rfl
@[simp] theorem setBytes_pick (s : State) (a : Nat) (bs : List Byte) : (s.setBytes a bs).pick = s.pick := rfl

end State

end Sys2Proof.Machine
end

