-- ==== Sys2Proof/Laws/Ops.lean ====
section
/-! SUPPORT. What the shared operations can do: events, waking, the registers of a partition, work for the issuing cohort itself,
taking an exception. -/

namespace Sys2Proof.Machine

/-- An event answers a next state. -/
theorem runE_next (f : State → State) (s : State) : runE f s = .next (f s).wake := rfl

/-- A byte depends on memory, the ranges with a source and the structures that feed them. -/
theorem byte_congr {s t : State} (hm : t.mem = s.mem) (hl : t.lazies = s.lazies) (hb : t.bvhs = s.bvhs) (a : Nat) : t.byte a = s.byte a := by
  simp [State.byte, Lazy.value, hm, hl, hb]

@[simp] theorem wake_byte (s : State) (a : Nat) : s.wake.byte a = s.byte a := byte_congr rfl rfl rfl a

theorem bytes_length (s : State) (a n : Nat) : (s.bytes a n).length = n := by
  induction n generalizing a with
  | zero => rfl
  | succ n ih => simp [State.bytes, ih]

theorem bytes_eq_map (s : State) (a n : Nat) : s.bytes a n = (List.range n).map fun k => s.byte (a + k) := by
  induction n generalizing a with
  | zero => rfl
  | succ n ih =>
    rw [State.bytes, ih, List.range_succ_eq_map, List.map_cons, List.map_map]
    simp [Function.comp_def, Nat.add_assoc, Nat.add_comm 1]

/-- Bytes that are written read back. -/
theorem bytes_setBytes (s : State) (a : Nat) (bs : List Byte) : (s.setBytes a bs).bytes a bs.length = bs := by
  rw [bytes_eq_map]
  apply List.ext_getElem (by simp)
  intro k h1 h2
  simp [byte_setBytes_in s a bs h2]

/-! ## Partitions -/

@[simp] theorem part_updPart_same {s : State} {p : Nat} (h : p < s.parts.length) (f : Part → Part) : (s.updPart p f).part p = f (s.part p) := by
  simp [State.part, State.updPart, nth, setNth, h]

theorem part_updPart_other {s : State} {p q : Nat} (h : q ≠ p) (f : Part → Part) : (s.updPart p f).part q = s.part q := by
  simp [State.part, State.updPart, nth, setNth, List.getElem?_set_ne (Ne.symm h)]

/-! ## Cohorts -/

theorem cohort?_cur {s : State} (h : s.cur.resident = true) : s.cohort? s.cur.pl.id = some s.cur := by
  simp [State.cohort?, State.cohorts, h]

theorem switchTo_cur {s : State} (h : s.cur.resident = true) : switchTo s.cur.pl.id s = s := by simp [switchTo, h]

/-- Work for the issuing cohort itself is done in place. -/
theorem asCohort_cur {α : Type} {s : State} (h : s.cur.resident = true) (d : α) (f : State → α × State)
    (hr : (f s).2.cur.resident = true) (hi : (f s).2.cur.pl.id = s.cur.pl.id) : asCohort s.cur.pl.id d f s = f s := by
  have hb : switchBack s (f s).2 = (f s).2 := by
    rw [switchBack, if_pos h, ← hi]; exact switchTo_cur hr
  simp [asCohort, cohort?_cur h, switchTo_cur h, hb]

/-! ## Taking an exception (R391 to R393) -/

/-- What a delivered record leads to: the end of the cohort, in handler mode as a double trap, or its handler. -/
theorem takeRec_cases (r : Rec) (s : State) :
    let s1 := (leaveBar s).updCur fun c => c.drain.closeIdem
    (s1.cur.c.hm = true ∧ takeRec r s = endOnFault { (s1.cur.c.trec.getD r) with cause := Cause.double, detail := r.cause % 256 } s1)
    ∨ (s1.cur.c.hm = false ∧ (s1.cur.pl.trapOvl = 0 ∨ s1.cur.x.gen.isSome = true ∨ Cause.ends r.cause = true) ∧ takeRec r s = endOnFault r s1)
    ∨ (s1.cur.c.hm = false ∧ s1.cur.pl.trapOvl ≠ 0 ∧ s1.cur.x.gen = none ∧ Cause.ends r.cause = false ∧ takeRec r s = enterHandler r s1) := by
  intro s1
  cases h1 : s1.cur.c.hm with
  | true => left; exact ⟨rfl, by simp [takeRec, s1] at *; simp [h1]⟩
  | false =>
    right
    by_cases h2 : s1.cur.pl.trapOvl = 0 ∨ s1.cur.x.gen.isSome = true ∨ Cause.ends r.cause = true
    · left
      refine ⟨rfl, h2, ?_⟩
      have h3 : (s1.cur.pl.trapOvl == 0 || s1.cur.x.gen.isSome || Cause.ends r.cause) = true := by
        rcases h2 with h | h | h <;> simp [h]
      show (if s1.cur.c.hm then _ else if s1.cur.pl.trapOvl == 0 || s1.cur.x.gen.isSome || Cause.ends r.cause then _ else _) = _
      rw [h1, h3]; rfl
    · right
      simp only [not_or, Bool.not_eq_true, Option.isSome_eq_false_iff, Option.isNone_iff_eq_none] at h2
      refine ⟨rfl, h2.1, h2.2.1, h2.2.2, ?_⟩
      have h3 : (s1.cur.pl.trapOvl == 0 || s1.cur.x.gen.isSome || Cause.ends r.cause) = false := by simp [h2]
      show (if s1.cur.c.hm then _ else if s1.cur.pl.trapOvl == 0 || s1.cur.x.gen.isSome || Cause.ends r.cause then _ else _) = _
      rw [h1, h3]; rfl

end Sys2Proof.Machine
end

