-- ==== Sys2Proof/Laws/Run.lean ====
section
/-! SUPPORT. What the runner does with an instruction that meets nothing but itself: one lemma each for a body that ends, that
traps and that waits, and for an instruction that computes one result per lane. -/

namespace Sys2Proof.Machine

theorem commit_nil {c : Cohort} (h : c.c.pend = []) (n : Nat) : c.commit n = c := by
  cases c with | mk res pl r c x => cases c; simp_all [Cohort.commit, Pend.sorted]

/-- With nothing outstanding a drain only notes that results still owed are waited for. -/
theorem drain_nil {c : Cohort} (h : c.c.pend = []) : c.drain = { c with c := { c.c with hold := true } } := by
  cases c with | mk res pl r c x => cases c; simp_all [Cohort.drain, Pend.sorted]

theorem arrive0_calm {s : State} (hc : Calm s) : arrive0 s = s := by
  simp [arrive0, State.updCur, commit_nil hc.pend]

theorem noteI_calm {s : State} (hc : Calm s) (h : Hdr) (mt : Meta) : noteI h mt s = s := by
  have hi := hc.idem
  simp [noteI, State.updC, hi]
  rw [← hi]

theorem useReplay_calm {s : State} (hc : Calm s) : useReplay s = s := by
  have hr := hc.replay
  simp [useReplay, State.updC, hr]
  rw [← hr]

theorem dueLate_calm {s : State} (hc : Calm s) (l : List Nat) : dueLate s l = none := by
  simp [dueLate, hc.late]

/-- The runner on an instruction that meets nothing but itself. -/
theorem runI_calm {s : State} {mt : Meta} (hc : Calm s) (hu : Usable s mt) (h : Hdr) (own : Bool) (body : Mask → M Unit) :
    runI h mt own body s =
      .next (endI h mt own (if mt.uni then s.cur.smask else activeMask h mt.uni s.cur) (activeMask h mt.uni s.cur) s
        (if bodyRuns mt (activeMask h mt.uni s.cur) then body (activeMask h mt.uni s.cur) s else .ok ((), s))) := by
  have hp : (mt.priv && !s.cur.pl.priv) = false := by
    have := hu.mode
    cases h1 : mt.priv <;> simp_all
  simp [runI, hc.resident, runS, arrive0_calm hc, hu.pre, noteI_calm hc, useReplay_calm hc, hp, hu.opnds]

/-- A body that ends. -/
theorem runI_ok {s s' : State} {mt : Meta} {h : Hdr} {own : Bool} {body : Mask → M Unit} (hc : Calm s) (hu : Usable s mt)
    (hb : bodyRuns mt (activeMask h mt.uni s.cur) = true) (hr : body (activeMask h mt.uni s.cur) s = .ok ((), s')) :
    runI h mt own body s = .next (if own then retire h.sc s' else finished h s') := by
  rw [runI_calm hc hu]
  cases own <;> simp [hb, hr, endI, dueLate_calm hc, finished]

/-- A uniform form whose guard is false. -/
theorem runI_off {s : State} {mt : Meta} {h : Hdr} {own : Bool} {body : Mask → M Unit} (hc : Calm s) (hu : Usable s mt)
    (hb : bodyRuns mt (activeMask h mt.uni s.cur) = false) : runI h mt own body s = .next (finished h s) := by
  rw [runI_calm hc hu]
  simp [hb, endI, dueLate_calm hc, finished]

/-- A body that traps. -/
theorem runI_trap {s s' : State} {mt : Meta} {h : Hdr} {own : Bool} {body : Mask → M Unit} {t : Trap} (hc : Calm s)
    (hu : Usable s mt) (hb : bodyRuns mt (activeMask h mt.uni s.cur) = true)
    (hr : body (activeMask h mt.uni s.cur) s = .error (.trap t s')) :
    runI h mt own body s =
      .next ((takeTrap (t.withOpnd mt.opnd) (if mt.uni then s.cur.smask else activeMask h mt.uni s.cur) s').tick 1) := by
  rw [runI_calm hc hu]
  simp [hb, hr, endI]

theorem emitR_calm {s : State} (hp : s.cur.c.pend = []) (ws : List Wr) (fl : Flags) (lat : Option Nat) :
    emitR ws fl lat s = .ok ((), gives ws fl lat s) := by
  simp [emitR, M.upd, gives, State.updC, hp]

theorem perLane_calm {s : State} (hp : s.cur.c.pend = []) (uni : Bool) (lat : Option Nat)
    (f : State → Option Nat → List Wr × Flags) (m : Mask) :
    perLane uni lat f m s = .ok ((), gives ((runsFor uni m).flatMap fun ln => (f s ln).1)
      (joinFlags ((runsFor uni m).map fun ln => (f s ln).2)) lat s) := by
  simp [perLane, emitR_calm hp, List.flatMap_map, Function.comp_def]

/-- An instruction that computes one result per lane. -/
theorem runLanes_calm {s : State} {mt : Meta} (hc : Calm s) (hu : Usable s mt) (h : Hdr) (lat : Option Nat)
    (f : State → Option Nat → List Wr × Flags) :
    runLanes h mt lat f s = .next (laneDone h mt.uni lat (f s) s) := by
  unfold runLanes laneDone
  cases hb : bodyRuns mt (activeMask h mt.uni s.cur) with
  | true =>
    rw [runI_ok hc hu hb (perLane_calm hc.pend _ _ _ _)]
    simp only [bodyRuns, Bool.not_eq_true'] at hb
    simp [hb]
  | false =>
    rw [runI_off hc hu hb]
    simp only [bodyRuns, Bool.not_eq_false'] at hb
    simp [hb]

end Sys2Proof.Machine
end

