-- ==== Sys2Proof/Tests/Slice0.lean ====
section
/-! SUPPORT. The model's own tests: ill-formed terms that the check of an instruction word refuses, single steps with results from the
spec, and for each statement states and operands that meet the hypotheses of its clauses. -/

namespace Sys2Proof.Tests

open Sys2Proof Sys2Proof.Machine

set_option Elab.async false

/-! ## Small states -/

/-- Plain headers: guard PT or QT, no SCHED bit. -/
def hd : Hdr := ⟨⟨false, 7#3⟩, ⟨false, 0#2, 0#3⟩⟩
/-- The arithmetic layout with every field zero. -/
def am : AMod := ⟨0#4, false, false, .rne, .dflt⟩
def mm : MMod := { x := false, scope := .coh, order := .rlx, cache := .dflt, ty := .dflt }

/-- The PC of the small states. -/
def pc0 : Pc := Pc.mk 5 1 2

/-- Registers: V8 and S8 hold addresses of memory, V10 and S10 scratchpad offsets, V14 quad offsets. -/
def regs0 : Regs :=
  { Regs.reset with
    vregs := 64
    v := [(1 * 32, 7#32), (1 * 32 + 1, 0xFFFFFFFF#32), (2 * 32, 5#32), (8 * 32, 0x20_0000#32), (8 * 32 + 1, 0x20_0010#32),
      (10 * 32, 0x1000#32), (10 * 32 + 1, 0x1010#32), (14 * 32, 0x10_1000#32), (14 * 32 + 1, 0x10_1010#32)]
    s := [(1, 7#32), (2, 5#32), (8, 0x20_0040#32), (10, 0x1040#32)] }

/-- A cohort with two lanes in SLOT-A, with a handler, on core 9. -/
def coh0 : Cohort :=
  ⟨true, { Place.reset with id := 3, lin := 7, core := 9, asid := 1, priv := true, trapOvl := 40, spBase := 0x2000, spSize := 0x4000 },
   regs0, { Ctl.reset with a := some ⟨true, pc0, 3#32, false⟩ }, Ext.reset⟩

def w0 : State := { State.reset with cur := coh0, ids := 100 }
/-- The same cohort without privilege. -/
def wu : State := { w0 with cur := { coh0 with pl := { coh0.pl with priv := false } } }

/-- One table that serves every level: its first entry is the table itself, the next one a page of 2 MiB mapped to itself. -/
def mem0 : List Host.Cell :=
  [(0x1040, 1#8), (0x1041, 32#8), (0x2000, 1#8), (0x2001, 32#8), (0x2008, 31#8), (0x200A, 32#8)]
def part0 : Part := { w0.part 0 with tent := 0x1003#64, prange := 0x7FFFFFFF_80000000#64 :: List.replicate 7 0#64, cfg := 1#64 }
def tables (s : State) : State := { s with mem := mem0, parts := part0 :: s.parts.drop 1 }

/-- The mapped state. -/
def wm : State := tables w0

/-- A launch of one unit that has started, with no other field set. -/
def launch0 : Launch := ⟨9, 0, 1, 0, 0, 9, 64, LRec.ofBytes [], 1, 1, 0, [], [], [], 0, 1, 0, 0, false, false, false, none, 0, [], 0, none, 0, [], []⟩

theorem calm_w0 : Calm w0 := ⟨rfl, rfl, rfl, rfl, rfl⟩
theorem calm_wm : Calm wm := ⟨rfl, rfl, rfl, rfl, rfl⟩

/-- Does an outcome answer a next state? -/
def answers (o : Host.Outcome State Fault Refusal) : Bool := match o with | .next _ => true | _ => false

theorem next_of {o : Host.Outcome State Fault Refusal} (h : answers o = true) : ∃ t, o = .next t := by
  cases o with
  | next t => exact ⟨t, rfl⟩
  | fault _ => simp [answers] at h
  | refused _ => simp [answers] at h

/-- The checks of an instruction's operands and mode, to be decided. -/
def usable (s : State) (mt : Meta) : Bool := (mt.pre s).isNone && (badOpnd s mt).isNone && (!mt.priv || s.cur.pl.priv)

theorem usable_of {s : State} {mt : Meta} (h : usable s mt = true) : Usable s mt := by
  simp only [usable, Bool.and_eq_true, Option.isNone_iff_eq_none, Bool.or_eq_true, Bool.not_eq_true'] at h
  exact ⟨h.1.1, h.1.2, fun hp => by rcases h.2 with h2 | h2 <;> simp_all⟩

def calm (s : State) : Bool :=
  s.cur.resident && s.cur.c.pend.isEmpty && s.cur.c.late.isEmpty && s.cur.c.replay.isNone && s.cur.c.idem.isNone

theorem calm_of {s : State} (h : calm s = true) : Calm s := by
  simp only [calm, Bool.and_eq_true, List.isEmpty_iff, Option.isNone_iff_eq_none] at h
  exact ⟨h.1.1.1.1, h.1.1.1.2, h.1.1.2, h.1.2, h.2⟩

theorem usables_of {s : State} (l : List Meta) (h : (l.all fun mt => usable s mt) = true) : ∀ mt ∈ l, Usable s mt :=
  fun mt hm => usable_of (List.all_eq_true.mp h mt hm)

/-- The checks of lane accesses, to be decided. -/
def reachB (sp : ASpace) (acc : Acc) (w : Nat) (ls : List LaneAcc) (s : State) : Bool := ls.all fun l =>
  (match l.st with | .at_ _ _ => true | _ => false) && decide (l.ask s = .go) && !sbStall s (acc != .store) (acc != .load) w l
    && !logStall s sp w l && !l.behind s w
def noFaultB (got : List (LaneAcc × Got)) : Bool := got.all fun e => match e.2 with | .fault _ => false | _ => true

theorem reaches_of {sp : ASpace} {acc : Acc} {w : Nat} {ls : List LaneAcc} {s : State} (h : reachB sp acc w ls s = true) :
    Reaches sp acc w ls s := by
  have k : ∀ l ∈ ls, (match l.st with | .at_ _ _ => true | _ => false) = true ∧ l.ask s = .go
      ∧ sbStall s (acc != .store) (acc != .load) w l = false ∧ logStall s sp w l = false ∧ l.behind s w = false := fun l hl => by
    have := List.all_eq_true.mp h l hl
    simp only [Bool.and_eq_true, Bool.not_eq_true', decide_eq_true_eq] at this
    exact ⟨this.1.1.1.1, this.1.1.1.2, this.1.1.2, this.1.2, this.2⟩
  refine ⟨fun l hl => ?_, fun l hl => (k l hl).2.1, fun l hl => (k l hl).2.2⟩
  have := (k l hl).1
  split at this
  · exact ⟨_, _, ‹_›⟩
  · cases this

theorem noFault_of {got : List (LaneAcc × Got)} (h : noFaultB got = true) : NoFault got := fun e he t ht => by
  have := List.all_eq_true.mp h e he
  rw [ht] at this
  cases this

/-- Nothing of the cohort is on its way. -/
theorem drained_w0 : Drained w0 := ⟨by decide +kernel, by decide +kernel, by decide +kernel⟩
theorem drained_wm : Drained wm := ⟨by decide +kernel, by decide +kernel, by decide +kernel⟩
theorem quiet_w0 (sc : Scope) : Quiet sc w0 := ⟨drained_w0, fun _ => by unfold BackOk; decide +kernel⟩
theorem quiet_wm (sc : Scope) : Quiet sc wm := ⟨drained_wm, fun _ => by unfold BackOk; decide +kernel⟩

/-- Nothing of the cohort is on its way and its core's write-backs perform, to be decided. -/
def quietB (s : State) : Bool := !ownLogged s && !ownParked s && !ownTransit s && !backParked (writeBackAll s.cur.pl.core s) s.cur.pl.core
theorem quiet_of {s : State} (h : quietB s = true) (sc : Scope) : Quiet sc s := by
  simp only [quietB, Bool.and_eq_true, Bool.not_eq_true'] at h
  exact ⟨⟨h.1.1.1, h.1.1.2, h.1.2⟩, fun _ => h.2⟩

/-- An answer, to be decided. -/
def isOk {α : Type} (x : Except Nat α) : Bool := match x with | .ok _ => true | .error _ => false
theorem ok_of {α : Type} {x : Except Nat α} (h : isOk x = true) : ∃ y, x = .ok y := by
  cases x with
  | ok y => exact ⟨y, rfl⟩
  | error _ => cases h
def isOkM {α : Type} (x : Except Stop (α × State)) : Bool := match x with | .ok _ => true | .error _ => false
theorem okM_of {α : Type} {x : Except Stop (α × State)} (h : isOkM x = true) : ∃ y s, x = .ok (y, s) := by
  rcases x with _ | ⟨y, s⟩
  · cases h
  · exact ⟨y, s, rfl⟩
theorem some_of {α : Type} {x : Option α} (h : x.isSome = true) : ∃ y, x = some y := Option.isSome_iff_exists.mp h

theorem zclear_of {s : State} {z : Opd} (h : s.passes.isEmpty = true ∧ (getTile s z).faults.isEmpty = true) : ZClear s z := by
  simp only [List.isEmpty_iff] at h
  exact ⟨fun p hp => by simp [h.1] at hp, .inr fun f hf => by simp [h.2] at hf⟩

/-- The next state of an outcome. -/
def after (o : Host.Outcome State Fault Refusal) : State := match o with | .next t => t | _ => w0

/-! ## Ill-formed terms

One term for each check of an instruction word, which the check refuses (R25 to R34 and the tables of the entries). -/

def refusedAll (l : List Instr) : Bool := l.all fun i => !i.wf

/-- The reserved guard (R32), register groups (R31), specials above 0x93 (R29), a source of the other side (R31, R32), two
literals (R30). -/
theorem test_ill_formed_operands : refusedAll
    [.nop ⟨⟨true, 7⟩, hd.sc⟩, .iadd64 hd am (.v 4) (.v 5) (.v 6), .iadd64 hd am (.v 3) (.v 4) (.v 6), .iadd hd am (.v 4) (.sp 0x14) (.v 6),
     .iadd hd am (.s 4) (.v 5) (.s 6), .and hd am (.v 4) (.q 5) (.v 6), .iadd hd am (.v 4) (.lit 1) (.lit 2), .iadd hd am (.p 4) (.v 5) (.v 6),
     .iadd hd am .zr (.v 5) (.v 6), .imad hd am (.v 4) (.v 5) (.v 6) (.lit 1), .mov hd ⟨0, false, false, .rne, .b128⟩ (.v 4) (.sp 4),
     .shl hd ⟨0, false, false, .rne, .u64⟩ (.v 4) (.v 6) (.v 7), .sel hd am (.v 4) (.v 5) (.v 6) (.q 1), .brx hd (.s 7), .callInd hd (.s 3) (.s 4),
     .join ⟨⟨false, 3⟩, hd.sc⟩ 0] = true := by decide +kernel
/-- MOD codes that the entry does not list: TYPE, RND, SAT, FTZ, source modifiers, formats (R34, R96, R109, R118). -/
theorem test_ill_formed_modifiers : refusedAll
    [.iadd hd ⟨0, false, false, .rne, .f32⟩ (.v 4) (.v 5) (.v 6), .fmin hd ⟨0, false, false, .rz, .dflt⟩ (.v 4) (.v 5) (.v 6),
     .imulh hd ⟨0, false, true, .rne, .dflt⟩ (.v 4) (.v 5) (.v 6), .iadd hd ⟨0, true, false, .rne, .dflt⟩ (.v 4) (.v 5) (.v 6),
     .frcp hd ⟨2, false, false, .rne, .dflt⟩ (.v 4) (.v 5), .cvt hd ⟨0, 2, false, false, false, .rne⟩ (.v 4) (.v 5),
     .cvt hd ⟨2, 5, true, false, false, .rne⟩ (.v 4) (.v 5), .cvtsr hd ⟨3, 5, false, false, false, .rne⟩ (.v 4) (.v 5) (.v 6),
     .cvtpk hd ⟨2, 5, false, false, true, .rne⟩ (.v 4) (.v 5) (.s 6), .cvtup hd ⟨2, 2, false, false, false, .rne⟩ (.v 4) (.v 5) (.s 6)] = true := by
  decide +kernel
/-- Lane, memory and atomic entries (R123, R128, R240, R249, R256, R257). -/
theorem test_ill_formed_memory : refusedAll
    [.shfl hd .idx 5 .dflt (.v 4) (.v 5) (.v 6) .zr, .shfl hd .idx 0 .u32 (.v 4) (.v 5) (.v 6) .zr, .vote hd .all .u64 (.q 1) (.v 4),
     .redux hd .xor .f32 (.s 4) (.v 5), .ld hd { mm with order := .rel } (.v 4) (.v 8) 0, .ld hd mm (.v 4) (.v 9) 0, .ld hd { mm with x := true } (.v 4) (.v 8) 0,
     .lds hd { mm with cache := .nl1 } (.v 4) (.v 8) 0, .st hd { mm with ty := .b128 } (.v 8) (.v 6) 0, .cacheopWb hd .zr 4,
     .atom hd { mm with ty := .f32 } .add (.v 4) (.v 8) (.v 6) .none, .atom hd mm .cas (.v 4) (.v 8) (.lit 1) (.v 6), .red hd mm .xchg (.v 8) (.v 6),
     .atomq hd { mm with ty := .b128 } .xchg (.v 4) (.v 8) (.v 12) .none, .fence hd .rlx .dev, .drclose hd .quad .zr (.s 4),
     .rsvld hd { mm with scope := .fab } (.v 8) (.v 4)] = true := by decide +kernel
/-- Courier, matrix, ray, barrier and system entries (R258, R154, R207, R318, R385, R412). -/
theorem test_ill_formed_engines : refusedAll
    [.cpyg hd ⟨.glob, .glob, .coh⟩ 7 (.s 4) (.s 6) (.s 8), .cpyg hd ⟨.glob, .glob, .coh⟩ 0 (.s 4) (.s 6) (.imm 0), .cpy hd ⟨.glob, .glob, .coh⟩ (.sp 4) (.s 6) (.s 8),
     .plset hd 14 (.pl 1) (.s 4) (.pl 2), .plset hd 0 (.pl 1) (.s 5) .none, .plget hd 13 (.s 4) (.pl 1), .mma hd (.z 1) (.v 17) (.s 4) (.pl 1),
     .zadd hd true (.z 1) (.z 2), .trace hd 0 (.v 4) (.v 9) (.s 4) (.s 8), .bvhsize hd (.s 4) (.imm 1) (.s 8),
     .barinit hd ⟨.map, .quad⟩ false (.s 4) (.s 6), .barinit hd ⟨.glob, .quad⟩ false (.s 5) (.s 6), .callo hd (.s 5) (.s 4) (.s 6), .emitQ hd .none (.s 4) (.s 6),
     .csrw hd (.v 4) (.s 6), .provchk hd (.s 4) (.s 6) (.imm 1), .tlbinvPage hd (.s 5) (.s 6), .passGrant 0] = true := by decide +kernel

/-! ## Single steps, with results from the spec -/

/-- A vector register's lane, a scalar register and a predicate's lanes once all results have been written. -/
def vOf (i : Instr) (r lane : Nat) : Word := (settled (after (exec i w0))).v.get (32 * r + lane) 0#32
def sOf (i : Instr) (r : Nat) : Word := (settled (after (exec i w0))).s.get r 0#32
def pOf (i : Instr) (r : Nat) : Mask := (settled (after (exec i w0))).p.get r 0#32

/-- 7 + 5, and 0xFFFFFFFF + 1 wraps (R98). -/
theorem test_iadd_wraps : vOf (.iadd hd am (.v 4) (.v 1) (.v 2)) 4 0 = 12#32 ∧ vOf (.iadd hd am (.v 4) (.v 1) (.imm 1)) 4 1 = 0#32 := by decide +kernel
/-- Unsigned saturation stops at the largest value (R98). -/
theorem test_iadd_saturates : vOf (.iadd hd ⟨0, false, true, .rne, .u32⟩ (.v 4) (.v 1) (.imm 1)) 4 1 = 0xFFFFFFFF#32 := by decide +kernel
/-- 7 - 5 in uniform form (R98). -/
theorem test_isub_uniform : sOf (.isub hd am (.s 4) (.s 1) (.s 2)) 4 = 2#32 := by decide +kernel
/-- The population count of 32 ones, and the leading zeros of 7 (R103). -/
theorem test_bit_counts : vOf (.popc hd am (.v 4) (.v 1)) 4 1 = 32#32 ∧ vOf (.clz hd am (.v 4) (.v 1)) 4 0 = 29#32 := by decide +kernel
/-- 7 is less than 0xFFFFFFFF unsigned and not signed: lanes 0 and 1 against 8 (R105). -/
theorem test_isetp_signs : pOf (.isetp hd ⟨0, false, false, .rne, .u32⟩ .lt (.p 2) (.v 1) (.imm 8)) 2 &&& 3#32 = 1#32
    ∧ pOf (.isetp hd ⟨0, false, false, .rne, .s32⟩ .lt (.p 2) (.v 1) (.imm 8)) 2 &&& 3#32 = 3#32 := by decide +kernel
/-- 1.0 + 1.0 is 2.0, and 1.0 * 0.5 + 1.0 is 1.5 (R110). -/
theorem test_float_sums : (let s := { w0 with cur := { coh0 with r := { regs0 with s := [(12, 0x3F800000#32), (13, 0x3F000000#32)] } } }
    ((settled (after (exec (.fadd hd am (.s 4) (.s 12) (.s 12)) s))).s.get 4 0#32 = 0x40000000#32
      ∧ (settled (after (exec (.ffma hd am (.s 4) (.s 12) (.s 13) (.s 12)) s))).s.get 4 0#32 = 0x3FC00000#32)) := by decide +kernel
/-- The IMM word is the operand (R30). -/
theorem test_movi_literal : sOf (.movi hd am (.s 4) 0x12345678) 4 = 0x12345678#32 := by decide +kernel
/-- Both lanes of the two-lane cohort vote for PT (R125). -/
theorem test_ballot_counts_active_lanes : sOf (.ballot hd (.s 4) (.p 7)) 4 = 3#32 := by decide +kernel

/-! ## Witnesses of the statements' hypotheses -/

/-- A NOP placed where the next step fetches. -/
def wf : State := { State.reset.withFetchWord 96 0x7007 with agenda := [] }
def pf : PcPart := (wf.cur.c.a).getD ⟨false, 0#40, 0#32, false⟩

def ovf (s : State) : OvSlot := (ovSlot? s s.cur.pl.core s.cur.pl.part s.cur.pl.asid pf.pc.ovl).getD ⟨0, 0, .free, false, 0, 0, 0, 0, 0, 0, false, 0, [], 0, []⟩
theorem fetches_of {s : State} {want : Option Bool} (h : s.m.stopped = false ∧ gated s = false ∧ ready s s.cur = true ∧ s.cur.c.stackTrap = none
    ∧ s.cur.c.stage = .start ∧ pickSlot s.cur want = some false ∧ s.cur.c.a = some pf ∧ pf.off = false)
    (k : ovSlot? s s.cur.pl.core s.cur.pl.part s.cur.pl.asid pf.pc.ovl = some (ovf s) ∧ (ovf s).st = .resident ∧ (ovf s).evict = false
      ∧ pf.pc.blk < (ovf s).nblk ∧ (ovf s).blocks[pf.pc.blk]? = some (((ovf s).blocks[pf.pc.blk]?).getD 0)
      ∧ blockOk pf.pc.ovl (((ovf s).blocks[pf.pc.blk]?).getD 0) = true ∧ (s.cur.c.needEntry = true → blkEntry (((ovf s).blocks[pf.pc.blk]?).getD 0) = true)
      ∧ pf.pc.slot < blkValid (((ovf s).blocks[pf.pc.blk]?).getD 0) ∧ decode (slotWord (((ovf s).blocks[pf.pc.blk]?).getD 0) pf.pc.slot) = .ok (.nop hd)) :
    Fetches s want false pf (.nop hd) :=
  ⟨h.1, h.2.1, h.2.2.1, h.2.2.2.1, h.2.2.2.2.1, h.2.2.2.2.2.1, h.2.2.2.2.2.2.1, h.2.2.2.2.2.2.2, _, _, k.1, k.2.1, .inl k.2.2.1, k.2.2.2.1, k.2.2.2.2.1,
    k.2.2.2.2.2.1, k.2.2.2.2.2.2.1, k.2.2.2.2.2.2.2.1, k.2.2.2.2.2.2.2.2⟩
theorem wit_StepRunsTheDecodedInstruction_agenda : Fetches { wf with agenda := [.issue none] } none false pf (.nop hd)
    ∧ ∃ t, exec (.nop hd) (atIssue { wf with agenda := [] } false) = .next t :=
  ⟨fetches_of (by decide +kernel) (by decide +kernel), next_of (by decide +kernel)⟩
theorem wit_StepRunsTheDecodedInstruction_default : wf.agenda = [] ∧ wf.m.cycle / 16 % 16 ≠ 15 ∧ (openSlots wf)[wf.m.cycle % max 1 (openSlots wf).length]? = some (0, 0, 2)
    ∧ selectFor 0 0 2 wf = (some false, (selectFor 0 0 2 wf).2) ∧ Fetches (selectFor 0 0 2 wf).2 (some false) false pf (.nop hd)
    ∧ ∃ t, exec (.nop hd) (atIssue (selectFor 0 0 2 wf).2 false) = .next t :=
  ⟨by decide +kernel, by decide +kernel, by decide +kernel, by decide +kernel, fetches_of (by decide +kernel) (by decide +kernel), next_of (by decide +kernel)⟩
theorem wit_StepRunsTheDecodedInstruction_kept : ∀ n w nx, wf.cur.c.stage ≠ .ovl n w none nx := fun _ _ _ h => nomatch h
theorem wit_StepNeverStops : w0.cur.resident = true ∧ isEvent .budgetRefill = true := by decide
theorem wit_DecodeOfEncode : (Instr.nop hd).wf = true := by decide
theorem wit_EncodeOfDecode : decode (wordOf 0x00007007 0 0) = .ok (.nop hd) := by decide +kernel

/-- A ring of 16 records in partition 0. -/
def ringed (s : State) : State := s.updPart 0 fun p => { p with fltBase := 0x3000_0004#64, fltCtl := 1#64 }

theorem wit_TakingAnException_handler :
    coh0.c.hm = false ∧ coh0.pl.trapOvl ≠ 0 ∧ coh0.x.gen = none ∧ Cause.ends 2 = false ∧ (w0.part 0).fltCtl.getLsbD 0 = false
    ∧ coh0.c.barAt = none ∧ ((ringed w0).part 0).fltCtl.getLsbD 0 = true
    ∧ (let q := (ringed w0).part 0
       let log2 := (q.fltBase.extractLsb' 0 5).toNat
       0 < (ringed w0).parts.length ∧ 4 ≤ log2 ∧ log2 ≤ 20 ∧ (q.fltHead - q.fltTail).toNat ≠ 2 ^ log2) := by decide +kernel
theorem wit_TakingAnException_ends : Cause.ends 0x31 = true ∧ coh0.c.late = [] ∧ coh0.x.gen = none := by decide
theorem wit_PrivilegedInstructionsTrap : wu.cur.resident = true ∧ wu.cur.c.pend = [] ∧ wu.cur.pl.priv = false := by decide
theorem wit_UnallocatedRegistersTrap : w0.cur.resident = true ∧ w0.cur.c.pend = [] ∧ badOpd w0 (.v 1, 1) = false
    ∧ badOpd w0 (.v 64, 1) = true ∧ badOpd w0 (.v 63, 2) = true ∧ badOpd w0 (.z 0, 1) = true := by decide
theorem wit_RegisterInstructionsFrame : Calm w0 ∧ Usable w0 (.of (.v 4) 1 [(.v 1, 1), (.v 2, 1)])
    ∧ ∃ t, exec (.iadd hd am (.v 4) (.v 1) (.v 2)) w0 = .next t :=
  ⟨calm_w0, usable_of (by decide), next_of (by decide +kernel)⟩

/-- Operands that the two-lane cohort may use, per class, length and position. -/
theorem wit_IntegerArithmetic : Calm w0 ∧ ∀ mt ∈ [Meta.of (.v 4) 1 [(.v 1, 1), (.v 63, 1)], .of (.s 4) 1 [(.s 1, 1), (.s 2, 1)],
    .of (.v 4) 1 [(.v 1, 1), (.s 2, 1), (.v 4, 1)], .of (.v 4) 1 [(.v 4, 1)]], Usable w0 mt := ⟨calm_w0, usables_of _ (by decide)⟩
theorem wit_BitwiseInThreeForms : Calm w0 ∧ (Opd.p 1).cls = .p ∧ (Opd.q 1).cls = .q ∧ (Opd.v 4).cls ≠ .p ∧ (Opd.v 4).cls ≠ .q
    ∧ ∀ mt ∈ [Meta.of (.p 1) 1 [(.p 2, 1), (.p 7, 1)], .of (.q 1) 1 [(.q 2, 1), (.q 3, 1)], .of (.v 4) 2 [(.v 6, 2), (.v 62, 2)],
      .of (.v 4) 1 [(.v 1, 1), (.v 2, 1)]], Usable w0 mt := ⟨calm_w0, rfl, rfl, by decide, by decide, usables_of _ (by decide)⟩
theorem wit_ShiftsAndFields : Calm w0 ∧ ∀ mt ∈ [Meta.of (.v 4) 2 [(.v 6, 2), (.v 8, 2)], .of (.v 4) 1 [(.v 6, 1), (.v 1, 1)],
    .of (.v 4) 1 [(.v 6, 1), (.v 1, 1), (.v 2, 1)], .of (.v 4) 1 [(.v 6, Ty.regs .u64)], .of (.v 4) 1 [(.v 6, Ty.regs .u32)],
    .of (.v 4) (Ty.regs .u64) [(.v 6, Ty.regs .u64)]], Usable w0 mt := ⟨calm_w0, usables_of _ (by decide)⟩
theorem wit_CompareMoveAndAddress : Calm w0 ∧ ∀ mt ∈ [Meta.of (.p 1) 1 [(.v 6, Ty.regs .s64), (.v 8, Ty.regs .s64)],
    .of (.v 4) (Ty.regs .u64) [(.v 6, Ty.regs .u64), (.v 8, Ty.regs .u64), (.p 1, 1)], .of (.v 4) (Ty.regs .b128) [(.v 8, Ty.regs .b128)],
    .of (.s 4) (Ty.regs .u64) [], .of (.v 4) 2 [(.v 8, 2), (.v 1, 1)], .of (.v 4) 2 [(.v 8, 2), (.v 6, 2)],
    .of (.v 4) 2 [(.v 1, 1), (.v 2, 1), (.v 8, 2)]], Usable w0 mt := ⟨calm_w0, usables_of _ (by decide)⟩
theorem wit_SinglePrecision : Calm w0 ∧ ∀ mt ∈ [Meta.of (.v 4) 1 [(.v 1, 1), (.v 2, 1)], .of (.v 4) 1 [(.v 1, 1), (.v 2, 1), (.v 3, 1)],
    .of (.p 1) 1 [(.v 1, 1), (.v 2, 1)], .of (.v 4) 1 [(.v 1, 1)]], Usable w0 mt := ⟨calm_w0, usables_of _ (by decide)⟩
theorem wit_DoubleAndPackedPrecision : Calm w0 ∧ ∀ mt ∈ [Meta.of (.v 4) 2 [(.v 6, 2), (.v 8, 2)],
    .of (.v 4) 2 [(.v 6, 2), (.v 8, 2), (.v 10, 2)], .of (.p 1) 1 [(.v 6, 2), (.v 8, 2)], .of (.v 4) 1 [(.v 1, 1), (.v 2, 1)],
    .of (.v 4) 1 [(.v 1, 1), (.v 2, 1), (.v 3, 1)]], Usable w0 mt := ⟨calm_w0, usables_of _ (by decide)⟩
/-- 3 · 2^-1 in FP16 under each mode; 2^-30 rounded up to the least value. -/
theorem wit_RoundingGivesTheNeighbour : Fmt.f16 ∈ [Fmt.f64, .f32, .f16, .bf16, .e4m3, .e5m2, .e3m2, .e2m3, .e2m1]
    ∧ (Fmt.f16.roundFin .rne false false false 3 (-1) false).2 &&& Fl.overflow = 0
    ∧ (Fmt.f16.roundFin .rz false false true 0x12345 (-8) false).2 &&& Fl.overflow = 0
    ∧ (Fmt.f16.roundFin .ru false false false 1 (-30) false).2 &&& Fl.overflow = 0
    ∧ Fmt.f16.val 1 = .fin false 1 (-24) := by decide
theorem wit_Conversions : Calm w0 ∧ ∀ mt ∈ [Meta.of (.v 4) (fmtRegs 0) [(.v 6, fmtRegs 1)],
    .of (.v 4) 1 [(.v 6, fmtRegs 1), (.v 1, 1)], { srcs := [(.v 6, 1)], dsts := [(.v 4, 1), (.s 4, 1)] },
    { srcs := [(.v 6, 1), (.s 4, 1)], dsts := [(.v 4, 1)] }], Usable w0 mt := ⟨calm_w0, usables_of _ (by decide)⟩
theorem wit_LaneInstructions : Calm w0 ∧ (4#3).toNat ≤ 4 ∧ activeMask hd false w0.cur = 3#32
    ∧ ∀ mt ∈ [{ srcs := [(.v 6, Ty.regs .u64), (.v 1, 1), (.v 8, Ty.regs .u64)], dsts := [(.v 4, Ty.regs .u64)] },
      { uni := true, srcs := [(.v 6, 1)], dsts := [(.s 4, 1)] }, { uni := true, srcs := [(.p 1, 1)], dsts := [(.q 4, 1)] },
      { srcs := [(.v 6, Ty.regs .u32)], dsts := [(.v 4, 1)] }, { srcs := [(.v 6, 1), (.s 1, 1)], dsts := [(.v 4, 1)] },
      { dsts := [(.v 4, 1)] }], Usable w0 mt := ⟨calm_w0, by decide, by decide +kernel, usables_of _ (by decide)⟩

/-- A live lane outside the active ones: P1 is true in lane 0 alone. -/
def hp1 : Hdr := { hd with g := ⟨false, 1#3⟩ }
theorem wit_ReorderSortsActiveLanes : Calm w0 ∧ Usable w0 { srcs := [(.v 1, 1)], dsts := [(.v 4, 1)] } ∧ w0.cur.x.win = none ∧ owed w0 w0.cur.pl.id = false
    ∧ (w0.cur.slotLanes ||| w0.cur.stackLanes) &&& ~~~activeMask hd false w0.cur = 0#32
    ∧ (w0.cur.slotLanes ||| w0.cur.stackLanes) &&& ~~~activeMask hp1 false w0.cur ≠ 0#32 :=
  ⟨calm_w0, usable_of (by decide), by decide +kernel⟩

/-- The accesses of a load or a store of four bytes per lane at the registers' addresses. -/
def memOne (st : Bool) (sp : ASpace) (uni : Bool) (a : Opd) (s : State) : List LaneAcc × List (LaneAcc × Got) × State :=
  let addr := fun (s : State) (ln : Option Nat) => if sp = .glob then (src64 s ln a + (0#32).signExtend 64).toNat else (src32 s ln a + 0#32).toNat
  let acc := if st then Acc.store else .load
  let ls := reached hd sp acc (st && sp == .glob) 4 uni addr s
  (ls, oneByOne (fun l (s' : State) =>
    if st then
      let bs := leBytes 4 (srcN s l.lane 1 (.v 1))
      storeAt l.loc l.addr bs .coh .dflt (activeMask hd false s.cur)
        (.store s.cur.pl.id l.lane (((List.range bs.length).map (l.pa + ·)).zip bs) s.cur.pc) s'
    else loadAt l.loc l.addr 4 .coh .dflt (activeMask hd uni s.cur) (match l.lane with
      | some j => .load s'.cur.pl.id 12 j l.pa .u32 .coh .dflt s'.cur.pc
      | none => .sload s'.cur.pl.id 12 l.pa .u32 .coh .dflt s'.cur.pc) s') ls (noteLanes acc ls s))
def memOk (st : Bool) (sp : ASpace) (uni : Bool) (a : Opd) (s : State) : Bool :=
  let r := memOne st sp uni a s
  reachB sp (if st then .store else .load) 4 r.1 s && noFaultB r.2.1 && !r.1.isEmpty

theorem wit_LoadsOfEverySpace : Calm wm
    ∧ (∀ mt ∈ [{ srcs := [(.v 8, 2)], dsts := [(.v 12, 1)], opnd := 1 }, { srcs := [(.v 10, 1)], dsts := [(.v 12, 1)], opnd := 1 },
        { uni := true, srcs := [(.s 8, 2)], dsts := [(.s 12, 1)], opnd := 1 }], Usable wm mt)
    ∧ activeMask hd true wm.cur ≠ 0#32 ∧ activeMask { hd with g := ⟨true, 7#3⟩ } true wm.cur = 0#32
    ∧ memOk false .glob false (.v 8) wm = true ∧ memOk false .own false (.v 10) wm = true ∧ memOk false .quad false (.v 14) wm = true
    ∧ memOk false .glob true (.s 8) wm = true :=
  ⟨calm_wm, usables_of _ (by decide), by decide +kernel⟩

theorem wit_StoresOfEverySpace : Calm wm ∧ Quiet .die wm ∧ Quiet .coh wm
    ∧ (∀ mt ∈ [{ srcs := [(.v 8, 2), (.v 1, 1)], opnd := 1 }, { srcs := [(.v 10, 1), (.v 1, 1)], opnd := 1 },
        { srcs := [(.v 8, 2), (.v 1, 1)], lates := latesRel, opnd := 1 }], Usable wm mt)
    ∧ memOk true .glob false (.v 8) wm = true ∧ memOk true .own false (.v 10) wm = true ∧ memOk true .quad false (.v 14) wm = true
    ∧ memOk true .glob false (.v 8) (released .die wm) = true :=
  ⟨calm_wm, quiet_wm _, quiet_wm _, usables_of _ (by decide), by decide +kernel⟩

theorem wit_StoresChangeOnlyTheirBytes : Calm wm ∧ Plain wm ∧ Quiet .die wm
    ∧ (∀ mt ∈ [{ srcs := [(.v 8, 2), (.v 1, 1)], opnd := 1 }, { srcs := [(.v 8, 2)], dsts := [(.v 12, 1)], opnd := 1 }], Usable wm mt)
    ∧ memOk true .glob false (.v 8) wm = true ∧ memOk false .glob false (.v 8) wm = true
    ∧ answers (exec (.st hd mm (.v 8) (.v 1) 0#32) wm) = true ∧ answers (exec (.ld hd mm (.v 12) (.v 8) 0#32) wm) = true :=
  ⟨calm_wm, ⟨rfl, by decide +kernel⟩, quiet_wm _, usables_of _ (by decide), by decide +kernel⟩

def stOk (loc : Loc) (sc : Scope) : Bool := match storeAt loc 0x20_0000 [1#8, 2#8] sc .dflt 1#32 (.store 3 none [] pc0) wm with
  | (.val [], _) => true
  | _ => false
theorem wit_StoredBytesAreRead : 0x20_0000 % 64 + [1#8, 2#8].length ≤ 64 ∧ (∀ k, k < 2 → isSp (0xE_0000_0120_1000 + k) = true)
    ∧ l1Served .coh .dflt = l1Served .core .dflt ∧ stOk (.dram 0x20_0000 0) .coh = true ∧ stOk (.dram 0x20_003E 0) .die = true
    ∧ stOk (.host 0x3F) .coh = true := by decide +kernel

theorem wit_CacheInstructions : Calm wm ∧ (∀ mt ∈ [{ srcs := [(.v 8, 2)] }, { uni := true, srcs := [(.s 8, 2)] }, { uni := true, srcs := [(.zr, 2)] }],
    Usable wm mt) ∧ (∀ e ∈ [(some 0, 0x20_0000), (some 1, 0x20_0010), (none, 0x20_0040)], xlateLane wm wm.cur e.1 .query e.2 ≠ .busy)
    ∧ (∀ q ∈ ([0x8000, 0x8001].foldl (fun s l => writeBack 9 l s) wm).parked, ∀ c b, q.req ≠ .wback c b) := by
  have h : ([0x8000, 0x8001].foldl (fun s l => writeBack 9 l s) wm).parked = [] := by decide +kernel
  refine ⟨calm_wm, usables_of _ (by decide), by decide +kernel, fun q hq => ?_⟩
  rw [h] at hq
  cases hq

def atomOk (sp : ASpace) (red : Bool) (a : Opd) (s : State) : Bool :=
  let addr := fun (s : State) (ln : Option Nat) => if sp = .glob then (src64 s ln a).toNat else (src32 s ln a).toNat
  let ls := reached hd sp .atomic red 4 false addr s
  let r := runGroups .coh false .add .u32 (some 12) 3#32 (fun l => (srcN s l.lane 1 (.v 1), 0)) (groupsOf ls) (noteLanes .atomic ls s)
  reachB sp .atomic 4 ls s && noFaultB r.1 && !ls.isEmpty
theorem wit_AtomicsOfEverySpace : Calm wm ∧ Quiet .sys wm ∧ Quiet .coh wm
    ∧ (∀ mt ∈ [{ srcs := [(.v 8, 2), (.v 1, 1), (.v 2, 1)], dsts := [(.v 12, 1)], opnd := 1 },
        { srcs := [(.v 8, 2), (.v 1, 1), (.none, 1)], dsts := [(.none, 1)], lates := latesRel, opnd := 1 },
        { srcs := [(.v 10, 1), (.v 1, 1), (.v 2, 1)], dsts := [(.v 12, 1)], opnd := 1 }], Usable wm mt)
    ∧ atomOk .glob false (.v 8) wm = true ∧ atomOk .glob true (.v 8) (released .sys wm) = true ∧ atomOk .own false (.v 10) wm = true
    ∧ atomOk .quad false (.v 14) wm = true :=
  ⟨calm_wm, quiet_wm _, quiet_wm _, usables_of _ (by decide), by decide +kernel⟩

theorem wit_GroupsActAsLanesInOrder : ¬ (AtomOp.add = .fadd ∧ false = false) ∧ ¬ (AtomOp.fadd = .fadd ∧ true = false)
    ∧ [(1, 0), (2, 0)] = (1, 0) :: [(2, 0)] ∧ 0 < [(2, 0)].length := by decide
theorem wit_IntegerAtomicOperations : (Ty.u32 = .u32 ∨ Ty.u32 = .s32) ∧ (Ty.s64 = .u64 ∨ Ty.s64 = .s64) := by decide

/-- A deterministic launch, and a fence of the core that has waited for its tick. -/
def wlD : State := { w0 with launches := [launch0], cur := { coh0 with pl := { coh0.pl with det := true, launch := some 9 } } }
def ws : State := { w0 with cur := { coh0 with c := { coh0.c with stage := .drained 64 } }, m := { w0.m with time := 64 } }
theorem wit_FencesAndRounds : Calm w0 ∧ Usable w0 { uni := true, lates := latesRel } ∧ Quiet .die w0 ∧ BackOk w0
    ∧ activeMask hd true w0.cur ≠ 0#32 ∧ activeMask { hd with g := ⟨true, 7#3⟩ } true w0.cur = 0#32
    ∧ w0.cur.c.stage = .start ∧ coreDrained w0 = true ∧ fabScope .fab = true ∧ fabScope .die = false ∧ w0.m.locked = false
    ∧ Calm ws ∧ ws.cur.c.stage = .drained 64 ∧ 64 ≤ ws.m.time
    ∧ Calm wlD ∧ Usable wlD { uni := true, srcs := [(.s 1, 1)], dsts := [(.p 1, 1)], lates := latesRel }
    ∧ wlD.cur.pl.det = true ∧ wlD.cur.pl.launch = some 9 ∧ (released .die wlD).launch? 9 = some launch0
    ∧ Quiet .die wlD ∧ (match resetNext 9 (closeRounds 9 7 (released .die wlD)).2 with | .error .busy => false | _ => true) = true :=
  ⟨calm_w0, usable_of (by decide), quiet_w0 _, by unfold BackOk; decide +kernel, by decide, by decide, rfl, by decide +kernel, rfl, rfl, rfl, calm_of rfl, rfl, by decide,
    calm_of rfl, usable_of (by decide), rfl, rfl, by decide +kernel, quiet_of (by decide +kernel) _, by decide +kernel⟩

/-! ### Tiles -/

/-- Placards: BF16 in registers, FP32 for windows, FX64 in memory, E4M3 with scales as a target, and BF16 for B in memory. -/
def pl0 : Plac := { magic := 0xA7, efmt := 4, slay := 0, sfmt := 0, spar := 0, rows := 2, cols := 8, pitch := 4, anchor := 0, brot := 0, pinned := false, transposed := false, poisoned := false, rsv := false, soff := 0, moff := 0, crc := 0 }
def plB : Plac := { pl0 with rows := 8, cols := 4, pitch := 1, transposed := true }
def plW : Plac := { pl0 with efmt := 2, cols := 4 }
def plX : Plac := { pl0 with efmt := 14, cols := 2, pitch := 1 }
def plT : Plac := { pl0 with efmt := 5 }
def plC : Plac := { pl0 with efmt := 15, rows := 256, cols := 8, pitch := 0 }
/-- A tile with one nonzero cell in row 0. -/
def tile0 : Tile := Tile.zero.setRow 0 (5 :: List.replicate 63 0) { TRow.zero with anchor := 3#9 }
def wt : State :=
  let c : Cohort := { coh0 with r := { coh0.r with
    pl := [(0, pl0.toQ), (1, plW.toQ), (2, plX.toQ), (3, plT.toQ), (4, 0#128), (5, plB.toQ)], z := [(1, 3), (2, 5)]
    s := [(1, 7#32), (2, 5#32), (8, 0x20_0040#32), (10, 0x1040#32), (20, 0x100#32), (22, 0x400#32), (24, 0x20_1000#32), (26, 0x800#32)] } }
  let s : State := { wm with cur := c, tiles := [(tileKey 2 3, tile0)] }
  (s.setBytes (spPa 9 0x2100) (plBytes plB.toQ)).setBytes (spPa 9 0x2800) (plBytes plC.toQ)


theorem calm_wt : Calm wt := calm_of rfl
theorem quiet_wt (sc : Scope) : Quiet sc wt := quiet_of (by decide +kernel) sc

theorem wit_PlacardInstructions : Calm wt ∧ activeMask hd true wt.cur ≠ 0#32
    ∧ (∀ mt ∈ [{ uni := true, srcs := [(.s 1, 1)] }, { uni := true, srcs := [(.s 8, 4)] }, { uni := true, dsts := [(.s 12, 4)] },
        { uni := true, dsts := [(.s 12, 1)] }, { uni := true }], Usable wt mt)
    ∧ plCheck (srcPL wt (.pl 4)) true false ≠ 0
    ∧ plCheck (srcPL wt (.pl 0)) true false = 0 ∧ plCheck (srcPL wt (.pl 5)) true false = 0 ∧ plCheck (srcPL wt (.pl 2)) true false = 0
    ∧ (pairing (((Plac.ofQ (srcPL wt (.pl 0))).spar == 1) != ((Plac.ofQ (srcPL wt (.pl 5))).spar == 1)) (Plac.ofQ (srcPL wt (.pl 0)))
        (Plac.ofQ (srcPL wt (.pl 5)))).isSome = true
    ∧ ((Plac.ofQ (srcPL wt (.pl 2))).isFX && (Plac.ofQ (srcPL wt (.pl 2))).isFX) = true :=
  ⟨calm_wt, by decide +kernel, usables_of _ (by decide), by decide +kernel⟩
theorem wit_InferredPlacards : plCheck pl0.toQ true false = 0 ∧ plCheck plB.toQ true false = 0 ∧ plCheck plX.toQ true false = 0
    ∧ (∃ p, inferPl false (Plac.ofQ pl0.toQ) (Plac.ofQ plB.toQ) = .ok p) ∧ ∃ p, inferPl true (Plac.ofQ plX.toQ) (Plac.ofQ plX.toQ) = .ok p :=
  ⟨by decide +kernel, by decide +kernel, by decide +kernel, ok_of (by decide +kernel), ok_of (by decide +kernel)⟩
theorem wit_PassesAccumulateExactly : [[(Val.fin false 3 0, Val.fin false 1 0)]].length ≤ 64 ∧ tile0.rowOk 0 = true
    ∧ List.Forall₂ List.Perm [[(Val.fin false 3 0, Val.fin false 1 0)]] [[(Val.fin false 3 0, Val.fin false 1 0)]] :=
  ⟨by decide, by decide +kernel, .cons (.refl _) .nil⟩

/-- The state after the MMA of two lanes, and after its grant. -/
def wpE : State := after (exec (.mma hd (.z 1) (.v 16) (.s 20) (.pl 0)) wt)
def wg : State := after (exec (.passGrant 2) wpE)
theorem wit_MatrixPasses : Calm wt
    ∧ (∀ mt ∈ [{ srcs := [(.v 16, 16), (.s 20, 2)], dsts := [(.z 1, 1)] }, { uni := true, srcs := [(.z 1, 1)] }], Usable wt mt)
    ∧ (let off := (src64 wt none (.s 20)).toNat
       let base := wt.cur.pl.spBase + off
       let plb : Qword := BitVec.ofNat 128 (leNat (spRd wt 9 base 0 16))
       let pa := Plac.ofQ (srcPL wt (.pl 0))
       let pb := Plac.ofQ plb
       activeMask hd false wt.cur ≠ 0#32 ∧ activeMask { hd with g := ⟨true, 7#3⟩ } false wt.cur = 0#32 ∧ off % 16 = 0
       ∧ off + 16 ≤ wt.cur.pl.spSize ∧ off + pb.endOff ≤ wt.cur.pl.spSize ∧ plCheck (srcPL wt (.pl 0)) true true (some 16) = 0
       ∧ spansBad wt pa = false ∧ wt.sb = [] ∧ spPoisoned wt (spPa 9 base) 16 = false ∧ plCheck plb true false = 0
       ∧ pairing false pa pb = some (32, 16) ∧ pa.kext = pb.kext ∧ pa.kext ≤ 32 ∧ pb.xext ≤ 64 ∧ isOk (inferAnchor pa pb) = true
       ∧ (∀ m, m < pa.rows → isOk (pa.present (regMeta pa (ownRegs wt) m)) = true) ∧ wt.passes = [])
    ∧ (∀ p ∈ wpE.passes, p.granted = false) ∧ (nextPass wpE 2).isSome = true
    ∧ (wg.passes.find? fun p => p.quad == 2 && p.granted).isSome = true ∧ (∀ p ∈ wg.passes, isOk (passResult wg p) = true)
    ∧ ∀ n ∈ [zTile wt (.z 1)], ∀ f ∈ (wt.tile wt.quad n).faults, f.cohort ≠ wt.cur.pl.id :=
  ⟨calm_wt, usables_of _ (by decide), by decide +kernel, by decide +kernel, by decide +kernel, by decide +kernel, by decide +kernel,
    by decide +kernel⟩

/-- Tile 3 poisoned, and tile 3 with a row that no longer matches. -/
def wtp : State := putTile (.z 1) { tile0 with poison := true } wt
def wtb : State := putTile (.z 1) { tile0 with cells := tile0.cells.set 1 7#64 0#64 } wt

theorem wit_TileInstructions : Calm wt ∧ activeMask hd true wt.cur ≠ 0#32 ∧ activeMask { hd with g := ⟨true, 7#3⟩ } true wt.cur = 0#32
    ∧ (∀ mt ∈ [{ uni := true, dsts := [(.z 1, 1)] }, { uni := true, srcs := [(.s 1, 1)], dsts := [(.z 1, 1)] },
        { srcs := [(.z 1, 1), (.imm 8, 1)], dsts := [(.v 32, 16)] }, { srcs := [(.v 16, 16), (.imm 60, 1)], dsts := [(.z 1, 1)] },
        { uni := true, srcs := [(.z 1, 1)], dsts := [(.q 1, 1)] }], Usable wt mt)
    ∧ ZClear wt (.z 1) ∧ ZClear wtp (.z 1) ∧ ZClear wtb (.z 1) ∧ Calm wtp ∧ Calm wtb
    ∧ Verified (getTile wt (.z 1)) (List.range 32) ∧ (getTile wt (.z 1)).poison = false ∧ (getTile wtp (.z 1)).poison = true
    ∧ (getTile wtb (.z 1)).poison = false ∧ (List.range 32).all (getTile wtb (.z 1)).rowOk = false
    ∧ plCheck (srcPL wt (.pl 1)) false true (some 32) = 0 ∧ plCheck (srcPL wt (.pl 1)) true true (some 16) = 0
    ∧ (let p := Plac.ofQ (srcPL wt (.pl 1))
       p.efmt ∈ [2, 3, 4, 5, 6, 7, 8, 9, 10, 11, 12] ∧ p.slay = 0 ∧ p.spar = 0 ∧ (src32 wt none (.imm 60)).toNat + p.cols ≤ 64
       ∧ Verified (getTile wt (.z 1)) (actRows p (activeMask hd false wt.cur))
       ∧ ∀ m ∈ actRows p (activeMask hd false wt.cur), isOk (regRowCells p (ownRegs wt) (fun _ => 0#32) 16 m) = true) :=
  ⟨calm_wt, by decide, by decide, usables_of _ (by decide), zclear_of (by decide +kernel), zclear_of (by decide +kernel),
    zclear_of (by decide +kernel), calm_of (by decide +kernel), calm_of (by decide +kernel), by
    refine ⟨.inr (by decide +kernel), by decide +kernel, by decide +kernel, by decide +kernel, by decide +kernel, by decide +kernel,
      by decide +kernel, by decide +kernel, by decide +kernel, by decide +kernel, by decide +kernel, .inr (by decide +kernel), by decide +kernel⟩⟩

/-- The placard and rows of a ZST, with the checks of its pieces and its writes. -/
def zstOk (spad : Bool) (b c : Opd) (s : State) : Bool :=
  let base := (src64 s none b).toNat
  let q := srcPL s c
  let p := Plac.ofQ q
  let t := getTile s (.z 1)
  let ws := zstWrites p false t
  base % 16 == 0 && (!spad || decide (base + 16 ≤ s.cur.pl.spSize ∧ base + p.endOff ≤ s.cur.pl.spSize)) && plCheck q false false == 0
    && [1, 2, 3, 4, 5, 6, 7, 8, 9, 10, 11, 12, 14].contains p.efmt && (p.isFX || p.slay == 0) && p.spar == 0
    && match checkPieces spad .store 2 ((base, 16) :: ws.map fun (o, x) => ((base + o) % 2 ^ 64, x.length)) s with
      | .ok (_, s1) => isOkM (writeTile spad .quad .dflt 2 base ws ({ p with poisoned := t.poison }).toQ s1)
      | .error _ => false
/-- The state with the FX64 tile stored in the scratchpad, and with a BF16 tile stored there. -/
def wzE : State := (after (exec (.zst hd true false (.z 1) (.s 22) (.pl 2)) wt)).updC fun c => { c with pend := [], readyAt := 0 }
def wr : State := (after (exec (.tst hd { mm with x := true } (.s 22) (.v 16) (.pl 0)) wt)).updC fun c => { c with pend := [] }
def rowsOk (s : State) : Bool := match fxSource true (.s 22) s with
  | .ok ((_, rows), s1) => rows.zipIdx.all fun e => isOk (sumAnchor ((getTile s1 (.z 2)).row e.2) e.1.2)
  | .error _ => false
def tldOk (s : State) : Bool :=
  let base := (src64 s none (.s 22)).toNat
  match readSpan true .coh .dflt 1 base 16 s with
  | .ok (pb, s1) =>
    let q : Qword := BitVec.ofNat 128 (leNat pb)
    let p := Plac.ofQ q
    let ps := (actRows p (activeMask hd false s.cur)).flatMap (rowPieces p)
    base % 16 == 0 && decide (base + p.endOff ≤ s.cur.pl.spSize) && tldCheck q == 0 && p.scRegs == 0 && p.metaRegs == 0 && p.slay != 5 && !ps.isEmpty
      && match checkPieces true .load 1 (ps.map fun (o, n) => ((base + o) % 2 ^ 64, n)) s1 with
        | .ok (ls, s2) => match M.mapL ls (fun (l, n) => readPiece .coh .dflt l n) s2 with
          | .ok (bs, _) => (actRows p (activeMask hd false s.cur)).all fun i => isOk (p.present (memMeta p (rdPieces (ps.zip bs)) i))
          | .error _ => false
        | .error _ => false
  | .error _ => false
theorem wit_TilesAndMemory_moves : Calm wt ∧ activeMask hd true wt.cur ≠ 0#32 ∧ ZClear wt (.z 1)
    ∧ (∀ mt ∈ [{ uni := true, srcs := [(.z 1, 1), (.s 24, 2)] }, { srcs := [(.s 22, 2), (.v 16, 16)] },
        { srcs := [(.s 22, 2), (.v 16, 16)], lates := latesRel }], Usable wt mt)
    ∧ zstOk false (.s 24) (.pl 1) wt = true ∧ zstOk true (.s 22) (.pl 2) wt = true ∧ Verified (getTile wt (.z 1)) (List.range 2)
    ∧ Calm wzE ∧ ZClear wzE (.z 2) ∧ ZClear wzE (.z 1)
    ∧ (∀ mt ∈ [{ uni := true, srcs := [(.s 22, 2)], dsts := [(.z 2, 1)] }, { uni := true, srcs := [(.z 1, 1)], dsts := [(.z 2, 1)] }], Usable wzE mt)
    ∧ Verified (getTile wzE (.z 2)) (List.range 32) ∧ Verified (getTile wzE (.z 1)) (List.range 32) ∧ isOkM (fxSource true (.s 22) wzE) = true ∧ rowsOk wzE = true
    ∧ Calm wr ∧ Usable wr { srcs := [(.s 22, 2)], dsts := [(.v 32, 16)] } ∧ tldOk wr = true :=
  ⟨calm_wt, by decide, zclear_of (by decide +kernel), usables_of _ (by decide), by decide +kernel, by decide +kernel, .inr (by decide +kernel),
    calm_of (by decide +kernel), zclear_of (by decide +kernel), zclear_of (by decide +kernel), usables_of _ (by decide +kernel),
    .inr (by decide +kernel), .inr (by decide +kernel), by decide +kernel, by decide +kernel, calm_of (by decide +kernel), usable_of (by decide +kernel), by decide +kernel⟩
theorem wit_TilesAndMemory_rest : Quiet .coh wt ∧ wt.sb = [] ∧ wt.passes = []
    ∧ (let q := srcPL wt (.pl 0)
     let pt : Plac := { Plac.ofQ q with pitch := 4, brot := 0, soff := 0, moff := 0 }
     (src64 wt none (.s 22)).toNat % 16 = 0 ∧ (src64 wt none (.s 22)).toNat + pt.endOff ≤ wt.cur.pl.spSize
     ∧ plCheck q true true (some 16) = 0 ∧ spansBad wt (Plac.ofQ q) = false ∧ pt.shapeOk false = true
     ∧ ∀ i ∈ actRows (Plac.ofQ q) 3#32, isOk ((Plac.ofQ q).present (regMeta (Plac.ofQ q) (ownRegs wt) i)) = true)
    ∧ Usable wt { uni := true, srcs := [(.s 26, 2), (.imm 2, 1)] }
    ∧ (let off := (src64 wt none (.s 26)).toNat
       let base := wt.cur.pl.spBase + off
       let q : Qword := BitVec.ofNat 128 (leNat (spRd wt 9 base 0 16))
       (src32 wt none (.imm 2)).toNat ≤ 3 ∧ off % 16 = 0 ∧ plCheck q true false = 0 ∧ (Plac.ofQ q).isCBT = true ∧ off + 1040 ≤ wt.cur.pl.spSize
       ∧ spPoisoned wt (spPa 9 base) 1040 = false ∧ (wt.books.get (bookKey wt.quad 2) Codebook.zero).owner = none
       ∧ ∀ k, k < 256 → leNat (spRd wt 9 base (16 + 4 * k) 4) &&& 0x8888_8888 = 0)
    ∧ Usable wt { srcs := [(.v 16, 16)], dsts := [(.v 32, 16)] }
    ∧ plCheck (srcPL wt (.pl 0)) true true (some 16) = 0 ∧ plCheck (srcPL wt (.pl 3)) false true (some 32) = 0
    ∧ tcvtOk (Plac.ofQ (srcPL wt (.pl 0))) false = true ∧ tcvtOk (Plac.ofQ (srcPL wt (.pl 3))) true = true
    ∧ spansBad wt (Plac.ofQ (srcPL wt (.pl 0))) = false ∧ spansBad wt (Plac.ofQ (srcPL wt (.pl 3))) = false
    ∧ (Plac.ofQ (srcPL wt (.pl 0))).rows = (Plac.ofQ (srcPL wt (.pl 3))).rows ∧ (Plac.ofQ (srcPL wt (.pl 0))).cols = (Plac.ofQ (srcPL wt (.pl 3))).cols :=
  ⟨quiet_wt _, by decide +kernel, by decide +kernel, by decide +kernel, usable_of (by decide), by decide +kernel, usable_of (by decide), by decide +kernel, by decide +kernel, by decide +kernel,
    by decide +kernel, by decide +kernel, by decide +kernel, by decide +kernel, by decide +kernel⟩

/-! ### Copies, reservoirs, rays and jobs -/

/-- Addresses in S20 to S28; one layout pair at S24; a copy of 4 bytes and a chain with an empty record in flight. -/
def wc : State :=
  let c : Cohort := { coh0 with r := { coh0.r with
    s := coh0.r.s ++ [(20, 0x100#32), (22, 0x400#32), (24, 0x20_1000#32), (26, 0x20_2000#32), (28, 0x20_6000#32), (30, 0x28_0000#32)] } }
  { wm with cur := c, m := { wm.m with rsvsurf := 0x0001_0001_0003_0003#64 } }
def cm (d s : Space) : CMod := ⟨d, s, .die⟩
theorem calm_wc : Calm wc := calm_of rfl
theorem drained_wc : Drained wc := ⟨by decide +kernel, by decide +kernel, by decide +kernel⟩
theorem drained_wu : Drained wu := ⟨by decide +kernel, by decide +kernel, by decide +kernel⟩
theorem room_wc : CopyRoom wc := ⟨drained_wc, by decide +kernel, by decide +kernel⟩
theorem room_wu : CopyRoom wu := ⟨drained_wu, by decide +kernel, by decide +kernel⟩
theorem spaces_wc : Spaces wc (cm .own .glob) (some 0x400) (some 0x20_1000) :=
  ⟨by decide, fun a h _ => by cases h; decide, fun a h hs => by rcases hs with h | h <;> cases h⟩
def layoutsOk : Bool := match readLayouts 0x20_1000 wc with
  | .ok (.ok _, s1) => !ownLogged s1 && !ownParked s1 && !ownTransit s1 && decide (s1.copies = []) && decide (s1.sb = [])
  | _ => false
theorem wit_CopiesAreAccepted : Calm wc ∧ activeMask hd true wc.cur ≠ 0#32 ∧ activeMask { hd with g := ⟨true, 7#3⟩ } true wc.cur = 0#32
    ∧ CopyRoom wc ∧ Spaces wc (cm .own .glob) (some 0x400) (some 0x20_1000)
    ∧ (∀ mt ∈ [{ uni := true, srcs := [(.s 22, 2), (.s 24, 2), (.imm 9, 1)] }, { uni := true, srcs := [(.s 22, 2), (.s 24, 2)] },
        { uni := true, srcs := [(.s 24, 2)] }, { uni := true }, { uni := true, srcs := [(.imm 1, 1)], dsts := [(.q 3, 1)] },
        { uni := true, dsts := [(.s 12, 4)] }], Usable wc mt)
    ∧ wu.cur.pl.priv = false ∧ Calm wu ∧ CopyRoom wu ∧ (src64 wc none (.s 24)).toNat % 8 = 0 ∧ layoutsOk = true :=
  ⟨calm_wc, by decide, by decide, room_wc, spaces_wc, usables_of _ (by decide), rfl, calm_of rfl, room_wu, by decide +kernel,
    by decide +kernel⟩

/-- A plain copy and a chain of the cohort, in flight. -/
def wcp : State := accepted .die (.plain .own .own 0x1005 0x109 4) (some (0x1005, 0x1009)) wc
def wch : State := accepted .die (.chain 0x20_1000) none (wc.setBytes 0x20_1014 [0#8, 1#8])
def cp0 : Copy := wcp.copies.headD ⟨0, 0, 0, 0, 0, 0, false, 0#32, .die, .chain 0, none⟩
def cp1 : Copy := wch.copies.headD ⟨0, 0, 0, 0, 0, 0, false, 0#32, .die, .chain 0, none⟩
/-- The same copy while a pass reads its destination; a record that names the own scratchpad; the last turns of a chain. -/
def wcl : State := { wcp with sb := wcp.sb ++ [⟨9, 0x3000, 0x3100, false, 999⟩] }
def wco : State := accepted .die (.chain 0x20_1000) none ((wc.setBytes 0x20_1010 [4#8, 0#8, 0#8, 0#8, 4#8, 1#8]).setBytes 0x20_1000 (leBytes 8 0x20_2000))
def cpR : Copy := { cp1 with kind := .record 0x20_1000 (leBytes 8 0x20_2000 ++ leBytes 8 0 ++ [4#8, 0#8, 0#8, 0#8, 4#8, 1#8] ++ List.replicate 42 0#8) }
def cpE : Copy := { cp1 with kind := .late [] none (some (0x20_1000, 0)) }
def sameCohort (s s1 : State) : Bool := s1.cur.resident && decide (s1.cur.pl = s.cur.pl)
def transferOk (held : Bool) (cp : Copy) (s : State) : Bool := match transfer cp s with
  | .ok (d, s1) => (!d.late.isEmpty) == held && sameCohort s s1
  | .error _ => false
def chainOk (own : Bool) (cp : Copy) (s : State) : Bool := match tileSpan cp.id .glob 0x20_1000 0 64 s with
  | .ok (r, s1) => nbit (fld r 21 1) 0 && decide (fld r 20 1 < 16) && decide (fld r 21 1 < 2) && fld r 23 1 == 0 && sameCohort s s1
      && (ownRange (acquire cp.scope s1) (recSpace (fld r 20 1 / 4 % 4)) (fld r 8 8) (fld r 8 8 + fld r 16 4)).isSome == own
  | .error _ => false
def chainRecOk (cp : Copy) (s : State) : Bool := match cp.kind with
  | .record _ r => match recordMoves cp.id r s with
    | .ok (_, s1) => sameCohort s s1
    | .error _ => false
  | _ => false
def endOk (cp : Copy) (s : State) : Bool :=
  let s1 := writeBackAll cp.core (setCopy cp s)
  !backParked s1 cp.core && match doWrites cp.id .glob 0x20_1000 [(21, [0#8, 0#8])] s1 with
  | .ok (_, s3) => sameCohort s s3
  | .error _ => false
theorem wit_CopiesMoveBytes : cp0.cohort = wcp.cur.pl.id ∧ cp0.node = none ∧ (wcp.copies.find? fun c => c.id == cp0.id) = some cp0
    ∧ cp0.kind = .plain .own .own 0x1005 0x109 4 ∧ wcp.cur.pl.core < 4096 ∧ wcp.cur.pl.spBase + wcp.cur.pl.spSize ≤ 0xC_0000
    ∧ 0x109 + 4 ≤ wcp.cur.pl.spSize ∧ 0x1005 + 4 ≤ wcp.cur.pl.spSize
    ∧ (∀ k, k < 4 → spPoisoned wcp (spPa 9 (0x2000 + (0x109 + k))) 1 = false ∧ wcp.live (spPa 9 (0x2000 + (0x1005 + k))) = false)
    ∧ (∀ e ∈ wcp.sb, e.dst = true) ∧ transferOk false cp0 wcp = true ∧ transferOk true cp0 wcl = true
    ∧ cp1.cohort = wch.cur.pl.id ∧ cp1.node = none ∧ (wch.copies.find? fun c => c.id == cp1.id) = some cp1 ∧ cp1.kind = .chain 0x20_1000
    ∧ chainOk false cp1 wch = true ∧ chainOk true cp1 wco = true ∧ wco.sb = []
    ∧ (setCopy cpR wch).copies = [cpR] ∧ chainRecOk cpR (setCopy cpR wch) = true
    ∧ (setCopy cpE wch).copies = [cpE] ∧ endOk cpE (setCopy cpE wch) = true := by decide +kernel

theorem wit_ReservoirInstructions : Calm wc
    ∧ (∀ mt ∈ [{ srcs := [(.s 8, 2), (.v 1, 1)], dsts := [(.v 16, 4)] },
        { uni := (Opd.v 16).uni, srcs := [(.v 24, 8), (.v 1, 1), (.v 16, 8)], dsts := [(.v 16, 8)] },
        { uni := (Opd.v 16).uni, srcs := [(.v 24, 8), (.v 1, 1), (.v 2, 1), (.v 16, 8)], dsts := [(.v 16, 8)] },
        { uni := (Opd.v 16).uni, srcs := [(.v 16, 8)], dsts := [(.v 16, 8)] }, { uni := (Opd.v 16).uni, srcs := [(.v 1, 1), (.v 16, 8)], dsts := [(.v 16, 8)] },
        { srcs := [(.v 3, 1)], dsts := [(.v 16, 8)] }, { srcs := [(.v 3, 1), (.v 16, 8)], lates := latesRel }], Usable wc mt)
    ∧ Drained wc ∧ surfEn wc = true ∧ surfOwned wc wc.cur.pl.part wc.cur.pl.asid = true ∧ wc.jobs = [] ∧ wc.rsvPoison = []
    ∧ (∀ i, i < 2 → (src32 wc (some i) (.v 3)).toNat % 2 ^ 16 < surfW wc ∧ (src32 wc (some i) (.v 3)).toNat / 2 ^ 16 < surfH wc)
    ∧ Rsv.mcnt ((0 : Rsv).put 160 16 3) ≤ 3 ∨ Rsv.mcnt ((0 : Rsv).put 160 16 3) > 2 :=
  .inl ⟨calm_wc, usables_of _ (by decide), ⟨by decide +kernel, by decide +kernel, by decide +kernel⟩, by decide +kernel⟩

/-- A leaf at the root of the light tree of S26, and a sampler at S28: one channel of FP32, one texel. -/
def wx : State := (wc.setBytes 0x20_2012 [1#8]).setBytes 0x20_6000 (leBytes 8 0x20_7000 ++ List.replicate 6 0#8 ++ [2#8])
def lightOk : Bool := match gLanes (fun i => do
      let p := srcWords wx (some i) (.v 16) 4
      let (root, ok) ← lightNode i 0x20_2000 0
      let (ix, pmf) ← lightWalk wx.cur i 0x20_2000 0#64 (nth p 3 0#32).toNat (p.take 3) 32 0 root ok 0x3F80_0000
      pure (dstN (.v 20) (some i) 2 (ix + 2 ^ 32 * pmf), 0)) [0, 1] wx with
  | ⟨_, [], [], none, _⟩ => true
  | _ => false
def texOk : Bool := match gLoad none .dflt 64 0x20_6000 wx with
  | .ok (rb, s1) => !samplerBad rb && !nbit (fld rb 15 1) 5
      && match suspendM ([0, 1].flatMap fun i => match samplePlan (Sampler.ofBytes rb) (srcWords s1 (some i) (.v 16) 3) with
        | none => []
        | some plan => (laneTexels (Sampler.ofBytes rb) plan).map fun va =>
            ⟨some i, va, resolve .glob .load false (texBytes (Sampler.ofBytes rb).efmt) s1 (some i) va⟩) s1 with
      | .ok (_, s3) => match gLanes (fun i => do
            let s ← get
            let x ← texLane (Sampler.ofBytes rb) .dflt i (srcWords s (some i) (.v 16) 3)
            pure (dstN (.v 20) (some i) 1 x, 0)) [0, 1] s3 with
        | ⟨_, [], [], none, _⟩ => true
        | _ => false
      | .error _ => false
  | .error _ => false
theorem wit_SampledReads : Calm wx ∧ (src64 wx none (.s 26)).toNat = 0x20_2000 ∧ 0x20_2000 % 32 = 0 ∧ (src64 wx none (.s 28)).toNat = 0x20_6000
    ∧ (activeMask hd false wx.cur).lanes = [0, 1]
    ∧ (∀ mt ∈ [{ srcs := [(.v 16, 4), (.s 26, 2), (.s 28, 2)], dsts := [(.v 20, 2)] }, { srcs := [(.s 28, 2), (.v 16, 3)], dsts := [(.v 20, 4)] },
        { uni := (Opd.v 20).uni, srcs := [(.v 1, 1), (.v 2, 1)], dsts := [(.v 20, 4)] }], Usable wx mt)
    ∧ lightOk = true ∧ texOk = true ∧ nbit (fld (List.replicate 18 0#8 ++ [1#8, 0#8]) 18 2) 0 = true
    ∧ (Fmt.f32.val (fld (List.replicate 32 0#8) 8 4)).isZero = true :=
  ⟨calm_of (by decide +kernel), by decide +kernel, by decide +kernel, by decide +kernel, by decide +kernel, usables_of _ (by decide +kernel), by decide +kernel⟩

/-- A structure of one opaque triangle, a ray that it meets and a ray without a direction. -/
def bvh0 : Bvh := ⟨50, 0, 1, 0x28_0000, 4096, [], [List.replicate 24 0#8 ++ [1#8] ++ List.replicate 7 0#8], [],
  [[[0#32, 0#32, 0#32, 0x3F80_0000#32, 0#32, 0#32, 0#32, 0x3F80_0000#32, 0#32]]]⟩
def ray0 (dz : Word) : Ray := ⟨60, 2, some 3, 0, 20, [0x3E80_0000#32, 0x3E80_0000#32, 0xBF80_0000#32, 0#32, 0#32, 0#32, dz, 0x4120_0000#32],
  0x28_0000, 0#64, 0#32, 0#5, 0, 1, 224, 0#32, pc0, 3#32, none, none, 0⟩
def wy : State := { wc with bvhs := [bvh0], lazies := [⟨0x28_0000, 0x28_1000, 0, .bvh 50⟩], rays := [ray0 0x3F80_0000] }
def structOk : Bool := match structureAt (rayAgent wy (ray0 0x3F80_0000)) 0x28_0000 wy.draw.2 with
  | .ok (some b, s2) => decide (b = bvh0 ∧ s2.cur = wy.cur ∧ s2.rays = wy.rays)
  | _ => false
theorem wit_RaysOfACohort : Calm wc ∧ activeMask hd false wc.cur ≠ 0#32
    ∧ (∀ mt ∈ [{ srcs := [(.v 16, 8), (.s 30, 4), (.imm 3, 1)], dsts := [(.v 24, 4)] }, { dsts := [(.v 24, 2)] }], Usable wc mt)
    ∧ (src64 wc none (.s 30)).toNat % 4096 = 0 ∧ Drained wc ∧ BackOk wc ∧ wc.rays = [] ∧ wy.cur.resident = true
    ∧ (wy.rays.find? fun x => x.id == 60) = some (ray0 0x3F80_0000) ∧ (ray0 0).cohort = some wy.cur.pl.id
    ∧ structOk = true ∧ (∃ g, bvh0.geos = [g] ∧ fld g 24 2 % 4 = 1)
    ∧ Val.fin? (Fmt.f32.val 0) = true ∧ Val.fin? (Fmt.f32.val 0x3F80_0000) = true ∧ BadRay (ray0 0) ∧ ¬ BadRay (ray0 0x3F80_0000) := by
  refine ⟨calm_wc, by decide, usables_of _ (by decide), by decide +kernel, drained_wc, (by unfold BackOk; decide +kernel), rfl, rfl, by decide +kernel, rfl, by decide +kernel,
    ⟨_, rfl, by decide +kernel⟩, by decide +kernel, by decide +kernel, .inr (.inl ?_), ?_⟩
  · have h : ∀ k, k < 7 → 4 ≤ k → (rayVal (ray0 0) k).isZero = true := by decide +kernel
    exact fun k h4 h7 => h k h7 h4
  · have h : (∀ k, k < 8 → Val.fin? (rayVal (ray0 0x3F80_0000) k) = true) ∧ (rayVal (ray0 0x3F80_0000) 6).isZero = false
        ∧ (rayVal (ray0 0x3F80_0000) 3).lt (.fin false 0 0) = false ∧ (rayVal (ray0 0x3F80_0000) 7).lt (rayVal (ray0 0x3F80_0000) 3) = false := by
      decide +kernel
    rintro (⟨k, hk, hf⟩ | hz | hn | hl)
    · cases (h.1 k hk).symm.trans hf
    · cases (hz 6 (by omega) (by omega)).symm.trans h.2.1
    · cases hn.symm.trans h.2.2.1
    · cases hl.symm.trans h.2.2.2

/-- A request for a hart whose image holds one callable, an ECALL at 0x1000. -/
def rq0 : EvalReq := ⟨0, 1, 0, 0, 0#32, 0#32, 0#32, 0#64, 0#32, 0#32, 0, 0, 0#32, [1#32]⟩
def whF : State := { wm with harts := [⟨curUnit 0, 0, 1, 0, leBytes 8 0x1000 ++ List.replicate 4088 0#8 ++ leBytes 4 0x73⟩] }
theorem wit_RaysOfACohort_evaluation : (tenant? whF rq0.part rq0.asid).map tHartImg = some 0
    ∧ (whF.harts.find? fun x => x.unit == curUnit 0).isSome = true
    ∧ ∀ x ∈ whF.harts, x.part = rq0.part ∧ x.asid = rq0.asid ∧ x.base = 0 ∧ (callableOf x.bytes rq0.callable).ok = true
      ∧ (callableOf x.bytes rq0.callable).entry = 0x1000 ∧ fld x.bytes 0x1000 4 = 0x73 := by decide +kernel

/-- Descriptors: a build of one geometry without triangles and a halo job; a resample job, a halo job and two builds in their queues. -/
def bdesc (n : Nat) : List Byte := leBytes 8 0x20_3000 ++ leBytes 8 n ++ leBytes 8 0x28_0000 ++ leBytes 8 0x2000 ++ leBytes 8 0x29_0000
  ++ leBytes 8 0x3000 ++ leBytes 8 0x20_4000 ++ leBytes 8 0
def cdesc (b4 : Byte) : List Byte := leBytes 4 0 ++ [b4] ++ List.replicate 51 0#8 ++ leBytes 8 0x20_7000
def wj : State :=
  (((wc.setBytes 0x20_2000 (bdesc 1)).setBytes 0x20_6000 (cdesc 2)).setBytes 0x1060 (leBytes 8 0x20_8000)).setBytes 0x20_8000 (leBytes 8 0x1000)
def job (id : Nat) (b : Bool) (d : List Byte) : Job := ⟨id, 0, 3, 7, 0, none, 0, 1, b, d, pc0, 0⟩
def wqF (j : Job) : State := { wj with jobs := [j] }
def readJobOk (a : Opd) (cur : Bool) : Bool := match readJob a wj with
  | .ok (d, s1) => quietB s1 && if cur then cdescOk s1 s1.cur.pl.part s1.cur.pl.asid d && s1.jobs.isEmpty else fld d 48 8 % 8 == 0
  | .error _ => false
def cplOk (j : Job) : Bool := match (jobAgent (wqF j) j).write (CDesc.ofBytes j.desc).cpl (cplBytes ⟨0, 0, 0⟩ 0 0 false false) (wqF j) with
  | .ok (_, s1) => decide (s1.resv = (wqF j).resv ∧ s1.jobs = (wqF j).jobs ∧ s1.m = (wqF j).m)
  | .error _ => false
def buildOk (j : Job) (good : Bool) : Bool := match buildM (jobAgent (wqF j) j) j.id j.desc (wqF j) with
  | .ok (c, s1) => (c == 0) == good
      && match (jobAgent (wqF j) j).write (fld j.desc 48 8) (leBytes 8 (if good then 1 else 0x8000_0000 + c))
          (if good then s1 else spoilOutput (jobAgent (wqF j) j) j.id j.desc s1) with
        | .ok _ => true
        | .error _ => false
  | .error _ => false
theorem wit_JobsOfEngines : Calm wj ∧ activeMask hd true wj.cur ≠ 0#32
    ∧ (∀ mt ∈ [{ uni := true, srcs := [(.s 26, 2)] }, { uni := true, srcs := [(.s 28, 2)] }, { uni := true, srcs := [(.imm 1, 1)] }], Usable wj mt)
    ∧ wj.jobs = [] ∧ readJobOk (.s 28) true = true ∧ readJobOk (.s 26) false = true
    ∧ (∀ k ∈ [0#8, 2#8], jobTurn (wqF (job 5 false (cdesc k))) (job 5 false (cdesc k)) = true ∧ cplOk (job 5 false (cdesc k)) = true
        ∧ (CDesc.ofBytes (cdesc k)).sig = 0 ∧ (CDesc.ofBytes (cdesc k)).nspat = 0 ∧ (CDesc.ofBytes (cdesc k)).temp = false)
    ∧ (CDesc.ofBytes (cdesc 0)).kind = 0 ∧ (CDesc.ofBytes (cdesc 2)).kind = 1 ∧ haveQuad (wqF (job 5 false (cdesc 2))) 0 = true
    ∧ (tilePixels wj (CDesc.ofBytes (cdesc 0))).length = 16
    ∧ buildOk (job 5 true (bdesc 1)) true = true ∧ buildOk (job 5 true (bdesc 0)) false = true ∧ buildDescOk (bdesc 0) = false :=
  ⟨calm_of (by decide +kernel), by decide +kernel, usables_of _ (by decide +kernel), by decide +kernel⟩

/-! ### Control flow, barriers, overlays -/

/-- A header whose guard P1 is true in lane 0. -/
def h1 : Hdr := { hd with g := ⟨false, 1#3⟩ }
def off1 : Hdr := { hd with g := ⟨true, 7#3⟩ }
def blk0 : BitVec 512 := (BitVec.ofNat 512 (2 ^ 499 + 5 * 2 ^ 496)) ||| 0#512
def ovs (core ix ovl : Nat) (st : SlotSt) (pins : Nat) : OvSlot := ⟨core, ix, st, false, ovl, 0, 1, 1, pins, 6, false, 0, List.replicate 6 blk0, 0, []⟩
/-- Overlays 5 and 6 resident, 7 loading, 8 failed; a stack at 0x200800; PCs of overlays 6 and 5 in S20 and S22, tokens in S30 to S33. -/
def wo : State :=
  let pl : Place := { coh0.pl with dsBase := 0x20_0800, dsDepth := 3 }
  let r : Regs := { coh0.r with
    p := [(1, 1#32)], s := [(1, 7#32), (2, 5#32), (8, 0x20_0040#32), (10, 0x1040#32), (20, BitVec.ofNat 32 (Pc.mk 6 3 0).toNat),
      (21, BitVec.ofNat 32 ((Pc.mk 6 3 0).toNat / 2 ^ 32)), (22, BitVec.ofNat 32 (Pc.mk 5 2 0).toNat),
      (23, BitVec.ofNat 32 ((Pc.mk 5 2 0).toNat / 2 ^ 32)), (30, 0x105#32), (31, 0x0100_0106#32), (32, 0x0200_0107#32), (33, 0x0300_0108#32)] }
  { wm with cur := { coh0 with pl := pl, r := r }
            slots := [ovs 9 0 5 .resident 0, ovs 9 1 6 .resident 2, ovs 9 2 7 .loading 0, ovs 9 3 8 .failed 0] }
/-- With a second part, run or waiting. -/
def wb (ra rb : Bool) (pb : Pc) (dst : Nat) : State := wo.updC fun c =>
  { c with a := some ⟨ra, pc0, 3#32, false⟩, b := some ⟨rb, pb, 12#32, false⟩, dstop := dst }
theorem rested_wo : Rested wo := ⟨rfl, rfl, ⟨_, rfl, rfl⟩, rfl⟩
theorem rested_wb : Rested (wb true true pc0 0) := ⟨rfl, rfl, ⟨_, rfl, rfl⟩, rfl⟩
def pushOk (s : State) : Bool := match stackStore (s.cur.stackAt 0) ⟨true, pc0, 12#32, false⟩ s with
  | .ok ((), s1) => decide (s1.cur.c = s.cur.c ∧ s1.slots = s.slots ∧ s1.cur.pl = s.cur.pl)
  | .error _ => false
theorem wit_ControlTransfers : Calm wo ∧ Rested wo ∧ Lands wo 5 2 ∧ Lands wo 6 3 ∧ ((pc0.blk : Int) + (1#32).toInt = (2 : Nat))
    ∧ (∀ mt ∈ [{ srcs := [(.s 20, 2)] }, { uni := true, dsts := [(.s 24, 2)] }, { uni := true, srcs := [(.s 22, 2)], dsts := [(.s 24, 2)] }], Usable wo mt)
    ∧ src64 wo none (.s 20) = (Pc.mk 6 3 0).zeroExtend 64 ∧ src64 wo none (.s 22) = (Pc.mk 5 2 0).zeroExtend 64
    ∧ activeMask hd false wo.cur = wo.cur.smask ∧ activeMask off1 false wo.cur = 0#32 ∧ activeMask hd true wo.cur ≠ 0#32
    ∧ activeMask h1 false wo.cur = 1#32 ∧ (wo.cur.slotLanes ||| wo.cur.stackLanes) &&& ~~~1#32 ≠ 0#32 ∧ wo.cur.smask &&& ~~~1#32 ≠ 0#32
    ∧ (wo.cur.slotLanes ||| wo.cur.stackLanes) &&& ~~~3#32 = 0#32 ∧ ownLogged wo = false ∧ wo.cur.x.inv = none
    ∧ (takeFault wo (ownTiles wo)).isNone = true ∧ owed wo 3 = false ∧ deliverFault (ownTiles wo) wo = .ok ((), wo)
    ∧ Calm (wb true true pc0 0) ∧ Rested (wb true true pc0 0) ∧ (wb true true pc0 0).cur.smask = 3#32 ∧ activeMask h1 false (wb true true pc0 0).cur = 1#32
    ∧ pushOk (wb true true pc0 0) = true
    ∧ ((wb true true pc0 0).cur.slotLanes ||| (wb true true pc0 0).cur.stackLanes) &&& ~~~3#32 ≠ 0#32 :=
  ⟨calm_of rfl, rested_wo, ⟨ovs 9 0 5 .resident 0, by decide +kernel⟩, ⟨ovs 9 1 6 .resident 2, by decide +kernel⟩, by decide,
    usables_of _ (by decide), by decide +kernel, by decide +kernel, by decide +kernel, by decide +kernel, by decide +kernel, by decide +kernel,
    by decide +kernel, by decide +kernel, by decide +kernel, by decide +kernel, by decide +kernel, by decide +kernel, by decide +kernel, rfl, calm_of rfl, rested_wb,
    by decide +kernel⟩

/-- A stack whose top entry is given; what a rule reads there. -/
def topped (e : PcPart) (a b : Option PcPart) : State :=
  after (match stackStore (wo.cur.stackAt 0) e (wo.updC fun c => { c with a := a, b := b, dstop := 1, stack := [(5, e.mask)] }) with
    | .ok ((), s) => .next s
    | .error _ => .next w0)
def readsTop (e : PcPart) (s : State) : Bool := match stackLoad (s.cur.stackAt 0) s with
  | .ok (bs, s1) => decide (s1.cur.c = s.cur.c ∧ entryPart bs = some e)
  | .error _ => false
def wait (p : Pc) (m : Mask) : PcPart := ⟨false, p, m, false⟩
def runs (p : Pc) (m : Mask) : PcPart := ⟨true, p, m, false⟩
def exchangeOk (s : State) : Bool := match stackLoad (s.cur.stackAt 0) s with
  | .ok (_, s1) => match stackStore (s.cur.stackAt 0) (wait (Pc.mk 5 2 0) 2#32) s1 with
    | .ok ((), s2) => decide (s2.cur.c = s.cur.c)
    | .error _ => false
  | .error _ => false
def joins : Bool := match settle pc0 3#32 (wo.updCur fun c => c.setPart (some (wait (Pc.mk 5 2 0) 3#32))) with
  | .ok ((), _) => true
  | .error _ => false
theorem wit_SlotsWaitAndPark : Calm wo ∧ (∃ x, wo.cur.part? = some x) ∧ Lands wo 5 2 ∧ joins = true ∧ wo.cur.other? = none
    ∧ wo.cur.c.dstop = 0 ∧ activeMask hd true wo.cur ≠ 0#32
    ∧ (∀ mt ∈ [{ uni := true, srcs := [(.imm 9, 1)] }, { uni := true, srcs := [(.s 20, 2)] }], Usable wo mt)
    ∧ (wo.updC fun c => { c with park := some 5 }).cur.c.park = some 5
    ∧ readsTop (runs (Pc.mk 5 4 0) 4#32) (topped (runs (Pc.mk 5 4 0) 4#32) (some (wait pc0 1#32)) (some (wait (Pc.mk 5 2 0) 2#32))) = true
    ∧ exchangeOk (topped (runs (Pc.mk 5 4 0) 4#32) (some (wait pc0 1#32)) (some (wait (Pc.mk 5 2 0) 2#32))) = true
    ∧ readsTop (wait (Pc.mk 5 4 0) 4#32) (topped (wait (Pc.mk 5 4 0) 4#32) (some (wait pc0 1#32)) (some (wait (Pc.mk 5 2 0) 2#32))) = true
    ∧ readsTop (wait pc0 4#32) (topped (wait pc0 4#32) (some (wait pc0 1#32)) none) = true
    ∧ readsTop (runs pc0 4#32) (topped (runs pc0 4#32) none (some (wait pc0 1#32))) = true
    ∧ (match stackLoad (wo.cur.stackAt 0) (wo.updC fun c => { c with dstop := 1 }) with
      | .ok (bs, s1) => decide (s1.cur = (wo.updC fun c => { c with dstop := 1 }).cur) && (entryPart bs).isNone
      | .error _ => false) = true :=
  ⟨calm_of rfl, ⟨_, rfl⟩, ⟨ovs 9 0 5 .resident 0, by decide +kernel⟩, by decide +kernel, rfl, rfl, by decide, usables_of _ (by decide), rfl,
    by decide +kernel, by decide +kernel, by decide +kernel, by decide +kernel, by decide +kernel, by decide +kernel⟩

/-- A live barrier word at 0x3100 of the scratchpad, given its contents. -/
def bm : BMod := ⟨.own, .coh⟩
def wbar (w : BarWord) (live : Bool) : State :=
  let s := putBar 9 (spPa 9 0x3040) w w0
  if live then setTag 9 (spPa 9 0x3040) s else s
def placeOk (s : State) : Bool := match barPlace bm (.s 10) s with
  | .ok (pa, s1) => pa == spPa 9 0x3040 && s1.cur.resident && decide (s1.cur.c = s.cur.c ∧ s1.cur.pl = s.cur.pl)
  | .error _ => false
def word (arr exp : Word) (det : Bool) : BarWord := ⟨0#32, 1#2, det, false, exp, arr⟩
theorem wit_BarrierInstructions : Calm (wbar (word 0 3 false) true) ∧ activeMask hd true (wbar (word 0 3 false) true).cur ≠ 0#32
    ∧ placeOk (wbar (word 0 3 false) true) = true ∧ placeOk (wbar (word 0 3 false) false) = true
    ∧ Quiet .coh (wbar (word 0 3 false) true)
    ∧ (∀ mt ∈ [{ uni := true, srcs := [(.s 10, 1), (.s 1, 1)], lates := latesRel, opnd := 1 },
        { uni := true, srcs := [(.s 10, 1), (.s 1, 1)], dsts := [(.s 12, 1), (.q 1, 1)], lates := latesRel, opnd := 1 },
        { uni := true, srcs := [(.s 10, 1), (.s 1, 1)], dsts := [(.q 1, 1)], opnd := 1 },
        { uni := true, srcs := [(.s 10, 1)], lates := latesRel, opnd := 1 }, { uni := true, srcs := [(.s 10, 1)], dsts := [(.s 12, 4)], opnd := 1 }],
        Usable (wbar (word 0 3 false) true) mt)
    ∧ src32 w0 none (.s 1) = 7#32 ∧ src32 w0 none (.imm 0) = 0#32
    ∧ barAt (wbar (word 1 3 true) true) (spPa 9 0x3040) = word 1 3 true ∧ (wbar (word 1 3 true) true).live (spPa 9 0x3040) = true
    ∧ (wbar (word 1 3 true) false).live (spPa 9 0x3040) = false ∧ (3#32).toNat ≤ (src32 w0 none (.s 1)).toNat
    ∧ (word 2 3 false).arrived + 1 = (word 2 3 false).expected ∧ (word 0 3 false).arrived + 1 ≠ (word 0 3 false).expected :=
  ⟨calm_of (by decide +kernel), by decide +kernel, by decide +kernel, by decide +kernel, quiet_of (by decide +kernel) _,
    usables_of _ (by decide +kernel), by decide +kernel, by decide +kernel, by decide +kernel, by decide +kernel, by decide +kernel,
    by decide, by decide, by decide⟩

/-- Waiters at the word: woken with an answer, and suspended there while its phase has moved on. -/
def wwk : State := (wbar (word 0 3 false) true).updC fun c => { c with barEnd := some true, stage := .arrived 0#32 true }
def wsu : State := (wbar (word 0 3 false) true).updC fun c => { c with barAt := some (spPa 9 0x3040), stage := .arrived 1#32 true }
theorem wit_BarrierInstructions_woken : Calm wwk ∧ placeOk wwk = true ∧ wwk.cur.c.barAt = none ∧ wwk.cur.c.barEnd = some true
    ∧ wwk.cur.c.stage = .arrived 0#32 true ∧ Calm wsu ∧ placeOk wsu = true ∧ wsu.cur.c.barAt = some (spPa 9 0x3040) ∧ wsu.cur.c.barEnd = none
    ∧ wsu.cur.c.stage = .arrived 1#32 true ∧ wsu.live (spPa 9 0x3040) = true ∧ (barAt wsu (spPa 9 0x3040)).st = 1#2
    ∧ (barAt wsu (spPa 9 0x3040)).phase ≠ 1#32 :=
  ⟨calm_of (by decide +kernel), by decide +kernel, rfl, rfl, rfl, calm_of (by decide +kernel), by decide +kernel, rfl, rfl, rfl, by decide +kernel,
    by decide +kernel, by decide +kernel⟩

/-- A catalogue at 0x200000 with overlay 5 of three blocks at 0x200400, for a tenant with a quota of granules. -/
def wcat (quota : Byte) (sl : List OvSlot) : State :=
  { (wo.setBytes 0x20_0140 (leBytes 8 0x20_0400 ++ leBytes 3 5 ++ [1#8] ++ leBytes 2 3)).setBytes 0x1048 (leBytes 8 0x20_0000 ++ leBytes 4 16 ++ [quota])
    with slots := sl }
/-- The descriptor is read; room for its overlay or none. -/
def descOk (n : Nat) (s : State) (room : Bool) : Bool := match cohortDesc n s with
  | .ok (some ds, s1) => quietB s1 && decide (s1.cur = s.cur ∧ s1.slots = s.slots ∧ 2 < ds.nblk) && (allocSlot 9 0 1 n ds s1).isSome == room
      && (!room || decide (granulesOf s1 (fun o => o.core == 9 && o.part == 0 && o.asid == 1 && o.traph == ds.traph && o.pins != 0)
              + granules ds.nblk ≤ ovShare s1 0 1 ds.traph))
  | _ => false
def loading (image : Nat) : OvSlot := { ovs 9 4 10 .loading 0 with nblk := 1, image := image, blocks := [] }
def wload (image : Nat) : State := { wo with slots := [loading image] }
def loadOk (image : Nat) (s : State) : Option Bool :=
  match (⟨0, 1, privOf s 0 1, 6, some 9, none, none⟩ : Agent).read image 64 .ovl s with
  | .ok (_, s1) => some (decide (s1.slots = s.slots))
  | .error (.bad _ _) => some false
  | .error _ => none
theorem wit_OverlayInstructions_tokens : Calm wo ∧ Rested wo ∧ activeMask hd true wo.cur ≠ 0#32
    ∧ (∀ mt ∈ [{ uni := true, srcs := [(.s 30, 1)], dsts := [(.s 12, 1)] }, { uni := true, srcs := [(.s 30, 1)], dsts := [(.q 1, 1)] },
        { uni := true, srcs := [(.imm 5, 1), (.imm 2, 1)], dsts := [(.s 24, 2)] }], Usable wo mt)
    ∧ currentSlot wo 7#32 = none ∧ currentSlot wo 0x105#32 = some (ovs 9 0 5 .resident 0)
    ∧ currentSlot wo 0x0100_0106#32 = some (ovs 9 1 6 .resident 2) ∧ currentSlot wo 0x0200_0107#32 = some (ovs 9 2 7 .loading 0)
    ∧ currentSlot wo 0x0300_0108#32 = some (ovs 9 3 8 .failed 0) ∧ refCount wo (ovs 9 3 8 .failed 0) = 0 ∧ refCount wo (ovs 9 0 5 .resident 0) ≠ 0
    ∧ slotOf wo 9 0 1 5 = some (ovs 9 0 5 .resident 0) ∧ slotOf wo 9 0 1 7 = some (ovs 9 2 7 .loading 0) ∧ slotOf wo 9 0 1 9 = none
    ∧ blockAt? wo 9 0 1 (Pc.mk 5 2 0) = some blk0 ∧ blkEntry blk0 = true :=
  ⟨calm_of rfl, rested_wo, by decide, usables_of _ (by decide), by decide +kernel⟩
theorem wit_OverlayInstructions_catalogue : (match cohortDesc 5 wo with | .ok (none, s1) => decide (s1.cur = wo.cur) | _ => false) = true
    ∧ slotOf (wcat 16#8 [ovs 9 0 5 .resident 0]) 9 0 1 5 = some (ovs 9 0 5 .resident 0) ∧ descOk 5 (wcat 16#8 [ovs 9 0 5 .resident 0]) true = true := by
  decide +kernel
theorem wit_OverlayInstructions_loading : slotOf (wcat 0#8 [ovs 9 0 5 .loading 0]) 9 0 1 5 = some (ovs 9 0 5 .loading 0)
    ∧ descOk 5 (wcat 0#8 [ovs 9 0 5 .loading 0]) false = true := by decide +kernel
theorem wit_OverlayInstructions_room : slotOf (wcat 16#8 []) 9 0 1 5 = none ∧ descOk 5 (wcat 16#8 []) true = true := by decide +kernel
theorem wit_OverlayInstructions_full : slotOf (wcat 0#8 []) 9 0 1 5 = none ∧ descOk 5 (wcat 0#8 []) false = true := by decide +kernel
theorem wit_OverlayInstructions_loads : (∀ x ∈ (wload 0x20_0400).slots, x.evict = false)
    ∧ ((wload 0x20_0400).slots.find? fun x => x.core == 9 && x.ix == 4 && x.st == .loading) = some (loading 0x20_0400)
    ∧ loadOk 0x20_0400 (wload 0x20_0400) = some true ∧ loadOk 0 (wload 0) = some false
    ∧ (wo.updC fun c => { c with stage := .ovl 9 3 none none }).cur.c.stage = .ovl 9 3 none none := by decide +kernel
/-- A transfer that waits for overlay 5, which has no slot. -/
def wtrH : State := (wcat 16#8 []).updC fun c => { c with stage := .ovl 5 0 none none }
theorem wit_OverlayInstructions_waits : wtrH.cur.resident = true ∧ wtrH.cur.c.stage = .ovl 5 0 none none ∧ wtrH.cur.c.ovFail = false
    ∧ slotOf wtrH 9 0 1 5 = none ∧ descOk 5 wtrH true = true ∧ (slotOf (failLoad (ovs 9 0 5 .loading 0) wtrH) 9 0 1 5) = none := by decide +kernel

/-! ### Graphs, fills and control registers -/

/-- A graph of a shader node with an edge to itself and one to a second node, and of fixed nodes of each kind. -/
def graph0 (kind : Nat) : Graph :=
  { nodes := [⟨0, 2, 1024, 4, Pc.mk 5 0 0, [(1, 9), (0, 5)]⟩, ⟨0, 0, 64, 2, Pc.mk 5 0 0, []⟩, ⟨kind, 0, 64, 1, 0, []⟩], root := 0, pool := 0x10_0000
    free := (List.range 20).map (0x10_0000 + 4096 * ·), live := [], recs := [⟨2, 0x20_1000, 0, 0, 0⟩, ⟨0, 0x20_1040, 0, 0, 0⟩], nextInv := 7, running := 1 }
def inv0 : Inv := ⟨5, 0, 0, [0x10_2000], [(0, 0x10_1000), (1, 0x10_2000), (1, 0x10_3000)], [], []⟩
def launch1 (kind : Nat) : Launch :=
  { launch0 with id := 5, graph := some (graph0 kind), rc := { launch0.rc with det := true, modCount := 1, vregs := 16, spad := 256, zcount := 1 } }
/-- The cohort as an invocation of node 0; partition 0 holds every core, and every die is ready. -/
def wgr (kind : Nat) : State :=
  { wm with
    cur := { coh0 with pl := { coh0.pl with launch := some 5, slotIx := 3 }, x := { coh0.x with inv := some inv0 } }
    mem := mem0 ++ [(0x1054, 16#8)], launches := [launch1 kind], slots := [⟨9, 0, .resident, false, 5, 0, 1, 1, 0, 6, false, 0, [], 0, []⟩]
    parts := { part0 with cfg := 0xFFFF_0000_0001#64 } :: wm.parts.drop 1, m := { wm.m with ready := BitVec.allOnes 64 } }
theorem onEdge_wgr : OnEdge (wgr 1) 0 (launch1 1) (graph0 1) inv0 (nth (graph0 1).nodes 1 GNode.zero) false 9 :=
  ⟨rfl, rfl, by decide, rfl, 1, 9, by decide⟩
theorem wit_WorkGraphInstructions_records : Calm (wgr 1) ∧ OnEdge (wgr 1) 0 (launch1 1) (graph0 1) inv0 (nth (graph0 1).nodes 1 GNode.zero) false 9
    ∧ (∀ mt ∈ [{ srcs := [(.none, 0), (.imm 0, 1)], dsts := [(.v 2, 2)] }, { uni := true, srcs := [(.imm 0, 1)], dsts := [(.s 12, 1)] },
        { uni := true, srcs := [(.imm 0, 1)] }], Usable (wgr 1) mt)
    ∧ (activeMask hd false (wgr 1).cur).lanes.length ≤ 9 ∧ activeMask hd true (wgr 1).cur ≠ 0#32 ∧ 0 < 4096 / max 1 64
    ∧ Quiet .dev (wgr 1) ∧ (wgr 1).cur.pl.id ≠ 0 ∧ deliverFault (ownTiles (wgr 1)) (released .dev (wgr 1)) = .ok ((), released .dev (wgr 1)) :=
  ⟨calm_of rfl, onEdge_wgr, usables_of _ (by decide), by decide, by decide, by decide,
    quiet_of (by decide +kernel) _, by decide, rfl⟩
theorem wit_WorkGraphInstructions_launch : (wgr 1).launch? 5 = some (launch1 1)
    ∧ batchOf true (wgr 1).pick (graph0 1) 0 = [⟨0, 0x20_1040, 0, 0, 0⟩]
    ∧ (let n := nth (graph0 1).nodes 0 GNode.zero
       n.kind = 0 ∧ reservation (graph0 1).nodes 0 0 + largestRes (graph0 1).nodes ≤ (graph0 1).free.length
       ∧ (∀ c ∈ (wgr 1).cohorts, ¬ (c.pl.core = 9 ∧ c.pl.slotIx = 20)) ∧ 20 % 8 < slotCap (20 / 8) ∧ coreOf (wgr 1) 0 9 = true
       ∧ (launch1 1).rc.start ≤ (wgr 1).m.time ∧ (wgr 1).m.stopped = false ∧ moduleIx (wgr 1) (launch1 1).rc ≠ none ∧ (wgr 1).saved = []
       ∧ outranked (wgr 1) (launch1 1) 9 = false ∧ producersEnded (wgr 1) (launch1 1) (graph0 1) 0 ⟨0, 0x20_1040, 0, 0, 0⟩ = true
       ∧ ovFits (wgr 1) 9 0 1 (n.entry.ovl :: (launch1 1).rc.ovlreq) = true
       ∧ (firstFit (rowCap (20 / 8)) 16 (rowsUsed (wgr 1).cohorts 9 (20 / 8))).isSome = true
       ∧ (firstFit spCap 256 (spUsed (wgr 1) 9)).isSome = true
       ∧ (bindTiles (wgr 1) (launch1 1) (wgr 1).cohorts 2 7 (List.range 1) (freeTiles (wgr 1) 2)).isSome = true) := by decide +kernel
/-- The record of a fixed node: for a ray all zero, for a job a halo descriptor. -/
def wfix (kind : Nat) : State := if kind = 3 then
  { (((wgr 3).setBytes 0x20_1004 [2#8]).setBytes 0x1060 (leBytes 8 0x20_8000)).setBytes 0x20_8000 (leBytes 8 0x1000) with m := { (wgr 3).m with rsvsurf := 0x0001_0001_0003_0003#64 } } else wgr kind
def fixOk (kind : Nat) : Bool := match (⟨0, 1, privOf (wfix kind) 0 1, 2 ^ 65 + 0x20_1000, none, none, none⟩ : Agent).read 0x20_1000 64 .load (wfix kind).draw.2 with
  | .ok (bs, s1) => decide (s1.launches = (wfix kind).launches) && (kind != 3 || (cdescOk s1 0 1 bs && s1.jobs.isEmpty))
  | .error _ => false
theorem wit_WorkGraphInstructions_fixed : (wgr 1).launch? 5 = some (launch1 1) ∧ (launch1 1).halted = false ∧ (launch1 1).rc.start ≤ (wgr 1).m.time
    ∧ moduleIx (wgr 1) (launch1 1).rc ≠ none    ∧ (wgr 2).rays = [] ∧ fixOk 2 = true ∧ fixOk 3 = true := by decide +kernel
theorem wit_WorkGraphInstructions_pick (k : Nat) :
    ((graph0 1).recs.filter fun x => x.node == 2)[Config.batchPick k % max 1 ((graph0 1).recs.filter fun x => x.node == 2).length]?
      = some ⟨2, 0x20_1000, 0, 0, 0⟩ := by
  have : ((graph0 1).recs.filter fun x => x.node == 2) = [⟨2, 0x20_1000, 0, 0, 0⟩] := by decide
  rw [this]
  simp [Nat.mod_one]

/-- A device queue 2 of the tenant with room, its ring at 0x201000. -/
def wdq : State := { (wm.setBytes 0x6040 (leBytes 8 0x20_1000 ++ [4#8, 3#8, 0#8, 1#8, 1#8])) with m := { wm.m with qdt := 0x6000#64 } }
def ringOk : Bool :=
  let ag := agentOf wdq.cur (wdq.cur.pl.id * 2 ^ 24 + 8)
  let q := queueDesc wdq 2
  match ringHead ag q (released .sys wdq) with
  | .ok ((head, tail, st), s2) => st == 0 && ringCount head tail != q.size && decide (s2.cur.c = wdq.cur.c)
    && match ag.read 0x20_0000 64 .load s2 with
      | .ok (bs, s3) => match ag.write (q.at_ tail) bs s3 with
        | .ok ((), s4) => match ag.write (q.base + 4) (leBytes 4 (tail + 1)) s4 with
          | .ok ((), s5) => decide (s5.cur.c = wdq.cur.c)
          | .error _ => false
        | .error _ => false
      | .error _ => false
  | .error _ => false
theorem wit_WorkGraphInstructions_post : Calm wdq ∧ Quiet .sys wdq
    ∧ Usable wdq { uni := true, srcs := [(.imm 0, 2), (.imm 2, 1)], dsts := [(.q 1, 1)], lates := latesRel, opnd := 1 }
    ∧ wdq.cur.x.gen = none ∧ (queueDesc wdq 2).en = true ∧ (queueDesc wdq 2).prod = true ∧ (queueDesc wdq 2).asid = wdq.cur.pl.asid
    ∧ (queueDesc wdq 2).part = wdq.cur.pl.part ∧ ringOk = true :=
  ⟨calm_of (by decide +kernel), quiet_of (by decide +kernel) _, usable_of (by decide +kernel), by decide +kernel⟩

/-- A range over the procedural page at 0x400000, its map at 0x200100, of a kind and block size. -/
def rng (kind log : Nat) : List Byte := leBytes 8 0x40_0000 ++ leBytes 8 0x60_0000 ++ leBytes 8 0x20_0100 ++ leBytes 8 0x20_0200
  ++ leBytes 3 5 ++ [BitVec.ofNat 8 kind, BitVec.ofNat 8 log, 8#8, 0#8, 0#8] ++ leBytes 2 1 ++ List.replicate 22 0#8
def range0 : Range := ⟨3, rng 1 12⟩
def fill0 (kind log : Nat) : Fill := ⟨77, 0, 0, 1, 1, 3, 0, 0, false, none, rng kind log, none⟩
def wfl (kind log : Nat) (b : Byte) : State :=
  { wm with
    mem := mem0 ++ [(0x2010, 31#8), (0x2012, 64#8), (0x2017, 64#8)] ++ if b = 0#8 then [] else [(0x20_0100, b)]
    parts := { part0 with ranges := [(1, [range0])], cfg := 0xFFFF_0000_0001#64 } :: wm.parts.drop 1
    fills := [fill0 kind log] }
/-- The cohort as the generator of the fill. -/
def wgen : State := (wfl 1 12 1#8).updX fun x => { x with gen := some { fill := 77, asid := 1, owner := 1, range := 3, block := 0, depth := 0 } }
def qryOk (va : Nat) : Option (Bool × Option Nat) := match xlateLane (wfl 1 12 2#8) (wfl 1 12 2#8).cur none .query va with
  | .ok t => some (Pte.proc t.pte, (rangeFor (wfl 1 12 2#8) 0 1 t.va).bind fun r => blkState (wfl 1 12 2#8) 0 r (r.blockOf t.va))
  | _ => none
theorem wit_FillInstructionsAndEvents : Calm (wfl 1 12 2#8) ∧ activeMask hd true (wfl 1 12 2#8).cur ≠ 0#32 ∧ (wfl 1 12 2#8).cur.x.gen = none
    ∧ Calm wgen ∧ wgen.cur.x.gen.isSome = true ∧ Quiet .dev wgen
    ∧ (∀ mt ∈ [{ uni := true, srcs := [(.imm 3, 1)], lates := latesRel }, { uni := true, srcs := [(.s 8, 2)], dsts := [(.s 12, 1)], opnd := 1 }],
        Usable (wfl 1 12 2#8) mt)
    ∧ qryOk 0x20_0000 = some (false, none) ∧ qryOk 0x40_0000 = some (true, some 2)
    ∧ ((wfl 1 12 1#8).fills.find? fun x => x.id == 77) = some (fill0 1 12) ∧ rangeIx? (wfl 1 12 1#8) 0 1 3 = some range0
    ∧ (mapTr (wfl 1 12 1#8) 0 range0 0 .store).isSome = true ∧ (mapTr (wfl 1 12 1#8) 0 range0 0 .load).isSome = true
    ∧ rangeFor (wfl 1 12 0#8) 0 1 0x40_1000 = some range0 ∧ blkState (wfl 1 12 0#8) 0 range0 1 = some 0 ∧ blkState (wfl 1 12 1#8) 0 range0 0 = some 1
    ∧ (∀ b ∈ [0#8, 1#8, 2#8], mapBusy (wfl 1 12 b) 0 1 range0 0 = false ∧ mapBusy (wfl 1 12 b) 0 1 range0 1 = false)
    ∧ waiterFree (wfl 1 12 0#8) 0 = true :=
  ⟨calm_of rfl, by decide, rfl, calm_of rfl, rfl, quiet_of (by decide +kernel) _, usables_of _ (by decide), by decide +kernel⟩
/-- A catalogue with the generator overlay 5 or without it. -/
def wgs (reg : Bool) : State := (wfl 1 12 1#8).setBytes 0x1048 (leBytes 8 0x20_0000 ++ leBytes 4 (if reg then 16 else 0))
def genOk (reg : Bool) : Bool :=
  let s := if reg then (wgs reg).setBytes 0x20_0140 (leBytes 8 0x20_0400 ++ leBytes 3 5 ++ [5#8] ++ leBytes 2 3) else wgs reg
  match readDesc ⟨0, 1, privOf s 0 1, 77, none, none, none⟩ 5 s with
  | .ok (some d, _) => reg && d.gen
  | .ok (none, _) => !reg
  | .error _ => false
theorem wit_FillInstructionsAndEvents_generator : (fill0 1 12).started = false ∧ (fill0 1 12).rng.kind = 1 ∧ (fill0 1 12).rng.genovl = 5
    ∧ (∀ g ∈ (wgs true).fills, g.depth ≤ 0) ∧ (∀ c ∈ (wgs true).cohorts, ¬ (c.pl.core = 9 ∧ c.pl.slotIx = 7)) ∧ 9 / 1024 = (fill0 1 12).die
    ∧ 7 - 0 < freeReserved (wgs true) 0 ∧ genOk true = true ∧ genOk false = true := by decide +kernel
def zerosOk (s : State) (f : Fill) (va : Nat) : Option Bool := match (builtinAgent s f).write va (List.replicate f.rng.size 0#8) s with
  | .ok _ => some true
  | .error (.bad _ _) => some false
  | .error _ => none
/-- An LZ4 entry of a one-byte block: the image at 0x200300 is a token of one literal and the literal. -/
def wlz (pad : Nat) : State := ((wfl 2 0 1#8).setBytes 0x20_0200 (leBytes 8 0x20_0300 ++ leBytes 4 2 ++ leBytes 4 pad)).setBytes 0x20_0300 [0x10#8, 9#8]
def lzOk : Bool := match (builtinAgent (wlz 0) (fill0 2 0)).read 0x20_0200 16 .load (wlz 0) with
  | .ok (e, s1) => fld e 12 4 == 0 && match (builtinAgent (wlz 0) (fill0 2 0)).read (fld e 0 8) (fld e 8 4) .load s1 with
    | .ok (img, s2) => match lz4 1 (img.length + 1) img [] with
      | some bs => match (builtinAgent (wlz 0) (fill0 2 0)).write 0x40_0000 bs s2 with
        | .ok _ => true
        | .error _ => false
      | none => false
    | .error _ => false
  | .error _ => false
theorem wit_FillInstructionsAndEvents_builtin : zerosOk (wfl 0 0 1#8) (fill0 0 0) (fill0 0 0).va = some true
    ∧ zerosOk (wfl 0 0 1#8) (fill0 0 0) 0x60_0000 = some false ∧ lzOk = true ∧ lz4 1 3 [0xF0#8] [] = none
    ∧ (match (builtinAgent (wlz 1) (fill0 2 0)).read 0x20_0200 16 .load (wlz 1) with
      | .ok (e, _) => fld e 12 4 != 0
      | .error _ => false) = true := by decide +kernel

/-! ### Registers, traps, translation, provenance -/

/-- The cohort with a record in TREC; the same without privilege. -/
def rec0 (late : Bool) (done : Mask) : Rec := ⟨3, 0, 1, false, late, 0, 3#32, done, 0, 0, pc0, 0x40, some ⟨true, pc0, 3#32, false⟩, none, 7, 0xFFFF, 0, none⟩
def wtr (late : Bool) (done : Mask) : State :=
  { w0 with
    cur := { coh0 with c := { coh0.c with hm := true, trec := some (rec0 late done), tdone := done }, pl := { coh0.pl with launch := some 9 } }
    slots := [⟨9, 0, .resident, false, 5, 0, 1, 1, 0, 6, false, 0, [], 0, []⟩], launches := [launch0] }
theorem wit_ControlRegisters_instructions : Calm (wtr false 1#32) ∧ Calm wu ∧ activeMask hd true (wtr false 1#32).cur ≠ 0#32
    ∧ (∀ mt ∈ [{ uni := true, srcs := [(.lit 0x810, 1)], dsts := [(.s 12, 1)] }, { uni := true, srcs := [(.lit 0x810, 1), (.s 8, 1)] }], Usable (wtr false 1#32) mt)
    ∧ (∀ mt ∈ [{ uni := true, srcs := [(.lit 0x810, 1)], dsts := [(.s 12, 1)] }, { uni := true, srcs := [(.lit 0x810, 1), (.s 8, 1)] }], Usable wu mt)
    ∧ (∀ n : Word, src32 w0 none (.lit n) = n)
    ∧ isAssigned 0x000 = false ∧ isWideReg 0x810 = true ∧ isRoReg 0x003 = true ∧ isBarReg 0x812 = true ∧ wu.cur.pl.priv = false
    ∧ (wtr false 1#32).cur.c.trec = some (rec0 false 1#32) ∧ (wtr false 1#32).cur.pl.priv = true ∧ isPartReg 0x843 = true ∧ isModReg 0x811 = true
    ∧ surfIdle (wtr false 1#32) = true ∧ ownParked (wtr false 1#32) = false ∧ ownTransit (wtr false 1#32) = false
    ∧ owed (wtr false 1#32) 3 = false ∧ (wtr false 1#32).dlog = [] :=
  ⟨calm_of rfl, calm_of rfl, by decide, usables_of _ (by decide), usables_of _ (by decide), fun _ => rfl, by decide +kernel⟩
/-- A reservoir job in progress; a surface owned by partition 0. -/
def wbusy : State := { w0 with jobs := [⟨5, 0, 3, 7, 0, none, 0, 1, false, [], pc0, 0⟩] }
def wown : State := { w0 with m := { w0.m with rsvsurf := 0x0001_0001_0003_0003#64 } }
theorem wit_ControlRegisters_writes : surfIdle wbusy = false ∧ surfIdleDie wbusy 0 = false ∧ surfIdleDie wbusy 1 = true ∧ surfIdle wown = true ∧ wown.m.rsvsurf.getLsbD 32 = true
    ∧ (wown.m.rsvsurf.extractLsb' 44 4).toNat ≠ 1 ∧ (wown.m.rsvsurf.extractLsb' 44 4).toNat = 0 ∧ w0.m.rsvsurf.getLsbD 32 = false
    ∧ w0.m.pending = [] ∧ (∀ d, d < 4 → ((0x1111#64).extractLsb' (4 * d) 4).toNat ≤ 8)
    ∧ w0.parts.length = 16 ∧ (∀ y ∈ w0.parts, y.prange.length = 8) ∧ barReg 0x999 = none ∧ barReg 0x4018 = some (0, 0x843)
    ∧ barReg 0x208 = some (0, 0x812) ∧ barReg 0x320 = some (0, 0x818) ∧ isPartReg 0x843 = true := by decide +kernel

theorem wit_TrapInstructions : Calm w0 ∧ Usable w0 { uni := true, srcs := [(.s 1, 1)] } ∧ activeMask hd true w0.cur ≠ 0#32
    ∧ activeMask { hd with g := ⟨true, 7#3⟩ } true w0.cur = 0#32 ∧ w0.cur.c.hm = false ∧ w0.cur.pl.priv = true
    ∧ Calm (wtr false 1#32) ∧ (wtr false 1#32).cur.c.hm = true ∧ (wtr false 1#32).cur.c.b = none
    ∧ (wtr false 1#32).cur.c.trec = some (rec0 false 1#32) ∧ (wtr true 3#32).cur.c.trec = some (rec0 true 3#32)
    ∧ (rec0 false 1#32).mask &&& ~~~(wtr false 1#32).cur.c.tdone ≠ 0#32 ∧ (rec0 false 3#32).mask &&& ~~~(wtr false 3#32).cur.c.tdone = 0#32
    ∧ (rec0 true 3#32).cause < 0x20 ∧ (rec0 true 3#32).mask ≠ 0#32 ∧ (rec0 true 3#32).done = (rec0 true 3#32).mask
    ∧ Rested ((wtr false 1#32).updC fun c => { c with a := (rec0 false 1#32).slotA, b := none, dstop := 0, hm := false, isB := false
                                                      replay := some (false, 2#32) })
    ∧ Lands (wtr false 1#32) 5 0 ∧ Lands (wtr false 1#32) 5 2 ∧ Usable (wtr false 1#32) { uni := true, srcs := [(.s 20, 2)] }
    ∧ src64 (wtr false 1#32) none (.lit 7) = 7#64
    ∧ (wtr false 1#32).cur.pl.launch = some 9 ∧ ((wtr false 1#32).launch? 9).isSome = true ∧ ((wtr false 1#32).cohorts.map (·.pl.id)).Nodup :=
  ⟨calm_w0, usable_of (by decide), by decide, by decide, rfl, rfl, calm_of rfl, rfl, rfl, rfl, rfl, by decide, by decide, by decide, by decide,
    rfl, ⟨rfl, rfl, ⟨_, rfl, rfl⟩, rfl⟩, ⟨_, rfl, rfl, by decide, .inl rfl⟩, ⟨_, rfl, rfl, by decide, .inl rfl⟩, usable_of (by decide), by decide, rfl,
    by decide +kernel, by decide +kernel⟩

/-- Descriptors of a split at 0x200040 and of a move of the whole 2 MiB page at 0x200060. -/
def wti : State :=
  (wm.setBytes 0x20_0040 (leBytes 8 0x20_0000 ++ leBytes 8 0 ++ leBytes 8 0x7000 ++ leBytes 2 1)).setBytes 0x20_0060
    (leBytes 8 0x20_0000 ++ leBytes 8 0x80_0000 ++ leBytes 8 0 ++ leBytes 2 1 ++ [2#8])
def ops (k : Nat) : State := wti.updR fun r => { r with s := [(8, BitVec.ofNat 32 (0x20_0040 + 32 * k))] }
def op0 : TrOp := ⟨0x20_0000, 0, 0x7000, 1, 0, false, 0⟩
def op1 : TrOp := ⟨0x20_0000, 0x80_0000, 0, 1, 2, false, 0⟩
/-- The page's leaf. -/
def e0 : Dword := 0x20_001F#64
/-- The operation's descriptor is read, its leaf found and nothing changed. -/
def opOk (mig : Bool) (op : TrOp) (x : Nat × Nat × Dword) (s : State) : Bool := match trOpM (.s 8) mig s with
  | .ok (o, s1) => decide (o = op) && quietB s1 && match leafM op s1, leafM op (released .dev s1) with
    | .ok (y, s2), .ok (z, s3) => decide (y = some x ∧ z = some x ∧ s2 = s1 ∧ s3 = released .dev s1)
    | _, _ => false
  | .error _ => false
/-- SPLINTER after its first steps, the entry still as it left it, or changed by software; waiting after the swap. -/
def wb0 : State := setStage (.busy op0 true 1 [(0x2008, e0)]) (setBusy [(0x2008, e0)] (ops 0))
def wb1 : State := setStage (.busy op0 true 1 [(0x2008, e0)]) (ops 0)
def wsw : State := setStage (.swept op0 1) (ops 0)
/-- MIGRATE of a page of 64 KiB with and without a staging page; after its first steps; of a page outside the ranges. -/
def op2 (st : Nat) : TrOp := ⟨0x20_0000, 0x80_0000, st, 1, 1, false, 0⟩
def wm2 (st : Nat) : State := (ops 1).setBytes 0x20_0070 (leBytes 8 st ++ leBytes 2 1 ++ [1#8])
def wb2 : State := setStage (.busy op1 false 1 [(0x2008, e0)]) (ops 1)
def op3 : TrOp := ⟨0x40_0000, 0x20_0000, 0, 1, 2, false, 0⟩
def wm3 : State :=
  let s := ((ops 1).setBytes 0x2010 (leBytes 8 0x60_001F)).setBytes 0x20_0060 (leBytes 8 0x40_0000 ++ leBytes 8 0x20_0000)
  { s with parts := { part0 with prange := 0x1_80000000#64 :: List.replicate 7 0#64 } :: s.parts.drop 1 }
def stays (op : TrOp) (level at_ : Nat) (t : State) : Bool :=
  let es := migEntries t op at_
  !migShape op level es || pendingIn t 0 op || heldIn t (physOf t 0 (oldFrame op es)) op.bytes || es.any fun x => Pte.busy x.2
theorem wit_TranslationInstructions_pages : Calm (ops 0) ∧ Quiet .dev (ops 0) ∧ activeMask hd true (ops 0).cur ≠ 0#32 ∧ (ops 0).cur.pl.priv = true
    ∧ (∀ mt ∈ [metaInv [(.imm 1, 1)], metaInv [(.s 8, 2), (.imm 1, 1)], metaInv [(.s 8, 2), (.imm 1, 1), (.imm 4, 1)],
        { uni := true, srcs := [(.s 8, 2)], dsts := [(.q 1, 1)], priv := true, lates := latesRel, opnd := 1 }], Usable (ops 0) mt)
    ∧ asidOk (ops 0) 0 1 = true ∧ asidOk (ops 0) 0 99 = false ∧ outstanding { part := 0 } (leafSize 2) (released .dev (ops 0)) = false
    ∧ outstanding { part := 0, asid := some 1 } (leafSize 2) (released .dev (ops 0)) = false
    ∧ outstanding { part := 0, asid := some 1, span := some (0x20_0000, 0x20_4000) } (leafSize 2) (released .dev (ops 0)) = false
    ∧ (match rereadRanges 0 1 (released .dev (ops 0)) with | .ok _ => true | .error _ => false) = true :=
  ⟨calm_of (by decide +kernel), quiet_of (by decide +kernel) _, by decide +kernel, by decide +kernel,
    usables_of _ (by decide +kernel), by decide +kernel, by decide +kernel, by decide +kernel, by decide +kernel, by decide +kernel, by decide +kernel⟩
theorem wit_TranslationInstructions_split : Calm (ops 0) ∧ (ops 0).cur.c.stage = .start ∧ opOk false op0 (1, 0x2008, e0) (ops 0) = true
    ∧ canSplinter op0 (1, 0x2008, e0) = true ∧ canSplinter op1 (1, 0x2008, e0) = false
    ∧ Calm wb0 ∧ Quiet .dev wb0 ∧ wb0.cur.c.stage = .busy op0 true 1 [(0x2008, e0)]
    ∧ (released .dev wb0).bytes 0x2008 8 = leBytes 8 (e0 ||| busyBit).toNat
    ∧ outstanding (leafGone 0 op0 1) 4096 (splinterSwap op0 1 0x2008 (released .dev wb0)) = false
    ∧ Calm wb1 ∧ Quiet .dev wb1 ∧ wb1.cur.c.stage = .busy op0 true 1 [(0x2008, e0)]
    ∧ (released .dev wb1).bytes 0x2008 8 ≠ leBytes 8 (e0 ||| busyBit).toNat
    ∧ Calm wsw ∧ wsw.cur.c.stage = .swept op0 1 ∧ outstanding (leafGone 0 op0 1) 4096 wsw = false :=
  ⟨calm_of (by decide +kernel), by decide +kernel, by decide +kernel, by decide +kernel, by decide +kernel, calm_of (by decide +kernel),
    quiet_of (by decide +kernel) _, by decide +kernel, by decide +kernel, by decide +kernel, calm_of (by decide +kernel), quiet_of (by decide +kernel) _,
    by decide +kernel, by decide +kernel, calm_of (by decide +kernel), by decide +kernel, by decide +kernel⟩
theorem wit_TranslationInstructions_moves : Calm (ops 1) ∧ (ops 1).cur.c.stage = .start ∧ opOk true op1 (1, 0x2008, e0) (ops 1) = true
    ∧ 1 ≠ sizeLevel op1.size + 1 ∧ stays op1 1 0x2008 (ops 1) = false
    ∧ spanInRanges (ops 1) 0 (oldFrame op1 (migEntries (ops 1) op1 0x2008)) op1.bytes = true
    ∧ opOk true (op2 0x7000) (1, 0x2008, e0) (wm2 0x7000) = true ∧ 1 = sizeLevel (op2 0x7000).size + 1 ∧ canSplinter (op2 0x7000) (1, 0x2008, e0) = true
    ∧ opOk true (op2 0) (1, 0x2008, e0) (wm2 0) = true ∧ canSplinter (op2 0) (1, 0x2008, e0) = false ∧ stays (op2 0) 1 0x2008 (wm2 0) = true
    ∧ opOk true op3 (1, 0x2010, 0x60_001F#64) wm3 = true ∧ stays op3 1 0x2010 wm3 = false
    ∧ spanInRanges wm3 0 (oldFrame op3 (migEntries wm3 op3 0x2010)) op3.bytes = false
    ∧ (match splinterEnd op0 1 [(0x2008, e0)] wb0 with | .ok (_, t) => isOkM (leafM op0 t) | .error _ => false) = true
    ∧ (match sweptM op0 1 wsw with | .ok ((), t) => isOkM (leafM op0 t) | .error _ => false) = true
    ∧ Calm wb2 ∧ wb2.cur.c.stage = .busy op1 false 1 [(0x2008, e0)] ∧ oldInUse op1 [(0x2008, e0)] wb2 = false ∧ wb2.poison = [] :=
  ⟨calm_of (by decide +kernel), by decide +kernel, by decide +kernel, by decide +kernel, by decide +kernel, by decide +kernel, by decide +kernel,
    by decide +kernel, by decide +kernel, by decide +kernel, by decide +kernel, by decide +kernel, by decide +kernel, by decide +kernel,
    by decide +kernel, by decide +kernel, by decide +kernel, calm_of (by decide +kernel), by decide +kernel, by decide +kernel, by decide +kernel⟩

/-- A range over 0x400000 with its map at 0x200100, all FILLED but for the first block. -/
def rng1 : Range := ⟨3, leBytes 8 0x40_0000 ++ leBytes 8 0x40_4000 ++ leBytes 8 0x20_0100 ++ leBytes 8 0 ++ leBytes 3 5
  ++ [1#8, 12#8, 8#8, 0#8, 0#8] ++ leBytes 2 1 ++ List.replicate 22 0#8⟩
def wev (b : Byte) : State :=
  { wm with mem := mem0 ++ [(0x2010, 31#8), (0x2012, 64#8), (0x2017, 64#8), (0x20_0100, b)]
            parts := { part0 with ranges := [(1, [rng1])] } :: wm.parts.drop 1
            cur := { coh0 with r := { coh0.r with s := [(8, 0x40_1000#32)] } } }
theorem wit_TranslationInstructions_ranges : Calm (wev 0xA8#8) ∧ Quiet .dev (wev 0xA8#8)
    ∧ (∀ mt ∈ [{ uni := true, srcs := [(.s 8, 2), (.imm 2, 1), (.imm 1, 1)], dsts := [(.q 1, 1)], priv := true, lates := latesRel, opnd := 1 },
        { uni := true, srcs := [(.imm 2, 1)], dsts := [(.s 12, 2)] }, { uni := true, dsts := [(.q 1, 1)] }], Usable (wev 0xA8#8) mt)
    ∧ canonical 0x40_1000 = true ∧ rangeFor (wev 0xA8#8) 0 1 0x40_1000 = some rng1 ∧ rangeFor (wev 0xA8#8) 0 1 0x20_0000 = none
    ∧ outstanding { part := 0, asid := some 1, span := some (0x40_1000, 0x40_3000) } 4096 (released .dev (wev 0xA8#8)) = false
    ∧ (∀ k, k < 4 → mapBusy (released .dev (wev 0xA8#8)) 0 1 rng1 k = false)
    ∧ (wev 0xA8#8).cur.x.win = none ∧ Opd.ix (.v 4) + 2 ≤ (wev 0xA8#8).cur.r.vregs ∧ (wev 0xA8#8).dlog = [] ∧ (wev 0xA8#8).l1 = []
    ∧ (wev 0xA8#8).tags = [] ∧ blkState (wev 0xA8#8) 0 rng1 0 = some 0 ∧ blkState (wev 0xA8#8) 0 rng1 1 = some 2
    ∧ blkState (wev 0x01#8) 0 rng1 0 = some 1 ∧ (mapTr (wev 0xA8#8) 0 rng1 1 .store).isSome = true
    ∧ (let s := { wev 0xA8#8 with tags := [0x40_1000] }
       ∃ x ∈ blockPages s 0 1 rng1 1, ∃ a ∈ s.tags, x.1 ≤ a ∧ a < x.1 + 4096)
    ∧ isDram 0x20_0000 = true ∧ isDram 0x80_0000 = true ∧ 0x2008 + 8 ≤ 0x7000 ∧ (0x20_0000 + 4096 ≤ 0x80_0000) :=
  ⟨calm_of (by decide +kernel), quiet_of (by decide +kernel) _, usables_of _ (by decide +kernel), by decide +kernel⟩
/-- A range table of one entry at 0x201000, for a tenant without ranges yet. -/
def wrr : State := (wm.setBytes 0x20_1000 rng1.desc).setBytes 0x1068 (leBytes 8 0x20_1000 ++ [1#8])
def rereadOk : Bool := match (⟨0, rng1.owner, privOf wrr 0 rng1.owner, 2 ^ 50 + 2 ^ 6 * 1 + rng1.ix, none, none, none⟩ : Agent).write rng1.mapptr
    (List.replicate (ceilDiv rng1.blocks 4) 0#8) wrr with
  | .ok _ => true
  | .error _ => false
theorem wit_TranslationInstructions_table : (wrr.part 0).ranges.get 1 [] = [] ∧ readRanges wrr 0 1 = [{ rng1 with ix := 0 }] ∧ rereadOk = true
    ∧ readRanges wm 0 1 = [] ∧ ceilDiv rng1.blocks 4 = 1 := by decide +kernel

/-! ### Accesses of engines in the mapped page, symbolically -/

/-- The tables, tenant and partition of the mapped state: every address of its page maps to itself. -/
structure Flat (s : State) : Prop where
  tent : (s.part 0).tent = 0x1003#64
  tn : ∃ d, tenant? s 0 1 = some d ∧ tRoot d = 0x2000
  e0 : leNat (s.bytes 0x2000 8) = 0x2001
  e1 : leNat (s.bytes 0x2008 8) = 0x20_001F
  rg : s.inRanges 0 0x2000 = true ∧ s.inRanges 0 0x20_0000 = true
  po : s.poison = []
  ht : (s.part 0).heat.getLsbD 0 = false
  l1 : s.l1 = []
  tg : s.tags = []

def flatB (s : State) : Bool :=
  (s.part 0).tent == 0x1003#64 && (match tenant? s 0 1 with | some d => tRoot d == 0x2000 | none => false) && leNat (s.bytes 0x2000 8) == 0x2001
    && leNat (s.bytes 0x2008 8) == 0x20_001F && s.inRanges 0 0x2000 && s.inRanges 0 0x20_0000 && s.poison.isEmpty
    && !(s.part 0).heat.getLsbD 0 && s.l1.isEmpty && s.tags.isEmpty
theorem flat_of {s : State} (h : flatB s = true) : Flat s := by
  simp only [flatB, Bool.and_eq_true, beq_iff_eq, List.isEmpty_iff, Bool.not_eq_true'] at h
  obtain ⟨⟨⟨⟨⟨⟨⟨⟨⟨tent, tn⟩, e0⟩, e1⟩, r0⟩, r1⟩, po⟩, ht⟩, l1⟩, tg⟩ := h
  refine ⟨tent, ?_, e0, e1, ⟨r0, r1⟩, po, ht, l1, tg⟩
  split at tn
  · exact ⟨_, ‹_›, by simpa using tn⟩
  · cases tn

theorem phys_low (s : State) (p : Nat) {a : Nat} (h : a < 0x30_0000_0000) : physOf s p a = a := by
  have : isDram a = true := by simp [isDram, isHbm]; omega
  simp [physOf, locate, this]

theorem bytes_same {s t : State} (hm : t.mem = s.mem) (hl : t.lazies = []) (hs : s.lazies = []) (a n : Nat) : t.bytes a n = s.bytes a n := by
  rw [bytes_eq_map, bytes_eq_map]
  exact List.map_congr_left fun k _ => by simp only [State.byte, hl, hs, hm, List.find?_nil]
theorem tenant_same {s t : State} (hm : t.mem = s.mem) (hl : t.lazies = []) (hs : s.lazies = []) (hp : t.parts = s.parts)
    (ht : (s.part 0).tent = 0x1003#64) : tenant? t 0 1 = tenant? s 0 1 := by
  have h0 : t.part 0 = s.part 0 := by simp only [State.part, hp]
  have e : ((0x1003#64).extractLsb' 12 40).toNat * 4096 + 64 * 1 = 0x1040 := by decide
  have hb : tenantBytes t 0 1 = tenantBytes s 0 1 := by
    simp only [tenantBytes, h0, ht, e, phys_low _ 0 (show 0x1040 < 0x30_0000_0000 by decide)]
    exact bytes_same hm hl hs _ _
  have hr : t.inRanges 0 = s.inRanges 0 := by funext a; simp only [State.inRanges, h0]
  simp only [tenant?, hb, h0, hr]
/-- A state with the same memory and partitions is flat too. -/
theorem flat_like {s t : State} (f : Flat s) (hs : s.lazies = []) (hm : t.mem = s.mem) (hl : t.lazies = []) (hp : t.parts = s.parts)
    (po : t.poison = []) (l1 : t.l1 = []) (tg : t.tags = []) : Flat t := by
  have h0 : t.part 0 = s.part 0 := by simp only [State.part, hp]
  have hr : ∀ a, t.inRanges 0 a = s.inRanges 0 a := fun a => by simp only [State.inRanges, h0]
  obtain ⟨d, hd, hq⟩ := f.tn
  exact ⟨by rw [h0]; exact f.tent, ⟨d, by rw [tenant_same hm hl hs hp f.tent]; exact hd, hq⟩, by rw [bytes_same hm hl hs]; exact f.e0,
    by rw [bytes_same hm hl hs]; exact f.e1, by rw [hr, hr]; exact f.rg, po, by rw [h0]; exact f.ht, l1, tg⟩

theorem flat_walk {s : State} (h : Flat s) {va : Nat} (lo : 0x20_0000 ≤ va) (hi : va < 0x40_0000) (pick : Nat) :
    walk s 0 1 pick va = .ok ⟨va, 0x20_001F#64, 1, 0x2008⟩ := by
  obtain ⟨d, hd, hr⟩ := h.tn
  have hc : canonical va = true := by
    simp only [canonical, Bool.or_eq_true, beq_iff_eq]
    omega
  have hv : va % 2 ^ 57 = va := by omega
  have i4 : vaIndex va 4 = 0 := by simp only [vaIndex]; omega
  have i3 : vaIndex va 3 = 0 := by simp only [vaIndex]; omega
  have i2 : vaIndex va 2 = 0 := by simp only [vaIndex]; omega
  have i1 : vaIndex va 1 = 1 := by simp only [vaIndex]; omega
  have f0 : Pte.frame 0x2001#64 = 0x2000 := by decide
  have v0 : Pte.v 0x2001#64 = true := by decide
  have l0 : Pte.leaf 0x2001#64 = false := by decide
  have r0 : Pte.resPtr 0x2001#64 = false := by decide
  have v1 : Pte.v 0x20_001F#64 = true := by decide
  have l1 : Pte.leaf 0x20_001F#64 = true := by decide
  have k1 : leafWk va 1 0x2008 0x20_001F#64 = .ok ⟨va, 0x20_001F#64, 1, 0x2008⟩ := by
    have a : (Pte.resLeaf 0x20_001F#64 || Pte.frame 0x20_001F#64 % leafSize 1 != 0 || !Pte.homeOk 0x20_001F#64) = false := by decide
    have b : Pte.busy 0x20_001F#64 = false := by decide
    have c : Pte.noHeat 0x20_001F#64 = 0x20_001F#64 := by decide
    simp only [leafWk, a, b, c]
    rfl
  have p0 := phys_low s 0 (show 0x2000 < 0x30_0000_0000 by decide)
  have p1 := phys_low s 0 (show 0x2008 < 0x30_0000_0000 by decide)
  simp only [walk, hc, hd, p0, p1, hr, hv, walkFrom, i4, i3, i2, i1, h.e0, h.e1, h.rg.1, h.po, f0, v0, l0, r0, v1, l1, k1, List.contains_nil,
    Bool.not_true, Bool.false_eq_true, if_false, if_true, Nat.mul_zero, Nat.add_zero, Nat.mul_one, Nat.reduceAdd, Nat.reduceLeDiff]

theorem flat_place {s : State} (h : Flat s) {va : Nat} (lo : 0x20_0000 ≤ va) (hi : va < 0x40_0000) (g : Agent) (hp : g.part = 0) (ha : g.asid = 1)
    {acc : Acc} (hacc : acc = .load ∨ acc = .store) (w : Bool) : g.place acc va w s = .ok (.dram va 0, s) := by
  have hv : va % 2 ^ 64 = va := by omega
  have hpa : Tr.pa ⟨va, 0x20_001F#64, 1, 0x2008⟩ = va := by
    have : Pte.frame 0x20_001F#64 / leafSize 1 * leafSize 1 = 0x20_0000 := by decide
    have k : leafSize 1 = 0x20_0000 := by decide
    show Pte.frame 0x20_001F#64 / leafSize 1 * leafSize 1 + va % leafSize 1 = va
    rw [this, k]
    omega
  have hl : ∀ m, locate s 0 va m = .dram va 0 := fun m => by
    have : isDram va = true := by simp [isDram, isHbm]; omega
    have hh : isHbm va = true := by simp [isHbm]; omega
    simp only [locate, this, if_true, dieHome, hh, Loc.dram.injEq, true_and]
    omega
  have hr : pageInRanges s 0 ⟨va, 0x20_001F#64, 1, 0x2008⟩ = true := by
    have a : max 1 (leafSize 1 / 2 ^ 21) = 1 := by decide
    have b : Pte.frame 0x20_001F#64 / leafSize 1 * leafSize 1 = 0x20_0000 := by decide
    simp only [pageInRanges, a, b, List.range_one, List.all_cons, List.all_nil, Nat.zero_mul, Nat.add_zero, h.rg.2, Bool.and_true]
  have p1 : permits 0x20_001F#64 acc = true := by rcases hacc with rfl | rfl <;> decide
  have p2 : Pte.poison 0x20_001F#64 = false := by decide
  have p3 : Pte.proc 0x20_001F#64 = false := by decide
  have hb : (Loc.dram va 0 == Loc.bus) = false := by rfl
  have hq : (acc == Acc.query) = false := by rcases hacc with rfl | rfl <;> rfl
  have hx : xlate s 0 1 g.priv acc va = .ok ⟨va, 0x20_001F#64, 1, 0x2008⟩ := by
    simp only [xlate, flat_walk h lo hi, checkTr, hpa, hl, hr, p1, p2, p3, hb, hq]
    rfl
  simp only [Agent.place, hv, hp, ha, hx, Tr.loc, hpa, hl, heatFor, h.ht, askAt, p3]
  cases w <;> rfl

theorem mapL_ok {α β : Type} {f : α → AM β} {f' : α → β} {s : State} : ∀ l : List α, (∀ x ∈ l, f x s = .ok (f' x, s)) →
    AM.mapL l f s = .ok (l.map f', s)
  | [], _ => rfl
  | x :: l, h => by
    have a := h x (List.mem_cons_self ..)
    have b := mapL_ok l fun y hy => h y (List.mem_cons_of_mem _ hy)
    simp only [AM.mapL, bind, StateT.bind, Except.bind, a, b, pure, StateT.pure, Except.pure, List.map_cons]

theorem flat_wb {s : State} (h : Flat s) (core line : Nat) : writeBack core line s = s := by
  simp [writeBack, State.l1?, h.l1]

theorem flat_byte {s : State} (h : Flat s) {va : Nat} (lo : 0x20_0000 ≤ va) (hi : va < 0x40_0000) (g : Agent) (hp : g.part = 0) (ha : g.asid = 1) (w : Bool) :
    g.byte .load va w s = .ok (s.byte va, s) := by
  have hpo : s.poisoned va = false := by simp [State.poisoned, h.po]
  simp only [Agent.byte, bind, StateT.bind, Except.bind, flat_place h lo hi g hp ha (.inl rfl) w, get, getThe, MonadStateOf.get, StateT.get, pure,
    Except.pure, StateT.pure, hpo, Bool.false_eq_true, if_false, set, StateT.set]
  cases g.core <;> simp only [flat_wb h]

theorem flat_read {s : State} (h : Flat s) {va n : Nat} (lo : 0x20_0000 ≤ va) (hi : va + n ≤ 0x40_0000) (g : Agent) (hp : g.part = 0) (ha : g.asid = 1) :
    g.read va n .load s = .ok (s.bytes va n, s) := by
  rw [bytes_eq_map]
  exact mapL_ok _ fun k hk => by
    have := List.mem_range.mp hk
    have e : (va + k) % 2 ^ 64 = va + k := by omega
    rw [e]
    exact flat_byte h (by omega) (by omega) g hp ha _

theorem flat_num {s : State} (h : Flat s) {va n : Nat} (lo : 0x20_0000 ≤ va) (hi : va + n ≤ 0x40_0000) (g : Agent) (hp : g.part = 0) (ha : g.asid = 1) :
    g.num va n s = .ok (leNat (s.bytes va n), s) := by
  simp only [Agent.num, bind, StateT.bind, Except.bind, flat_read h lo hi g hp ha, pure, StateT.pure, Except.pure]

/-- Nothing but memory differs, and it lies in the page. -/
def OnlyPage (s t : State) : Prop :=
  (∃ m l p q, t = { s with mem := m, lazies := l, spPoison := p, poison := q }) ∧ (s.poison = [] → t.poison = []) ∧ ∀ a, a < 0x20_0000 → t.byte a = s.byte a

theorem bytes_below {s t : State} (h : OnlyPage s t) : ∀ n a, a + n ≤ 0x20_0000 → t.bytes a n = s.bytes a n
  | 0, _, _ => rfl
  | n + 1, a, hi => by
    show t.byte a :: t.bytes (a + 1) n = s.byte a :: s.bytes (a + 1) n
    rw [h.2.2 a (by omega), bytes_below h n (a + 1) (by omega)]

theorem OnlyPage.flat {s t : State} (h : OnlyPage s t) (f : Flat s) : Flat t := by
  have b := fun n a hi => bytes_below h n a hi
  obtain ⟨⟨m, l, p, q, rfl⟩, hp, -⟩ := h
  obtain ⟨tent, ⟨d, hd, hr⟩, e0, e1, rg, po, ht, l1, tg⟩ := f
  refine ⟨tent, ⟨d, ?_, hr⟩, by rw [b _ _ (by decide)]; exact e0, by rw [b _ _ (by decide)]; exact e1, rg, hp po, ht, l1, tg⟩
  have ht : tenantBytes { s with mem := m, lazies := l, spPoison := p, poison := q } 0 1 = tenantBytes s 0 1 := by
    have tent' : (State.part { s with mem := m, lazies := l, spPoison := p, poison := q } 0).tent = 0x1003#64 := tent
    have e : ((0x1003#64).extractLsb' 12 40).toNat * 4096 + 64 * 1 = 0x1040 := by decide
    simp only [tenantBytes, tent, tent', e, phys_low _ 0 (show 0x1040 < 0x30_0000_0000 by decide)]
    exact b 64 _ (by decide)
  simp only [tenant?, ht] at hd ⊢
  exact hd

theorem OnlyPage.refl (s : State) : OnlyPage s s := ⟨⟨s.mem, s.lazies, s.spPoison, s.poison, rfl⟩, id, fun _ _ => rfl⟩
theorem OnlyPage.trans {s t u : State} (h : OnlyPage s t) (k : OnlyPage t u) : OnlyPage s u := by
  obtain ⟨⟨m, l, p, q, rfl⟩, h1, h2⟩ := h
  obtain ⟨⟨m', l', p', q', rfl⟩, k1, k2⟩ := k
  exact ⟨⟨m', l', p', q', rfl⟩, k1 ∘ h1, fun a ha => (k2 a ha).trans (h2 a ha)⟩

theorem putBytes_page (va : Nat) (lo : 0x20_0000 ≤ va) (f : State → Loc × Byte → State)
    (hf : ∀ s k b, s.l1 = [] → f s (Loc.dram (va + k) 0, b) = s.setBytes (va + k) [b]) : ∀ (l : List (Loc × Byte)) (s : State), s.l1 = [] →
    (∀ e ∈ l, ∃ k, e.1 = Loc.dram (va + k) 0) → OnlyPage s (l.foldl f s)
  | [], s, _, _ => .refl s
  | (x, b) :: l, s, h1, h => by
    obtain ⟨k, hk⟩ : ∃ k, x = Loc.dram (va + k) 0 := h _ (List.mem_cons_self ..)
    have one : OnlyPage s (s.setBytes (va + k) [b]) :=
      ⟨⟨_, _, _, _, rfl⟩, fun hp => by simp [hp], fun a ha => byte_setBytes_out s [b] (.inl (by omega))⟩
    have e : f s (x, b) = s.setBytes (va + k) [b] := hk ▸ hf s k b h1
    rw [List.foldl_cons, e]
    exact one.trans (putBytes_page va lo f hf l (s.setBytes (va + k) [b]) h1 fun e he => h e (List.mem_cons_of_mem _ he))

/-- Bytes written one after another, as an agent on a core or on none writes them. -/
def putAll (core : Option Nat) (s : State) (e : Loc × Byte) : State :=
  let s := putByte e.1 e.2 s
  match core, e.1 with
  | some c, .dram pa _ => pokeL1 c pa [e.2] false s
  | _, _ => s
theorem putAll_dram (core : Option Nat) (va : Nat) (s : State) (k : Nat) (b : Byte) (h : s.l1 = []) :
    putAll core s (Loc.dram (va + k) 0, b) = s.setBytes (va + k) [b] := by
  cases core with
  | none => rfl
  | some c =>
    simp [putAll, putByte, pokeL1, State.l1?, h]

theorem flat_write {s : State} (h : Flat s) {va : Nat} {bs : List Byte} (lo : 0x20_0000 ≤ va) (hi : va + bs.length ≤ 0x40_0000) (g : Agent)
    (hp : g.part = 0) (ha : g.asid = 1) : ∃ t, g.write va bs s = .ok ((), t) ∧ OnlyPage s t := by
  have hm : AM.mapL (List.range bs.length) (fun k => g.place .store ((va + k) % 2 ^ 64) (k == 0 || (va + k) % 4096 == 0)) s
      = .ok ((List.range bs.length).map (fun k => Loc.dram (va + k) 0), s) := mapL_ok _ fun k hk => by
    have := List.mem_range.mp hk
    have e : (va + k) % 2 ^ 64 = va + k := by omega
    rw [e]
    exact flat_place h (by omega) (by omega) g hp ha (.inr rfl) _
  have hlive : ∀ a, s.live a = false := fun a => by simp [State.live, h.tg]
  have hpo : ∀ a, s.poisoned a = false := fun a => by simp [State.poisoned, h.po]
  have hf : ∀ f : Loc → Bool, (∀ a, f (.dram a 0) = false) → ((List.range bs.length).map fun k => Loc.dram (va + k) 0).findIdx? f = none := fun f hf => by
    rw [List.findIdx?_eq_none_iff]
    intro x hx
    obtain ⟨k, -, rfl⟩ := List.mem_map.mp hx
    exact hf _
  have hn : ∀ (f : Nat × Nat → Bool) (l : List (Nat × Nat)), (∀ a, f a = false) → l.find? f = none := fun f l hf => List.find?_eq_none.mpr fun x _ => by simp [hf]
  have hw : ∀ (c : Nat) (l : List Nat), l.foldl (fun s l => writeBack c l s) s = s := fun c l => by
    induction l with
    | nil => rfl
    | cons x l ih => simp [flat_wb h, ih]
  have pg := putBytes_page va lo (putAll g.core) (putAll_dram g.core va) (((List.range bs.length).map fun k => Loc.dram (va + k) 0).zip bs) s h.l1 fun e he => by
    obtain ⟨k, -, hk⟩ := List.mem_map.mp (List.of_mem_zip he).1
    exact ⟨k, hk.symm⟩
  refine ⟨{ (((List.range bs.length).map fun k => Loc.dram (va + k) 0).zip bs).foldl (putAll g.core) s with poison := [] }, ?_,
    pg.trans ⟨⟨_, _, _, _, rfl⟩, fun _ => rfl, fun _ _ => rfl⟩⟩
  simp only [Agent.write, bind, StateT.bind, Except.bind, hm, get, getThe, MonadStateOf.get, StateT.get, pure, Except.pure, hpo]
  rw [hf _ fun a => hlive a]
  simp only [Bool.false_and]
  rw [hn _ _ fun a => rfl]
  obtain ⟨_, _, _, _, core, _, _⟩ := g
  rcases core with _ | c <;> simp only [hw, set, StateT.set, pure, Except.pure]
  · have e := pg.2.1 h.po
    rw [show (fun (s : State) (x : Loc × Byte) => putByte x.1 x.2 s) = putAll none from rfl]
    simp only [e, List.filter_nil]
  · have e := pg.2.1 h.po
    refine congrArg (fun X : State => Except.ok (PUnit.unit, X)) ?_
    show ({ (List.foldl (putAll (some c)) s _) with poison := List.filter _ (List.foldl (putAll (some c)) s _).poison } : State) = _
    rw [e]
    rfl

/-- Several writes one after another. -/
theorem flat_each (g : Agent) (hp : g.part = 0) (ha : g.asid = 1) : ∀ (l : List (Nat × List Byte)) (s : State), Flat s →
    (∀ e ∈ l, 0x20_0000 ≤ e.1 ∧ e.1 + e.2.length ≤ 0x40_0000) → ∃ t, (AM.each l fun e => g.write e.1 e.2) s = .ok ((), t) ∧ OnlyPage s t
  | [], s, _, _ => ⟨s, rfl, .refl s⟩
  | e :: l, s, h, hl => by
    have ⟨lo, hi⟩ := hl e (List.mem_cons_self ..)
    obtain ⟨t, ht, pg⟩ := flat_write h lo hi g hp ha
    obtain ⟨u, hu, pg'⟩ := flat_each g hp ha l t (pg.flat h) fun x hx => hl x (List.mem_cons_of_mem _ hx)
    exact ⟨u, by simp only [AM.each, bind, StateT.bind, Except.bind, ht, hu], pg.trans pg'⟩

/-- Records at 0x200000, and a log of one store whose page is mapped, or missing at 0x600000. -/
def formB : Bool := match formM .zr wm with
  | .ok ((g, r), s1) => g.part == 0 && g.asid == 1 && r.length == 256 && flatB s1 && decide (s1.cur.c = wm.cur.c)
  | .error _ => false
/-- The present record of the cohort is made, and its place can be read and written. -/
theorem form_ok : ∃ g r s1, formM .zr wm = .ok ((g, r), s1) ∧ s1.cur.c = wm.cur.c
    ∧ (∃ old s2, g.read 0x20_0000 256 .load s1 = .ok (old, s2) ∧ s2.cur.c = wm.cur.c)
    ∧ ∃ s2, g.write 0x20_0000 r s1 = .ok ((), s2) ∧ s2.cur.c = wm.cur.c := by
  have h : formB = true := by decide +kernel
  unfold formB at h
  split at h
  · rename_i g r s1 e
    simp only [Bool.and_eq_true, beq_iff_eq, decide_eq_true_eq] at h
    obtain ⟨⟨⟨⟨hp, ha⟩, hl⟩, f⟩, hc⟩ := h
    have f := flat_of f
    have rd := flat_read f (va := 0x20_0000) (n := 256) (by decide) (by decide) g hp ha
    obtain ⟨t, wr, ⟨m, l, p, q, rfl⟩, -⟩ := flat_write f (va := 0x20_0000) (bs := r) (by decide) (by rw [hl]; decide) g hp ha
    exact ⟨g, r, s1, e, hc, ⟨_, _, rd, hc⟩, _, wr, hc⟩
  · cases h
def dent (va : Nat) : Dent := ⟨9, 3, none, 0, 1, va, 7#128, 4, none, .u32, .coh, .rlx, pc0, 1#32, 0, 0#32, 224, 0, false, 0, 0⟩
def wlog (va since : Nat) : State :=
  { wm with mem := mem0 ++ [(0x2017, 32#8)], dlog := [dent va], m := { wm.m with time := since } }
def logWalk (va : Nat) : Option Bool := match xlate (wlog va 0) 0 1 true .store va with
  | .ok t => some (!Pte.proc t.pte && peekAt (wlog va 0) 0 1 none t == .go)
  | .bad 4 _ => some false
  | _ => none
def logStore : Bool := match xlate (wlog 0x20_0000 0) 0 1 true .store 0x20_0000 with
  | .ok t =>
    let s0 := heatFor 0 .store t.at_ (wlog 0x20_0000 0)
    let loc := t.loc s0 0
    match storeAt loc 0x20_0000 (leBytes 4 7) .coh .dflt 1#32 (.store 3 (some 0) (((List.range 4).map (0x20_0000 + ·)).zip (leBytes 4 7)) pc0) s0 with
    | (.val [], s1) => decide (loc = .dram 0x20_0000 0 ∧ s1.cur = (wlog 0x20_0000 0).cur ∧ s1.dlog = (wlog 0x20_0000 0).dlog)
    | _ => false
  | _ => false
theorem wit_ProvenanceTimeAndLog : Calm wm ∧ Drained wm ∧ activeMask hd true wm.cur ≠ 0#32
    ∧ (∀ mt ∈ [{ uni := true, srcs := [(.lit 0x20_0000, 2), (.zr, 2)], dsts := [(.s 12, 1)], opnd := 1 }, { uni := true, dsts := [(.s 12, 4)] },
        { uni := true, srcs := [(.s 8, 2)], priv := true, opnd := 1 }], Usable wm mt)
    ∧ (src64 wm none (.imm 3)).toNat % 64 ≠ 0 ∧ (∃ g r s1, formM .zr wm = .ok ((g, r), s1) ∧ s1.cur.c = wm.cur.c
      ∧ (∃ old s2, g.read 0x20_0000 256 .load s1 = .ok (old, s2) ∧ s2.cur.c = wm.cur.c)
      ∧ ∃ s2, g.write 0x20_0000 r s1 = .ok ((), s2) ∧ s2.cur.c = wm.cur.c)
    ∧ wm.dlog = [] ∧ wm.m.ever = false ∧ (src64 w0 none (.s 40)).toInt = 0
    ∧ Calm (wlog 0x20_0000 0) ∧ (wlog 0x20_0000 0).dlog = [dent 0x20_0000] ∧ (wlog 0x20_0000 0).cur.pl.id = (dent 0x20_0000).cohort
    ∧ logWalk 0x20_0000 = some true ∧ logWalk 0x40_0000 = some false ∧ logStore = true ∧ (wlog 0x40_0000 0).cur.c.ending = none
    ∧ max 1 (((wlog 0x40_0000 (10 ^ 9)).part 0).fltCtl.extractLsb' 16 16).toNat * 1000000 ≤ 10 ^ 9 - (dent 0x40_0000).since
    ∧ ¬ max 1 (((wlog 0x40_0000 0).part 0).fltCtl.extractLsb' 16 16).toNat * 1000000 ≤ 0 - (dent 0x40_0000).since
    ∧ nth [1#8] 0 0#8 ≠ nth [2#8] 0 0#8 :=
  ⟨calm_wm, drained_wm, by decide, usables_of _ (by decide), by decide +kernel, form_ok, rfl, by decide +kernel, by decide +kernel, calm_of rfl, rfl,
    rfl, by decide +kernel⟩

/-! ### The host, other modules, queues, launches -/

/-- The mapped state with HOST set for its tenant; with its page BUSY. -/
def wh : State := { wm.setBytes 0x1057 [2#8] with parts := { part0 with cfg := 0x10001#64 } :: wm.parts.drop 1 }
def whb : State := wh.setBytes 0x2008 [63#8]
def agentH : Agent := ⟨0, 1, false, 2 ^ 52, none, none, none⟩
def agentIs (s : State) : Bool := match hostAgent s 0x20_0000 with
  | some ⟨0, 1, false, k, none, none, none⟩ => k == 2 ^ 52
  | _ => false
def isBad {α : Type} (x : Except Wk α) : Bool := match x with | .error (.bad _ _) => true | _ => false
def isBusy {α : Type} (x : Except Wk α) : Bool := match x with | .error .busy => true | _ => false
def hostReads (s : State) (va : Nat) : Bool := match hostByte s agentH .load va with
  | .ok (_, pa, t) => decide (pa = va) && !Pte.proc t.pte && isDram pa && !s.poisoned pa
  | .error _ => false
def goOk (x : Ask × State) : Bool := match x.1 with | .go => true | _ => false
/-- Two writes of the host, the first with pieces for two dies; a third that is a doorbell. -/
def hop1 : HopW := ⟨1, 0, 1, [(0, [(0x20_0000, 0x20_0000, 1#8), (0x20_0001, 0x20_0001, 2#8)]), (4, [(0x3, 0x20_0002, 3#8)])], none⟩
def bellW (tail : Byte) : HopW := ⟨1, 0, 0, [(8, (List.range 8).map fun k => (0x80_0000 + k, 0x80_0000 + k, if k == 0 then tail else 0#8))], none⟩
/-- Queue 0, whose descriptor lies at 0x200400 and its ring of 16 entries at 0x200800. -/
def qbase : Nat := 0x20_0800
def wq (ring : List Byte) : State :=
  { (wh.setBytes 0x20_0400 (leBytes 8 qbase ++ [4#8, 1#8, 3#8, 2#8, 1#8])).setBytes qbase ring with m := { wh.m with qdt := 0x20_0400#64 } }
def bell (tail : Byte) (st : Byte) : State := { wq (leBytes 8 0 ++ [st]) with hop := [bellW tail] }
def qd0 : QDesc := queueDesc (wq []) 0
def headIs (s : State) (st : Nat) : Bool := match ringHead (queueAgent s qd0 0) qd0 s with
  | .ok ((h, t, x), s1) => decide (h = 0 ∧ t = 0 ∧ x = st ∧ s1 = s)
  | .error _ => false
def putIs (s : State) (at_ : Nat) (bs : List Byte) : Bool := match (queueAgent s qd0 0).write at_ bs s with
  | .ok (_, s1) => decide (s1.hop = s.hop ∧ s1.m = s.m)
  | .error _ => false
theorem wit_HostWritesReadsAndDoorbells : (∀ w l, wh.hop = w :: l → HopW.acked w = false)
    ∧ (hostAgent wm 0x20_0000).isNone = true ∧ (wh.part 1).cfg.getLsbD 0 = false ∧ (wh.part 0).heat.getLsbD 0 = false ∧ (whb.part 0).heat.getLsbD 0 = false ∧ agentIs wh = true ∧ agentIs whb = true
    ∧ hostVa 0x20_0000 = 0x20_0000 ∧ isBad (hostBytes wh agentH 0x60_0000 [1#8]) = true ∧ isBusy (hostBytes whb agentH 0x20_0000 [1#8]) = true
    ∧ (match hostBytes wh agentH 0x20_0000 [1#8, 2#8] with | .ok l => decide (piecesOf l ≠ []) | _ => false) = true
    ∧ hop1.pieces.find? (fun p => p.1 == 0) = some (0, [(0x20_0000, 0x20_0000, 1#8), (0x20_0001, 0x20_0001, 2#8)])
    ∧ wh.refused = [] ∧ wh.poison = [] ∧ isDram 0x20_0001 = true ∧ wh.live 0x20_0000 = false ∧ wh.live 0x20_0001 = false
    ∧ (let s := { wh with hop := [hop1] }
       let ps := [(0x20_0000, 0x20_0000, 1#8), (0x20_0001, 0x20_0001, 2#8)]
       goOk (askPiece 0 1 ps s) = true ∧ decide ((askPiece 0 1 ps s).2 = s) = true ∧ pieceAt s (pieceKey 1 0) (ps.map fun e => (e.1, e.2.2)) = .go ∧ (ps.map (·.1)).Nodup)
    ∧ (bellW 3#8).pieces.find? (fun p => p.1 == 8) ≠ none ∧ qd0.wf = true ∧ qd0.prod = false ∧ (queueDesc wh 0).wf = false ∧ (0x80_0004 : Nat) % 8 ≠ 0
    ∧ headIs (bell 3#8 0#8) 0 = true ∧ headIs (bell 3#8 1#8) 1 = true ∧ leNat [3#8, 0#8, 0#8, 0#8, 0#8, 0#8, 0#8, 0#8] = 3 ∧ 3 ≤ 2 ^ qd0.log
    ∧ putIs (bell 3#8 0#8) (qd0.base + 4) (leBytes 4 3) = true ∧ 2 ^ qd0.log < 17 ∧ putIs (bell 17#8 0#8) (qd0.base + 8) [1#8, 1#8] = true
    ∧ { wh with hop := [hop1] }.hop ≠ [] ∧ wh.hop = [] ∧ wh.reads = [] ∧ hop1.raw = none ∧ (0x20_0000 : Nat) < 2 ^ 61 ∧ hostReads wh 0x20_0000 = true ∧ hostReads wh 0x20_0001 = true :=
  ⟨(fun _ _ h => nomatch h), by decide +kernel⟩
/-- A write that waits at a BUSY page, and the same once the page has come; a read that has waited for every earlier write. -/
def rawW : HopW := ⟨1, 0, 1, [], some (0x20_0000, [1#8])⟩
theorem wit_HostWritesReadsAndDoorbells_waits : { whb with hop := [rawW] }.hop = [rawW] ∧ rawW.raw = some (0x20_0000, [1#8])
    ∧ agentIs { whb with hop := [rawW] } = true ∧ isBusy (hostBytes { whb with hop := [rawW] } agentH (hostVa 0x20_0000) [1#8]) = true
    ∧ (match hostBytes { wh with hop := [rawW] } agentH (hostVa 0x20_0000) [1#8] with | .ok _ => true | .error _ => false) = true
    ∧ (let s := { wh with reads := [⟨0, 0x20_0000, 2, [1]⟩] }
       agentIs s = true ∧ hostReads s 0x20_0000 = true ∧ hostReads s 0x20_0001 = true ∧ ∀ x ∈ s.hop, x.seq ∉ [1]) := by decide +kernel

/-- The state of a round that is open, with an update of it held. -/
def wz : State := { wm with launches := [launch0] }
def zkey (round seq : Nat) : RemoteKey := ⟨9, round, 5, seq⟩
theorem wit_ZwiovRequestsAndDeviceTime : zRefuse wm 0x20_0000 64 = none ∧ wm.poison = [] ∧ isDram 0x10_0000_0000_0000 = false
    ∧ (let s := { w0 with parts := { part0 with cfg := 3#64 } :: w0.parts.drop 1 }
       isDram 0x20_0000 = true ∧ (s.part (partAt s 0x20_0000)).cfg.getLsbD 1 = true)
    ∧ (∀ k, k < 4 → wm.live (0x20_0000 + k) = false)
    ∧ (let s := { wm with tags := [0x20_0000] }
       zRefuse s 0x20_0000 1 = none ∧ s.live 0x20_0000 = true)
    ∧ zRefuse wz 0x20_0000 (Ty.bytes .u32) = none ∧ zRefuse wz 0x20_0000 (Ty.bytes .b128) = none ∧ wz.launch? 9 = some launch0 ∧ launch0.closed = 0 ∧ wz.held = []
    ∧ hasLine wz (zHeld wz wz.ids 2 0x20_0000 .fadd .f32 (zkey 0 1) 0#128 false) = true ∧ hasLine wz (zHeld wz wz.ids 2 0x20_0000 .fadd .f32 (zkey 0 1) 0#128 true) = true
    ∧ AtomOp.fadd ≠ AtomOp.xchg ∧ (zkey 0 1).seq ≤ 65535 ∧ 65535 < (zkey 0 65536).seq ∧ (zkey 0 1).round < { launch0 with closed := 1 }.closed
    ∧ ({ wz with launches := [{ launch0 with closed := 1 }] }.launch? 9).isSome = true
    ∧ (let s := { w0 with fabw := [⟨3, 2, pc0, 1#32, 0#32, 0⟩] }
       (s.cohort? 3).isSome = true ∧ s.cur.c.ending = none) := by decide +kernel

/-- Memory of the queue tests: the ring at 0x200800 with one NOP, a launch record at 0x200C00 of two units of one cohort, overlay 5 of
the tenant's catalogue with an entry block 1, the descriptor of queue 0 at 0x208000 (EN, QPRIO 3, WEIGHT 2, ASID 1). -/
def mem1 : List Host.Cell :=
  [(0x1040, 1#8), (0x1041, 32#8), (0x1049, 0x40#8), (0x104A, 0x20#8), (0x1050, 16#8), (0x1054, 200#8), (0x1057, 2#8)] ++
  [(0x2000, 1#8), (0x2001, 32#8), (0x2008, 31#8), (0x200A, 32#8)] ++ [(0x20_0804, 1#8)] ++
  [(0x20_0C00, 1#8), (0x20_0C02, 2#8), (0x20_0C04, 1#8), (0x20_0C0E, 1#8), (0x20_0C40, 8#8), (0x20_0C42, 5#8), (0x20_0C80, 1#8), (0x20_0C90, 2#8), (0x20_0C94, 1#8), (0x20_0C95, 1#8)] ++
  [(0x20_4141, 0x50#8), (0x20_4142, 0x20#8), (0x20_4148, 5#8), (0x20_414B, 1#8), (0x20_414C, 2#8), (0x20_507E, 8#8)] ++
  [(0x20_8001, 8#8), (0x20_8002, 0x20#8), (0x20_8008, 4#8), (0x20_8009, 1#8), (0x20_800A, 3#8), (0x20_800B, 2#8), (0x20_800C, 1#8)]
def part1 : Part := { part0 with cfg := 0x1_0001_0001#64 }
def wl : State :=
  { wm with mem := mem1, parts := part1 :: wm.parts.drop 1, m := { wm.m with qdt := 0x20_8000#64, ready := 0xFFFF_FFFF_FFFF_FFFF#64 } }

theorem flat_wl : Flat wl :=
  ⟨by decide +kernel, ⟨_, show tenant? wl 0 1 = some (wl.bytes 0x1040 64) by decide +kernel, by decide +kernel⟩, by decide +kernel, by decide +kernel,
    by decide +kernel, rfl, by decide +kernel, rfl, rfl⟩

/-- A byte above all that is listed reads as zero. -/
theorem read_above : ∀ (m : List Host.Cell) (a : Nat), (∀ e ∈ m, e.1 < a) → Memory.read m a = 0#8
  | [], _, _ => rfl
  | e :: m, a, h => by
    have h1 := h e (List.mem_cons_self ..)
    have := read_above m a fun x hx => h x (List.mem_cons_of_mem _ hx)
    have h2 : (a == e.1) = false := by simp; omega
    simp only [Memory.read, h2, this, Bool.false_eq_true, if_false]
theorem bytes_above {s : State} (hl : s.lazies = []) {b : Nat} (h : ∀ e ∈ s.mem, e.1 < b) : ∀ n a, b ≤ a → s.bytes a n = List.replicate n 0#8
  | 0, _, _ => rfl
  | n + 1, a, hb => by
    have h0 : s.byte a = 0#8 := by
      simp only [State.byte, hl, List.find?_nil]
      exact read_above _ _ fun e he => Nat.lt_of_lt_of_le (h e he) hb
    show s.byte a :: s.bytes (a + 1) n = _
    rw [h0, bytes_above hl h n (a + 1) (by omega)]
    rfl

/-- Every queue but queue 0 offers nothing. -/
theorem offer_rest {s : State} (hm : s.mem = mem1) (hl : s.lazies = []) (hq : s.m.qdt = 0x20_8000#64) (p : Nat) {q : Nat} (h : 0 < q) :
    offerOf s p q = .none := by
  have hz : queueDesc s q = QDesc.ofBytes (List.replicate 32 0#8) := by
    have h1 : ∀ e ∈ s.mem, e.1 < 0x20_8020 := by rw [hm]; decide
    have hb : 0x20_8020 ≤ s.m.qdt.toNat + 32 * q := by
      rw [hq]
      show 0x20_8020 ≤ 0x20_8000 + 32 * q
      omega
    rw [queueDesc, bytes_above hl h1 32 _ hb]
  have he : (queueDesc s q).en = false := by rw [hz]; decide
  simp [offerOf, he]

theorem bytes_like {s : State} (hm : s.mem = mem1) (hl : s.lazies = []) (a n : Nat) : s.bytes a n = wl.bytes a n := by
  rw [bytes_eq_map, bytes_eq_map]
  exact List.map_congr_left fun k _ => by simp only [State.byte, hl, hm]; rfl

def qd1 : QDesc := ⟨0x20_0800, 4, true, false, 3, 2, 1, 0, true⟩

/-- Queue 0 offers its NOP. -/
theorem offer_first {s : State} (f : Flat s) (hm : s.mem = mem1) (hl : s.lazies = []) (hq : s.m.qdt = 0x20_8000#64) :
    offerOf s 0 0 = .entry qd1 0 (List.replicate 64 0#8) := by
  have hd : queueDesc s 0 = qd1 := by
    rw [queueDesc, bytes_like hm hl, hq]
    decide +kernel
  have r1 := flat_read f (va := 0x20_0800) (n := 16) (by decide) (by decide) (queueAgent s qd1 0) rfl rfl
  have r2 := flat_read f (va := 0x20_0840) (n := 64) (by decide) (by decide) (queueAgent s qd1 0) rfl rfl
  rw [bytes_like hm hl] at r1 r2
  have b2 : wl.bytes 0x20_0840 64 = List.replicate 64 0#8 := by decide +kernel
  have h0 : fld (wl.bytes 0x20_0800 16) 0 4 = 0 := by decide +kernel
  have h1 : fld (wl.bytes 0x20_0800 16) 4 4 = 1 := by decide +kernel
  have h2 : fld (wl.bytes 0x20_0800 16) 8 1 = 0 := by decide +kernel
  have h3 : (0 != 0 || ringCount 0 1 == 0) = false := by decide
  have h4 : qd1.at_ 0 = 0x20_0840 := by decide
  have h5 : qd1.base = 0x20_0800 := rfl
  have h6 : nbit (fld (List.replicate 64 0#8) 2 1) 1 = false := by decide
  have h7 : (!qd1.en || qd1.part != 0) = false := by decide
  rw [b2] at r2
  simp only [offerOf, hd, h7, ringHead, h5, bind, StateT.bind, Except.bind, r1, pure, StateT.pure, Except.pure, h0, h1, h2, h3, h4, r2, h6,
    Bool.false_eq_true, if_false, Bool.false_and]

theorem tenant_wl : tenant? wl 0 1 = some (wl.bytes 0x1040 64) := by decide +kernel

/-! A launch record is valid where its reads succeed and its checks pass. -/

theorem readDesc_ok {s : State} {g : Agent} {t b : List Byte} {n : Nat} {x : OvDesc} (ht : tenant? s g.part g.asid = some t)
    (h1 : (n == 0 || decide (2 ^ 24 ≤ n) || decide (tCatLen t ≤ n)) = false) (h2 : g.read (tCatBase t + 64 * n) 64 .load s = .ok (b, s))
    (h3 : ovDescOf n b = some x) : readDesc g n s = .ok (some x, s) := by
  unfold readDesc
  rw [ht]
  simp only []
  rw [if_neg (by rw [h1]; decide), h2]
  simp only [h3]
theorem entryBlock_ok {s : State} {g : Agent} {pc : Pc} {x : OvDesc} {w : Nat} (hd : readDesc g pc.ovl s = .ok (some x, s)) (hb : pc.blk < x.nblk)
    (hn : g.num (x.image + 64 * pc.blk + 60) 4 s = .ok (w, s)) (hw : nbit w 19 = true) : entryBlockOk g pc s = .ok (true, s) := by
  simp only [entryBlockOk, bind, StateT.bind, Except.bind, hd]
  rw [if_neg (by omega)]
  simp only [bind, StateT.bind, Except.bind, hn, hw, pure, StateT.pure, Except.pure]
theorem ovNeed_ok {s : State} {g : Agent} {n : Nat} {x : OvDesc} (hd : readDesc g n s = .ok (some x, s)) (ht : x.traph = false) :
    ovNeed g [n] s = .ok (some (granules x.nblk, 0), s) := by
  simp only [ovNeed, bind, StateT.bind, Except.bind, hd, pure, StateT.pure, Except.pure, ht, Bool.false_eq_true, if_false, Nat.zero_add]
theorem checkLaunch_ok {s : State} {g : Agent} {t b : List Byte} {addr a : Nat} {l : List Nat} (ht : tenant? s g.part g.asid = some t) (ha : addr % 64 = 0)
    (hr : g.read addr 256 .load s = .ok (b, s)) (h1 : recordOk addr b (LRec.ofBytes b) = true) (h2 : persistFits s g.part (LRec.ofBytes b) = true)
    (h3 : entryBlockOk g (LRec.ofBytes b).entry s = .ok (true, s))
    (h4 : ((LRec.ofBytes b).entry.ovl :: (LRec.ofBytes b).ovlreq.filter (· != 0)).eraseDups = l) (h5 : ovNeed g l s = .ok (some (a, 0), s))
    (h6 : a ≤ min 184 (isQuota s g.part g.asid)) (h7 : (LRec.ofBytes b).graph = 0) :
    checkLaunch g addr s = .ok (some (LRec.ofBytes b, none), s) := by
  simp only [checkLaunch, bind, StateT.bind, Except.bind, get, getThe, MonadStateOf.get, StateT.get, pure, Except.pure, ht, ha,
    Option.isNone_some, bne_self_eq_false, Bool.or_self, Bool.false_eq_true, if_false, hr, h1, h2, h3, h4, h5, h7, Bool.not_true, h6, decide_true,
    Nat.zero_le, Bool.and_self, beq_self_eq_true, if_true, StateT.pure]

theorem tenant_like {s : State} (hm : s.mem = mem1) (hl : s.lazies = []) (hp : s.parts = wl.parts) : tenant? s 0 1 = some (wl.bytes 0x1040 64) :=
  (tenant_same (s := wl) hm hl rfl hp flat_wl.tent).trans tenant_wl

/-- The launch record is valid. -/
theorem launch_ok {s : State} (f : Flat s) (hm : s.mem = mem1) (hl : s.lazies = []) (hs : s.parts = wl.parts) (g : Agent) (hp : g.part = 0)
    (ha : g.asid = 1) : ∃ r, checkLaunch g 0x20_0C00 s = .ok (some (r, none), s) := by
  have tn := tenant_like hm hl hs
  have ht : tenant? s g.part g.asid = some (wl.bytes 0x1040 64) := by rw [hp, ha]; exact tn
  have r1 := flat_read f (va := 0x20_0C00) (n := 256) (by decide) (by decide) g hp ha
  have r2 := flat_read f (va := tCatBase (wl.bytes 0x1040 64) + 64 * 5) (n := 64) (by decide +kernel) (by decide +kernel) g hp ha
  have r3 := flat_num f (va := 0x20_5000 + 64 * 1 + 60) (n := 4) (by decide) (by decide) g hp ha
  rw [bytes_like hm hl] at r1 r2 r3
  have d := readDesc_ok (n := 5) ht (by decide +kernel) r2 (x := ⟨0x20_5000, 2, false, false, 0⟩) (by decide +kernel)
  have q3 : (LRec.ofBytes (wl.bytes 0x20_0C00 256)).entry = Pc.mk 5 1 0 := by decide +kernel
  have q4 : (LRec.ofBytes (wl.bytes 0x20_0C00 256)).lcores = 0 := by decide +kernel
  have q5 : isQuota s g.part g.asid = 200 := by
    have : tIsQuota (wl.bytes 0x1040 64) = 200 := by decide +kernel
    rw [hp, ha]; simp only [isQuota, tn, this]
  have a1 : (Pc.mk 5 1 0).ovl = 5 := by decide
  have a2 : (Pc.mk 5 1 0).blk = 1 := by decide
  refine ⟨_, checkLaunch_ok (l := [5]) (a := 1) ht (by decide) r1 (by decide +kernel) ?_ ?_ (by decide +kernel) (ovNeed_ok d rfl) ?_ (by decide +kernel)⟩
  · simp [persistFits, q4]
  · rw [q3]
    exact entryBlock_ok (x := ⟨0x20_5000, 2, false, false, 0⟩) (by rw [a1]; exact d) (by rw [a2]; decide) (by rw [a2]; exact r3) (by decide +kernel)
  · rw [q5]; decide

/-- The choice of the arbiter where only queue 0 offers an entry. -/
theorem only_first {s : State} (f : Flat s) (hm : s.mem = mem1) (hl : s.lazies = []) (hq : s.m.qdt = 0x20_8000#64) :
    (∀ x y, x < 65536 → offerOf s 0 x ≠ .bad y) ∧ offerOf s 0 0 = .entry qd1 0 (List.replicate 64 0#8)
    ∧ (∀ x dx hx ex, x < 65536 → offerOf s 0 x = .entry dx hx ex → dx.prio ≤ qd1.prio)
    ∧ ∀ x, (x < 65536 ∧ ∃ dx hx ex, offerOf s 0 x = .entry dx hx ex ∧ dx.prio = qd1.prio) → x = 0 := by
  have h0 := offer_first f hm hl hq
  have hr := fun x (h : 0 < x) => offer_rest hm hl hq 0 (q := x) h
  refine ⟨fun x y _ h => ?_, h0, fun x dx hx ex _ h => ?_, fun x ⟨_, dx, hx, ex, h, _⟩ => ?_⟩
  · rcases Nat.eq_zero_or_pos x with rfl | k
    · rw [h0] at h; cases h
    · rw [hr x k] at h; cases h
  · rcases Nat.eq_zero_or_pos x with rfl | k
    · rw [h0] at h; cases h; exact Nat.le_refl _
    · rw [hr x k] at h; cases h
  · rcases Nat.eq_zero_or_pos x with rfl | k
    · rfl
    · rw [hr x k] at h; cases h

def wcredit : State := { wl with parts := { part1 with credits := [(0, 1)] } :: wm.parts.drop 1 }
theorem flat_wcredit : Flat wcredit :=
  ⟨by decide +kernel, ⟨_, show tenant? wcredit 0 1 = some (wl.bytes 0x1040 64) by decide +kernel, by decide +kernel⟩, by decide +kernel, by decide +kernel,
    by decide +kernel, rfl, by decide +kernel, rfl, rfl⟩
def ent (kind : Nat) (arg0 arg1 cpl : Nat) : Entry := ⟨0, 0, 1, 4, kind, true, 6, arg0, arg1, cpl, 50, none, none⟩
theorem agent_wl (e : Entry) (h : e.part = 0 ∧ e.asid = 1) : (entryAgent wl e).part = 0 ∧ (entryAgent wl e).asid = 1 := h
theorem wit_WorkQueues_arbiter : 256 ≤ openLaunches { wl with entries := List.replicate 256 (ent 1 0 0 0) } 0 ∧ (∀ q, offerOf wl 1 q = .none)
    ∧ partRuns wl 0 = true ∧ openLaunches wl 0 < 256 ∧ (wl.part 0).lastQ.get qd1.prio 65535 < 65536 ∧ (wl.part 0).credits.get 0 0 = 0
    ∧ 0 < (wcredit.part 0).credits.get 0 0 ∧ partRuns wcredit 0 = true ∧ (∃ t, (queueAgent wl qd1 0).write qd1.base (leBytes 4 1) wl = .ok ((), t))
    ∧ 3 < fld [4#8, 0#8] 0 2 := by
  refine ⟨by decide +kernel, fun q => ?_, by decide +kernel, by decide +kernel, by decide +kernel, by decide +kernel, by decide +kernel,
    by decide +kernel, ?_, by decide⟩
  · rcases Nat.eq_zero_or_pos q with rfl | h
    · have hd : queueDesc wl 0 = qd1 := by decide +kernel
      simp [offerOf, hd, qd1]
    · exact offer_rest rfl rfl rfl 1 h
  · obtain ⟨t, ht, -⟩ := flat_write flat_wl (va := qd1.base) (bs := leBytes 4 1) (by decide) (by decide) (queueAgent wl qd1 0) rfl rfl
    exact ⟨t, ht⟩

/-- The mapped state with an entry, coded or not. -/
def went (e : Entry) : State := { wl with entries := [e] }
theorem flat_went (e : Entry) : Flat (went e) := flat_like flat_wl rfl rfl rfl rfl rfl rfl rfl
def badWord (k : Nat) : Bool := match (entryAgent (went (ent k 0x60_0000 1 0)) (ent k 0x60_0000 1 0)).num 0x60_0000 8 (went (ent k 0x60_0000 1 0)),
    (entryAgent (went (ent k 0x60_0000 1 0)) (ent k 0x60_0000 1 0)).write 0x60_0000 (leBytes 8 1) (went (ent k 0x60_0000 1 0)) with
  | .error (.bad _ _), .error (.bad _ _) => true
  | _, _ => false
theorem wit_WorkQueues_entries : (∀ k ∈ [0, 1, 2, 3], entry? (went (ent k 0x20_0000 1 0)) 0 4 k = some (ent k 0x20_0000 1 0))
    ∧ (∃ v t, (entryAgent (went (ent 2 0x20_0804 1 0)) (ent 2 0x20_0804 1 0)).num 0x20_0804 8 (went (ent 2 0x20_0804 1 0)) = .ok (v, t) ∧ 1 ≤ v ∧ v < 2)
    ∧ badWord 2 = true ∧ badWord 3 = true
    ∧ (∃ t, (entryAgent (went (ent 3 0x20_0000 1 0)) (ent 3 0x20_0000 1 0)).write 0x20_0000 (leBytes 8 1) (went (ent 3 0x20_0000 1 0)) = .ok ((), t)) := by
  refine ⟨by decide +kernel, ⟨_, _, flat_num (flat_went _) (by decide) (by decide) _ rfl rfl, by decide +kernel⟩, by decide +kernel, by decide +kernel, ?_⟩
  obtain ⟨t, ht, -⟩ := flat_write (flat_went (ent 3 0x20_0000 1 0)) (va := 0x20_0000) (bs := leBytes 8 1) (by decide) (by decide) (entryAgent (went (ent 3 0x20_0000 1 0)) (ent 3 0x20_0000 1 0)) rfl rfl
  exact ⟨t, ht⟩

theorem wit_WorkQueues_launch : (∃ r, checkLaunch (entryAgent (went (ent 1 0x20_0C00 0 0)) (ent 1 0x20_0C00 0 0)) 0x20_0C00 (went (ent 1 0x20_0C00 0 0))
      = .ok (some (r, none), went (ent 1 0x20_0C00 0 0)))
    ∧ ∃ s1, checkLaunch (entryAgent (went (ent 1 0x20_0C04 0 0)) (ent 1 0x20_0C04 0 0)) 0x20_0C04 (went (ent 1 0x20_0C04 0 0)) = .ok (none, s1) := by
  refine ⟨launch_ok (flat_went _) rfl rfl rfl _ rfl rfl, went (ent 1 0x20_0C04 0 0), ?_⟩
  have h : (decide (((0x20_0C04 : Nat) % 64 != 0) = true)) = true := by decide
  simp only [checkLaunch, bind, StateT.bind, Except.bind, get, getThe, MonadStateOf.get, StateT.get, pure, StateT.pure, Except.pure, Nat.reduceMod,
    Nat.reduceBneDiff, Bool.or_true, if_true]

/-- An entry that is done, and a launch that has nothing left. -/
def wdone (code : Option Nat) (cpl : Nat) : State :=
  { wl with entries := [{ ent 1 0 0 cpl with code := code, launch := if code.isSome then none else some 9 }], launches := [{ launch0 with queue := 0, ended := 1, total := 1 }] }
theorem flat_wdone (c : Option Nat) (k : Nat) : Flat (wdone c k) := flat_like flat_wl rfl rfl rfl rfl rfl rfl rfl
theorem wit_WorkQueues_completion : (∀ bs : List Byte, bs.length = 32 → ∀ e : Entry, e.part = 0 ∧ e.asid = 1 → ∃ t,
      (entryAgent (wdone none 0x20_0000) e).write 0x20_0000 bs (wdone none 0x20_0000) = .ok ((), t))
    ∧ ((wdone none 0x20_0000).launch? 9).isSome = true ∧ (∀ l ∈ (wdone none 0x20_0000).launches, launchDone (wdone none 0x20_0000) l = true ∧ l.rc.cpl = 0)
    ∧ ((wdone none 0).entries.find? (fun x => x.queue == 0 && x.idx == 4)).isSome = true
    ∧ (∀ e ∈ (wdone (some 2) 0).entries, e.code = some 2 ∧ e.launch = none ∧ e.cpl = 0)
    ∧ (∃ c ∈ { wdone none 0 with cur := { coh0 with pl := { coh0.pl with launch := some 9 } } }.cohorts, c.pl.launch = some 9) := by
  refine ⟨fun bs hb e he => ?_, by decide +kernel⟩
  obtain ⟨t, ht, -⟩ := flat_write (flat_wdone none 0x20_0000) (va := 0x20_0000) (bs := bs) (by decide) (by rw [hb]; decide) (entryAgent (wdone none 0x20_0000) e) he.1 he.2
  exact ⟨t, ht⟩

/-- A launch of two units of one cohort, whose units wait for die 0, given its record. -/
def rc1 : LRec := { LRec.ofBytes [] with nlev := 2, vregs := 8, modCount := 1, entry := Pc.mk 5 1 0, levels := [⟨1, 0, 0, []⟩, ⟨2, 1, 1, []⟩] }
def lw (r : LRec) (lead : Nat) : Launch := { launch0 with rc := r, leader := lead, waiting := [(0, 0), (1, 0)], total := 2 }
def wp (r : LRec) (lead : Nat) : State :=
  { wl with launches := [lw r lead], slots := [⟨9, 0, .resident, false, 5, 0, 1, 1, 0, 6, false, 0, [], 0, []⟩] }
/-- A persistent launch of one core-bound unit, with its overlay on core 0. -/
def rc2 : LRec := { rc1 with lcores := 1, wgroups := 1, levels := [⟨1, 0, 0, []⟩, ⟨1, 1, 1, []⟩] }
def lw2 : Launch := { lw rc2 0 with waiting := [(0, 0)], total := 1 }
def wp2 : State := { wl with launches := [lw2], slots := [⟨0, 0, .resident, false, 5, 0, 1, 1, 0, 6, false, 0, [], 0, []⟩] }
def placesAt (s : State) (l : Launch) (core : Nat) : Bool :=
  match firstFit spCap l.rc.spad (spUsed s core) with
  | some sp => (layUnit s l core 0 (l.rc.unitAt l.rc.dispLevel 0) sp l.rc.perUnit (freeTiles s (core / 4)) s.cohorts).isSome
  | none => false
theorem wit_UnitsOnTheirWayToCores : (wp rc1 0).launch? 9 = some (lw rc1 0) ∧ (lw rc1 0).halted = false ∧ rc1.graph = 0 ∧ dieOf (wp rc1 0) 0 0 = true
    ∧ moduleIx (wp { rc1 with modBase := 4 } 0) { rc1 with modBase := 4 } = none ∧ moduleIx (wp rc1 0) rc1 = some 0
    ∧ (wp rc1 1).launch? 9 = some (lw rc1 1) ∧ dieOf (wp rc1 1) 0 1 = false
    ∧ startable (wp rc1 0) (lw rc1 0) = true ∧ nextFor (lw rc1 0) 9 = some 0 ∧ outranked (wp rc1 0) (lw rc1 0) 9 = false
    ∧ nextFor (lw rc1 0) 300 = some 0 ∧ (placeUnit (lw rc1 0) 0 300 (wp rc1 0)).isNone = true
    ∧ rc1.lcores = 0 ∧ coreOf (wp rc1 0) 0 9 = true ∧ homeOk (lw rc1 0) 9 0 = true ∧ ovFits (wp rc1 0) 9 0 1 (rc1.entry.ovl :: rc1.ovlreq) = true
    ∧ placesAt (wp rc1 0) (lw rc1 0) 9 = true ∧ lw2.waiting.length = lw2.total ∧ (∀ e ∈ lw2.waiting, e.1 < rc2.units) ∧ (tryPlace lw2 0 0 wp2).isSome = true
    ∧ ({ lw2 with total := 3 }).waiting.length ≠ ({ lw2 with total := 3 }).total
    ∧ ((wp rc1 0).cohorts.map fun c => c.pl.id).Nodup ∧ lostUnits (wp rc1 0) { lw rc1 0 with granted := [(0, 0)] } 0 ≠ [] := by decide +kernel

/-- A launch with a save area at 0x300000, its one unit on core 9. -/
def rcs : LRec := { rc1 with save := 0x30_0000, prio := 1 }
def lsv : Launch := { launch0 with rc := rcs, placed := [(0, 9, 1)], total := 2 }
def cohS : Cohort := { coh0 with pl := { coh0.pl with launch := some 9, unit := 0, unitIx := 0, lin := 0 }, r := { coh0.r with vregs := 8 } }
/-- A launch of higher priority that waits for a place, while the partition has no core. -/
def lwt : Launch := { lw { rc1 with prio := 5 } 0 with id := 11, waiting := [(0, 0)] }
def ws0 : State :=
  { wl with cur := cohS, launches := [lsv, lwt], parts := { part1 with cfg := 1#64, preempt := 1#64 } :: wm.parts.drop 1
            m := { wl.m with time := 1000000000 } }
/-- The same once the save has been asked for, the unit's cohort has settled and its core's dirty lines are home. -/
def ws1 : State := settleCohort 3 { ws0 with saving := [SaveReq.unit 9 0 9] }
def ws2 : State := writeBackAll 9 ws1
theorem flat_ws2 : Flat ws2 := flat_of (by decide +kernel)
def agentS : Agent := ⟨0, 1, true, 2 ^ 66 + 9 * 2 ^ 44 + 0, some 9, none, none⟩
theorem frame_writes : ∃ t, (AM.each (frameWrites ws2 lsv 0 9) fun e => agentS.write e.1 e.2) ws2 = .ok ((), t) ∧ OnlyPage ws2 t := by
  refine flat_each agentS rfl rfl _ ws2 flat_ws2 fun e he => ?_
  have h : ((frameWrites ws2 lsv 0 9).all fun e => decide (0x20_0000 ≤ e.1 ∧ e.1 + e.2.length ≤ 0x40_0000)) = true := by decide +kernel
  exact of_decide_eq_true (List.all_eq_true.mp h e he)
/-- The cohort after it has settled. -/
def cohT : Cohort := { cohS with c := { cohS.c with hold := true } }
theorem unit_saved : ∃ t, saveUnit lsv 0 9 { ws0 with saving := [SaveReq.unit 9 0 9] } = .saved t := by
  obtain ⟨t, ht, -⟩ := frame_writes
  have h1 : unitCohorts { ws0 with saving := [SaveReq.unit 9 0 9] } lsv 0 = [cohS] := by decide +kernel
  have h2 : canSave { ws0 with saving := [SaveReq.unit 9 0 9] } cohS = true := by decide +kernel
  have h3 : cohS.pl.id = 3 := by decide
  have h4 : ({ ws0 with saving := [SaveReq.unit 9 0 9] } : State).passes.filter (fun p => [3].contains p.cohort) = [] := by decide +kernel
  have h5 : settleCohort 3 { ws0 with saving := [SaveReq.unit 9 0 9] } = ws1 := rfl
  have h7 : ((ws1.dlog.any fun d => [3].contains d.cohort) || accessOut ws1 [3]) = false := by decide +kernel
  have h8 : writeBackAll 9 ws1 = ws2 := rfl
  have h9 : (spPoisoned ws2 (spPa 9 cohS.pl.spBase) lsv.rc.spad || backParked ws2 9) = false := by decide +kernel
  have h10 : (⟨lsv.part, lsv.asid, cohS.pl.priv, 2 ^ 66 + lsv.id * 2 ^ 44 + 0, some 9, none, none⟩ : Agent) = agentS := rfl
  simp only [saveUnit, h1, h2, h3, h4, h5, h7, h8, h9, h10, ht, List.isEmpty_cons, List.all_cons, List.all_nil, Bool.and_self, Bool.not_true,
    Bool.or_self, Bool.false_eq_true, if_false, List.map_cons, List.map_nil, List.foldl_nil, List.foldl_cons]
  exact ⟨_, rfl⟩

theorem wit_SavedAndRestoredUnits_save : ws0.launches.filter (fun x => x.id == lsv.id) = [lsv] ∧ (ws0.cohorts.map fun c => c.pl.id).Nodup
    ∧ lsv.rc.save ≠ 0 ∧ lw rc1 0 = { lw rc1 0 with rc := { rc1 with save := 0 } } ∧ ws0.saving = [] ∧ savable ws0 lsv = [(0, 9, 3)] ∧ unitCohorts ws0 lsv 0 = [cohS]
    ∧ unitCohorts { ws0 with cur := { cohS with c := { cohS.c with hm := true } } } lsv 0 = [{ cohS with c := { cohS.c with hm := true } }]
    ∧ (∀ x ∈ [cohS], canSave ws0 x = true) ∧ ws0.passes = [] ∧ ws0.dlog = [] ∧ (∀ x ∈ [cohS], ∀ r ∈ x.c.late, r.cause ≠ 0x24)
    ∧ accessOut ws1 [3] = false ∧ spPoisoned ws2 (spPa 9 cohS.pl.spBase) lsv.rc.spad = false ∧ backParked ws2 9 = false
    ∧ (∃ c ∈ { ws0 with cur := { cohS with x := { cohS.x with gen := some ⟨1, 1, 0, 0, 0, 0, none⟩ } } }.cohorts, c.pl.part = 0 ∧ c.x.gen.isSome = true)
    ∧ ws0.launches.filter (fun x => x.part == 0 && waitedLong ws0 x && !placeable ws0 x) = [lwt] ∧ (ws0.part 0).preempt.getLsbD 0 = true
    ∧ (wl.part 0).preempt.getLsbD 0 = false ∧ saveVictims ws0 lwt = [(lsv, 0, 9, 3)] ∧ ws0.launch? lsv.id = some lsv
    ∧ cohS.r.vregs = rcs.vregs ∧ cohS.c.tsave.length = 4 ∧ (∀ i, i < 32 → cohS.r.rdSeq i ≤ 65535) ∧ cohS.c.dstop < 2 ^ 32 := by decide +kernel
theorem wit_SavedAndRestoredUnits_frame : ws2 = writeBackAll 9 ([cohS].foldl (fun s x => settleCohort x.pl.id s) { ws0 with saving := [SaveReq.unit 9 0 9] })
    ∧ (∃ t, (AM.each (frameWrites ws2 lsv 0 9) fun e => agentS.write e.1 e.2) ws2 = .ok ((), t) ∧ t.cohorts = ws2.cohorts)
    ∧ ∃ t, saveUnit lsv 0 9 { ws0 with saving := [SaveReq.unit 9 0 9] } = .saved t := by
  obtain ⟨t, ht, ⟨m, l, p, q, rfl⟩, -⟩ := frame_writes
  exact ⟨rfl, ⟨_, ht, rfl⟩, unit_saved⟩

/-- A unit of launch 9 that was saved to a frame, which holds the launch's identity. -/
def svd (frame : Nat) : Saved := ⟨77, 9, 0, 0, frame, [⟨0, 3, Ctl.reset, [], [], [], none⟩], 0, []⟩
def wsv (frame : Nat) : State :=
  { wp rc1 0 with saved := [svd frame], mem := mem1 ++ [(0x20_93F0, 9#8)] }
theorem flat_wsv : Flat (wsv 0x20_9000) := flat_of (by decide +kernel)
theorem readFrame_ok {s : State} (f : Flat s) (l : Launch) (x : Saved) (g : Agent) (hp : g.part = 0) (ha : g.asid = 1) (hn : l.rc.together = 1)
    (hs : l.rc.spad = 0) (hc : (x.cohorts.flatMap fun c => c.slots.map fun e => (x.unit * 1 + c.ix, e.1, e.2)) = []) (hb : x.books = [])
    (lo : 0x20_0000 ≤ x.frame) (hi : x.frame + cohortFrame l.rc ≤ 0x40_0000) :
    readFrame l x g s = .ok (([s.bytes x.frame (cohortFrame l.rc)], [], [], [], []), s) := by
  have r1 := flat_read f (va := x.frame) (n := cohortFrame l.rc) lo hi g hp ha
  have r2 : g.read (x.frame + spadAt l.rc) 0 .load s = .ok ([], s) := rfl
  simp only [readFrame, bind, StateT.bind, Except.bind, hn, hs, hc, hb, List.range_one, AM.mapL, r1, r2, pure, StateT.pure, Except.pure,
    List.isEmpty_nil, if_true, Nat.zero_mul, Nat.add_zero]

def badFrame (s : State) (l : Launch) (x : Saved) (g : Agent) : Bool := match readFrame l x g s with
  | .error (.bad _ _) => true
  | _ => false
theorem wit_SavedAndRestoredUnits_restore : (∀ f ∈ [0x20_9000, 0x60_0000], (wsv f).saved.find? (fun y => y.id == (svd f).id) = some (svd f)
      ∧ (wsv f).launch? (svd f).launch = some (lw rc1 0) ∧ dieFits (lw rc1 0) (svd f).die 9 = true ∧ outranked (wsv f) (lw rc1 0) 9 = false)
    ∧ (svd 0).books = [] ∧ (lw rc1 0).halted = false ∧ (wsv 0x20_9000).m.stopped = false ∧ startable (wsv 0x20_9000) (lw rc1 0) = false
    ∧ (placeUnit (lw rc1 0) 0 300 (wsv 0x20_9000)).isNone = true ∧ dieFits (lw rc1 0) 0 300 = true
    ∧ (placeUnit (lw rc1 0) 0 9 (wsv 0x20_9000)).isSome = true ∧ (placeUnit (lw rc1 0) 0 9 (wsv 0x60_0000)).isSome = true
    ∧ badFrame (wsv 0x60_0000) (lw rc1 0) (svd 0x60_0000) ⟨0, 1, false, 2 ^ 66 + 9 * 2 ^ 44, none, none, none⟩ = true
    ∧ (∃ heads, readFrame (lw rc1 0) (svd 0x20_9000) ⟨0, 1, privOf (wsv 0x20_9000) 0 1, 2 ^ 66 + 9 * 2 ^ 44, none, none, none⟩ (wsv 0x20_9000)
        = .ok ((heads, [], [], [], []), wsv 0x20_9000) ∧ frameOk (lw rc1 0) heads [] = true)
    ∧ ((svd 0).cohorts.map fun y => y.ix).Nodup := by
  refine ⟨by decide +kernel, by decide +kernel, by decide +kernel, by decide +kernel, by decide +kernel, by decide +kernel, by decide +kernel, by decide +kernel,
    by decide +kernel, by decide +kernel, ⟨_, readFrame_ok flat_wsv _ _ _ rfl rfl (by decide) (by decide) (by decide) rfl (by decide) (by decide), by decide +kernel⟩, by decide⟩

def prk (id pa : Nat) (r : Req) : Parked := ⟨id, 0, pa, pa, 0#32, 0x41, 0, r, 0, none⟩
def wpk (ps : List Parked) (poison : List Nat) : State := { w0 with parked := ps, poison := poison }
def roomFor (s : State) (part pa : Nat) : Bool :=
  let same := s.parked.filter fun x => sliceOf x.pa == sliceOf pa && x.die == dieHome pa 0
  same.length < 64 && (same.filter fun x => x.part == part).length < 16
def reqs : List Req := [.load 3 20 0 0x7000 .u32 .coh .dflt pc0, .store 3 none [(0x7000, 1#8), (0x7001, 2#8)] pc0, .remote 5 none 4, .other]
def wtmo (time : Nat) (tmo : Dword) : State :=
  { wpk [prk 50 0x7000 (.load 3 20 0 0x7000 .u32 .coh .dflt pc0)] [0x7000] with parts := { w0.part 0 with fltCtl := tmo <<< 32 } :: w0.parts.drop 1, m := { w0.m with time := time } }
def hup (id pa round seq : Nat) (transit : Bool) : Held :=
  ⟨id, 9, 3, round, pa, 0, pa, 4, .fadd, 0, seq, 5#64, none, transit, true, pc0, 0, 1, 1#32, none, none⟩
def whu (l : Launch) (h : Held) (more : List Held) : State := { wm with launches := [l], held := h :: more }
def full16 : List Held := (List.range 16).map fun k => { hup (200 + k) 0x20_0100 0 k false with glane := k }
def lsp : Launch := { launch0 with rc := { launch0.rc with spill := 0x20_0400 } }
/-- The buffer full and a spill region of four records; the same region in a poisoned sector. -/
def wspill : State := { wm with launches := [lsp], held := full16, mem := mem0 ++ [(0x20_0408, 4#8)] }
def spillIs (s : State) : Nat := match spill (hup 60 0x20_0100 0 1 true) lsp s with
  | .ok _ => 1
  | .error .waits => 2
  | _ => 0
theorem wit_ParkedRequestsAndHeldUpdates : roomFor w0 0 0x7010 = true ∧ 0x7000 ∉ w0.poison ∧ w0.parked = [] ∧ (w0.part 0).fltBase = 0#64
    ∧ roomFor (wpk [prk 50 0x7000 .other] []) 0 0x7010 = true ∧ (∃ x ∈ (wpk [prk 50 0x7000 .other] []).parked, x.pa = 0x7000)
    ∧ roomFor (wpk (List.replicate 16 (prk 50 0x7000 .other)) []) 0 0x7010 = false ∧ ((wpk [] []).cohort? 3).isSome = true ∧ w0.cur.c.ending = none
    ∧ (∀ r ∈ reqs, (wpk [prk 50 0x7000 r] []).parked.find? (fun x => x.id == 50) = some (prk 50 0x7000 r)
        ∧ (wpk [prk 50 0x7000 r] []).parked.find? (fun x => x.pa == 0x7000 && x.die == 0) = some (prk 50 0x7000 r)
        ∧ (wpk [prk 50 0x7000 r] []).l1? 9 (0x7000 / 64) = none)
    ∧ (prk 50 0x7000 .other).cause ≠ 0x42 ∧ 0x7000 ∈ (wpk [prk 50 0x7000 .other] [0x7000]).poison ∧ 0x7000 ∉ (wpk [prk 50 0x7000 .other] []).poison
    ∧ (wpk [prk 49 0x7000 .other, prk 50 0x7000 .other] []).parked.find? (fun x => x.pa == 0x7000 && x.die == 0) ≠ some (prk 50 0x7000 .other)
    ∧ ([(0x7000, 1#8), (0x7001, 2#8)].map fun (e : Nat × Byte) => e.1).Nodup
    ∧ zRefuse (wpk [] []) 0x7000 (zCount 4) = none ∧ zPoison (wpk [] []) false 0x7000 (zCount 4) = none
    ∧ (((wtmo 0 0#64).part 0).fltCtl.extractLsb' 32 16).toNat = 0 ∧ (((wtmo 0 3#64).part 0).fltCtl.extractLsb' 32 16).toNat = 3
    ∧ (wtmo 5 3#64).m.time < 0 + 3 * 1000000 ∧ 0 + 3 * 1000000 ≤ (wtmo 3000000 3#64).m.time ∧ 0x7000 % 64 = 0 := by decide +kernel
theorem wit_ParkedRequestsAndHeldUpdates_held : (∀ r ∈ [(0, 1), (0, 65536), (2, 1)],
      (whu launch0 (hup 60 0x20_0100 r.1 r.2 true) []).held.find? (fun x => x.id == 60 && x.transit) = some (hup 60 0x20_0100 r.1 r.2 true))
    ∧ (whu launch0 (hup 60 0x20_0100 0 1 true) []).launch? 9 = some launch0 ∧ launch0.closed ≤ 0 ∧ 0 < { launch0 with closed := 1 }.closed
    ∧ hasLine { whu launch0 (hup 60 0x20_0100 0 1 true) [] with held := [] } (hup 60 0x20_0100 0 1 true) = true
    ∧ hasLine { whu launch0 (hup 60 0x20_0100 0 1 true) full16 with held := full16 } (hup 60 0x20_0100 0 1 true) = false
    ∧ (∀ x ∈ full16, x.transit = false ∧ x.launch = 9 ∧ x.round = 0 ∧ x.pa = 0x20_0100 ∧ x.width = 4)
    ∧ hasLine wspill (hup 60 0x20_0100 0 1 true) = false ∧ spillIs wspill = 1 ∧ spillIs { wspill with poison := [0x20_0400] } = 2 ∧ launch0.rc.spill = 0
    ∧ wspill.l1 = [] ∧ (hup 60 0x20_0100 0 1 true).src = none
    ∧ ((whu launch0 (hup 60 0x20_0100 0 1 true) []).cohort? 3).isSome = true := by decide +kernel

/-- The module at 2,000 MHz with a power limit of 100 W and a margin window of 2 to 5. -/
def wgv (gate : Nat) (mhz therm : Nat) : State :=
  { w0 with m := { w0.m with pwrctl := BitVec.ofNat 64 (100 + gate * 2 ^ 28), gov := mhz, therm := therm, marginctl := 0x5201#64 } }
/-- The same with the refill of every quad at its least. -/
def lowBudgets (n : Nat) : Map Budget := (List.range n).map fun q => (q, ⟨10240, 5⟩)
def wlow (mhz : Nat) : State := { wgv 2 mhz mhz with budgets := lowBudgets 1024 }
def whe (heat : Dword) : State := { wm with parts := { part0 with heat := heat } :: wm.parts.drop 1 }
theorem wit_StartUpPowerHeatAndBeat : 2 ∉ [4] ∧ 3 ∉ [4] ∧ w0.m.startstat.getLsbD 2 = false ∧ w0.m.startstat.getLsbD 3 = false
    ∧ w0.m.startstat.getLsbD 0 = false ∧ { w0.m with startstat := 1#64 }.startstat.getLsbD 0 = true
    ∧ (let c := (wgv 0 2000 2000).m.marginctl
       c.getLsbD 0 = true ∧ (c.extractLsb' 8 4).toNat ≤ 3 ∧ 3 ≤ (c.extractLsb' 12 4).toNat ∧ ¬ 6 ≤ (c.extractLsb' 12 4).toNat)
    ∧ ((wgv 2 2000 2000).m.pwrctl.extractLsb' 0 12).toNat = 100 ∧ ((wgv 2 2000 2000).m.pwrctl.extractLsb' 28 4).toNat = 2
    ∧ ((wgv 0 2000 2000).m.pwrctl.extractLsb' 28 4).toNat = 0 ∧ ((wgv 0 2000 2000).budget 0).refill ≠ 10240 ∧ 1500 < (wlow 2000).m.gov ∧ (wlow 1500).m.gov ≤ 1500
    ∧ (wgv 0 2000 2000).m.gov < w0.m.clkplan ∧ w0.m.clkplan ≤ (wgv 0 3000 3000).m.gov
    ∧ (105 ≤ 106 ∨ (w0.m.hot = true ∧ 100 ≤ 106)) ∧ 1500 < (wgv 0 2000 2000).m.therm ∧ (wgv 0 1500 1500).m.therm ≤ 1500
    ∧ (wgv 0 2000 2000).m.therm < w0.m.clkplan ∧ ¬ (105 ≤ 101 ∨ (w0.m.hot = true ∧ 100 ≤ 101))
    ∧ Pte.busy (BitVec.ofNat 64 (leNat (wm.bytes 0x2008 8))) = false ∧ Pte.v (BitVec.ofNat 64 (leNat (wm.bytes 0x2008 8))) = true
    ∧ Pte.busy (BitVec.ofNat 64 (leNat (whb.bytes 0x2008 8))) = true
    ∧ (wm.part 0).heat.getLsbD 0 = false ∧ ((whe 1#64).part 0).heat.getLsbD 0 = true ∧ walk (whe 1#64) 0 1 0 0x20_0000 = .ok ⟨0x20_0000, 0x20_001F#64, 1, 0x2008⟩
    ∧ (wm.part 0).heat.extractLsb' 32 10 = 0#10 ∧ ((whe 0x1_0000_0000#64).part 0).heat.extractLsb' 32 10 = 1#10 ∧ ((whe 0x1_0000_0000#64).part 0).swept = 0
    ∧ { whe 0x1_0000_0000#64 with m := { wm.m with time := 1000000 } }.m.time = 0 + min 1 1000 * 1000000 ∧ w0.m.time < 1000000
    ∧ ((whe 0x1_0000_0000#64).part 0).heat.getLsbD 1 = false ∧ tenantsOf (whe 0x1_0000_0000#64) 0 = [1] ∧ (tenant? (whe 0x1_0000_0000#64) 0 1).isSome = true := by
  decide +kernel
theorem get_const {α : Type} (x d : α) (q : Nat) : ∀ l : List Nat, q ∈ l → Map.get (l.map fun q => (q, x)) q d = x
  | [], h => by cases h
  | k :: l, h => by
    by_cases e : q = k
    · simp [Map.get, e]
    · have := get_const x d q l (by simpa [e] using h)
      simp only [List.map_cons, Map.get, this]
      simp
theorem wit_StartUpPowerHeatAndBeat_floor (mhz : Nat) : ∀ q, q < 1024 → ((wlow mhz).budget q).refill = 10240 := fun q hq => by
  have k : ∀ n, q < n → ∀ d, (lowBudgets n).get q d = ⟨10240, 5⟩ := fun n h d => get_const _ d q _ (List.mem_range.mpr h)
  have h : (wlow mhz).budgets = lowBudgets 1024 := by simp only [wlow]
  rw [State.budget, h, k 1024 hq]

/-- The cohort in a region that has written V3 lane 0 first. -/
def reg0 (spoiled : Bool) (rolls : Nat) : Idem := ⟨pc0, some ⟨true, pc0, 3#32, false⟩, none, 0, [257], [256 + 5, 3], spoiled, rolls, false⟩
def wrg (i : Option Idem) (hm : Bool) : State := { w0 with cur := { coh0 with c := { coh0.c with idem := i, hm := hm } } }
def line0 (dirty : Dword) : L1Line := ⟨9, 0x8000, List.replicate 64 0#8, 0xFF#64, dirty, 0#4, 0, 0, 0⟩
def pass0 : Pass := ⟨70, 2, 0, 3, none, 0, 9, pc0, 3#32, 5, [], 0, 0#128, 0, 0#128, false, 0, 0, 0, 0, false, []⟩
def wray : State := { w0 with rays := [⟨80, 2, some 3, 1, 20, [], 0, 0#64, 0#32, 0#5, 0, 1, 0, 0#32, pc0, 3#32, none, none, 0⟩] }
theorem wit_MachineErrorsAndContainment : w0.cur.resident = true ∧ w0.cur.c.ending = none ∧ w0.cur.pl.part < w0.parts.length
    ∧ (wrg none true).cur.c.hm = true ∧ (wrg none false).cur.c.idem = none ∧ (wrg none false).cur.c.hm = false
    ∧ (∀ e ∈ [(true, 0), (false, 3), (false, 1)], (wrg (some (reg0 e.1 e.2)) false).cur.c.idem = some (reg0 e.1 e.2))
    ∧ (reg0 true 0).spoiled = true ∧ (reg0 false 3).spoiled = false ∧ 3 ≤ (reg0 false 3).rolls ∧ (reg0 false 1).rolls < 3 ∧ w0.cur.c.barAt = none
    ∧ 0 + 3 ∈ (reg0 false 1).written ∧ 0 + 3 ∉ (reg0 false 1).inputs ∧ 256 + 1 ∈ (reg0 false 1).inputs ∧ 0 + 9 ∉ (reg0 false 1).written
    ∧ { w0 with l1 := [line0 0#64] }.l1? 9 0x8000 = some (line0 0#64) ∧ (line0 0#64).dirty = 0#64
    ∧ (∀ c ∈ { w0 with l1 := [line0 0#64], cur := { coh0 with c := { coh0.c with ending := some 3 } } }.cohorts, c.pl.core ≠ 9 ∨ c.c.ending.isSome = true)
    ∧ { w0 with l1 := [line0 5#64] }.l1? 9 0x8000 = some (line0 5#64) ∧ (w0.part 0).fltBase = 0#64
    ∧ (w0.tile 2 5).rowOk 3 = true ∧ pass0 ∈ { w0 with passes := [pass0] }.passes ∧ (∀ x ∈ { w0 with passes := [pass0] }.passes, x.quad = pass0.quad → x = pass0)
    ∧ (∀ r ∈ wray.rays, r.cohort = some 3 ∧ (∀ y ∈ wray.rays, y.id = r.id → y = r)) ∧ (wray.cohort? 3).isSome = true
    ∧ (w0.cohorts.map fun c => c.pl.id).Nodup ∧ (∀ e ∈ w0.entries, e.part ≠ 0) := by decide +kernel

/-- A stopped module whose agenda names a heartbeat. -/
theorem wit_StoppedModuleStaysStopped : (let s := { w0 with m := { w0.m with stopped := true }, agenda := [.event (.heartbeatTick false)] }
    s.m.stopped = true ∧ s.agenda = [.event (.heartbeatTick false)] ∧ isRestart (.heartbeatTick false) = false ∧ answers (step s) = true) := by decide +kernel

end Sys2Proof.Tests
end

section
/-! SUPPORT. The control registers (R384): what CSRR and CSRW come to, what a write of a register leaves, and the statement on them. -/

namespace Sys2Proof.Machine

/-! ## Operands and modes of CSRR and CSRW -/

/-- The operand is an odd S register. -/
def OddS (o : Opd) : Prop := ∃ r : BitVec 7, o = .s r ∧ r.toNat % 2 = 1

theorem csrTrap_eq (wr : Bool) (n : Nat) (o : Opd) (s : State) [Decidable (OddS o)] :
    csrTrap wr n o s =
      if isAssigned n = false ∨ (wr = true ∧ isRoReg n = true) ∨ (isWideReg n = true ∧ OddS o) then some { cause := Cause.illegal }
      else if (0x800 ≤ n ∧ s.cur.pl.priv = false) ∨ (wr = true ∧ isBarReg n = true) then some { cause := Cause.privilege }
      else none := by
  cases o <;> simp [csrTrap, OddS, or_assoc]

open Classical in
theorem csrTrap_illegal {wr : Bool} {n : Nat} {o : Opd} (s : State)
    (h : isAssigned n = false ∨ (wr = true ∧ isRoReg n = true) ∨ (isWideReg n = true ∧ OddS o)) :
    csrTrap wr n o s = some { cause := Cause.illegal } := by rw [csrTrap_eq, if_pos h]

open Classical in
theorem csrTrap_privilege {wr : Bool} {n : Nat} {o : Opd} {s : State} (ha : isAssigned n = true)
    (hro : wr = true → isRoReg n = false) (hw : ¬ (isWideReg n = true ∧ OddS o))
    (h : (0x800 ≤ n ∧ s.cur.pl.priv = false) ∨ (wr = true ∧ isBarReg n = true)) :
    csrTrap wr n o s = some { cause := Cause.privilege } := by
  rw [csrTrap_eq, if_neg (by rintro (h | ⟨h, h'⟩ | h) <;> simp_all), if_pos h]

open Classical in
/-- A read that nothing forbids. -/
theorem csrTrap_read {n : Nat} {o : Opd} {s : State} (ha : isAssigned n = true) (hw : isWideReg n = true → ¬ OddS o)
    (hp : 0x800 ≤ n → s.cur.pl.priv = true) : csrTrap false n o s = none := by
  rw [csrTrap_eq, if_neg (by simpa [ha] using hw), if_neg (by simpa using hp)]

open Classical in
/-- A write that nothing forbids. -/
theorem csrTrap_write {n : Nat} {o : Opd} {s : State} (ha : isAssigned n = true) (hro : isRoReg n = false)
    (hbar : isBarReg n = false) (hw : isWideReg n = true → ¬ OddS o) (hp : 0x800 ≤ n → s.cur.pl.priv = true) :
    csrTrap true n o s = none := by
  rw [csrTrap_eq, if_neg (by simpa [ha, hro] using hw), if_neg (by simpa [hbar] using hp)]

/-! ## The runner on them -/

/-- A trap that the operands raise at decode, whatever the guard (R48). -/
theorem runI_pre {s : State} {mt : Meta} {h : Hdr} {own : Bool} {body : Mask → M Unit} {t : Trap} (hc : Calm s)
    (ht : mt.pre s = some t) :
    runI h mt own body s = .next ((takeTrap t (if mt.uni then s.cur.smask else activeMask h mt.uni s.cur) s).tick 1) := by
  simp [runI, hc.resident, runS, arrive0_calm hc, ht]

@[simp] theorem withOpnd_zero (t : Trap) : t.withOpnd 0 = t := by
  unfold Trap.withOpnd
  split
  · next h => cases t; simp_all
  · rfl

/-- A second drain finds nothing to write. -/
theorem takeTrap_drain (t : Trap) (m : Mask) (s : State) : takeTrap t m (s.updCur Cohort.drain) = takeTrap t m s := rfl

/-- The cohort waits before its next issue for results that are still owed. -/
abbrev holding (s : State) : State := s.updC fun c => { c with hold := true }

/-- With nothing outstanding, a drain leaves only that. -/
theorem updCur_drain_calm {s : State} (hc : Calm s) : s.updCur Cohort.drain = holding s := by
  simp [State.updCur, State.updC, drain_nil hc.pend]

theorem updCur_closeIdem_calm {s : State} (hi : s.cur.c.idem = none) : s.updCur Cohort.closeIdem = s := by
  obtain ⟨⟨_, _, _, c, _⟩, _⟩ := s
  cases c
  simp_all [State.updCur, Cohort.closeIdem]

/-- A form of CSRR or CSRW whose operands raise no trap at decode. -/
theorem usable_pre {s : State} {mt : Meta} (hu : Usable s mt) {pre : State → Option Trap} (hp : pre s = none) :
    Usable s { mt with pre := pre } := ⟨hp, hu.opnds, hu.mode⟩

theorem csrPre_none {s : State} {wr : Bool} {a o : Opd} (ht : csrTrap wr (src32 s none a).toNat o s = none) : csrPre wr a o s = none := by
  simp [csrPre, ht]

/-! ## What CSRR and CSRW come to -/

section Instructions
variable {s : State} {h : Hdr} {d a b : Opd} {n : Nat} {t : Trap}

theorem bind_ok {α β : Type} {x : M α} {f : α → M β} {u v : State} {y : α} (hx : x u = .ok (y, v)) : (x >>= f) u = f y v := by
  simp [bind, StateT.bind, hx, Except.bind]

theorem bind_error {α β : Type} {x : M α} {f : α → M β} {u : State} {e : Stop} (hx : x u = .error e) :
    (x >>= f) u = .error e := by
  simp [bind, StateT.bind, hx, Except.bind]

theorem get_run (u : State) : (get : M State) u = .ok (u, u) := rfl

theorem upd_run (f : State → State) (u : State) : M.upd f u = .ok ((), f u) := rfl

theorem waitUntil_run {w : WaitOn} {c : State → Bool} {u : State} (hu : c u = true) : M.waitUntil w c u = .ok ((), u) := by
  simp [M.waitUntil, hu]

theorem waitUntil_if {α : Type} {c : Prop} [Decidable c] {w : WaitOn} {p : State → Bool} {f : Unit → M α} {u : State}
    (hu : c → p u = true) : (if c then M.waitUntil w p >>= f else f ()) u = f () u := by
  split
  · next h => exact bind_ok (waitUntil_run (hu h))
  · rfl

theorem csrChecks_trap {wr : Bool} {o : Opd} {u : State} (ht : csrTrap wr n o u = some t) :
    csrChecks wr n o u = .error (.trap t u) := by simp [csrChecks, ht, M.trap]

theorem csrChecks_none {wr : Bool} {o : Opd} {u : State} (ht : csrTrap wr n o u = none) : csrChecks wr n o u = .ok ((), u) := by
  simp [csrChecks, ht]

/-- CSRR of a register that traps, whether the word or a register names it. -/
theorem csrr_traps (hc : Calm s) (hm : activeMask h true s.cur ≠ 0#32)
    (hu : Usable s { uni := true, srcs := [(a, 1)], dsts := [(d, 1)] }) (ht : csrTrap false (src32 s none a).toNat d s = some t) :
    exec (.csrr h d a) s = .next ((takeTrap t s.cur.smask s).tick 1) := by
  show execCsrr h d a s = _
  unfold execCsrr
  cases hf : Opd.fixed a with
  | true => exact runI_pre hc (by simpa [csrPre, hf] using ht)
  | false =>
    rw [runI_trap (t := t) (s' := s) hc (usable_pre hu (by simp [csrPre, hf])) (by simpa [bodyRuns] using hm)]
    · simp
    · rw [bind_ok (get_run s), bind_error (csrChecks_trap ht)]

/-- CSRR of a register that gives its value at once. -/
theorem csrr_gives (hc : Calm s) (hm : activeMask h true s.cur ≠ 0#32)
    (hu : Usable s { uni := true, srcs := [(a, 1)], dsts := [(d, 1)] }) (hn : (src32 s none a).toNat = n)
    (ht : csrTrap false n d s = none) (h1 : n ≠ 0x001) :
    exec (.csrr h d a) s =
      .next (finished h (gives (dstN d none (if isWideReg n then 2 else 1) (csrRead s n)) 0 (some 4) s)) := by
  subst hn
  refine runI_ok (own := false) hc (usable_pre hu (csrPre_none ht)) (by simpa [bodyRuns] using hm) ?_
  rw [bind_ok (get_run s), bind_ok (csrChecks_none ht), if_neg (by simpa using h1)]
  exact (bind_ok (get_run s)).trans (emitR_calm hc.pend _ _ _)

/-- CSRR of FPSTAT once no result that can set a flag is owed (R91). -/
theorem csrr_fpstat (hc : Calm s) (hm : activeMask h true s.cur ≠ 0#32)
    (hu : Usable s { uni := true, srcs := [(a, 1)], dsts := [(d, 1)] }) (hn : (src32 s none a).toNat = 0x001)
    (ho : owed s s.cur.pl.id = false) (hl : ∀ l ∈ s.dlog, l.cohort = s.cur.pl.id → l.op ≠ some AtomOp.fxadd) :
    exec (.csrr h d a) s = .next (finished h (gives (dstN d none 1 s.cur.r.fpstat.toNat) 0 (some 4)
      (holding s))) := by
  have ht : csrTrap false 0x001 d s = none := csrTrap_read rfl (by simp [isWideReg, isPartReg, isModReg]) (by simp)
  have hf : flagsM s = .ok ((), holding s) := by
    unfold flagsM
    rw [bind_ok (upd_run _ _), updCur_drain_calm hc, bind_ok (waitUntil_run (by simpa [owed] using ho)),
      waitUntil_run (by simpa using hl)]
  refine runI_ok (own := false) hc (usable_pre hu (csrPre_none (by rw [hn]; exact ht))) (by simpa [bodyRuns] using hm) ?_
  rw [bind_ok (get_run s), hn, bind_ok (csrChecks_none ht), if_pos (beq_self_eq_true _), bind_ok hf]
  refine (bind_ok (get_run _)).trans ((emitR_calm (s := holding s) hc.pend _ _ _).trans ?_)
  simp [csrRead, readFpstat, drain_nil, hc.pend, isWideReg, isPartReg, isModReg]

/-- The state in which CSRW reads its operands (log 54). -/
theorem csrw_waited (hc : Calm s) (hs : ownParked s = false ∧ ownTransit s = false) (f : Unit → M Unit) :
    ((M.upd fun s => s.updCur Cohort.drain) >>= fun _ =>
      (M.waitUntil .parked fun s => !ownParked s && !ownTransit s) >>= f) s = f () (holding s) := by
  rw [bind_ok (upd_run _ _), updCur_drain_calm hc]
  exact bind_ok (waitUntil_run (by simpa [ownParked, parkedOf, ownTransit] using hs))

/-- An operand does not depend on whether owed results are waited for. -/
theorem src32_hold (s : State) (o : Opd) : src32 (holding s) none o = src32 s none o := by
  cases o <;> rfl

theorem src64_hold (s : State) (o : Opd) : src64 (holding s) none o = src64 s none o := by
  cases o <;> rfl

/-- CSRW of a register that traps. One that a register names is read once every earlier result is written. -/
theorem csrw_traps (hc : Calm s) (hm : activeMask h true s.cur ≠ 0#32) (hu : Usable s { uni := true, srcs := [(a, 1), (b, 1)] })
    (hs : (ownParked s = false ∧ ownTransit s = false) ∨ Opd.fixed a = true)
    (ht : csrTrap true (src32 s none a).toNat b s = some t) :
    exec (.csrw h a b) s = .next ((takeTrap t s.cur.smask s).tick 1) := by
  show execCsrw h a b s = _
  unfold execCsrw
  cases hf : Opd.fixed a with
  | true => exact runI_pre hc (by simpa [csrPre, hf] using ht)
  | false =>
    rw [runI_trap (t := t) (s' := holding s) hc (usable_pre hu (by simp [csrPre, hf]))
      (by simpa [bodyRuns] using hm)]
    · rw [withOpnd_zero, if_pos rfl, ← updCur_drain_calm hc, takeTrap_drain]
    · rw [csrw_waited hc (by simpa [hf] using hs), bind_ok (get_run _), src32_hold, bind_error (csrChecks_trap (u := holding s) ht)]

/-- CSRW of a register that it may write. -/
theorem csrw_writes (hc : Calm s) (hm : activeMask h true s.cur ≠ 0#32) (hu : Usable s { uni := true, srcs := [(a, 1), (b, 1)] })
    (hn : (src32 s none a).toNat = n) (ht : csrTrap true n b s = none) (hi : n = 0x810 → surfIdle s = true)
    (hs : ownParked s = false ∧ ownTransit s = false) :
    exec (.csrw h a b) s = .next (finished h (csrWrite n (if isWideReg n then src64 s none b else (src32 s none b).zeroExtend 64)
      (holding s))) := by
  subst hn
  refine runI_ok (own := false) hc (usable_pre hu (csrPre_none ht)) (by simpa [bodyRuns] using hm) ?_
  rw [csrw_waited hc hs, bind_ok (get_run _), src32_hold, bind_ok (csrChecks_none (u := holding s) ht)]
  refine (waitUntil_if (u := holding s) fun h => hi (by simpa using h)).trans ((upd_run _ _).trans ?_)
  rw [src64_hold, src32_hold, updCur_closeIdem_calm (s := holding s) hc.idem]

end Instructions

/-! ## Fields of a register -/

theorem getLsbD_bitsOf {hi lo : Nat} (h : lo ≤ hi) (i : Nat) :
    (bitsOf hi lo).getLsbD i = (decide (i < 64) && (decide (lo ≤ i) && decide (i ≤ hi))) := by
  simp only [bitsOf, BitVec.getLsbD_ofNat, Nat.testBit_mul_two_pow, Nat.testBit_two_pow_sub_one]
  grind

section Field
variable {hi lo len w : Nat} (v : Dword) (hh : hi + 1 = lo + len) (hl : 0 < len) (hw : w < 2 ^ len)
include hh hl hw

/-- A field of a register after it is replaced by a number, bit by bit. -/
theorem getLsbD_field {i : Nat} (hi64 : i < 64) :
    ((v &&& ~~~(bitsOf hi lo)) ||| BitVec.ofNat 64 (w * 2 ^ lo)).getLsbD i
      = if lo ≤ i ∧ i < lo + len then w.testBit (i - lo) else v.getLsbD i := by
  have hb : len ≤ i - lo → w.testBit (i - lo) = false := fun hj =>
    Nat.testBit_lt_two_pow (hw.trans_le (Nat.pow_le_pow_right (by decide) hj))
  simp only [BitVec.getLsbD_or, BitVec.getLsbD_and, BitVec.getLsbD_not, getLsbD_bitsOf (show lo ≤ hi by omega),
    BitVec.getLsbD_ofNat, Nat.testBit_mul_two_pow]
  grind

theorem extract_field_same (h64 : lo + len ≤ 64) :
    ((v &&& ~~~(bitsOf hi lo)) ||| BitVec.ofNat 64 (w * 2 ^ lo)).extractLsb' lo len = BitVec.ofNat len w := by
  apply BitVec.eq_of_getLsbD_eq
  intro i hi
  rw [BitVec.getLsbD_extractLsb', getLsbD_field v hh hl hw (by omega), if_pos (by omega), BitVec.getLsbD_ofNat, Nat.add_sub_cancel_left]

theorem extract_field_other {lo' len' : Nat} (h64 : lo' + len' ≤ 64) (hd : lo' + len' ≤ lo ∨ hi < lo') :
    ((v &&& ~~~(bitsOf hi lo)) ||| BitVec.ofNat 64 (w * 2 ^ lo)).extractLsb' lo' len' = v.extractLsb' lo' len' := by
  apply BitVec.eq_of_getLsbD_eq
  intro i hi
  rw [BitVec.getLsbD_extractLsb', BitVec.getLsbD_extractLsb', getLsbD_field v hh hl hw (by omega), if_neg (by omega)]

end Field

theorem getLsbD_put (a : RegAcc) (old x : Dword) {i : Nat} (hi : i < 64) :
    (a.put old x).getLsbD i
      = ((if a.rw.getLsbD i then x.getLsbD i else old.getLsbD i) && !(x.getLsbD i && a.w1c.getLsbD i)) := by
  simp only [RegAcc.put, BitVec.getLsbD_or, BitVec.getLsbD_and, BitVec.getLsbD_not]
  cases a.rw.getLsbD i <;> simp [hi]

/-- A field of RW bits takes what is written. -/
theorem extract_put (a : RegAcc) (old x : Dword) {lo len : Nat} (h64 : lo + len ≤ 64)
    (h : ∀ i, i < len → a.rw.getLsbD (lo + i) = true ∧ a.w1c.getLsbD (lo + i) = false) :
    (a.put old x).extractLsb' lo len = x.extractLsb' lo len := by
  apply BitVec.eq_of_getLsbD_eq
  intro i hi
  rw [BitVec.getLsbD_extractLsb', BitVec.getLsbD_extractLsb', getLsbD_put a old x (by omega), (h i hi).1, (h i hi).2]
  simp

/-- A register whose bits are all RW is replaced. -/
theorem put_all (a : RegAcc) (old x : Dword) (hr : a.rw = BitVec.allOnes 64) (hc : a.w1c = 0#64) : a.put old x = x := by
  rw [RegAcc.put, hr, hc, BitVec.and_zero, BitVec.not_zero, BitVec.and_allOnes, BitVec.and_allOnes, BitVec.not_allOnes,
    BitVec.and_zero, BitVec.zero_or]

/-- A register without RW and W1C bits stays. -/
theorem put_none (a : RegAcc) (old x : Dword) (hr : a.rw = 0#64) (hc : a.w1c = 0#64) : a.put old x = old := by
  rw [RegAcc.put, hr, hc, BitVec.and_zero, BitVec.not_zero, BitVec.and_allOnes, BitVec.and_allOnes]
  exact BitVec.or_zero

/-! ## Counting in MISC, reserved bits -/

section Count
variable (s : State) (p : Nat) (a : RegAcc) (x : Dword)

/-- A write that is counted or not changes no more than the count of its partition. -/
theorem countRsv_cases : countRsv p a x s = s ∨ countRsv p a x s = s.countMisc p := by
  unfold countRsv
  split
  · exact .inr rfl
  · exact .inl rfl

@[simp] theorem countMisc_m : (s.countMisc p).m = s.m := rfl
@[simp] theorem countMisc_jobs : (s.countMisc p).jobs = s.jobs := rfl
@[simp] theorem countMisc_resv : (s.countMisc p).resv = s.resv := rfl
@[simp] theorem countMisc_halo : (s.countMisc p).halo = s.halo := rfl
@[simp] theorem countMisc_parked : (s.countMisc p).parked = s.parked := rfl
@[simp] theorem countMisc_refused : (s.countMisc p).refused = s.refused := rfl
@[simp] theorem countMisc_outs : (s.countMisc p).outs = s.outs := rfl
@[simp] theorem countRsv_m : (countRsv p a x s).m = s.m := by rcases countRsv_cases s p a x with h | h <;> simp [h]
@[simp] theorem countRsv_jobs : (countRsv p a x s).jobs = s.jobs := by rcases countRsv_cases s p a x with h | h <;> simp [h]
@[simp] theorem countRsv_resv : (countRsv p a x s).resv = s.resv := by rcases countRsv_cases s p a x with h | h <;> simp [h]
@[simp] theorem countRsv_halo : (countRsv p a x s).halo = s.halo := by rcases countRsv_cases s p a x with h | h <;> simp [h]
@[simp] theorem countRsv_parked : (countRsv p a x s).parked = s.parked := by rcases countRsv_cases s p a x with h | h <;> simp [h]
@[simp] theorem countRsv_refused : (countRsv p a x s).refused = s.refused := by rcases countRsv_cases s p a x with h | h <;> simp [h]
@[simp] theorem countRsv_outs : (countRsv p a x s).outs = s.outs := by rcases countRsv_cases s p a x with h | h <;> simp [h]

/-- What an update of a partition's registers keeps, every partition keeps. -/
theorem part_updPart_keeps {β : Type} {f : Part → Part} (g : Part → β) (hf : ∀ y, g (f y) = g y) (q : Nat) :
    g ((s.updPart p f).part q) = g (s.part q) := by
  by_cases hq : q = p
  · subst hq
    by_cases hl : q < s.parts.length
    · rw [part_updPart_same hl, hf]
    · simp [State.part, State.updPart, nth, setNth, hl]
  · rw [part_updPart_other hq]

/-- Counting keeps what does not look at the count. -/
theorem part_countMisc_keeps {β : Type} (g : Part → β) (hg : ∀ (y : Part) e, g { y with errCnt := e } = g y) (q : Nat) :
    g ((s.countMisc p).part q) = g (s.part q) :=
  part_updPart_keeps s p g (fun _ => hg _ _) q

theorem inRanges_countMisc (q pa : Nat) : (s.countMisc p).inRanges q pa = s.inRanges q pa := by
  simp only [State.inRanges, part_countMisc_keeps s p Part.prange (fun _ _ => rfl)]

theorem physOf_countMisc (q pa : Nat) : physOf (s.countMisc p) q pa = physOf s q pa := by
  simp only [physOf, locate, part_countMisc_keeps s p Part.fabwin (fun _ _ => rfl), countMisc_m]

theorem tenant?_countMisc (q asid : Nat) : tenant? (s.countMisc p) q asid = tenant? s q asid := by
  have hb : ∀ pa n, (s.countMisc p).bytes pa n = s.bytes pa n := fun pa n => by
    simp only [bytes_eq_map, byte_congr (s := s) (t := s.countMisc p) rfl rfl rfl]
  have ht : tenantBytes (s.countMisc p) q asid = tenantBytes s q asid := by
    simp only [tenantBytes, physOf_countMisc, part_countMisc_keeps s p Part.tent (fun _ _ => rfl), hb]
  unfold tenant?
  rw [part_countMisc_keeps s p Part.tent (fun _ _ => rfl), inRanges_countMisc, ht]

end Count

/-! ## Module registers -/

section
variable (v : Dword) (s : State)

theorem putModReg_rsvsurf : putModReg 0x810 v s = s.updM fun m => { m with rsvsurf := v } := rfl
theorem putModReg_qdt : putModReg 0x812 v s = s.updM fun m => { m with qdt := v } := rfl
theorem putModReg_pwrctl : putModReg 0x817 v s = s.updM fun m => { m with pwrctl := v } := rfl
theorem putModReg_fabid : putModReg 0x818 v s = s.updM fun m => { m with fabid := v } := rfl

end

/-! ## RSVSURF (R176, R384) -/

/-- RSVSURF with the writer as its owner. -/
def surfFor (p : Nat) (v : Dword) : Dword := (v &&& ~~~(bitsOf 47 44)) ||| BitVec.ofNat 64 (p % 16 * 2 ^ 44)

/-- Every die has room for its part of the surface that a word describes. -/
def SurfFits (p : Nat) (x : Dword) (s : State) : Prop :=
  ∀ d, d < 4 → surfNeed ((x.extractLsb' 0 14).toNat + 1) ((x.extractLsb' 16 14).toNat + 1) d
    ≤ min (match tenant? s p (x.extractLsb' 48 16).toNat with | some t => tRsvQ t | none => 0) (carved s d) * 0x400_0000

theorem surfFits_countRsv (p q : Nat) (a : RegAcc) (x y : Dword) (s : State) :
    SurfFits p x (countRsv q a y s) ↔ SurfFits p x s := by
  rcases countRsv_cases s q a y with h | h <;> rw [h]
  simp only [SurfFits, tenant?_countMisc, carved, countMisc_m]

section Rsvsurf
variable {p : Nat} {x : Dword} {s : State}

/-- The fields of a surface. -/
def SameSurf (v x : Dword) : Prop :=
  v.extractLsb' 0 14 = x.extractLsb' 0 14 ∧ v.extractLsb' 16 14 = x.extractLsb' 16 14 ∧ v.extractLsb' 48 16 = x.extractLsb' 48 16

theorem sameSurf_put (old x : Dword) : SameSurf ((modAcc 0x810).put old x) x :=
  ⟨extract_put _ _ _ (by decide) (by decide), extract_put _ _ _ (by decide) (by decide), extract_put _ _ _ (by decide) (by decide)⟩

theorem enable_put (old x : Dword) : ((modAcc 0x810).put old x).getLsbD 32 = x.getLsbD 32 := by
  rw [getLsbD_put _ _ _ (by decide), if_pos (by decide), show (modAcc 0x810).w1c.getLsbD 32 = false from rfl]
  simp

theorem sameSurf_surfFor (p : Nat) (v : Dword) : SameSurf (surfFor p v) v := by
  have h := @extract_field_other 47 44 4 (p % 16) v rfl (by decide) (Nat.mod_lt p (by decide))
  exact ⟨h (by decide) (by decide), h (by decide) (by decide), h (by decide) (by decide)⟩

theorem enable_surfFor (p : Nat) (v : Dword) : (surfFor p v).getLsbD 32 = v.getLsbD 32 :=
  (@getLsbD_field 47 44 4 (p % 16) v rfl (by decide) (Nat.mod_lt p (by decide)) 32 (by decide)).trans (if_neg (by decide))

theorem owner_surfFor (hp : p < 16) (v : Dword) : ((surfFor p v).extractLsb' 44 4).toNat = p := by
  rw [surfFor, @extract_field_same 47 44 4 (p % 16) v rfl (by decide) (Nat.mod_lt p (by decide)) (by decide), BitVec.toNat_ofNat]
  omega

/-- Bit 32 alone is cleared. -/
theorem extract_disable (v : Dword) {lo len : Nat} (h : lo + len ≤ 32 ∨ 33 ≤ lo) :
    (v &&& ~~~(bitsOf 32 32)).extractLsb' lo len = v.extractLsb' lo len := by
  apply BitVec.eq_of_getLsbD_eq
  intro i hi
  simp only [BitVec.getLsbD_extractLsb', BitVec.getLsbD_and, BitVec.getLsbD_not, getLsbD_bitsOf (Nat.le_refl 32)]
  grind

theorem enable_disable (v : Dword) : (v &&& ~~~(bitsOf 32 32)).getLsbD 32 = false := by
  simp [getLsbD_bitsOf (Nat.le_refl 32)]

/-- A surface that another partition owns stays. -/
theorem writeRsvsurf_other (h1 : s.m.rsvsurf.getLsbD 32 = true) (h2 : (s.m.rsvsurf.extractLsb' 44 4).toNat ≠ p) :
    writeRsvsurf p x s = s.countMisc p := by
  unfold writeRsvsurf
  exact if_pos (by rw [h1, Bool.true_and, bne_iff_ne]; exact h2)

/-- What a write of a surface that the partition may have comes to, by the enable bit and whether it fits. -/
theorem writeRsvsurf_own (ho : s.m.rsvsurf.getLsbD 32 = false ∨ (s.m.rsvsurf.extractLsb' 44 4).toNat = p) :
    let v := (modAcc 0x810).put s.m.rsvsurf x
    let u := countRsv p (modAcc 0x810) x s
    (x.getLsbD 32 = false ∧ writeRsvsurf p x s = putModReg 0x810 v u)
    ∨ (x.getLsbD 32 = true ∧ SurfFits p x s
        ∧ writeRsvsurf p x s = { putModReg 0x810 (surfFor p v) u with resv := [], halo := [], haloPl := [], rsvPoison := [] })
    ∨ (x.getLsbD 32 = true ∧ ¬ SurfFits p x s
        ∧ writeRsvsurf p x s = (putModReg 0x810 (surfFor p v &&& ~~~(bitsOf 32 32)) u).countMisc p) := by
  intro v u
  have h1 : ¬ (s.m.rsvsurf.getLsbD 32 && (s.m.rsvsurf.extractLsb' 44 4).toNat != p) = true := by
    rw [Bool.and_eq_true, bne_iff_ne]
    rintro ⟨h, h'⟩
    rcases ho with ho | ho
    · rw [ho] at h; cases h
    · exact h' ho
  unfold writeRsvsurf
  cases hx : x.getLsbD 32 with
  | false => exact .inl ⟨rfl, (if_neg h1).trans (if_pos rfl)⟩
  | true =>
    refine .inr ?_
    have h2 : ¬ (!true) = true := by decide
    have hf : SurfFits p x s ↔ (List.range 4).all (fun d => decide (surfNeed ((x.extractLsb' 0 14).toNat + 1)
        ((x.extractLsb' 16 14).toNat + 1) d
          ≤ min (match tenant? u p (x.extractLsb' 48 16).toNat with | some t => tRsvQ t | none => 0) (carved u d)
            * 0x400_0000)) = true := by
      rw [← surfFits_countRsv p p (modAcc 0x810) x x s]
      simp only [SurfFits, List.all_eq_true, List.mem_range, decide_eq_true_eq, u]
    by_cases h : SurfFits p x s
    · exact .inl ⟨rfl, h, (if_neg h1).trans ((if_neg h2).trans (if_pos (hf.mp h)))⟩
    · exact .inr ⟨rfl, h, (if_neg h1).trans ((if_neg h2).trans (if_neg (mt hf.mpr h)))⟩

/-- What a write of a surface that the partition may have leaves. -/
theorem writeRsvsurf_leaves (hp : p < 16)
    (ho : s.m.rsvsurf.getLsbD 32 = false ∨ (s.m.rsvsurf.extractLsb' 44 4).toNat = p) :
    let t := writeRsvsurf p x s
    t.m.rsvsurf.extractLsb' 0 14 = x.extractLsb' 0 14 ∧ t.m.rsvsurf.extractLsb' 16 14 = x.extractLsb' 16 14
      ∧ t.m.rsvsurf.extractLsb' 48 16 = x.extractLsb' 48 16
      ∧ (t.m.rsvsurf.getLsbD 32 = true ↔ x.getLsbD 32 = true ∧ SurfFits p x s)
      ∧ (x.getLsbD 32 = true → (t.m.rsvsurf.extractLsb' 44 4).toNat = p)
      ∧ (x.getLsbD 32 = true ∧ SurfFits p x s → t.resv = [] ∧ t.halo = [] ∧ t.haloPl = [])
      ∧ (¬ (x.getLsbD 32 = true ∧ SurfFits p x s) → t.resv = s.resv ∧ t.halo = s.halo) := by
  intro t
  obtain ⟨h1, h2, h3⟩ := sameSurf_put s.m.rsvsurf x
  obtain ⟨h1', h2', h3'⟩ := sameSurf_surfFor p ((modAcc 0x810).put s.m.rsvsurf x)
  have he := enable_put s.m.rsvsurf x
  rcases writeRsvsurf_own (x := x) ho with ⟨hx, ht⟩ | ⟨hx, hf, ht⟩ | ⟨hx, hf, ht⟩ <;> rw [show t = _ from ht]
  · refine ⟨h1, h2, h3, ?_⟩
    simp only [putModReg_rsvsurf, State.updM_m, State.updM_resv, State.updM_halo, countRsv_resv, countRsv_halo, he, hx]
    simp
  · refine ⟨h1'.trans h1, h2'.trans h2, h3'.trans h3, ?_, fun _ => owner_surfFor hp _, fun _ => ⟨rfl, rfl, rfl⟩,
      fun h => absurd ⟨hx, hf⟩ h⟩
    exact iff_of_true ((enable_surfFor _ _).trans (he.trans hx)) ⟨hx, hf⟩
  · refine ⟨(extract_disable _ (by decide)).trans (h1'.trans h1), (extract_disable _ (by decide)).trans (h2'.trans h2),
      (extract_disable _ (by decide)).trans (h3'.trans h3), ?_, fun _ => ?_, fun h => absurd h.2 hf,
      fun _ => ⟨countRsv_resv .., countRsv_halo ..⟩⟩
    · exact iff_of_false (Bool.eq_false_iff.mp (enable_disable _)) fun h => hf h.2
    · exact (congrArg BitVec.toNat (extract_disable _ (by decide))).trans (owner_surfFor hp _)

end Rsvsurf

/-! ## PWRCTL (R21) -/

theorem writePwrctl_pwrctl (x : Dword) (s : State) :
    (writePwrctl x s).m.pwrctl =
      (s.m.pwrctl &&& ~~~(bitsOf 11 0)) ||| BitVec.ofNat 64 (max 1500 (min 3400 (x.extractLsb' 0 12).toNat) * 2 ^ 0) := by
  rw [Nat.pow_zero, Nat.mul_one, writePwrctl, putModReg_pwrctl, State.updM_m]

theorem writePwrctl_limit (x : Dword) (s : State) :
    ((writePwrctl x s).m.pwrctl.extractLsb' 0 12).toNat = max 1500 (min 3400 (x.extractLsb' 0 12).toNat) := by
  rw [writePwrctl_pwrctl, extract_field_same (len := 12) _ rfl (by decide) (by omega) (by decide), BitVec.toNat_ofNat]
  omega

theorem writePwrctl_rest (x : Dword) (s : State) :
    (writePwrctl x s).m.pwrctl.extractLsb' 12 52 = s.m.pwrctl.extractLsb' 12 52 := by
  rw [writePwrctl_pwrctl, extract_field_other (len := 12) _ rfl (by decide) (by omega) (by decide) (by decide)]

/-! ## CARVECTL (R16) -/

/-- The change of one die that a write of CARVECTL asks for: at once, or after what is in flight there. -/
def carveChange (x : Dword) (s : State) (d : Nat) : State :=
  if surfIdleDie s d && !s.m.pending.any fun e => e.1 == d then carveDie d (x.extractLsb' (4 * d) 4).toNat s
  else s.updM fun m => { m with pending := m.pending ++ [(d, BitVec.ofNat 64 (x.extractLsb' (4 * d) 4).toNat)] }

/-- The dies whose field of a written word is not ignored. -/
def carveDies (x : Dword) : List Nat := (List.range 4).filter fun d => (x.extractLsb' (4 * d) 4).toNat ≤ 8

/-- The counts of a write of CARVECTL that concern the word alone. -/
def carveCounted (x : Dword) (s : State) : State :=
  ((List.range 4).filter fun d => 8 < (x.extractLsb' (4 * d) 4).toNat).foldl
    (fun t _ => t.countMisc (surfOwner t)) (countRsv (surfOwner s) (modAcc 0x813) x s)

theorem writeCarve_eq (x : Dword) (s : State) :
    writeCarve x s =
      if (carveDies x).any fun d => carveShort (carveCounted x s) d (x.extractLsb' (4 * d) 4).toNat then
        (carveCounted x s).countMisc (surfOwner (carveCounted x s))
      else (carveDies x).foldl (carveChange x) (carveCounted x s) := rfl

theorem mem_carveDies {x : Dword} {d : Nat} : d ∈ carveDies x ↔ d < 4 ∧ (x.extractLsb' (4 * d) 4).toNat ≤ 8 := by
  simp only [carveDies, List.mem_filter, List.mem_range, decide_eq_true_eq]

theorem carveShort_congr {s t : State} (h : t.m.rsvsurf = s.m.rsvsurf) (d w : Nat) : carveShort t d w = carveShort s d w := by
  rw [carveShort, carveShort, surfEn, surfW, surfH, h, surfEn, surfW, surfH]

theorem foldl_countMisc_keeps (q : State → Nat) (l : List Nat) (s : State) :
    (l.foldl (fun t _ => t.countMisc (q t)) s).m = s.m ∧ (l.foldl (fun t _ => t.countMisc (q t)) s).jobs = s.jobs := by
  induction l generalizing s with
  | nil => exact ⟨rfl, rfl⟩
  | cons _ l ih => exact ih (s.countMisc (q s))

theorem carveCounted_m (x : Dword) (s : State) : (carveCounted x s).m = s.m :=
  (foldl_countMisc_keeps surfOwner _ _).1.trans (countRsv_m ..)

theorem carveCounted_jobs (x : Dword) (s : State) : (carveCounted x s).jobs = s.jobs :=
  (foldl_countMisc_keeps surfOwner _ _).2.trans (countRsv_jobs ..)

/-- Nothing is in flight on a die and no change waits for it. -/
def CarveNow (s : State) (d : Nat) : Prop := surfIdleDie s d = true ∧ ∀ e ∈ s.m.pending, e.1 ≠ d

theorem carveNow_iff {s : State} {d : Nat} :
    (surfIdleDie s d && !s.m.pending.any fun e => e.1 == d) = true ↔ CarveNow s d := by
  simp [CarveNow]

section Carve
variable {x : Dword} {s : State} {d : Nat}

theorem carveChange_now (h : CarveNow s d) (hs : carveShort s d (x.extractLsb' (4 * d) 4).toNat = false) :
    carveChange x s d = putModReg 0x813 ((s.m.carve &&& ~~~(bitsOf (4 * d + 3) (4 * d)))
      ||| BitVec.ofNat 64 ((x.extractLsb' (4 * d) 4).toNat % 16 * 2 ^ (4 * d))) s := by
  rw [carveChange, if_pos (carveNow_iff.mpr h), carveDie, if_neg (by rw [hs]; decide)]

theorem carveChange_later (h : ¬ CarveNow s d) :
    carveChange x s d = s.updM fun m => { m with pending := m.pending ++ [(d, BitVec.ofNat 64 (x.extractLsb' (4 * d) 4).toNat)] } := by
  rw [carveChange, if_neg (mt carveNow_iff.mp h)]

/-- What the change of one die leaves: the surface, what is in flight, and every other die's field and waiting changes. -/
theorem carveChange_frame (hs : carveShort s d (x.extractLsb' (4 * d) 4).toNat = false) :
    let t := carveChange x s d
    t.m.rsvsurf = s.m.rsvsurf ∧ t.jobs = s.jobs ∧ (∀ e ∈ s.m.pending, e ∈ t.m.pending)
      ∧ (∀ e ∈ t.m.pending, e.1 ≠ d → e ∈ s.m.pending)
      ∧ ∀ k, k < 4 → k ≠ d → t.m.carve.extractLsb' (4 * k) 4 = s.m.carve.extractLsb' (4 * k) 4 := by
  intro t
  by_cases h : CarveNow s d
  · have ht : t = _ := carveChange_now h hs
    rw [ht]
    refine ⟨rfl, rfl, fun e he => he, fun e he _ => he, fun k hk hkd => ?_⟩
    exact extract_field_other (len := 4) _ (by omega) (by decide) (Nat.mod_lt _ (by decide)) (by omega) (by omega)
  · have ht : t = _ := carveChange_later h
    rw [ht]
    refine ⟨rfl, rfl, fun e he => List.mem_append_left _ he, fun e he hed => ?_, fun k _ _ => rfl⟩
    rcases List.mem_append.mp he with he | he
    · exact he
    · exact absurd (by rw [List.mem_singleton.mp he]) hed

/-- The die's own field and waiting changes. -/
theorem carveChange_own (hd : d < 4) (hs : carveShort s d (x.extractLsb' (4 * d) 4).toNat = false) :
    let t := carveChange x s d
    (CarveNow s d → t.m.carve.extractLsb' (4 * d) 4 = x.extractLsb' (4 * d) 4)
    ∧ (¬ CarveNow s d → t.m.carve = s.m.carve ∧ (d, BitVec.ofNat 64 (x.extractLsb' (4 * d) 4).toNat) ∈ t.m.pending) := by
  refine ⟨fun h => ?_, fun h => ?_⟩
  · rw [carveChange_now h hs]
    refine (extract_field_same (len := 4) _ (by omega) (by decide) (Nat.mod_lt _ (by decide)) (by omega)).trans ?_
    rw [Nat.mod_eq_of_lt (x.extractLsb' (4 * d) 4).isLt, BitVec.ofNat_toNat, BitVec.setWidth_eq]
  · rw [carveChange_later h]
    exact ⟨rfl, List.mem_append_right _ (List.mem_singleton.mpr rfl)⟩

/-- The change of one die says nothing about whether another is changed now. -/
theorem carveNow_change {k : Nat} (hk : k ≠ d) (hs : carveShort s d (x.extractLsb' (4 * d) 4).toNat = false) :
    CarveNow (carveChange x s d) k ↔ CarveNow s k := by
  obtain ⟨-, hj, hkeep, hback, -⟩ := carveChange_frame hs
  have hi : surfIdleDie (carveChange x s d) k = surfIdleDie s k := by rw [surfIdleDie, surfIdleDie, hj]
  rw [CarveNow, CarveNow, hi]
  refine and_congr_right fun _ => ⟨fun h e he => h e (hkeep e he), fun h e he hek => ?_⟩
  exact h e (hback e he (by omega)) hek

/-- The changes of several dies, one after the other. -/
theorem foldl_carveChange {l : List Nat} (hl : l.Nodup) (h4 : ∀ d ∈ l, d < 4)
    (hs : ∀ d ∈ l, carveShort s d (x.extractLsb' (4 * d) 4).toNat = false) :
    let t := l.foldl (carveChange x) s
    (∀ e ∈ s.m.pending, e ∈ t.m.pending) ∧ ∀ k, k < 4 →
      (k ∈ l ∧ CarveNow s k → t.m.carve.extractLsb' (4 * k) 4 = x.extractLsb' (4 * k) 4)
      ∧ (¬ (k ∈ l ∧ CarveNow s k) → t.m.carve.extractLsb' (4 * k) 4 = s.m.carve.extractLsb' (4 * k) 4)
      ∧ (k ∈ l → ¬ CarveNow s k → (k, BitVec.ofNat 64 (x.extractLsb' (4 * k) 4).toNat) ∈ t.m.pending) := by
  induction l generalizing s with
  | nil => simp
  | cons d l ih =>
    obtain ⟨hdl, hl⟩ := List.nodup_cons.mp hl
    have hd : d < 4 := h4 d (by simp)
    have hsd := hs d (by simp)
    obtain ⟨hr, -, hkeep, -, hoth⟩ := carveChange_frame hsd
    obtain ⟨hnow, hlater⟩ := carveChange_own hd hsd
    obtain ⟨ihp, ih⟩ := ih (s := carveChange x s d) hl (fun k hk => h4 k (by simp [hk])) fun k hk =>
      (carveShort_congr hr k _).trans (hs k (by simp [hk]))
    refine ⟨fun e he => ihp e (hkeep e he), fun k hk => ?_⟩
    obtain ⟨ih1, ih2, ih3⟩ := ih k hk
    by_cases hkd : k = d
    · subst hkd
      have hstay := ih2 fun h => hdl h.1
      refine ⟨fun h => hstay.trans (hnow h.2), fun h => ?_, fun _ h => ihp _ (hlater h).2⟩
      rw [List.foldl_cons, hstay, (hlater fun hn => h ⟨by simp, hn⟩).1]
    · have hmem : k ∈ d :: l ↔ k ∈ l := by simp [hkd]
      rw [hmem, ← carveNow_change hkd hsd, ← hoth k hk hkd]
      exact ⟨ih1, ih2, ih3⟩

end Carve

/-- What a write of CARVECTL leaves. -/
theorem writeCarve_leaves (x : Dword) (s : State) :
    let ways := fun d => (x.extractLsb' (4 * d) 4).toNat
    let short := surfEn s = true ∧ ∃ d, d < 4 ∧ ways d ≤ 8 ∧ ways d * 0x400_0000 < surfNeed (surfW s) (surfH s) d
    let t := writeCarve x s
    (short → t.m = s.m) ∧ (¬ short → ∀ d, d < 4 →
      (ways d ≤ 8 ∧ CarveNow s d → t.m.carve.extractLsb' (4 * d) 4 = x.extractLsb' (4 * d) 4)
      ∧ (¬ (ways d ≤ 8 ∧ CarveNow s d) → t.m.carve.extractLsb' (4 * d) 4 = s.m.carve.extractLsb' (4 * d) 4)
      ∧ (ways d ≤ 8 → ¬ CarveNow s d → (d, BitVec.ofNat 64 (ways d)) ∈ t.m.pending)) := by
  intro ways short t
  have hm := carveCounted_m x s
  have hw : ∀ d w, carveShort (carveCounted x s) d w = carveShort s d w := carveShort_congr (by rw [hm])
  have hany : ((carveDies x).any fun d => carveShort (carveCounted x s) d (x.extractLsb' (4 * d) 4).toNat) = true ↔ short := by
    simp only [List.any_eq_true, mem_carveDies, hw]
    simp only [carveShort, Bool.and_eq_true, decide_eq_true_eq]
    constructor
    · rintro ⟨d, ⟨h4, h8⟩, he, hn⟩
      exact ⟨he, d, h4, h8, hn⟩
    · rintro ⟨he, d, h4, h8, hn⟩
      exact ⟨d, ⟨h4, h8⟩, he, hn⟩
  refine ⟨fun h => ?_, fun h d hd => ?_⟩
  · rw [show t = _ from (writeCarve_eq x s).trans (if_pos (hany.mpr h)), countMisc_m, hm]
  · have hnone := mt hany.mp h
    rw [show t = _ from (writeCarve_eq x s).trans (if_neg hnone)]
    have hs : ∀ d ∈ carveDies x, carveShort (carveCounted x s) d (x.extractLsb' (4 * d) 4).toNat = false := fun d hd =>
      Bool.eq_false_iff.mpr fun hc => hnone (List.any_eq_true.mpr ⟨d, hd, hc⟩)
    have hnow : CarveNow (carveCounted x s) d ↔ CarveNow s d := by
      rw [CarveNow, CarveNow, surfIdleDie, surfIdleDie, carveCounted_jobs, hm]
    have hmem : d ∈ carveDies x ↔ ways d ≤ 8 := mem_carveDies.trans (and_iff_right hd)
    have hfold := (foldl_carveChange (List.nodup_range.filter _) (fun d hd => (mem_carveDies.mp hd).1) hs).2 d hd
    rwa [show d ∈ (List.range 4).filter _ ↔ _ from hmem, hnow, hm] at hfold

/-! ## CQDISC (R400) -/

theorem ring_fields (s : State) (p : Nat) (r : Rec) :
    (s.ring p r).2.parked = s.parked ∧ (s.ring p r).2.refused = s.refused ∧ (s.ring p r).2.outs = s.outs := by
  unfold State.ring
  dsimp only
  split <;> split <;> simp

theorem postLate_fields (id cause detail opnd : Nat) (pc : Pc) (mask done : Mask) (addr : Nat) (s : State) :
    let t := postLate id cause detail opnd pc mask done addr s
    t.parked = s.parked ∧ t.refused = s.refused ∧ t.outs = s.outs := by
  unfold postLate
  dsimp only
  split
  · exact ⟨rfl, rfl, rfl⟩
  · split
    · split <;> exact ring_fields _ _ _
    · exact ⟨rfl, rfl, rfl⟩

/-- A refusal leaves the queue, and what was refused and answered before. -/
theorem refuse_fields (q : Parked) (s : State) :
    (refuse q s).parked = s.parked ∧ s.refused ⊆ (refuse q s).refused ∧ s.outs ⊆ (refuse q s).outs := by
  have hp : ∀ t : State, t.parked = s.parked ∧ t.refused = s.refused ∧ t.outs = s.outs →
      t.parked = s.parked ∧ s.refused ⊆ t.refused ∧ s.outs ⊆ t.outs :=
    fun t ⟨h1, h2, h3⟩ => ⟨h1, by rw [h2]; simp, by rw [h3]; simp⟩
  unfold refuse
  cases q.req with
  | load | sload | store | atom | held => exact hp _ (postLate_fields ..)
  | host | remote | ratom | copy | engine | wback | other => exact ⟨rfl, by simp, by simp⟩

/-- The step of CQDISC for one request of the sector. -/
def discard (p pa : Nat) (s : State) (q : Parked) : State := refuse q (s.ring p (plainRec Cause.discarded 0 1 pa)).2

theorem discard_fields (p pa : Nat) (s : State) (q : Parked) :
    (discard p pa s q).parked = s.parked ∧ s.refused ⊆ (discard p pa s q).refused ∧ s.outs ⊆ (discard p pa s q).outs := by
  obtain ⟨h1, h2, h3⟩ := ring_fields s p (plainRec Cause.discarded 0 1 pa)
  have h := refuse_fields q (s.ring p (plainRec Cause.discarded 0 1 pa)).2
  rwa [h1, h2, h3] at h

/-- What a discarded request of an engine or of the host answers. -/
theorem discard_answers (p pa : Nat) (s : State) (q : Parked) :
    (∀ k, q.req = .engine k → (k, q.pa) ∈ (discard p pa s q).refused)
      ∧ ∀ c l, q.req = .host c l → Outp.hostError q.va ∈ (discard p pa s q).outs := by
  refine ⟨fun k h => ?_, fun c l h => ?_⟩ <;> rw [discard, refuse, h] <;> simp

/-- The requests of the sector are discarded one after the other. -/
theorem foldl_discard (p pa : Nat) (l : List Parked) (s : State) :
    let t := l.foldl (discard p pa) s
    t.parked = s.parked ∧ (s.refused ⊆ t.refused ∧ s.outs ⊆ t.outs)
      ∧ ∀ q ∈ l, (∀ k, q.req = .engine k → (k, q.pa) ∈ t.refused) ∧ ∀ c l, q.req = .host c l → Outp.hostError q.va ∈ t.outs := by
  induction l generalizing s with
  | nil => simp
  | cons q l ih =>
    obtain ⟨hp, hr, ho⟩ := discard_fields p pa s q
    obtain ⟨ihp, ⟨ihr, iho⟩, ih⟩ := ih (discard p pa s q)
    refine ⟨ihp.trans hp, ⟨List.Subset.trans hr ihr, List.Subset.trans ho iho⟩, fun x hx => ?_⟩
    rcases List.mem_cons.mp hx with rfl | hx
    · obtain ⟨he, hh⟩ := discard_answers p pa s x
      exact ⟨fun k hk => ihr (he k hk), fun c l hl => iho (hh c l hl)⟩
    · exact ih x hx

theorem writeCqdisc_eq (p : Nat) (x : Dword) (s : State) :
    writeCqdisc p x s = countRsv p (partAcc 0x845) x
      ((s.parked.filter fun q => q.pa == (x.extractLsb' 6 46).toNat * 64 && q.part == p).foldl
        (discard p ((x.extractLsb' 6 46).toNat * 64))
        { s with parked := s.parked.filter fun q => !(q.pa == (x.extractLsb' 6 46).toNat * 64 && q.part == p) }) := rfl

/-- What a write of CQDISC leaves. -/
theorem writeCqdisc_leaves (p : Nat) (x : Dword) (s : State) :
    let pa := (x.extractLsb' 6 46).toNat * 64
    let t := writeCqdisc p x s
    t.parked = s.parked.filter (fun q => !(q.pa == pa && q.part == p))
      ∧ ∀ q ∈ s.parked, q.pa = pa → q.part = p → (∀ k, q.req = .engine k → (k, pa) ∈ t.refused)
        ∧ ∀ c l, q.req = .host c l → Outp.hostError q.va ∈ t.outs := by
  intro pa t
  obtain ⟨hp, -, hall⟩ := foldl_discard p pa (s.parked.filter fun q => q.pa == pa && q.part == p)
    { s with parked := s.parked.filter fun q => !(q.pa == pa && q.part == p) }
  rw [show t = _ from writeCqdisc_eq p x s]
  refine ⟨(countRsv_parked ..).trans hp, fun q hq hpa hpt => ?_⟩
  rw [countRsv_refused, countRsv_outs, ← hpa]
  exact hpa ▸ hall q (List.mem_filter.mpr ⟨hq, by simp [hpa, hpt]⟩)

/-! ## Partition registers (R7, R373, R390, R403) -/

/-- The partition registers by their numbers. -/
theorem isPartReg_iff {n : Nat} : isPartReg n = true ↔
    (0x820 ≤ n ∧ n ≤ 0x823) ∨ (0x828 ≤ n ∧ n ≤ 0x82F) ∨ (0x840 ≤ n ∧ n ≤ 0x845) ∨ (0x900 ≤ n ∧ n ≤ 0x9FF) := by
  simp [isPartReg, or_assoc]

theorem isModReg_iff {n : Nat} : isModReg n = true ↔ 0x810 ≤ n ∧ n ≤ 0x818 := by simp [isModReg]

/-- A partition's window registers. -/
theorem partReg_fabwin {n : Nat} (h : 0x900 ≤ n ∧ n ≤ 0x9FF) (y : Part) : partReg y n = y.fabwin.get (n - 0x900) 0 := by
  unfold partReg
  split
  case h_10 => rw [if_neg (by simp; omega), if_pos (by simp; omega)]
  all_goals omega

theorem putPartReg_fabwin {n : Nat} (h : 0x900 ≤ n ∧ n ≤ 0x9FF) (v : Dword) (y : Part) :
    putPartReg n v y = { y with fabwin := y.fabwin.set (n - 0x900) v 0 } := by
  unfold putPartReg
  split
  case h_9 => rw [if_neg (by simp; omega), if_pos (by simp; omega)]
  all_goals omega

/-- A partition's range registers. -/
theorem partReg_prange {n : Nat} (h : 0x828 ≤ n ∧ n ≤ 0x82F) (y : Part) : partReg y n = nth y.prange (n - 0x828) 0 := by
  unfold partReg
  split
  case h_10 => rw [if_pos (by simp; omega)]
  all_goals omega

theorem putPartReg_prange {n : Nat} (h : 0x828 ≤ n ∧ n ≤ 0x82F) (v : Dword) (y : Part) :
    putPartReg n v y = { y with prange := setNth y.prange (n - 0x828) v } := by
  unfold putPartReg
  split
  case h_9 => rw [if_pos (by simp; omega)]
  all_goals omega

/-- FLTTAIL is the low half of its register. -/
theorem put_fltTail (old : Word) (x : Dword) :
    ((partAcc 0x842).put (old.zeroExtend 64) x).extractLsb' 0 32 = x.extractLsb' 0 32 :=
  extract_put _ _ _ (by decide) (by decide)

theorem put_fltTail_zeroExtend (old : Word) (x : Dword) :
    (((partAcc 0x842).put (old.zeroExtend 64) x).extractLsb' 0 32).zeroExtend 64 = (partAcc 0x842).put (old.zeroExtend 64) x := by
  apply BitVec.eq_of_getLsbD_eq
  intro i hi
  rw [BitVec.getLsbD_setWidth, BitVec.getLsbD_extractLsb', Nat.zero_add]
  by_cases h : i < 32
  · simp [h, hi]
  · rw [getLsbD_put _ _ _ hi, show (partAcc 0x842).rw = bitsOf 31 0 from rfl, getLsbD_bitsOf (by decide), BitVec.getLsbD_setWidth,
      BitVec.getLsbD_of_ge old i (by omega)]
    simp [h, show ¬ i ≤ 31 by omega]

/-- A register that is written reads as its access rules leave it. -/
theorem partReg_put {n : Nat} (hn : isPartReg n = true) (h845 : n ≠ 0x845) (x : Dword) {y : Part} (hl : y.prange.length = 8) :
    partReg (putPartReg n ((partAcc n).put (partReg y n) x) y) n = (partAcc n).put (partReg y n) x := by
  rcases isPartReg_iff.mp hn with ⟨h1, h2⟩ | h | ⟨h1, h2⟩ | h
  · interval_cases n <;> rfl
  · rw [putPartReg_prange h, partReg_prange h]
    simp only [nth, setNth]
    rw [List.getElem?_set_self (by omega), Option.getD_some]
  · interval_cases n
    · rfl
    · exact (put_none (partAcc 0x841) _ x rfl rfl).symm
    · exact put_fltTail_zeroExtend y.fltTail x
    · rfl
    · rfl
    · exact absurd rfl h845
  · rw [putPartReg_fabwin h, partReg_fabwin h]
    exact Map.get_set_same ..

/-- Only ERRCNT sees the counts. -/
theorem partReg_errCnt {n : Nat} (h : n ≠ 0x844) (y : Part) (e : Dword) : partReg { y with errCnt := e } n = partReg y n := by
  unfold partReg
  split
  case h_9 => exact absurd rfl h
  all_goals rfl

/-- A write of a partition register without a behaviour of its own. -/
theorem regWrite_part {n : Nat} (hn : isPartReg n = true) (h820 : n ≠ 0x820) (h845 : n ≠ 0x845) (p : Nat) (x : Dword) (s : State) :
    regWrite p n x s =
      countRsv p (partAcc n) x (s.updPart p fun y => putPartReg n ((partAcc n).put (partReg y n) x) y) := by
  have := isPartReg_iff.mp hn
  unfold regWrite
  split
  case h_5 => exact absurd rfl h820
  case h_6 => exact absurd rfl h845
  case h_7 => exact if_pos hn
  all_goals omega

/-- It leaves the module's registers and the other partitions', and its own reads as its access rules say. -/
theorem regWrite_part_reads {n p : Nat} {s : State} (hn : isPartReg n = true) (h820 : n ≠ 0x820) (h845 : n ≠ 0x845)
    (hp : p < s.parts.length) (hl : (s.part p).prange.length = 8) (x : Dword) :
    let t := regWrite p n x s
    partReg (t.part p) n = (partAcc n).put (partReg (s.part p) n) x ∧ t.m = s.m ∧ ∀ k, k ≠ p → t.part k = s.part k := by
  intro t
  have hput := partReg_put hn h845 x hl
  have ht : t = _ := regWrite_part hn h820 h845 p x s
  rw [ht]
  refine ⟨?_, countRsv_m .., fun k hk => ?_⟩
  · rcases Decidable.em (n = 0x844) with rfl | h844
    · rw [countRsv, if_neg (by simp [show (partAcc 0x844).rsv = 0#64 from rfl]), part_updPart_same hp, hput]
    · rcases countRsv_cases (s.updPart p fun y => putPartReg n ((partAcc n).put (partReg y n) x) y) p (partAcc n) x with h | h <;> rw [h]
      · rw [part_updPart_same hp, hput]
      · rw [part_countMisc_keeps _ p (fun y => partReg y n) (fun y e => partReg_errCnt h844 y e), part_updPart_same hp, hput]
  · rcases countRsv_cases (s.updPart p fun y => putPartReg n ((partAcc n).put (partReg y n) x) y) p (partAcc n) x with h | h <;> rw [h]
    · exact part_updPart_other hk _
    · exact (part_updPart_other hk _).trans (part_updPart_other hk _)

/-- The register blocks of BAR0 are those of the 16 partitions. -/
theorem barReg_lt {off p n : Nat} (h : barReg off = some (p, n)) : p < 16 := by
  have hsome : ∀ {a b : Nat}, some (a, b) = some (p, n) → a = p := fun h => congrArg Prod.fst (Option.some.inj h)
  unfold barReg at h
  split at h
  · cases h
  · split at h
    case h_9 =>
      split at h
      · next hb =>
        simp only [Bool.and_eq_true, decide_eq_true_eq, Option.ite_none_right_eq_some] at hb h
        have hp : (off - 0x4000) / 0x40 < 16 := by omega
        exact hsome h.2 ▸ hp
      · simp only [Bool.and_eq_true, decide_eq_true_eq, Option.ite_none_right_eq_some] at h
        obtain ⟨hb, h⟩ := h
        have hp : (off - 0x1_0000) / 0x1000 < 16 := by omega
        split at h
        · exact hsome h ▸ hp
        · split at h
          · exact hsome h ▸ hp
          · exact hsome (Option.ite_none_right_eq_some.mp h).2 ▸ hp
    all_goals exact hsome h ▸ by decide

theorem regWrite_qdt (p : Nat) (x : Dword) (s : State) : (regWrite p 0x812 x s).m.qdt = x := by
  show (countRsv p (modAcc 0x812) x (putModReg 0x812 ((modAcc 0x812).put s.m.qdt x) s)).m.qdt = x
  rw [countRsv_m, putModReg_qdt, State.updM_m]
  exact put_all _ _ _ rfl rfl

theorem regWrite_fabid (p : Nat) (x : Dword) (s : State) :
    (regWrite p 0x818 x s).m.fabid =
      if ∃ y ∈ s.parts, y.cfg.getLsbD 0 = true then s.m.fabid else (modAcc 0x818).put s.m.fabid x := by
  show (writeFabid x s).m.fabid = _
  have h : (s.parts.any fun y => y.cfg.getLsbD 0) = true ↔ ∃ y ∈ s.parts, y.cfg.getLsbD 0 = true := List.any_eq_true
  unfold writeFabid
  dsimp only
  split <;> rename_i h'
  · rw [if_pos (h.mp h'), countRsv_m]
  · rw [if_neg (mt h.mpr h'), putModReg_fabid, State.updM_m]

/-! ## What CSRR reads and CSRW takes -/

theorem csrRead_part {s : State} {n : Nat} (hn : isPartReg n = true) : csrRead s n = (partReg (s.part s.cur.pl.part) n).toNat := by
  have := isPartReg_iff.mp hn
  unfold csrRead
  repeat rw [if_neg (by simp; omega)]
  exact if_pos hn

theorem csrRead_mod {s : State} {n : Nat} (hn : isModReg n = true) : csrRead s n = (modReg s n).toNat := by
  have hm := isModReg_iff.mp hn
  have hp : ¬ isPartReg n = true := fun h => by have := isPartReg_iff.mp h; omega
  unfold csrRead
  repeat rw [if_neg (by simp; omega)]
  exact if_neg hp

theorem csrRead_trec {s : State} {k : Nat} (hk : k < 16) {r : Rec} (hr : s.cur.c.trec = some r) :
    csrRead s (0x040 + k) = leNat ((r.bytes.drop (4 * k)).take 4) % 2 ^ 32 := by
  simp [csrRead, show ¬ 0x040 + k = 1 by omega, show ¬ 0x040 + k = 2 by omega, show ¬ 0x040 + k = 3 by omega,
    show ¬ 0x040 + k = 0x010 by omega, show 0x040 + k ≤ 0x4F by omega, hr, Rec.word]

theorem csrRead_tsave {s : State} {k : Nat} (hk : k < 4) : csrRead s (0x052 + k) = (nth s.cur.c.tsave k 0#32).toNat := by
  simp [csrRead, show ¬ 0x052 + k = 1 by omega, show ¬ 0x052 + k = 2 by omega, show ¬ 0x052 + k = 3 by omega,
    show ¬ 0x052 + k = 0x010 by omega, show ¬ 0x052 + k ≤ 0x4F by omega,
    show ¬ 0x052 + k = 0x50 by omega, show ¬ 0x052 + k = 0x51 by omega, show 0x052 + k ≤ 0x55 by omega]

/-- A write of a register of a partition or of the module. -/
theorem csrWrite_reg {n : Nat} (h : 0x800 ≤ n) (x : Dword) (s : State) : csrWrite n x s = regWrite s.cur.pl.part n x s := by
  unfold csrWrite
  dsimp only
  repeat rw [if_neg (by simp; omega)]

/-! ## The instructions, register by register -/

section Instructions
variable {s : State} {h : Hdr} {d a b : Opd} {n : Nat}

/-- Of a partition's registers FLTHEAD and FLTTAIL alone are 32 bits wide. -/
theorem isWideReg_part (hn : isPartReg n = true) : isWideReg n = true ↔ ¬ (n = 0x841 ∨ n = 0x842) := by
  have hp := isPartReg_iff.mp hn
  have hm : isModReg n = false := Bool.eq_false_iff.mpr fun h => by have := isModReg_iff.mp h; omega
  simp [isWideReg, hn, hm, show n ≠ 0x010 by omega]

/-- CSRR of a register of the cohort that is 32 bits wide. -/
theorem csrr_word (hc : Calm s) (hm : activeMask h true s.cur ≠ 0#32)
    (hu : Usable s { uni := true, srcs := [(a, 1)], dsts := [(d, 1)] }) (hn : (src32 s none a).toNat = n)
    (hk : n = 0x002 ∨ n = 0x003 ∨ 0x040 ≤ n ∧ n ≤ 0x055) {v : Nat} (hv : csrRead s n = v) :
    exec (.csrr h d a) s = .next (finished h (gives (dstN d none 1 v) 0 (some 4) s)) := by
  have ha : isAssigned n = true := by simp [isAssigned, isCohortReg]; omega
  have hw : isWideReg n = false := by simp [isWideReg, isPartReg, isModReg]; omega
  rw [csrr_gives hc hm hu hn (csrTrap_read ha (by simp [hw]) (by omega)) (by omega), hw, hv]
  rfl

/-- CSRR of a 64-bit register. -/
theorem csrr_wide (hc : Calm s) (hm : activeMask h true s.cur ≠ 0#32)
    (hu : Usable s { uni := true, srcs := [(a, 1)], dsts := [(d, 1)] }) (hn : (src32 s none a).toNat = n)
    (ha : isAssigned n = true) (hw : isWideReg n = true) (hd : ¬ OddS d) (hp : 0x800 ≤ n → s.cur.pl.priv = true) {v : Nat}
    (hv : csrRead s n = v) :
    exec (.csrr h d a) s = .next (finished h (gives (dstN d none 2 v) 0 (some 4) s)) := by
  have h1 : n ≠ 0x001 := by rintro rfl; exact absurd hw (by decide)
  rw [csrr_gives hc hm hu hn (csrTrap_read ha (fun _ => hd) hp) h1, if_pos hw, hv]

/-- CSRR of a partition register. -/
theorem csrr_part (hc : Calm s) (hm : activeMask h true s.cur ≠ 0#32)
    (hu : Usable s { uni := true, srcs := [(a, 1)], dsts := [(d, 1)] }) (hn : (src32 s none a).toNat = n)
    (hr : isPartReg n = true) (hd : ¬ OddS d) (hp : s.cur.pl.priv = true) :
    exec (.csrr h d a) s = .next (finished h (gives
      (dstN d none (if n = 0x841 ∨ n = 0x842 then 1 else 2) (partReg (s.part s.cur.pl.part) n).toNat) 0 (some 4) s)) := by
  have ha : isAssigned n = true := by simp [isAssigned, hr]
  have h1 : n ≠ 0x001 := by rintro rfl; exact absurd hr (by decide)
  rw [csrr_gives hc hm hu hn (csrTrap_read ha (fun _ => hd) (fun _ => hp)) h1, csrRead_part hr]
  simp only [isWideReg_part hr, ite_not]

/-- CSRW of a 32-bit register of the cohort. -/
theorem csrw_word (hc : Calm s) (hm : activeMask h true s.cur ≠ 0#32) (hu : Usable s { uni := true, srcs := [(a, 1), (b, 1)] })
    (hn : (src32 s none a).toNat = n) (hk : n = 0x001 ∨ n = 0x002 ∨ n = 0x050 ∨ 0x052 ≤ n ∧ n ≤ 0x055)
    (hs : ownParked s = false ∧ ownTransit s = false) {t : State}
    (ht : csrWrite n ((src32 s none b).zeroExtend 64) (holding s) = t) :
    exec (.csrw h a b) s = .next (finished h t) := by
  have ha : isAssigned n = true := by simp [isAssigned, isCohortReg]; omega
  have hw : isWideReg n = false := by simp [isWideReg, isPartReg, isModReg]; omega
  have hro : isRoReg n = false := by simp [isRoReg]; omega
  have hbar : isBarReg n = false := by simp [isBarReg]; omega
  rw [csrw_writes hc hm hu hn (csrTrap_write ha hro hbar (by simp [hw]) (by omega)) (by omega) hs, hw, ← ht]
  rfl

/-- CSRW of a register of a partition or of the module that a privileged cohort may write. -/
theorem csrw_reg (hc : Calm s) (hm : activeMask h true s.cur ≠ 0#32) (hu : Usable s { uni := true, srcs := [(a, 1), (b, 1)] })
    (hn : (src32 s none a).toNat = n)
    (hk : n = 0x810 ∨ n = 0x822 ∨ n = 0x823 ∨ n = 0x840 ∨ 0x842 ≤ n ∧ n ≤ 0x845 ∨ 0x900 ≤ n ∧ n ≤ 0x9FF)
    (hp : s.cur.pl.priv = true) (hb : isWideReg n = true → ¬ OddS b) (hi : n = 0x810 → surfIdle s = true)
    (hs : ownParked s = false ∧ ownTransit s = false) {t : State}
    (ht : regWrite s.cur.pl.part n (if isWideReg n then src64 s none b else (src32 s none b).zeroExtend 64) (holding s) = t) :
    exec (.csrw h a b) s = .next (finished h t) := by
  have ha : isAssigned n = true := by simp [isAssigned, isPartReg, isModReg]; omega
  have hro : isRoReg n = false := by simp [isRoReg]; omega
  have hbar : isBarReg n = false := by simp [isBarReg]; omega
  rw [csrw_writes hc hm hu hn (csrTrap_write ha hro hbar hb fun _ => hp) hi hs, csrWrite_reg (by omega), ← ht]
  rfl

theorem extract_zeroExtend (w : Word) : (w.zeroExtend 64).extractLsb' 0 32 = w := by
  apply BitVec.eq_of_getLsbD_eq
  intro i hi
  rw [BitVec.getLsbD_extractLsb', BitVec.getLsbD_setWidth, Nat.zero_add]
  simp [hi, show i < 64 by omega]

/-- The bits of FPSTAT that are written 1 are cleared, and reserved ones are counted (R90, R91). -/
theorem csrWrite_fpstat (hc : Calm s) (w : Word) :
    csrWrite 0x001 (w.zeroExtend 64) (holding s) =
      let t := (holding s).updR fun r => { r with fpstat := r.fpstat &&& ~~~w }
      if w &&& 0xFFFF_FFC0#32 != 0#32 then t.countMisc s.cur.pl.part else t := by
  have ht : (holding s).updCur (clearFpstat w) = (holding s).updR fun r => { r with fpstat := r.fpstat &&& ~~~w } := by
    simp only [State.updCur, clearFpstat, drain_nil (c := (holding s).cur) hc.pend]
    rfl
  unfold csrWrite
  rw [if_pos (beq_self_eq_true _), extract_zeroExtend, ht]
  rfl

theorem csrWrite_drround (w : Word) (s : State) :
    csrWrite 0x002 (w.zeroExtend 64) s = s.updR fun r => { r with drround := w, seq := [] } := by
  unfold csrWrite writeDrround
  rw [if_neg (by decide), if_pos (beq_self_eq_true _), extract_zeroExtend]

theorem csrWrite_tdone (w : Word) (s : State) :
    csrWrite 0x050 (w.zeroExtend 64) s = s.updC fun c => { c with tdone := w } := by
  unfold csrWrite
  rw [if_neg (by decide), if_neg (by decide), if_pos (beq_self_eq_true _), extract_zeroExtend]

theorem csrWrite_tsave {k : Nat} (hk : k < 4) (w : Word) (s : State) :
    csrWrite (0x052 + k) (w.zeroExtend 64) s = s.updC fun c => { c with tsave := c.tsave.set k w } := by
  unfold csrWrite
  dsimp only
  repeat rw [if_neg (by simp; omega)]
  rw [if_pos (by simp; omega), Nat.add_sub_cancel_left, extract_zeroExtend]
  rfl

/-- A 64-bit partition register that CSRW writes. -/
theorem regWrite_wide {n : Nat} (hn : n = 0x822 ∨ n = 0x823 ∨ n = 0x840 ∨ n = 0x843 ∨ n = 0x844 ∨ 0x900 ≤ n ∧ n ≤ 0x9FF)
    (p : Nat) (x z : Dword) (s : State) :
    regWrite p n (if isWideReg n then x else z) s =
      countRsv p (partAcc n) x (s.updPart p fun y => putPartReg n ((partAcc n).put (partReg y n) x) y) := by
  have hr : isPartReg n = true := isPartReg_iff.mpr (by omega)
  rw [if_pos ((isWideReg_part hr).mpr (by omega)), regWrite_part hr (by omega) (by omega)]

/-- FLTTAIL is written by the low half of an operand of 32 bits. -/
theorem regWrite_fltTail (p : Nat) (w : Word) (s : State) :
    regWrite p 0x842 (w.zeroExtend 64) s = s.updPart p fun y => { y with fltTail := w } := by
  have hput : ∀ y : Part, putPartReg 0x842 ((partAcc 0x842).put (partReg y 0x842) (w.zeroExtend 64)) y = { y with fltTail := w } :=
    fun y => congrArg (fun v => { y with fltTail := v }) ((put_fltTail y.fltTail _).trans (extract_zeroExtend w))
  rw [regWrite_part (by decide) (by decide) (by decide), countRsv, if_neg (by simp [show (partAcc 0x842).rsv = 0#64 from rfl])]
  simp only [hput]

end Instructions

/-! ## The events of BAR0, and the statement -/

@[simp] theorem wake_cur_r (s : State) : s.wake.cur.r = s.cur.r := by
  simp only [State.wake, State.updCohorts]
  split <;> rfl

theorem exec_rsvsurfWrite (p : Nat) (x : Dword) (s : State) :
    exec (.rsvsurfWrite p x) s = .next (State.wake (if surfIdle s then writeRsvsurf p x s else s)) := rfl

theorem exec_registerWrite (off : Nat) (x : Dword) (s : State) :
    exec (.registerWrite off x) s = .next (State.wake (match barReg off with | some (p, n) => regWrite p n x s | none => s)) := rfl

/-- Settles O48. CSRR and CSRW come to `csrr_traps`, `csrr_gives`, `csrw_traps` and `csrw_writes`, by the trap that the number
raises; then each register is read and written by its own lemma, and the writes of BAR0 by those of `regWrite`. -/
theorem controlRegisters : Obligations.ControlRegisters := by
  unfold Obligations.ControlRegisters
  refine ⟨fun h d a b s hc hm => ?_, ?_, ?_, ?_, ?_, ?_, ?_⟩
  · intro n p trapped oddAt reads writes u still takes gave misc w
    have hn : (src32 s none a).toNat = n := rfl
    refine ⟨fun hu ht => ?_, fun hu hs ht => ?_, fun hu ha hw h8 hp => ?_, fun hu hs ha hro hw hb => ?_, fun hu => ?_, fun hu => ?_⟩
    · exact csrr_traps hc hm hu (csrTrap_illegal s (ht.imp_right .inr))
    · exact csrw_traps hc hm hu hs (csrTrap_illegal s (ht.imp_right (.imp_left fun h => ⟨rfl, h⟩)))
    · exact csrr_traps hc hm hu (csrTrap_privilege ha (by simp) hw (.inl ⟨h8, hp⟩))
    · exact csrw_traps hc hm hu hs (csrTrap_privilege ha (fun _ => hro) hw (hb.symm.imp_right fun h => ⟨rfl, h⟩))
    · refine ⟨csrr_fpstat hc hm hu, fun h2 => ?_, fun h3 => ?_, fun k r hk hk' hr => ?_, fun h50 => ?_,
        fun h51 => ?_, fun k hk hk' => ?_, fun hd => ⟨fun h10 => ?_, fun hp hr => ?_, fun hp hr => ?_⟩⟩
      · exact csrr_word hc hm hu (hn.trans h2) (by decide) rfl
      · exact csrr_word hc hm hu (hn.trans h3) (by decide) rfl
      · exact csrr_word hc hm hu (hn.trans hk') (by omega) (csrRead_trec hk hr)
      · exact csrr_word hc hm hu (hn.trans h50) (by decide) rfl
      · exact csrr_word hc hm hu (hn.trans h51) (by decide) rfl
      · exact csrr_word hc hm hu (hn.trans hk') (by omega) (csrRead_tsave hk)
      · exact csrr_wide hc hm hu (hn.trans h10) rfl rfl hd (fun h => absurd h (by decide)) rfl
      · exact csrr_part hc hm hu hn hr hd hp
      · exact csrr_wide hc hm hu hn (by simp [isAssigned, hr]) (by simp [isWideReg, hr]) hd (fun _ => hp) (csrRead_mod hr)
    · refine ⟨fun h1 hs => ?_, fun h2 hs => ?_, fun h50 hs => ?_, fun k hk hk' hs => ?_, fun hp h842 hs => ?_, fun hr hp hb hs => ?_,
        fun h810 hp hb hi hs => ?_, fun h845 hp hb hs => ?_⟩
      · exact csrw_word hc hm hu (hn.trans h1) (by decide) hs (csrWrite_fpstat hc _)
      · exact csrw_word hc hm hu (hn.trans h2) (by decide) hs (csrWrite_drround _ _)
      · exact csrw_word hc hm hu (hn.trans h50) (by decide) hs (csrWrite_tdone _ _)
      · exact csrw_word hc hm hu (hn.trans hk') (by omega) hs (csrWrite_tsave hk _ _)
      · exact csrw_reg hc hm hu (hn.trans h842) (by decide) hp (fun h => absurd h (by decide))
          (fun h => absurd h (by decide)) hs (regWrite_fltTail _ _ _)
      · exact csrw_reg hc hm hu hn (by omega) hp (fun _ => hb) (by omega) hs (regWrite_wide (by omega) _ _ _ _)
      · exact csrw_reg hc hm hu (hn.trans h810) (by decide) hp (fun _ => hb) (fun _ => hi) hs rfl
      · exact csrw_reg hc hm hu (hn.trans h845) (by decide) hp (fun _ => hb) (fun h => absurd h (by decide)) hs rfl
  · exact fun x s => ⟨_, rfl, by rw [wake_cur_r]; rfl, fun i => by rw [wake_cur_r]; rfl⟩
  · intro p x s hp
    rw [exec_rsvsurfWrite]
    refine ⟨fun hi => ?_, fun hi ⟨he, ho⟩ => ?_, fun hi ho => ?_⟩
    · rw [hi]
      rfl
    · rw [hi, if_pos rfl, writeRsvsurf_other he ho]
      exact ⟨_, rfl, rfl, rfl⟩
    · rw [hi, if_pos rfl]
      exact ⟨_, rfl, writeRsvsurf_leaves hp ho⟩
  · exact fun x s => ⟨_, rfl, writePwrctl_limit x s, writePwrctl_rest x s⟩
  · intro x s
    exact ⟨_, rfl, writeCarve_leaves x s⟩
  · intro p x s
    exact ⟨_, rfl, writeCqdisc_leaves p x s⟩
  · intro off x s hlen hpr
    rw [exec_registerWrite]
    refine ⟨fun hb => by rw [hb], fun p n hb => ?_⟩
    rw [hb]
    have hp : p < s.parts.length := hlen ▸ barReg_lt hb
    have hmem : s.part p ∈ s.parts := by simp [State.part, nth, hp]
    refine ⟨fun hr h820 h845 => ⟨_, rfl, regWrite_part_reads hr h820 h845 hp (hpr _ hmem) x⟩, fun h => ?_, fun h => ?_⟩
    · subst h
      exact ⟨_, rfl, regWrite_qdt p x s⟩
    · subst h
      exact ⟨_, rfl, regWrite_fabid p x s⟩

end Sys2Proof.Machine
end

section
/-! SUPPORT. Codec: the fields of an instruction word, what the readers of decode find in the fields of the encoder, and the statements on encoding (R25 to R47). -/

namespace Sys2Proof

/-! ## Fields of a concatenation -/

section Fields
variable {v w l n s i : Nat} {x : BitVec v} {y : BitVec w}

theorem field_low : (x ++ y).extractLsb' 0 w = y := BitVec.extractLsb'_append_eq_right

theorem field_high {z : BitVec l} (h : w ≤ s) (hz : x.extractLsb' (s - w) l = z) : (x ++ y).extractLsb' s l = z :=
  (BitVec.extractLsb'_append_eq_of_le h).trans hz

theorem bit_high {b : Bool} (h : w ≤ i) (hb : x.getLsbD (i - w) = b) : (x ++ y).getLsbD i = b := by
  rw [BitVec.getLsbD_append, if_neg (by omega), hb]

theorem getLsbD_bit (b : Bool) : (bit b).getLsbD 0 = b := by cases b <;> rfl

theorem bit_low {b : Bool} : (x ++ bit b).getLsbD 0 = b := by
  rw [BitVec.getLsbD_append, if_pos Nat.one_pos, getLsbD_bit]

end Fields

namespace Raw

/-- The fields of the word of some fields are those fields. -/
theorem ofWord_word (r : Raw) : ofWord r.word = r := by
  obtain ⟨op, fmt, guard, d, a, b, imm, mod, sched⟩ := r
  have up {v w s l : Nat} {x : BitVec v} {y : BitVec w} {z : BitVec l} (hz : x.extractLsb' s l = z) :
      (x ++ y).extractLsb' (s + w) l = z := field_high (Nat.le_add_left _ _) (by simpa using hz)
  exact (Raw.mk.injEq ..).mpr ⟨field_low, up field_low, up (up field_low), up (up (up field_low)), up (up (up (up field_low))),
    up (up (up (up (up field_low)))), up (up (up (up (up (up field_low))))), up (up (up (up (up (up (up field_low)))))),
    up (up (up (up (up (up (up (up BitVec.extractLsb'_eq_self)))))))⟩

/-- The word of the fields of a word is that word. -/
theorem word_ofWord (w : BitVec 96) : (ofWord w).word = w := by
  have join (s l m : Nat) (h : m = s + l) (k : Nat) : w.extractLsb' m k ++ w.extractLsb' s l = w.extractLsb' s (k + l) :=
    BitVec.extractLsb'_append_extractLsb'_eq_extractLsb' h
  show w.extractLsb' 90 6 ++ w.extractLsb' 78 12 ++ w.extractLsb' 46 32 ++ w.extractLsb' 36 10 ++ w.extractLsb' 26 10
    ++ w.extractLsb' 16 10 ++ w.extractLsb' 12 4 ++ w.extractLsb' 8 4 ++ w.extractLsb' 0 8 = w
  rw [join 78 12 90 rfl, join 46 32 78 rfl, join 36 10 46 rfl, join 26 10 36 rfl, join 16 10 26 rfl, join 12 4 16 rfl,
    join 8 4 12 rfl, join 0 8 8 rfl]
  exact BitVec.extractLsb'_eq_self

end Raw


/-! ## Codes and layouts -/

@[simp] theorem Ty.ofCode_code (t : Ty) : Ty.ofCode t.code = some t := by cases t <;> rfl
@[simp] theorem Rnd.ofCode_code (r : Rnd) : Rnd.ofCode r.code = r := by cases r <;> rfl
@[simp] theorem Scope.ofCode_code (s : Scope) : Scope.ofCode s.code = some s := by cases s <;> rfl
@[simp] theorem Order.ofCode_code (o : Order) : Order.ofCode o.code = o := by cases o <;> rfl
@[simp] theorem Cache.ofCode_code (c : Cache) : Cache.ofCode c.code = c := by cases c <;> rfl
@[simp] theorem Space.ofCode_code (s : Space) : Space.ofCode s.code = s := by cases s <;> rfl
@[simp] theorem ICmp.ofCode_code (c : ICmp) : ICmp.ofCode c.code = some c := by cases c <;> rfl
@[simp] theorem FCmp.ofCode_code (c : FCmp) : FCmp.ofCode c.code = some c := by cases c <;> rfl
@[simp] theorem ShflOp.ofCode_code (o : ShflOp) : ShflOp.ofCode o.code = some o := by cases o <;> rfl
@[simp] theorem VoteOp.ofCode_code (o : VoteOp) : VoteOp.ofCode o.code = some o := by cases o <;> rfl
@[simp] theorem FoldOp.ofCode_code (o : FoldOp) : FoldOp.ofCode o.code = some o := by cases o <;> rfl
@[simp] theorem LmOp.ofCode_code (o : LmOp) : LmOp.ofCode o.code = some o := by cases o <;> rfl
@[simp] theorem AtomOp.ofCode_code (o : AtomOp) : AtomOp.ofCode o.code = some o := by cases o <;> rfl

theorem bind_of_eq {α β : Type} {o : Option α} {x : α} {k : α → Option β} {r : Option β} (h : o = some x) (hk : k x = r) :
    o.bind k = r := by rw [h]; exact hk

/-- A TYPE code in the low four bits. -/
theorem Ty.ofCode_low {v : Nat} (x : BitVec v) (t : Ty) : Ty.ofCode ((x ++ t.code).extractLsb' 0 4) = some t := by
  rw [field_low, ofCode_code]

@[simp] theorem AMod.of_bits (m : AMod) : AMod.of m.bits = some m := by
  have hty : Ty.ofCode (m.bits.extractLsb' 0 4) = some m.ty := Ty.ofCode_low _ _
  have hrnd : m.bits.extractLsb' 4 2 = m.rnd.code := field_high (by decide) field_low
  have hsat : m.bits.getLsbD 6 = m.sat := bit_high (by decide) (bit_high (by decide) bit_low)
  have hftz : m.bits.getLsbD 7 = m.ftz := bit_high (by decide) (bit_high (by decide) (bit_high (by decide) bit_low))
  have hx : m.bits.extractLsb' 8 4 = m.x :=
    field_high (by decide) (field_high (by decide) (field_high (by decide) (field_high (by decide) BitVec.extractLsb'_eq_self)))
  refine bind_of_eq hty ?_
  rw [hrnd, hsat, hftz, hx, Rnd.ofCode_code]

@[simp] theorem MMod.of_bits (m : MMod) : MMod.of m.bits = some m := by
  have hty : Ty.ofCode (m.bits.extractLsb' 0 4) = some m.ty := Ty.ofCode_low _ _
  have hsc : m.bits.extractLsb' 4 3 = m.scope.code := field_high (by decide) field_low
  have hord : m.bits.extractLsb' 7 2 = m.order.code := field_high (by decide) (field_high (by decide) field_low)
  have hca : m.bits.extractLsb' 9 2 = m.cache.code :=
    field_high (by decide) (field_high (by decide) (field_high (by decide) field_low))
  have hx : m.bits.getLsbD 11 = m.x :=
    bit_high (by decide) (bit_high (by decide) (bit_high (by decide) (bit_high (by decide) (getLsbD_bit m.x))))
  refine bind_of_eq hty (bind_of_eq (hsc ▸ Scope.ofCode_code _) ?_)
  rw [hord, hca, hx, Order.ofCode_code, Cache.ofCode_code]

section Courier
variable (m : CMod) (x : Bool) (e : BitVec 4)

theorem CMod.bits_entry : (m.bits x e).extractLsb' 0 4 = e := field_low
theorem CMod.bits_seven : (m.bits x e).getLsbD 7 = x := bit_high (by decide) (bit_high (by decide) bit_low)

theorem CMod.of_bits : CMod.of (m.bits x e) = some m := by
  have hsc : (m.bits x e).extractLsb' 4 3 = m.scope.code := field_high (by decide) field_low
  have hs : (m.bits x e).extractLsb' 8 2 = m.ssp.code :=
    field_high (by decide) (field_high (by decide) (field_high (by decide) field_low))
  have hd : (m.bits x e).extractLsb' 10 2 = m.dsp.code := field_high (by decide) (field_high (by decide)
    (field_high (by decide) (field_high (by decide) BitVec.extractLsb'_eq_self)))
  refine bind_of_eq (hsc ▸ Scope.ofCode_code _) ?_
  rw [hs, hd, Space.ofCode_code, Space.ofCode_code]

end Courier

section Barrier
variable (m : BMod) (x : Bool)

theorem BMod.bits_eleven : (m.bits x).getLsbD 11 = x :=
  bit_high (by decide) (bit_high (by decide) (bit_high (by decide) (bit_high (by decide) (getLsbD_bit x))))

theorem BMod.of_bits : BMod.of (m.bits x) = some m := by
  have hsc : (m.bits x).extractLsb' 4 3 = m.scope.code := field_high (by decide) field_low
  have hs : (m.bits x).extractLsb' 9 2 = m.space.code :=
    field_high (by decide) (field_high (by decide) (field_high (by decide) field_low))
  refine bind_of_eq (hsc ▸ Scope.ofCode_code _) ?_
  rw [hs, Space.ofCode_code]

end Barrier

theorem CvtMod.of_bits (m : CvtMod) : CvtMod.of m.bits m.imm = m := by
  have hdf : m.imm.extractLsb' 0 5 = m.df := field_low
  have hb : m.imm.getLsbD 5 = m.b16 := bit_high (by decide) bit_low
  have hsf : m.imm.extractLsb' 8 5 = m.sf := field_high (by decide) (field_high (by decide) (field_high (by decide) field_low))
  have hrnd : m.bits.extractLsb' 4 2 = m.rnd.code := field_high (by decide) field_low
  have hsat : m.bits.getLsbD 6 = m.sat := bit_high (by decide) (bit_high (by decide) bit_low)
  have hftz : m.bits.getLsbD 7 = m.ftz := bit_high (by decide) (bit_high (by decide) (bit_high (by decide) bit_low))
  rw [CvtMod.of, hdf, hb, hsf, hrnd, hsat, hftz, Rnd.ofCode_code]

theorem scopeBits_scope (sc : Scope) : Scope.ofCode ((scopeBits sc).extractLsb' 4 3) = some sc := by
  rw [show (scopeBits sc).extractLsb' 4 3 = sc.code from field_high (by decide) field_low, Scope.ofCode_code]

/-! ## Operands (R27, R28, R30) -/

/-- The field of an operand, with an IMM word, reads as that operand. -/
def Reads (imm : Word) (o : Opd) : Prop := opd o.field imm = some o

/-- Every operand reads, if it is not left out and IMM holds its literal when it is one. -/
theorem reads_of {imm : Word} {o : Opd} (hn : o.cls ≠ .none) (hl : ∀ x, o = .lit x → imm = x) : Reads imm o := by
  have up {v w l s : Nat} {x : BitVec v} {y : BitVec w} : (x ++ y).extractLsb' (s + w) l = x.extractLsb' s l :=
    (BitVec.extractLsb'_append_eq_of_le (Nat.le_add_left _ _)).trans (by simp)
  have low_bit {x : BitVec 4} {f : BitVec 10} (h : f.extractLsb' 4 4 = x) :
      f.extractLsb' 3 5 = x ++ 0#1 ∨ f.extractLsb' 3 5 = x ++ 1#1 := by
    have hb : ∀ b : BitVec 1, b = 0#1 ∨ b = 1#1 := by decide
    rw [← h, ← show _ = f.extractLsb' 3 5 from BitVec.extractLsb'_append_extractLsb'_eq_extractLsb' (start₂ := 4) (len₂ := 4) (len₁ := 1) rfl]
    exact (hb (f.extractLsb' 3 1)).imp (congrArg _) (congrArg _)
  cases o with
  | none => exact absurd rfl hn
  | lit x =>
    rw [hl x rfl]
    exact show opd 0x3FE#10 x = some (.lit x) from rfl
  | zr => rfl
  | v n =>
    rw [Reads, opd, show (Opd.v n).field.extractLsb' 8 2 = 0#2 from up, show (Opd.v n).field.extractLsb' 0 8 = n from field_low]
    rfl
  | imm n =>
    rw [Reads, opd, show (Opd.imm n).field.extractLsb' 8 2 = 2#2 from up, show (Opd.imm n).field.extractLsb' 0 8 = n from field_low]
    rfl
  | s n =>
    rw [Reads, opd, show (Opd.s n).field.extractLsb' 8 2 = 1#2 from up (s := 1), show (Opd.s n).field.extractLsb' 0 7 = n from field_low,
      show (Opd.s n).field.getLsbD 7 = false from bit_high (by decide) rfl]
    rfl
  | sp n =>
    rw [Reads, opd, show (Opd.sp n).field.extractLsb' 8 2 = 1#2 from up (s := 1), show (Opd.sp n).field.extractLsb' 0 7 = n from field_low,
      show (Opd.sp n).field.getLsbD 7 = true from bit_high (by decide) rfl]
    rfl
  | p n =>
    rw [Reads, opd, show (Opd.p n).field.extractLsb' 8 2 = 3#2 from up (s := 5), show (Opd.p n).field.extractLsb' 3 5 = 0#5 from up (s := 0),
      show (Opd.p n).field.extractLsb' 0 3 = n from field_low]
    rfl
  | q n =>
    rw [Reads, opd, show (Opd.q n).field.extractLsb' 8 2 = 3#2 from up (s := 5), show (Opd.q n).field.extractLsb' 3 5 = 1#5 from up (s := 0),
      show (Opd.q n).field.extractLsb' 0 3 = n from field_low]
    rfl
  | pl n =>
    have hf := low_bit (x := 1#4) (f := (Opd.pl n).field) (up (s := 0))
    rw [Reads, opd, show (Opd.pl n).field.extractLsb' 8 2 = 3#2 from up (s := 4), show (Opd.pl n).field.extractLsb' 0 4 = n from field_low]
    rcases hf with hf | hf <;> rw [hf] <;> rfl
  | z n =>
    have hf := low_bit (x := 2#4) (f := (Opd.z n).field) (up (s := 0))
    rw [Reads, opd, show (Opd.z n).field.extractLsb' 8 2 = 3#2 from up (s := 4), show (Opd.z n).field.extractLsb' 0 4 = n from field_low]
    rcases hf with hf | hf <;> rw [hf] <;> rfl

end Sys2Proof

namespace Sys2Proof

/-! ## Operands that pass the checks of an entry -/

section Checks
variable {imm : Word} {o : Opd} {cs : List Cls} {k : Nat}

theorem cls_mem_of_ok (h : o.ok cs k = true) : o.cls ∈ cs := by
  simp only [Opd.ok, Bool.and_eq_true, List.contains_iff_mem] at h
  exact h.1

theorem reads_of_cls (hn : o.cls ≠ .none) (hl : o.cls ≠ .lit) : Reads imm o :=
  reads_of hn fun x hx => absurd (by rw [hx]; rfl) hl

/-- An operand of classes without a literal reads whatever IMM holds. -/
theorem reads_ok (h : o.ok cs k = true) (hc : Cls.none ∉ cs ∧ Cls.lit ∉ cs := by decide) : Reads imm o :=
  reads_of_cls (fun hn => hc.1 (hn ▸ cls_mem_of_ok h)) fun hl => hc.2 (hl ▸ cls_mem_of_ok h)

theorem reads_cls {c : Cls} (h : (o.cls == c) = true) (hc : c ≠ .none ∧ c ≠ .lit := by decide) : Reads imm o :=
  reads_of_cls (eq_of_beq h ▸ hc.1) (eq_of_beq h ▸ hc.2)

/-- The one operand of an entry that may name the literal. -/
theorem reads_lit (h : o.ok cs k = true) (hc : Cls.none ∉ cs := by decide) : Reads (litOf [o]) o :=
  reads_of (fun hn => hc (hn ▸ cls_mem_of_ok h)) fun x hx => by rw [hx]; rfl

end Checks

/-- With at most one literal among them, every source reads with the IMM word of the literal (R30). -/
theorem reads_litOf {l : List Opd} (hn : ∀ o ∈ l, o.cls ≠ .none) (hl : litOk l = true) : ∀ o ∈ l, Reads (litOf l) o := by
  induction l with
  | nil => simp
  | cons a l ih =>
    have ha : a.cls ≠ .none := hn a (by simp)
    have hn' : ∀ o ∈ l, o.cls ≠ .none := fun o ho => hn o (by simp [ho])
    by_cases hlit : ∃ x, a = .lit x
    · obtain ⟨x, rfl⟩ := hlit
      have hrest : ∀ o ∈ l, o.cls ≠ .lit := by simpa [litOk, Opd.cls] using hl
      intro o ho
      rcases List.mem_cons.mp ho with rfl | ho
      · exact reads_of ha fun y hy => by cases hy; rfl
      · exact reads_of_cls (hn' o ho) (hrest o ho)
    · have hcls : a.cls ≠ .lit := by cases a <;> simp_all [Opd.cls]
      have hlit' : litOf (a :: l) = litOf l := by cases a <;> simp_all [litOf]
      have hl' : litOk l = true := by simpa [litOk, hcls] using hl
      intro o ho
      rcases List.mem_cons.mp ho with rfl | ho
      · exact reads_of_cls ha hcls
      · exact hlit' ▸ ih hn' hl' o ho

theorem guard_ne {h : Hdr} (hh : h.ok = true) : h.g.bits ≠ 0xF#4 := by
  have hg : ∀ (neg : Bool) (idx : BitVec 3), Guard.ok ⟨neg, idx⟩ = true → Guard.bits ⟨neg, idx⟩ ≠ 0xF#4 := by decide
  exact hg h.g.neg h.g.idx hh

/-! ## The readers of an entry's operands on the fields that the encoder puts there -/

section Readers
variable {h : Hdr} {op : BitVec 8} {fmt : BitVec 4} {d a b c : Opd} {imm : Word} {mod : BitVec 12}

theorem hdr_mkRaw : (mkRaw h op fmt d a b imm mod).hdr = h := by
  obtain ⟨⟨neg, idx⟩, ⟨sw, fwd, stall⟩⟩ := h
  have hneg : (Guard.bits ⟨neg, idx⟩).getLsbD 3 = neg := bit_high (by decide) (getLsbD_bit neg)
  have hidx : (Guard.bits ⟨neg, idx⟩).extractLsb' 0 3 = idx := field_low
  have hsw : (Sched.bits ⟨sw, fwd, stall⟩).getLsbD 5 = sw := bit_high (by decide) (bit_high (by decide) (getLsbD_bit sw))
  have hfwd : (Sched.bits ⟨sw, fwd, stall⟩).extractLsb' 3 2 = fwd := field_high (by decide) field_low
  have hstall : (Sched.bits ⟨sw, fwd, stall⟩).extractLsb' 0 3 = stall := field_low
  simp only [Raw.hdr, mkRaw, hneg, hidx, hsw, hfwd, hstall]

theorem opC_mkRaw (hc : Reads (immC c) c) : (mkRaw h op fmt d a b (immC c) mod).opC = some c := by
  rw [Raw.opC, show (mkRaw h op fmt d a b (immC c) mod).imm.extractLsb' 0 10 = c.field from field_low]
  exact hc

variable {i : Instr}

theorem u1_mkRaw {k : Hdr → Opd → Instr} (hd : Reads imm d) (hi : k h d = i) : (mkRaw h op fmt d a b imm mod).u1 k = some i :=
  bind_of_eq hd (congrArg some (hdr_mkRaw ▸ hi))

theorem ua_mkRaw {k : Hdr → Opd → Instr} (ha : Reads imm a) (hi : k h a = i) : (mkRaw h op fmt d a b imm mod).ua k = some i :=
  bind_of_eq ha (congrArg some (hdr_mkRaw ▸ hi))

theorem u2_mkRaw {k : Hdr → Opd → Opd → Instr} (hd : Reads imm d) (ha : Reads imm a) (hi : k h d a = i) :
    (mkRaw h op fmt d a b imm mod).u2 k = some i :=
  bind_of_eq hd (bind_of_eq ha (congrArg some (hdr_mkRaw ▸ hi)))

theorem uab_mkRaw {k : Hdr → Opd → Opd → Instr} (ha : Reads imm a) (hb : Reads imm b) (hi : k h a b = i) :
    (mkRaw h op fmt d a b imm mod).uab k = some i :=
  bind_of_eq ha (bind_of_eq hb (congrArg some (hdr_mkRaw ▸ hi)))

theorem u3_mkRaw {k : Hdr → Opd → Opd → Opd → Instr} (hd : Reads imm d) (ha : Reads imm a) (hb : Reads imm b)
    (hi : k h d a b = i) : (mkRaw h op fmt d a b imm mod).u3 k = some i :=
  bind_of_eq hd (bind_of_eq ha (bind_of_eq hb (congrArg some (hdr_mkRaw ▸ hi))))

theorem u4_mkRaw {k : Hdr → Opd → Opd → Opd → Opd → Instr} (hd : Reads (immC c) d) (ha : Reads (immC c) a)
    (hb : Reads (immC c) b) (hc : Reads (immC c) c) (hi : k h d a b c = i) :
    (mkRaw h op fmt d a b (immC c) mod).u4 k = some i :=
  bind_of_eq hd (bind_of_eq ha (bind_of_eq hb (bind_of_eq (opC_mkRaw hc) (congrArg some (hdr_mkRaw ▸ hi)))))

theorem uabc_mkRaw {k : Hdr → Opd → Opd → Opd → Instr} (ha : Reads (immC c) a) (hb : Reads (immC c) b) (hc : Reads (immC c) c)
    (hi : k h a b c = i) : (mkRaw h op fmt d a b (immC c) mod).uabc k = some i :=
  bind_of_eq ha (bind_of_eq hb (bind_of_eq (opC_mkRaw hc) (congrArg some (hdr_mkRaw ▸ hi))))

theorem ar1_mkRaw {m : AMod} {k : Hdr → AMod → Opd → Opd → Instr} (hr : ∀ o ∈ [d, a], Reads imm o) :
    (mkRaw h op fmt d a b imm m.bits).ar1 k = some (k h m d a) :=
  bind_of_eq (AMod.of_bits m) (u2_mkRaw (k := fun h d a => k h m d a) (hr d (by simp)) (hr a (by simp)) rfl)

theorem ar2_mkRaw {m : AMod} {k : Hdr → AMod → Opd → Opd → Opd → Instr} (hr : ∀ o ∈ [d, a, b], Reads imm o) :
    (mkRaw h op fmt d a b imm m.bits).ar2 k = some (k h m d a b) :=
  bind_of_eq (AMod.of_bits m) (u3_mkRaw (k := fun h d a b => k h m d a b) (hr d (by simp)) (hr a (by simp)) (hr b (by simp)) rfl)

theorem ar3_mkRaw {m : AMod} {k : Hdr → AMod → Opd → Opd → Opd → Opd → Instr} (hr : ∀ o ∈ [d, a, b, c], Reads (immC c) o) :
    (mkRaw h op fmt d a b (immC c) m.bits).ar3 k = some (k h m d a b c) :=
  bind_of_eq (AMod.of_bits m) (u4_mkRaw (k := fun h d a b c => k h m d a b c) (hr d (by simp)) (hr a (by simp)) (hr b (by simp))
    (hr c (by simp)) rfl)

theorem ldr_mkRaw {m : MMod} {k : Hdr → MMod → Opd → Opd → Word → Instr} (hd : Reads imm d) (ha : Reads imm a) :
    (mkRaw h op fmt d a b imm m.bits).ldr k = some (k h m d a imm) :=
  bind_of_eq (MMod.of_bits m) (u2_mkRaw (k := fun h d a => k h m d a imm) hd ha rfl)

theorem str_mkRaw {m : MMod} {k : Hdr → MMod → Opd → Opd → Word → Instr} (ha : Reads imm a) (hb : Reads imm b) :
    (mkRaw h op fmt d a b imm m.bits).str k = some (k h m a b imm) :=
  bind_of_eq (MMod.of_bits m) (uab_mkRaw (k := fun h a b => k h m a b imm) ha hb rfl)

/-- C of an atomic is read for .cas alone, where IMM holds it. -/
theorem at4_mkRaw {m : MMod} {aop : AtomOp} {k : Hdr → MMod → AtomOp → Opd → Opd → Opd → Opd → Instr}
    (hd : Reads (immAtom aop b c) d) (ha : Reads (immAtom aop b c) a) (hb : Reads (immAtom aop b c) b)
    (hc : if aop = .cas then Reads (immAtom aop b c) c else c = .none) :
    (mkRaw h op aop.code d a b (immAtom aop b c) m.bits).at4 k = some (k h m aop d a b c) := by
  refine bind_of_eq (AtomOp.ofCode_code aop) (bind_of_eq (MMod.of_bits m) (bind_of_eq hd (bind_of_eq ha (bind_of_eq hb ?_))))
  have hi : ∀ c, some (k (mkRaw h op aop.code d a b (immAtom aop b c) m.bits).hdr m aop d a b c) = some (k h m aop d a b c) :=
    fun c => congrArg (fun h => some (k h m aop d a b c)) hdr_mkRaw
  by_cases hop : aop = .cas
  · subst hop
    exact bind_of_eq (opC_mkRaw hc) (hi c)
  · rw [if_neg hop] at hc
    subst hc
    exact (if_neg (by simpa using hop)).trans (hi .none)

end Readers

/-! ## Entries that share their checks -/

section Families
variable {h : Hdr} {m : AMod} {tys : List Ty} {rnd sat ftz : Bool} {xm : BitVec 4} {dc : List Cls} {d : Opd} {kd k : Nat} {imm : Word}

theorem intOk_lit {srcs : List (Opd × Nat)} (hw : intOk h m tys sat d kd srcs true = true) :
    h.ok = true ∧ ∀ o ∈ d :: srcs.map Prod.fst, Reads (litOf (srcs.map Prod.fst)) o := by
  simp only [intOk, Bool.and_eq_true, List.all_eq_true] at hw
  obtain ⟨⟨⟨⟨⟨hh, -⟩, hd⟩, hs⟩, -⟩, hl⟩ := hw
  refine ⟨hh, List.forall_mem_cons.mpr ⟨reads_ok hd, reads_litOf (fun o ho hn => ?_) hl⟩⟩
  obtain ⟨e, he, rfl⟩ := List.mem_map.mp ho
  exact absurd (hn ▸ cls_mem_of_ok (hs e he)) (by decide)

theorem intOk_imm {srcs : List (Opd × Nat)} (hw : intOk h m tys sat d kd srcs false = true) :
    h.ok = true ∧ ∀ o ∈ d :: srcs.map Prod.fst, Reads imm o := by
  simp only [intOk, Bool.and_eq_true, List.all_eq_true] at hw
  obtain ⟨⟨⟨⟨⟨hh, -⟩, hd⟩, hs⟩, -⟩, -⟩ := hw
  refine ⟨hh, List.forall_mem_cons.mpr ⟨reads_ok hd, fun o ho => ?_⟩⟩
  obtain ⟨e, he, rfl⟩ := List.mem_map.mp ho
  exact reads_ok (hs e he)

theorem logicOk_reads {srcs : List Opd} (hw : logicOk h m d srcs = true) :
    h.ok = true ∧ ∀ o ∈ d :: srcs, Reads (litOf srcs) o := by
  unfold logicOk at hw
  split at hw
  · next hc =>
    simp only [Bool.and_eq_true, List.all_eq_true, beq_iff_eq] at hw
    obtain ⟨⟨hh, -⟩, hs⟩ := hw
    have hd : d.cls ≠ .none ∧ d.cls ≠ .lit := by
      rcases Bool.or_eq_true_iff.mp hc with hc | hc <;> rw [eq_of_beq hc] <;> decide
    exact ⟨hh, List.forall_mem_cons.mpr ⟨reads_of_cls hd.1 hd.2, fun o ho => reads_of_cls (hs o ho ▸ hd.1) (hs o ho ▸ hd.2)⟩⟩
  · have := intOk_lit hw
    simpa [List.map_map, Function.comp_def] using this

theorem fpOk_lit {srcs : List Opd} (hw : fpOk h m tys rnd sat ftz xm dc k d srcs true = true)
    (hc : Cls.none ∉ dc ∧ Cls.lit ∉ dc := by decide) : h.ok = true ∧ ∀ o ∈ d :: srcs, Reads (litOf srcs) o := by
  simp only [fpOk, Bool.and_eq_true, List.all_eq_true] at hw
  obtain ⟨⟨⟨⟨⟨hh, -⟩, hd⟩, hs⟩, -⟩, hl⟩ := hw
  exact ⟨hh, List.forall_mem_cons.mpr ⟨reads_ok hd hc, reads_litOf (fun o ho hn => absurd (hn ▸ cls_mem_of_ok (hs o ho)) (by decide)) hl⟩⟩

theorem fpOk_imm {srcs : List Opd} (hw : fpOk h m tys rnd sat ftz xm dc k d srcs false = true)
    (hc : Cls.none ∉ dc ∧ Cls.lit ∉ dc := by decide) : h.ok = true ∧ ∀ o ∈ d :: srcs, Reads imm o := by
  simp only [fpOk, Bool.and_eq_true, List.all_eq_true] at hw
  obtain ⟨⟨⟨⟨⟨hh, -⟩, hd⟩, hs⟩, -⟩, -⟩ := hw
  exact ⟨hh, List.forall_mem_cons.mpr ⟨reads_ok hd hc, fun o ho => reads_ok (hs o ho)⟩⟩

theorem atomOk_reads {m : MMod} {op : AtomOp} {b c : Opd} (hw : atomOk h m op b c = true) :
    h.ok = true ∧ Reads (immAtom op b c) b ∧ if op = .cas then Reads (immAtom op b c) c else c = .none := by
  simp only [atomOk, Bool.and_eq_true] at hw
  obtain ⟨⟨hh, hb⟩, hc⟩ := hw
  refine ⟨hh, ?_⟩
  by_cases hop : op = .cas
  · subst hop
    refine ⟨?_, ?_⟩
    · split at hb <;> exact reads_ok hb
    · rw [if_pos rfl]
      split at hc
      · split at hc <;> exact reads_ok hc
      · next h' => exact absurd rfl h'
  · have hop' : ¬ (op == .cas) = true := by simpa using hop
    rw [if_neg hop'] at hc
    rw [immAtom, if_neg hop', if_neg hop]
    refine ⟨?_, eq_of_beq hc⟩
    split at hb
    · exact reads_ok hb
    · exact reads_lit hb

end Families

end Sys2Proof

namespace Sys2Proof

theorem ite_of_true {α : Type} {b : Bool} {x y z : α} (hb : b = true) (hx : x = z) : (if b = true then x else y) = z :=
  (if_pos hb).trans hx

theorem ite_of_false {α : Type} {b : Bool} {x y z : α} (hb : b = false) (hy : y = z) : (if b = true then x else y) = z :=
  (if_neg (Bool.eq_false_iff.mp hb)).trans hy

section Conjuncts
variable {a b c d e f g i j : Bool}

theorem and2 (h : (a && b) = true) : a = true ∧ b = true := Bool.and_eq_true_iff.mp h
theorem and3 (h : (a && b && c) = true) : a = true ∧ b = true ∧ c = true :=
  have ⟨ha, hb⟩ := and2 (and2 h).1
  ⟨ha, hb, (and2 h).2⟩
theorem and4 (h : (a && b && c && d) = true) : a = true ∧ b = true ∧ c = true ∧ d = true :=
  have ⟨ha, hb, hc⟩ := and3 (and2 h).1
  ⟨ha, hb, hc, (and2 h).2⟩
theorem and5 (h : (a && b && c && d && e) = true) : a = true ∧ b = true ∧ c = true ∧ d = true ∧ e = true :=
  have ⟨ha, hb, hc, hd⟩ := and4 (and2 h).1
  ⟨ha, hb, hc, hd, (and2 h).2⟩
theorem and6 (h : (a && b && c && d && e && f) = true) :
    a = true ∧ b = true ∧ c = true ∧ d = true ∧ e = true ∧ f = true :=
  have ⟨ha, hb, hc, hd, he⟩ := and5 (and2 h).1
  ⟨ha, hb, hc, hd, he, (and2 h).2⟩
theorem and7 (h : (a && b && c && d && e && f && g) = true) :
    a = true ∧ b = true ∧ c = true ∧ d = true ∧ e = true ∧ f = true ∧ g = true :=
  have ⟨ha, hb, hc, hd, he, hf⟩ := and6 (and2 h).1
  ⟨ha, hb, hc, hd, he, hf, (and2 h).2⟩
theorem and8 (h : (a && b && c && d && e && f && g && i) = true) :
    a = true ∧ b = true ∧ c = true ∧ d = true ∧ e = true ∧ f = true ∧ g = true ∧ i = true :=
  have ⟨ha, hb, hc, hd, he, hf, hg⟩ := and7 (and2 h).1
  ⟨ha, hb, hc, hd, he, hf, hg, (and2 h).2⟩
theorem and9 (h : (a && b && c && d && e && f && g && i && j) = true) :
    a = true ∧ b = true ∧ c = true ∧ d = true ∧ e = true ∧ f = true ∧ g = true ∧ i = true ∧ j = true :=
  have ⟨ha, hb, hc, hd, he, hf, hg, hi⟩ := and8 (and2 h).1
  ⟨ha, hb, hc, hd, he, hf, hg, hi, (and2 h).2⟩

end Conjuncts

/-- Sources that may name a literal, under a destination that may not. -/
theorem reads_checked {d : Opd} {dc cs : List Cls} {kd : Nat} {l : List (Opd × Nat)} (hd : d.ok dc kd = true)
    (hs : ∀ e ∈ l, e.1.ok cs e.2 = true) (hl : litOk (l.map Prod.fst) = true)
    (hc : (Cls.none ∉ dc ∧ Cls.lit ∉ dc) ∧ Cls.none ∉ cs := by decide) :
    ∀ o ∈ d :: l.map Prod.fst, Reads (litOf (l.map Prod.fst)) o := by
  refine List.forall_mem_cons.mpr ⟨reads_ok hd hc.1, reads_litOf (fun o ho hn => ?_) hl⟩
  obtain ⟨e, he, rfl⟩ := List.mem_map.mp ho
  exact hc.2 (hn ▸ cls_mem_of_ok (hs e he))

/-- The address of a CACHEOP, or its zero operand. -/
theorem reads_lines {imm : Word} {a : Opd} {off : Word} (h : (a.gaddr || (a.cls == .zr && off == 0#32)) = true) : Reads imm a := by
  rcases Bool.or_eq_true_iff.mp h with h | h
  · exact reads_ok h
  · exact reads_cls (and2 h).1

theorem reads_pair_or_tile {imm : Word} {a : Opd} {sp : Bool} (h : (a.spair || (a.cls == .z && !sp)) = true) : Reads imm a := by
  rcases Bool.or_eq_true_iff.mp h with h | h
  · exact reads_ok h
  · exact reads_cls (and2 h).1

theorem BMod.reads {imm : Word} {m : BMod} {a : Opd} (h : m.ok a = true) : Reads imm a := reads_ok (and2 h).2

/-- A pair of S registers is not the zero field of an operand that is left out. -/
theorem field_ne_zero {a : Opd} (h : a.spair = true) : ¬ (a.field == 0#10) = true := by
  have hb : a.field.getLsbD 8 = true := by
    cases a with
    | s n | sp n => exact bit_high (by decide) rfl
    | v | imm | p | q | pl | z | lit | zr | none => cases h
  intro h0
  rw [eq_of_beq h0] at hb
  cases hb

/-- The fields are those of an instruction, before the checks of its entry, and their guard is not the reserved one. -/
def Raw.Names (r : Raw) (i : Instr) : Prop := r.shape = some i ∧ r.guard ≠ 0xF#4

/-- PLSET leaves its second source out for the whole and the raw forms. -/
theorem reads_plset {whole : Bool} {a b : Opd}
    (h : (if whole then a.ok [.s] 4 && b == .none else a.ok Cls.sil 1 && b.cls == .pl) = true) :
    Reads (litOf [a]) a ∧ opdN b.field (litOf [a]) = some b := by
  split at h
  · obtain ⟨ha, hb⟩ := and2 h
    rw [eq_of_beq hb]
    exact ⟨reads_ok ha, rfl⟩
  · obtain ⟨ha, hb⟩ := and2 h
    cases b with
    | pl n =>
      refine ⟨reads_lit ha, (if_neg fun h0 => ?_).trans (reads_cls hb)⟩
      have hbit : (Opd.pl n).field.getLsbD 8 = true := bit_high (by decide) rfl
      rw [eq_of_beq h0] at hbit
      cases hbit
    | v | s | sp | imm | p | q | z | lit | zr | none => cases hb

/-- The encoder's fields of a well-formed instruction have its shape: each entry's operands, codes and bits are read back from
where the encoder puts them. -/
theorem names_toRaw {i : Instr} (hw : i.wf = true) : i.toRaw.Names i := by
  cases i
  all_goals
    change Raw.shape ⟨_, _, _, _, _, _, _, _, _⟩ = _ ∧ _
    simp only [Raw.shape, Raw.shape0, Raw.shapeInt, Raw.shapeFp, Raw.shapeLane, Raw.shapeMem, Raw.shapeCour, Raw.shapeMx, Raw.shapeLt,
      Raw.shapeBar, Raw.shapeSys, BitVec.extractLsb'_toNat, BitVec.ofNat_eq_ofNat, BitVec.toNat_ofNat, Nat.reducePow, Nat.reduceMod,
      Nat.reduceShiftRight]
  -- words without an operand
  case exit h | nop h | yield h | cseal h | rwait h | nodeend h | filldone h | brk h | trapretReplay h | trapretSkip h | trapretKill h
      | tlbinvAll h => exact ⟨congrArg some (congrArg _ hdr_mkRaw), guard_ne hw⟩
  case bra h off => exact ⟨congrArg (fun h => some (Instr.bra h off)) hdr_mkRaw, guard_ne hw⟩
  case idem h | halt h => exact ⟨congrArg some (ite_of_false rfl (congrArg _ hdr_mkRaw)), guard_ne hw⟩
  case idemClose h | haltLaunch h => exact ⟨congrArg some (ite_of_true rfl (congrArg _ hdr_mkRaw)), guard_ne hw⟩
  case join h off =>
    exact ⟨congrArg (fun h => some (Instr.join h off)) hdr_mkRaw, guard_ne (congrArg Guard.ok (eq_of_beq hw))⟩
  case fence h o sc =>
    have hord : (0#3 ++ o.code ++ sc.code ++ 0#4).extractLsb' 7 2 = o.code :=
      field_high (by decide) (field_high (by decide) field_low)
    exact ⟨bind_of_eq ((congrArg Scope.ofCode (field_high (by decide) field_low)).trans (Scope.ofCode_code sc)) (congrArg some
      (congrArg₂ (fun h o => Instr.fence h o sc) hdr_mkRaw ((congrArg Order.ofCode hord).trans (Order.ofCode_code o)))),
      guard_ne (and2 hw).1⟩
  case fenceSc h sc =>
    exact ⟨bind_of_eq (scopeBits_scope sc) (congrArg (fun h => some (Instr.fenceSc h sc)) hdr_mkRaw), guard_ne hw⟩
  -- one operand
  case brx h a | ret h a | timewait h a | curate h a | bvhbuild h a | trapretTo h a | curwait h a | mwait h a =>
    obtain ⟨hh, ha⟩ := and2 hw
    exact ⟨ua_mkRaw (reads_ok ha) rfl, guard_ne hh⟩
  case timeStep h a =>
    obtain ⟨hh, ha⟩ := and2 hw
    exact ⟨ite_of_true rfl (ua_mkRaw (reads_ok ha) rfl), guard_ne hh⟩
  case sleep h a | fillfail h a | trap h a =>
    obtain ⟨hh, ha⟩ := and2 hw
    exact ⟨ua_mkRaw (reads_lit ha) rfl, guard_ne hh⟩
  case callRel h d off =>
    obtain ⟨hh, hd⟩ := and2 hw
    exact ⟨ite_of_true rfl (u1_mkRaw (reads_ok hd) rfl), guard_ne hh⟩
  case movi h m d x =>
    obtain ⟨hh, -, hd⟩ := and3 hw
    exact ⟨bind_of_eq (AMod.of_bits m) (u1_mkRaw (reads_ok hd) rfl), guard_ne hh⟩
  case lanemask h op d =>
    obtain ⟨hh, hd⟩ := and2 hw
    exact ⟨bind_of_eq (LmOp.ofCode_code op) (u1_mkRaw (reads_cls hd) rfl), guard_ne hh⟩
  case prefetch h l2 a off =>
    obtain ⟨hh, ha⟩ := and2 hw
    exact ⟨ua_mkRaw (reads_ok ha) (congrArg (fun l2 => Instr.prefetch h l2 a off) (bit_high (by decide) (getLsbD_bit l2))), guard_ne hh⟩
  case cacheopWb h a off | cacheopInv h a off | cacheopWbinv h a off =>
    obtain ⟨hh, ha⟩ := and2 hw
    exact ⟨ua_mkRaw (reads_lines ha) rfl, guard_ne hh⟩
  case cpyc h sc a =>
    obtain ⟨hh, ha⟩ := and2 hw
    exact ⟨bind_of_eq (scopeBits_scope sc) (ua_mkRaw (reads_ok ha) rfl), guard_ne hh⟩
  case cquery h clr d =>
    obtain ⟨hh, hd⟩ := and2 hw
    exact ⟨u1_mkRaw (reads_ok hd) (congrArg (fun clr => Instr.cquery h clr d) bit_low), guard_ne hh⟩
  case zclr h d =>
    obtain ⟨hh, hd⟩ := and2 hw
    exact ⟨u1_mkRaw (reads_cls hd) rfl, guard_ne hh⟩
  case rsvnorm h d | rhit h d | closewin h d =>
    obtain ⟨hh, hd⟩ := and2 hw
    exact ⟨u1_mkRaw (reads_ok hd) rfl, guard_ne hh⟩
  case dlogq h d =>
    obtain ⟨hh, hd⟩ := and2 hw
    exact ⟨u1_mkRaw (reads_ok hd) (ite_of_false rfl rfl), guard_ne hh⟩
  case dlogqWait h d =>
    obtain ⟨hh, hd⟩ := and2 hw
    exact ⟨u1_mkRaw (reads_ok hd) (ite_of_true rfl rfl), guard_ne hh⟩
  case time h d =>
    obtain ⟨hh, hd⟩ := and2 hw
    exact ⟨ite_of_false rfl (u1_mkRaw (reads_ok hd) rfl), guard_ne hh⟩
  case barinv h m a =>
    obtain ⟨hh, ha⟩ := and2 hw
    exact ⟨bind_of_eq (BMod.of_bits m false) (ua_mkRaw (BMod.reads ha)
      (ite_of_false (BMod.bits_eleven m false) rfl)), guard_ne hh⟩
  case barinvFree h m a =>
    obtain ⟨hh, ha⟩ := and2 hw
    exact ⟨bind_of_eq (BMod.of_bits m true) (ua_mkRaw (BMod.reads ha) (ite_of_true (BMod.bits_eleven m true) rfl)), guard_ne hh⟩
  case reserveDrop h b =>
    obtain ⟨hh, hb⟩ := and2 hw
    exact ⟨bind_of_eq (reads_ok hb) (ite_of_true rfl (congrArg (fun h => some (Instr.reserveDrop h b)) hdr_mkRaw)), guard_ne hh⟩
  case tlbinvAsid h b =>
    obtain ⟨hh, hb⟩ := and2 hw
    exact ⟨bind_of_eq (reads_lit hb) (congrArg (fun h => some (Instr.tlbinvAsid h b)) hdr_mkRaw), guard_ne hh⟩
  -- integer and floating-point entries
  case iadd h m d a b | isub h m d a b | imul h m d a b | imulh h m d a b | idiv h m d a b | irem h m d a b | imin h m d a b
      | imax h m d a b | bfe h m d a b | shl h m d a b | shr h m d a b | sar h m d a b | rol h m d a b | ror h m d a b
      | iadd64 h m d a b => exact ⟨ar2_mkRaw (intOk_lit hw).2, guard_ne (intOk_lit hw).1⟩
  case imad h m d a b c | bfi h m d a b c | byteperm h m d a b c | imad64 h m d a b c =>
    exact ⟨ar3_mkRaw (intOk_imm hw).2, guard_ne (intOk_imm (imm := 0) hw).1⟩
  case iabs h m d a | ineg h m d a | popc h m d a | clz h m d a | ctz h m d a | brev h m d a =>
    exact ⟨ar1_mkRaw (intOk_lit hw).2, guard_ne (intOk_lit hw).1⟩
  case mov h m d a => exact ⟨ar1_mkRaw (intOk_lit (and2 hw).1).2, guard_ne (intOk_lit (and2 hw).1).1⟩
  case and h m d a b | or h m d a b | xor h m d a b | andn h m d a b =>
    exact ⟨ar2_mkRaw (logicOk_reads hw).2, guard_ne (logicOk_reads hw).1⟩
  case not h m d a => exact ⟨ar1_mkRaw (logicOk_reads hw).2, guard_ne (logicOk_reads hw).1⟩
  case isetp h m cmp d a b =>
    obtain ⟨hh, -, hd, ha, hb, -, hl⟩ := and7 hw
    exact ⟨bind_of_eq (ICmp.ofCode_code cmp) (ar2_mkRaw (k := fun h m d a b => .isetp h m cmp d a b)
      (reads_checked (cs := Cls.vsil) (l := [(a, m.ty.regs), (b, m.ty.regs)]) hd (by simp [ha, hb]) hl)), guard_ne hh⟩
  case sel h m d a b c =>
    obtain ⟨hi, hc⟩ := and2 hw
    have hr := intOk_imm (imm := immC c) hi
    have hcr : Reads (immC c) c := by
      split at hc
      · exact reads_cls hc
      · exact reads_cls hc
    exact ⟨ar3_mkRaw (by simpa [or_imp, forall_and, hcr] using hr.2), guard_ne hr.1⟩
  case lea h m d a b =>
    obtain ⟨hh, -, hd, ha, hb, -, hl⟩ := and7 hw
    exact ⟨ar2_mkRaw (reads_checked (cs := Cls.vsil) (l := [(a, 2), (b, 1)]) hd (by simp [ha, hb]) hl), guard_ne hh⟩
  case fadd h m d a b | fsub h m d a b | fmul h m d a b | fdiv h m d a b | fmin h m d a b | fmax h m d a b | dadd h m d a b
      | dmul h m d a b | hadd2 h m d a b | hmul2 h m d a b => exact ⟨ar2_mkRaw (fpOk_lit hw).2, guard_ne (fpOk_lit hw).1⟩
  case ffma h m d a b c | dfma h m d a b c | hfma2 h m d a b c =>
    exact ⟨ar3_mkRaw (fpOk_imm hw).2, guard_ne (fpOk_imm (imm := 0) hw).1⟩
  case fclass h m d a | frcp h m d a | frsq h m d a | fexp2 h m d a | flog2 h m d a | fsin h m d a | fcos h m d a | fsqrt h m d a
      | frnd h m d a => exact ⟨ar1_mkRaw (fpOk_lit hw).2, guard_ne (fpOk_lit hw).1⟩
  case fsetp h m cmp d a b =>
    exact ⟨bind_of_eq (FCmp.ofCode_code cmp) (ar2_mkRaw (k := fun h m d a b => .fsetp h m cmp d a b) (fpOk_lit hw).2),
      guard_ne (fpOk_lit hw).1⟩
  case dsetp h m cmp d a b =>
    exact ⟨bind_of_eq (FCmp.ofCode_code cmp) (ar2_mkRaw (k := fun h m d a b => .dsetp h m cmp d a b) (fpOk_lit hw).2),
      guard_ne (fpOk_lit hw).1⟩
  case tcvt h m d a b c =>
    obtain ⟨hh, -, hd, ha, hb, hc⟩ := and6 hw
    exact ⟨ar3_mkRaw (by simp [reads_ok hd, reads_ok ha, reads_cls hb, reads_cls hc]), guard_ne hh⟩
  case callInd h d a =>
    obtain ⟨hh, hd, ha⟩ := and3 hw
    exact ⟨(if_neg (field_ne_zero ha)).trans (u2_mkRaw (reads_ok hd) (reads_ok ha) rfl), guard_ne hh⟩
  -- conversions
  case cvt h m d a =>
    obtain ⟨hh, -, -, -, hd, ha, -⟩ := and9 hw
    exact ⟨u2_mkRaw (reads_ok hd) (reads_ok ha) (congrArg (fun m => Instr.cvt h m d a) (CvtMod.of_bits m)), guard_ne hh⟩
  case cvtsr h m d a b =>
    obtain ⟨hh, -, -, -, -, hd, ha, hb, -⟩ := and9 hw
    exact ⟨u3_mkRaw (reads_ok hd) (reads_ok ha) (reads_ok hb) (congrArg (fun m => Instr.cvtsr h m d a b) (CvtMod.of_bits m)),
      guard_ne hh⟩
  case cvtpk h m d a b =>
    obtain ⟨hh, -, -, -, hd, ha, hb⟩ := and7 hw
    exact ⟨u3_mkRaw (reads_ok hd) (reads_ok ha) (reads_cls hb) (congrArg (fun m => Instr.cvtpk h m d a b) (CvtMod.of_bits m)),
      guard_ne hh⟩
  case cvtup h m d a b =>
    obtain ⟨hh, -, -, -, -, hd, ha, hb⟩ := and8 hw
    exact ⟨u3_mkRaw (reads_ok hd) (reads_ok ha) (reads_ok hb) (congrArg (fun m => Instr.cvtup h m d a b) (CvtMod.of_bits m)),
      guard_ne hh⟩
  -- lane instructions
  case shfl h op seg ty d a b c =>
    obtain ⟨hh, -, -, hd, ha, hb, hc⟩ := and7 hw
    exact ⟨bind_of_eq (ShflOp.ofCode_code op) (bind_of_eq (Ty.ofCode_low _ ty) (u4_mkRaw (reads_ok hd) (reads_ok ha) (reads_ok hb)
      (reads_ok hc) (congrArg (fun seg => Instr.shfl h op seg ty d a b c) (field_high (by decide) field_low)))), guard_ne hh⟩
  case vote h op ty d a =>
    obtain ⟨hh, hd, ha, -⟩ := and4 hw
    exact ⟨bind_of_eq (VoteOp.ofCode_code op) (bind_of_eq (Ty.ofCode_low _ ty) (u2_mkRaw (reads_cls hd) (reads_ok ha) rfl)), guard_ne hh⟩
  case matchL h all ty d a =>
    obtain ⟨hh, -, hd, ha⟩ := and4 hw
    exact ⟨bind_of_eq (Ty.ofCode_low _ ty) (u2_mkRaw (reads_ok hd) (reads_ok ha) (congrArg (fun all => Instr.matchL h all ty d a) bit_low)),
      guard_ne hh⟩
  case redux h op ty d a =>
    obtain ⟨hh, -, hd, ha⟩ := and4 hw
    exact ⟨bind_of_eq (FoldOp.ofCode_code op) (bind_of_eq (Ty.ofCode_low _ ty) (u2_mkRaw (reads_cls hd) (reads_cls ha) rfl)), guard_ne hh⟩
  case prefixL h op ex ty d a =>
    obtain ⟨hh, -, hd, ha⟩ := and4 hw
    exact ⟨bind_of_eq (FoldOp.ofCode_code op) (bind_of_eq (Ty.ofCode_low _ ty) (u2_mkRaw (reads_cls hd) (reads_cls ha)
      (congrArg (fun ex => Instr.prefixL h op ex ty d a) (bit_high (by decide) (bit_high (by decide) bit_low))))), guard_ne hh⟩
  case xchgb h xs d a b =>
    obtain ⟨hh, -, hd, ha, hb⟩ := and5 hw
    exact ⟨u3_mkRaw (reads_cls hd) (reads_cls ha) (reads_lit hb)
      (congrArg (fun xs => Instr.xchgb h xs d a b) (field_high (by decide) field_low)), guard_ne hh⟩
  case reorder h sr d a =>
    obtain ⟨hh, hd, ha⟩ := and3 hw
    exact ⟨u2_mkRaw (reads_cls hd) (reads_cls ha) (congrArg (fun sr => Instr.reorder h sr d a) (bit_high (by decide) bit_low)), guard_ne hh⟩
  -- memory and atomics
  case ld h m d a off | lds h m d a off | ldq h m d a off | ldsc h m d a off =>
    obtain ⟨hh, -, hd, ha⟩ := and4 hw
    exact ⟨ldr_mkRaw (reads_ok hd) (reads_ok ha), guard_ne hh⟩
  case st h m a b off | sts h m a b off | stq h m a b off =>
    obtain ⟨hh, -, hb, ha⟩ := and4 hw
    exact ⟨str_mkRaw (reads_ok ha) (reads_ok hb), guard_ne hh⟩
  case tld h m d a b c =>
    obtain ⟨hh, -, hd, ha, hb, hc⟩ := and6 hw
    exact ⟨bind_of_eq (MMod.of_bits m) (u4_mkRaw (reads_ok hd) (reads_ok ha) (reads_ok hb) (reads_cls hc) rfl), guard_ne hh⟩
  case tst h m a b c =>
    obtain ⟨hh, -, hb, ha, hc⟩ := and5 hw
    exact ⟨bind_of_eq (MMod.of_bits m) (uabc_mkRaw (reads_ok ha) (reads_ok hb) (reads_cls hc) rfl), guard_ne hh⟩
  case texf h ca d a b =>
    obtain ⟨hh, hd, ha, hb⟩ := and4 hw
    have hca : Cache.ofCode ((0#1 ++ ca.code ++ 0#9).extractLsb' 9 2) = ca :=
      (congrArg Cache.ofCode (field_high (by decide) field_low)).trans (Cache.ofCode_code ca)
    exact ⟨u3_mkRaw (reads_ok hd) (reads_ok ha) (reads_ok hb) (congrArg (fun ca => Instr.texf h ca d a b) hca), guard_ne hh⟩
  case atom h m op d a b c =>
    obtain ⟨hat, -, hd, ha⟩ := and4 hw
    obtain ⟨hh, hb, hc⟩ := atomOk_reads hat
    exact ⟨at4_mkRaw (reads_ok hd) (reads_ok ha) hb hc, guard_ne hh⟩
  case atoms h m op d a b c =>
    obtain ⟨hat, -, hd, ha⟩ := and4 hw
    obtain ⟨hh, hb, hc⟩ := atomOk_reads hat
    exact ⟨at4_mkRaw (reads_ok hd) (reads_ok ha) hb hc, guard_ne hh⟩
  case atomq h m op d a b c =>
    obtain ⟨hat, -, -, hd, ha⟩ := and5 hw
    obtain ⟨hh, hb, hc⟩ := atomOk_reads hat
    exact ⟨at4_mkRaw (reads_ok hd) (reads_ok ha) hb hc, guard_ne hh⟩
  case red h m op a b =>
    obtain ⟨hat, -, hcas, -, ha⟩ := and5 hw
    obtain ⟨hh, hb, -⟩ := atomOk_reads hat
    rw [immAtom, if_neg (by simpa using hcas)] at hb
    exact ⟨bind_of_eq (AtomOp.ofCode_code op) (bind_of_eq (MMod.of_bits m) (uab_mkRaw (reads_ok ha) hb rfl)), guard_ne hh⟩
  case drclose h sc d a =>
    obtain ⟨hh, -, hd, ha⟩ := and4 hw
    exact ⟨bind_of_eq (scopeBits_scope sc) (u2_mkRaw (reads_ok hd) (reads_lit ha) rfl), guard_ne hh⟩
  -- courier
  case cpy h m d a b =>
    obtain ⟨hh, hd, -, ha, hb⟩ := and5 hw
    exact ⟨bind_of_eq (CMod.of_bits m false 0) (ite_of_false (CMod.bits_seven m false 0)
      (u3_mkRaw (reads_ok hd) (reads_ok ha) (reads_lit hb) rfl)), guard_ne hh⟩
  case cpyTile h m d a =>
    obtain ⟨hh, hd, -, ha⟩ := and4 hw
    exact ⟨bind_of_eq (CMod.of_bits m true 0) (ite_of_true (CMod.bits_seven m true 0) (u2_mkRaw (reads_ok hd) (reads_ok ha) rfl)),
      guard_ne hh⟩
  case cpyt h m d a =>
    obtain ⟨hh, hd, -, ha⟩ := and4 hw
    exact ⟨bind_of_eq (CMod.of_bits m false 0) (u2_mkRaw (reads_ok hd) (reads_ok ha) (ite_of_false (CMod.bits_seven m false 0) rfl)),
      guard_ne hh⟩
  case cpytScat h m d a =>
    obtain ⟨hh, hd, -, ha⟩ := and4 hw
    exact ⟨bind_of_eq (CMod.of_bits m true 0) (u2_mkRaw (reads_ok hd) (reads_ok ha) (ite_of_true (CMod.bits_seven m true 0) rfl)),
      guard_ne hh⟩
  case cpyg h m esz d a b =>
    obtain ⟨hh, -, hd, -, ha, hb, -⟩ := and7 hw
    exact ⟨bind_of_eq (CMod.of_bits m false esz) (u3_mkRaw (reads_ok hd) (reads_ok ha) (reads_lit hb)
      (congrArg (fun esz => Instr.cpyg h m esz d a b) (CMod.bits_entry m false esz))), guard_ne hh⟩
  case cwait h d a | splinter h d a | migrate h d a | ovwait h d a | ovpin h d a | ovunpin h d a | ovevict h d a =>
    obtain ⟨hh, hd, ha⟩ := and3 hw
    exact ⟨u2_mkRaw (reads_ok hd) (reads_ok ha) rfl, guard_ne hh⟩
  -- placards and matrix
  case plset h f d a b =>
    obtain ⟨hh, -, hd, hab⟩ := and4 hw
    obtain ⟨ha, hb⟩ := reads_plset hab
    exact ⟨bind_of_eq (reads_cls hd) (bind_of_eq ha (bind_of_eq hb (congrArg some
      (congrArg₂ (fun h f => Instr.plset h f d a b) hdr_mkRaw field_low)))), guard_ne hh⟩
  case plget h f d a =>
    obtain ⟨hh, -, hd, ha⟩ := and4 hw
    exact ⟨u2_mkRaw (reads_ok hd) (reads_cls ha) (congrArg (fun f => Instr.plget h f d a) field_low), guard_ne hh⟩
  case plchk h t r d a =>
    obtain ⟨hh, hd, ha⟩ := and3 hw
    exact ⟨u2_mkRaw (reads_cls hd) (reads_cls ha)
      (congrArg₂ (fun t r => Instr.plchk h t r d a) bit_low (bit_high (by decide) bit_low)), guard_ne hh⟩
  case plinfer h sm d a b =>
    obtain ⟨hh, hd, ha, hb⟩ := and4 hw
    exact ⟨u3_mkRaw (reads_cls hd) (reads_cls ha) (reads_cls hb) (congrArg (fun sm => Instr.plinfer h sm d a b) bit_low), guard_ne hh⟩
  case mma h d a b c | mmasp h d a b c =>
    obtain ⟨hh, hd, ha, hb, hc⟩ := and5 hw
    exact ⟨u4_mkRaw (reads_cls hd) (reads_ok ha) (reads_ok hb) (reads_cls hc) rfl, guard_ne hh⟩
  case zanchor h pin d a =>
    obtain ⟨hh, hd, ha⟩ := and3 hw
    exact ⟨u2_mkRaw (reads_cls hd) (reads_lit ha) (congrArg (fun pin => Instr.zanchor h pin d a) bit_low), guard_ne hh⟩
  case zread h sat d a b c =>
    obtain ⟨hh, hd, ha, hb, hc⟩ := and5 hw
    exact ⟨u4_mkRaw (reads_ok hd) (reads_cls ha) (reads_ok hb) (reads_cls hc)
      (congrArg (fun sat => Instr.zread h sat d a b c) (bit_high (by decide) bit_low)), guard_ne hh⟩
  case zwrite h d a b c =>
    obtain ⟨hh, hd, ha, hb, hc⟩ := and5 hw
    exact ⟨u4_mkRaw (reads_cls hd) (reads_ok ha) (reads_ok hb) (reads_cls hc) rfl, guard_ne hh⟩
  case zst h sp sat a b c =>
    obtain ⟨hh, ha, hb, hc⟩ := and4 hw
    have hsp : (bit sp ++ 0#4 ++ bit sat ++ 0#6).getLsbD 11 = sp :=
      bit_high (by decide) (bit_high (by decide) (bit_high (by decide) (getLsbD_bit sp)))
    exact ⟨uabc_mkRaw (reads_cls ha) (reads_ok hb) (reads_cls hc)
      (congrArg₂ (fun sp sat => Instr.zst h sp sat a b c) hsp (bit_high (by decide) bit_low)), guard_ne hh⟩
  case zld h sp d a =>
    obtain ⟨hh, hd, ha⟩ := and3 hw
    exact ⟨u2_mkRaw (reads_cls hd) (reads_ok ha) (congrArg (fun sp => Instr.zld h sp d a) (bit_high (by decide) (getLsbD_bit sp))),
      guard_ne hh⟩
  case zadd h sp d a =>
    obtain ⟨hh, hd, ha⟩ := and3 hw
    exact ⟨u2_mkRaw (reads_cls hd) (reads_pair_or_tile ha)
      (congrArg (fun sp => Instr.zadd h sp d a) (bit_high (by decide) (getLsbD_bit sp))), guard_ne hh⟩
  case zchk h qu d a =>
    obtain ⟨hh, hd, ha⟩ := and3 hw
    exact ⟨u2_mkRaw (reads_cls hd) (reads_cls ha) (congrArg (fun qu => Instr.zchk h qu d a) bit_low), guard_ne hh⟩
  case cbload h a b =>
    obtain ⟨hh, ha, hb⟩ := and3 hw
    exact ⟨uab_mkRaw (reads_ok ha) (reads_ok hb) rfl, guard_ne hh⟩
  -- reservoirs, light, rays
  case rng h x4 d a b =>
    obtain ⟨hh, hd, ha, hb⟩ := and4 hw
    exact ⟨u3_mkRaw (reads_ok hd) (reads_ok ha) (reads_lit hb) (congrArg (fun x4 => Instr.rng h x4 d a b) bit_low), guard_ne hh⟩
  case rsvld h m d a =>
    obtain ⟨hh, -, -, -, hd, ha⟩ := and6 hw
    exact ⟨bind_of_eq (MMod.of_bits m) (u2_mkRaw (reads_ok hd) (reads_cls ha) rfl), guard_ne hh⟩
  case rsvst h m a b =>
    obtain ⟨hh, -, -, -, hb, ha⟩ := and6 hw
    exact ⟨bind_of_eq (MMod.of_bits m) (uab_mkRaw (reads_cls ha) (reads_ok hb) rfl), guard_ne hh⟩
  case rsvupd h d a b =>
    obtain ⟨hh, hd, ha, hb⟩ := and4 hw
    exact ⟨u3_mkRaw (reads_ok hd) (reads_ok ha) (reads_ok hb) rfl, guard_ne hh⟩
  case rsvmrg h d a b c | ltsample h d a b c | fillevict h d a b c =>
    obtain ⟨hh, hd, ha, hb, hc⟩ := and5 hw
    exact ⟨u4_mkRaw (reads_ok hd) (reads_ok ha) (reads_ok hb) (reads_ok hc) rfl, guard_ne hh⟩
  case rsvcap h d a =>
    obtain ⟨hh, hd, ha⟩ := and3 hw
    exact ⟨u2_mkRaw (reads_ok hd) (reads_lit ha) rfl, guard_ne hh⟩
  case trace h fl d a b c =>
    obtain ⟨hh, hd, ha, hb, hc⟩ := and5 hw
    exact ⟨u4_mkRaw (reads_ok hd) (reads_ok ha) (reads_ok hb) (reads_ok hc) (congrArg (fun fl => Instr.trace h fl d a b c) field_low),
      guard_ne hh⟩
  case bvhsize h d a b =>
    obtain ⟨hh, hd, ha, hb⟩ := and4 hw
    exact ⟨u3_mkRaw (reads_ok hd) (reads_lit ha) (reads_ok hb) rfl, guard_ne hh⟩
  -- barriers, overlays, work graphs, fill
  case barinit h m det a b =>
    obtain ⟨hh, ha, hb⟩ := and3 hw
    exact ⟨bind_of_eq (BMod.of_bits m det) (uab_mkRaw (BMod.reads ha) (reads_lit hb)
      (congrArg (fun det => Instr.barinit h m det a b) (BMod.bits_eleven m det))), guard_ne hh⟩
  case bararv h m d a b c =>
    obtain ⟨hh, ha, hd, hb, hc⟩ := and5 hw
    exact ⟨bind_of_eq (BMod.of_bits m false) (u4_mkRaw (reads_cls hd) (BMod.reads ha) (reads_ok hb) (reads_ok hc) rfl), guard_ne hh⟩
  case barsync h m d a b c =>
    obtain ⟨hh, ha, hd, hb, hc⟩ := and5 hw
    exact ⟨bind_of_eq (BMod.of_bits m false) (u4_mkRaw (reads_ok hd) (BMod.reads ha) (reads_ok hb) (reads_ok hc) rfl), guard_ne hh⟩
  case barwait h m d a b =>
    obtain ⟨hh, ha, hd, hb⟩ := and4 hw
    exact ⟨bind_of_eq (BMod.of_bits m false) (u3_mkRaw (reads_ok hd) (BMod.reads ha) (reads_ok hb) rfl), guard_ne hh⟩
  case barqry h m d a =>
    obtain ⟨hh, ha, hd⟩ := and3 hw
    exact ⟨bind_of_eq (BMod.of_bits m false) (u2_mkRaw (reads_ok hd) (BMod.reads ha) rfl), guard_ne hh⟩
  case ovld h d a | csrr h d a =>
    obtain ⟨hh, hd, ha⟩ := and3 hw
    exact ⟨u2_mkRaw (reads_cls hd) (reads_lit ha) rfl, guard_ne hh⟩
  case callo h d a b =>
    obtain ⟨hh, hd, ha, hb⟩ := and4 hw
    exact ⟨u3_mkRaw (reads_ok hd) (reads_lit ha) (reads_ok hb) rfl, guard_ne hh⟩
  case emit h d b =>
    obtain ⟨hh, hd, hb⟩ := and3 hw
    exact ⟨ite_of_false rfl (bind_of_eq (reads_ok hd) (bind_of_eq (reads_ok hb) (congrArg (fun h => some (Instr.emit h d b)) hdr_mkRaw))),
      guard_ne hh⟩
  case emitQ h d a b =>
    obtain ⟨hh, hd, ha, hb⟩ := and4 hw
    exact ⟨ite_of_true rfl (u3_mkRaw (reads_ok hd) (reads_ok ha) (reads_lit hb) rfl), guard_ne hh⟩
  case reserve h d b =>
    obtain ⟨hh, hd, hb⟩ := and3 hw
    exact ⟨bind_of_eq (reads_ok hb) (ite_of_false rfl (u1_mkRaw (reads_cls hd) rfl)), guard_ne hh⟩
  case fillqry h acq d a =>
    obtain ⟨hh, hd, ha⟩ := and3 hw
    exact ⟨u2_mkRaw (reads_cls hd) (reads_ok ha) (congrArg (fun acq => Instr.fillqry h acq d a) bit_low), guard_ne hh⟩
  -- system
  case csrw h a b =>
    obtain ⟨hh, ha, hb⟩ := and3 hw
    exact ⟨uab_mkRaw (reads_lit ha) (reads_ok hb) rfl, guard_ne hh⟩
  case tlbinvPage h a b =>
    obtain ⟨hh, ha, hb⟩ := and3 hw
    exact ⟨uab_mkRaw (reads_ok ha) (reads_lit hb) rfl, guard_ne hh⟩
  case tlbinvRange h a b c =>
    obtain ⟨hh, ha, hb, hc⟩ := and4 hw
    exact ⟨uabc_mkRaw (reads_ok ha) (reads_ok hb) (reads_ok hc) rfl, guard_ne hh⟩
  case openwin h d a b =>
    obtain ⟨hh, hd, ha, hb⟩ := and4 hw
    exact ⟨u3_mkRaw (reads_ok hd) (reads_cls ha) (reads_ok hb) rfl, guard_ne hh⟩
  case provchk h d a b =>
    obtain ⟨hh, hd, ha, hb⟩ := and4 hw
    exact ⟨u3_mkRaw (reads_cls hd) (reads_ok ha) (reads_ok hb) (ite_of_false rfl rfl), guard_ne hh⟩
  case provchkStore h d a b =>
    obtain ⟨hh, hd, ha, hb⟩ := and4 hw
    exact ⟨u3_mkRaw (reads_cls hd) (reads_ok ha) (reads_ok hb) (ite_of_true rfl rfl), guard_ne hh⟩
  case ballot h d a =>
    obtain ⟨hh, hd, ha⟩ := and3 hw
    exact ⟨u2_mkRaw (reads_cls hd) (reads_ok ha) rfl, guard_ne hh⟩
  -- the events have no word
  all_goals cases hw

/-- A word that a well-formed instruction encodes to decodes to it. -/
theorem decode_encode {i : Instr} (hw : i.wf = true) : decode (encode i) = .ok i := by
  obtain ⟨hs, hg⟩ := names_toRaw hw
  unfold decode encode
  simp only [Raw.ofWord_word, hs]
  rw [if_neg (by simpa using hg), if_pos (by simp [hw])]

/-- What a word must be to decode. -/
theorem decode_ok {w : BitVec 96} {i : Instr} (h : decode w = .ok i) : i.wf = true ∧ i.toRaw = Raw.ofWord w := by
  simp only [decode] at h
  split at h
  · cases h
  · split at h
    · cases h
    · split at h
      · next hc =>
        cases h
        obtain ⟨hw, hr⟩ := and2 hc
        exact ⟨hw, eq_of_beq hr⟩
      · cases h

/-- No instruction word is an event. -/
theorem isEvent_of_wf {i : Instr} (hw : i.wf = true) : Machine.isEvent i = false := by
  cases i
  any_goals rfl
  all_goals cases hw

/-- Settles O4, by `names_toRaw`: each entry's readers find in the encoder's fields what the encoder put there. -/
theorem decodeOfEncode : Obligations.DecodeOfEncode := fun _ hw => decode_encode hw

/-- Settles O5: the decoder's last check compares the word with the encoding of what it read. -/
theorem encodeOfDecode : Obligations.EncodeOfDecode := by
  intro w i h
  obtain ⟨hw, hr⟩ := decode_ok h
  exact ⟨hw, by rw [encode, hr, Raw.word_ofWord], isEvent_of_wf hw⟩

/-- Settles O6: the words are the encodings of the instructions beside them, but for two that no entry takes. -/
theorem wordsOfTheSpecDecode : Obligations.WordsOfTheSpecDecode := by
  refine ⟨?_, ?_, ?_, ?_, ?_, rfl, rfl⟩
  · exact decode_encode (i := .ffma ⟨⟨false, 3⟩, ⟨true, 0, 2⟩⟩ ⟨0, false, false, .rz, .dflt⟩ (.v 4) (.v 5) (.v 6) (.v 7)) rfl
  · exact decode_encode (i := .iadd ⟨⟨false, 7⟩, ⟨false, 0, 0⟩⟩ ⟨0, false, false, .rne, .dflt⟩ (.s 10) (.s 11) (.imm 0xFB)) rfl
  · exact decode_encode (i := .cvt ⟨⟨false, 7⟩, ⟨false, 0, 0⟩⟩ ⟨2, 5, false, false, true, .rne⟩ (.v 9) (.v 3)) rfl
  · exact decode_encode (i := .exit ⟨⟨false, 7⟩, ⟨false, 0, 0⟩⟩) rfl
  · exact decode_encode (i := .nop ⟨⟨false, 7⟩, ⟨false, 0, 0⟩⟩) rfl

end Sys2Proof
end

section
/-! SUPPORT. Every step answers: the outcome of each instruction of a resident cohort, of each event and of each turn is a next state (R37, R391). -/

namespace Sys2Proof.Machine

/-! ## What answers a next state -/

/-- The outcome is a next state. -/
def IsNext (o : Host.Outcome State Fault Refusal) : Prop := ∃ t, o = .next t

theorem isNext_next (t : State) : IsNext (.next t) := ⟨t, rfl⟩

theorem isNext_ite {p : Prop} [Decidable p] {x y : Host.Outcome State Fault Refusal} (hx : IsNext x) (hy : IsNext y) :
    IsNext (if p then x else y) := by
  split
  · exact hx
  · exact hy

section Instructions
variable {s : State} (h : s.cur.resident = true)
include h

theorem runI_isNext (hd : Hdr) (mt : Meta) (own : Bool) (body : Mask → M Unit) : IsNext (runI hd mt own body s) :=
  ⟨_, if_pos h⟩

theorem logic2_isNext (hd : Hdr) (m : AMod) (d a b : Opd) (fb fw fd) : IsNext (logic2 hd m d a b fb fw fd s) := by
  unfold logic2
  split
  · exact runI_isNext h ..
  · split
    · exact runI_isNext h ..
    · exact runI_isNext h ..

theorem execAndn_isNext (hd : Hdr) (m : AMod) (d a b : Opd) : IsNext (execAndn hd m d a b s) := by
  unfold execAndn
  exact logic2_isNext h ..

theorem execNot_isNext (hd : Hdr) (m : AMod) (d a : Opd) : IsNext (execNot hd m d a s) := by
  unfold execNot
  exact logic2_isNext h ..

theorem shift_isNext (hd : Hdr) (wide : Bool) (d a b : Opd) (fw fd) : IsNext (shift hd wide d a b fw fd s) := by
  unfold shift
  split
  · exact runI_isNext h ..
  · exact runI_isNext h ..

theorem execRol_isNext (hd : Hdr) (m : AMod) (d a b : Opd) : IsNext (execRol hd m d a b s) := by
  unfold execRol
  exact shift_isNext h ..

theorem execRor_isNext (hd : Hdr) (m : AMod) (d a b : Opd) : IsNext (execRor hd m d a b s) := by
  unfold execRor
  exact shift_isNext h ..

/-- Any instruction of a resident cohort, and any event, answers. -/
theorem exec_resident (i : Instr) : IsNext (exec i s) := by
  cases i
  case and hd m d a b | or hd m d a b | xor hd m d a b => exact logic2_isNext h hd m d a b _ _ _
  case andn hd m d a b => exact execAndn_isNext h hd m d a b
  case not hd m d a => exact execNot_isNext h hd m d a
  case shl hd m d a b => exact shift_isNext h hd (m.ty == .u64) d a b shlBv shlBv
  case shr hd m d a b => exact shift_isNext h hd (m.ty == .u64) d a b shrBv shrBv
  case sar hd m d a b => exact shift_isNext h hd (m.ty == .s64) d a b sarBv sarBv
  case rol hd m d a b => exact execRol_isNext h hd m d a b
  case ror hd m d a b => exact execRor_isNext h hd m d a b
  any_goals exact ⟨_, if_pos h⟩
  all_goals exact ⟨_, rfl⟩

end Instructions

theorem exec_event {i : Instr} (h : isEvent i = true) (s : State) : IsNext (exec i s) := by
  cases i
  all_goals cases h
  all_goals exact ⟨_, rfl⟩

theorem idle_isNext (n : Nat) (s : State) : IsNext (idle n s) := isNext_next _

theorem event_isNext (i : Instr) (s : State) : IsNext (event i s) := by
  unfold event
  split
  case isTrue hc => exact exec_event (Bool.and_eq_true_iff.mp hc).1 s
  case isFalse => exact idle_isNext ..

/-! ## Issue -/

theorem holdOvl_isNext {o : Host.Outcome State Fault Refusal} (i : Instr) (h : IsNext o) : IsNext (holdOvl i o) := by
  obtain ⟨t, rfl⟩ := h
  unfold holdOvl
  dsimp only
  split <;> exact isNext_next _

theorem fetchTrap_isNext (t : Trap) (s : State) : IsNext (fetchTrap t s) := isNext_next _

theorem fetchWait_isNext (n : Nat) (s : State) : IsNext (fetchWait n s) := by
  unfold fetchWait
  split
  · exact fetchTrap_isNext ..
  all_goals exact isNext_next _

theorem resettle_isNext (pc : Pc) (lanes : Mask) (s : State) : IsNext (resettle pc lanes s) := by
  unfold resettle
  split
  case h_2 => exact fetchTrap_isNext ..
  all_goals exact isNext_next _

theorem updC_resident {s : State} (h : s.cur.resident = true) (f : Ctl → Ctl) : (s.updC f).cur.resident = true := h

theorem runFetched_isNext {s : State} (h : s.cur.resident = true) (i : Instr) : IsNext (runFetched i s) :=
  holdOvl_isNext _ (exec_resident (updC_resident h _) _)

theorem issueSlot_isNext {s : State} (h : s.cur.resident = true) (b : Bool) : IsNext (issueSlot b s) := by
  unfold issueSlot
  dsimp only
  split
  · exact holdOvl_isNext _ (exec_resident (updC_resident h _) _)
  · split
    · exact idle_isNext ..
    · split
      · exact runFetched_isNext (updC_resident h _) _
      · exact fetchTrap_isNext ..
      · exact fetchWait_isNext ..

theorem ready_resident {s : State} {c : Cohort} (h : ready s c = true) : c.resident = true := by
  simp only [ready, Bool.and_eq_true] at h
  tauto

theorem unpark_resident (now : Nat) (c : Cohort) : (unpark now c).resident = c.resident := by
  unfold unpark
  split
  · split <;> rfl
  · rfl

theorem acquire_cur (sc : Scope) (s : State) : (acquire sc s).cur = s.cur := by
  unfold acquire
  split <;> rfl

theorem issue_isNext (b : Option Bool) (s : State) : IsNext (issue b s) := by
  unfold issue
  split
  case isTrue => exact idle_isNext ..
  case isFalse hc =>
    have hr : ready s s.cur = true := by simp_all
    dsimp only
    split
    · exact resettle_isNext ..
    · split
      · refine issueSlot_isNext ?_ _
        split <;> simp [acquire_cur, unpark_resident, ready_resident hr]
      · exact idle_isNext ..

/-! ## Turns -/

theorem turn_isNext (t : Turn) (s : State) : IsNext (turn t s) := by
  cases t
  case event i => exact event_isNext ..
  case idle => exact idle_isNext ..
  case switch => exact isNext_next _
  case writeback => exact isNext_next _
  case issue b => exact isNext_ite (idle_isNext ..) (issue_isNext ..)
  case select core ip k =>
    refine isNext_ite (idle_isNext ..) ?_
    split
    · exact issue_isNext ..
    · exact idle_isNext ..

theorem isEvent_engineWork {s : State} {i : Instr} (h : i ∈ engineWork s) : isEvent i = true := by
  simp only [engineWork, List.mem_append, List.mem_map] at h
  obtain ((((⟨_, _, rfl⟩ | ⟨_, _, rfl⟩) | ⟨_, _, rfl⟩) | ⟨_, _, rfl⟩) | ⟨_, _, rfl⟩) | ⟨_, _, rfl⟩ := h
  · split <;> rfl
  · split <;> rfl
  · rfl
  · split
    · rfl
    · split <;> rfl
  · rfl
  · split
    · rfl
    · split <;> rfl

theorem isEvent_memoryWork {s : State} {i : Instr} (h : i ∈ memoryWork s) : isEvent i = true := by
  simp only [memoryWork, List.mem_append, List.mem_map] at h
  obtain (((⟨_, _, rfl⟩ | ⟨_, _, rfl⟩) | ⟨_, _, rfl⟩) | hh) | ⟨_, _, rfl⟩ := h
  · rfl
  · rfl
  · rfl
  · split at hh
    · split at hh
      · rw [List.mem_singleton.mp hh]; rfl
      · obtain ⟨_, _, rfl⟩ := List.mem_map.mp hh; rfl
    · cases hh
  · rfl

theorem isEvent_entryWork {e : Entry} {i : Instr} (h : i ∈ entryWork e) : isEvent i = true := by
  unfold entryWork at h
  split at h
  · rw [List.mem_singleton.mp h]; rfl
  · split at h <;> (rw [List.mem_singleton.mp h]; rfl)

theorem isEvent_launchWork {s : State} {l : Launch} {i : Instr} (h : i ∈ launchWork s l) : isEvent i = true := by
  unfold launchWork at h
  split at h
  · obtain ⟨k, _, hk⟩ := List.mem_flatMap.mp h
    split at hk
    · cases hk
    · split at hk
      · rw [List.mem_singleton.mp hk]; rfl
      · dsimp only at hk
        split at hk
        · rw [List.mem_singleton.mp hk]; rfl
        · cases hk
  · simp only [List.mem_append] at h
    obtain (h | h) | h := h
    · split at h
      · cases h
      · rw [List.mem_singleton.mp h]; rfl
    · split at h
      · obtain ⟨_, _, rfl⟩ := List.mem_map.mp h; rfl
      · cases h
    · split at h
      · cases h
      · split at h
        · split at h
          · rw [List.mem_singleton.mp h]; rfl
          · cases h
        · cases h

theorem isEvent_restoreWork {s : State} {x : Saved} {i : Instr} (h : i ∈ restoreWork s x) : isEvent i = true := by
  unfold restoreWork at h
  split at h
  · cases h
  · split at h
    · rw [List.mem_singleton.mp h]; rfl
    · cases h

theorem isEvent_dispatchWork {s : State} {i : Instr} (h : i ∈ dispatchWork s) : isEvent i = true := by
  simp only [dispatchWork, List.mem_append, List.mem_map, List.mem_flatMap] at h
  obtain (((⟨_, _, rfl⟩ | ⟨_, _, h⟩) | ⟨_, _, h⟩) | ⟨_, _, h⟩) | ⟨_, _, rfl⟩ := h
  · rfl
  · exact isEvent_entryWork h
  · exact isEvent_launchWork h
  · exact isEvent_restoreWork h
  · rfl

theorem isEvent_autoEvent {s : State} {i : Instr} (h : autoEvent s = some i) : isEvent i = true := by
  have hm := List.mem_of_getElem? h
  simp only [List.mem_append] at hm
  obtain (h | h) | h := hm
  · exact isEvent_engineWork h
  · exact isEvent_memoryWork h
  · exact isEvent_dispatchWork h

theorem autoTurn_isNext {i : Instr} (h : isEvent i = true) (s : State) : IsNext (autoTurn i s) := by
  obtain ⟨t, ht⟩ := exec_event h s
  exact ⟨t.tick 1, by rw [autoTurn, ht]⟩

/-! ## A step -/

/-- What each value of an option is, and what stands for none. -/
theorem isNext_getD {x : Option (Host.Outcome State Fault Refusal)} {y : Host.Outcome State Fault Refusal}
    (hx : ∀ o, x = some o → IsNext o) (hy : IsNext y) : IsNext (x.getD y) := by
  cases x with
  | none => exact hy
  | some o => exact hx o rfl

theorem engineTurn_isNext {s : State} {o : Host.Outcome State Fault Refusal}
    (h : (autoEvent s).map (fun i => autoTurn i s) = some o) : IsNext o := by
  obtain ⟨i, hi, rfl⟩ := Option.map_eq_some_iff.mp h
  exact autoTurn_isNext (isEvent_autoEvent hi) s

theorem issueTurn_isNext {s : State} {o : Host.Outcome State Fault Refusal} (h : issueTurn s = some o) : IsNext o := by
  obtain ⟨_, _, rfl⟩ := Option.map_eq_some_iff.mp h
  exact turn_isNext ..

theorem byDefault_isNext (s : State) : IsNext (byDefault s) := by
  have hi := idle_isNext 1 s
  have he {y} := isNext_getD (y := y) fun o => engineTurn_isNext (s := s) (o := o)
  have ht := isNext_getD (fun o => issueTurn_isNext (s := s) (o := o)) hi
  unfold byDefault
  refine isNext_ite hi (isNext_ite (he hi) (isNext_ite (he (isNext_ite hi ht)) ?_))
  split
  · next h => exact issueTurn_isNext h
  · exact he hi

theorem move_isNext (s : State) : IsNext (move s) := by
  unfold move
  split
  · exact byDefault_isNext s
  · next t rest _ =>
    obtain ⟨t, ht⟩ := turn_isNext t { s with agenda := rest }
    rw [ht]
    exact isNext_next _

/-- Settles O3: each turn answers, the agenda's and the ones by default. -/
theorem stepNeverStops : Obligations.StepNeverStops := by
  refine ⟨fun s => ?_, fun i s h => exec_resident h i, fun i s h => exec_event h s⟩
  obtain ⟨t, ht⟩ := move_isNext s
  exact ⟨tidy t, by rw [step, ht, after]⟩

end Sys2Proof.Machine
end

section
/-! SUPPORT. The privilege trap (R384, R396). -/

namespace Sys2Proof.Machine

section Privilege
variable {s : State} (hr : s.cur.resident = true) (hp : s.cur.c.pend = []) (hu : s.cur.pl.priv = false)
include hr hp hu

/-- What a privileged uniform instruction comes to without privilege, whatever its operands and its body. -/
theorem runI_unprivileged (h : Hdr) {mt : Meta} (huni : mt.uni = true) (hpriv : mt.priv = true) (hpre : mt.pre s = none) (own : Bool)
    (body : Mask → M Unit) : runI h mt own body s = .next ((takeTrap { cause := 0x0002 } s.cur.smask s).tick 1) := by
  have ha : arrive0 s = s := by simp [arrive0, State.updCur, commit_nil hp]
  simp [runI, hr, runS, ha, hpre, huni, hpriv, hu, Cause.privilege]

end Privilege

/-- Settles O8: each of the ten is a uniform privileged instruction with no check before the one of privilege. -/
theorem privilegedInstructionsTrap : Obligations.PrivilegedInstructionsTrap := by
  intro h d a b c s hr hp hu i hi
  have trap {mt : Meta} {own : Bool} {body : Mask → M Unit} := runI_unprivileged hr hp hu h (mt := mt) (own := own) (body := body)
  simp only [List.mem_cons, List.not_mem_nil, or_false] at hi
  obtain rfl | rfl | rfl | rfl | rfl | rfl | rfl | rfl | rfl | rfl := hi
  all_goals exact trap rfl rfl rfl

end Sys2Proof.Machine
end

section
/-! SUPPORT. Loads and stores (R217, R237 to R243): what a release leaves alone, and the lanes of an access that meets nothing but their places. -/

namespace Sys2Proof.Machine

/-! ## What a write-back leaves alone -/

/-- The issuing cohort, the module's registers and clocks and the records of the surface are as they were. -/
structure Untouched (s t : State) : Prop where
  cur : t.cur = s.cur
  m : t.m = s.m
  resv : t.resv = s.resv

theorem Untouched.refl (s : State) : Untouched s s := ⟨rfl, rfl, rfl⟩

theorem Untouched.trans {s t u : State} (h : Untouched s t) (k : Untouched t u) : Untouched s u :=
  ⟨k.cur.trans h.cur, k.m.trans h.m, k.resv.trans h.resv⟩

theorem Untouched.foldl {α : Type} {f : State → α → State} (hf : ∀ s x, Untouched s (f s x)) (l : List α) (s : State) :
    Untouched s (l.foldl f s) := by
  induction l generalizing s with
  | nil => exact .refl s
  | cons x l ih => exact (hf s x).trans (ih _)

theorem ring_untouched (s : State) (p : Nat) (r : Rec) : Untouched s (s.ring p r).2 := by
  unfold State.ring
  dsimp only
  split <;> split <;> exact ⟨by simp, by simp, by simp⟩

theorem parkReq_wback_untouched (part pa die va : Nat) (mask : Mask) (cause core : Nat) (bs : List (Nat × Byte)) (s : State) :
    Untouched s (parkReq part pa die va mask cause (.wback core bs) s) := by
  unfold parkReq
  dsimp only
  split
  · exact ⟨rfl, rfl, rfl⟩
  · split
    · exact ⟨rfl, rfl, rfl⟩
    · obtain ⟨h1, h2, h3⟩ := ring_untouched s.fresh.2 part (plainRec cause 0 1 (pa / 64 * 64))
      exact ⟨h1, h2, h3⟩

theorem putL1_untouched (x : L1Line) (s : State) : Untouched s (s.putL1 x) := by
  unfold State.putL1
  split <;> exact ⟨rfl, rfl, rfl⟩

theorem putBytes_untouched (l : List (Nat × Byte)) (s : State) : Untouched s (putBytes l s) := by
  unfold putBytes
  refine Untouched.foldl (fun t e => ?_) l s
  exact ⟨rfl, rfl, rfl⟩

theorem writeBack_untouched (core line : Nat) (s : State) : Untouched s (writeBack core line s) := by
  unfold writeBack
  split
  · exact .refl s
  · next x _ =>
    split
    · exact .refl s
    · dsimp only
      have hu : Untouched s (if (x.dirtyBytes.filter fun e => !s.live e.1).length < x.dirtyBytes.length
          then (s.putL1 { x with dirty := 0#64 }).countMisc x.part else s.putL1 { x with dirty := 0#64 }) := by
        have hput := putL1_untouched { x with dirty := 0#64 } s
        split
        · exact hput.trans ⟨rfl, rfl, rfl⟩
        · exact hput
      refine hu.trans ?_
      generalize (if (x.dirtyBytes.filter fun e => !s.live e.1).length < x.dirtyBytes.length
          then (s.putL1 { x with dirty := 0#64 }).countMisc x.part else s.putL1 { x with dirty := 0#64 }) = u
      split
      · exact ⟨rfl, rfl, rfl⟩
      · split
        · exact parkReq_wback_untouched ..
        · exact putBytes_untouched ..

theorem writeBackAll_untouched (core : Nat) (s : State) : Untouched s (writeBackAll core s) := by
  unfold writeBackAll
  refine Untouched.foldl (fun t x => ?_) _ s
  exact writeBack_untouched core x.line t

/-! ## Releases -/

theorem fabScope_wide {sc : Scope} (h : fabScope sc = true) : Scope.wide sc = true := by
  revert h
  cases sc <;> decide

theorem closeIdem_none {s : State} (h : s.cur.c.idem = none) : s.updCur Cohort.closeIdem = s := by
  simp only [State.updCur, Cohort.closeIdem]
  rw [← h]

/-- A release of a cohort with no open region leaves the cohort alone. -/
theorem released_untouched {s : State} (h : s.cur.c.idem = none) (sc : Scope) : Untouched s (released sc s) := by
  have hw : Untouched s (if Scope.wide sc then writeBackAll s.cur.pl.core s else s) := by
    split
    · exact writeBackAll_untouched ..
    · exact .refl s
  unfold released
  dsimp only
  generalize (if Scope.wide sc then writeBackAll s.cur.pl.core s else s) = t at hw
  have hf : Untouched t (if fabScope sc then { t with fabw := t.fabw.filter fun w => w.cohort != t.cur.pl.id } else t) := by
    split <;> exact ⟨rfl, rfl, rfl⟩
  have hu := hw.trans hf
  rw [closeIdem_none (by rw [hu.cur]; exact h)]
  exact hu

theorem drainedM_run {s : State} (h : Drained s) : drainedM s = .ok ((), s) := by
  unfold drainedM
  rw [bind_ok (waitUntil_run (by simp [h.log]))]
  exact waitUntil_run (by simp [h.parked, h.transit])

theorem backM_run {s : State} (h : BackOk s) : backM s = .ok ((), writeBackAll s.cur.pl.core s) := by
  unfold backM
  rw [bind_ok (upd_run _ s)]
  refine waitUntil_run ?_
  rw [(writeBackAll_untouched s.cur.pl.core s).cur]
  simp only [show backParked _ _ = false from h, Bool.not_false]

/-- A release that has nothing to wait for. -/
theorem releaseM_run {sc : Scope} {s : State} (h : Quiet sc s) : releaseM sc s = .ok ((), released sc s) := by
  unfold releaseM released
  rw [bind_ok (drainedM_run h.toDrained)]
  cases hw : Scope.wide sc with
  | false =>
    have hf : fabScope sc = false := Bool.eq_false_iff.mpr fun hf => by simp [fabScope_wide hf] at hw
    simp [hf, M.upd]
  | true =>
    simp only [if_true]
    rw [bind_ok (backM_run (h.back hw))]
    cases fabScope sc <;> rfl

end Sys2Proof.Machine

namespace Sys2Proof.Machine

/-! ## Lane accesses that meet nothing but their places -/

theorem lowest_nil : lowest [] = none := rfl

section Access
variable {sp : ASpace} {acc : Acc} {w : Nat} {ls : List LaneAcc} {s : State}

theorem suspendM_reaches (hr : Reaches sp acc w ls s) : suspendM ls s = .ok ((), s) := by
  have hbusy : (ls.any fun l => l.st == .busy) = false := by
    simp only [List.any_eq_false, beq_iff_eq]
    intro l hl hb
    obtain ⟨x, t, hx⟩ := hr.placed l hl
    rw [hx] at hb
    cases hb
  unfold suspendM
  rw [hbusy, List.filter_eq_nil_iff.mpr ?_]
  · rfl
  · intro l hl
    simp [hr.filled l hl]

/-- What an access of lanes does when each lies at a place, nothing stalls it and no lane faults where it performs. -/
theorem accessM_run {acq : Option Scope} {log : Option (LaneAcc → State → State)}
    {perform : List LaneAcc → State → List (LaneAcc × Got) × State} {put : Option Nat → List Byte → List Wr}
    {addrs : List (Option Nat × Nat)} (hls : ls = addrs.map fun (i, a) => ⟨i, a, resolve sp acc log.isSome w s i a⟩)
    (hr : Reaches sp acc w ls s) (hf : NoFault (perform ls (noteLanes acc ls s)).1) :
    accessM sp acc w acq log perform put addrs s = .ok ((), accessed put acq (perform ls (noteLanes acc ls s))) := by
  have hsb : ls.any (sbStall s (acc != .store) (acc != .load) w) = false :=
    List.any_eq_false.mpr fun l hl => by simp [(hr.free l hl).1]
  have hlog : ls.any (logStall s sp w) = false := List.any_eq_false.mpr fun l hl => by simp [(hr.free l hl).2.1]
  have hbehind : ls.any (LaneAcc.behind s w) = false := List.any_eq_false.mpr fun l hl => by simp [(hr.free l hl).2.2]
  unfold accessM
  rw [bind_ok (get_run s)]
  simp only [← hls]
  rw [bind_ok (suspendM_reaches hr), bind_ok (waitUntil_run (by simp [hsb])), bind_ok (waitUntil_run (by simp [hlog])),
    bind_ok (waitUntil_run (by simp [hbehind])), bind_ok (get_run s)]
  have hdefer : ls.filter (fun l => l.st == .defer) = [] := List.filter_eq_nil_iff.mpr fun l hl => by
    obtain ⟨x, t, hx⟩ := hr.placed l hl
    simp [hx]
  simp only [hdefer]
  rw [List.filter_eq_self (l := ls).mpr ?good, bind_ok (upd_run _ s)]
  case good =>
    intro l hl
    obtain ⟨x, t, hx⟩ := hr.placed l hl
    simp [hx, hr.filled l hl]
  have hrun : M.run (perform ls) (noteLanes acc ls s) = .ok (perform ls (noteLanes acc ls s)) := rfl
  have hemit (ws : List Wr) (u : State) : emitR ws 0 none u = .ok ((), addPend ws 0 none u) := rfl
  -- no deferred lane enters the log
  cases log
  case' none => dsimp only
  case' some f =>
    dsimp only
    split
    rw [bind_ok (upd_run _ _), List.foldl_nil]
  all_goals
    rw [bind_ok hrun, bind_ok (hemit _ _)]
    cases acq
    case' none => dsimp only
    case' some sc =>
      dsimp only
      rw [bind_ok (upd_run _ _)]
    all_goals
      rw [List.filterMap_eq_nil_iff (l := ls).mpr ?judged, List.filterMap_eq_nil_iff.mpr ?met]
      · rfl
      case judged =>
        intro l hl
        obtain ⟨x, t, hx⟩ := hr.placed l hl
        simp [hx, hr.filled l hl]
      case met =>
        intro e he
        have h := hf e he
        split
        · next t ht => exact absurd ht (h t)
        · rfl

end Access

/-! ## Loads -/

theorem sextInt_eq (w x : Nat) : sextInt w x = (BitVec.ofNat w x).toInt := by
  simp [sextInt, BitVec.toInt_eq_toNat_cond]

theorem wrapNat_eq (w : Nat) (x : Int) : wrapNat w x = (BitVec.ofInt w x).toNat := by
  simp [wrapNat, BitVec.toNat_ofInt]

/-- A narrow signed value is sign-extended from its width (R240). -/
theorem loadVal_eq (ty : Ty) (bs : List Byte) : loadVal ty bs = match ty with
    | .s8 => (BitVec.ofInt 32 ((BitVec.ofNat 8 (leNat bs)).toInt)).toNat
    | .s16 => (BitVec.ofInt 32 ((BitVec.ofNat 16 (leNat bs)).toInt)).toNat
    | _ => leNat bs := by
  cases ty <;> simp only [loadVal, sextInt_eq, wrapNat_eq]

theorem isAcq_iff (o : Order) : Order.isAcq o = true ↔ o = .acq ∨ o = .ar := by simp [Order.isAcq]
theorem isRel_iff (o : Order) : Order.isRel o = true ↔ o = .rel ∨ o = .ar := by simp [Order.isRel]

section Loads
variable (h : Hdr) (m : MMod) (d a : Opd) (off : Word) (s : State) (sp : ASpace) (uni : Bool)

/-- One lane's load, with the request that parks it. -/
def loadLane (act : Mask) (l : LaneAcc) (s : State) : Got × State :=
  loadAt l.loc l.addr (Ty.bytes m.ty) m.scope m.cache act (match l.lane with
    | some j => .load s.cur.pl.id (Opd.ix d) j l.pa m.ty m.scope m.cache s.cur.pc
    | none => .sload s.cur.pl.id (Opd.ix d) l.pa m.ty m.scope m.cache s.cur.pc) s

def loadMeta : Meta := { uni := uni, srcs := [(a, if sp == .glob then 2 else 1)], dsts := [(d, m.ty.regs)], opnd := 1 }

theorem loadI_off (hc : Calm s) (hu : Usable s (loadMeta m d a sp uni)) (huni : uni = true) (hact : activeMask h uni s.cur = 0#32) :
    loadI h sp uni m d a off s = .next (finished h s) :=
  runI_off hc hu (by simp [bodyRuns, huni, huni ▸ hact])

theorem loadI_run (hc : Calm s) (hu : Usable s (loadMeta m d a sp uni)) (hact : uni = true → activeMask h uni s.cur ≠ 0#32) :
    let ls := reached h sp .load false (Ty.bytes m.ty) uni (eAddr sp a off) s
    let r := oneByOne (loadLane m d (activeMask h uni s.cur)) ls (noteLanes .load ls s)
    Reaches sp .load (Ty.bytes m.ty) ls s → NoFault r.1 →
      loadI h sp uni m d a off s = .next (finished h (accessed (fun ln bs => dstN d ln m.ty.regs (loadVal m.ty bs))
        (if m.order = .acq ∨ m.order = .ar then some m.scope else none) r)) := by
  intro ls r hr hf
  have hb : bodyRuns (loadMeta m d a sp uni) (activeMask h uni s.cur) = true := by
    cases uni <;> simp_all [bodyRuns, loadMeta]
  refine runI_ok (own := false) hc hu hb ?_
  rw [bind_ok (get_run s)]
  simp only [isAcq_iff]
  exact accessM_run rfl hr hf

end Loads

/-- Settles O22: the four loads are one, whose lanes perform by `accessM_run`. -/
theorem loadsOfEverySpace : Obligations.LoadsOfEverySpace := by
  intro h m d a off s hc sp uni i hi k w addr act ls one r hu
  have hcase : exec i s = loadI h sp uni m d a off s ∧ addr = eAddr sp a off ∧ (if sp = .glob then 2 else 1) = if sp == .glob then 2 else 1 := by
    simp only [List.mem_cons, List.not_mem_nil, or_false, Prod.mk.injEq] at hi
    obtain ⟨rfl, rfl, rfl⟩ | ⟨rfl, rfl, rfl⟩ | ⟨rfl, rfl, rfl⟩ | ⟨rfl, rfl, rfl⟩ := hi
    all_goals exact ⟨rfl, rfl, rfl⟩
  obtain ⟨hex, haddr, hak⟩ := hcase
  rw [hak] at hu
  rw [hex]
  refine ⟨loadI_off h m d a off s sp uni hc hu, fun hact hr hf => ?_⟩
  have hput : (fun ln bs => dstN d ln m.ty.regs (loadVal m.ty bs)) = _ := funext fun ln => funext fun bs => by rw [loadVal_eq]
  rw [loadI_run h m d a off s sp uni hc hu hact (haddr ▸ hr) (haddr ▸ hf), hput]
  simp only [ls, r, haddr]
  rfl

/-! ## Stores -/

/-- The state after the release that an order asks for. -/
def releasedFor (m : MMod) (s : State) : State := if m.order = .rel ∨ m.order = .ar then released m.scope s else s

theorem releasedFor_untouched (m : MMod) {s : State} (h : s.cur.c.idem = none) : Untouched s (releasedFor m s) := by
  unfold releasedFor
  split
  · exact released_untouched h _
  · exact .refl s

/-- The release of a releasing instruction, before the rest of its body. -/
theorem bind_releaseM {α : Type} {m : MMod} {s : State} (hq : m.order = .rel ∨ m.order = .ar → Quiet m.scope s) (f : Unit → M α) :
    (if Order.isRel m.order then releaseM m.scope >>= f else f ()) s = f () (releasedFor m s) := by
  simp only [isRel_iff, releasedFor]
  split
  · next h => exact bind_ok (releaseM_run (hq h))
  · rfl

section Stores
variable (h : Hdr) (m : MMod) (a b : Opd) (off : Word) (s0 : State) (sp : ASpace)

/-- One lane's store of the bytes that its source held in a state. -/
def storeLane (act : Mask) (s : State) (l : LaneAcc) (s' : State) : Got × State :=
  storeAt l.loc l.addr (storeBytes s l.lane m b) m.scope m.cache act
    (.store s.cur.pl.id l.lane (((List.range (storeBytes s l.lane m b).length).map (l.pa + ·)).zip (storeBytes s l.lane m b)) s.cur.pc) s'

def storeMeta : Meta :=
  { srcs := [(a, if sp == .glob then 2 else 1), (b, m.ty.regs)], lates := if Order.isRel m.order then latesRel else [], opnd := 1 }

theorem storeI_run (hc : Calm s0) (hu : Usable s0 (storeMeta m a b sp)) (hq : m.order = .rel ∨ m.order = .ar → Quiet m.scope s0) :
    let s := releasedFor m s0
    let ls := reached h sp .store (sp == .glob) (Ty.bytes m.ty) false (eAddr sp a off) s
    let r := oneByOne (storeLane m b (activeMask h false s0.cur) s) ls (noteLanes .store ls s)
    Reaches sp .store (Ty.bytes m.ty) ls s → NoFault r.1 →
      storeI h sp m a b off s0 = .next (finished h (accessed (fun _ _ => []) none r)) := by
  intro s ls r hr hf
  have hact : activeMask h false s.cur = activeMask h false s0.cur := by rw [(releasedFor_untouched m hc.idem).cur]
  refine runI_ok (own := false) hc hu rfl ?_
  refine (bind_releaseM hq _).trans ?_
  beta_reduce
  rw [bind_ok (get_run (releasedFor m s0))]
  refine accessM_run ?_ hr hf
  simp only [ls, reached, hact]
  cases sp <;> rfl

end Stores

/-- Settles O23: the three stores are one, whose lanes perform by `accessM_run` after the release. -/
theorem storesOfEverySpace : Obligations.StoresOfEverySpace := by
  intro h m a b off s0 hc sp i hi w addr rel s act ls one r hu hq hr hf
  have hcase : exec i s0 = storeI h sp m a b off s0 ∧ addr = eAddr sp a off ∧ (if sp = .glob then 2 else 1) = if sp == .glob then 2 else 1 := by
    simp only [List.mem_cons, List.not_mem_nil, or_false, Prod.mk.injEq] at hi
    obtain ⟨rfl, rfl⟩ | ⟨rfl, rfl⟩ | ⟨rfl, rfl⟩ := hi
    all_goals exact ⟨rfl, rfl, rfl⟩
  obtain ⟨hex, haddr, hak⟩ := hcase
  have hm : storeMeta m a b sp = { srcs := [(a, if sp = .glob then 2 else 1), (b, m.ty.regs)], lates := if rel then latesRel else [], opnd := 1 } := by
    simp only [storeMeta, hak, isRel_iff, rel]
  rw [← hm] at hu
  rw [hex, storeI_run h m a b off s0 sp hc hu hq (haddr ▸ hr) (haddr ▸ hf)]
  simp only [ls, r, haddr]
  rfl

end Sys2Proof.Machine
end

section
/-! SUPPORT. Transfers of control (R298, R299, R309 to R313): where lanes go, when no rule of the divergence stack applies, and the end of a cohort at EXIT. -/

namespace Sys2Proof

/-- The overlay of a PC whose overlay number fits. -/
theorem Pc.ovl_mk_ovl (p : Pc) (b k : Nat) : (Pc.mk p.ovl b k).ovl = p.ovl := by
  have h := p.extractLsb' 16 24 |>.isLt
  simp only [Pc.mk, Pc.ovl, BitVec.extractLsb'_append_eq_of_le (show 3 ≤ 16 by decide),
    BitVec.extractLsb'_append_eq_of_le (show 13 ≤ 16 - 3 by decide)]
  simp

namespace Machine

/-! ## Overlays that are there -/

section Lands
variable {s : State} {n b : Nat}

theorem ovLength_of_lands (hl : Lands s n b) : ∃ k, ovLength n s = .ok (k, s) ∧ b < k := by
  obtain ⟨o, ho, hst, hb, -⟩ := hl
  refine ⟨o.nblk, ?_, hb⟩
  unfold ovLength
  rw [bind_ok (get_run s)]
  simp [ho, hst, pure, StateT.pure, Except.pure]

theorem wantOverlay_of_lands (hl : Lands s n b) (next : Option PcPart) : wantOverlay n next s = .ok ((), s) := by
  obtain ⟨o, ho, hst, -, hv⟩ := hl
  have hopen : (!o.evict || refsOv s.cur n) = true := by
    rcases hv with h | h <;> simp [h]
  unfold wantOverlay
  rw [bind_ok (get_run s)]
  simp [ho, hst, hopen, pure, StateT.pure, Except.pure]

theorem reach_of_lands {t : Pc} (hl : Lands s t.ovl b) : reach t s = .ok ((), s) := by
  unfold reach
  rw [bind_ok (get_run s)]
  split
  · rfl
  · exact wantOverlay_of_lands hl _

theorem trapIf_false (t : Trap) (s : State) {c : Bool} (hc : c = false) : M.trapIf c t s = .ok ((), s) := by
  simp [M.trapIf, hc]

theorem relTarget_of_lands {off : Word} (hb : (s.cur.pc.blk : Int) + off.toInt = b) (hl : Lands s s.cur.pc.ovl b) :
    relTarget off s = .ok (Pc.mk s.cur.pc.ovl b 0, s) := by
  obtain ⟨k, hk, hlt⟩ := ovLength_of_lands hl
  unfold relTarget
  rw [bind_ok (get_run s), bind_ok hk, bind_ok (trapIf_false _ _ ?_)]
  · simp [hb, pure, StateT.pure, Except.pure]
  · simp [hb]
    omega

theorem indTarget_of_lands {a : Opd} {t : Pc} {far : Bool} (ha : src64 s none a = t.zeroExtend 64) (hs : t.slot = 0)
    (hl : Lands s t.ovl t.blk) (hf : far = true ∨ t.ovl = s.cur.pc.ovl) : indTarget a far s = .ok (t, s) := by
  obtain ⟨k, hk, hlt⟩ := ovLength_of_lands hl
  have hhigh : (t.zeroExtend 64).extractLsb' 40 24 = 0#24 := by
    ext i hi
    simp
  have hlow : (t.zeroExtend 64).extractLsb' 0 40 = t := by
    ext i hi
    simp [show i < 64 by omega, BitVec.getLsbD_eq_getElem hi]
  unfold indTarget
  rw [bind_ok (get_run s)]
  simp only [ha, hhigh, hlow]
  rw [bind_ok (trapIf_false _ _ (by simp)), bind_ok (trapIf_false _ _ ?_), bind_ok (trapIf_false _ _ (by simp [hs])), bind_ok hk,
    bind_ok (trapIf_false _ _ (by simpa using hlt))]
  · rfl
  · rcases hf with h | h <;> simp [h]

end Lands

/-! ## The issuing slot and the other one -/

section Parts
variable (c : Cohort) (x : Option PcPart)

@[simp] theorem part?_setPart : (c.setPart x).part? = x := by
  cases h : c.c.isB <;> simp [Cohort.part?, Cohort.setPart, h]
@[simp] theorem other?_setPart : (c.setPart x).other? = c.other? := by
  cases h : c.c.isB <;> simp [Cohort.other?, Cohort.setPart, h]
@[simp] theorem part?_setOther : (c.setOther x).part? = c.part? := by
  cases h : c.c.isB <;> simp [Cohort.part?, Cohort.setOther, h]
@[simp] theorem other?_setOther : (c.setOther x).other? = x := by
  cases h : c.c.isB <;> simp [Cohort.other?, Cohort.setOther, h]
@[simp] theorem stackTrap_setPart : (c.setPart x).c.stackTrap = c.c.stackTrap := by
  cases h : c.c.isB <;> simp [Cohort.setPart, h]
@[simp] theorem stackTrap_setOther : (c.setOther x).c.stackTrap = c.c.stackTrap := by
  cases h : c.c.isB <;> simp [Cohort.setOther, h]
@[simp] theorem dstop_setPart : (c.setPart x).c.dstop = c.c.dstop := by
  cases h : c.c.isB <;> simp [Cohort.setPart, h]
@[simp] theorem pend_setPart : (c.setPart x).c.pend = c.c.pend := by
  cases h : c.c.isB <;> simp [Cohort.setPart, h]
@[simp] theorem pend_setOther : (c.setOther x).c.pend = c.c.pend := by
  cases h : c.c.isB <;> simp [Cohort.setOther, h]
@[simp] theorem setPart_setPart (y : Option PcPart) : (c.setPart y).setPart x = c.setPart x := by
  cases h : c.c.isB <;> simp [Cohort.setPart, h]

end Parts

/-! ## Slots at which no rule applies -/

/-- No rule of R299 applies: of two parts one runs; a single part runs, with an empty stack. -/
structure Settled (c : Cohort) : Prop where
  trap : c.c.stackTrap = none
  parts : match c.part?, c.other? with
    | some x, some y => x.run = true ∨ y.run = true
    | some x, none => x.run = true ∧ c.c.dstop = 0
    | none, some y => y.run = true ∧ c.c.dstop = 0
    | none, none => c.c.dstop = 0

theorem ruleStep_settled {s : State} (hs : Settled s.cur) (pc : Pc) (lanes : Mask) : ruleStep pc lanes s = .ok (false, s) := by
  obtain ⟨-, h⟩ := hs
  unfold ruleStep
  rw [bind_ok (get_run s)]
  cases hB : s.cur.c.isB <;> rcases ha : s.cur.c.a with _ | a <;> rcases hb : s.cur.c.b with _ | b <;>
    simp only [Cohort.part?, Cohort.other?, hB, ha, hb, Bool.false_eq_true, if_true, if_false] at h ⊢
  case false.some.some | true.some.some => rcases h with h | h <;> simp [h, pure, StateT.pure, Except.pure]
  all_goals simp [h, isRunning, pure, StateT.pure, Except.pure]

theorem settle_settled {s : State} (hs : Settled s.cur) (pc : Pc) (lanes : Mask) : settle pc lanes s = .ok ((), s) := by
  have htrap : (s.updC fun c => { c with stackTrap := none }) = s := by
    have h := hs.trap
    simp only [State.updC]
    rw [← h]
  unfold settle
  rw [htrap, runRules, bind_ok (ruleStep_settled hs pc lanes)]
  rfl

/-! ## Moving the lanes of a slot -/

section Moves
variable {s : State}

theorem other_run {y : PcPart} (hs : Rested s) (hy : s.cur.other? = some y) : y.run = true := by
  have h := hs.other
  rwa [hy] at h

theorem dstop_of_other (hs : Rested s) (hy : s.cur.other? = none) : s.cur.c.dstop = 0 := by
  have h := hs.other
  rwa [hy] at h

/-- A part that runs in place of the issuing one. -/
theorem settled_setPart {p : PcPart} (hs : Rested s) (hp : p.run = true) : Settled (s.cur.setPart (some p)) := by
  refine ⟨by simp [hs.trap], ?_⟩
  rw [part?_setPart, other?_setPart, dstop_setPart]
  cases hy : s.cur.other? with
  | none => exact ⟨hp, dstop_of_other hs hy⟩
  | some y => exact .inl hp

/-- An empty slot in place of the issuing one, with nothing on the stack. -/
theorem settled_setPart_none (hs : Rested s) (hd : s.cur.c.dstop = 0) : Settled (s.cur.setPart none) := by
  refine ⟨by simp [hs.trap], ?_⟩
  rw [part?_setPart, other?_setPart, dstop_setPart]
  cases hy : s.cur.other? with
  | none => exact hd
  | some y => exact ⟨other_run hs hy, hd⟩

/-- Two parts, the other one running. -/
theorem settled_of_other {c : Cohort} {x y : PcPart} (htrap : c.c.stackTrap = none) (hx : c.part? = some x) (hy : c.other? = some y)
    (hrun : y.run = true) : Settled c := by
  refine ⟨htrap, ?_⟩
  rw [hx, hy]
  exact .inr hrun

/-- Some lanes of the issuing slot, and not all, have moved into the other one. -/
theorem branched_cur {x : PcPart} (hx : s.cur.part? = some x) {m : Mask} (t : Pc) (hm : m ≠ x.mask) :
    (branched m t s).cur = (s.cur.setPart (some { PcPart.advance s s.cur x with mask := x.mask &&& ~~~m })).setOther (some ⟨true, t, m, false⟩) := by
  simp only [branched, State.updCur_cur, hx, hm, if_false]

theorem branched_settled (hs : Rested s) (m : Mask) (t : Pc) : Settled (branched m t s).cur := by
  obtain ⟨x, hx, -⟩ := hs.part
  by_cases hm : m = x.mask
  · simp only [branched, State.updCur_cur, hx, hm, if_true]
    exact settled_setPart hs rfl
  · rw [branched_cur hx t hm]
    exact settled_of_other (by simp [hs.trap]) (by simp; rfl) (by simp; rfl) rfl

theorem fallThrough_rested (hs : Rested s) : fallThrough s = s.cur.part?.map (PcPart.advance s s.cur) := by
  simp [fallThrough, hs.stage]

theorem smask_of_part {c : Cohort} {x : PcPart} (hx : c.part? = some x) : c.smask = x.mask := by simp [Cohort.smask, hx]

theorem moveLanes_branched (hs : Rested s) {m : Mask} (t : Pc) (hm : m = s.cur.smask ∨ s.cur.other? = none) :
    moveLanes m t s = .ok ((), branched m t s) := by
  obtain ⟨x, hx, -⟩ := hs.part
  rw [smask_of_part hx] at hm
  unfold moveLanes branched
  rw [bind_ok (get_run s)]
  simp only [hx, fallThrough_rested hs, beq_iff_eq]
  split
  case isTrue h => simp [M.upd, State.updCur, hx, h]
  case isFalse h =>
    simp [hm.resolve_left h, M.upd, State.updCur, hx, h]

theorem moveLanes_pushed {s1 : State} {y : PcPart} (hs : Rested s) {m : Mask} (t : Pc) (hm : m ≠ s.cur.smask)
    (hy : s.cur.other? = some y) (hh : s.cur.c.hm = false) (hd : s.cur.c.dstop ≠ s.cur.pl.dsDepth)
    (hst : stackStore (s.cur.stackAt s.cur.c.dstop) y s = .ok ((), s1)) (hc : s1.cur.c = s.cur.c) (hsl : s1.slots = s.slots)
    (hpl : s1.cur.pl = s.cur.pl) :
    moveLanes m t s = .ok ((), (branched m t s1).updC fun c => { c with dstop := c.dstop + 1, stack := (y.pc.ovl, y.mask) :: c.stack }) := by
  obtain ⟨x, hx, -⟩ := hs.part
  have hx1 : s1.cur.part? = some x := by rw [← hx, Cohort.part?, Cohort.part?, hc]
  have hadv : PcPart.advance s1 s1.cur x = PcPart.advance s s.cur x := by
    simp [PcPart.advance, blockAt?, ovSlot?, hsl, hpl]
  rw [smask_of_part hx] at hm
  unfold moveLanes branched
  rw [bind_ok (get_run s)]
  simp only [hx, fallThrough_rested hs, beq_iff_eq, hm, if_false, hy]
  rw [bind_ok (trapIf_false _ _ (by simp [hh, hd])), bind_ok hst]
  simp [M.upd, State.updCur, State.updC, hx1, hm, hadv]

theorem pushed_settled {y : PcPart} (hs : Rested s) {s1 : State} {m : Mask} (t : Pc) (hm : m ≠ s.cur.smask) (hc : s1.cur.c = s.cur.c) :
    Settled ((branched m t s1).updC fun c => { c with dstop := c.dstop + 1, stack := (y.pc.ovl, y.mask) :: c.stack }).cur := by
  obtain ⟨x, hx, -⟩ := hs.part
  have hx1 : s1.cur.part? = some x := by rw [← hx, Cohort.part?, Cohort.part?, hc]
  rw [smask_of_part hx] at hm
  have hb := branched_cur hx1 t hm
  exact settled_of_other (x := { PcPart.advance s1 s1.cur x with mask := x.mask &&& ~~~m }) (y := ⟨true, t, m, false⟩)
    (show (branched m t s1).cur.c.stackTrap = none by simp [hb, hc, hs.trap])
    (show (branched m t s1).cur.part? = _ by simp [hb]) (show (branched m t s1).cur.other? = _ by simp [hb]) rfl

end Moves

/-! ## BRA, BRX, RET -/

section Branches
variable {s : State} {act : Mask} {t : Pc} {target : M Pc} {b : Nat}

theorem branchM_none : branchM 0#32 target s = .ok ((), advancePc s) := rfl

/-- A lane-form transfer with a target that is there, once its lanes have moved. -/
theorem branchM_moved {s' : State} (ha : act ≠ 0#32) (ht : target s = .ok (t, s)) (hl : Lands s t.ovl b)
    (hm : moveLanes act t s = .ok ((), s')) (hs : Settled s'.cur) : branchM act target s = .ok ((), s') := by
  unfold branchM
  rw [bind_ok (get_run s)]
  simp only [beq_iff_eq, ha, if_false]
  rw [bind_ok ht, bind_ok (reach_of_lands hl), bind_ok hm]
  exact settle_settled hs _ _

/-- The three outcomes of a lane-form transfer. -/
theorem branch_outcomes {mt : Meta} (h : Hdr) (hc : Calm s) (hr : Rested s) (hu : Usable s mt) (huni : mt.uni = false)
    (ht : target s = .ok (t, s)) (hl : Lands s t.ovl b) :
    let i := runI h mt true (fun act => branchM act target) s
    let act := activeMask h false s.cur
    (act = 0#32 → i = .next (finished h s))
    ∧ (act ≠ 0#32 → act = s.cur.smask ∨ s.cur.other? = none → i = .next (retire h.sc (branched act t s)))
    ∧ (∀ y s1, act ≠ 0#32 → act ≠ s.cur.smask → s.cur.other? = some y → s.cur.c.hm = false → s.cur.c.dstop ≠ s.cur.pl.dsDepth →
        stackStore (s.cur.stackAt s.cur.c.dstop) y s = .ok ((), s1) → s1.cur.c = s.cur.c → s1.slots = s.slots → s1.cur.pl = s.cur.pl →
        i = .next (retire h.sc ((branched act t s1).updC fun c =>
          { c with dstop := c.dstop + 1, stack := (y.pc.ovl, y.mask) :: c.stack }))) := by
  intro i act
  have run {s'} (h' : branchM act target s = .ok ((), s')) : i = .next (retire h.sc s') := by
    have hb : bodyRuns mt (activeMask h mt.uni s.cur) = true := by simp [bodyRuns, huni]
    exact runI_ok (own := true) (body := fun act => branchM act target) hc hu hb (by rw [huni]; exact h')
  refine ⟨fun ha => run (by rw [ha]; rfl), fun ha hm => ?_, fun y s1 ha hm hy hh hd hst hc1 hsl hpl => ?_⟩
  · exact run (branchM_moved ha ht hl (moveLanes_branched hr t hm) (branched_settled hr act t))
  · exact run (branchM_moved ha ht hl (moveLanes_pushed hr t hm hy hh hd hst hc1 hsl hpl) (pushed_settled hr t hm hc1))

end Branches

/-! ## CALL -/

/-- The moves of CALL: every lane of the slot, then the link. -/
theorem callTo_run {s : State} (hc : Calm s) (hr : Rested s) (d : Opd) (t : Pc) :
    callTo d t s = .ok ((), gives (dstN d none 2 (Pc.mk s.cur.pc.ovl (s.cur.pc.blk + 1) 0).toNat) 0 (some 0) (branched s.cur.smask t s)) := by
  obtain ⟨x, hx, -⟩ := hr.part
  have hcur : (branched s.cur.smask t s).cur = s.cur.setPart (some ⟨true, t, s.cur.smask, false⟩) := by
    simp [branched, hx, smask_of_part hx]
  have hset := branched_settled hr s.cur.smask t
  unfold callTo
  rw [bind_ok (get_run s), bind_ok (moveLanes_branched hr t (.inl rfl)), bind_ok (emitR_calm (by simp [hcur, hc.pend]) _ _ _)]
  exact settle_settled (s := gives _ _ _ (branched s.cur.smask t s)) ⟨hset.trap, hset.parts⟩ _ _

/-! ## EXIT -/

theorem lateM_calm {s : State} (hc : Calm s) (l : List Nat) : lateM l s = .ok ((), s) := by
  simp [lateM, dueLate_calm hc]

theorem endInvocation_none {s : State} (hi : s.cur.x.inv = none) (publish : Bool) : endInvocation publish s = s := by
  simp [endInvocation, hi]

theorem lastExit_calm {s : State} (hc : Calm s) (hlog : ownLogged s = false) (howed : owed s s.cur.pl.id = false) (hi : s.cur.x.inv = none)
    (hf : deliverFault (ownTiles s) s = .ok ((), s)) : lastExit s = .ok ((), endLanes 0 s) := by
  unfold lastExit
  rw [bind_ok (waitUntil_run (by simp [howed])), bind_ok (waitUntil_run (by simp [hlog])), bind_ok (get_run s), bind_ok hf,
    bind_ok (lateM_calm hc _)]
  simp [hi, M.upd, endInvocation_none hi]

/-- What remains of a cohort that leaves the barrier it waits at. -/
theorem leaveBar_frame {s : State} (hst : s.cur.c.stage = .start) :
    (leaveBar s).cur.c.pend = s.cur.c.pend ∧ (leaveBar s).cur.r = s.cur.r ∧ (leaveBar s).others = s.others := by
  unfold leaveBar
  rw [hst]
  dsimp only
  split
  · exact ⟨rfl, rfl, rfl⟩
  · split <;> exact ⟨rfl, rfl, rfl⟩

theorem drain_r {c : Cohort} (h : c.c.pend = []) : c.drain.r = c.r := by rw [drain_nil h]

/-- What a cohort is when its last lanes have exited. -/
theorem endLanes_frame {s : State} (hp : s.cur.c.pend = []) (hst : s.cur.c.stage = .start) (how : Nat) :
    let t := endLanes how s
    t.cur.c.ending = some how ∧ t.cur.c.a = none ∧ t.cur.c.b = none ∧ t.cur.c.stack = [] ∧ t.cur.c.pend = [] ∧ t.cur.r = s.cur.r
      ∧ t.others = s.others := by
  obtain ⟨hp', hr, ho⟩ := leaveBar_frame hst
  exact ⟨rfl, rfl, rfl, rfl, rfl, by simpa [endLanes, Cohort.closeIdem, drain_r (hp'.trans hp)] using hr, ho⟩

theorem tick_cur (s : State) (n : Nat) : (s.tick n).cur = s.cur := by
  simp only [State.tick, State.passTime, State.updM_cur]
  split <;> rfl

theorem tick_others (s : State) (n : Nat) : (s.tick n).others = s.others := by
  simp only [State.tick, State.passTime, State.updM_others]
  split <;> rfl

/-- What an issue leaves alone of a cohort with nothing outstanding. -/
theorem retire_frame {s : State} (hp : s.cur.c.pend = []) (sc : Sched) :
    let t := retire sc s
    t.cur.c.ending = s.cur.c.ending ∧ t.cur.c.a = s.cur.c.a ∧ t.cur.c.b = s.cur.c.b ∧ t.cur.c.stack = s.cur.c.stack ∧ t.cur.r = s.cur.r
      ∧ t.others = s.others := by
  dsimp only [retire]
  rw [tick_cur, tick_others]
  simp only [State.updCur_cur]
  split
  · rw [drain_nil (by exact hp)]
    exact ⟨rfl, rfl, rfl, rfl, rfl, rfl⟩
  · exact ⟨rfl, rfl, rfl, rfl, rfl, rfl⟩

theorem usable_plain (s : State) : Usable s {} := ⟨rfl, rfl, nofun⟩

section Exit
variable {s : State} (h : Hdr) (hc : Calm s)
include hc

theorem exit_none (ha : activeMask h false s.cur = 0#32) : exec (.exit h) s = .next (finished h s) := by
  refine runI_ok (own := true) hc (usable_plain s) rfl ?_
  simp [ha, M.upd]

/-- EXIT of some of the cohort's lanes: the slot keeps the others, or is empty. -/
theorem exit_some {u : State} (ha : activeMask h false s.cur ≠ 0#32)
    (hl : (s.cur.slotLanes ||| s.cur.stackLanes) &&& ~~~activeMask h false s.cur ≠ 0#32)
    (hu : u = if s.cur.smask &&& ~~~activeMask h false s.cur = 0#32 then s.updCur fun c => c.setPart none
      else (advancePc s).updCur fun c => c.setPart (c.part?.map fun p => { p with mask := s.cur.smask &&& ~~~activeMask h false s.cur }))
    (hs : Settled u.cur) : exec (.exit h) s = .next (retire h.sc u) := by
  refine runI_ok (own := true) hc (usable_plain s) rfl ?_
  simp only [beq_iff_eq, ha, if_false]
  rw [bind_ok (upd_run _ s), closeIdem_none hc.idem, bind_ok (get_run s)]
  simp only [hl, if_false]
  rw [bind_ok (upd_run _ s), ← hu]
  exact settle_settled hs _ _

theorem exit_last (ha : activeMask h false s.cur ≠ 0#32)
    (hl : (s.cur.slotLanes ||| s.cur.stackLanes) &&& ~~~activeMask h false s.cur = 0#32) (hlog : ownLogged s = false)
    (howed : owed s s.cur.pl.id = false) (hi : s.cur.x.inv = none) (hf : deliverFault (ownTiles s) s = .ok ((), s)) :
    exec (.exit h) s = .next (retire h.sc (endLanes 0 s)) := by
  refine runI_ok (own := true) hc (usable_plain s) rfl ?_
  simp only [beq_iff_eq, ha, if_false]
  rw [bind_ok (upd_run _ s), closeIdem_none hc.idem, bind_ok (get_run s)]
  simp only [hl, if_true]
  exact lastExit_calm hc hlog howed hi hf

end Exit

theorem advance_run (s : State) (c : Cohort) (p : PcPart) : (PcPart.advance s c p).run = p.run := by
  unfold PcPart.advance
  split
  · split <;> rfl
  · rfl

/-- Settles O42: a transfer that meets no wait moves its lanes, after which no rule of R299 applies. -/
theorem controlTransfers : Obligations.ControlTransfers := by
  intro h s hc hr act on pc link
  refine ⟨?_, ?_, ?_, ?_, ?_⟩
  · rintro a off i t (⟨rfl, b, hb, hl, rfl⟩ | ⟨⟨rfl, hovl⟩ | rfl, hu, hsrc, hslot, hl⟩)
    · exact branch_outcomes h hc hr (usable_plain s) rfl (relTarget_of_lands hb hl) (b := b) (by rwa [Pc.ovl_mk_ovl])
    · exact branch_outcomes h hc hr hu rfl (indTarget_of_lands hsrc hslot hl (.inr hovl)) hl
    · exact branch_outcomes h hc hr hu rfl (indTarget_of_lands hsrc hslot hl (.inl rfl)) hl
  · rintro d a off i t (⟨rfl, hu, b, hb, hl, rfl⟩ | ⟨rfl, hu, hsrc, hslot, hl⟩)
    · refine ⟨fun hon => runI_ok (own := true) hc hu (by simpa [bodyRuns] using hon) ?_,
        fun hon => runI_off hc hu (by simpa [bodyRuns, on] using hon)⟩
      rw [bind_ok (relTarget_of_lands hb hl)]
      exact callTo_run hc hr d _
    · refine ⟨fun hon => runI_ok (own := true) hc hu (by simpa [bodyRuns] using hon) ?_,
        fun hon => runI_off hc hu (by simpa [bodyRuns, on] using hon)⟩
      rw [bind_ok (indTarget_of_lands hsrc hslot hl (.inl rfl)), bind_ok (reach_of_lands hl)]
      exact callTo_run hc hr d t
  · exact exit_none h hc
  · intro ha hl
    obtain ⟨x, hx, hrun⟩ := hr.part
    refine ⟨fun hrest => exit_some h hc ha hl (if_neg hrest).symm ?_, fun hrest hd => exit_some h hc ha hl (if_pos hrest).symm ?_⟩
    · have hp := settled_setPart (p := { PcPart.advance s s.cur x with mask := s.cur.smask &&& ~~~activeMask h false s.cur }) hr
        (by rw [← hrun, ← advance_run s s.cur x])
      simpa [advancePc, hx] using hp
    · exact settled_setPart_none hr hd
  · intro ha hl hlog howed hi hf
    obtain ⟨hend, hea, heb, hestack, hepend, her, heo⟩ := endLanes_frame hc.pend hr.stage 0
    obtain ⟨h1, h2, h3, h4, h5, h6⟩ := retire_frame hepend h.sc
    exact ⟨_, exit_last h hc ha hl hlog howed hi hf, h1.trans hend, h2.trans hea, h3.trans heb, h4.trans hestack, h5.trans her, h6.trans heo⟩

end Machine
end Sys2Proof
end

section
/-! SUPPORT. The rounding (R55, R57, R58): its code and flags, what rounding to a multiple of a power gives, the values of codes, and that none lies between two neighbours. -/

namespace Sys2Proof.Machine

/-! ## The parts of the rounding -/

/-- The exponent of the last place of a value in a format. -/
def lastPlace (f : Fmt) (m : Nat) (e : Int) : Int := max (lead m + e - f.t) (1 - (f.bias : Int) - f.t)

/-- A significand that rounding carried into the next binade, brought back. -/
def carried (f : Fmt) (n : Nat) (q : Int) : Nat × Int := if n == 2 ^ (f.t + 1) then (2 ^ f.t, q + 1) else (n, q)

/-- The code of n·2^q without its sign. -/
def magCode (f : Fmt) (n : Nat) (q : Int) : Nat := if n < 2 ^ f.t then n else (q + f.t + f.bias).toNat * 2 ^ f.t + (n - 2 ^ f.t)

/-- The code of a value that is not zero, rounded. -/
def roundCode (f : Fmt) (rm : Rnd) (neg : Bool) (m : Nat) (e : Int) (st : Bool) : Nat :=
  let nq := carried f (quantize rm neg m e st (lastPlace f m e)).1 (lastPlace f m e)
  magCode f nq.1 nq.2

/-- The flags of a rounding that does not overflow. -/
def roundFlags (f : Fmt) (rm : Rnd) (neg : Bool) (m : Nat) (e : Int) (st : Bool) : Flags :=
  let inexact := (quantize rm neg m e st (lastPlace f m e)).2
  let nu := (quantize rm neg m e st (lead m + e - f.t)).1
  (if inexact then Fl.inexact else 0)
    ||| (if decide (lead m + e < 1 - (f.bias : Int)) && inexact && (decide (lead nu + (lead m + e - f.t) < 1 - (f.bias : Int)) || nu == 0)
      then Fl.underflow else 0)

section Cases
variable (f : Fmt) (rm : Rnd) (sat ftz neg : Bool) (m : Nat) (e : Int) (st : Bool)

theorem roundFlags_exact (h : (quantize rm neg m e st (lastPlace f m e)).2 = false) : roundFlags f rm neg m e st = 0 := by
  simp [roundFlags, h]

theorem roundFin_eq : f.roundFin rm sat ftz neg m e st =
    if m == 0 && !st then (f.sgn neg, 0)
    else if f.maxCode < roundCode f rm neg m e st then (f.big rm sat neg, Fl.overflow ||| Fl.inexact)
    else
      let n := (carried f (quantize rm neg m e st (lastPlace f m e)).1 (lastPlace f m e)).1
      if ftz && n != 0 && n < 2 ^ f.t then (f.sgn neg, roundFlags f rm neg m e st ||| Fl.underflow ||| Fl.inexact)
      else (f.sgn neg + roundCode f rm neg m e st, roundFlags f rm neg m e st) := rfl

/-- The code of a rounding: zero, what an overflow gives, or a code up to the largest, with the sign. -/
theorem roundFin_fst : (f.roundFin rm sat ftz neg m e st).1 = f.sgn neg ∨ (f.roundFin rm sat ftz neg m e st).1 = f.big rm sat neg
    ∨ ∃ c ≤ f.maxCode, (f.roundFin rm sat ftz neg m e st).1 = f.sgn neg + c := by
  rw [roundFin_eq]
  split
  · exact .inl rfl
  · split
    · exact .inr (.inl rfl)
    · next h =>
      dsimp only
      split
      · exact .inl rfl
      · exact .inr (.inr ⟨_, Nat.le_of_not_lt h, rfl⟩)

end Cases

/-! ## Rounding to a multiple -/

/-- What rounding z to an integer by a mode gives, for a magnitude of a sign. -/
structure RoundsTo (rm : Rnd) (neg : Bool) (z : ℚ) (n n0 : Nat) : Prop where
  floor : (n : ℚ) ≤ z
  above : z < n + 1
  near : n0 = n ∨ n0 = n + 1 ∧ z ≠ n
  rne : rm = .rne → |(n0 : ℚ) - z| ≤ |(n : ℚ) - z| ∧ |(n0 : ℚ) - z| ≤ |(n : ℚ) + 1 - z|
  toward : (rm = .rz ∨ (rm = .ru ∧ neg = true) ∨ (rm = .rd ∧ neg = false)) → n0 = n
  away : ((rm = .ru ∧ neg = false) ∨ (rm = .rd ∧ neg = true)) → z ≠ n → n0 = n + 1

section RoundsTo
variable {rm : Rnd} {neg : Bool} {n : Nat} {x : ℚ}

theorem roundsTo_down (h0 : 0 ≤ x) (h1 : x < 1) (hrne : rm = .rne → 2 * x ≤ 1)
    (haway : ((rm = .ru ∧ neg = false) ∨ (rm = .rd ∧ neg = true)) → x = 0) : RoundsTo rm neg (n + x) n n where
  floor := by linarith
  above := by linarith
  near := .inl rfl
  rne h := by
    have := hrne h
    rw [abs_of_nonpos (by linarith), abs_of_nonneg (by linarith)]
    exact ⟨le_rfl, by linarith⟩
  toward _ := rfl
  away h hne := absurd (by rw [haway h, add_zero]) hne

theorem roundsTo_up (h0 : x ≠ 0) (h1 : x < 1) (hpos : 0 ≤ x) (hrne : rm = .rne → 1 ≤ 2 * x)
    (htoward : ¬ (rm = .rz ∨ (rm = .ru ∧ neg = true) ∨ (rm = .rd ∧ neg = false))) : RoundsTo rm neg (n + x) n (n + 1) where
  floor := by linarith
  above := by linarith
  near := .inr ⟨rfl, by simpa using h0⟩
  rne h := by
    have := hrne h
    push_cast
    rw [abs_of_nonneg (by linarith), abs_of_nonpos (by linarith)]
    exact ⟨by linarith, le_rfl⟩
  toward h := absurd h htoward
  away _ _ := rfl

end RoundsTo

/-- A rounding with nothing below the last place. -/
theorem roundsTo_exact (rm : Rnd) (neg : Bool) (n : Nat) : RoundsTo rm neg n n n := by
  simpa using roundsTo_down (rm := rm) (neg := neg) (n := n) le_rfl zero_lt_one (fun _ => by norm_num) (fun _ => rfl)

theorem roundUp_exact (rm : Rnd) (neg odd : Bool) : roundUp rm neg odd false .lt = false := by cases rm <;> rfl

/-- The remainder against one half of the last place. -/
def halfOf (r p : Nat) : Ordering := if 2 * r < p then .lt else if 2 * r == p && !false then .eq else .gt

/-- A rounding up or down of n and r of p parts. -/
theorem roundsTo_parts (rm : Rnd) (neg odd : Bool) (n : Nat) {r p : Nat} (hr : r < p) :
    RoundsTo rm neg (n + r / p) n (if roundUp rm neg odd (r != 0) (halfOf r p) then n + 1 else n) := by
  have hp : (0 : ℚ) < p := by exact_mod_cast Nat.zero_lt_of_lt hr
  obtain ⟨x, hx⟩ : ∃ x : ℚ, x = r / p := ⟨_, rfl⟩
  have hx0 : 0 ≤ x := hx ▸ by positivity
  have hx1 : x < 1 := by rw [hx, div_lt_one hp]; exact_mod_cast hr
  have hzero : x = 0 ↔ r = 0 := by rw [hx, div_eq_zero_iff]; simp [hp.ne']
  have hz : (n : ℚ) + x ≠ n ↔ r ≠ 0 := by rw [Ne, add_eq_left, hzero]
  rw [← hx]
  have hlt : 2 * r < p ↔ 2 * x < 1 := by
    rw [hx, ← mul_div_assoc, div_lt_one hp]
    exact_mod_cast Iff.rfl
  have heq : 2 * r = p ↔ 2 * x = 1 := by
    rw [hx, ← mul_div_assoc, div_eq_one_iff_eq hp.ne']
    exact_mod_cast Iff.rfl
  have hr0 : (r != 0) = true ↔ x ≠ 0 := by simp [hzero]
  cases hup : roundUp rm neg odd (r != 0) (halfOf r p)
  · refine roundsTo_down hx0 hx1 (fun h => ?_) (fun h => ?_)
    · subst h
      by_contra hgt
      have h1 : ¬ 2 * r < p := by rw [hlt]; linarith
      have h2 : ¬ 2 * r = p := by rw [heq]; linarith
      simp [roundUp, halfOf, h1, h2] at hup
    · rcases h with ⟨rfl, rfl⟩ | ⟨rfl, rfl⟩ <;> simpa [roundUp, hzero] using hup
  · have hne : x ≠ 0 ∨ rm = .rne := by
      rw [← hr0]
      cases rm <;> simp_all [roundUp]
    have hrne : rm = .rne → 1 ≤ 2 * x := by
      rintro rfl
      by_contra hgt
      have h1 : 2 * r < p := by rw [hlt]; linarith
      simp [roundUp, halfOf, h1] at hup
    refine roundsTo_up (hne.elim id fun h hx => ?_) hx1 hx0 hrne ?_
    · have := hrne h
      rw [hx] at this
      norm_num at this
    · rintro (rfl | ⟨rfl, rfl⟩ | ⟨rfl, rfl⟩) <;> simp [roundUp] at hup

theorem mag_sub (m : Nat) (e q : Int) : mag m e = mag m (e - q) * 2 ^ q := by
  rw [mag, mag, mul_assoc, ← zpow_add₀ (by norm_num)]
  congr 2
  ring

/-- The multiple of 2^q that a value without a remainder is rounded to, and when it is inexact. -/
theorem quantize_spec (rm : Rnd) (neg : Bool) (m : Nat) (e q : Int) :
    ∃ n, RoundsTo rm neg (mag m (e - q)) n (quantize rm neg m e false q).1
      ∧ ((quantize rm neg m e false q).2 = false ↔ mag m (e - q) = n) := by
  unfold quantize
  split
  · next hq =>
    refine ⟨m * 2 ^ (e - q).toNat, ?_, ?_⟩
    all_goals
      have hz : mag m (e - q) = ((m * 2 ^ (e - q).toNat : Nat) : ℚ) := by
        rw [mag]
        push_cast
        congr 1
        rw [← zpow_natCast, Int.toNat_of_nonneg (by omega)]
      rw [hz]
    · simpa only [roundUp_exact, Bool.false_eq_true, if_false] using roundsTo_exact rm neg _
    · simp
  · next hq =>
    obtain ⟨k, hk⟩ : ∃ k : Nat, q - e = k := ⟨(q - e).toNat, by omega⟩
    have hk' : (q - e).toNat = k := by omega
    have hq' : e - q = -(k : ℤ) := by omega
    have hr : m % 2 ^ k < 2 ^ k := Nat.mod_lt _ (by positivity)
    have hz : mag m (e - q) = ((m / 2 ^ k : Nat) : ℚ) + ((m % 2 ^ k : Nat) : ℚ) / ((2 ^ k : Nat) : ℚ) := by
      have hm : (m : ℚ) = ((2 ^ k : Nat) : ℚ) * ((m / 2 ^ k : Nat) : ℚ) + ((m % 2 ^ k : Nat) : ℚ) := by exact_mod_cast (Nat.div_add_mod m (2 ^ k)).symm
      rw [mag, hq', zpow_neg, zpow_natCast, hm]
      push_cast
      field_simp
    refine ⟨m / 2 ^ k, ?_, ?_⟩
    · rw [hz, hk']
      simp only [Bool.or_false]
      exact roundsTo_parts rm neg (m / 2 ^ k % 2 == 1) (m / 2 ^ k) hr
    · rw [hz, hk']
      simp

/-! ## The values of codes -/

/-- A format with an exponent and a fraction, as all of R57 have. -/
structure Regular (f : Fmt) : Prop where
  exponent : 1 ≤ f.e
  fraction : 1 ≤ f.t

theorem regular_of_mem {f : Fmt} (h : f ∈ [Fmt.f64, .f32, .f16, .bf16, .e4m3, .e5m2, .e3m2, .e2m3, .e2m1]) : Regular f := by
  simp only [List.mem_cons, List.not_mem_nil, or_false] at h
  obtain rfl | rfl | rfl | rfl | rfl | rfl | rfl | rfl | rfl := h
  all_goals exact ⟨by decide, by decide⟩

section Codes
variable {f : Fmt}

theorem maxCode_lt (h : Regular f) : f.maxCode < 2 ^ (f.e + f.t) := by
  have he : 2 ≤ 2 ^ f.e := Nat.le_self_pow (by have := h.exponent; omega) 2
  have ht : 0 < 2 ^ f.t := by positivity
  unfold Fmt.maxCode
  rw [Nat.pow_add]
  split
  · obtain ⟨x, hx⟩ : ∃ x, 2 ^ f.e = x + 2 := ⟨2 ^ f.e - 2, by omega⟩
    rw [hx, Nat.add_sub_cancel, Nat.add_mul]
    omega
  · have : 0 < 2 ^ f.e * 2 ^ f.t := by positivity
    omega
  · have : 0 < 2 ^ f.e * 2 ^ f.t := by positivity
    omega

/-- The fields of a code with its sign. -/
theorem fields_sgn (neg : Bool) {c : Nat} (hc : c < 2 ^ (f.e + f.t)) :
    nbit (f.sgn neg + c) (f.e + f.t) = neg ∧ (f.sgn neg + c) / 2 ^ f.t % 2 ^ f.e = c / 2 ^ f.t ∧ (f.sgn neg + c) % 2 ^ f.t = c % 2 ^ f.t := by
  have hq : c / 2 ^ f.t < 2 ^ f.e := by
    rw [Nat.div_lt_iff_lt_mul (by positivity), ← Nat.pow_add]
    exact hc
  cases neg
  · simp only [Fmt.sgn, Bool.false_eq_true, if_false, Nat.zero_add]
    exact ⟨Nat.testBit_lt_two_pow hc, Nat.mod_eq_of_lt hq, trivial⟩
  · simp only [Fmt.sgn, if_true]
    refine ⟨?_, ?_, ?_⟩
    · rw [nbit, Nat.testBit_two_pow_add_eq, Nat.testBit_lt_two_pow hc]
      rfl
    · rw [Nat.pow_add, Nat.mul_comm, Nat.mul_add_div (by positivity), Nat.add_mod_left, Nat.mod_eq_of_lt hq]
    · rw [Nat.pow_add, Nat.mul_comm, Nat.mul_add_mod]

/-- Does a code without sign stand for an infinity or a NaN (R58)? -/
def isSpecial (f : Fmt) (c : Nat) : Bool :=
  match f.kind with
  | .ieee => c / 2 ^ f.t == 2 ^ f.e - 1
  | .e4m3 => c / 2 ^ f.t == 2 ^ f.e - 1 && c % 2 ^ f.t == 2 ^ f.t - 1
  | .fin => false

theorem isSpecial_of_le (h : Regular f) {c : Nat} (hc : c ≤ f.maxCode) : isSpecial f c = false := by
  have he : 2 ≤ 2 ^ f.e := Nat.le_self_pow (by have := h.exponent; omega) 2
  have ht : 0 < 2 ^ f.t := by positivity
  unfold Fmt.maxCode at hc
  unfold isSpecial
  cases hk : f.kind <;> simp only [hk] at hc ⊢
  · have hlt : c / 2 ^ f.t < 2 ^ f.e - 1 := by
      rw [Nat.div_lt_iff_lt_mul ht, show 2 ^ f.e - 1 = 2 ^ f.e - 2 + 1 by omega, Nat.succ_mul]
      omega
    simp
    omega
  · rw [Bool.and_eq_false_iff]
    by_contra hall
    simp only [beq_eq_false_iff_ne, ne_eq, not_or, not_not] at hall
    obtain ⟨h1, h2⟩ := hall
    have hdiv := Nat.div_add_mod c (2 ^ f.t)
    rw [h1, h2, Nat.mul_sub, mul_one, mul_comm, ← Nat.pow_add] at hdiv
    have : 2 ^ f.t ≤ 2 ^ (f.e + f.t) := Nat.pow_le_pow_right (by decide) (by omega)
    have : 2 ^ 1 ≤ 2 ^ f.t := Nat.pow_le_pow_right (by decide) h.fraction
    omega

/-- The value of a code. -/
theorem val_eq (neg : Bool) {c : Nat} (hc : c < 2 ^ (f.e + f.t)) (hs : isSpecial f c = false) :
    f.val (f.sgn neg + c) = if c / 2 ^ f.t = 0 then .fin neg (c % 2 ^ f.t) (1 - (f.bias : Int) - f.t)
      else .fin neg (c % 2 ^ f.t + 2 ^ f.t) ((c / 2 ^ f.t : Nat) - (f.bias : Int) - f.t) := by
  obtain ⟨h1, h2, h3⟩ := fields_sgn neg hc
  unfold isSpecial at hs
  unfold Fmt.val
  simp only [h1, h2, h3, beq_iff_eq]
  rw [if_neg]
  rw [Bool.not_eq_true]
  exact hs

/-- An infinity or a NaN is no finite value. -/
theorem val_special {c : Nat} (hc : c < 2 ^ (f.e + f.t)) {neg : Bool} {k : Nat} {q : Int} (hv : f.val c = .fin neg k q) : isSpecial f c = false := by
  have hsgn : f.sgn false = 0 := rfl
  obtain ⟨h1, h2, h3⟩ := fields_sgn (f := f) false hc
  rw [hsgn, Nat.zero_add] at h1 h2 h3
  by_contra hs
  rw [Bool.not_eq_false] at hs
  unfold isSpecial at hs
  unfold Fmt.val at hv
  simp only [h1, h2] at hv
  rw [if_pos (by exact hs)] at hv
  split at hv <;> cases hv

/-- A finite value of a format is a multiple of the least place, and of a higher one only with its leading bit set. -/
structure Represented (f : Fmt) (k : Nat) (q : Int) : Prop where
  below : k < 2 ^ (f.t + 1)
  least : 1 - (f.bias : Int) - f.t ≤ q
  leading : q = 1 - (f.bias : Int) - f.t ∨ 2 ^ f.t ≤ k

theorem represented {c : Nat} (hc : c < 2 ^ (f.e + f.t)) {neg : Bool} {k : Nat} {q : Int} (hv : f.val c = .fin neg k q) : Represented f k q := by
  have h := val_eq false hc (val_special hc hv)
  rw [show f.sgn false = 0 from rfl, Nat.zero_add, hv] at h
  have hm : c % 2 ^ f.t < 2 ^ f.t := Nat.mod_lt _ (by positivity)
  have ht : 2 ^ (f.t + 1) = 2 ^ f.t + 2 ^ f.t := by rw [Nat.pow_succ]; omega
  split at h
  · cases h
    exact ⟨by omega, le_rfl, .inl rfl⟩
  · next h0 =>
    cases h
    have : 1 ≤ c / 2 ^ f.t := Nat.one_le_iff_ne_zero.mpr h0
    generalize c / 2 ^ f.t = ex at this
    exact ⟨by omega, by omega, .inr (by omega)⟩

/-- The code of n·2^q stands for it. -/
theorem val_magCode (h : Regular f) (neg : Bool) {n : Nat} {q : Int} (hn : Represented f n q) (hc : magCode f n q ≤ f.maxCode) :
    f.val (f.sgn neg + magCode f n q) = .fin neg n q := by
  have ht : 2 ^ (f.t + 1) = 2 ^ f.t + 2 ^ f.t := by rw [Nat.pow_succ]; omega
  have hbelow := hn.below
  rw [val_eq neg (hc.trans_lt (maxCode_lt h)) (isSpecial_of_le h hc)]
  by_cases hs : n < 2 ^ f.t
  · have hq : q = 1 - (f.bias : Int) - f.t := hn.leading.resolve_right (by omega)
    rw [magCode, if_pos hs, Nat.div_eq_of_lt hs, if_pos rfl, Nat.mod_eq_of_lt hs, hq]
  · have hleast := hn.least
    obtain ⟨ex, hex⟩ : ∃ ex : Nat, q + f.t + f.bias = ex := ⟨(q + f.t + f.bias).toNat, by omega⟩
    have hdiv : (ex * 2 ^ f.t + (n - 2 ^ f.t)) / 2 ^ f.t = ex := by
      rw [Nat.mul_comm, Nat.mul_add_div (by positivity), Nat.div_eq_of_lt (by omega), Nat.add_zero]
    have hmod : (ex * 2 ^ f.t + (n - 2 ^ f.t)) % 2 ^ f.t = n - 2 ^ f.t := by
      rw [Nat.mul_comm, Nat.mul_add_mod, Nat.mod_eq_of_lt (by omega)]
    rw [magCode, if_neg hs, hex, Int.toNat_natCast, hdiv, hmod, if_neg (by omega)]
    congr 1
    · omega
    · omega

end Codes

/-! ## No value lies between two neighbours -/

section Grid
variable {f : Fmt} {m : Nat} {e : Int}

theorem mag_lt_lead (hm : m ≠ 0) : (2 : ℚ) ^ (lead m + e) ≤ mag m e ∧ mag m e < 2 ^ (lead m + e + 1) := by
  have h1 : 2 ^ Nat.log2 m ≤ m := Nat.log2_self_le hm
  have h2 : m < 2 ^ (Nat.log2 m + 1) := Nat.lt_log2_self
  have hp : (0 : ℚ) < 2 ^ e := by positivity
  rw [mag, show lead m + e + 1 = ((Nat.log2 m + 1 : Nat) : ℤ) + e by simp [lead]; ring, lead, zpow_add₀ (by norm_num), zpow_add₀ (by norm_num),
    zpow_natCast, zpow_natCast]
  refine ⟨mul_le_mul_of_nonneg_right ?_ hp.le, mul_lt_mul_of_pos_right ?_ hp⟩
  · exact_mod_cast h1
  · exact_mod_cast h2

/-- Where the last place of a value stands against its leading bit. -/
theorem lastPlace_cases (f : Fmt) (m : Nat) (e : Int) :
    (lastPlace f m e = lead m + e - f.t ∧ 1 - (f.bias : Int) - f.t ≤ lastPlace f m e)
      ∨ (lastPlace f m e = 1 - (f.bias : Int) - f.t ∧ lead m + e - f.t ≤ lastPlace f m e) := by
  unfold lastPlace
  omega

/-- The value in units of its last place is below 2^(t + 1). -/
theorem scaled_lt (hm : m ≠ 0) : mag m (e - lastPlace f m e) < 2 ^ (f.t + 1) := by
  have h := (mag_lt_lead (e := e - lastPlace f m e) hm).2
  refine h.trans_le ?_
  rw [← zpow_natCast]
  refine zpow_le_zpow_right₀ (by norm_num) ?_
  have := lastPlace_cases f m e
  push_cast
  omega

/-- Above the least place the value in units of its last place is at least 2^t. -/
theorem le_scaled (hm : m ≠ 0) (h : lastPlace f m e ≠ 1 - (f.bias : Int) - f.t) : 2 ^ f.t ≤ mag m (e - lastPlace f m e) := by
  refine le_trans ?_ (mag_lt_lead (e := e - lastPlace f m e) hm).1
  rw [← zpow_natCast]
  refine zpow_le_zpow_right₀ (by norm_num) ?_
  have := lastPlace_cases f m e
  omega

/-- A value of the format lies at or below the floor, or at or above the next multiple, in units of the last place. -/
theorem represented_grid {k : Nat} {q : Int} (hk : Represented f k q) (hm : m ≠ 0) {n : Nat} (hn : mag m (e - lastPlace f m e) < n + 1) :
    mag k (q - lastPlace f m e) ≤ n ∨ (n : ℚ) + 1 ≤ mag k (q - lastPlace f m e) := by
  by_cases hq : lastPlace f m e ≤ q
  · obtain ⟨i, hi⟩ : ∃ i : Nat, q - lastPlace f m e = i := ⟨(q - lastPlace f m e).toNat, by omega⟩
    have hz : mag k (q - lastPlace f m e) = ((k * 2 ^ i : Nat) : ℚ) := by rw [hi, mag, zpow_natCast]; push_cast; rfl
    rw [hz]
    rcases Nat.lt_or_ge n (k * 2 ^ i) with h | h
    · exact .inr (by exact_mod_cast h)
    · exact .inl (by exact_mod_cast h)
  · have hlp : lastPlace f m e ≠ 1 - (f.bias : Int) - f.t := by have := hk.least; omega
    have ht : (2 : ℚ) ^ f.t < n + 1 := (le_scaled hm hlp).trans_lt hn
    have hn' : 2 ^ f.t ≤ n := by
      have : 2 ^ f.t < n + 1 := by exact_mod_cast ht
      omega
    left
    calc mag k (q - lastPlace f m e) ≤ (2 : ℚ) ^ (f.t + 1) * 2 ^ (-1 : ℤ) := by
          refine mul_le_mul (by exact_mod_cast hk.below.le) (zpow_le_zpow_right₀ (by norm_num) (by omega)) (by positivity) (by positivity)
      _ = 2 ^ f.t := by rw [pow_succ, zpow_neg_one]; ring
      _ ≤ n := by exact_mod_cast hn'

/-- What the rounding leaves is a value of the format, carried or not. -/
theorem represented_carried (hm : m ≠ 0) {rm : Rnd} {neg : Bool} {n n0 : Nat} (hr : RoundsTo rm neg (mag m (e - lastPlace f m e)) n n0) :
    let nq := carried f n0 (lastPlace f m e)
    Represented f nq.1 nq.2 ∧ mag nq.1 nq.2 = mag n0 (lastPlace f m e) := by
  have hcases := lastPlace_cases f m e
  have hlt : n < 2 ^ (f.t + 1) := by
    have : (n : ℚ) < 2 ^ (f.t + 1) := hr.floor.trans_lt (scaled_lt hm)
    exact_mod_cast this
  have hle : n0 ≤ 2 ^ (f.t + 1) := by rcases hr.near with h | h <;> omega
  have hpow : 2 ^ f.t < 2 ^ (f.t + 1) := Nat.pow_lt_pow_right (by decide) (by omega)
  unfold carried
  split
  · next hc =>
    refine ⟨⟨hpow, by dsimp only; omega, .inr le_rfl⟩, ?_⟩
    rw [eq_of_beq hc, mag, mag, zpow_add₀ (by norm_num)]
    push_cast
    ring
  · next hc =>
    have hne : n0 ≠ 2 ^ (f.t + 1) := by simpa using hc
    refine ⟨⟨by dsimp only; omega, by dsimp only; omega, ?_⟩, rfl⟩
    by_cases hl : lastPlace f m e = 1 - (f.bias : Int) - f.t
    · exact .inl hl
    · right
      have h1 : (2 : ℚ) ^ f.t < n + 1 := (le_scaled hm hl).trans_lt hr.above
      have h2 : 2 ^ f.t < n + 1 := by exact_mod_cast h1
      rcases hr.near with h | h <;> dsimp only <;> omega

end Grid

/-! ## The statement -/

/-- How a rounded magnitude y of x stands to another value v of the format. -/
structure Neighbour (rm : Rnd) (neg : Bool) (x y v : ℚ) : Prop where
  rne : rm = .rne → |y - x| ≤ |v - x|
  toward : (rm = .rz ∨ (rm = .ru ∧ neg = true) ∨ (rm = .rd ∧ neg = false)) → y ≤ x ∧ (v ≤ x → v ≤ y)
  away : ((rm = .ru ∧ neg = false) ∨ (rm = .rd ∧ neg = true)) → x ≤ y ∧ (x ≤ v → y ≤ v)

theorem RoundsTo.neighbour {rm : Rnd} {neg : Bool} {z v : ℚ} {n n0 : Nat} (h : RoundsTo rm neg z n n0) (hv : v ≤ n ∨ (n : ℚ) + 1 ≤ v) :
    Neighbour rm neg z n0 v where
  rne hrm := by
    obtain ⟨h1, h2⟩ := h.rne hrm
    have hfloor := h.floor
    have habove := h.above
    rcases hv with hv | hv
    · refine h1.trans ?_
      rw [abs_of_nonpos (by linarith), abs_of_nonpos (by linarith)]
      linarith
    · refine h2.trans ?_
      rw [abs_of_nonneg (by linarith), abs_of_nonneg (by linarith)]
      linarith
  toward hrm := by
    rw [h.toward hrm]
    refine ⟨h.floor, fun hvz => hv.resolve_right fun hv => ?_⟩
    linarith [h.above]
  away hrm := by
    by_cases hz : z = n
    · have hn : n0 = n := h.near.resolve_right fun hc => hc.2 hz
      rw [hn, hz]
      exact ⟨le_rfl, id⟩
    · rw [h.away hrm hz]
      push_cast
      refine ⟨h.above.le, fun hzv => hv.resolve_left fun hv => ?_⟩
      exact hz (le_antisymm (by linarith) h.floor)

/-- The same in other units. -/
theorem Neighbour.scale {rm : Rnd} {neg : Bool} {x y v p : ℚ} (h : Neighbour rm neg x y v) (hp : 0 < p) : Neighbour rm neg (x * p) (y * p) (v * p) where
  rne hrm := by
    rw [← sub_mul, ← sub_mul, abs_mul, abs_mul]
    exact mul_le_mul_of_nonneg_right (h.rne hrm) (abs_nonneg p)
  toward hrm := by
    simp only [mul_le_mul_iff_left₀ hp]
    exact h.toward hrm
  away hrm := by
    simp only [mul_le_mul_iff_left₀ hp]
    exact h.away hrm

theorem Neighbour.zero (rm : Rnd) (neg : Bool) {v : ℚ} (hv : 0 ≤ v) : Neighbour rm neg 0 0 v where
  rne _ := by simp
  toward _ := ⟨le_rfl, id⟩
  away _ := ⟨le_rfl, fun _ => hv⟩

theorem mag_zero (e : Int) : mag 0 e = 0 := by simp [mag]

theorem mag_nonneg (m : Nat) (e : Int) : 0 ≤ mag m e := by unfold mag; positivity

theorem overflow_big : (Fl.overflow ||| Fl.inexact) &&& Fl.overflow ≠ 0 := by decide

theorem roundFin_zero (f : Fmt) (rm : Rnd) (neg : Bool) (e : Int) : f.roundFin rm false false neg 0 e false = (f.sgn neg, 0) := rfl

/-- The rounding of a value that is not zero and does not overflow. -/
theorem roundFin_of_no_overflow {f : Fmt} {rm : Rnd} {neg : Bool} {m : Nat} {e : Int} (hm : m ≠ 0)
    (hov : (f.roundFin rm false false neg m e false).2 &&& Fl.overflow = 0) :
    roundCode f rm neg m e false ≤ f.maxCode
      ∧ f.roundFin rm false false neg m e false = (f.sgn neg + roundCode f rm neg m e false, roundFlags f rm neg m e false) := by
  rw [roundFin_eq, if_neg (by simp [hm])] at hov ⊢
  split
  · next hbig =>
    rw [if_pos hbig] at hov
    exact absurd hov overflow_big
  · next hle => exact ⟨Nat.le_of_not_lt hle, rfl⟩

/-- Settles O18: in units of the last place the rounded value is the floor or the next integer, and no value of the format lies
between the two. -/
theorem roundingGivesTheNeighbour : Obligations.RoundingGivesTheNeighbour := by
  intro f hf rm neg m e r hov
  have hreg := regular_of_mem hf
  suffices h : ∃ (k : Nat) (q : Int), f.val r.1 = .fin neg k q ∧ (mag k q = mag m e → r.2 = 0)
      ∧ ∀ (c k' : Nat) (q' : Int), c < 2 ^ (f.e + f.t) → f.val c = .fin false k' q' → Neighbour rm neg (mag m e) (mag k q) (mag k' q') by
    obtain ⟨k, q, hval, hexact, hn⟩ := h
    exact ⟨k, q, hval, hexact, fun c k' q' hc hv => have h := hn c k' q' hc hv; ⟨h.rne, h.toward, h.away⟩⟩
  by_cases hm : m = 0
  · subst hm
    have hval := val_eq (f := f) neg (c := 0) (by positivity) (isSpecial_of_le hreg (Nat.zero_le _))
    rw [Nat.zero_div, if_pos rfl, Nat.zero_mod] at hval
    refine ⟨0, _, hval, fun _ => rfl, fun c k' q' _ _ => ?_⟩
    rw [mag_zero, mag_zero]
    exact Neighbour.zero rm neg (mag_nonneg k' q')
  · obtain ⟨hcode, hr⟩ := roundFin_of_no_overflow hm hov
    obtain ⟨n, hn, hix⟩ := quantize_spec rm neg m e (lastPlace f m e)
    obtain ⟨hrep, hmag⟩ := represented_carried hm hn
    have hp : (0 : ℚ) < 2 ^ lastPlace f m e := by positivity
    rw [show r = _ from hr]
    refine ⟨_, _, val_magCode hreg neg hrep hcode, fun hexact => roundFlags_exact f rm neg m e false (hix.mpr ?_), fun c k' q' hc hv => ?_⟩
    · rw [hmag, mag_sub m e (lastPlace f m e), mag] at hexact
      have hz := mul_right_cancel₀ hp.ne' hexact
      rcases hn.near with h | ⟨h, -⟩
      · rw [← hz, h]
      · have := hn.above
        rw [← hz, h] at this
        push_cast at this
        exact absurd this (lt_irrefl _)
    · have hgrid := represented_grid (represented hc hv) hm hn.above
      rw [hmag, mag_sub m e (lastPlace f m e), mag_sub k' q' (lastPlace f m e)]
      exact (hn.neighbour hgrid).scale hp

end Sys2Proof.Machine
end

section
/-! SUPPORT. Reservoirs (R174 to R185): fields of a record, streaming and capping, RNG, and the lanes' reads and writes of the surface. -/

namespace Sys2Proof.Machine

/-! ## Fields of a record -/

/-- A quotient and a remainder within their bounds. -/
theorem mul_add_lt_mul {a b A B : Nat} (ha : a < A) (hb : b < B) : B * a + b < B * A :=
  calc B * a + b < B * a + B := Nat.add_lt_add_left hb _
    _ = B * (a + 1) := (Nat.mul_succ B a).symm
    _ ≤ B * A := Nat.mul_le_mul_left B ha

namespace Rsv
variable (r : Rsv) {lo n : Nat}

theorem testBit_get (j : Nat) (hn : 0 < n) : (r.get lo n).testBit j = (decide (j < n) && r.toNat.testBit (lo + j)) := by
  rw [get, nbits, show lo + n - 1 + 1 - lo = n by omega, Nat.testBit_mod_two_pow, Nat.testBit_div_two_pow, Nat.add_comm j lo]

theorem get_lt (hn : 0 < n) : r.get lo n < 2 ^ n := by
  rw [get, nbits, show lo + n - 1 + 1 - lo = n by omega]
  exact Nat.mod_lt _ (by positivity)

/-- A record with a field replaced, as a number. -/
theorem toNat_put (x : Nat) (hn : 0 < n) (h : lo + n ≤ 256) :
    (r.put lo n x).toNat = 2 ^ lo * (2 ^ n * (r.toNat / 2 ^ (lo + n)) + x % 2 ^ n) + r.toNat % 2 ^ lo := by
  have hr := r.isLt
  have hsplit : r.toNat = 2 ^ lo * (2 ^ n * (r.toNat / 2 ^ (lo + n)) + r.toNat / 2 ^ lo % 2 ^ n) + r.toNat % 2 ^ lo := by
    rw [Nat.pow_add, ← Nat.div_div_eq_div_mul, Nat.div_add_mod, Nat.div_add_mod]
  have hx : x % 2 ^ n < 2 ^ n := Nat.mod_lt _ (by positivity)
  have hlow : r.toNat % 2 ^ lo < 2 ^ lo := Nat.mod_lt _ (by positivity)
  have hbound : 2 ^ lo * (2 ^ n * (r.toNat / 2 ^ (lo + n)) + x % 2 ^ n) + r.toNat % 2 ^ lo < 2 ^ 256 := by
    have hhigh : r.toNat / 2 ^ (lo + n) < 2 ^ (256 - (lo + n)) := by
      rw [Nat.div_lt_iff_lt_mul (by positivity), ← Nat.pow_add]
      rwa [show 256 - (lo + n) + (lo + n) = 256 by omega]
    calc _ < 2 ^ lo * (2 ^ n * 2 ^ (256 - (lo + n))) := mul_add_lt_mul (mul_add_lt_mul hhigh hx) hlow
      _ = 2 ^ 256 := by rw [← Nat.pow_add, ← Nat.pow_add]; congr 1; omega
  rw [put, nbits, show lo + n - 1 + 1 - lo = n by omega, BitVec.toNat_ofNat]
  generalize hhi : 2 ^ n * (r.toNat / 2 ^ (lo + n)) = u at *
  generalize r.toNat / 2 ^ lo % 2 ^ n = f at *
  have hsub : r.toNat - f * 2 ^ lo + x % 2 ^ n * 2 ^ lo = 2 ^ lo * (u + x % 2 ^ n) + r.toNat % 2 ^ lo := by
    rw [Nat.mul_add, Nat.mul_comm f, Nat.mul_comm (x % 2 ^ n)]
    rw [Nat.mul_add] at hsplit
    omega
  rw [hsub, Nat.mod_eq_of_lt hbound]

theorem testBit_put (x j : Nat) (hn : 0 < n) (h : lo + n ≤ 256) :
    (r.put lo n x).toNat.testBit j = if lo ≤ j ∧ j < lo + n then x.testBit (j - lo) else r.toNat.testBit j := by
  rw [toNat_put r x hn h, Nat.testBit_two_pow_mul_add _ (Nat.mod_lt _ (by positivity)), Nat.testBit_two_pow_mul_add _ (Nat.mod_lt _ (by positivity))]
  by_cases h1 : j < lo
  · simp [h1, Nat.testBit_mod_two_pow]
  · by_cases h2 : j - lo < n
    · rw [if_neg h1, if_pos h2, if_pos (by omega), Nat.testBit_mod_two_pow]
      simp [h2]
    · rw [if_neg h1, if_neg h2, if_neg (by omega), Nat.testBit_div_two_pow]
      congr 1
      omega

theorem get_put_same (x : Nat) (hn : 0 < n) (h : lo + n ≤ 256) : (r.put lo n x).get lo n = x % 2 ^ n := by
  refine Nat.eq_of_testBit_eq fun j => ?_
  rw [testBit_get _ _ hn, testBit_put _ _ _ hn h, Nat.testBit_mod_two_pow]
  by_cases hj : j < n
  · simp [hj]
  · simp [hj]

theorem get_put_other {lo' n' : Nat} (x : Nat) (hn : 0 < n) (h : lo + n ≤ 256) (hn' : 0 < n') (hd : lo' + n' ≤ lo ∨ lo + n ≤ lo') :
    (r.put lo n x).get lo' n' = r.get lo' n' := by
  refine Nat.eq_of_testBit_eq fun j => ?_
  rw [testBit_get _ _ hn', testBit_get _ _ hn', testBit_put _ _ _ hn h]
  by_cases hj : j < n'
  · rw [if_neg (by omega)]
  · simp [hj]

theorem nbit_put {k : Nat} (x : Nat) (hn : 0 < n) (h : lo + n ≤ 256) :
    nbit (r.put lo n x).toNat k = if lo ≤ k ∧ k < lo + n then x.testBit (k - lo) else nbit r.toNat k :=
  testBit_put r x k hn h

/-- Reserved bits are stored as zeros. -/
theorem stored_eq : r.stored = r &&& ~~~((0x3F#256) <<< 112) := by
  refine BitVec.eq_of_getLsbD_eq fun i hi => ?_
  have hmask : ((0x3F#256) <<< 112).getLsbD i = decide (112 ≤ i ∧ i < 118) := by
    revert i
    decide +kernel
  rw [BitVec.getLsbD_and, BitVec.getLsbD_not, hmask, ← BitVec.testBit_toNat, stored, testBit_put _ _ _ (by decide) (by decide), BitVec.testBit_toNat]
  by_cases h : 112 ≤ i ∧ i < 118
  · simp [h]
  · simp [hi, h]

end Rsv

/-! ## Rounded sums fit their format -/

theorem f32_sgn_le (neg : Bool) : Fmt.f32.sgn neg ≤ 2 ^ 31 := by cases neg <;> decide

theorem f32_big_lt (rm : Rnd) (sat neg : Bool) : Fmt.f32.big rm sat neg < 2 ^ 32 := by
  cases rm <;> cases sat <;> cases neg <;> decide

theorem f32_roundFin_lt (rm : Rnd) (sat ftz neg : Bool) (m : Nat) (e : Int) (st : Bool) : (Fmt.f32.roundFin rm sat ftz neg m e st).1 < 2 ^ 32 := by
  have hs := f32_sgn_le neg
  have hmax : Fmt.f32.maxCode < 2 ^ 31 := by decide
  rcases roundFin_fst Fmt.f32 rm sat ftz neg m e st with h | h | ⟨c, hc, h⟩
  · omega
  · rw [h]
    exact f32_big_lt rm sat neg
  · omega

theorem f32_round_lt (rm : Rnd) (sat ftz : Bool) (x : Val) (st : Bool) : (Fmt.f32.round rm sat ftz x st).1 < 2 ^ 32 := by
  cases x with
  | fin neg m e => exact f32_roundFin_lt rm sat ftz neg m e st
  | inf neg =>
    show Fmt.f32.sgn neg + (if sat then Fmt.f32.maxCode else Fmt.f32.infCode) < 2 ^ 32
    cases sat <;> cases neg <;> decide
  | nan sig neg => exact show Fmt.f32.nanCode < 2 ^ 32 by decide

theorem f32_add_lt (rm : Rnd) (sat ftz : Bool) (a b : Nat) : (Fmt.f32.add rm sat ftz a b).1 < 2 ^ 32 := f32_round_lt ..

/-! ## Streaming and capping (R182, R185) -/

/-- A record marked NF when a condition holds. -/
def markNf (c : Bool) (r : Rsv) : Rsv := if c then r.setNf else r

theorem get_markNf (c : Bool) (r : Rsv) {lo n : Nat} (hn : 0 < n) (hd : lo + n ≤ 118 ∨ 119 ≤ lo) : (markNf c r).get lo n = r.get lo n := by
  cases c
  · rfl
  · exact r.get_put_other 1 (by decide) (by decide) hn hd

theorem nf_markNf (c : Bool) (r : Rsv) : nbit (markNf c r).toNat 118 = (nbit r.toNat 118 || c) := by
  cases c
  · simp [markNf]
  · simp [markNf, Rsv.setNf, Rsv.nbit_put]

theorem valid_markNf (c : Bool) (r : Rsv) : nbit (markNf c r).toNat 119 = nbit r.toNat 119 := by
  cases c
  · rfl
  · simp [markNf, Rsv.setNf, Rsv.nbit_put]

/-- The record that takes the candidate's sample. -/
def takeSample (r cand : Rsv) (p age : Nat) : Rsv :=
  ((((r.put 0 32 cand.sample).put 32 32 p).put 160 96 cand.payload).put 119 1 1).put 120 8 age

/-- The record with a sum of weights and a count. -/
def withSum (r : Rsv) (sum : Nat × Flags) (cnt : Nat) : Rsv :=
  ((markNf (sum.2 &&& Fl.overflow != 0) r).put 64 32 sum.1).put 96 16 cnt

/-- Is the candidate kept: the rounded share of a sum is below its weight? -/
def keeps (g sum w : Nat) : Bool := (Fmt.f32.val (rne32 ((unif g).mul (Fmt.f32.val sum)).1)).lt (Fmt.f32.val w)

theorem stream_eq (rc cand : Rsv) (p w g cnt age : Nat) :
    let bad := badWeight w || badWeight p
    let w' := if bad || w == 0x8000_0000 then 0 else w
    let sum := Fmt.f32.add .rne true false rc.wsum w'
    let r := withSum (markNf bad rc) sum (min 65535 (rc.mcnt + cnt))
    stream rc cand p w g cnt age = (if keeps g sum.1 w' then takeSample r cand p age else r, bad) := by
  intro bad w' sum r
  have hw : (markNf bad rc).wsum = rc.wsum := get_markNf bad rc (by decide) (by decide)
  have hm (c : Bool) : (markNf c (markNf bad rc)).mcnt = rc.mcnt :=
    (get_markNf c _ (by decide) (by decide)).trans (get_markNf bad rc (by decide) (by decide))
  have hdef : stream rc cand p w g cnt age =
      let sum := Fmt.f32.add .rne true false (markNf bad rc).wsum w'
      let r := withSum (markNf bad rc) sum (min 65535 ((markNf (sum.2 &&& Fl.overflow != 0) (markNf bad rc)).mcnt + cnt))
      (if keeps g sum.1 w' then takeSample r cand p age else r, bad) := rfl
  rw [hdef]
  simp only [hm, hw]
  rfl

section Fields
variable (r : Rsv) {lo n : Nat}

theorem get_withSum (sum : Nat × Flags) (cnt : Nat) (hn : 0 < n) (hd : lo + n ≤ 64 ∨ 112 ≤ lo ∧ lo + n ≤ 118 ∨ 119 ≤ lo) :
    (withSum r sum cnt).get lo n = r.get lo n := by
  rw [withSum, Rsv.get_put_other _ _ (by decide) (by decide) hn (by omega), Rsv.get_put_other _ _ (by decide) (by decide) hn (by omega),
    get_markNf _ _ hn (by omega)]

theorem wsum_withSum (sum : Nat × Flags) (cnt : Nat) (hs : sum.1 < 2 ^ 32) : (withSum r sum cnt).wsum = sum.1 := by
  rw [withSum, Rsv.wsum, Rsv.get_put_other _ _ (by decide) (by decide) (by decide) (by decide), Rsv.get_put_same _ _ (by decide) (by decide),
    Nat.mod_eq_of_lt hs]

theorem mcnt_withSum (sum : Nat × Flags) (cnt : Nat) (hc : cnt < 2 ^ 16) : (withSum r sum cnt).mcnt = cnt := by
  rw [withSum, Rsv.mcnt, Rsv.get_put_same _ _ (by decide) (by decide), Nat.mod_eq_of_lt hc]

theorem nf_withSum (sum : Nat × Flags) (cnt : Nat) : (withSum r sum cnt).nf = (r.nf || sum.2 &&& Fl.overflow != 0) := by
  rw [withSum, Rsv.nf, Rsv.nbit_put _ _ (by decide) (by decide), if_neg (by decide), Rsv.nbit_put _ _ (by decide) (by decide), if_neg (by decide),
    nf_markNf]
  rfl

theorem valid_withSum (sum : Nat × Flags) (cnt : Nat) : (withSum r sum cnt).valid = r.valid := by
  rw [withSum, Rsv.valid, Rsv.nbit_put _ _ (by decide) (by decide), if_neg (by decide), Rsv.nbit_put _ _ (by decide) (by decide), if_neg (by decide),
    valid_markNf]
  rfl

theorem nf_marked (c : Bool) : (markNf c r).nf = (r.nf || c) := nf_markNf c r
theorem valid_marked (c : Bool) : (markNf c r).valid = r.valid := valid_markNf c r

/-- What a record that takes a candidate's sample keeps of its own. -/
theorem get_takeSample (cand : Rsv) (p age : Nat) (hn : 0 < n) (hd : 64 ≤ lo ∧ lo + n ≤ 119 ∨ 128 ≤ lo ∧ lo + n ≤ 160) :
    (takeSample r cand p age).get lo n = r.get lo n := by
  rw [takeSample, Rsv.get_put_other _ _ (by decide) (by decide) hn (by omega), Rsv.get_put_other _ _ (by decide) (by decide) hn (by omega),
    Rsv.get_put_other _ _ (by decide) (by decide) hn (by omega), Rsv.get_put_other _ _ (by decide) (by decide) hn (by omega),
    Rsv.get_put_other _ _ (by decide) (by decide) hn (by omega)]

theorem takeSample_fields (cand : Rsv) :
    let t := takeSample r cand cand.phat 0
    t.sample = cand.sample ∧ t.phat = cand.phat ∧ t.payload = cand.payload ∧ t.valid = true ∧ t.age = 0 ∧ t.nf = r.nf := by
  have h1 : cand.sample < 2 ^ 32 := Rsv.get_lt cand (by decide)
  have h2 : cand.phat < 2 ^ 32 := Rsv.get_lt cand (by decide)
  have h3 : cand.payload < 2 ^ 96 := Rsv.get_lt cand (by decide)
  refine ⟨?_, ?_, ?_, ?_, ?_, ?_⟩
  · simpa [takeSample, Rsv.sample, Rsv.get_put_other, Rsv.get_put_same] using h1
  · simpa [takeSample, Rsv.phat, Rsv.get_put_other, Rsv.get_put_same] using h2
  · simpa [takeSample, Rsv.payload, Rsv.get_put_other, Rsv.get_put_same] using h3
  · simp [takeSample, Rsv.valid, Rsv.nbit_put]
  · simp [takeSample, Rsv.age, Rsv.get_put_same]
  · simp [takeSample, Rsv.nf, Rsv.nbit_put]

end Fields

/-- R182: what a record is once a candidate has been streamed into it. -/
theorem rsvUpd_fields (rc cand : Rsv) (g : Nat) :
    let bad := badWeight cand.wsum || badWeight cand.phat
    let w := if bad || cand.wsum == 0x8000_0000 then 0 else cand.wsum
    let sum := Fmt.f32.add .rne true false rc.wsum w
    let keep := (Fmt.f32.val (rne32 ((unif g).mul (Fmt.f32.val sum.1)).1)).lt (Fmt.f32.val w)
    let r := (rsvUpd rc cand g).1
    r.wsum = sum.1 ∧ r.mcnt = min 65535 (rc.mcnt + 1) ∧ r.ucw = rc.ucw ∧ (rsvUpd rc cand g).2 = bad
      ∧ r.nf = (rc.nf || bad || decide (sum.2 &&& Fl.overflow ≠ 0))
      ∧ (if keep then r.sample = cand.sample ∧ r.phat = cand.phat ∧ r.payload = cand.payload ∧ r.valid = true ∧ r.age = 0
         else r.sample = rc.sample ∧ r.phat = rc.phat ∧ r.payload = rc.payload ∧ r.valid = rc.valid ∧ r.age = rc.age) := by
  intro bad w sum keep r
  have hr : rsvUpd rc cand g = (if keep then takeSample (withSum (markNf bad rc) sum (min 65535 (rc.mcnt + 1))) cand cand.phat 0
      else withSum (markNf bad rc) sum (min 65535 (rc.mcnt + 1)), bad) := stream_eq rc cand cand.phat cand.wsum g 1 0
  obtain ⟨u, hu⟩ : ∃ u, u = withSum (markNf bad rc) sum (min 65535 (rc.mcnt + 1)) := ⟨_, rfl⟩
  have hget {lo n : Nat} (hn : 0 < n) (hd : lo + n ≤ 64 ∨ 119 ≤ lo) : u.get lo n = rc.get lo n := by
    rw [hu, get_withSum _ _ _ hn (by omega), get_markNf _ _ hn (by omega)]
  have hwsum : u.wsum = sum.1 := hu ▸ wsum_withSum _ _ _ (f32_add_lt ..)
  have hmcnt : u.mcnt = min 65535 (rc.mcnt + 1) := hu ▸ mcnt_withSum _ _ _ (by omega)
  have hnf : u.nf = (rc.nf || bad || decide (sum.2 &&& Fl.overflow ≠ 0)) := by
    have hov : (sum.2 &&& Fl.overflow != 0) = decide (sum.2 &&& Fl.overflow ≠ 0) := by rw [Bool.eq_iff_iff]; simp
    rw [hu, nf_withSum, nf_marked, hov]
  have hvalid : u.valid = rc.valid := by rw [hu, valid_withSum, valid_marked]
  rw [← hu] at hr
  have hr1 : r = if keep then takeSample u cand cand.phat 0 else u := congrArg Prod.fst hr
  cases hk : keep with
  | true =>
    rw [hk, if_pos rfl] at hr1
    obtain ⟨h1, h2, h3, h4, h5, h6⟩ := takeSample_fields u cand
    have keeps {lo n : Nat} (hn : 0 < n) (hd : 64 ≤ lo ∧ lo + n ≤ 119 ∨ 128 ≤ lo ∧ lo + n ≤ 160) := get_takeSample u cand cand.phat 0 hn hd
    rw [hr1]
    exact ⟨(keeps (by decide) (by decide)).trans hwsum, (keeps (by decide) (by decide)).trans hmcnt,
      (keeps (by decide) (by decide)).trans (hget (by decide) (by decide)), congrArg Prod.snd hr, h6.trans hnf, h1, h2, h3, h4, h5⟩
  | false =>
    rw [hk, if_neg Bool.false_ne_true] at hr1
    rw [hr1]
    exact ⟨hwsum, hmcnt, hget (by decide) (by decide), congrArg Prod.snd hr, hnf, hget (by decide) (by decide), hget (by decide) (by decide),
      hget (by decide) (by decide), hvalid, hget (by decide) (by decide)⟩

/-- R185: a cap leaves all but the weight and the count. -/
theorem rsvCap_fields (rc : Rsv) {c : Nat} (hc : c < 2 ^ 16) :
    (rc.mcnt ≤ c → rsvCap rc c = rc)
    ∧ (c < rc.mcnt → (rsvCap rc c).mcnt = c ∧ (rsvCap rc c).sample = rc.sample ∧ (rsvCap rc c).ucw = rc.ucw
        ∧ (rsvCap rc c).phat = rc.phat ∧ (rsvCap rc c).payload = rc.payload ∧ (rsvCap rc c).nf = rc.nf) := by
  refine ⟨fun h => if_pos h, fun h => ?_⟩
  obtain ⟨x, hx⟩ : ∃ x, rsvCap rc c = (rc.put 64 32 x).put 96 16 c := ⟨_, if_neg (by omega)⟩
  rw [hx]
  refine ⟨?_, ?_, ?_, ?_, ?_, ?_⟩
  · simpa [Rsv.mcnt, Rsv.get_put_same] using hc
  · simp [Rsv.sample, Rsv.get_put_other]
  · simp [Rsv.ucw, Rsv.get_put_other]
  · simp [Rsv.phat, Rsv.get_put_other]
  · simp [Rsv.payload, Rsv.get_put_other]
  · simp [Rsv.nf, Rsv.nbit_put]

/-! ## RNG -/

/-- The words of a lane's stream. -/
theorem laneWords_eq (s : State) (a b : Opd) (ln : Option Nat) :
    laneWords s.cur (src64 s none a) 0 (src32 s ln b).toNat (ln.getD 0) =
      philox (src64 s none a).toNat (src32 s ln b).toNat ((32 * s.cur.pl.lin + ln.getD 0) / 2 ^ 32 % 2 ^ 16)
        ((32 * s.cur.pl.lin + ln.getD 0) % 2 ^ 32) s.cur.pl.lkey.toNat := by
  simp [laneWords, laneC1, glaneOf]

/-- A call gives four words. -/
theorem philox_length (key c0 c1 c2 c3 : Nat) : (philox key c0 c1 c2 c3).length = 4 := rfl

/-- The number of the first words of a list of four. -/
theorem words_number {x : List Word} (hx : x.length = 4) (x4 : Bool) :
    (x.take (if x4 then 4 else 1)).foldr (fun w y => w.toNat + 2 ^ 32 * y) 0 =
      if x4 then (nth x 0 0#32).toNat + 2 ^ 32 * ((nth x 1 0#32).toNat + 2 ^ 32 * ((nth x 2 0#32).toNat + 2 ^ 32 * (nth x 3 0#32).toNat))
      else (nth x 0 0#32).toNat := by
  obtain ⟨p, q, r, t, rfl⟩ : ∃ p q r t, x = [p, q, r, t] := by
    match x, hx with
    | [p, q, r, t], _ => exact ⟨p, q, r, t, rfl⟩
  cases x4 <;> rfl

/-! ## The surface -/

theorem mem_lanes {m : Mask} {i : Nat} : i ∈ m.lanes ↔ m.has i = true := by
  simp only [Mask.lanes, List.mem_filter, List.mem_range, Mask.has, and_iff_right_iff_imp]
  intro h
  exact BitVec.lt_of_getLsbD h

theorem lanes_sorted (m : Mask) : m.lanes.Pairwise (· < ·) := (List.pairwise_lt_range (n := 32)).filter _

section Surface
variable {s : State} {act : Mask} {a : Opd}

theorem surfCheck_run (hen : surfEn s = true) (ho : surfOwned s s.cur.pl.part s.cur.pl.asid = true)
    (hin : ∀ i ∈ act.lanes, (pixelOf (src32 s (some i) a)).1 < surfW s ∧ (pixelOf (src32 s (some i) a)).2 < surfH s) :
    surfCheck act a s = .ok ((), s) := by
  unfold surfCheck
  rw [bind_ok (get_run s)]
  refine trapIf_false _ s ?_
  have hoff : (act.lanes.any fun i =>
      decide (surfW s ≤ (pixelOf (src32 s (some i) a)).1) || decide (surfH s ≤ (pixelOf (src32 s (some i) a)).2)) = false := by
    rw [List.any_eq_false]
    intro i hi
    simpa using hin i hi
  rw [hen, ho]
  exact hoff

theorem recordWait_run {plane : Bool}
    (hj : ∀ i ∈ act.lanes, ∀ j ∈ s.jobs, jobWrites j plane (pixelOf (src32 s (some i) a)).1 (pixelOf (src32 s (some i) a)).2 = false) :
    recordWait act plane a s = .ok ((), s) := by
  refine waitUntil_run ?_
  rw [Bool.not_eq_true', List.any_eq_false]
  intro i hi
  rw [Bool.not_eq_true]
  exact List.any_eq_false.mpr fun j hjm => Bool.not_eq_true _ ▸ hj i hi j hjm

end Surface

/-- Records stored under keys, the last one of a key standing. -/
def storeRecords (key : Nat → Nat) (rec_ : Nat → Rsv) (l : List Nat) (rp : Map Rsv × List Nat) : Map Rsv × List Nat :=
  l.foldl (fun rp i => (rp.1.set (key i) (rec_ i) 0#256, rp.2.filter fun k => k != key i)) rp

section StoreRecords
variable {key : Nat → Nat} {rec_ : Nat → Rsv} {l : List Nat} {rp : Map Rsv × List Nat}

theorem storeRecords_cons (i : Nat) : storeRecords key rec_ (i :: l) rp =
    storeRecords key rec_ l (rp.1.set (key i) (rec_ i) 0#256, rp.2.filter fun k => k != key i) := by
  simp only [storeRecords, List.foldl_cons]

theorem storeRecords_other {k : Nat} (hk : ∀ i ∈ l, key i ≠ k) : (storeRecords key rec_ l rp).1.get k 0#256 = rp.1.get k 0#256 := by
  induction l generalizing rp with
  | nil => rfl
  | cons i l ih =>
    rw [storeRecords_cons, ih fun j hj => hk j (List.mem_cons_of_mem i hj)]
    exact Map.get_set_other _ (hk i List.mem_cons_self).symm _ _

theorem mem_storeRecords_poison {k : Nat} : k ∈ (storeRecords key rec_ l rp).2 ↔ k ∈ rp.2 ∧ ∀ i ∈ l, key i ≠ k := by
  induction l generalizing rp with
  | nil => simp [storeRecords]
  | cons i l ih =>
    rw [storeRecords_cons, ih]
    simp only [List.mem_filter, bne_iff_ne, List.forall_mem_cons, ne_comm, and_assoc]

/-- The record of the highest lane of a key stands. -/
theorem storeRecords_last (hl : l.Pairwise (· < ·)) {i : Nat} (hi : i ∈ l) (hlast : ∀ j ∈ l, i < j → key j ≠ key i) :
    (storeRecords key rec_ l rp).1.get (key i) 0#256 = rec_ i := by
  induction l generalizing rp with
  | nil => cases hi
  | cons x l ih =>
    obtain ⟨hx, hl⟩ := List.pairwise_cons.mp hl
    rw [storeRecords_cons]
    rcases List.mem_cons.mp hi with rfl | hi
    · rw [storeRecords_other fun j hj => hlast j (List.mem_cons_of_mem i hj) (hx j hj)]
      exact Map.get_set_same _ _ _ _
    · exact ih hl hi fun j hj => hlast j (List.mem_cons_of_mem x hj)

end StoreRecords

/-! ## RSVLD and RSVST -/

section Records
variable {s t : State} (hcur : t.cur = s.cur) (hm : t.m = s.m)
include hcur hm

theorem special_congr (ln : Option Nat) (k : Nat) : special t ln k = special s ln k := by
  simp only [special, laneOf, hcur, hm]

theorem regAt_congr (ln : Option Nat) (o : Opd) (k : Nat) : regAt t ln o k = regAt s ln o k := by
  simp only [regAt, hcur, special_congr hcur hm]

theorem src32_congr (ln : Option Nat) (o : Opd) : src32 t ln o = src32 s ln o := by
  simp only [src32, regAt_congr hcur hm]

theorem groupAtLane_congr (o : Opd) (i : Nat) : groupAtLane t o i = groupAtLane s o i := by
  simp only [groupAtLane, srcWords, funext (regAt_congr hcur hm (some i) o)]

end Records

/-- The number of the record that a lane names. -/
def recordKey (s : State) (m : MMod) (a : Opd) (i : Nat) : Nat := rsvKey m.x ((src32 s (some i) a).toNat % 2 ^ 16) ((src32 s (some i) a).toNat / 2 ^ 16)

theorem recordKey_congr {s t : State} (hcur : t.cur = s.cur) (hm : t.m = s.m) (m : MMod) (a : Opd) (i : Nat) :
    recordKey t m a i = recordKey s m a i := by
  simp only [recordKey, src32_congr hcur hm]

/-- One lane's store of its record. -/
def storeRecord (m : MMod) (a b : Opd) (s : State) (i : Nat) : State :=
  { s with resv := s.resv.set (recordKey s m a i) (groupAtLane s b i).stored 0#256
           rsvPoison := s.rsvPoison.filter fun k => k != recordKey s m a i }

/-- The lanes' stores, with keys and records as they stood before. -/
theorem foldl_storeRecord (m : MMod) (a b : Opd) (s : State) (l : List Nat) (rp : Map Rsv × List Nat) :
    l.foldl (storeRecord m a b) { s with resv := rp.1, rsvPoison := rp.2 } =
      { s with resv := (storeRecords (recordKey s m a) (fun i => (groupAtLane s b i).stored) l rp).1
               rsvPoison := (storeRecords (recordKey s m a) (fun i => (groupAtLane s b i).stored) l rp).2 } := by
  induction l generalizing rp with
  | nil => rfl
  | cons i l ih =>
    have hkey : recordKey { s with resv := rp.1, rsvPoison := rp.2 } m a i = recordKey s m a i := recordKey_congr rfl rfl m a i
    have hrec : groupAtLane { s with resv := rp.1, rsvPoison := rp.2 } b i = groupAtLane s b i := groupAtLane_congr rfl rfl b i
    rw [List.foldl_cons, storeRecord, hkey, hrec, storeRecords_cons]
    exact ih (rp.1.set (recordKey s m a i) (groupAtLane s b i).stored 0#256, rp.2.filter fun k => k != recordKey s m a i)

section Surface
variable {s : State} (h : Hdr) (m : MMod) (hc : Calm s)

/-- Every lane of a mask names a pixel of the surface whose record no unfinished job writes. -/
structure NamesRecords (s : State) (m : MMod) (a : Opd) (act : Mask) : Prop where
  enabled : surfEn s = true
  owned : surfOwned s s.cur.pl.part s.cur.pl.asid = true
  pixels : ∀ i, act.has i = true → (src32 s (some i) a).toNat % 2 ^ 16 < surfW s ∧ (src32 s (some i) a).toNat / 2 ^ 16 < surfH s
    ∧ ∀ j ∈ s.jobs, jobWrites j m.x ((src32 s (some i) a).toNat % 2 ^ 16) ((src32 s (some i) a).toNat / 2 ^ 16) = false

theorem NamesRecords.check {a : Opd} {act : Mask} {m : MMod} (hn : NamesRecords s m a act) : surfCheck act a s = .ok ((), s) :=
  surfCheck_run hn.enabled hn.owned fun i hi => have h := hn.pixels i (mem_lanes.mp hi); ⟨h.1, h.2.1⟩

theorem NamesRecords.wait {a : Opd} {act : Mask} {m : MMod} (hn : NamesRecords s m a act) : recordWait act m.x a s = .ok ((), s) :=
  recordWait_run fun i hi => (hn.pixels i (mem_lanes.mp hi)).2.2

include hc

theorem rsvld_run {d a : Opd} (hu : Usable s { srcs := [(a, 1)], dsts := [(d, 8)] }) (hn : NamesRecords s m a (activeMask h false s.cur))
    (hp : ∀ i, (activeMask h false s.cur).has i = true → recordKey s m a i ∉ s.rsvPoison) :
    let t := gives ((activeMask h false s.cur).lanes.flatMap fun i => dstN d (some i) 8 (s.resv.get (recordKey s m a i) 0#256).toNat) 0 none s
    exec (.rsvld h m d a) s = .next (finished h (if m.order = .acq ∨ m.order = .ar then acquire m.scope t else t)) := by
  intro t
  have hok : ((activeMask h false s.cur).lanes.filter fun i => !s.rsvPoison.contains (recordKey s m a i)) = (activeMask h false s.cur).lanes :=
    List.filter_eq_self.mpr fun i hi => by simpa using hp i (mem_lanes.mp hi)
  refine runI_ok (mt := { srcs := [(a, 1)], dsts := [(d, 8)], opnd := 1 }) (own := false) hc ⟨hu.pre, hu.opnds, hu.mode⟩ rfl ?_
  rw [bind_ok hn.check, bind_ok hn.wait, bind_ok (get_run s)]
  change (emitR (((activeMask h false s.cur).lanes.filter fun i => !s.rsvPoison.contains (recordKey s m a i)).flatMap
    fun i => writeGroup d i (s.resv.get (recordKey s m a i) 0#256)) 0 none >>= fun _ => _) s = _
  rw [hok, bind_ok (emitR_calm hc.pend _ _ _)]
  refine (bind_ok (trapIf_false _ _ ?_)).trans ?_
  · have hlen : ¬ ((activeMask h false s.cur).lanes.filter fun i => !s.rsvPoison.contains (recordKey s m a i)).length
        < (activeMask h false s.cur).lanes.length := by rw [hok]; exact lt_irrefl _
    exact decide_eq_false hlen
  · simp only [isAcq_iff]
    split <;> rfl

theorem rsvst_run {a b : Opd}
    (hu : Usable s { srcs := [(a, 1), (b, 8)], lates := if m.order = .rel ∨ m.order = .ar then latesRel else [] })
    (hn : NamesRecords s m a (activeMask h false s.cur)) (hq : m.order = .rel ∨ m.order = .ar → Quiet m.scope s) :
    let rp := storeRecords (recordKey s m a) (fun i => (groupAtLane s b i).stored) (activeMask h false s.cur).lanes
      ((releasedFor m s).resv, (releasedFor m s).rsvPoison)
    exec (.rsvst h m a b) s = .next (finished h { releasedFor m s with resv := rp.1, rsvPoison := rp.2 }) := by
  intro rp
  have hunt := releasedFor_untouched m hc.idem
  refine runI_ok (mt := { srcs := [(a, 1), (b, 8)], lates := if Order.isRel m.order then latesRel else [], opnd := 1 }) (own := false) hc
    ⟨hu.pre, hu.opnds, hu.mode⟩ rfl ?_
  rw [bind_ok hn.check, bind_ok hn.wait]
  refine (bind_releaseM hq _).trans ?_
  have hkey : recordKey (releasedFor m s) m a = recordKey s m a := funext (recordKey_congr hunt.cur hunt.m m a)
  have hrec : groupAtLane (releasedFor m s) b = groupAtLane s b := funext (groupAtLane_congr hunt.cur hunt.m b)
  have hfold := foldl_storeRecord m a b (releasedFor m s) (activeMask h false s.cur).lanes ((releasedFor m s).resv, (releasedFor m s).rsvPoison)
  rw [hkey, hrec] at hfold
  exact congrArg (fun u => Except.ok ((), u)) hfold

end Surface

/-- Settles O38: the lane forms by `runLanes_calm`, the surface's by their checks and the lanes' stores in order. -/
theorem reservoirInstructions : Obligations.ReservoirInstructions := by
  refine ⟨fun h m d a b c s hc => ?_, fun rc cand g => rsvUpd_fields rc cand g, fun rc c hc => rsvCap_fields rc hc⟩
  intro act gr rsv
  refine ⟨fun x4 hu => ?_, fun hu => runLanes_calm hc hu h _ _, fun hu => runLanes_calm hc hu h _ _, fun hu => runLanes_calm hc hu h _ _,
    fun hu => runLanes_calm hc hu h _ _, fun hen ho => ?_⟩
  · refine (runLanes_calm hc hu h _ _).trans ?_
    simp only [laneWords_eq, words_number (philox_length ..)]
  · intro px py key hin
    refine ⟨fun hu hp => rsvld_run h m hc hu ⟨hen, ho, hin⟩ hp, fun hu hq => ?_⟩
    refine ⟨_, _, rsvst_run h m hc hu ⟨hen, ho, hin⟩ hq, fun k hk => ?_, fun i hi hlast => ⟨?_, ?_⟩⟩
    · rw [storeRecords_other (key := recordKey s m a) fun i hi => hk i (mem_lanes.mp hi), (releasedFor_untouched m hc.idem).resv]
    · rw [← Rsv.stored_eq]
      exact storeRecords_last (lanes_sorted _) (mem_lanes.mpr hi) fun j hj hij => hlast j hij (mem_lanes.mp hj)
    · exact fun hmem => (mem_storeRecords_poison.mp hmem).2 i (mem_lanes.mpr hi) rfl

end Sys2Proof.Machine
end

section
/-! SUPPORT. Placards (R70, R76, R83, R155 to R159): the CRC, fields of a placard's register, inference, and the instructions on them. -/

namespace Sys2Proof.Machine

/-! ## The CRC (R76) -/

theorem crcShift16_succ_lt (n c : Nat) : crcShift16 (n + 1) c < 2 ^ 16 := by
  induction n generalizing c with
  | zero =>
    simp only [crcShift16]
    split
    · exact Nat.xor_lt_two_pow (by omega) (by omega)
    · omega
  | succ n ih => exact ih _

theorem crc16_lt (bs : List Byte) : crc16 bs < 2 ^ 16 := by
  rcases List.eq_nil_or_concat bs with rfl | ⟨l, b, rfl⟩
  · decide
  · rw [crc16, List.concat_eq_append, List.foldl_append]
    exact crcShift16_succ_lt _ _

/-- Some bytes of a number depend on no higher bits. -/
theorem leBytes_mod (n x : Nat) : leBytes n (x % 256 ^ n) = leBytes n x := by
  induction n generalizing x with
  | zero => rfl
  | succ n ih =>
    have hlow : BitVec.ofNat 8 (x % 256 ^ (n + 1)) = BitVec.ofNat 8 x := by
      apply BitVec.eq_of_toNat_eq
      rw [BitVec.toNat_ofNat, BitVec.toNat_ofNat]
      exact Nat.mod_mod_of_dvd x (Dvd.intro_left (256 ^ n) rfl)
    have hhigh : x % 256 ^ (n + 1) / 256 = x / 256 % 256 ^ n := by
      rw [Nat.pow_succ', Nat.mod_mul_right_div_self]
    rw [leBytes, leBytes, hlow, hhigh, ih]

theorem toNat_reCrc (q : Qword) : (reCrc q).toNat = q.toNat % 2 ^ 112 + crc16 (leBytes 14 q.toNat) * 2 ^ 112 := by
  have hcrc := crc16_lt (leBytes 14 q.toNat)
  have hlow : leBytes 14 (q.toNat % 2 ^ 112) = leBytes 14 q.toNat := leBytes_mod 14 q.toNat
  rw [reCrc, hlow, BitVec.toNat_ofNat]
  omega

theorem crcBytes_reCrc (q : Qword) : leBytes 14 (reCrc q).toNat = leBytes 14 q.toNat := by
  rw [← leBytes_mod 14 (reCrc q).toNat, ← leBytes_mod 14 q.toNat, toNat_reCrc]
  congr 1
  omega

theorem crc_reCrc (q : Qword) : ((reCrc q).extractLsb' 112 16).toNat = crc16 (leBytes 14 (reCrc q).toNat) := by
  have hcrc := crc16_lt (leBytes 14 q.toNat)
  rw [crcBytes_reCrc, BitVec.extractLsb'_toNat, toNat_reCrc, Nat.shiftRight_eq_div_pow]
  omega

theorem getLsbD_reCrc (q : Qword) {i : Nat} (hi : i < 112) : (reCrc q).getLsbD i = q.getLsbD i := by
  have hmod : (reCrc q).toNat % 2 ^ 112 = q.toNat % 2 ^ 112 := by
    rw [toNat_reCrc]
    omega
  have h := congrArg (fun x => x.testBit i) hmod
  simpa only [Nat.testBit_mod_two_pow, hi, decide_true, Bool.true_and, BitVec.testBit_toNat] using h

theorem low_reCrc (q : Qword) : (reCrc q).extractLsb' 0 112 = q.extractLsb' 0 112 := by
  apply BitVec.eq_of_getLsbD_eq
  intro i hi
  rw [BitVec.getLsbD_extractLsb', BitVec.getLsbD_extractLsb', getLsbD_reCrc q (by omega)]

/-! ## Fields of a placard (R155) -/

/-- The fields that PLSET sets alone lie below the CRC. -/
theorem plField_bounds {f : Nat} (h1 : 1 ≤ f) (h12 : f ≤ 12) : 0 < (plField f).2 ∧ (plField f).1 + (plField f).2 ≤ 112 := by
  interval_cases f <;> decide

/-- A placard with a field replaced, bit by bit. -/
theorem getLsbD_setField (x : Qword) (v : Nat) {lo w i : Nat} (hw : 0 < w) (hlo : lo + w ≤ 128) (hi : i < 128) :
    (BitVec.ofNat 128 (x.toNat - nbits x.toNat (lo + w - 1) lo * 2 ^ lo + v % 2 ^ w * 2 ^ lo)).getLsbD i
      = if lo ≤ i ∧ i < lo + w then v.testBit (i - lo) else x.getLsbD i := by
  have hput := Rsv.testBit_put (x.setWidth 256) v i hw (show lo + w ≤ 256 by omega)
  have hx : (x.setWidth 256).toNat = x.toNat := by exact BitVec.toNat_setWidth_of_le (by decide)
  rw [Rsv.put, hx, BitVec.testBit_toNat, BitVec.getLsbD_ofNat] at hput
  rw [BitVec.getLsbD_ofNat]
  simpa [hi, show i < 256 by omega, BitVec.testBit_toNat] using hput

theorem nbits_field (x : Qword) (lo : Nat) {w : Nat} (hw : 0 < w) : nbits x.toNat (lo + w - 1) lo = (x.extractLsb' lo w).toNat := by
  rw [nbits, BitVec.extractLsb'_toNat, Nat.shiftRight_eq_div_pow, show lo + w - 1 + 1 - lo = w by omega]

theorem sext_field {w : Nat} (x : BitVec w) : wrapNat 32 (sextInt w x.toNat) = (x.signExtend 32).toNat := by
  rw [sextInt_eq, wrapNat_eq, BitVec.ofNat_toNat, BitVec.setWidth_eq, BitVec.signExtend]

/-! ## Instructions of the whole cohort that give one result -/

section Instructions
variable {s : State} {mt : Meta} {h : Hdr} {lat : Option Nat}

/-- A uniform form whose body only gives a result. -/
theorem runI_cohDone (hc : Calm s) (hu : Usable s mt) (huni : mt.uni = true) {body : Mask → M Unit} {f : Mask → List Wr × Flags}
    (hb : ∀ m, body m s = emitR (f m).1 (f m).2 lat s) : runI h mt false body s = .next (cohDone h lat f s) := by
  rw [cohDone]
  by_cases hm : activeMask h true s.cur = 0#32
  · rw [runI_off hc hu (by simp [bodyRuns, huni, hm])]
    simp [hm]
  · rw [runI_ok (own := false) hc hu (by simp [bodyRuns, huni, hm]) ((hb _).trans (emitR_calm hc.pend _ _ _))]
    simp [hm, huni]

theorem checkedPl_run {q : Qword} {inp reg : Bool} {group : Option Nat} {opnd : Nat} (hq : plCheck q inp reg group = 0) (u : State) :
    checkedPl q inp reg group opnd u = .ok (Plac.ofQ q, u) := by
  unfold checkedPl
  rw [hq]
  rfl

end Instructions

section Placards
variable {s : State} {h : Hdr} {d a b : Opd}

/-- PLSET of one field. -/
theorem plset_field (hc : Calm s) {f : BitVec 4} (h1 : 1 ≤ f.toNat) (h12 : f.toNat ≤ 12) (hu : Usable s { uni := true, srcs := [(a, 1)] }) :
    exec (.plset h f d a b) s = .next (cohDone h (some 4) (fun _ => (dstPL d (reCrc (BitVec.ofNat 128 ((srcPL s b).toNat
        - nbits (srcPL s b).toNat ((plField f.toNat).1 + (plField f.toNat).2 - 1) (plField f.toNat).1 * 2 ^ (plField f.toNat).1
        + (src32 s none a).toNat % 2 ^ (plField f.toNat).2 * 2 ^ (plField f.toNat).1))), 0)) s) := by
  have hwhole : (f.toNat == 0 || f.toNat == 13) = false := by simp; omega
  have h13 : (f.toNat == 13) = false := by simp; omega
  refine runI_cohDone (mt := { uni := true, srcs := [(a, if (f.toNat == 0 || f.toNat == 13) = true then 4 else 1)] }) hc
    (by rw [hwhole]; exact hu) rfl fun m => ?_
  rw [bind_ok (get_run s), hwhole, h13]
  rfl

theorem plget_gives (hc : Calm s) {f : BitVec 4} (h12 : f.toNat ≤ 12) (hu : Usable s { uni := true, dsts := [(d, if f = 0 then 4 else 1)] }) :
    exec (.plget h f d a) s = .next (cohDone h (some 4) (fun _ => (dstN d none (if f = 0 then 4 else 1)
      (if f = 8 then (((srcPL s a).extractLsb' 64 9).signExtend 32).toNat
        else ((srcPL s a).extractLsb' (plField f.toNat).1 (plField f.toNat).2).toNat), 0)) s) := by
  have heq (n : BitVec 4) : (f.toNat == n.toNat) = decide (f = n) := by
    rw [Bool.eq_iff_iff, beq_iff_eq, decide_eq_true_eq, BitVec.toNat_inj]
  have h0 : (f.toNat == 0) = decide (f = 0) := heq 0
  have h8 : (f.toNat == 8) = decide (f = 8) := heq 8
  have hw : 0 < (plField f.toNat).2 := by
    rcases Nat.eq_zero_or_pos f.toNat with hz | hpos
    · rw [hz]
      decide
    · exact (plField_bounds hpos h12).1
  refine runI_cohDone (mt := { uni := true, dsts := [(d, if (f.toNat == 0) = true then 4 else 1)] }) hc
    (by simpa only [h0, decide_eq_true_eq] using hu) rfl fun m => ?_
  rw [bind_ok (get_run s)]
  simp only [h0, h8, decide_eq_true_eq, nbits_field _ _ hw]
  by_cases hf : f = 8
  · subst hf
    rw [if_pos rfl, if_pos rfl, ← sext_field]
    rfl
  · rw [if_neg hf, if_neg hf]

theorem plchk_gives (hc : Calm s) {trap reg : Bool} (hu : Usable s { uni := true, dsts := [(d, 1)] })
    (hr : trap = false ∨ plCheck (srcPL s a) true reg = 0) :
    exec (.plchk h trap reg d a) s =
      .next (cohDone h (some 4) (fun _ => (dst32 d none (BitVec.ofNat 32 (plCheck (srcPL s a) true reg)), 0)) s) := by
  refine runI_cohDone hc hu rfl fun m => ?_
  rw [bind_ok (get_run s)]
  exact bind_ok (trapIf_false _ _ (by rcases hr with h | h <;> simp [h]))

theorem plchk_traps (hc : Calm s) {reg : Bool} (hu : Usable s { uni := true, dsts := [(d, 1)] }) (hr : plCheck (srcPL s a) true reg ≠ 0)
    (hm : activeMask h true s.cur ≠ 0#32) :
    exec (.plchk h true reg d a) s = .next ((takeTrap (placT (plCheck (srcPL s a) true reg) 1) s.cur.smask s).tick 1) := by
  refine (runI_trap (s' := s) (t := placT (plCheck (srcPL s a) true reg) 1) hc hu (by simpa [bodyRuns] using hm) ?_).trans ?_
  · rw [bind_ok (get_run s)]
    exact bind_error (by simp [M.trapIf, hr])
  · rw [withOpnd_zero]
    rfl

theorem plinfer_gives (hc : Calm s) {sum : Bool} {p : Plac} (ha : plCheck (srcPL s a) true false = 0) (hb : plCheck (srcPL s b) true false = 0)
    (hpair : let pa := Plac.ofQ (srcPL s a)
      let pb := Plac.ofQ (srcPL s b)
      (if sum then pa.isFX && pb.isFX else (pairing ((pa.spar == 1) != (pb.spar == 1)) pa pb).isSome) = true)
    (hp : inferPl sum (Plac.ofQ (srcPL s a)) (Plac.ofQ (srcPL s b)) = .ok p) (hu : Usable s { uni := true }) :
    exec (.plinfer h sum d a b) s = .next (cohDone h (some 4) (fun _ => (dstPL d p.toQ, 0)) s) := by
  refine runI_cohDone hc hu rfl fun m => ?_
  have hinfer : inferM sum (Plac.ofQ (srcPL s a)) (Plac.ofQ (srcPL s b)) s = .ok (p, s) := by
    rw [inferM, hp]
    rfl
  rw [bind_ok (get_run s), bind_ok (checkedPl_run ha s), bind_ok (checkedPl_run hb s)]
  cases sum with
  | true =>
    refine (bind_ok (trapIf_false _ _ ?_)).trans (bind_ok hinfer)
    simpa using hpair
  | false =>
    refine (bind_ok (trapIf_false _ _ ?_)).trans (bind_ok hinfer)
    rw [Option.isNone_eq_false_iff]
    exact hpair

end Placards

/-- Settles O30: each instruction gives one result; the bits of a set field are those of `getLsbD_setField`. -/
theorem placardInstructions : Obligations.PlacardInstructions := by
  intro h f d a b s hc lo w crcOk
  refine ⟨fun h1 h12 hu => ?_, fun hu => ⟨runI_cohDone hc hu rfl fun m => rfl, _, runI_cohDone hc hu rfl fun m => rfl, low_reCrc _, crc_reCrc _⟩,
    fun h12 hu => plget_gives hc h12 hu, ?_, fun sum p ha hb hpair hp hu => plinfer_gives hc ha hb hpair hp hu⟩
  · obtain ⟨hw, hlo⟩ := plField_bounds h1 h12
    have hlo128 : lo + w ≤ 128 := by omega
    have hbit (i : Nat) (hi : i < 128) := getLsbD_setField (srcPL s b) (src32 s none a).toNat hw hlo128 hi
    refine ⟨_, plset_field hc h1 h12 hu, fun i hi => ?_, fun i hi hout => ?_, crc_reCrc _⟩
    · have hin : lo + i < 112 := by omega
      refine (getLsbD_reCrc _ hin).trans ((hbit _ (by omega)).trans ?_)
      rw [if_pos (by omega), Nat.add_sub_cancel_left, BitVec.testBit_toNat]
    · refine (getLsbD_reCrc _ hi).trans ((hbit _ (by omega)).trans (if_neg (by omega)))
  · intro trap reg hu r
    refine ⟨fun hr => plchk_gives hc hu hr, fun htrap hr hm => ?_⟩
    subst htrap
    exact plchk_traps hc hu hr hm

/-! ## Placards in a register (R70) -/

/-- The fields of a placard fit their bits; the CRC aside. -/
structure Plac.Fits (p : Plac) : Prop where
  magic : p.magic < 2 ^ 8
  efmt : p.efmt < 2 ^ 6
  slay : p.slay < 2 ^ 4
  sfmt : p.sfmt < 2 ^ 3
  spar : p.spar < 2 ^ 3
  rows : 1 ≤ p.rows ∧ p.rows ≤ 2 ^ 12
  cols : 1 ≤ p.cols ∧ p.cols ≤ 2 ^ 12
  pitch : p.pitch < 2 ^ 16
  anchor : -2 ^ 8 ≤ p.anchor ∧ p.anchor < 2 ^ 8
  brot : p.brot < 2 ^ 3
  soff : p.soff < 2 ^ 16
  moff : p.moff < 2 ^ 16

/-- The low 112 bits of a placard's register. -/
def Plac.number (p : Plac) : Nat :=
  p.magic + p.efmt * 2 ^ 8 + p.slay * 2 ^ 14 + p.sfmt * 2 ^ 18 + p.spar * 2 ^ 21
    + (p.rows - 1) * 2 ^ 24 + (p.cols - 1) * 2 ^ 36 + p.pitch * 2 ^ 48 + wrapNat 9 p.anchor * 2 ^ 64 + p.brot * 2 ^ 73
    + p.pinned.toNat * 2 ^ 76 + p.transposed.toNat * 2 ^ 77 + p.poisoned.toNat * 2 ^ 78 + p.rsv.toNat * 2 ^ 79
    + p.soff * 2 ^ 80 + p.moff * 2 ^ 96

theorem Plac.toQ_eq (p : Plac) : p.toQ = reCrc (BitVec.ofNat 128 p.number) := by
  have hbit (x : Bool) (k : Nat) : (if x = true then 2 ^ k else 0) = x.toNat * 2 ^ k := by cases x <;> simp
  rw [Plac.toQ, Plac.number]
  simp only [hbit]

theorem sextInt_wrapNat {x : Int} (h : -2 ^ 8 ≤ x ∧ x < 2 ^ 8) : sextInt 9 (wrapNat 9 x) = x := by
  rw [sextInt, wrapNat]
  omega

theorem sextInt_bounds (x : Nat) : -2 ^ 8 ≤ sextInt 9 x ∧ sextInt 9 x < 2 ^ 8 := by
  rw [sextInt]
  omega

/-- A placard written to a register and read again. -/
theorem Plac.ofQ_toQ {p : Plac} (hp : p.Fits) : Plac.ofQ p.toQ = { p with crc := crc16 (leBytes 14 p.toQ.toNat) } := by
  obtain ⟨h1, h2, h3, h4, h5, h6, h7, h8, h9, h10, h11, h12⟩ := hp
  have hanchor := sextInt_wrapNat h9
  have ha : wrapNat 9 p.anchor < 2 ^ 9 := by rw [wrapNat]; omega
  have hcrc := crc16_lt (leBytes 14 p.toQ.toNat)
  have hpin := p.pinned.toNat_le
  have htra := p.transposed.toNat_le
  have hpoi := p.poisoned.toNat_le
  have hrsv := p.rsv.toNat_le
  have hbool {x : Bool} {n : Nat} (hn : n = x.toNat) : decide (n = 1) = x := by rw [hn]; cases x <;> rfl
  have hx : p.toQ.toNat = p.number + crc16 (leBytes 14 p.toQ.toNat) * 2 ^ 112 := by
    have hn : p.number < 2 ^ 112 := by
      rw [Plac.number]
      omega
    have hnum : (BitVec.ofNat 128 p.number).toNat = p.number := by
      rw [BitVec.toNat_ofNat]
      omega
    conv_lhs => rw [p.toQ_eq, toNat_reCrc, ← crcBytes_reCrc, ← p.toQ_eq, hnum, Nat.mod_eq_of_lt hn]
  rw [Plac.ofQ]
  generalize crc16 (leBytes 14 p.toQ.toNat) = c at *
  rw [hx, Plac.number]
  cases p
  simp only [Plac.mk.injEq, nbits, nbit, Nat.testBit_eq_decide_div_mod_eq] at *
  refine ⟨?_, ?_, ?_, ?_, ?_, ?_, ?_, ?_, ?_, ?_, ?_, ?_, ?_, ?_, ?_, ?_, ?_⟩
  case refine_9 => exact (congrArg (sextInt 9) (by omega)).trans hanchor
  case refine_11 | refine_12 | refine_13 | refine_14 => exact hbool (by omega)
  all_goals omega

/-! ## Inference (R86) -/

/-- The FX64 placard of some extents at an anchor. -/
def fxPlac (rows cols : Nat) (anchor : Int) (pinned : Bool) : Plac where
  magic := 0xA7
  efmt := 0x0E
  slay := 0
  sfmt := 0
  spar := 0
  rows := rows
  cols := cols
  pitch := ceilDiv cols 2
  anchor := anchor
  brot := 0
  pinned := pinned
  transposed := false
  poisoned := false
  rsv := false
  soff := 0
  moff := 0
  crc := 0

theorem fxPlac_fits {rows cols : Nat} {anchor : Int} {pinned : Bool} (hr : 1 ≤ rows ∧ rows ≤ 2 ^ 12) (hc : 1 ≤ cols ∧ cols ≤ 2 ^ 12)
    (ha : -2 ^ 8 ≤ anchor ∧ anchor < 2 ^ 8) : (fxPlac rows cols anchor pinned).Fits where
  magic := (by decide : 0xA7 < 2 ^ 8)
  efmt := (by decide : 0x0E < 2 ^ 6)
  slay := (by decide : 0 < 2 ^ 4)
  sfmt := (by decide : 0 < 2 ^ 3)
  spar := (by decide : 0 < 2 ^ 3)
  rows := hr
  cols := hc
  pitch := by
    simp only [fxPlac, ceilDiv]
    omega
  anchor := ha
  brot := (by decide : 0 < 2 ^ 3)
  soff := (by decide : 0 < 2 ^ 16)
  moff := (by decide : 0 < 2 ^ 16)

theorem nbits_lt (x hi lo : Nat) : nbits x hi lo < 2 ^ (hi + 1 - lo) := Nat.mod_lt _ (by positivity)

theorem ofQ_rows (q : Qword) : 1 ≤ (Plac.ofQ q).rows ∧ (Plac.ofQ q).rows ≤ 2 ^ 12 := ⟨Nat.le_add_left _ _, nbits_lt q.toNat 35 24⟩
theorem ofQ_cols (q : Qword) : 1 ≤ (Plac.ofQ q).cols ∧ (Plac.ofQ q).cols ≤ 2 ^ 12 := ⟨Nat.le_add_left _ _, nbits_lt q.toNat 47 36⟩
theorem ofQ_anchor (q : Qword) : -2 ^ 8 ≤ (Plac.ofQ q).anchor ∧ (Plac.ofQ q).anchor < 2 ^ 8 := sextInt_bounds _

theorem ofQ_xext (q : Qword) : 1 ≤ (Plac.ofQ q).xext ∧ (Plac.ofQ q).xext ≤ 2 ^ 12 := by
  rw [Plac.xext]
  split
  · exact ofQ_cols q
  · exact ofQ_rows q

/-- The anchor rule of R86. -/
theorem inferAnchor_ok {a b : Plac} {x : Int × Bool} (h : inferAnchor a b = .ok x) :
    x.2 = (a.pinned || b.pinned) ∧ (a.pinned = true → x.1 = a.anchor) ∧ (b.pinned = true → x.1 = b.anchor)
      ∧ (a.pinned = false → b.pinned = false → x.1 = 0) := by
  cases ha : a.pinned <;> cases hb : b.pinned <;> simp only [inferAnchor, ha, hb, Bool.and_self, Bool.and_false, Bool.and_true, if_true,
    Bool.false_eq_true, if_false] at h
  case true.true =>
    by_cases hab : a.anchor = b.anchor
    · rw [if_pos (beq_iff_eq.mpr hab)] at h
      cases h
      simpa using hab
    · rw [if_neg (by simpa using hab)] at h
      cases h
  all_goals
    cases h
    simp

/-- Inference that succeeds gives the FX64 placard of the extents. -/
theorem inferPl_ok {sum : Bool} {a b p : Plac} (h : inferPl sum a b = .ok p) :
    (if sum then a.rows = b.rows ∧ a.cols = b.cols else a.kext = b.kext)
      ∧ ∃ x, inferAnchor a b = .ok x ∧ p = fxPlac (if sum then a.rows else a.xext) (if sum then a.cols else b.xext) x.1 x.2 := by
  cases hok : (if sum then a.rows == b.rows && a.cols == b.cols else a.kext == b.kext) with
  | false =>
    simp only [inferPl, hok, Bool.not_false, if_true] at h
    cases h
  | true =>
    simp only [inferPl, hok, Bool.not_true, Bool.false_eq_true, if_false] at h
    refine ⟨by cases sum <;> simpa using hok, ?_⟩
    cases hx : inferAnchor a b with
    | error d =>
      rw [hx] at h
      cases h
    | ok x =>
      rw [hx] at h
      cases h
      exact ⟨x, rfl, rfl⟩

/-- An inferred anchor is an input's, or 0. -/
theorem inferAnchor_bounds {x y : Qword} {z : Int × Bool} (h : inferAnchor (Plac.ofQ x) (Plac.ofQ y) = .ok z) : -2 ^ 8 ≤ z.1 ∧ z.1 < 2 ^ 8 := by
  obtain ⟨-, ha, hb, h0⟩ := inferAnchor_ok h
  cases hx : (Plac.ofQ x).pinned
  · cases hy : (Plac.ofQ y).pinned
    · rw [h0 hx hy]
      decide
    · rw [hb hy]
      exact ofQ_anchor y
  · rw [ha hx]
    exact ofQ_anchor x

/-- Settles O31: what inference gives by its inversion, and its register by `Plac.ofQ_toQ`. -/
theorem inferredPlacards : Obligations.InferredPlacards := by
  intro sum x y p _ _ a b hp
  obtain ⟨hext, z, hz, rfl⟩ := inferPl_ok hp
  obtain ⟨hpin, ha, hb, h0⟩ := inferAnchor_ok hz
  have hrows : 1 ≤ (if sum then a.rows else a.xext) ∧ (if sum then a.rows else a.xext) ≤ 2 ^ 12 := by
    cases sum
    · exact ofQ_xext x
    · exact ofQ_rows x
  have hcols : 1 ≤ (if sum then a.cols else b.xext) ∧ (if sum then a.cols else b.xext) ≤ 2 ^ 12 := by
    cases sum
    · exact ofQ_xext y
    · exact ofQ_cols x
  have hread := Plac.ofQ_toQ (fxPlac_fits (pinned := z.2) hrows hcols (inferAnchor_bounds hz))
  refine ⟨hext, rfl, rfl, rfl, rfl, rfl, ?_, hpin, ha, hb, h0, ?_, ?_⟩
  · simp only [fxPlac, ceilDiv]
    omega
  · rw [hread]
    rfl
  · conv_lhs => rw [hread]

end Sys2Proof.Machine
end

section
/-! SUPPORT. Accumulator tiles (R133, R145): rows replaced, their checks, and the terms of a pass (R138, R141). -/

namespace Sys2Proof.Machine

/-! ## Several keys of a map set one after the other -/

section Maps
variable {α β : Type} [DecidableEq β] (f : α → β) (d : β)

theorem Map.get_foldl_set_other {l : List (Nat × α)} {key : Nat → Nat} {j : Nat} (m : Map β) (hj : ∀ e ∈ l, key e.1 ≠ j) :
    (l.foldl (fun c e => c.set (key e.1) (f e.2) d) m).get j d = m.get j d := by
  induction l generalizing m with
  | nil => rfl
  | cons e l ih =>
    rw [List.foldl_cons, ih _ fun e he => hj e (List.mem_cons_of_mem _ he), Map.get_set_other _ (hj e List.mem_cons_self).symm]

theorem Map.get_foldl_set_mem {l : List (Nat × α)} {key : Nat → Nat} (hk : key.Injective) (m : Map β) (hl : (l.map Prod.fst).Nodup)
    {n : Nat} {x : α} (h : (n, x) ∈ l) : (l.foldl (fun c e => c.set (key e.1) (f e.2) d) m).get (key n) d = f x := by
  induction l generalizing m with
  | nil => cases h
  | cons e l ih =>
    rw [List.map_cons, List.nodup_cons] at hl
    rw [List.foldl_cons]
    rcases List.mem_cons.mp h with rfl | h
    · rw [Map.get_foldl_set_other _ _ _ fun e he hke => hl.1 (List.mem_map.mpr ⟨e, he, hk hke⟩), Map.get_set_same]
    · exact ih _ hl.2 h

/-- The numbered elements of a list, at keys of their numbers. -/
theorem Map.get_foldl_set_zip {key : Nat → Nat} (hk : key.Injective) (m : Map β) {N : Nat} {xs : List α} (hl : xs.length = N) {n : Nat}
    (hn : n < xs.length) :
    (((List.range N).zip xs).foldl (fun c e => c.set (key e.1) (f e.2) d) m).get (key n) d = f xs[n] := by
  refine Map.get_foldl_set_mem f d hk m ?_ ?_
  · rw [List.map_fst_zip (by simp [hl])]
    exact List.nodup_range
  · refine List.mem_iff_getElem.mpr ⟨n, by simp [hl, hl ▸ hn], ?_⟩
    simp

end Maps

/-! ## Rows of a tile -/

/-- The cells of a row replaced. -/
def putCells (c : Map Dword) (m : Nat) (cells : List Int) : Map Dword :=
  ((List.range 64).zip cells).foldl (fun c (n, x) => c.set (64 * m + n) (BitVec.ofInt 64 x) 0#64) c

section Cells
variable {c : Map Dword} {m k n : Nat} {cells : List Int}

theorem get_putCells_same (hl : cells.length = 64) (hn : n < cells.length) :
    (putCells c m cells).get (64 * m + n) 0#64 = BitVec.ofInt 64 cells[n] :=
  Map.get_foldl_set_zip (BitVec.ofInt 64) 0#64 (key := (64 * m + ·)) (add_right_injective _) c hl hn

theorem get_putCells_other (hk : k ≠ m) (hn : n < 64) : (putCells c m cells).get (64 * k + n) 0#64 = c.get (64 * k + n) 0#64 := by
  refine Map.get_foldl_set_other (BitVec.ofInt 64) 0#64 (key := (64 * m + ·)) c fun e he => ?_
  have he64 : e.1 < 64 := List.mem_range.mp (List.of_mem_zip he).1
  omega

end Cells

theorem length_cellsOf (t : Tile) (m : Nat) : (t.cellsOf m).length = 64 := by simp [Tile.cellsOf]

theorem getElem_cellsOf (t : Tile) (m : Nat) {n : Nat} (hn : n < (t.cellsOf m).length) : (t.cellsOf m)[n] = (t.cells.get (64 * m + n) 0#64).toInt := by
  simp [Tile.cellsOf]

theorem nth_cellsOf (t : Tile) (m : Nat) {n : Nat} (hn : n < 64) : nth (t.cellsOf m) n 0 = (t.cells.get (64 * m + n) 0#64).toInt := by
  simp [Tile.cellsOf, nth, hn]

theorem cellsOf_congr {t u : Tile} {m : Nat} (h : ∀ n, n < 64 → u.cells.get (64 * m + n) 0#64 = t.cells.get (64 * m + n) 0#64) :
    u.cellsOf m = t.cellsOf m :=
  List.map_congr_left fun n hn => by rw [h n (List.mem_range.mp hn)]

theorem checkOf_eq (l : List Int) : checkOf l = (l.map (BitVec.ofInt 64)).sum := by
  have h (z : Int) : BitVec.ofInt 64 (l.foldl (· + ·) z) = BitVec.ofInt 64 z + (l.map (BitVec.ofInt 64)).sum := by
    induction l generalizing z with
    | nil => simp
    | cons x l ih => rw [List.foldl_cons, ih, BitVec.ofInt_add, List.map_cons, List.sum_cons, add_assoc]
  simpa [checkOf] using h 0

theorem checkOf_cellsOf (t : Tile) (m : Nat) : checkOf (t.cellsOf m) = ((List.range 64).map fun n => t.cells.get (64 * m + n) 0#64).sum := by
  rw [checkOf_eq, Tile.cellsOf, List.map_map]
  congr 1
  exact List.map_congr_left fun n _ => BitVec.ofInt_toInt

theorem rowOk_iff (t : Tile) (m : Nat) : t.rowOk m = true ↔ (t.row m).check = checkOf (t.cellsOf m) := by rw [Tile.rowOk, beq_iff_eq]

section SetRow
variable (t : Tile) {m k : Nat} {cells : List Int} (r : TRow)

@[simp] theorem setRow_poison : (t.setRow m cells r).poison = t.poison := rfl
@[simp] theorem setRow_faults : (t.setRow m cells r).faults = t.faults := rfl

@[simp] theorem setRow_row_same : (t.setRow m cells r).row m = { r with check := checkOf cells } := Map.get_set_same _ _ _ _

theorem setRow_row_other (hk : k ≠ m) : (t.setRow m cells r).row k = t.row k := Map.get_set_other _ hk _ _

theorem cellsOf_setRow_same (hl : cells.length = 64) : (t.setRow m cells r).cellsOf m = cells.map fun x => (BitVec.ofInt 64 x).toInt := by
  refine List.ext_getElem (by simp [Tile.cellsOf, hl]) fun n h1 h2 => ?_
  rw [getElem_cellsOf, List.getElem_map]
  exact congrArg BitVec.toInt (get_putCells_same hl (by simpa using h2))

theorem cellsOf_setRow_other (hk : k ≠ m) : (t.setRow m cells r).cellsOf k = t.cellsOf k :=
  cellsOf_congr fun _ hn => get_putCells_other hk hn

/-- CHECK of a replaced row is the sum of its cells (R145). -/
theorem rowOk_setRow (hl : cells.length = 64) : (t.setRow m cells r).rowOk m = true := by
  rw [rowOk_iff, setRow_row_same, cellsOf_setRow_same t r hl, checkOf_eq, checkOf_eq, List.map_map]
  exact congrArg List.sum (List.map_congr_left fun x _ => BitVec.ofInt_toInt.symm)

end SetRow

/-! ## Terms and their sums (R138, R141) -/

/-- A power of two to the right is a floor, to the left exact. -/
theorem shiftInt_floor (x k : Int) : shiftInt x k = ⌊(x : ℚ) * (2 : ℚ) ^ k⌋ := by
  rw [shiftInt]
  split
  · next h =>
    obtain ⟨n, rfl⟩ := Int.eq_ofNat_of_zero_le h
    rw [Int.toNat_natCast, zpow_natCast, show (x : ℚ) * 2 ^ n = ((x * 2 ^ n : Int) : ℚ) by push_cast; rfl, Int.floor_intCast]
  · next h =>
    obtain ⟨n, hn⟩ := Int.eq_ofNat_of_zero_le (show 0 ≤ -k by omega)
    obtain rfl : k = -n := by omega
    have hf := Rat.floor_intCast_div_natCast x (2 ^ n)
    rw [neg_neg, Int.toNat_natCast, zpow_neg, zpow_natCast, ← div_eq_mul_inv]
    push_cast at hf
    exact hf.symm

/-- What a term adds to the sum of its cell in units of 2^u. -/
def termOf (u : Int) : Val → Int
  | .fin n m e => alignTrunc n m e u
  | _ => 0

/-- Is a term out of the 64-bit range? -/
def termBig (u : Int) : Val → Bool
  | .fin n m e => out64 (alignTrunc n m e u)
  | _ => false

theorem alignTrunc_floor (neg : Bool) (m : Nat) (e u : Int) : alignTrunc neg m e u = ⌊(if neg then -(mag m e) else mag m e) / (2 : ℚ) ^ u⌋ := by
  rw [alignTrunc, shiftInt_floor, mag, zpow_sub₀ two_ne_zero]
  congr 1
  cases neg <;> simp <;> ring

theorem foldl_add (u : Int) (l : List Val) (c : Acc1) : l.foldl (Acc1.add u) c =
    { nan := c.nan || l.any (·.isNan), pinf := c.pinf || l.any (· == .inf false), ninf := c.ninf || l.any (· == .inf true)
      big := c.big || l.any (termBig u), sum := c.sum + (l.map (termOf u)).sum } := by
  induction l generalizing c with
  | nil => simp
  | cons v l ih =>
    rw [List.foldl_cons, ih]
    have hinf (b : Bool) : (v == .inf b) = decide (v = .inf b) := rfl
    simp only [List.any_cons, hinf]
    cases v with
    | nan _ _ => simp [Acc1.add, Val.isNan, termBig, termOf]
    | inf n => cases n <;> simp [Acc1.add, Val.isNan, termBig, termOf]
    | fin n m e => simp [Acc1.add, Val.isNan, termBig, termOf, Bool.or_assoc, add_assoc]

/-- The sums of a row's columns. -/
def rowSums (t : Tile) (m : Nat) (ts : List (List (Val × Val))) : List Acc1 :=
  ts.map fun l => (l.map (·.1)).foldl (Acc1.add ((t.row m).anchor.toInt - 43)) {}

/-- The sum of a column's terms. -/
def colSum (u : Int) (l : List (Val × Val)) : Int := (l.map fun e => termOf u e.1).sum

theorem colAcc (u : Int) (l : List (Val × Val)) : (l.map (·.1)).foldl (Acc1.add u) {} =
    { nan := l.any (·.1.isNan), pinf := l.any (·.1 == .inf false), ninf := l.any (·.1 == .inf true)
      big := l.any fun e => termBig u e.1, sum := colSum u l } := by
  rw [foldl_add]
  simp [List.any_map, Function.comp_def, colSum]

/-- The order of a column's terms is free. -/
theorem colAcc_perm (u : Int) {l l' : List (Val × Val)} (h : l.Perm l') :
    (l.map (·.1)).foldl (Acc1.add u) {} = (l'.map (·.1)).foldl (Acc1.add u) {} := by
  rw [colAcc, colAcc, h.any_eq, h.any_eq, h.any_eq, h.any_eq, colSum, colSum, (h.map _).sum_eq]

theorem rowSums_perm (t : Tile) (m : Nat) {ts ts' : List (List (Val × Val))} (h : List.Forall₂ List.Perm ts ts') :
    rowSums t m ts' = rowSums t m ts := by
  induction h with
  | nil => rfl
  | cons hp _ ih => exact congrArg₂ List.cons (colAcc_perm _ hp).symm ih

/-- A row's cells with the sums of its columns. -/
def rowNew (t : Tile) (m : Nat) (cs : List Acc1) : List Int :=
  (List.range 64).map fun n => match cs[n]? with
    | some c => nth (t.cellsOf m) n 0 + c.sum
    | none => nth (t.cellsOf m) n 0

/-- Has a term or a new cell of a row left the 64-bit range? -/
def sumsOvf (t : Tile) (m : Nat) (cs : List Acc1) : Bool :=
  ((List.range 64).zip (rowNew t m cs)).any fun (n, x) => match cs[n]? with
    | some c => c.big || out64 x
    | none => false

/-- The record of a row with the sums of its columns. -/
def sumsRow (t : Tile) (m : Nat) (cs : List Acc1) : TRow :=
  let r := t.row m
  { r with nan := r.nan || cs.any (·.nan), pinf := r.pinf || cs.any (·.pinf), ninf := r.ninf || cs.any (·.ninf), ovf := r.ovf || sumsOvf t m cs
           check := r.check + BitVec.ofInt 64 (cs.foldl (fun s c => s + c.sum) 0) }

/-- A row with the sums of its columns. -/
def addSums (t : Tile) (m : Nat) (cs : List Acc1) : Tile :=
  { t with cells := putCells t.cells m (rowNew t m cs), rows := t.rows.set m (sumsRow t m cs) TRow.zero }

theorem applyRow_eq (t : Tile) (m : Nat) (ts : List (List (Val × Val))) : applyRow t m ts = addSums t m (rowSums t m ts) := rfl

section AddSums
variable (t : Tile) {m k n : Nat} (ts : List (List (Val × Val)))

theorem row_applyRow_other (hk : k ≠ m) : (applyRow t m ts).row k = t.row k := Map.get_set_other _ hk _ _

theorem cell_applyRow_other (hk : k ≠ m) (hn : n < 64) : (applyRow t m ts).cells.get (64 * k + n) 0#64 = t.cells.get (64 * k + n) 0#64 :=
  get_putCells_other hk hn

theorem cell_applyRow (hn : n < 64) : (applyRow t m ts).cells.get (64 * m + n) 0#64 =
    t.cells.get (64 * m + n) 0#64 + BitVec.ofInt 64 (colSum ((t.row m).anchor.toInt - 43) (nth ts n [])) := by
  have hlen : (rowNew t m (rowSums t m ts)).length = 64 := by simp [rowNew]
  rw [applyRow_eq]
  refine (get_putCells_same hlen (by rw [hlen]; exact hn)).trans ?_
  simp only [rowNew, List.getElem_map, List.getElem_range, nth_cellsOf t m hn, rowSums, List.getElem?_map]
  cases h : ts[n]? with
  | none => simp [colSum, nth, h]
  | some l => simp [colAcc, nth, h, BitVec.ofInt_add]

theorem foldl_sum (l : List Acc1) : l.foldl (fun s c => s + c.sum) 0 = (l.map (·.sum)).sum := by
  rw [List.sum_eq_foldl, List.foldl_map]

theorem row_applyRow : (applyRow t m ts).row m = sumsRow t m (rowSums t m ts) := Map.get_set_same _ _ _ _

theorem anchor_applyRow : ((applyRow t m ts).row m).anchor = (t.row m).anchor := by
  rw [row_applyRow]
  rfl

theorem pinned_applyRow : ((applyRow t m ts).row m).pinned = (t.row m).pinned := by
  rw [row_applyRow]
  rfl

theorem check_applyRow : ((applyRow t m ts).row m).check =
    (t.row m).check + BitVec.ofInt 64 (ts.map (colSum ((t.row m).anchor.toInt - 43))).sum := by
  rw [row_applyRow]
  simp only [sumsRow, foldl_sum, rowSums, List.map_map, Function.comp_def, colAcc]

theorem nan_applyRow : ((applyRow t m ts).row m).nan = ((t.row m).nan || ts.any fun l => l.any fun e => e.1.isNan) := by
  rw [row_applyRow]
  simp only [sumsRow, rowSums, List.any_map, Function.comp_def, colAcc]

theorem pinf_applyRow : ((applyRow t m ts).row m).pinf = ((t.row m).pinf || ts.any fun l => l.any fun e => e.1 == .inf false) := by
  rw [row_applyRow]
  simp only [sumsRow, rowSums, List.any_map, Function.comp_def, colAcc]

theorem ninf_applyRow : ((applyRow t m ts).row m).ninf = ((t.row m).ninf || ts.any fun l => l.any fun e => e.1 == .inf true) := by
  rw [row_applyRow]
  simp only [sumsRow, rowSums, List.any_map, Function.comp_def, colAcc]

theorem ovf_applyRow (h : (t.row m).ovf = true) : ((applyRow t m ts).row m).ovf = true := by
  rw [row_applyRow]
  exact Bool.or_eq_true_iff.mpr (.inl h)

/-- A list padded with a value that counts for nothing has the same sum. -/
theorem sum_nth {α : Type} (g : List α → BitVec 64) (hg : g [] = 0) {l : List (List α)} {N : Nat} (hl : l.length ≤ N) :
    ((List.range N).map fun n => g (nth l n [])).sum = (l.map g).sum := by
  induction l generalizing N with
  | nil => simp [nth, hg]
  | cons x l ih =>
    obtain ⟨N, rfl⟩ := Nat.exists_eq_succ_of_ne_zero (show N ≠ 0 by rintro rfl; simp at hl)
    rw [List.range_succ_eq_map, List.map_cons, List.map_map, List.sum_cons, List.map_cons, List.sum_cons, ← ih (N := N) (by simpa using hl)]
    rfl

theorem ofInt_sum (l : List Int) : BitVec.ofInt 64 l.sum = (l.map (BitVec.ofInt 64)).sum := by
  induction l with
  | nil => rfl
  | cons x l ih => rw [List.sum_cons, BitVec.ofInt_add, ih, List.map_cons, List.sum_cons]

/-- A row whose CHECK is the sum of its cells stays one (R145). -/
theorem rowOk_applyRow (hl : ts.length ≤ 64) (h : t.rowOk m = true) : (applyRow t m ts).rowOk m = true := by
  rw [rowOk_iff, checkOf_cellsOf] at h ⊢
  have hpad := sum_nth (fun l => BitVec.ofInt 64 (colSum ((t.row m).anchor.toInt - 43) l)) (by simp [colSum]) hl
  rw [check_applyRow, List.map_congr_left fun n hn => cell_applyRow t ts (List.mem_range.mp hn), List.sum_map_add, h, hpad, ofInt_sum, List.map_map]
  rfl

end AddSums

/-- What a term adds, as the spec says it (R141). -/
theorem termOf_floor (u : Int) (v : Val) : termOf u v = match v with
    | .fin n k x => ⌊(if n then -(mag k x) else mag k x) / (2 : ℚ) ^ u⌋
    | _ => 0 := by
  cases v with
  | fin n k x => exact alignTrunc_floor n k x u
  | _ => rfl

/-- Settles O32: the row's sums by `foldl_add`, which no order of the terms changes. -/
theorem passesAccumulateExactly : Obligations.PassesAccumulateExactly := by
  intro t m ts hl u unit sum
  have hsum : sum = colSum ((t.row m).anchor.toInt - 43) := by
    funext l
    exact congrArg List.sum (List.map_congr_left fun e _ => (termOf_floor _ e.1).symm)
  simp only [hsum]
  refine ⟨fun n hn => cell_applyRow t ts hn, fun k n hk hn => cell_applyRow_other t ts hk hn, fun k hk => row_applyRow_other t ts hk,
    anchor_applyRow t ts, pinned_applyRow t ts, nan_applyRow t ts, pinf_applyRow t ts, ninf_applyRow t ts,
    ovf_applyRow t ts, check_applyRow t ts, rowOk_applyRow t ts hl, rfl, rfl, fun ts' h => ?_⟩
  rw [applyRow_eq, rowSums_perm t m h, ← applyRow_eq]

end Sys2Proof.Machine
end

section
/-! SUPPORT. The stage of the issuing cohort: a Z instruction that waits for its tile's turn marks it (R134), and no access reads it. -/

namespace Sys2Proof.Machine

section Reads
variable (st : Stage) (s : State)

@[simp] theorem setStage_byte (a : Nat) : (setStage st s).byte a = s.byte a := byte_congr rfl rfl rfl a
@[simp] theorem setStage_bytes (a n : Nat) : (setStage st s).bytes a n = s.bytes a n := by simp [bytes_eq_map]
theorem setStage_inRanges (p a : Nat) : (setStage st s).inRanges p a = s.inRanges p a := rfl
theorem setStage_physOf (p a : Nat) : physOf (setStage st s) p a = physOf s p a := rfl
@[simp] theorem setStage_live (a : Nat) : (setStage st s).live a = s.live a := rfl
@[simp] theorem setStage_touchesLive (a n : Nat) : (setStage st s).touchesLive a n = s.touchesLive a n := rfl
@[simp] theorem setStage_poisoned (a : Nat) : (setStage st s).poisoned a = s.poisoned a := rfl
@[simp] theorem setStage_part (p : Nat) : (setStage st s).part p = s.part p := rfl

theorem setStage_tenant? (p a : Nat) : tenant? (setStage st s) p a = tenant? s p a := by
  unfold tenant? tenantBytes
  rw [setStage_bytes]
  rfl

theorem setStage_leaf0 (pick va at_ : Nat) (e : Dword) : leaf0 (setStage st s) pick va at_ e = leaf0 s pick va at_ e := by
  simp only [leaf0, setStage_bytes]

theorem setStage_walkFrom (p pick va l tbl : Nat) : walkFrom (setStage st s) p pick va l tbl = walkFrom s p pick va l tbl := by
  induction l generalizing tbl with
  | zero =>
    rw [walkFrom, walkFrom]
    simp only [setStage_physOf, setStage_bytes, setStage_inRanges, setStage_leaf0]
    rfl
  | succ l ih =>
    rw [walkFrom, walkFrom]
    simp only [setStage_physOf, setStage_bytes, setStage_inRanges, ih]
    rfl

theorem setStage_walk (p a pick va : Nat) : walk (setStage st s) p a pick va = walk s p a pick va := by
  simp only [walk, setStage_tenant?, setStage_walkFrom]

theorem setStage_checkTr (p a : Nat) (priv : Bool) (acc : Acc) (t : Tr) : checkTr (setStage st s) p a priv acc t = checkTr s p a priv acc t := rfl

theorem setStage_xlate (p a : Nat) (priv : Bool) (acc : Acc) (va : Nat) : xlate (setStage st s) p a priv acc va = xlate s p a priv acc va := by
  simp only [xlate, setStage_walk, setStage_checkTr]
  rfl

theorem setStage_privOf (p a : Nat) : privOf (setStage st s) p a = privOf s p a := by rw [privOf, setStage_tenant?, privOf]

theorem setStage_xlateLane (lane : Option Nat) (acc : Acc) (va : Nat) :
    xlateLane (setStage st s) (setStage st s).cur lane acc va = xlateLane s s.cur lane acc va := by
  simp only [xlateLane, setStage_walk, setStage_checkTr]
  rfl

theorem setStage_mapBusy (p a : Nat) (r : Range) (b : Nat) : mapBusy (setStage st s) p a r b = mapBusy s p a r b := by
  simp only [mapBusy, setStage_xlate, setStage_privOf]
  rfl

theorem setStage_blkState (p : Nat) (r : Range) (b : Nat) : blkState (setStage st s) p r b = blkState s p r b := by
  simp only [blkState, mapTr, setStage_xlate, setStage_privOf, setStage_poisoned, setStage_byte]

theorem setStage_peekAt (p a : Nat) (g : Option Gen) (t : Tr) : peekAt (setStage st s) p a g t = peekAt s p a g t := by
  simp only [peekAt, setStage_mapBusy, setStage_blkState]
  rfl

@[simp] theorem setStage_resolvePiece (spad : Bool) (acc : Acc) (a n : Nat) : resolvePiece spad acc (setStage st s) a n = resolvePiece spad acc s a n := by
  have hglob : resolve .glob acc false 1 (setStage st s) none a = resolve .glob acc false 1 s none a := by
    simp only [resolve, setStage_xlateLane]
    rfl
  have hown : ownAt (setStage st s).cur n a = ownAt s.cur n a := rfl
  rw [resolvePiece, resolvePiece, hglob, hown]

@[simp] theorem setStage_ask (l : LaneAcc) : l.ask (setStage st s) = l.ask s := by
  unfold LaneAcc.ask
  simp only [setStage_peekAt]
  rfl

@[simp] theorem setStage_sbStall (rd wr : Bool) (w : Nat) (l : LaneAcc) : sbStall (setStage st s) rd wr w l = sbStall s rd wr w l := rfl
@[simp] theorem setStage_logStall (sp : ASpace) (w : Nat) (l : LaneAcc) : logStall (setStage st s) sp w l = logStall s sp w l := rfl
@[simp] theorem setStage_behind (w : Nat) (l : LaneAcc) : l.behind (setStage st s) w = l.behind s w := rfl
@[simp] theorem setStage_genFaultT (va : Nat) : genFaultT (setStage st s) va = genFaultT s va := rfl

end Reads

/-! ## Updates -/

/-- A cohort whose instruction is at a stage. -/
def Cohort.withStage (st : Stage) (c : Cohort) : Cohort := { c with c := { c.c with stage := st } }

section Updates
variable (st : Stage) (s : State)

theorem setStage_ite (c : Prop) [Decidable c] (t u : State) : setStage st (if c then t else u) = if c then setStage st t else setStage st u := apply_ite ..

@[simp] theorem setBytes_setStage (a : Nat) (bs : List Byte) : (setStage st s).setBytes a bs = setStage st (s.setBytes a bs) := rfl
@[simp] theorem updPart_setStage (p : Nat) (f : Part → Part) : (setStage st s).updPart p f = setStage st (s.updPart p f) := rfl
@[simp] theorem countMisc_setStage (p : Nat) : (setStage st s).countMisc p = setStage st (s.countMisc p) := rfl

theorem raiseHeat_setStage (rd wr : Bool) (a : Nat) : raiseHeat rd wr a (setStage st s) = setStage st (raiseHeat rd wr a s) := by
  simp only [raiseHeat, setStage_bytes, setStage_byte, setStage_ite, setBytes_setStage]

theorem heatFor_setStage (p : Nat) (acc : Acc) (a : Nat) : heatFor p acc a (setStage st s) = setStage st (heatFor p acc a s) := by
  simp only [heatFor, setStage_part, raiseHeat_setStage, setStage_ite]

theorem noteUse_setStage (acc : Acc) (t : Tr) : noteUse none acc t (setStage st s) = setStage st (noteUse none acc t s) := by
  unfold noteUse
  dsimp only
  have htlb : (setStage st s).tlb = s.tlb := rfl
  have hpl : (setStage st s).cur.pl = s.cur.pl := rfl
  rw [htlb, hpl]
  split
  · generalize replaceFirst _ _ s.tlb = l
    rw [setStage_ite, ← heatFor_setStage]
    rfl
  · generalize s.tlb ++ _ = l
    exact heatFor_setStage st { s with tlb := l } _ _ _

theorem putL1_setStage (x : L1Line) : (setStage st s).putL1 x = setStage st (s.putL1 x) := by
  simp only [State.putL1, setStage_ite]
  rfl

theorem putBytes_setStage (l : List (Nat × Byte)) : putBytes l (setStage st s) = setStage st (putBytes l s) := by
  unfold putBytes
  induction l generalizing s with
  | nil => rfl
  | cons e l ih => exact ih (s.setBytes e.1 [e.2])

theorem updLaunch_setStage (k : Nat) (f : Launch → Launch) : (setStage st s).updLaunch k f = setStage st (s.updLaunch k f) := rfl

theorem ring_setStage (p : Nat) (r : Rec) : (setStage st s).ring p r = ((s.ring p r).1, setStage st (s.ring p r).2) := by
  unfold State.ring
  dsimp only
  rw [setStage_part, setStage_inRanges]
  generalize (_ && s.inRanges p _) = ok
  cases r.launch <;> cases ok <;>
    simp only [Bool.false_eq_true, if_false, if_true, setBytes_setStage, updPart_setStage, updLaunch_setStage]

theorem cohorts_setStage : (setStage st s).cohorts = (if s.cur.resident then [s.cur.withStage st] else []) ++ s.others := rfl

/-- A cohort found by what no stage says, but for the stage of the issuing one. -/
theorem find_cohorts_setStage {p : Cohort → Bool} (hp : p (s.cur.withStage st) = p s.cur) :
    ((setStage st s).cohorts.find? p = none ∧ s.cohorts.find? p = none)
      ∨ ∃ c c', (setStage st s).cohorts.find? p = some c' ∧ s.cohorts.find? p = some c ∧ (c' = c ∨ c' = c.withStage st) := by
  by_cases hc : s.cur.resident = true ∧ p s.cur = true
  · exact .inr ⟨s.cur, s.cur.withStage st, by simp [cohorts_setStage, hc, hp], by simp [State.cohorts, hc], .inr rfl⟩
  · have h (x : Cohort) (hx : p x = p s.cur) : ((if s.cur.resident then [x] else []) ++ s.others).find? p = s.others.find? p := by
      cases hres : s.cur.resident <;> simp_all
    rw [cohorts_setStage, State.cohorts, h _ hp, h _ rfl]
    cases s.others.find? p with
    | none => exact .inl ⟨rfl, rfl⟩
    | some c => exact .inr ⟨c, c, rfl, rfl, .inl rfl⟩

theorem updCohorts_setStage {f : Cohort → Cohort} (hf : f (s.cur.withStage st) = (f s.cur).withStage st) :
    (setStage st s).updCohorts f = setStage st (s.updCohorts f) := by
  have hcur : (setStage st s).cur = s.cur.withStage st := rfl
  have hres : (s.cur.withStage st).resident = s.cur.resident := rfl
  unfold State.updCohorts
  rw [hcur, hres, hf]
  cases s.cur.resident <;> rfl

theorem updCohort_setStage (id : Nat) {f : Cohort → Cohort} (hf : ∀ c, f (c.withStage st) = (f c).withStage st) :
    (setStage st s).updCohort id f = setStage st (s.updCohort id f) := by
  refine updCohorts_setStage st s ?_
  have hid : (s.cur.withStage st).pl.id = s.cur.pl.id := rfl
  rw [hid, hf]
  exact (apply_ite (Cohort.withStage st) ..).symm

end Updates

section Accesses
variable (st : Stage) (s : State)

theorem cohort?_setStage (id : Nat) : ((setStage st s).cohort? id = none ∧ s.cohort? id = none)
    ∨ ∃ c c', (setStage st s).cohort? id = some c' ∧ s.cohort? id = some c ∧ (c' = c ∨ c' = c.withStage st) :=
  find_cohorts_setStage st s rfl

theorem postLate_setStage (id cause detail opnd : Nat) (pc : Pc) (mask done : Mask) (addr : Nat) :
    postLate id cause detail opnd pc mask done addr (setStage st s) = setStage st (postLate id cause detail opnd pc mask done addr s) := by
  unfold postLate
  rcases cohort?_setStage st s id with ⟨h1, h2⟩ | ⟨c, c', h1, h2, hc⟩
  · rw [h1, h2]
  · have hrec : lateRec c' cause detail pc mask addr = lateRec c cause detail pc mask addr := by rcases hc with rfl | rfl <;> rfl
    have hend : c'.c.ending = c.c.ending := by rcases hc with rfl | rfl <;> rfl
    have hpl : c'.pl = c.pl := by rcases hc with rfl | rfl <;> rfl
    rw [h1, h2]
    dsimp only
    rw [hrec, hend, hpl, ring_setStage, setStage_ite]
    congr 1
    · cases c.pl.launch <;> rfl
    · exact updCohort_setStage st s id fun _ => rfl

theorem refuse_setStage (q : Parked) : refuse q (setStage st s) = setStage st (refuse q s) := by
  unfold refuse
  cases q.req with
  | load | sload | store | atom | held => exact postLate_setStage ..
  | host | remote | ratom | copy | engine | wback | other => rfl

/-- The core of the cohort whose request parks. -/
def parkCore (req : Req) (s : State) : Option Nat :=
  match req with
  | .wback c _ => some c
  | r => (r.cohort?.bind s.cohort?).map (·.pl.core)

/-- A request with its number joins the queue, or is refused. -/
def enqueue (part pa die cause : Nat) (q : Parked) (s : State) : State :=
  let slice := s.parked.filter fun x => sliceOf x.pa == sliceOf pa && x.die == die
  if 64 ≤ slice.length || 16 ≤ (slice.filter fun x => x.part == part).length then refuse q s
  else
    let s := if s.parked.any fun x => x.pa == q.pa then s else (s.ring part (plainRec cause 0 1 q.pa)).2
    { s with parked := s.parked ++ [q] }

theorem parkReq_eq (part pa die va : Nat) (mask : Mask) (cause : Nat) (req : Req) :
    parkReq part pa die va mask cause req s =
      enqueue part pa die cause ⟨s.ids, part, pa / 64 * 64, va, mask, cause, s.m.time, req, die, parkCore req s.fresh.2⟩ s.fresh.2 := rfl

theorem parkCore_setStage (req : Req) : parkCore req (setStage st s) = parkCore req s := by
  have h (id : Nat) : ((setStage st s).cohort? id).map (·.pl.core) = (s.cohort? id).map (·.pl.core) := by
    rcases cohort?_setStage st s id with ⟨h1, h2⟩ | ⟨c, c', h1, h2, rfl | rfl⟩
    · rw [h1, h2]
    · rw [h1, h2]
    · rw [h1, h2]
      rfl
  cases req with
  | load | sload | store | atom | held => exact h _
  | host | remote | ratom | copy | engine | wback | other => rfl

theorem enqueue_setStage (part pa die cause : Nat) (q : Parked) :
    enqueue part pa die cause q (setStage st s) = setStage st (enqueue part pa die cause q s) := by
  have hparked : (setStage st s).parked = s.parked := rfl
  unfold enqueue
  rw [hparked, refuse_setStage, ring_setStage, setStage_ite]
  cases s.parked.any fun x => x.pa == q.pa <;> rfl

theorem parkReq_setStage (part pa die va : Nat) (mask : Mask) (cause : Nat) (req : Req) :
    parkReq part pa die va mask cause req (setStage st s) = setStage st (parkReq part pa die va mask cause req s) := by
  have hf : (setStage st s).fresh.2 = setStage st s.fresh.2 := rfl
  rw [parkReq_eq, parkReq_eq, hf, parkCore_setStage, ← enqueue_setStage]
  rfl

/-! ## The L1 -/

theorem writeBack_setStage (core line : Nat) : writeBack core line (setStage st s) = setStage st (writeBack core line s) := by
  have hl1 : (setStage st s).l1? core line = s.l1? core line := rfl
  unfold writeBack
  rw [hl1]
  cases s.l1? core line with
  | none => rfl
  | some x =>
    simp only [setStage_live, putL1_setStage, countMisc_setStage, ← setStage_ite, setStage_poisoned, setBytes_setStage, parkReq_setStage,
      putBytes_setStage]

theorem makeRoom_setStage (core line : Nat) : makeRoom core line (setStage st s) = setStage st (makeRoom core line s) := by
  have hl1 : (setStage st s).l1 = s.l1 := rfl
  have hdel (t : State) (c l : Nat) : (setStage st t).delL1 c l = setStage st (t.delL1 c l) := rfl
  unfold makeRoom
  dsimp only
  rw [hl1, setStage_ite]
  generalize s.l1.filter _ = set
  cases victim set <;> simp only [writeBack_setStage, hdel]

theorem lineTags_setStage (line : Nat) : lineTags (setStage st s) line = lineTags s line := rfl

theorem allocL1_setStage (core part line die hint : Nat) :
    allocL1 core part line die hint (setStage st s) = setStage st (allocL1 core part line die hint s) := by
  have hl1 : (setStage st s).l1? core line = s.l1? core line := rfl
  unfold allocL1
  rw [hl1]
  cases s.l1? core line with
  | none =>
    rw [makeRoom_setStage]
    rfl
  | some x => simp only [putL1_setStage, ← setStage_ite]

theorem fillL1_setStage (core part line die hint : Nat) :
    fillL1 core part line die hint (setStage st s) = setStage st (fillL1 core part line die hint s) := by
  unfold fillL1
  rw [allocL1_setStage]
  generalize allocL1 core part line die hint s = t
  have hl1 : (setStage st t).l1? core line = t.l1? core line := rfl
  dsimp only
  rw [hl1]
  cases t.l1? core line with
  | none => rfl
  | some x => simp only [setStage_byte, lineTags_setStage, putL1_setStage]

theorem pokeL1_setStage (core pa : Nat) (bs : List Byte) (d : Bool) : pokeL1 core pa bs d (setStage st s) = setStage st (pokeL1 core pa bs d s) := by
  have hl1 : (setStage st s).l1? core (pa / 64) = s.l1? core (pa / 64) := rfl
  unfold pokeL1
  rw [hl1]
  cases s.l1? core (pa / 64) with
  | none => rfl
  | some x => exact putL1_setStage ..

end Accesses

/-! ## The on-chip map -/

section Chip
variable (st : Stage) (s : State)

theorem rowOwner_setStage (core ipart k : Nat) : (rowOwner (setStage st s) core ipart k = none ∧ rowOwner s core ipart k = none)
    ∨ ∃ c c', rowOwner (setStage st s) core ipart k = some c' ∧ rowOwner s core ipart k = some c ∧ (c' = c ∨ c' = c.withStage st) :=
  find_cohorts_setStage st s rfl

/-- The cohort of a slot of a core. -/
def slotCohort (s : State) (core ix : Nat) : Option Cohort := s.cohorts.find? fun c => c.pl.core == core && c.pl.slotIx == ix

theorem slotCohort_setStage (core ix : Nat) : (slotCohort (setStage st s) core ix = none ∧ slotCohort s core ix = none)
    ∨ ∃ c c', slotCohort (setStage st s) core ix = some c' ∧ slotCohort s core ix = some c ∧ (c' = c ∨ c' = c.withStage st) :=
  find_cohorts_setStage st s rfl

theorem chipByte_setStage (pa : Nat) : chipByte (setStage st s) pa = chipByte s pa := by
  have hslot (core o : Nat) : storeAt? (setStage st s) core o = storeAt? s core o := rfl
  unfold chipByte
  dsimp only
  rw [setStage_byte]
  split
  · rfl
  · split
    · rw [hslot]
    · split
      · rcases rowOwner_setStage st s ((pa - 0xE_0000_0000_0000) / 2 ^ 21) (((pa - 0xE_0000_0000_0000) % 2 ^ 21 - 0x10_0000) / 2 ^ 16)
          (((pa - 0xE_0000_0000_0000) % 2 ^ 21 - 0x10_0000) % 2 ^ 16 / 128) with ⟨h1, h2⟩ | ⟨c, c', h1, h2, rfl | rfl⟩
        · rw [h1, h2]
        · rw [h1, h2]
        · rw [h1, h2]
          rfl
      · split
        · rcases slotCohort_setStage st s ((pa - 0xE_0000_0000_0000) / 2 ^ 21) (((pa - 0xE_0000_0000_0000) % 2 ^ 21 - 0x18_0000) / 512)
            with ⟨h1, h2⟩ | ⟨c, c', h1, h2, rfl | rfl⟩ <;> unfold slotCohort at h1 h2
          · rw [h1, h2]
          · rw [h1, h2]
          · rw [h1, h2]
            rfl
        · rfl

theorem chipBytes_setStage (pa n : Nat) : chipBytes (setStage st s) pa n = chipBytes s pa n := by simp only [chipBytes, chipByte_setStage]

theorem chipPut_setStage (pa : Nat) (x : Byte) : chipPut pa x (setStage st s) = setStage st (chipPut pa x s) := by
  have hslot (core o : Nat) : storeAt? (setStage st s) core o = storeAt? s core o := rfl
  unfold chipPut
  dsimp only
  split
  · rfl
  · split
    · rw [hslot]
      split <;> rfl
    · split
      · rcases rowOwner_setStage st s ((pa - 0xE_0000_0000_0000) / 2 ^ 21) (((pa - 0xE_0000_0000_0000) % 2 ^ 21 - 0x10_0000) / 2 ^ 16)
          (((pa - 0xE_0000_0000_0000) % 2 ^ 21 - 0x10_0000) % 2 ^ 16 / 128) with ⟨h1, h2⟩ | ⟨c, c', h1, h2, rfl | rfl⟩
        · rw [h1, h2]
          rfl
        · rw [h1, h2]
          exact updCohort_setStage st s _ fun _ => rfl
        · rw [h1, h2]
          exact updCohort_setStage st s _ fun _ => rfl
      · split
        · rcases slotCohort_setStage st s ((pa - 0xE_0000_0000_0000) / 2 ^ 21) (((pa - 0xE_0000_0000_0000) % 2 ^ 21 - 0x18_0000) / 512)
            with ⟨h1, h2⟩ | ⟨c, c', h1, h2, rfl | rfl⟩ <;> unfold slotCohort at h1 h2
          · rw [h1, h2]
            rfl
          · rw [h1, h2]
            exact updCohort_setStage st s _ fun _ => rfl
          · rw [h1, h2]
            exact updCohort_setStage st s _ fun _ => rfl
        · rfl

theorem chipPutAll_setStage (pa : Nat) (bs : List Byte) : chipPutAll pa bs (setStage st s) = setStage st (chipPutAll pa bs s) := by
  unfold chipPutAll
  induction (List.range bs.length).zip bs generalizing s with
  | nil => rfl
  | cons e l ih =>
    rw [List.foldl_cons, List.foldl_cons, ← ih]
    exact congrArg (List.foldl _ · l) (chipPut_setStage st s _ _)

end Chip

/-! ## Loads and stores at a place -/

section Places
variable (st : Stage) (s : State)

theorem noteFab_setStage (md va : Nat) (mask lanes : Mask) : noteFab md va mask lanes (setStage st s) = setStage st (noteFab md va mask lanes s) := by
  unfold noteFab
  rw [setStage_ite, ← postLate_setStage]
  rfl

theorem loadAt_setStage (loc : Loc) (va n : Nat) (sc : Scope) (ca : Cache) (mask : Mask) (req : Req) :
    loadAt loc va n sc ca mask req (setStage st s) =
      ((loadAt loc va n sc ca mask req s).1, setStage st (loadAt loc va n sc ca mask req s).2) := by
  cases loc with
  | dram pa die =>
    have hhas : l1Has (setStage st s) s.cur.pl.core pa n = l1Has s s.cur.pl.core pa n := rfl
    have hl1 (t : State) : l1Bytes (setStage st t) s.cur.pl.core pa n = l1Bytes t s.cur.pl.core pa n := rfl
    have hpl : (setStage st s).cur.pl = s.cur.pl := rfl
    unfold loadAt
    dsimp only
    rw [hpl, hhas, setStage_poisoned, writeBack_setStage, setStage_poisoned, fillL1_setStage, parkReq_setStage, parkReq_setStage, setStage_bytes, hl1, hl1]
    cases l1Served sc ca with
    | true =>
      cases l1Has s s.cur.pl.core pa n with
      | true => rfl
      | false => cases s.poisoned pa <;> rfl
    | false => cases (writeBack s.cur.pl.core (pa / 64) s).poisoned pa <;> rfl
  | chip pa =>
    have hsp : spPoisoned (setStage st s) pa n = spPoisoned s pa n := rfl
    unfold loadAt
    dsimp only
    rw [hsp, chipBytes_setStage]
    cases isSp pa && spPoisoned s pa n <;> rfl
  | host a =>
    unfold loadAt
    dsimp only
    rw [setStage_bytes]
    rfl
  | remote md o =>
    have hm : (setStage st s).m = s.m := rfl
    unfold loadAt
    dsimp only
    rw [hm]
    cases s.m.fabDown.contains md <;> rfl
  | bus => rfl

theorem setStage_pair {c : Prop} [Decidable c] (g g' : Got) (t t' : State) :
    (if c then (g, setStage st t) else (g', setStage st t'))
      = ((if c then (g, t) else (g', t')).1, setStage st (if c then (g, t) else (g', t')).2) := by
  split <;> rfl

theorem storeAt_setStage (loc : Loc) (va : Nat) (bs : List Byte) (sc : Scope) (ca : Cache) (mask : Mask) (req : Req) :
    storeAt loc va bs sc ca mask req (setStage st s) =
      ((storeAt loc va bs sc ca mask req s).1, setStage st (storeAt loc va bs sc ca mask req s).2) := by
  cases loc with
  | dram pa die =>
    have hl1 (t : State) : (setStage st t).l1? s.cur.pl.core (pa / 64) = t.l1? s.cur.pl.core (pa / 64) := rfl
    have hpl : (setStage st s).cur.pl = s.cur.pl := rfl
    unfold storeAt
    dsimp only
    rw [hpl, allocL1_setStage, hl1, setStage_live, pokeL1_setStage, setStage_touchesLive, writeBack_setStage, setStage_poisoned,
      parkReq_setStage, setBytes_setStage, pokeL1_setStage]
    cases l1Served sc ca with
    | true =>
      rw [if_pos rfl, if_pos rfl]
      exact setStage_pair st ..
    | false =>
      cases s.touchesLive pa bs.length with
      | true => rfl
      | false => cases (writeBack s.cur.pl.core (pa / 64) s).poisoned pa && decide (bs.length < 64) <;> rfl
  | chip pa =>
    unfold storeAt
    dsimp only
    rw [setStage_touchesLive, chipPutAll_setStage]
    cases s.touchesLive pa bs.length <;> rfl
  | host a => rfl
  | remote md o => exact congrArg (Prod.mk _) (noteFab_setStage st { s with outs := s.outs ++ [.zwiov md o (.wr bs)] } ..)
  | bus => rfl

theorem noteLanes_setStage (acc : Acc) (ls : List LaneAcc) (h : ∀ l ∈ ls, l.lane = none) :
    noteLanes acc ls (setStage st s) = setStage st (noteLanes acc ls s) := by
  unfold noteLanes
  dsimp only
  have hdrop : (if ls.any LaneAcc.proc then dropFilled (setStage st s).cur.pl.core (setStage st s) else setStage st s)
      = setStage st (if ls.any LaneAcc.proc then dropFilled s.cur.pl.core s else s) := by
    rw [setStage_ite]
    rfl
  rw [hdrop]
  generalize (if ls.any LaneAcc.proc then dropFilled s.cur.pl.core s else s) = t
  clear hdrop
  induction ls generalizing t with
  | nil => rfl
  | cons l ls ih =>
    rw [List.foldl_cons, List.foldl_cons, ← ih fun x hx => h x (List.mem_cons_of_mem _ hx)]
    congr 1
    rw [h l List.mem_cons_self]
    split
    · exact noteUse_setStage st t acc _
    · rfl

end Places

/-! ## Computations that do not read the stage -/

/-- Where it ends, a computation gives the same answer at every stage, which it keeps. -/
structure StageFree {α : Type} (x : M α) : Prop where
  run : ∀ {st s y t}, x s = .ok (y, t) → x (setStage st s) = .ok (y, setStage st t)

namespace StageFree
variable {α β : Type}

theorem bind {x : M α} {f : α → M β} (hx : StageFree x) (hf : ∀ y, StageFree (f y)) : StageFree (x >>= f) := by
  refine ⟨fun {st s z u} h => ?_⟩
  cases hxs : x s with
  | error e =>
    rw [bind_error hxs] at h
    cases h
  | ok r =>
    rw [bind_ok hxs] at h
    rw [bind_ok (hx.run hxs)]
    exact (hf r.1).run h

theorem pure (y : α) : StageFree (Pure.pure y : M α) := by
  refine ⟨fun {st s z u} h => ?_⟩
  cases h
  rfl

/-- A body that reads the state at its start. -/
theorem get_bind {f : State → M β} (hf : ∀ s, StageFree (f s)) (hs : ∀ st s, f (setStage st s) = f s) : StageFree (get >>= f) := by
  refine ⟨fun {st s z u} h => ?_⟩
  rw [bind_ok (get_run s)] at h
  rw [bind_ok (get_run _), hs]
  exact (hf s).run h

theorem upd {f : State → State} (hf : ∀ st s, f (setStage st s) = setStage st (f s)) : StageFree (M.upd f) := by
  refine ⟨fun {st s z u} h => ?_⟩
  cases h
  rw [upd_run, hf]

theorem waitUntil {w : WaitOn} {c : State → Bool} (hc : ∀ st s, c (setStage st s) = c s) : StageFree (M.waitUntil w c) := by
  refine ⟨fun {st s z u} h => ?_⟩
  unfold M.waitUntil at h ⊢
  rw [hc]
  cases hcs : c s with
  | true =>
    rw [hcs] at h
    cases h
    rfl
  | false =>
    rw [hcs] at h
    cases h

theorem trap (t : Trap) : StageFree (M.trap t : M α) := by
  refine ⟨fun {st s z u} h => ?_⟩
  cases h

theorem trapIf (c : Bool) (t : Trap) : StageFree (M.trapIf c t) := by
  refine ⟨fun {st s z u} h => ?_⟩
  cases c with
  | true => cases h
  | false =>
    cases h
    rfl

theorem mapL {f : α → M β} (hf : ∀ y, StageFree (f y)) (l : List α) : StageFree (M.mapL l f) := by
  induction l with
  | nil => exact pure []
  | cons x l ih => exact (hf x).bind fun _ => ih.bind fun _ => pure _

theorem each {f : α → M Unit} (hf : ∀ y, StageFree (f y)) (l : List α) : StageFree (M.each l f) := by
  induction l with
  | nil => exact pure ()
  | cons x l ih => exact (hf x).bind fun _ => ih

end StageFree

/-! ## Accesses to memory tiles -/

theorem requestM_error (va : Nat) (t : Tr) (s : State) : ∃ e, requestM va t s = .error e := by
  unfold requestM
  generalize askAt s.cur.pl.part s.cur.pl.asid s.cur.x.gen t s = r
  obtain ⟨a, u⟩ := r
  cases a <;> exact ⟨_, rfl⟩

theorem suspendM_stageFree (ls : List LaneAcc) : StageFree (suspendM ls) := by
  refine ⟨fun {st s z u} h => ?_⟩
  unfold suspendM at h ⊢
  simp only [setStage_ask]
  split at h
  · cases h
  · next hb =>
    rw [if_neg hb]
    generalize lowest _ = first at h ⊢
    cases first with
    | none =>
      cases h
      rfl
    | some l =>
      dsimp only at h ⊢
      split at h
      · next t _ =>
        obtain ⟨e, he⟩ := requestM_error l.addr t s
        rw [he] at h
        cases h
      · cases h
        rfl

theorem suspendM_keeps {ls : List LaneAcc} {s t : State} {y : Unit} (h : suspendM ls s = .ok (y, t)) : t = s := by
  unfold suspendM at h
  split at h
  · cases h
  · split at h
    · cases h
      rfl
    · next l _ =>
      split at h
      · next t _ =>
        obtain ⟨e, he⟩ := requestM_error l.addr t s
        rw [he] at h
        cases h
      · cases h
        rfl

/-- The faults that a check of pieces finds, lowest address first. -/
def pieceFault (s : State) (ls : List (LaneAcc × Nat)) : Option (Nat × Trap) :=
  (ls.filterMap fun (l, _) => match l.st with
    | .fault t => some (l.addr, t)
    | .at_ _ _ => if l.ask s == Ask.failed then some (l.addr, genFaultT s l.addr) else none
    | _ => none).foldl (fun (b : Option (Nat × Trap)) x => match b with
      | none => some x
      | some y => if x.1 < y.1 then some x else some y) none

theorem pieceFault_setStage (st : Stage) (s : State) (ls : List (LaneAcc × Nat)) : pieceFault (setStage st s) ls = pieceFault s ls := by
  simp only [pieceFault, setStage_ask, setStage_genFaultT]

/-- The pieces with their places. -/
def placed (spad : Bool) (acc : Acc) (ps : List (Nat × Nat)) (s : State) : List (LaneAcc × Nat) := ps.map fun (x, k) => (resolvePiece spad acc s x k, k)

theorem placed_lane {spad : Bool} {acc : Acc} {ps : List (Nat × Nat)} {s : State} : ∀ l ∈ (placed spad acc ps s).map (·.1), l.lane = none := by
  intro l hl
  simp only [placed, List.map_map, List.mem_map, Function.comp_apply] at hl
  obtain ⟨x, -, rfl⟩ := hl
  rfl

theorem checkPieces_eq (spad : Bool) (acc : Acc) (opnd : Nat) (ps : List (Nat × Nat)) :
    checkPieces spad acc opnd ps = (do
      let s ← get
      suspendM ((placed spad acc ps s).map (·.1))
      M.waitUntil .scoreboard fun t => !(placed spad acc ps s).any fun (l, k) => sbStall t (acc != .store) (acc != .load) k l
      M.waitUntil .log fun t => !(placed spad acc ps s).any fun (l, k) => logStall t (if spad then .own else .glob) k l
      M.waitUntil .parked fun t => !(placed spad acc ps s).any fun (l, k) => l.behind t k
      let t ← get
      match pieceFault t (placed spad acc ps s) with
      | some (_, f) => M.trap { f with opnd := opnd }
      | none =>
        M.upd (noteLanes acc ((placed spad acc ps s).map (·.1)))
        pure (placed spad acc ps s)) := rfl

theorem checkPieces_stageFree (spad : Bool) (acc : Acc) (opnd : Nat) (ps : List (Nat × Nat)) : StageFree (checkPieces spad acc opnd ps) := by
  have hplaced (st : Stage) (s : State) : placed spad acc ps (setStage st s) = placed spad acc ps s := by simp only [placed, setStage_resolvePiece]
  rw [checkPieces_eq]
  refine .get_bind (fun s => .bind (suspendM_stageFree _) fun _ => .bind (.waitUntil fun st t => ?_) fun _ => .bind (.waitUntil fun st t => ?_) fun _ =>
    .bind (.waitUntil fun st t => ?_) fun _ => .get_bind (fun t => ?_) fun st t => ?_) fun st s => by rw [hplaced]
  · simp only [setStage_sbStall]
  · simp only [setStage_logStall]
  · simp only [setStage_behind]
  · split
    · exact .trap _
    · exact .bind (.upd fun st u => noteLanes_setStage st u acc _ placed_lane) fun _ => .pure _
  · rw [pieceFault_setStage]

theorem readPiece_stageFree (sc : Scope) (ca : Cache) (l : LaneAcc) (n : Nat) : StageFree (readPiece sc ca l n) := by
  refine ⟨fun {st s z u} h => ?_⟩
  have hreq : tileReq (setStage st s) = tileReq s := rfl
  have hmask : (setStage st s).cur.smask = s.cur.smask := rfl
  unfold readPiece at h ⊢
  rw [hreq, hmask, loadAt_setStage]
  generalize loadAt l.loc l.addr n sc ca s.cur.smask (tileReq s) s = r at h ⊢
  obtain ⟨g, t⟩ := r
  cases g with
  | val bs =>
    cases h
    rfl
  | parked => cases h
  | fault e => cases h

theorem readSpan_stageFree (spad : Bool) (sc : Scope) (ca : Cache) (opnd a n : Nat) : StageFree (readSpan spad sc ca opnd a n) :=
  .bind (checkPieces_stageFree ..) fun _ => .bind (.mapL (fun _ => readPiece_stageFree ..) _) fun _ => .pure _

theorem checkLive_stageFree (ls : List (LaneAcc × Nat)) : StageFree (checkLive ls) := by
  refine ⟨fun {st s z u} h => ?_⟩
  unfold checkLive at h ⊢
  simp only [setStage_touchesLive]
  split at h
  · cases h
  · next hn =>
    rw [hn]
    cases h
    rfl

theorem openSector_stageFree (sc : Scope) (ca : Cache) (l : LaneAcc) : StageFree (openSector sc ca l) := by
  refine ⟨fun {st s z u} h => ?_⟩
  unfold openSector at h ⊢
  split at h
  · next pa die hloc =>
    rw [setStage_poisoned]
    split at h
    · next hc =>
      rw [if_pos hc]
      cases h
      rfl
    · split at h <;> cases h
  · cases h
    rfl

theorem writePiece_stageFree (spad : Bool) (sc : Scope) (ca : Cache) (a : Nat) (bs : List Byte) : StageFree (writePiece spad sc ca a bs) := by
  refine ⟨fun {st s z u} h => ?_⟩
  have hid : (setStage st s).cur.pl.id = s.cur.pl.id := rfl
  have hpc : (setStage st s).cur.pc = s.cur.pc := rfl
  have hmask : (setStage st s).cur.smask = s.cur.smask := rfl
  unfold writePiece at h ⊢
  dsimp only at h ⊢
  rw [setStage_resolvePiece, hid, hpc, hmask, storeAt_setStage]
  generalize storeAt _ _ _ _ _ _ _ s = r at h ⊢
  obtain ⟨g, t⟩ := r
  cases g with
  | val bs =>
    cases h
    rfl
  | parked =>
    cases h
    rfl
  | fault e => cases h

theorem writeTile_stageFree (spad : Bool) (sc : Scope) (ca : Cache) (opnd a : Nat) (ws : List (Nat × List Byte)) (pl : Qword) :
    StageFree (writeTile spad sc ca opnd a ws pl) :=
  .bind (checkPieces_stageFree ..) fun _ => .bind (checkLive_stageFree _) fun _ => .bind (.each (fun _ => openSector_stageFree ..) _) fun _ =>
    .bind (.each (fun _ => writePiece_stageFree ..) _) fun _ => writePiece_stageFree ..

end Sys2Proof.Machine
end

section
/-! SUPPORT. What reads of memory tiles leave and answer (R63, R77, R154, R166), and a tile's turn (R134). -/

namespace Sys2Proof.Machine

/-! ## Computations that leave the issuing cohort -/

theorem of_bind_ok {α β : Type} {x : M α} {f : α → M β} {s u : State} {z : β} (h : (x >>= f) s = .ok (z, u)) :
    ∃ y t, x s = .ok (y, t) ∧ f y t = .ok (z, u) := by
  cases hxs : x s with
  | error e =>
    rw [bind_error hxs] at h
    cases h
  | ok r =>
    rw [bind_ok hxs] at h
    exact ⟨r.1, r.2, rfl, h⟩

theorem waitUntil_keeps {w : WaitOn} {c : State → Bool} {s t : State} {y : Unit} (h : M.waitUntil w c s = .ok (y, t)) : t = s := by
  unfold M.waitUntil at h
  split at h
  · cases h
    rfl
  · cases h

/-- Where it ends, a computation leaves the issuing cohort, and its answer has a property. -/
structure Gives {α : Type} (x : M α) (P : α → Prop) : Prop where
  run : ∀ {s y t}, x s = .ok (y, t) → t.cur = s.cur ∧ P y

namespace Gives
variable {α β : Type} {P : α → Prop} {Q : β → Prop}

theorem bind {x : M α} {f : α → M β} (hx : Gives x P) (hf : ∀ y, P y → Gives (f y) Q) : Gives (x >>= f) Q := by
  refine ⟨fun {s z u} h => ?_⟩
  obtain ⟨y, t, hxs, hfy⟩ := of_bind_ok h
  obtain ⟨hcur, hy⟩ := hx.run hxs
  obtain ⟨hcur', hz⟩ := (hf y hy).run hfy
  exact ⟨hcur'.trans hcur, hz⟩

theorem pure {y : α} (hy : P y) : Gives (Pure.pure y : M α) P := by
  refine ⟨fun h => ?_⟩
  cases h
  exact ⟨rfl, hy⟩

theorem get_bind {f : State → M β} (hf : ∀ s, Gives (f s) Q) : Gives (get >>= f) Q := by
  refine ⟨fun {s z u} h => ?_⟩
  rw [bind_ok (get_run s)] at h
  exact (hf s).run h

theorem upd {f : State → State} (hf : ∀ s, (f s).cur = s.cur) : Gives (M.upd f) fun _ => True := by
  refine ⟨fun h => ?_⟩
  cases h
  exact ⟨hf _, trivial⟩

theorem trap (t : Trap) : Gives (M.trap t) P := ⟨fun h => nomatch h⟩

theorem trapIf (c : Bool) (t : Trap) : Gives (M.trapIf c t) fun _ => c = false := by
  refine ⟨fun h => ?_⟩
  cases c with
  | true => cases h
  | false =>
    cases h
    exact ⟨rfl, rfl⟩

theorem mapL {f : α → M β} (hf : ∀ y, Gives (f y) Q) (l : List α) : Gives (M.mapL l f) fun r => r.length = l.length ∧ ∀ z ∈ r, Q z := by
  induction l with
  | nil => exact pure ⟨rfl, nofun⟩
  | cons x l ih =>
    refine (hf x).bind fun y hy => ih.bind fun ys hys => pure ⟨by simp [hys.1], ?_⟩
    simpa [hy] using hys.2

end Gives

/-! ## Reads -/

section Cur
variable (s : State)

/-- The issuing cohort and every tile are as they were. -/
structure KeepsTiles (s t : State) : Prop where
  cur : t.cur = s.cur
  tiles : t.tiles = s.tiles

theorem KeepsTiles.refl (s : State) : KeepsTiles s s := ⟨rfl, rfl⟩

theorem KeepsTiles.trans {s t u : State} (h : KeepsTiles s t) (k : KeepsTiles t u) : KeepsTiles s u := ⟨k.cur.trans h.cur, k.tiles.trans h.tiles⟩

theorem heatFor_keepsTiles (p : Nat) (acc : Acc) (a : Nat) : KeepsTiles s (heatFor p acc a s) := by
  unfold heatFor
  split
  · unfold raiseHeat
    dsimp only
    split
    · exact .refl s
    · exact ⟨rfl, rfl⟩
  · exact .refl s

theorem noteUse_keepsTiles (acc : Acc) (t : Tr) : KeepsTiles s (noteUse none acc t s) := by
  unfold noteUse
  dsimp only
  split
  · split
    · exact ⟨(heatFor_keepsTiles ..).cur, (heatFor_keepsTiles ..).tiles⟩
    · exact ⟨rfl, rfl⟩
  · exact ⟨(heatFor_keepsTiles ..).cur, (heatFor_keepsTiles ..).tiles⟩

theorem noteLanes_keepsTiles (acc : Acc) {ls : List LaneAcc} (h : ∀ l ∈ ls, l.lane = none) : KeepsTiles s (noteLanes acc ls s) := by
  unfold noteLanes
  dsimp only
  have hdrop : KeepsTiles s (if ls.any LaneAcc.proc then dropFilled s.cur.pl.core s else s) := by
    split
    · exact ⟨rfl, rfl⟩
    · exact .refl s
  refine hdrop.trans ?_
  generalize (if ls.any LaneAcc.proc then dropFilled s.cur.pl.core s else s) = t
  clear hdrop
  induction ls generalizing t with
  | nil => exact .refl t
  | cons l ls ih =>
    rw [List.foldl_cons]
    refine .trans ?_ (ih (fun x hx => h x (List.mem_cons_of_mem _ hx)) _)
    rw [h l List.mem_cons_self]
    split
    · exact noteUse_keepsTiles ..
    · exact .refl t

theorem putL1_cur (x : L1Line) : (s.putL1 x).cur = s.cur := (putL1_untouched x s).cur

theorem makeRoom_cur (core line : Nat) : (makeRoom core line s).cur = s.cur := by
  unfold makeRoom
  dsimp only
  split
  · rfl
  · split
    · exact (writeBack_untouched core _ s).cur
    · rfl

theorem allocL1_cur (core part line die hint : Nat) : (allocL1 core part line die hint s).cur = s.cur := by
  unfold allocL1
  split
  · split
    · rfl
    · exact putL1_cur ..
  · exact makeRoom_cur ..

theorem fillL1_cur (core part line die hint : Nat) : (fillL1 core part line die hint s).cur = s.cur := by
  unfold fillL1
  dsimp only
  split
  · exact allocL1_cur ..
  · exact (putL1_cur ..).trans (allocL1_cur ..)

/-- A load that gives a value leaves the cohort. -/
theorem loadAt_cur {loc : Loc} {va n : Nat} {sc : Scope} {ca : Cache} {mask : Mask} {req : Req} {bs : List Byte} {t : State}
    (h : loadAt loc va n sc ca mask req s = (.val bs, t)) : t.cur = s.cur := by
  unfold loadAt at h
  dsimp only at h
  split at h
  · split at h
    · split at h
      · cases h
        rfl
      · split at h
        · cases h
        · cases h
          exact fillL1_cur ..
    · split at h
      · cases h
      · cases h
        exact (writeBack_untouched ..).cur
  · split at h <;> cases h
    rfl
  · cases h
    rfl
  · split at h <;> cases h
    rfl
  · cases h

end Cur

/-- What a check of pieces leaves. -/
theorem checkPieces_keepsTiles {spad : Bool} {acc : Acc} {opnd : Nat} {ps : List (Nat × Nat)} {s t : State} {ls : List (LaneAcc × Nat)}
    (h : checkPieces spad acc opnd ps s = .ok (ls, t)) : KeepsTiles s t := by
  rw [checkPieces_eq, bind_ok (get_run s)] at h
  obtain ⟨_, t, ht, h⟩ := of_bind_ok h
  obtain rfl := suspendM_keeps ht
  obtain ⟨_, t, ht, h⟩ := of_bind_ok h
  obtain rfl := waitUntil_keeps ht
  obtain ⟨_, t, ht, h⟩ := of_bind_ok h
  obtain rfl := waitUntil_keeps ht
  obtain ⟨_, t, ht, h⟩ := of_bind_ok h
  obtain rfl := waitUntil_keeps ht
  rw [bind_ok (get_run t)] at h
  cases hf : pieceFault t (placed spad acc ps t) with
  | some e =>
    rw [hf] at h
    cases h
  | none =>
    rw [hf] at h
    cases h
    exact noteLanes_keepsTiles t acc placed_lane

theorem checkPieces_gives (spad : Bool) (acc : Acc) (opnd : Nat) (ps : List (Nat × Nat)) : Gives (checkPieces spad acc opnd ps) fun _ => True :=
  ⟨fun h => ⟨(checkPieces_keepsTiles h).cur, trivial⟩⟩

theorem readPiece_gives (sc : Scope) (ca : Cache) (l : LaneAcc) (n : Nat) : Gives (readPiece sc ca l n) fun _ => True := by
  refine ⟨fun {s z u} h => ?_⟩
  unfold readPiece at h
  split at h
  · next hl =>
    cases h
    exact ⟨loadAt_cur s hl, trivial⟩
  · cases h
  · cases h

theorem readSpan_gives (spad : Bool) (sc : Scope) (ca : Cache) (opnd a n : Nat) : Gives (readSpan spad sc ca opnd a n) fun _ => True :=
  (checkPieces_gives ..).bind fun _ _ => (Gives.mapL (fun _ => readPiece_gives ..) _).bind fun _ _ => .pure trivial

/-! ## The own scratchpad -/

/-- A body whose span must lie in the allocation where it is in the scratchpad (R154). -/
def inSpad {α : Type} (spad : Bool) (opnd off n : Nat) (k : M α) : M α := if spad then spSpan opnd off n >>= fun _ => k else k

section Spad
variable {α : Type} {spad : Bool} {opnd off n : Nat} {k : M α}

theorem spSpan_run {s : State} (h : fits s off n) : spSpan opnd off n s = .ok (s.cur.pl.spBase + off, s) := by
  unfold spSpan
  have hn : ¬ s.cur.pl.spSize < off + n := Nat.not_lt.mpr h
  rw [bind_ok (get_run s), bind_ok (trapIf_false _ s (decide_eq_false hn))]
  rfl

theorem inSpad_run {s : State} (h : spad = true → fits s off n) : inSpad spad opnd off n k s = k s := by
  unfold inSpad
  cases spad with
  | false => rfl
  | true => exact bind_ok (spSpan_run (h rfl))

theorem spSpan_stageFree : StageFree (spSpan opnd off n) := .get_bind (fun _ => .bind (.trapIf ..) fun _ => .pure _) fun _ _ => rfl

theorem inSpad_stageFree (hk : StageFree k) : StageFree (inSpad spad opnd off n k) := by
  cases spad with
  | false => exact hk
  | true => exact spSpan_stageFree.bind fun _ => hk

theorem inSpad_gives {P : α → Prop} (hk : Gives k P) : Gives (inSpad spad opnd off n k) P := by
  cases spad with
  | false => exact hk
  | true => exact (Gives.get_bind (Q := fun _ => True) fun _ => (Gives.trapIf ..).bind fun _ _ => .pure trivial).bind fun _ _ => hk

end Spad

/-! ## FX64 tiles in memory (R63, R166) -/

/-- The checks that end the read of one stored row. -/
def fxRowM (p : Plac) (rd : TileRd) (m : Nat) : M (List Int × TRow) :=
  match fxRow p rd m with
  | (_, none) => M.trap (placT 11 1)
  | (l, some r) => do
    M.trapIf (r.check != checkOf l) (checksumT 1)
    pure (l ++ List.replicate (64 - l.length) 0, r)

theorem fxSource_eq (spad : Bool) (o : Opd) : fxSource spad o = (do
    let s ← get
    let base ← tileBase 1 s o
    inSpad spad 1 base 16 do
      let pb ← readSpan spad .quad .dflt 1 base 16
      let p ← checkedPl (BitVec.ofNat 128 (leNat pb)) true false none 1
      M.trapIf (!p.isFX) (placT 8 1)
      M.trapIf (decide (32 < p.rows) || decide (64 < p.cols)) (placT 9 1)
      inSpad spad 1 base p.endOff do
        let es ← readSpan spad .quad .dflt 1 base p.elemEnd
        let rs ← readSpan spad .quad .dflt 1 ((base + p.scaleOff) % 2 ^ 64) p.scaleLen
        let rows ← M.mapL (List.range p.rows) (fxRowM p fun o n => if p.elemEnd ≤ o then rdOf rs (o - p.scaleOff) n else rdOf es o n)
        pure (p, rows)) := rfl

/-! ## A tile's turn (R134) -/

theorem src64_setStage (st : Stage) (s : State) (o : Opd) : src64 (setStage st s) none o = src64 s none o := by cases o <;> rfl
theorem srcPL_setStage (st : Stage) (s : State) (o : Opd) : srcPL (setStage st s) o = srcPL s o := by cases o <;> rfl

theorem setPart_withStage (st : Stage) (c : Cohort) (p : Option PcPart) : (c.withStage st).setPart p = (c.setPart p).withStage st := by
  unfold Cohort.setPart Cohort.withStage
  cases c.c.isB <;> rfl

/-- The end of an instruction forgets its stage. -/
theorem finished_setStage (h : Hdr) (st : Stage) (s : State) : finished h (setStage st s) = finished h s := by
  have hadv : advancePc (setStage st s) = setStage st (advancePc s) :=
    congrArg (fun c => { s with cur := c }) (setPart_withStage st s.cur (s.cur.part?.map (PcPart.advance s s.cur)))
  rw [finished, hadv]
  rfl

theorem setStage_setStage (st st' : Stage) (s : State) : setStage st (setStage st' s) = setStage st s := rfl
theorem getTile_setStage (st : Stage) (s : State) (z : Opd) : getTile (setStage st s) z = getTile s z := rfl

theorem ZClear.setStage {s : State} {z : Opd} (h : ZClear s z) (st : Stage) : ZClear (setStage st s) z := ⟨h.passes, h.faults⟩

/-- On a clear tile a Z instruction acts at once. -/
theorem zOrder_run {s : State} {z : Opd} (hz : ZClear s z) : zOrder z s = .ok ((), setStage .zwait s) := by
  obtain ⟨hp, hf⟩ := hz
  have hwait : (!(setStage .zwait s).passes.any fun p => p.quad == (setStage .zwait s).quad && p.tile == zTile (setStage .zwait s) z
      && (p.granted || p.cohort == (setStage .zwait s).cur.pl.id)) = true := by
    rw [Bool.not_eq_true', List.any_eq_false]
    intro p hps hc
    obtain ⟨⟨hq, ht⟩, hg⟩ := by simpa using hc
    obtain ⟨hg', hid⟩ := hp p hps hq ht
    rcases hg with hg | hg
    · exact absurd hg (by simp [hg'])
    · exact hid hg
  have hdel : deliverFault [zTile (setStage .zwait s) z] (setStage .zwait s) = .ok ((), setStage .zwait s) := by
    unfold deliverFault
    split
    · rfl
    · next hm =>
      have hnone : takeFault (setStage .zwait s) [zTile (setStage .zwait s) z] = none := by
        have hfind : (getTile (setStage .zwait s) z).faults.find? (fun f => f.cohort == s.cur.pl.id) = none :=
          List.find?_eq_none.mpr fun f hmem => by simpa using hf.resolve_left hm f hmem
        unfold takeFault
        dsimp only
        rw [show (setStage .zwait s).tile (setStage .zwait s).quad _ = getTile (setStage .zwait s) z from rfl]
        generalize getTile (setStage .zwait s) z = t at hfind
        rw [show (setStage .zwait s).cur.pl = s.cur.pl from rfl, hfind]
        rfl
      rw [hnone]
  unfold zOrder
  rw [bind_ok (upd_run _ s), bind_ok (waitUntil_run hwait), bind_ok (get_run _)]
  exact hdel

/-- The body of an instruction that acts on a tile, after its turn has come. -/
theorem runI_zOrder {s t : State} {mt : Meta} {h : Hdr} {z : Opd} {rest : M Unit} (hc : Calm s) (hu : Usable s mt)
    (hb : bodyRuns mt (activeMask h mt.uni s.cur) = true) (hz : ZClear s z) (hr : rest (setStage .zwait s) = .ok ((), setStage .zwait t)) :
    runI h mt false (fun _ => zOrder z >>= fun _ => rest) s = .next (finished h t) := by
  rw [runI_ok (own := false) hc hu hb ((bind_ok (zOrder_run hz)).trans hr)]
  exact congrArg Host.Outcome.next (finished_setStage ..)

/-! ## Bases (R77) -/

section Base
variable {opnd : Nat} {s u : State} {o : Opd}

theorem tileBase_run (hb : (src64 s none o).toNat % 16 = 0) : tileBase opnd s o u = .ok ((src64 s none o).toNat, u) := by
  unfold tileBase
  rw [bind_ok (trapIf_false _ u (by simpa using hb))]
  rfl

theorem tileBase_stageFree : StageFree (tileBase opnd s o) := .bind (.trapIf ..) fun _ => .pure _

theorem tileBase_gives : Gives (tileBase opnd s o) fun _ => True := (Gives.trapIf ..).bind fun _ _ => .pure trivial

theorem tileBase_setStage (st : Stage) : tileBase opnd (setStage st s) o = tileBase opnd s o := by
  unfold tileBase
  rw [src64_setStage]

end Base

theorem checkedPl_stageFree (q : Qword) (inp reg : Bool) (g : Option Nat) (opnd : Nat) : StageFree (checkedPl q inp reg g opnd) := by
  exact .bind (.trapIf ..) fun _ => .pure _

theorem checkedPl_gives (q : Qword) (inp reg : Bool) (g : Option Nat) (opnd : Nat) : Gives (checkedPl q inp reg g opnd) fun p => p = Plac.ofQ q :=
  (Gives.trapIf ..).bind fun _ _ => .pure rfl

end Sys2Proof.Machine
end

section
/-! SUPPORT. ZST, ZLD, ZADD, TLD, TST, CBLOAD and TCVT (R152, R165 to R167, R170 to R173). -/

namespace Sys2Proof.Machine

/-! ## Rows of an FX64 source (R166) -/

/-- A row of 64 cells. -/
def IsRow (l : List Int) : Prop := l.length = 64 ∧ ∀ x ∈ l, (BitVec.ofInt 64 x).toInt = x

/-- At most 32 rows of 64 cells. -/
def AreRows (rows : List (List Int × TRow)) : Prop := rows.length ≤ 32 ∧ ∀ e ∈ rows, IsRow e.1

theorem IsRow.map_toInt {l : List Int} (h : IsRow l) : l.map (fun x => (BitVec.ofInt 64 x).toInt) = l :=
  (List.map_congr_left h.2).trans (List.map_id l)

section FxRows
variable {p : Plac} {rd : TileRd} {m : Nat}

theorem fxRow_pad (hp : p.cols ≤ 64) : IsRow ((fxRow p rd m).1 ++ List.replicate (64 - (fxRow p rd m).1.length) 0) := by
  have hlen : (fxRow p rd m).1.length = p.cols := by simp [fxRow]
  refine ⟨by rw [List.length_append, List.length_replicate, hlen]; omega, fun x hx => ?_⟩
  rcases List.mem_append.mp hx with hx | hx
  · obtain ⟨n, -, rfl⟩ := List.mem_map.mp hx
    rw [sextInt_eq, BitVec.ofInt_toInt]
  · rw [(List.mem_replicate.mp hx).2]
    rfl

theorem fxRowM_gives (hp : p.cols ≤ 64) : Gives (fxRowM p rd m) fun e => IsRow e.1 := by
  have hpad := fxRow_pad (rd := rd) (m := m) hp
  unfold fxRowM
  split
  · exact .trap _
  · next l r hl =>
    rw [hl] at hpad
    exact (Gives.trapIf ..).bind fun _ _ => .pure hpad

theorem fxRowM_stageFree : StageFree (fxRowM p rd m) := by
  unfold fxRowM
  split
  · exact .trap _
  · exact .bind (.trapIf ..) fun _ => .pure _

end FxRows

theorem fxSource_stageFree (spad : Bool) (o : Opd) : StageFree (fxSource spad o) := by
  rw [fxSource_eq]
  refine .get_bind (fun s => .bind tileBase_stageFree fun base => inSpad_stageFree (.bind (readSpan_stageFree ..) fun pb =>
    .bind (checkedPl_stageFree ..) fun p => .bind (.trapIf ..) fun _ => .bind (.trapIf ..) fun _ => inSpad_stageFree (.bind (readSpan_stageFree ..) fun es =>
    .bind (readSpan_stageFree ..) fun rs => .bind (.mapL (fun _ => fxRowM_stageFree) _) fun _ => .pure _))) fun st s => by rw [tileBase_setStage]

theorem fxSource_gives (spad : Bool) (o : Opd) : Gives (fxSource spad o) fun e => AreRows e.2 := by
  rw [fxSource_eq]
  refine .get_bind fun s => tileBase_gives.bind fun base _ => inSpad_gives ((readSpan_gives ..).bind fun pb _ => (checkedPl_gives ..).bind fun p _ =>
    (Gives.trapIf ..).bind fun _ _ => (Gives.trapIf ..).bind fun _ hext =>
    inSpad_gives ((readSpan_gives ..).bind fun es _ => (readSpan_gives ..).bind fun rs _ => ?_))
  obtain ⟨hrows, hcols⟩ : p.rows ≤ 32 ∧ p.cols ≤ 64 := by simpa using hext
  exact (Gives.mapL (fun _ => fxRowM_gives hcols) _).bind fun rows h => .pure ⟨by simpa [h.1] using hrows, h.2⟩

/-! ## Rows put into a tile one after the other -/

/-- A step that replaces one row, by what the row held. -/
structure RowLocal {α : Type} (key : α → Nat) (f : Tile → α → Tile) : Prop where
  row : ∀ t e k, k ≠ key e → (f t e).row k = t.row k
  cells : ∀ t e k, k ≠ key e → (f t e).cellsOf k = t.cellsOf k
  poison : ∀ t e, (f t e).poison = t.poison
  faults : ∀ t e, (f t e).faults = t.faults

namespace RowLocal
variable {α : Type} {key : α → Nat} {f : Tile → α → Tile} (hf : RowLocal key f) (l : List α) (t : Tile)
include hf

theorem foldl_poison : (l.foldl f t).poison = t.poison := by
  induction l generalizing t with
  | nil => rfl
  | cons e l ih => rw [List.foldl_cons, ih, hf.poison]

theorem foldl_faults : (l.foldl f t).faults = t.faults := by
  induction l generalizing t with
  | nil => rfl
  | cons e l ih => rw [List.foldl_cons, ih, hf.faults]

variable {l} in
theorem foldl_other {k : Nat} (hk : ∀ e ∈ l, key e ≠ k) : (l.foldl f t).row k = t.row k ∧ (l.foldl f t).cellsOf k = t.cellsOf k := by
  induction l generalizing t with
  | nil => exact ⟨rfl, rfl⟩
  | cons e l ih =>
    obtain ⟨hrow, hcells⟩ := ih (f t e) fun x hx => hk x (List.mem_cons_of_mem _ hx)
    have hek := (hk e List.mem_cons_self).symm
    exact ⟨hrow.trans (hf.row t e k hek), hcells.trans (hf.cells t e k hek)⟩

variable {l} in
/-- Where each row is replaced once, by what the tile held in it. -/
theorem foldl_mem (hl : (l.map key).Nodup) {e : α} (he : e ∈ l) : ∃ u : Tile, u.row (key e) = t.row (key e) ∧ u.cellsOf (key e) = t.cellsOf (key e)
    ∧ (l.foldl f t).row (key e) = (f u e).row (key e) ∧ (l.foldl f t).cellsOf (key e) = (f u e).cellsOf (key e) := by
  induction l generalizing t with
  | nil => cases he
  | cons x l ih =>
    rw [List.map_cons, List.nodup_cons] at hl
    obtain ⟨hx, hl⟩ := hl
    rcases List.mem_cons.mp he with rfl | he
    · exact ⟨t, rfl, rfl, hf.foldl_other (f t e) fun y hy hye => hx (List.mem_map.mpr ⟨y, hy, hye⟩)⟩
    · have hne : key e ≠ key x := fun hex => hx (List.mem_map.mpr ⟨e, he, hex⟩)
      obtain ⟨u, hrow, hcells, h⟩ := ih (f t x) hl he
      exact ⟨u, hrow.trans (hf.row t x _ hne), hcells.trans (hf.cells t x _ hne), h⟩

end RowLocal

theorem setRow_rowLocal : RowLocal (fun e : Nat × List Int × TRow => e.1) fun t e => t.setRow e.1 e.2.1 e.2.2 where
  row t e _ hk := setRow_row_other t e.2.2 hk
  cells t e _ hk := cellsOf_setRow_other t e.2.2 hk
  poison _ _ := rfl
  faults _ _ := rfl

theorem nodup_zip_range {α : Type} (l : List α) : (((List.range l.length).zip l).map Prod.fst).Nodup := by
  rw [List.map_fst_zip (by simp)]
  exact List.nodup_range

theorem mem_zip_range {α : Type} {l : List α} {k : Nat} {x : α} (h : l[k]? = some x) : (k, x) ∈ (List.range l.length).zip l := by
  obtain ⟨hk, rfl⟩ := List.getElem?_eq_some_iff.mp h
  exact List.mem_iff_getElem.mpr ⟨k, by simpa using hk, by simp⟩

theorem getElem?_of_mem_zip_range {α : Type} {l : List α} {e : Nat × α} (h : e ∈ (List.range l.length).zip l) : l[e.1]? = some e.2 := by
  obtain ⟨k, hk, rfl⟩ := List.mem_iff_getElem.mp h
  simp

theorem zip_range_lt {α : Type} {l : List α} {e : Nat × α} (h : e ∈ (List.range l.length).zip l) : e.1 < l.length :=
  List.mem_range.mp (List.of_mem_zip h).1

/-! ## ZLD (R166) -/

/-- The tile that ZLD gives: the rows read, the others clear. -/
def zldTile (rows : List (List Int × TRow)) (s : State) (d : Opd) : Tile :=
  ((List.range rows.length).zip rows).foldl (fun t e => t.setRow e.1 e.2.1 e.2.2) { Tile.zero with faults := (getTile s d).faults }

section Zld
variable {rows : List (List Int × TRow)} (s : State) (d : Opd)

theorem zldTile_row {k : Nat} {l : List Int} {r : TRow} (hrows : AreRows rows) (h : rows[k]? = some (l, r)) :
    (zldTile rows s d).cellsOf k = l ∧ (zldTile rows s d).row k = { r with check := checkOf l } := by
  have hl : IsRow l := hrows.2 (l, r) (List.mem_of_getElem? h)
  obtain ⟨u, -, -, hrow, hcells⟩ := setRow_rowLocal.foldl_mem { Tile.zero with faults := (getTile s d).faults } (nodup_zip_range rows) (mem_zip_range h)
  refine ⟨hcells.trans ?_, hrow.trans (setRow_row_same u r)⟩
  exact (cellsOf_setRow_same u r hl.1).trans hl.map_toInt

theorem zldTile_clear {k : Nat} (h : rows.length ≤ k) : (zldTile rows s d).row k = TRow.zero ∧ (zldTile rows s d).cellsOf k = List.replicate 64 0 := by
  refine setRow_rowLocal.foldl_other _ fun e he hek => ?_
  have hlt := zip_range_lt he
  omega

end Zld

theorem putTile_closeIdem {s : State} (hi : s.cur.c.idem = none) (z : Opd) (t : Tile) : (putTile z t s).updCur Cohort.closeIdem = putTile z t s :=
  closeIdem_none (s := putTile z t s) hi

theorem execZld_run {h : Hdr} {spad : Bool} {d a : Opd} {s s1 : State} {p : Plac} {rows : List (List Int × TRow)} (hc : Calm s)
    (hon : activeMask h true s.cur ≠ 0#32) (hu : Usable s { uni := true, srcs := [(a, 2)], dsts := [(d, 1)] }) (hz : ZClear s d)
    (hsrc : fxSource spad a s = .ok ((p, rows), s1)) :
    exec (.zld h spad d a) s = .next (finished h (putTile d (zldTile rows s1 d) s1)) := by
  have hcur := ((fxSource_gives spad a).run hsrc).1
  have hput : (M.upd fun t => (putTile d (zldTile rows t d) t).updCur Cohort.closeIdem) (setStage .zwait s1)
      = .ok ((), setStage .zwait (putTile d (zldTile rows s1 d) s1)) := by
    rw [upd_run, putTile_closeIdem (by rw [← hc.idem, ← hcur]; rfl)]
    rfl
  exact runI_zOrder hc hu (by simp [bodyRuns, hon]) hz ((bind_ok ((fxSource_stageFree spad a).run hsrc)).trans hput)

/-! ## ZADD (R167) -/

theorem exceptAll_ok {α : Type} {l : List (Except Nat α)} (h : ∀ x ∈ l, ∃ y, x = .ok y) : ∃ ys, exceptAll l = .ok ys ∧ l = ys.map .ok := by
  induction l with
  | nil => exact ⟨[], rfl, rfl⟩
  | cons x l ih =>
    obtain ⟨y, rfl⟩ := h x List.mem_cons_self
    obtain ⟨ys, hys, rfl⟩ := ih fun x hx => h x (List.mem_cons_of_mem _ hx)
    exact ⟨y :: ys, by simp [exceptAll, hys], rfl⟩

/-- The rows of a sum with their anchors, added to a tile. -/
def zaddTile (rows : List (List Int × TRow)) (as : List (Int × Bool)) (t : Tile) : Tile :=
  (((List.range rows.length).zip rows).zip as).foldl (fun t e => addRow t e.1.1 e.2 e.1.2.1 e.1.2.2) t

/-- The anchors of the rows of a sum. -/
def sumAnchors (rows : List (List Int × TRow)) (t : Tile) : List (Except Nat (Int × Bool)) :=
  ((List.range rows.length).zip rows).map fun e => sumAnchor (t.row e.1) e.2.2

/-- The end of ZADD: the target's rows are verified, then the rows join them. -/
def zaddEnd (d : Opd) (rows : List (List Int × TRow)) : M Unit := do
  verifyUnlessPoison d (List.range rows.length) 4
  let s ← get
  match exceptAll (sumAnchors rows (getTile s d)) with
  | .error e => M.trap (placT e 0)
  | .ok as => M.upd fun u => (putTile d (zaddTile rows as (getTile s d)) u).updCur Cohort.closeIdem

theorem verifyUnlessPoison_run {z : Opd} {rows : List Nat} {opnd : Nat} {s : State} (h : Verified (getTile s z) rows) :
    verifyUnlessPoison z rows opnd s = .ok ((), s) := by
  unfold verifyUnlessPoison
  rw [bind_ok (get_run s)]
  split
  · rfl
  · next hp => exact if_pos (h.resolve_left hp)

theorem verifyRows_stageFree (z : Opd) (rows : List Nat) (opnd : Nat) : StageFree (verifyRows z rows opnd) := by
  refine ⟨fun {st s y t} h => ?_⟩
  unfold verifyRows at h ⊢
  dsimp only at h ⊢
  rw [getTile_setStage]
  split at h
  · next hok =>
    rw [if_pos hok]
    cases h
    rfl
  · cases h

theorem verifyUnlessPoison_stageFree (z : Opd) (rows : List Nat) (opnd : Nat) : StageFree (verifyUnlessPoison z rows opnd) := by
  refine .get_bind (fun s => ?_) fun st s => rfl
  split
  · exact .pure _
  · exact verifyRows_stageFree ..

theorem addRow_rowLocal : RowLocal (fun e : (Nat × List Int × TRow) × (Int × Bool) => e.1.1) fun t e => addRow t e.1.1 e.2 e.1.2.1 e.1.2.2 where
  row t _ _ hk := setRow_row_other t _ hk
  cells t _ _ hk := cellsOf_setRow_other t _ hk
  poison _ _ := rfl
  faults _ _ := rfl

/-- What a row of a sum is, by what the tile held in it. -/
structure SumRow (t u : Tile) (k : Nat) (a : Int × Bool) (l : List Int) (r : TRow) : Prop where
  ok : u.rowOk k = true
  anchor : (u.row k).anchor = BitVec.ofInt 9 a.1
  pinned : (u.row k).pinned = a.2
  nan : (u.row k).nan = ((t.row k).nan || r.nan)
  pinf : (u.row k).pinf = ((t.row k).pinf || r.pinf)
  ninf : (u.row k).ninf = ((t.row k).ninf || r.ninf)
  cells : ∀ n, n < 64 → u.cells.get (64 * k + n) 0#64 =
    BitVec.ofInt 64 (shiftInt (nth (t.cellsOf k) n 0) ((t.row k).anchor.toInt - a.1) + shiftInt (nth l n 0) (r.anchor.toInt - a.1))

theorem get_cells (t : Tile) (k : Nat) {n : Nat} (hn : n < 64) : t.cells.get (64 * k + n) 0#64 = BitVec.ofInt 64 (nth (t.cellsOf k) n 0) := by
  rw [nth_cellsOf t k hn, BitVec.ofInt_toInt]

theorem addRow_sumRow (t : Tile) (k : Nat) (a : Int × Bool) {l : List Int} (r : TRow) (hl : l.length = 64) : SumRow t (addRow t k a l r) k a l r := by
  have hlen := length_cellsOf t k
  unfold addRow bring
  dsimp only
  refine ⟨rowOk_setRow t _ (by simp [hlen, hl]), ?_, ?_, ?_, ?_, ?_, fun n hn => ?_⟩
  case refine_6 =>
    refine (get_putCells_same (by simp [hlen, hl]) (by simpa [hlen, hl] using hn)).trans ?_
    simp [nth, hlen, hl, hn]
  all_goals rw [setRow_row_same]

/-- A row of a sum depends on no other row. -/
theorem SumRow.congr {t t' u u' : Tile} {k : Nat} {a : Int × Bool} {l : List Int} {r : TRow} (h : SumRow t u k a l r) (htr : t.row k = t'.row k)
    (htc : t.cellsOf k = t'.cellsOf k) (hur : u'.row k = u.row k) (huc : u'.cellsOf k = u.cellsOf k) : SumRow t' u' k a l r := by
  obtain ⟨hok, hanchor, hpinned, hnan, hpinf, hninf, hcells⟩ := h
  rw [htr] at hnan hpinf hninf
  rw [← hur] at hanchor hpinned hnan hpinf hninf
  refine ⟨?_, hanchor, hpinned, hnan, hpinf, hninf, fun n hn => ?_⟩
  · rw [rowOk_iff] at hok ⊢
    rw [hur, huc, hok]
  · rw [get_cells u' k hn, huc, ← get_cells u k hn, hcells n hn, htr, htc]

section Zadd
variable {rows : List (List Int × TRow)} {t : Tile}

theorem zaddTile_row {as : List (Int × Bool)} {k : Nat} {l : List Int} {r : TRow} {x : Int × Bool} (has : sumAnchors rows t = as.map .ok)
    (hk : rows[k]? = some (l, r)) (hx : sumAnchor (t.row k) r = .ok x) (hl : l.length = 64) : SumRow t (zaddTile rows as t) k x l r := by
  have hget : ((List.range rows.length).zip rows)[k]? = some (k, l, r) := by
    obtain ⟨hlt, hkr⟩ := List.getElem?_eq_some_iff.mp hk
    simp [hlt, hkr]
  have hask : as[k]? = some x := by
    have h := congrArg (·[k]?) has
    simp only [sumAnchors, List.getElem?_map, hget, Option.map_some, hx] at h
    cases hak : as[k]? with
    | none =>
      rw [hak] at h
      cases h
    | some y =>
      rw [hak] at h
      cases h
      rfl
  have hmem : ((k, l, r), x) ∈ ((List.range rows.length).zip rows).zip as :=
    List.mem_of_getElem? (i := k) (List.getElem?_zip_eq_some.mpr ⟨hget, hask⟩)
  have hnodup : ((((List.range rows.length).zip rows).zip as).map fun e => e.1.1).Nodup := by
    have hlen := congrArg List.length has
    rw [sumAnchors, List.length_map, List.length_map] at hlen
    have hfst : (((List.range rows.length).zip rows).zip as).map (fun e => e.1.1) = ((List.range rows.length).zip rows).map Prod.fst := by
      rw [← List.map_fst_zip hlen.le, List.map_map, List.map_fst_zip hlen.le]
      rfl
    exact hfst ▸ nodup_zip_range rows
  obtain ⟨u, hrow, hcells, hrow', hcells'⟩ := addRow_rowLocal.foldl_mem t hnodup hmem
  exact (addRow_sumRow u k x r hl).congr hrow hcells hrow' hcells'

theorem zaddTile_other {as : List (Int × Bool)} {k : Nat} (hk : rows.length ≤ k) :
    (zaddTile rows as t).row k = t.row k ∧ (zaddTile rows as t).cellsOf k = t.cellsOf k := by
  refine addRow_rowLocal.foldl_other t fun e he hek => ?_
  have hlt := zip_range_lt (List.of_mem_zip he).1
  omega

theorem zaddEnd_run {d : Opd} {s : State} (hi : s.cur.c.idem = none) (hv : Verified (getTile s d) (List.range rows.length))
    (ha : ∀ k l r, rows[k]? = some (l, r) → ∃ x, sumAnchor ((getTile s d).row k) r = .ok x) :
    ∃ as, sumAnchors rows (getTile s d) = as.map .ok ∧ zaddEnd d rows s = .ok ((), putTile d (zaddTile rows as (getTile s d)) s) := by
  have hall : ∀ x ∈ sumAnchors rows (getTile s d), ∃ y, x = .ok y := by
    intro x hx
    obtain ⟨⟨k, l, r⟩, he, rfl⟩ := List.mem_map.mp hx
    exact ha k l r (getElem?_of_mem_zip_range he)
  obtain ⟨as, has, hmap⟩ := exceptAll_ok hall
  refine ⟨as, hmap, ?_⟩
  unfold zaddEnd
  rw [bind_ok (verifyUnlessPoison_run hv), bind_ok (get_run s), has]
  exact congrArg (fun x => Except.ok ((), x)) (putTile_closeIdem hi d _)

theorem zaddEnd_stageFree (d : Opd) : StageFree (zaddEnd d rows) := by
  refine .bind (verifyUnlessPoison_stageFree ..) fun _ => .get_bind (fun s => ?_) fun st s => rfl
  split
  · exact .trap _
  · exact .upd fun _ _ => rfl

end Zadd

section Exec
variable {h : Hdr} {spad : Bool} {d a : Opd} {s s1 : State} {rows : List (List Int × TRow)} (hc : Calm s) (hon : activeMask h true s.cur ≠ 0#32)
  (hz : ZClear s d) (hv : Verified (getTile s1 d) (List.range rows.length))
  (ha : ∀ k l r, rows[k]? = some (l, r) → ∃ x, sumAnchor ((getTile s1 d).row k) r = .ok x)
include hc hon hz hv ha

/-- ZADD of a tile in memory. -/
theorem execZadd_memory {p : Plac} (hcls : (a.cls == .z) = false) (hu : Usable s { uni := true, srcs := [(a, 2)], dsts := [(d, 1)] })
    (hsrc : fxSource spad a s = .ok ((p, rows), s1)) :
    ∃ as, sumAnchors rows (getTile s1 d) = as.map .ok
      ∧ exec (.zadd h spad d a) s = .next (finished h (putTile d (zaddTile rows as (getTile s1 d)) s1)) := by
  have hcur := ((fxSource_gives spad a).run hsrc).1
  obtain ⟨as, has, hend⟩ := zaddEnd_run (hcur ▸ hc.idem) hv ha
  refine ⟨as, has, ?_⟩
  have hexec : exec (.zadd h spad d a) s =
      runI h { uni := true, srcs := [(a, 2)], dsts := [(d, 1)] } false (fun _ => zOrder d >>= fun _ => fxSource spad a >>= fun e => zaddEnd d e.2) s := by
    change execZadd h spad d a s = _
    unfold execZadd
    rw [hcls]
    simp only [Bool.false_eq_true, if_false, pure_bind]
    rfl
  rw [hexec]
  exact runI_zOrder hc hu (by simp [bodyRuns, hon]) hz ((bind_ok ((fxSource_stageFree spad a).run hsrc)).trans (zaddEnd_stageFree d |>.run hend))

/-- The rows of a tile as a source. -/
def tileRows (t : Tile) : List (List Int × TRow) := (List.range 32).map fun k => (t.cellsOf k, t.row k)

/-- The read of a source tile. -/
def tileSource (a : Opd) : M (List (List Int × TRow)) := do
  zOrder a
  let s ← get
  M.trapIf (getTile s a).poison (placT 3 1)
  verifyRows a allRows 1
  pure (tileRows (getTile s a))

/-- ZADD of another tile. -/
theorem execZadd_tile (hcls : (a.cls == .z) = true) (hu : Usable s { uni := true, srcs := [(a, 1)], dsts := [(d, 1)] }) (hza : ZClear s a)
    (hp : (getTile s a).poison = false) (hva : Verified (getTile s a) (List.range 32)) (hs1 : s1 = s) (hrows : rows = tileRows (getTile s a)) :
    ∃ as, sumAnchors rows (getTile s1 d) = as.map .ok
      ∧ exec (.zadd h spad d a) s = .next (finished h (putTile d (zaddTile rows as (getTile s1 d)) s1)) := by
  subst hs1
  obtain ⟨as, has, hend⟩ := zaddEnd_run hc.idem hv ha
  refine ⟨as, has, ?_⟩
  have hexec : exec (.zadd h spad d a) s1 =
      runI h { uni := true, srcs := [(a, 1)], dsts := [(d, 1)] } false (fun _ => zOrder d >>= fun _ => tileSource a >>= fun e => zaddEnd d e) s1 := by
    change execZadd h spad d a s1 = _
    unfold execZadd
    rw [hcls]
    simp only [if_true, pure_bind, tileSource, bind_assoc]
    rfl
  have hsrc : tileSource a (setStage .zwait s1) = .ok (rows, setStage .zwait s1) := by
    have hok : verifyRows a allRows 1 (setStage .zwait s1) = .ok ((), setStage .zwait s1) := if_pos (hva.resolve_left (by simp [hp]))
    unfold tileSource
    rw [bind_ok (zOrder_run (hza.setStage .zwait)), setStage_setStage, bind_ok (get_run _), getTile_setStage, bind_ok (trapIf_false _ _ hp), bind_ok hok, hrows]
    rfl
  rw [hexec]
  exact runI_zOrder hc hu (by simp [bodyRuns, hon]) hz ((bind_ok hsrc).trans (zaddEnd_stageFree d |>.run hend))

end Exec

/-! ## The clauses of ZLD and ZADD -/

theorem zld_clause {h : Hdr} {d a : Opd} {s : State} (hc : Calm s) (hon : activeMask h true s.cur ≠ 0#32) (spad : Bool) (p : Plac)
    (rows : List (List Int × TRow)) (s1 : State) (hu : Usable s { uni := true, srcs := [(a, 2)], dsts := [(d, 1)] }) (hz : ZClear s d)
    (hsrc : fxSource spad a s = .ok ((p, rows), s1)) :
    ∃ u : Tile, exec (.zld h spad d a) s = .next (finished h (putTile d u s1)) ∧ u.poison = false ∧ u.faults = (getTile s1 d).faults
      ∧ ∀ k, (∀ l r, rows[k]? = some (l, r) → u.cellsOf k = l ∧ u.row k = { r with check := checkOf l })
        ∧ (rows.length ≤ k → u.row k = TRow.zero ∧ u.cellsOf k = List.replicate 64 0) :=
  ⟨zldTile rows s1 d, execZld_run hc hon hu hz hsrc, setRow_rowLocal.foldl_poison _ _, setRow_rowLocal.foldl_faults _ _, fun _ =>
    ⟨fun _ _ => zldTile_row s1 d ((fxSource_gives spad a).run hsrc).2, zldTile_clear s1 d⟩⟩

theorem zadd_clause {h : Hdr} {d a : Opd} {s : State} (hc : Calm s) (hon : activeMask h true s.cur ≠ 0#32) (spad : Bool)
    (rows : List (List Int × TRow)) (s1 : State) (hu : Usable s { uni := true, srcs := [(a, if a.cls == .z then 1 else 2)], dsts := [(d, 1)] })
    (hz : ZClear s d)
    (hsrc : if a.cls == .z then ZClear s a ∧ (getTile s a).poison = false ∧ Verified (getTile s a) (List.range 32) ∧ s1 = s
        ∧ rows = (List.range 32).map fun k => ((getTile s a).cellsOf k, (getTile s a).row k)
      else ∃ p, fxSource spad a s = .ok ((p, rows), s1)) :
    let t := getTile s1 d
    Verified t (List.range rows.length) → (∀ k l r, rows[k]? = some (l, r) → ∃ x, sumAnchor (t.row k) r = .ok x) →
    ∃ u : Tile, exec (.zadd h spad d a) s = .next (finished h (putTile d u s1)) ∧ u.poison = t.poison
      ∧ (∀ k, rows.length ≤ k → u.row k = t.row k ∧ u.cellsOf k = t.cellsOf k)
      ∧ ∀ k l r x, k < 32 → rows[k]? = some (l, r) → sumAnchor (t.row k) r = .ok x → l.length = 64 →
        u.rowOk k = true ∧ (u.row k).anchor = BitVec.ofInt 9 x.1 ∧ (u.row k).pinned = x.2
        ∧ (u.row k).nan = ((t.row k).nan || r.nan) ∧ (u.row k).pinf = ((t.row k).pinf || r.pinf)
        ∧ (u.row k).ninf = ((t.row k).ninf || r.ninf)
        ∧ ∀ n, n < 64 → u.cells.get (64 * k + n) 0#64 =
            BitVec.ofInt 64 (⌊((nth (t.cellsOf k) n 0 : Int) : ℚ) * (2 : ℚ) ^ ((t.row k).anchor.toInt - x.1)⌋
              + ⌊((nth l n 0 : Int) : ℚ) * (2 : ℚ) ^ (r.anchor.toInt - x.1)⌋) := by
  intro t hv ha
  have hrun : ∃ as, sumAnchors rows t = as.map .ok ∧ exec (.zadd h spad d a) s = .next (finished h (putTile d (zaddTile rows as t) s1)) := by
    cases hcls : a.cls == .z with
    | true =>
      rw [hcls] at hu hsrc
      obtain ⟨hza, hp, hva, hs1, hrows⟩ := hsrc
      exact execZadd_tile hc hon hz hv ha hcls hu hza hp hva hs1 hrows
    | false =>
      rw [hcls] at hu hsrc
      obtain ⟨p, hsrc⟩ := hsrc
      exact execZadd_memory hc hon hz hv ha hcls hu hsrc
  obtain ⟨as, has, hexec⟩ := hrun
  refine ⟨zaddTile rows as t, hexec, addRow_rowLocal.foldl_poison _ _, fun k => zaddTile_other, fun k l r x _ hk hx hl => ?_⟩
  obtain ⟨hok, hanchor, hpinned, hnan, hpinf, hninf, hcells⟩ := zaddTile_row has hk hx hl
  simp only [shiftInt_floor] at hcells
  exact ⟨hok, hanchor, hpinned, hnan, hpinf, hninf, hcells⟩

/-! ## ZST (R165) -/

/-- The body of ZST on a tile whose turn has come. -/
def zstBody (spad sat : Bool) (a b c : Opd) : M Unit := do
  let s ← get
  let base ← tileBase 2 s b
  inSpad spad 2 base 16 do
    let p ← checkedPl (srcPL s c) false false none 4
    M.trapIf (!(1 :: 14 :: zFormats).contains p.efmt || (!p.isFX && p.slay != 0) || p.spar != 0) (placT 8 4)
    M.trapIf (decide (32 < p.rows) || decide (64 < p.cols)) (placT 9 4)
    inSpad spad 2 base p.endOff do
      let _ ← checkPieces spad .store 2 ((base, 16) :: (zstWrites p sat (getTile s a)).map fun (o, x) => ((base + o) % 2 ^ 64, x.length))
      verifyUnlessPoison a (List.range p.rows) 1
      writeTile spad .quad .dflt 2 base (zstWrites p sat (getTile s a)) ({ p with poisoned := (getTile s a).poison }).toQ
      emitR [] (joinFlags ((zstRows p sat (getTile s a)).flatMap fun (_, l) => l.map Prod.snd)) (some 0)

theorem execZst_eq (h : Hdr) (spad sat : Bool) (a b c : Opd) :
    execZst h spad sat a b c = runI h { uni := true, srcs := [(a, 1), (b, 2)] } false fun _ => zOrder a >>= fun _ => zstBody spad sat a b c := rfl

theorem emitR_stageFree (ws : List Wr) (fl : Flags) (lat : Option Nat) : StageFree (emitR ws fl lat) := .upd fun _ _ => rfl

theorem emitR_run (ws : List Wr) (fl : Flags) (lat : Option Nat) (s : State) : emitR ws fl lat s = .ok ((), addPend ws fl lat s) := rfl

theorem zstBody_stageFree (spad sat : Bool) (a b c : Opd) : StageFree (zstBody spad sat a b c) := by
  refine .get_bind (fun s => .bind tileBase_stageFree fun base => inSpad_stageFree (.bind (checkedPl_stageFree ..) fun p => .bind (.trapIf ..) fun _ =>
    .bind (.trapIf ..) fun _ => inSpad_stageFree (.bind (checkPieces_stageFree ..) fun _ => .bind (verifyUnlessPoison_stageFree ..) fun _ =>
    .bind (writeTile_stageFree ..) fun _ => emitR_stageFree ..))) fun st s => ?_
  rw [tileBase_setStage, srcPL_setStage, getTile_setStage]

theorem contains_zstFormats : ∀ n ∈ [1, 2, 3, 4, 5, 6, 7, 8, 9, 10, 11, 12, 14], (1 :: 14 :: zFormats).contains n = true := by decide

theorem zst_clause {h : Hdr} {a b c : Opd} {s : State} (hc : Calm s) (hon : activeMask h true s.cur ≠ 0#32) (spad sat : Bool) (s1 s2 : State)
    (ls : List (LaneAcc × Nat)) (hu : Usable s { uni := true, srcs := [(a, 1), (b, 2)] }) (hz : ZClear s a) :
    let base := (src64 s none b).toNat
    let q := srcPL s c
    let p := Plac.ofQ q
    let t := getTile s a
    let ws := zstWrites p sat t
    base % 16 = 0 → (spad = true → fits s base 16 ∧ fits s base p.endOff) → plCheck q false false = 0 →
    p.efmt ∈ [1, 2, 3, 4, 5, 6, 7, 8, 9, 10, 11, 12, 14] → (p.isFX = true ∨ p.slay = 0) → p.spar = 0 → p.rows ≤ 32 → p.cols ≤ 64 →
    checkPieces spad .store 2 ((base, 16) :: ws.map fun (o, x) => ((base + o) % 2 ^ 64, x.length)) s = .ok (ls, s1) →
    Verified t (List.range p.rows) →
    writeTile spad .quad .dflt 2 base ws ({ p with poisoned := t.poison }).toQ s1 = .ok ((), s2) →
    exec (.zst h spad sat a b c) s =
      .next (finished h (addPend [] (joinFlags ((zstRows p sat t).flatMap fun (_, l) => l.map Prod.snd)) (some 0) s2)) := by
  intro base q p t ws hbase hfits hpl hefmt hslay hspar hrows hcols hpieces hver hwrite
  have hform : (!(1 :: 14 :: zFormats).contains p.efmt || (!p.isFX && p.slay != 0) || p.spar != 0) = false := by
    have hin : (1 :: 14 :: zFormats).contains p.efmt = true := contains_zstFormats p.efmt hefmt
    rw [hin, hspar]
    rcases hslay with h | h <;> simp [h]
  have hext : (decide (32 < p.rows) || decide (64 < p.cols)) = false := by simp [hrows, hcols]
  have hkeep := checkPieces_keepsTiles hpieces
  have htile : getTile s1 a = t := by
    rw [getTile, State.tile, State.quad, zTile, hkeep.cur, hkeep.tiles]
    rfl
  have hbody : zstBody spad sat a b c s =
      .ok ((), addPend [] (joinFlags ((zstRows p sat t).flatMap fun (_, l) => l.map Prod.snd)) (some 0) s2) := by
    unfold zstBody
    rw [bind_ok (get_run s), bind_ok (tileBase_run hbase), inSpad_run fun h => (hfits h).1, bind_ok (checkedPl_run hpl s),
      bind_ok (trapIf_false _ s hform), bind_ok (trapIf_false _ s hext), inSpad_run fun h => (hfits h).2, bind_ok hpieces,
      bind_ok (verifyUnlessPoison_run (htile ▸ hver)), bind_ok hwrite]
    rfl
  refine (congrFun (execZst_eq h spad sat a b c) s).trans ?_
  exact runI_zOrder hc hu (by simp [bodyRuns, hon]) hz ((zstBody_stageFree spad sat a b c).run hbody)

/-! ## TCVT (R171) -/

theorem tcvt_clause {h : Hdr} {d a b c : Opd} {s : State} (hc : Calm s) (am : AMod) (hu : Usable s { srcs := [(a, 16)], dsts := [(d, 16)] }) :
    let act := activeMask h false s.cur
    let ps := Plac.ofQ (srcPL s c)
    let pt := Plac.ofQ (srcPL s b)
    (act = 0#32 → exec (.tcvt h am d a b c) s = .next (finished h s))
    ∧ (act ≠ 0#32 → plCheck (srcPL s c) true true (some (Opd.ix a)) = 0 → plCheck (srcPL s b) false true (some (Opd.ix d)) = 0 →
      tcvtOk ps false = true → tcvtOk pt true = true → ps.rows = pt.rows → ps.cols = pt.cols → spansBad s ps = false →
      spansBad s pt = false →
      let rs := (actRows ps act).map fun ln => match regRowCells ps (ownRegs s) (fun _ => 0#32) (Opd.ix a) ln am.ftz with
        | .error _ => (([] : List Wr), (0 : Flags))
        | .ok l =>
          let e := encodeRow pt am.rnd am.sat am.ftz (l.map fun x => x.map Prod.fst)
          (rowWrites (Opd.ix d) ln pt.rowBytes (packBits pt.bits e.2.1)
            ++ rowWrites (pt.soff % 256) ln e.1.length (leNat e.1), e.2.2)
      exec (.tcvt h am d a b c) s = .next (finished h (gives (rs.flatMap Prod.fst) (joinFlags (rs.map Prod.snd)) (some 8) s))) := by
  intro act ps pt
  have hexec : exec (.tcvt h am d a b c) s = execTcvt h am d a b c s := rfl
  rw [hexec, execTcvt]
  constructor
  · intro hact
    refine runI_ok (own := false) hc hu rfl ?_
    rw [if_pos (beq_iff_eq.mpr hact)]
    rfl
  · intro hact hps hpt hpsok hptok hrows hcols hpsin hptin rs
    refine runI_ok (own := false) hc hu rfl ?_
    have hext : (ps.rows != pt.rows || ps.cols != pt.cols) = false := by simp [hrows, hcols]
    rw [if_neg (by simpa using hact), bind_ok (get_run s), bind_ok (checkedPl_run hps s), bind_ok (checkedPl_run hpt s),
      bind_ok (trapIf_false _ s (by simpa using hpsok)), bind_ok (trapIf_false _ s (by simpa using hptok)),
      bind_ok (trapIf_false _ s hext), bind_ok (trapIf_false _ s hpsin), bind_ok (trapIf_false _ s hptin)]
    exact emitR_calm hc.pend _ _ _

/-! ## CBLOAD (R65, R152, R170) -/

theorem shapeOk_of_plCheck {q : Qword} {inp reg : Bool} {g : Option Nat} (h : plCheck q inp reg g = 0) : (Plac.ofQ q).shapeOk reg = true := by
  unfold plCheck at h
  dsimp only at h
  split_ifs at h with _ _ _ _ _ _ hs
  simpa using hs

/-- The geometry of a codebook tile. -/
theorem codebook_shape {p : Plac} (h : p.shapeOk false = true) (hp : p.isCBT = true) : p.rows = 256 ∧ p.elemEnd = 1040 := by
  simp only [Plac.shapeOk, hp, if_true, Bool.and_eq_true, beq_iff_eq] at h
  obtain ⟨⟨⟨-, ⟨hrows, -⟩, -⟩, -⟩, -⟩ := h
  exact ⟨hrows, by simp [Plac.elemEnd, Plac.rowPitch, hp, hrows]⟩

theorem nbit_of_and {w k : Nat} (h : w &&& 0x8888_8888 = 0) (hk : k < 8) : nbit w (4 * k + 3) = false := by
  have hmask : ∀ k < 8, Nat.testBit 0x8888_8888 (4 * k + 3) = true := by decide
  have hand := congrArg (Nat.testBit · (4 * k + 3)) h
  simpa [nbit, Nat.testBit_and, hmask k hk] using hand

theorem sourceCheck_zero {q : Qword} {words : List Nat} (hq : plCheck q true false = 0) (hw : ∀ w ∈ words, w &&& 0x8888_8888 = 0) :
    sourceCheck q words = 0 := by
  have hany : (words.any fun w => (List.range 8).any fun k => nbit w (4 * k + 3)) = false := by
    simp only [List.any_eq_false, List.mem_range, Bool.not_eq_true]
    exact fun w hw' k hk => nbit_of_and (hw w hw') hk
  unfold sourceCheck
  dsimp only
  rw [hq, hany]
  simp

theorem spPoisoned_sub {s : State} {pa n k : Nat} (h : spPoisoned s pa n = false) (hk : k ≤ n) : spPoisoned s pa k = false := by
  unfold spPoisoned at h ⊢
  rw [List.any_eq_false] at h ⊢
  intro w hw hc
  refine h w hw ?_
  simp only [Bool.and_eq_true, decide_eq_true_eq] at hc ⊢
  omega

theorem sbRead_run {s : State} {base n k : Nat}
    (h : ∀ e ∈ s.sb, e.dst = true → e.core = s.cur.pl.core → e.hi ≤ base ∨ base + n ≤ e.lo) (hk : k ≤ n) :
    sbRead base k s = .ok ((), s) := by
  refine waitUntil_run ?_
  rw [Bool.not_eq_true', List.any_eq_false]
  intro e he hc
  obtain ⟨⟨⟨hdst, hcore⟩, hlo⟩, hhi⟩ := by simpa using hc
  have hspan := h e he hdst hcore
  omega

/-- The patterns of a codebook by their numbers. -/
def bookMap (ws : List Nat) : Map Word := ((List.range ws.length).zip ws).foldl (fun m e => m.set e.1 (BitVec.ofNat 32 e.2) 0#32) []

theorem get_bookMap (ws : List Nat) {k : Nat} (hk : k < ws.length) : (bookMap ws).get k 0#32 = BitVec.ofNat 32 ws[k] :=
  Map.get_foldl_set_zip (BitVec.ofNat 32) 0#32 (key := id) Function.injective_id [] rfl hk

section Cbload
variable {h : Hdr} {a b : Opd} {s : State}

theorem cbload_clause (hc : Calm s) (hon : activeMask h true s.cur ≠ 0#32) (hu : Usable s { uni := true, srcs := [(a, 2), (b, 1)] }) :
    let slot := (src32 s none b).toNat
    let off := (src64 s none a).toNat
    let core := s.cur.pl.core
    let base := s.cur.pl.spBase + off
    let q : Qword := BitVec.ofNat 128 (leNat (spRd s core base 0 16))
    let word := fun k => leNat (spRd s core base (16 + 4 * k) 4)
    slot ≤ 3 → off % 16 = 0 → plCheck q true false = 0 → (Plac.ofQ q).isCBT = true → fits s off 1040 →
    (∀ e ∈ s.sb, e.dst = true → e.core = core → e.hi ≤ base ∨ base + 1040 ≤ e.lo) → spPoisoned s (spPa core base) 1040 = false →
    (∀ k, k < 256 → word k &&& 0x8888_8888 = 0) →
    (let o := (s.books.get (bookKey s.quad slot) Codebook.zero).owner
     o = none ∨ o = s.cur.pl.launch) →
    (∀ p ∈ s.passes, p.quad = s.quad → ∀ x ∈ [p.pla, p.plb], (Plac.ofQ x).isVQ = true → (Plac.ofQ x).sfmt % 4 ≠ slot) →
    ∃ bk : Codebook, exec (.cbload h a b) s = .next (finished h
        { s with books := s.books.set (bookKey s.quad slot) bk Codebook.zero })
      ∧ bk.owner = s.cur.pl.launch ∧ ∀ k, k < 256 → bk.words.get k 0#32 = BitVec.ofNat 32 (word k) := by
  intro slot off core base q word hslot hoff hpl hcbt hfits hsb hpoison hwords howner hpasses
  obtain ⟨hrows, helem⟩ := codebook_shape (shapeOk_of_plCheck hpl) hcbt
  let ws := (List.range 256).map word
  have hlen : ws.length = 256 := by rw [List.length_map, List.length_range]
  refine ⟨⟨s.cur.pl.launch, bookMap ws⟩, ?_, rfl, fun k hk => ?_⟩
  · have hsp : ∀ n ≤ 1040, spSpan 1 off n s = .ok (base, s) := fun n hn => spSpan_run (le_trans (Nat.add_le_add_left hn off) hfits)
    have hplac : spPlacard 1 off s = .ok ((base, q), s) := by
      unfold spPlacard
      rw [bind_ok (trapIf_false _ s (by simpa using hoff)), bind_ok (hsp 16 (by decide)), bind_ok (sbRead_run hsb (by decide)), bind_ok (get_run s),
        bind_ok (trapIf_false _ s (spPoisoned_sub hpoison (by decide)))]
      rfl
    have hcheck : cbtCheck s base off q = 0 := by
      refine sourceCheck_zero hpl fun w hw => ?_
      split at hw
      · obtain ⟨k, hk, rfl⟩ := List.mem_map.mp hw
        exact hwords k (by simpa [hrows] using hk)
      · cases hw
    have howner' : ((s.books.get (bookKey s.quad slot) Codebook.zero).owner.isSome
        && (s.books.get (bookKey s.quad slot) Codebook.zero).owner != s.cur.pl.launch) = false := by
      rcases howner with ho | ho <;> simp [ho]
    have hwait : (!s.passes.any fun p => p.quad == s.quad && (((Plac.ofQ p.pla).isVQ && (Plac.ofQ p.pla).sfmt % 4 == slot)
        || ((Plac.ofQ p.plb).isVQ && (Plac.ofQ p.plb).sfmt % 4 == slot))) = true := by
      rw [Bool.not_eq_true', List.any_eq_false]
      intro p hp hread
      obtain ⟨hquad, hread⟩ := by simpa using hread
      have hno := hpasses p hp hquad
      simp only [List.mem_cons, List.not_mem_nil, or_false, forall_eq_or_imp, forall_eq] at hno
      rcases hread with ⟨hvq, hs⟩ | ⟨hvq, hs⟩
      · exact hno.1 hvq hs
      · exact hno.2 hvq hs
    have hexec : exec (.cbload h a b) s = execCbload h a b s := rfl
    rw [hexec, execCbload]
    refine runI_ok (own := false) hc hu (by simp [bodyRuns, hon]) ?_
    rw [bind_ok (get_run s), bind_ok (trapIf_false _ s (by simpa using hslot)), bind_ok hplac]
    dsimp only
    rw [hcheck, bind_ok (trapIf_false _ s (bne_self_eq_false 0)), bind_ok (trapIf_false _ s (by simpa using hcbt)), helem, bind_ok (hsp 1040 le_rfl),
      bind_ok (sbRead_run hsb le_rfl), bind_ok (get_run s), bind_ok (trapIf_false _ s hpoison), bind_ok (trapIf_false _ s howner'),
      bind_ok (waitUntil_run hwait)]
    rw [bookMap, hlen]
    exact congrArg (fun x => Except.ok ((), x)) (closeIdem_none (s := { s with books := _ }) hc.idem)
  · rw [get_bookMap ws (hlen ▸ hk), List.getElem_map, List.getElem_range]

end Cbload

/-! ## TST (R173) -/

/-- The placard that TST stores: R173's areas begin where the element area ends. -/
def tstPlac (p : Plac) : Plac := { p with pitch := 4, brot := 0, soff := 0, moff := 0 }

/-- Bytes cut into pieces of 16 from an offset. -/
def cut16 (o : Nat) (bs : List Byte) : List (Nat × List Byte) := (List.range (ceilDiv bs.length 16)).map fun k => (o + 16 * k, (bs.drop (16 * k)).take 16)

/-- The tile's own scale, where it has one. -/
def tstScale (p : Plac) (rg : RegRd) (rows : List Nat) : List (Nat × List Byte) :=
  if (p.slay == 4 || p.slay == 5) && !rows.isEmpty then [((tstPlac p).scaleOff, laneBytes rg (p.soff % 256) 1 0)] else []

/-- The writes of TST. -/
def tstWrites (p : Plac) (rg : RegRd) (g : Nat) (rows : List Nat) : List (Nat × List Byte) :=
  (rows.flatMap fun i =>
    rowOut (tstPlac p) i (leNat (laneBytes rg g 16 i))
      ++ cut16 ((tstPlac p).scaleOff + ((tstPlac p).linePos i).1) (laneScaleBytes p rg i)
      ++ cut16 ((tstPlac p).metaOff + i * (tstPlac p).metaStride) (laneBytes rg (p.moff % 256) p.metaRegs i)) ++ tstScale p rg rows

/-- A row whose metadata does not say which elements are present. -/
def rowBad (p : Plac) (md : Nat → Nat) (i : Nat) : Bool := match p.present (md i) with | .error _ => true | .ok _ => false

theorem any_rowBad {p : Plac} {rows : List Nat} {md : Nat → Nat} (h : ∀ i ∈ rows, ∃ js, p.present (md i) = .ok js) :
    rows.any (rowBad p md) = false := by
  rw [List.any_eq_false]
  intro i hi
  obtain ⟨js, hjs⟩ := h i hi
  rw [rowBad, hjs]
  exact Bool.false_ne_true

/-- The body of TST. -/
def tstBody (m : MMod) (a b c : Opd) (act : Mask) : M Unit := do
  let s ← get
  let base ← tileBase 1 s a
  inSpad m.x 1 base 16 do
    let p ← checkedPl (srcPL s c) true true (some (Opd.ix b)) 2
    M.trapIf (spansBad s p) { accessT 0 with opnd := 2 }
    M.trapIf (!(tstPlac p).shapeOk false) (placT 7 4)
    M.trapIf ((actRows p act).any (rowBad p (regMeta p (ownRegs s)))) (placT 11 2)
    inSpad m.x 1 base (tstPlac p).endOff do
      if Order.isRel m.order then releaseM m.scope else pure ()
      writeTile m.x m.scope m.cache 1 base (tstWrites p (ownRegs s) (Opd.ix b) (actRows p act)) (tstPlac p).toQ

theorem execTst_eq (h : Hdr) (m : MMod) (a b c : Opd) : execTst h m a b c =
    runI h { srcs := [(a, 2), (b, 16)], lates := if Order.isRel m.order then latesRel else [] } false (tstBody m a b c) := rfl

theorem tstScale_eq (p : Plac) (rg : RegRd) (rows : List Nat) : tstScale p rg rows =
    if (p.slay = 4 ∨ p.slay = 5) ∧ rows ≠ [] then [((tstPlac p).scaleOff, laneBytes rg (p.soff % 256) 1 0)] else [] :=
  if_congr (by simp) rfl rfl

theorem tst_clause {h : Hdr} {a b c : Opd} {s : State} (hc : Calm s) (m : MMod) (s2 : State)
    (hu : Usable s { srcs := [(a, 2), (b, 16)], lates := if m.order = .rel ∨ m.order = .ar then latesRel else [] }) :
    let act := activeMask h false s.cur
    let rel := m.order = .rel ∨ m.order = .ar
    let base := (src64 s none a).toNat
    let q := srcPL s c
    let p := Plac.ofQ q
    let pt : Plac := { p with pitch := 4, brot := 0, soff := 0, moff := 0 }
    let rows := actRows p act
    let rg := ownRegs s
    let cut := fun (o : Nat) (bs : List Byte) =>
      (List.range ((bs.length + 15) / 16)).map fun k => (o + 16 * k, (bs.drop (16 * k)).take 16)
    let ws := (rows.flatMap fun i => rowOut pt i (leNat (laneBytes rg (Opd.ix b) 16 i))
        ++ cut (pt.scaleOff + (pt.linePos i).1) (laneScaleBytes p rg i)
        ++ cut (pt.metaOff + i * pt.metaStride) (laneBytes rg (p.moff % 256) p.metaRegs i))
      ++ if (p.slay = 4 ∨ p.slay = 5) ∧ rows ≠ [] then [(pt.scaleOff, laneBytes rg (p.soff % 256) 1 0)] else []
    base % 16 = 0 → (m.x = true → fits s base 16 ∧ fits s base pt.endOff) → plCheck q true true (some (Opd.ix b)) = 0 →
    spansBad s p = false → pt.shapeOk false = true → (∀ i ∈ rows, ∃ js, p.present (regMeta p rg i) = .ok js) →
    (rel → Quiet m.scope s) →
    writeTile m.x m.scope m.cache 1 base ws pt.toQ (if rel then released m.scope s else s) = .ok ((), s2) →
    exec (.tst h m a b c) s = .next (finished h s2) := by
  intro act rel base q p pt rows rg cut ws hbase hfits hpl hspans hshape hpresent hquiet hwrite
  have hws : ws = tstWrites p rg (Opd.ix b) rows := by
    rw [tstWrites, tstScale_eq]
    rfl
  have hshape' : (!(tstPlac p).shapeOk false) = false := congrArg (!·) hshape
  have hbody : tstBody m a b c act s = .ok ((), s2) := by
    unfold tstBody
    rw [bind_ok (get_run s), bind_ok (tileBase_run hbase), inSpad_run fun h => (hfits h).1, bind_ok (checkedPl_run hpl s),
      bind_ok (trapIf_false _ s hspans), bind_ok (trapIf_false _ s hshape'), bind_ok (trapIf_false _ s (any_rowBad hpresent))]
    refine (inSpad_run fun h => (hfits h).2).trans ?_
    exact (bind_releaseM hquiet _).trans (hws ▸ hwrite)
  simp only [← isRel_iff] at hu
  exact (congrFun (execTst_eq h m a b c) s).trans (runI_ok (own := false) hc hu rfl hbody)

/-! ## TLD (R172) -/

/-- Has a register tile registers of scales or of metadata? -/
def hasExtra (p : Plac) : Bool := p.scRegs != 0 || p.metaRegs != 0

/-- The pieces of a tile's rows and of its own scale, where it has two kinds. -/
def tldPieces (p : Plac) (rows : List Nat) : List (Nat × Nat) :=
  rows.flatMap (rowPieces p) ++ if p.slay == 5 && !rows.isEmpty then [(p.scaleOff, 4)] else []

/-- The writes of a row, of its scales and of its metadata. -/
def tldRow (p : Plac) (rd : TileRd) (g r i : Nat) : List Wr :=
  rowWrites g i p.rowBytes (memRow p rd i)
    ++ (if p.slay == 4 then []
        else rowWrites (if p.slay == 5 then r + 1 else r) i (p.linePos i).2 (leNat (rd (p.scaleOff + (p.linePos i).1) (p.linePos i).2)))
    ++ rowWrites (r + p.scRegs) i (4 * p.metaRegs) (memMeta p rd i)

/-- The writes of the tile's own scale. -/
def tldScale (p : Plac) (rd : TileRd) (r : Nat) (rows : List Nat) : List Wr :=
  if (p.slay == 4 || p.slay == 5) && !rows.isEmpty then rowWrites r 0 4 (leNat (rd p.scaleOff 4)) else []

/-- The writes of TLD to V registers. -/
def tldWrites (p : Plac) (rd : TileRd) (g r : Nat) (rows : List Nat) : List Wr := rows.flatMap (tldRow p rd g r) ++ tldScale p rd r rows

/-- The placard of the register tile. -/
def tldPlac (p : Plac) (r : Nat) : Plac :=
  { p with pitch := 4, brot := 0, soff := if p.scRegs == 0 then 0 else r, moff := if p.metaRegs == 0 then 0 else r + p.scRegs }

/-- The body of TLD. -/
def tldBody (m : MMod) (d a b c : Opd) (act : Mask) : M Unit := do
  let s ← get
  let base ← tileBase 1 s a
  inSpad m.x 1 base 16 do
    let pb ← readSpan m.x m.scope m.cache 1 base 16
    let q : Qword := BitVec.ofNat 128 (leNat pb)
    M.trapIf (tldCheck q != 0) (placT (tldCheck q) 1)
    let p := Plac.ofQ q
    M.trapIf (hasExtra p == (b.cls == .zr)) (placT 6 2)
    M.trapIf (hasExtra p && overlaps (Opd.ix d, 16) (Opd.ix b, p.scRegs + p.metaRegs)) (placT 6 2)
    M.trapIf (hasExtra p && decide (s.cur.r.vregs < Opd.ix b + p.scRegs + p.metaRegs)) { accessT 0 with opnd := 2 }
    inSpad m.x 1 base p.endOff do
      let ls ← checkPieces m.x .load 1 ((tldPieces p (actRows p act)).map fun (o, n) => ((base + o) % 2 ^ 64, n))
      let bs ← M.mapL ls fun (l, n) => readPiece m.scope m.cache l n
      let rd := rdPieces ((tldPieces p (actRows p act)).zip bs)
      M.trapIf ((actRows p act).any (rowBad p (memMeta p rd))) (placT 11 1)
      emitR (tldWrites p rd (Opd.ix d) (Opd.ix b) (actRows p act) ++ dstPL c (tldPlac p (Opd.ix b)).toQ) 0 none
      if Order.isAcq m.order then M.upd (acquire m.scope) else pure ()

theorem execTld_eq (h : Hdr) (m : MMod) (d a b c : Opd) :
    execTld h m d a b c = runI h { srcs := [(a, 2)], dsts := [(d, 16)] } false (tldBody m d a b c) := rfl

theorem tldPieces_eq (p : Plac) (rows : List Nat) :
    tldPieces p rows = rows.flatMap (rowPieces p) ++ if p.slay = 5 ∧ rows ≠ [] then [(p.scaleOff, 4)] else [] :=
  congrArg (rows.flatMap (rowPieces p) ++ ·) (if_congr (by simp) rfl rfl)

theorem tldPlac_eq (p : Plac) (r : Nat) : tldPlac p r =
    { p with pitch := 4, brot := 0, soff := if p.scRegs = 0 then 0 else r, moff := if p.metaRegs = 0 then 0 else r + p.scRegs } := by
  simp only [tldPlac, beq_iff_eq]

section Writes
variable {p : Plac} {rd : TileRd} {g r i : Nat} {rows : List Nat} {w : Wr}

theorem mem_tldWrites_row (hi : i ∈ rows) (hw : w ∈ tldRow p rd g r i) : w ∈ tldWrites p rd g r rows :=
  List.mem_append_left _ (List.mem_flatMap.mpr ⟨i, hi, hw⟩)

theorem mem_tldRow_row (hw : w ∈ rowWrites g i p.rowBytes (memRow p rd i)) : w ∈ tldRow p rd g r i :=
  List.mem_append_left _ (List.mem_append_left _ hw)

theorem mem_tldRow_meta (hw : w ∈ rowWrites (r + p.scRegs) i (4 * p.metaRegs) (memMeta p rd i)) : w ∈ tldRow p rd g r i :=
  List.mem_append_right _ hw

theorem mem_tldRow_scale (hs : p.slay ≠ 4) (hw : w ∈ rowWrites (if p.slay = 5 then r + 1 else r) i (p.linePos i).2
    (leNat (rd (p.scaleOff + (p.linePos i).1) (p.linePos i).2))) : w ∈ tldRow p rd g r i := by
  refine List.mem_append_left _ (List.mem_append_right _ ?_)
  simpa only [beq_iff_eq, if_neg hs] using hw

theorem mem_tldWrites_scale (hs : p.slay = 4 ∨ p.slay = 5) (hr : rows ≠ []) (hw : w ∈ rowWrites r 0 4 (leNat (rd p.scaleOff 4))) :
    w ∈ tldWrites p rd g r rows := by
  refine List.mem_append_right _ ?_
  rw [tldScale, if_pos (by simpa using ⟨hs, hr⟩)]
  exact hw

theorem mem_rowWrites {n x : Nat} (hw : w ∈ rowWrites g i n x) : ∃ k y, w = .v (g + k) i y ∧ k < ceilDiv n 4 := by
  obtain ⟨k, hk, rfl⟩ := List.mem_map.mp hw
  exact ⟨k, _, rfl, List.mem_range.mp hk⟩

theorem mem_tldRow (hw : w ∈ tldRow p rd g r i) : ∃ n y, w = .v n i y := by
  have hlane {g n x : Nat} (hw : w ∈ rowWrites g i n x) : ∃ n y, w = .v n i y := by
    obtain ⟨k, y, rfl, -⟩ := mem_rowWrites hw
    exact ⟨_, _, rfl⟩
  rcases List.mem_append.mp hw with hw | hw
  · rcases List.mem_append.mp hw with hw | hw
    · exact hlane hw
    · split at hw
      · cases hw
      · exact hlane hw
  · exact hlane hw

/-- TLD writes in the lanes of its rows, and the tile's own scale in lane 0 (log 26). -/
theorem mem_tldWrites (hw : w ∈ tldWrites p rd g r rows) : ∃ n i y, w = .v n i y ∧ (i ∈ rows ∨ i = 0 ∧ n = r) := by
  rcases List.mem_append.mp hw with hw | hw
  · obtain ⟨i, hi, hw⟩ := List.mem_flatMap.mp hw
    obtain ⟨n, y, rfl⟩ := mem_tldRow hw
    exact ⟨n, i, y, rfl, .inl hi⟩
  · unfold tldScale at hw
    split at hw
    · obtain ⟨k, y, rfl, hk⟩ := mem_rowWrites hw
      obtain rfl : k = 0 := Nat.lt_one_iff.mp hk
      exact ⟨r, 0, y, rfl, .inr ⟨rfl, rfl⟩⟩
    · cases hw

end Writes

theorem tld_clause {h : Hdr} {d a b c : Opd} {s : State} (hc : Calm s) (m : MMod) (pb : List Byte) (s1 s2 s3 : State)
    (ls : List (LaneAcc × Nat)) (bs : List (List Byte)) (hu : Usable s { srcs := [(a, 2)], dsts := [(d, 16)] }) :
    let act := activeMask h false s.cur
    let base := (src64 s none a).toNat
    let q : Qword := BitVec.ofNat 128 (leNat pb)
    let p := Plac.ofQ q
    let rows := actRows p act
    let r := Opd.ix b
    let two := if p.slay = 5 ∧ rows ≠ [] then [(p.scaleOff, 4)] else []
    let ps := rows.flatMap (rowPieces p) ++ two
    let rd := rdPieces (ps.zip bs)
    base % 16 = 0 → (m.x = true → fits s base 16 ∧ fits s base p.endOff) → readSpan m.x m.scope m.cache 1 base 16 s = .ok (pb, s1) →
    tldCheck q = 0 → ((p.scRegs ≠ 0 ∨ p.metaRegs ≠ 0) ↔ b.cls ≠ .zr) →
    (b.cls = .zr ∨ (overlaps (Opd.ix d, 16) (r, p.scRegs + p.metaRegs) = false ∧ r + p.scRegs + p.metaRegs ≤ s.cur.r.vregs)) →
    checkPieces m.x .load 1 (ps.map fun (o, n) => ((base + o) % 2 ^ 64, n)) s1 = .ok (ls, s2) →
    M.mapL ls (fun (l, n) => readPiece m.scope m.cache l n) s2 = .ok (bs, s3) →
    (∀ i ∈ rows, ∃ js, p.present (memMeta p rd i) = .ok js) →
    ∃ ws, exec (.tld h m d a b c) s = .next (finished h
        (let t := addPend (ws ++ dstPL c ({ p with
            pitch := 4, brot := 0, soff := if p.scRegs = 0 then 0 else r, moff := if p.metaRegs = 0 then 0 else r + p.scRegs } : Plac).toQ) 0 none s3
         if m.order = .acq ∨ m.order = .ar then acquire m.scope t else t))
      ∧ (∀ i ∈ rows, ∀ w ∈ rowWrites (Opd.ix d) i p.rowBytes (memRow p rd i), w ∈ ws)
      ∧ (∀ i ∈ rows, ∀ w ∈ rowWrites (r + p.scRegs) i (4 * p.metaRegs) (memMeta p rd i), w ∈ ws)
      ∧ (∀ i ∈ rows, p.slay ≠ 4 → ∀ w ∈ rowWrites (if p.slay = 5 then r + 1 else r) i (p.linePos i).2
          (leNat (rd (p.scaleOff + (p.linePos i).1) (p.linePos i).2)), w ∈ ws)
      ∧ (p.slay = 4 ∨ p.slay = 5 → rows ≠ [] → ∀ w ∈ rowWrites r 0 4 (leNat (rd p.scaleOff 4)), w ∈ ws)
      ∧ ∀ w ∈ ws, ∃ n i x, w = .v n i x ∧ (i ∈ rows ∨ i = 0 ∧ n = r) := by
  intro act base q p rows r two ps rd hbase hfits hspan htld hextra hroom hpieces hread hpresent
  refine ⟨tldWrites p rd (Opd.ix d) r rows, ?_, fun i hi w hw => mem_tldWrites_row hi (mem_tldRow_row hw),
    fun i hi w hw => mem_tldWrites_row hi (mem_tldRow_meta hw), fun i hi hs w hw => mem_tldWrites_row hi (mem_tldRow_scale hs hw),
    fun hs hr w hw => mem_tldWrites_scale hs hr hw, fun w hw => mem_tldWrites hw⟩
  have hps : tldPieces p rows = ps := tldPieces_eq p rows
  have hext : hasExtra p = !(b.cls == .zr) := by
    rw [Bool.eq_iff_iff]
    simpa [hasExtra] using hextra
  have hext' : (hasExtra p == (b.cls == .zr)) = false := by
    rw [hext]
    cases b.cls == .zr <;> rfl
  have hover : (hasExtra p && overlaps (Opd.ix d, 16) (Opd.ix b, p.scRegs + p.metaRegs)) = false := by
    rcases hroom with hz | ⟨ho, -⟩
    · simp [hext, hz]
    · rw [ho, Bool.and_false]
  have hregs : (hasExtra p && decide (s.cur.r.vregs < Opd.ix b + p.scRegs + p.metaRegs)) = false := by
    rcases hroom with hz | ⟨-, hv⟩
    · simp [hext, hz]
    · rw [decide_eq_false (Nat.not_lt.mpr hv), Bool.and_false]
  have hfits' : m.x = true → fits s1 base p.endOff := fun hx => by
    rw [fits, ((readSpan_gives ..).run hspan).1]
    exact (hfits hx).2
  have hcheck : (tldCheck q != 0) = false := by rw [htld]; rfl
  rw [← hps] at hpieces
  have hbody : tldBody m d a b c act s = .ok ((),
      if m.order = .acq ∨ m.order = .ar then acquire m.scope (addPend (tldWrites p rd (Opd.ix d) r rows ++ dstPL c (tldPlac p r).toQ) 0 none s3)
      else addPend (tldWrites p rd (Opd.ix d) r rows ++ dstPL c (tldPlac p r).toQ) 0 none s3) := by
    have hpresent' : rows.any (rowBad p (memMeta p (rdPieces ((tldPieces p rows).zip bs)))) = false := by
      rw [hps]
      exact any_rowBad hpresent
    unfold tldBody
    rw [bind_ok (get_run s), bind_ok (tileBase_run hbase), inSpad_run fun h => (hfits h).1, bind_ok hspan]
    dsimp only
    rw [bind_ok (trapIf_false _ s1 hcheck), bind_ok (trapIf_false _ s1 hext'), bind_ok (trapIf_false _ s1 hover), bind_ok (trapIf_false _ s1 hregs),
      inSpad_run hfits', bind_ok hpieces, bind_ok hread, bind_ok (trapIf_false _ s3 hpresent'), bind_ok (emitR_run ..), hps]
    simp only [← isAcq_iff]
    split <;> rfl
  rw [← tldPlac_eq]
  exact (congrFun (execTld_eq h m d a b c) s).trans (runI_ok (own := false) hc hu rfl hbody)

/-- Settles O35: a clause per instruction. The Z instructions run at another stage than the state that the statement reads, which no
access tells (`StageFree`); the rows of ZLD and ZADD are each replaced once (`RowLocal`). -/
theorem tilesAndMemory : Obligations.TilesAndMemory := by
  intro h m d a b c s hc on act
  refine ⟨?_, ?_, ?_, ?_, ?_, fun hon hu => cbload_clause hc hon hu, fun am hu => tcvt_clause hc am hu⟩
  · exact fun spad sat s1 s2 ls hon hu hz => zst_clause hc hon spad sat s1 s2 ls hu hz
  · exact fun spad p rows s1 hon hu hz hsrc => zld_clause hc hon spad p rows s1 hu hz hsrc
  · exact fun spad rows s1 hon hu hz hsrc => zadd_clause hc hon spad rows s1 hu hz hsrc
  · exact fun pb s1 s2 s3 ls bs hu => tld_clause hc m pb s1 s2 s3 ls bs hu
  · exact fun s2 hu => tst_clause hc m s2 hu

end Sys2Proof.Machine
end

section
/-! SUPPORT. Instructions with one result per lane, and the integer and bitwise ones (R97 to R100): what each computes as an operation on
words. -/

namespace Sys2Proof.Machine

/-! ## Shapes of one result per lane -/

section Shapes
variable {h : Hdr} {d a b c : Opd} {lat : Option Nat} {s : State}

theorem int1_gives (hc : Calm s) (hu : Usable s (.of d 1 [(a, 1)])) {f : Word → Word} {r : Option Nat → Word}
    (hr : ∀ ln, f (src32 s ln a) = r ln) : int1 h lat d a f s = .next (wordDone h d lat r s) := by
  rw [← funext hr]
  exact runLanes_calm hc hu h lat _

theorem int2_gives (hc : Calm s) (hu : Usable s (.of d 1 [(a, 1), (b, 1)])) {f : Word → Word → Word} {r : Option Nat → Word}
    (hr : ∀ ln, f (src32 s ln a) (src32 s ln b) = r ln) : int2 h lat d a b f s = .next (wordDone h d lat r s) := by
  rw [← funext hr]
  exact runLanes_calm hc hu h lat _

theorem int3_gives (hc : Calm s) (hu : Usable s (.of d 1 [(a, 1), (b, 1), (c, 1)])) {f : Word → Word → Word → Word}
    {r : Option Nat → Word} (hr : ∀ ln, f (src32 s ln a) (src32 s ln b) (src32 s ln c) = r ln) :
    int3 h lat d a b c f s = .next (wordDone h d lat r s) := by
  rw [← funext hr]
  exact runLanes_calm hc hu h lat _

theorem badIn_eq_none_iff (l : List (Opd × Nat)) (n : Nat) : badIn s l n = none ↔ ∀ o ∈ l, badOpd s o = false := by
  induction l generalizing n with
  | nil => simp [badIn]
  | cons o l ih => cases hb : badOpd s o <;> simp [badIn, hb, ih]

/-- Operands read twice are checked as when they are read once. -/
theorem usable_of_srcs {k : Nat} {l l' : List (Opd × Nat)} (hu : Usable s (.of d k l)) (hl : ∀ o ∈ l', o ∈ l) :
    Usable s (.of d k l') := by
  have hb := hu.opnds
  refine ⟨rfl, ?_, fun hp => Bool.noConfusion hp⟩
  simp only [badOpnd, Meta.of, List.any_nil, Bool.false_eq_true, if_false] at hb ⊢
  split at hb
  · cases hb
  · next hd =>
    rw [if_neg hd, badIn_eq_none_iff]
    exact fun o ho => (badIn_eq_none_iff l 1).mp hb o (hl o ho)

end Shapes

/-! ## Words and the integers they stand for -/

theorem ofInt_intOf (sg : Bool) (x : Word) : BitVec.ofInt 32 (intOf sg x) = x := by
  cases sg <;> simp [intOf]

theorem ofInt_intOf64 (sg : Bool) (x : Dword) : BitVec.ofInt 64 (intOf64 sg x) = x := by
  cases sg <;> simp [intOf64]

theorem ofInt64_intOf (sg : Bool) (x : Word) :
    BitVec.ofInt 64 (intOf sg x) = if sg then x.signExtend 64 else x.zeroExtend 64 := by
  cases sg
  · simp [intOf, BitVec.ofNat_toNat]
  · rfl

/-- An exact integer that agrees with a word modulo 2^32 is that word, unless SAT clamps it. -/
theorem fit32_eq (sat sg : Bool) {z : Int} {x : Word} (hz : BitVec.ofInt 32 z = x) :
    fit32 sat sg z = if sat then BitVec.ofInt 32 (clampInt 32 sg z) else x := by
  cases sat <;> simp [fit32, hz]

theorem fit64_eq (sat sg : Bool) {z : Int} {x : Dword} (hz : BitVec.ofInt 64 z = x) :
    fit64 sat sg z = if sat then BitVec.ofInt 64 (clampInt 64 sg z) else x := by
  cases sat <;> simp [fit64, hz]

theorem ofInt_sub_intOf (sg : Bool) (x y : Word) : BitVec.ofInt 32 (intOf sg x - intOf sg y) = x - y := by
  rw [Int.sub_eq_add_neg, BitVec.ofInt_add, BitVec.ofInt_neg, ofInt_intOf, ofInt_intOf, BitVec.sub_eq_add_neg]

/-- The clamp leaves an integer of the signed 32-bit range as it is. -/
theorem clampInt_signed {z : Int} (hlo : -2 ^ 31 ≤ z) (hhi : z < 2 ^ 31) : clampInt 32 true z = z := by
  simp only [clampInt, intMin, intMax, if_true]
  omega

/-- Under SAT the negation of a word that has one is that negation, and the one word without gives the greatest integer. -/
theorem fit32_neg (sat : Bool) (x : Word) :
    fit32 sat true (-x.toInt) = if sat && x == 0x8000_0000#32 then 0x7FFF_FFFF#32 else -x := by
  have hz : BitVec.ofInt 32 (-x.toInt) = -x := by rw [BitVec.ofInt_neg, BitVec.ofInt_toInt]
  rw [fit32_eq sat true hz]
  by_cases hx : x = 0x8000_0000#32
  · subst hx; cases sat <;> decide
  · have hneg := BitVec.toInt_neg_of_ne_intMin (x := x) hx
    have hlo := (-x).le_toInt
    have hhi := (-x).toInt_lt
    rw [clampInt_signed (by omega) (by omega), hz]
    simp [hx]

/-- The magnitude of a negative word is its negation. -/
theorem fit32_natAbs (sat : Bool) (x : Word) :
    fit32 sat true (x.toInt.natAbs : Int) = if sat && x == 0x8000_0000#32 then 0x7FFF_FFFF#32 else x.abs := by
  rw [BitVec.abs_eq, BitVec.msb_eq_toInt]
  by_cases hx : x.toInt < 0
  · rw [show (x.toInt.natAbs : Int) = -x.toInt by omega, fit32_neg]
    simp [hx]
  · have hhi := x.toInt_lt
    have hne : x ≠ 0x8000_0000#32 := by rintro rfl; exact hx (by decide)
    rw [show (x.toInt.natAbs : Int) = x.toInt by omega, fit32_eq sat true BitVec.ofInt_toInt,
      clampInt_signed (by omega) (by omega), BitVec.ofInt_toInt]
    simp [hx, hne]

/-! ## Quotients (R99) -/

theorem ofInt_tdiv (x y : Word) : BitVec.ofInt 32 (x.toInt.tdiv y.toInt) = x.sdiv y :=
  BitVec.eq_of_toInt_eq (by rw [BitVec.toInt_ofInt, BitVec.toInt_sdiv])

theorem ofInt_tmod (x y : Word) : BitVec.ofInt 32 (x.toInt.tmod y.toInt) = x.srem y := by
  rw [← BitVec.toInt_srem, BitVec.ofInt_toInt]

theorem ofInt_tdiv_toNat (x y : Word) : BitVec.ofInt 32 ((x.toNat : Int).tdiv y.toNat) = x / y := by
  rw [← Int.ofNat_tdiv, BitVec.ofInt_natCast]
  exact BitVec.eq_of_toNat_eq (by simp [Nat.mod_eq_of_lt (Nat.lt_of_le_of_lt (Nat.div_le_self _ _) x.isLt)])

theorem ofInt_tmod_toNat (x y : Word) : BitVec.ofInt 32 ((x.toNat : Int).tmod y.toNat) = x % y := by
  rw [← Int.ofNat_tmod, BitVec.ofInt_natCast]
  exact BitVec.eq_of_toNat_eq (by simp [Nat.mod_eq_of_lt (Nat.lt_of_le_of_lt (Nat.mod_le _ _) x.isLt)])

/-- Signed and unsigned quotients are those of words; the one overflow wraps as the signed division of words does. -/
theorem idiv_eq (sg : Bool) (x y : Word) :
    idiv sg x y = if y = 0#32 then (0xFFFF_FFFF#32, x)
      else if sg then (x.sdiv y, x.srem y) else (x / y, x % y) := by
  unfold idiv
  by_cases hy : y = 0#32
  · simp [hy]
  · cases sg with
    | false =>
      simp only [hy, beq_iff_eq, if_false, Bool.false_and, Bool.false_eq_true, intOf, ofInt_tdiv_toNat, ofInt_tmod_toNat]
    | true =>
      simp only [hy, beq_iff_eq, if_false, intOf, if_true, Bool.true_and, Bool.and_eq_true, ofInt_tdiv, ofInt_tmod]
      split
      · next hxy => obtain ⟨rfl, rfl⟩ := hxy; decide
      · rfl

/-! ## Order -/

theorem intOf_le_iff (sg : Bool) (x y : Word) : intOf sg x ≤ intOf sg y ↔ (if sg then x.sle y else x.ule y) = true := by
  cases sg <;> simp [intOf, BitVec.sle_eq_decide, BitVec.ule_eq_decide]

/-- Settles O12: each instruction computes the exact integer of R98 and R99, which agrees with the operation on words modulo 2^32. -/
theorem integerArithmetic : Obligations.IntegerArithmetic := by
  intro h m d a b c s hc x y z sg fit
  refine ⟨fun hu => ⟨?_, ?_, ?_, ?_, ?_, ?_, ?_, ?_⟩, fun hu => ?_, fun hu => ⟨?_, ?_⟩⟩
  · show execIadd h m d a b s = _
    exact int2_gives hc hu fun ln => fit32_eq _ _ (by rw [BitVec.ofInt_add, ofInt_intOf, ofInt_intOf])
  · show execIsub h m d a b s = _
    exact int2_gives hc hu fun ln => fit32_eq _ _ (ofInt_sub_intOf ..)
  · show execImul h m d a b s = _
    exact int2_gives hc hu fun ln => fit32_eq _ _ (by rw [BitVec.ofInt_mul, ofInt_intOf, ofInt_intOf])
  · show execImulh h m d a b s = _
    refine int2_gives hc hu fun ln => ?_
    rw [BitVec.ofInt_mul, ofInt64_intOf, ofInt64_intOf]
    cases hsg : Ty.signed m.ty <;> simp [sg, hsg, x, y]
  · show execIdiv h m d a b s = _
    refine int2_gives hc hu fun ln => ?_
    rw [idiv_eq, apply_ite Prod.fst, apply_ite Prod.fst]
  · show execIrem h m d a b s = _
    refine int2_gives hc hu fun ln => ?_
    rw [idiv_eq, apply_ite Prod.snd, apply_ite Prod.snd]
  · show execImin h m d a b s = _
    exact int2_gives hc hu fun ln => if_congr (intOf_le_iff ..) rfl rfl
  · show execImax h m d a b s = _
    exact int2_gives hc hu fun ln => if_congr (intOf_le_iff ..) rfl rfl
  · show execImad h m d a b c s = _
    refine int3_gives hc hu fun ln => fit32_eq _ _ ?_
    rw [BitVec.ofInt_add, BitVec.ofInt_mul, ofInt_intOf, ofInt_intOf, ofInt_intOf]
  · show execIabs h m d a s = _
    exact int1_gives hc hu fun ln => fit32_natAbs ..
  · show execIneg h m d a s = _
    exact int1_gives hc hu fun ln => fit32_neg ..

/-! ## Bitwise instructions (R100) -/

section Logic
variable {h : Hdr} {m : AMod} {d a b : Opd} {s : State} {fb : Bool → Bool → Bool} {fw : Word → Word → Word}
  {fd : Dword → Dword → Dword}

/-- The form on predicates. -/
theorem logic2_pred (hc : Calm s) (hd : d.cls = .p ∨ d.cls = .q) (hu : Usable s (.of d 1 [(a, 1), (b, 1)])) :
    logic2 h m d a b fb fw fd s = .next (predDone h d (some 4) (fun ln => fb (srcP s ln a) (srcP s ln b)) s) := by
  rw [logic2, if_pos (by simpa using hd)]
  exact runLanes_calm hc hu h _ _

/-- The form on pairs. -/
theorem logic2_pair (hc : Calm s) (hp : d.cls ≠ .p) (hq : d.cls ≠ .q) (ht : m.ty = .u64)
    (hu : Usable s (.of d 2 [(a, 2), (b, 2)])) :
    logic2 h m d a b fb fw fd s = .next (groupDone h d 2 (some 4) (fun ln => (fd (src64 s ln a) (src64 s ln b)).toNat) s) := by
  rw [logic2, if_neg (by simp [hp, hq]), if_pos (by simp [ht])]
  exact runLanes_calm hc hu h _ _

/-- The form on one register. -/
theorem logic2_word (hc : Calm s) (hp : d.cls ≠ .p) (hq : d.cls ≠ .q) (ht : m.ty ≠ .u64)
    (hu : Usable s (.of d 1 [(a, 1), (b, 1)])) :
    logic2 h m d a b fb fw fd s = .next (wordDone h d (some 4) (fun ln => fw (src32 s ln a) (src32 s ln b)) s) := by
  rw [logic2, if_neg (by simp [hp, hq]), if_neg (by simp [ht])]
  exact int2_gives hc hu fun _ => rfl

end Logic

/-- Settles O13: the three forms of R100; NOT reads its operand in both places. -/
theorem bitwiseInThreeForms : Obligations.BitwiseInThreeForms := by
  intro h m d a b s hc
  have hand : exec (.and h m d a b) s = logic2 h m d a b (· && ·) (· &&& ·) (· &&& ·) s := rfl
  have hor : exec (.or h m d a b) s = logic2 h m d a b (· || ·) (· ||| ·) (· ||| ·) s := rfl
  have hxor : exec (.xor h m d a b) s = logic2 h m d a b (· != ·) (· ^^^ ·) (· ^^^ ·) s := by rw [Bool.bne_eq_xor]; rfl
  have handn : exec (.andn h m d a b) s = logic2 h m d a b (fun x y => x && !y) (fun x y => x &&& ~~~y) (fun x y => x &&& ~~~y) s := rfl
  have hnot : exec (.not h m d a) s = logic2 h m d a a (fun x _ => !x) (fun x _ => ~~~x) (fun x _ => ~~~x) s := rfl
  rw [hand, hor, hxor, handn, hnot]
  refine ⟨fun hd hu => ?_, fun hp hq ht hu => ?_, fun hp hq ht hu => ?_⟩
  · exact ⟨logic2_pred hc hd hu, logic2_pred hc hd hu, logic2_pred hc hd hu, logic2_pred hc hd hu,
      logic2_pred hc hd (usable_of_srcs hu (by simp))⟩
  · exact ⟨logic2_pair hc hp hq ht hu, logic2_pair hc hp hq ht hu, logic2_pair hc hp hq ht hu, logic2_pair hc hp hq ht hu,
      logic2_pair hc hp hq ht (usable_of_srcs hu (by simp))⟩
  · exact ⟨logic2_word hc hp hq ht hu, logic2_word hc hp hq ht hu, logic2_word hc hp hq ht hu, logic2_word hc hp hq ht hu,
      logic2_word hc hp hq ht (usable_of_srcs hu (by simp))⟩

end Sys2Proof.Machine
end

section
/-! SUPPORT. Shifts, bit fields, bit counts and byte permutations (R101 to R104): the bits of what each computes. -/

namespace Sys2Proof.Machine

/-! ## Shifts (R101) -/

section Shifts
variable {w : Nat} (x : BitVec w) (n : Nat)

theorem shlBv_eq : shlBv x n = x <<< n := by
  unfold shlBv
  split
  · rfl
  · exact (BitVec.shiftLeft_eq_zero (by omega)).symm

theorem shrBv_eq : shrBv x n = x >>> n := by
  unfold shrBv
  split
  · rfl
  · exact (BitVec.ushiftRight_eq_zero (by omega)).symm

/-- From a count of the width on, every bit is a copy of the sign bit. -/
theorem sarBv_eq : sarBv x n = x.sshiftRight n := by
  unfold sarBv
  split
  · rfl
  · next h =>
    refine BitVec.eq_of_getLsbD_eq fun i hi => ?_
    rw [BitVec.getLsbD_sshiftRight, BitVec.getLsbD_sshiftRight, if_neg (by omega), if_neg (by omega)]

end Shifts

section Forms
variable {h : Hdr} {wide : Bool} {d a b : Opd} {s : State} {fw : Word → Nat → Word} {fd : Dword → Nat → Dword}

theorem shift_pair (hc : Calm s) (hu : Usable s (.of d 2 [(a, 2), (b, 2)])) (hw : wide = true) {r : Option Nat → Dword}
    (hr : ∀ ln, fd (src64 s ln a) ((src64 s ln b).extractLsb' 0 32).toNat = r ln) :
    shift h wide d a b fw fd s = .next (groupDone h d 2 (some 4) (fun ln => (r ln).toNat) s) := by
  rw [shift, if_pos hw, ← funext hr]
  exact runLanes_calm hc hu h _ _

theorem shift_word (hc : Calm s) (hu : Usable s (.of d 1 [(a, 1), (b, 1)])) (hw : wide = false) {r : Option Nat → Word}
    (hr : ∀ ln, fw (src32 s ln a) (src32 s ln b).toNat = r ln) :
    shift h wide d a b fw fd s = .next (wordDone h d (some 4) r s) := by
  rw [shift, if_neg (by simp [hw])]
  exact int2_gives hc hu hr

end Forms

/-! ## Bit fields (R102) -/

theorem nbits_extract {n : Nat} (x : BitVec n) (lo : Nat) {w : Nat} (hw : 0 < w) :
    nbits x.toNat (lo + w - 1) lo = (x.extractLsb' lo w).toNat := by
  rw [nbits, BitVec.extractLsb'_toNat, Nat.shiftRight_eq_div_pow, show lo + w - 1 + 1 - lo = w by omega]

/-- A field moved to the top and back down, the sign bit following it, is the field sign-extended. -/
theorem signExtend_field (x : Word) {p e : Nat} (he : 0 < e) (hp : p + e ≤ 32) :
    (x.extractLsb' p e).signExtend 32 = ((x >>> p) <<< (32 - e)).sshiftRight (32 - e) := by
  refine BitVec.eq_of_getLsbD_eq fun i hi => ?_
  simp only [BitVec.getLsbD_signExtend, BitVec.getLsbD_sshiftRight, BitVec.getLsbD_extractLsb', BitVec.getLsbD_shiftLeft,
    BitVec.getLsbD_ushiftRight, BitVec.msb_eq_getLsbD_last]
  by_cases hie : i < e
  · simp [hi, hie, show ¬ 32 ≤ i by omega, show 32 - e + i < 32 by omega]
  · simp [hi, hie, show ¬ 32 ≤ i by omega, show ¬ 32 - e + i < 32 by omega, show ¬ 31 < 32 - e by omega, he,
      show 31 - (32 - e) = e - 1 by omega]

/-- A field moved to the top and back down is the field zero-extended. -/
theorem zeroExtend_field (x : Word) {p e : Nat} (hp : p + e ≤ 32) :
    (x.extractLsb' p e).setWidth 32 = ((x >>> p) <<< (32 - e)) >>> (32 - e) := by
  refine BitVec.eq_of_getLsbD_eq fun i hi => ?_
  simp only [BitVec.getLsbD_setWidth, BitVec.getLsbD_extractLsb', BitVec.getLsbD_shiftLeft, BitVec.getLsbD_ushiftRight]
  by_cases hie : i < e
  · simp [hi, hie, show 32 - e + i < 32 by omega]
  · simp [hie, show ¬ 32 - e + i < 32 by omega]

theorem bfe_eq (sg : Bool) (x y : Word) :
    let pos := (y.extractLsb' 0 8).toNat
    let len := (y.extractLsb' 8 8).toNat
    bfe sg x y = if 32 ≤ pos ∨ len = 0 then 0#32
      else
        let up := 32 - min len (32 - pos)
        if sg then ((x >>> pos) <<< up).sshiftRight up else ((x >>> pos) <<< up) >>> up := by
  intro pos len
  show (if 32 ≤ pos || len == 0 then _ else _) = _
  by_cases h : 32 ≤ pos ∨ len = 0
  · rw [if_pos h, if_pos (by simpa using h)]
  · rw [if_neg h, if_neg (by simpa using h)]
    have he : 0 < min len (32 - pos) := by omega
    have hp : pos + min len (32 - pos) ≤ 32 := by omega
    show (if sg then BitVec.ofInt 32 (sextInt _ (nbits x.toNat (pos + min len (32 - pos) - 1) pos)) else BitVec.ofNat 32 _) = _
    rw [nbits_extract x pos he, sextInt_eq, BitVec.ofNat_toNat, BitVec.setWidth_eq, BitVec.ofNat_toNat]
    exact congrArg₂ (ite (sg = true)) (signExtend_field x he hp) (zeroExtend_field x hp)

/-- The mask of a field of a word. -/
theorem getLsbD_fieldMask {p e i : Nat} (hi : i < 32) :
    (BitVec.ofNat 32 ((2 ^ e - 1) * 2 ^ p)).getLsbD i = decide (p ≤ i ∧ i < p + e) := by
  rw [BitVec.getLsbD_ofNat, Nat.mul_comm, Nat.testBit_two_pow_mul, Nat.testBit_two_pow_sub_one]
  simp only [hi, decide_true, Bool.true_and, ge_iff_le, Bool.decide_and]
  by_cases hp : p ≤ i
  · simp only [hp, decide_true, Bool.true_and, decide_eq_decide]; omega
  · simp [hp]

theorem getLsbD_bfi (x y z : Word) {i : Nat} (hi : i < 32) :
    let pos := (y.extractLsb' 0 8).toNat
    let len := (y.extractLsb' 8 8).toNat
    (bfi x y z).getLsbD i = if pos ≤ i ∧ i < pos + len then x.getLsbD (i - pos) else z.getLsbD i := by
  unfold bfi
  dsimp only
  generalize (y.extractLsb' 0 8).toNat = pos
  generalize (y.extractLsb' 8 8).toNat = len
  by_cases h : 32 ≤ pos ∨ len = 0
  · rw [if_pos (by simpa using h), if_neg (by omega)]
  · have hin : (pos ≤ i ∧ i < pos + min len (32 - pos)) ↔ (pos ≤ i ∧ i < pos + len) := by omega
    have hmask : (BitVec.ofNat 32 ((2 ^ min len (32 - pos) - 1) * 2 ^ pos)).getLsbD i = decide (pos ≤ i ∧ i < pos + len) :=
      (getLsbD_fieldMask hi).trans (decide_eq_decide.mpr hin)
    rw [if_neg (by simpa using h), BitVec.getLsbD_or, BitVec.getLsbD_and, BitVec.getLsbD_and, BitVec.getLsbD_not, hmask,
      BitVec.getLsbD_shiftLeft]
    by_cases hf : pos ≤ i ∧ i < pos + len
    · simp [hi, hf, show ¬ i < pos by omega]
    · simp [hi, hf]

/-! ## Counts (R103) -/

theorem popCount_eq (w x : Nat) : popCount w x = (List.range w).countP fun i => x.testBit i := by
  induction w generalizing x with
  | zero => rfl
  | succ w ih =>
    rw [List.range_succ_eq_map, List.countP_cons, List.countP_map, popCount, ih, Nat.add_comm]
    simp only [Function.comp_def, Nat.succ_eq_add_one, Nat.testBit_succ, Nat.testBit_zero]
    rcases Nat.mod_two_eq_zero_or_one x with hx | hx <;> simp [hx]

/-- Leading zeros: the number fits in the bits that are left, and fills them. -/
theorem leading_spec {w x : Nat} (hx : x < 2 ^ w) :
    leading w x ≤ w ∧ x < 2 ^ (w - leading w x) ∧ (leading w x < w → 2 ^ (w - 1 - leading w x) ≤ x) := by
  by_cases h0 : x = 0
  · simp [leading, h0]
  · have hlog := (Nat.log2_lt h0).mpr hx
    have hl : leading w x = w - 1 - x.log2 := by simp [leading, h0, ilog2]
    rw [hl, show w - (w - 1 - x.log2) = x.log2 + 1 by omega, show w - 1 - (w - 1 - x.log2) = x.log2 by omega]
    exact ⟨by omega, Nat.lt_log2_self, fun _ => Nat.log2_self_le h0⟩

/-- Trailing zeros: the bits below are clear, and the one there is set. -/
theorem trailing_spec (w x : Nat) :
    trailing w x ≤ w ∧ x % 2 ^ trailing w x = 0 ∧ (trailing w x < w → x.testBit (trailing w x) = true) := by
  induction w generalizing x with
  | zero => simp [trailing, Nat.mod_one]
  | succ w ih =>
    obtain ⟨hle, hmod, hbit⟩ := ih (x / 2)
    rcases Nat.mod_two_eq_zero_or_one x with hx | hx
    · have ht : trailing (w + 1) x = trailing w (x / 2) + 1 := by simp [trailing, hx, Nat.add_comm]
      rw [ht]
      refine ⟨by omega, ?_, fun h => ?_⟩
      · rw [Nat.pow_succ', Nat.mod_mul, hx, hmod]
      · rw [Nat.testBit_succ]; exact hbit (by omega)
    · simp [trailing, hx, Nat.mod_one, Nat.testBit_zero]

theorem bitRev_lt (w x : Nat) : bitRev w x < 2 ^ w := by
  induction w generalizing x with
  | zero => simp [bitRev]
  | succ w ih =>
    have := ih (x / 2)
    rcases Nat.mod_two_eq_zero_or_one x with hx | hx <;> simp only [bitRev, hx, Nat.pow_succ] <;> omega

theorem testBit_bitRev {w j : Nat} (x : Nat) (hj : j < w) : (bitRev w x).testBit (w - 1 - j) = x.testBit j := by
  induction w generalizing x j with
  | zero => omega
  | succ w ih =>
    rw [bitRev, Nat.mul_comm, Nat.testBit_two_pow_mul_add _ (bitRev_lt w _)]
    cases j with
    | zero => rw [if_neg (by omega)]; simp
    | succ j =>
      rw [if_pos (by omega), show w + 1 - 1 - (j + 1) = w - 1 - j by omega, ih _ (by omega), Nat.testBit_succ]

/-- An operand of as many registers as a TYPE takes has 32 bits for each. -/
theorem srcN_lt (s : State) (ln : Option Nat) (ty : Ty) (o : Opd) : srcN s ln ty.regs o < 2 ^ (32 * ty.regs) := by
  have h1 : srcN s ln 1 o < 2 ^ 32 := (src32 s ln o).isLt
  have h2 : srcN s ln 2 o < 2 ^ 64 := (src64 s ln o).isLt
  have h4 : srcN s ln 4 o < 2 ^ 128 := (src128 s ln o).isLt
  cases ty <;> assumption

theorem count_gives {h : Hdr} {m : AMod} {d a : Opd} {s : State} (hc : Calm s) (hu : Usable s (.of d 1 [(a, m.ty.regs)]))
    {f : Nat → Nat → Nat} {r : Option Nat → Nat} (hr : ∀ ln, f (32 * m.ty.regs) (srcN s ln m.ty.regs a) = r ln) :
    count h m d a f s = .next (wordDone h d (some 4) (fun ln => BitVec.ofNat 32 (r ln)) s) := by
  rw [← funext hr]
  exact runLanes_calm hc hu h _ _

/-! ## BYTEPERM (R104) -/

theorem permByte_eq (x y z : Word) (j : Nat) :
    permByte x y z j =
      let e := z.extractLsb' (4 * j) 4
      let by_ := (y ++ x).extractLsb' (8 * (e.extractLsb' 0 3).toNat) 8
      if e.getLsbD 3 then (if by_.getLsbD 7 then 0xFF#8 else 0x00#8) else by_ := by
  have hn : nbits z.toNat (4 * j + 3) (4 * j) = (z.extractLsb' (4 * j) 4).toNat := nbits_extract z (4 * j) (w := 4) (by decide)
  unfold permByte
  rw [hn]
  generalize z.extractLsb' (4 * j) 4 = e
  have hlow : e.toNat % 8 = (e.extractLsb' 0 3).toNat := by simp [BitVec.extractLsb'_toNat]
  have hhigh : e.toNat < 8 ↔ e.getLsbD 3 = false := by revert e; decide
  dsimp only
  rw [hlow]
  by_cases hb : e.getLsbD 3 = true
  · rw [if_pos hb, if_neg (by simp [hhigh, hb])]
  · rw [if_neg hb, if_pos (by simpa [hhigh] using hb)]

theorem extract_byteperm (x y z : Word) {j : Nat} (hj : j < 4) : (byteperm x y z).extractLsb' (8 * j) 8 = permByte x y z j := by
  unfold byteperm
  interval_cases j
  · exact BitVec.extractLsb'_append_eq_right
  · rw [BitVec.extractLsb'_append_eq_of_le (by decide)]
    exact BitVec.extractLsb'_append_eq_right
  · rw [BitVec.extractLsb'_append_eq_of_le (by decide), BitVec.extractLsb'_append_eq_of_le (by decide)]
    exact BitVec.extractLsb'_append_eq_right
  · rw [BitVec.extractLsb'_append_eq_of_le (by decide), BitVec.extractLsb'_append_eq_of_le (by decide)]
    exact BitVec.extractLsb'_append_eq_left

/-- Settles O14: every shift, field and permutation bit by bit, the counts by their defining bounds. -/
theorem shiftsAndFields : Obligations.ShiftsAndFields := by
  intro h m d a b c s hc n nn x xx k v pos len
  refine ⟨fun hu => ⟨fun ht => ⟨?_, ?_, ?_, ?_⟩, fun ht => ?_⟩, fun hu => ⟨fun ht => ⟨?_, ?_, ?_, ?_⟩, fun ht => ?_, ?_⟩,
    fun hu => ⟨⟨fun ln => bfi (x ln) (src32 s ln b) (src32 s ln c), ?_, fun ln i hi => getLsbD_bfi _ _ _ hi⟩,
      ⟨fun ln => byteperm (x ln) (src32 s ln b) (src32 s ln c), ?_, fun ln j hj => (extract_byteperm _ _ _ hj).trans (permByte_eq ..)⟩⟩,
    fun hu => ⟨?_, ⟨fun ln => leading (32 * k) (v ln), ?_, fun ln => leading_spec (srcN_lt ..)⟩,
      ⟨fun ln => trailing (32 * k) (v ln), ?_, fun ln => trailing_spec ..⟩⟩,
    fun hu => ⟨fun ln => bitRev (32 * k) (v ln), ?_, fun ln j hj => testBit_bitRev _ hj⟩⟩
  · show execShl h m d a b s = _
    exact shift_pair hc hu (by simp [ht]) fun ln => shlBv_eq ..
  · show execShr h m d a b s = _
    exact shift_pair hc hu (by simp [ht]) fun ln => shrBv_eq ..
  · show execRol h m d a b s = _
    exact shift_pair hc hu (by simp [ht]) fun ln => BitVec.rotateLeft_mod_eq_rotateLeft
  · show execRor h m d a b s = _
    exact shift_pair hc hu (by simp [ht]) fun ln => BitVec.rotateRight_mod_eq_rotateRight
  · show execSar h m d a b s = _
    exact shift_pair hc hu (by simp [ht]) fun ln => sarBv_eq ..
  · show execShl h m d a b s = _
    exact shift_word hc hu (by simp [ht]) fun ln => shlBv_eq ..
  · show execShr h m d a b s = _
    exact shift_word hc hu (by simp [ht]) fun ln => shrBv_eq ..
  · show execRol h m d a b s = _
    exact shift_word hc hu (by simp [ht]) fun ln => BitVec.rotateLeft_mod_eq_rotateLeft
  · show execRor h m d a b s = _
    exact shift_word hc hu (by simp [ht]) fun ln => BitVec.rotateRight_mod_eq_rotateRight
  · show execSar h m d a b s = _
    exact shift_word hc hu (by simp [ht]) fun ln => sarBv_eq ..
  · show execBfe h m d a b s = _
    exact int2_gives hc hu fun ln => bfe_eq ..
  · show execBfi h m d a b c s = _
    exact int3_gives hc hu fun ln => rfl
  · show execByteperm h m d a b c s = _
    exact int3_gives hc hu fun ln => rfl
  · show execPopc h m d a s = _
    exact count_gives hc hu fun ln => popCount_eq ..
  · show execClz h m d a s = _
    exact count_gives hc hu fun ln => rfl
  · show execCtz h m d a s = _
    exact count_gives hc hu fun ln => rfl
  · show execBrev h m d a s = _
    exact runLanes_calm hc hu h _ _

end Sys2Proof.Machine
end

section
/-! SUPPORT. Comparisons, moves and 64-bit sums (R105 to R108), the floating-point instructions (R109 to R117) and the conversions
(R118 to R122). -/

namespace Sys2Proof.Machine

/-- An instruction with one result per lane, its results written otherwise. -/
theorem runLanes_gives {s : State} {mt : Meta} {h : Hdr} {lat : Option Nat} {f : State → Option Nat → List Wr × Flags}
    {g : Option Nat → List Wr × Flags} (hc : Calm s) (hu : Usable s mt) (hg : ∀ ln, f s ln = g ln) :
    runLanes h mt lat f s = .next (laneDone h mt.uni lat g s) := by
  rw [runLanes_calm hc hu, funext hg]

/-! ## Comparisons (R105) -/

theorem regs_one_or_two {ty : Ty} (ht : ty ≠ .b128) : ty.regs = 1 ∨ ty.regs = 2 := by
  cases ty <;> simp_all [Ty.regs]

theorem intVal_word (sg : Bool) (x : Word) : intVal 32 sg x.toNat = intOf sg x := by
  cases sg
  · exact congrArg Nat.cast (Nat.mod_eq_of_lt x.isLt)
  · simp [intVal, intOf, sextInt_eq]

theorem intVal_dword (sg : Bool) (x : Dword) : intVal 64 sg x.toNat = intOf64 sg x := by
  cases sg
  · exact congrArg Nat.cast (Nat.mod_eq_of_lt x.isLt)
  · simp [intVal, intOf64, sextInt_eq]

/-- The integer of an operand of one or two registers. -/
theorem intVal_srcN {ty : Ty} (ht : ty ≠ .b128) (sg : Bool) (s : State) (ln : Option Nat) (o : Opd) :
    intVal (32 * ty.regs) sg (srcN s ln ty.regs o) =
      if ty.regs = 1 then intOf sg (src32 s ln o) else intOf64 sg (src64 s ln o) := by
  rcases regs_one_or_two ht with hk | hk <;> rw [hk]
  · exact intVal_word ..
  · exact intVal_dword ..

theorem moviVal_eq (m : AMod) (x : Word) :
    moviVal m x = if m.ty = .u64 ∧ m.x = 1#4 then (x ++ 0#32).toNat
      else if m.ty = .s64 then (x.signExtend 64).toNat else x.toNat := by
  have happ : (x ++ 0#32).toNat = x.toNat * 2 ^ 32 := by
    rw [BitVec.toNat_append, Nat.shiftLeft_eq, BitVec.toNat_ofNat, Nat.zero_mod, Nat.or_zero]
  rw [happ]
  unfold moviVal
  by_cases hu : m.ty = .u64
  · simp [hu]
  · simp [hu]

/-- Settles O15: the exact integers of R105, R107 and R108 agree with the operations on words and pairs. -/
theorem compareMoveAndAddress : Obligations.CompareMoveAndAddress := by
  intro h m cmp d a b c i s hc k sg num ext fit
  refine ⟨fun hu ht => ?_, fun hu => ?_, fun hu => ?_, fun hu => ?_, fun hu => ?_, fun hu => ?_, fun hu => ?_⟩
  · show execIsetp h m cmp d a b s = _
    refine runLanes_gives hc hu fun ln => ?_
    rw [intVal_srcN ht, intVal_srcN ht]
    show (dstP d ln (icmp cmp (num a ln) (num b ln)), _) = _
    cases cmp <;> simp [icmp, beq_eq_decide, bne]
  · show execSel h m d a b c s = _
    exact runLanes_calm hc hu h _ _
  · show execMov h m d a s = _
    exact runLanes_calm hc hu h _ _
  · show execMovi h m d i s = _
    exact runLanes_gives hc hu fun ln => by rw [moviVal_eq]
  · show execLea h m d a b s = _
    exact runLanes_gives hc hu fun ln => by simp [ext]
  · show execIadd64 h m d a b s = _
    refine runLanes_gives hc hu fun ln => ?_
    rw [fit64_eq _ _ (show _ = src64 s ln a + src64 s ln b by rw [BitVec.ofInt_add, ofInt_intOf64, ofInt_intOf64])]
  · show execImad64 h m d a b c s = _
    refine runLanes_gives hc hu fun ln => ?_
    rw [fit64_eq]
    rw [BitVec.ofInt_add, BitVec.ofInt_mul, ofInt64_intOf, ofInt64_intOf, ofInt_intOf64]

/-! ## Floating point (R109 to R117) -/

/-- Settles O16: each instruction is its operation of R110 to R115 on the modified operands, lane by lane. -/
theorem singlePrecision : Obligations.SinglePrecision := by
  intro h m cmp d a b c s hc x y z
  refine ⟨fun hu => ⟨?_, ?_, ?_, ?_, ?_, ?_, ?_⟩, fun hu => ?_, fun hu => ⟨?_, ?_, ?_, ?_, ?_, ?_, ?_, ?_, ?_⟩⟩
  all_goals
    delta exec
    exact runLanes_calm hc hu h _ _

theorem halfFmt_eq (m : AMod) : halfFmt m = if m.ty = .bf16 then .bf16 else .f16 := by
  simp [halfFmt]

/-- A packed instruction gives both elements, each of its own operation. -/
theorem hp_gives {h : Hdr} {m : AMod} {d a b c : Opd} {f : Nat → Nat → Nat → Nat × Flags} {s : State} (hc : Calm s)
    (hu : Usable s (.of d 1 [(a, 1), (b, 1), (c, 1)])) :
    let el := fun ln k => f (hlf (halfFmt m) s ln m.nega m.absa a k) (hlf (halfFmt m) s ln m.negb false b k)
      (hlf (halfFmt m) s ln m.negc false c k)
    hp h m d a b c f s = .next (floatDone h d 1 (some 4) (fun ln => both (el ln 0) (el ln 1)) s) :=
  runLanes_calm hc hu h _ _

/-- Settles O17: as O16 on pairs, and on the two halves of a register. -/
theorem doubleAndPackedPrecision : Obligations.DoubleAndPackedPrecision := by
  intro h m cmp d a b c s hc x y z f u v w
  have hf : f = halfFmt m := (halfFmt_eq m).symm
  simp only [u, v, w, hf]
  refine ⟨fun hu => ⟨?_, ?_⟩, fun hu => ?_, fun hu => ?_, fun hu => ⟨?_, ?_⟩, fun hu => ?_⟩
  · show execDadd h m d a b s = _
    exact runLanes_calm hc hu h _ _
  · show execDmul h m d a b s = _
    exact runLanes_calm hc hu h _ _
  · show execDfma h m d a b c s = _
    exact runLanes_calm hc hu h _ _
  · show execDsetp h m cmp d a b s = _
    exact runLanes_calm hc hu h _ _
  · show execHadd2 h m d a b s = _
    exact hp_gives hc (usable_of_srcs hu (by simp))
  · show execHmul2 h m d a b s = _
    exact hp_gives hc (usable_of_srcs hu (by simp))
  · show execHfma2 h m d a b c s = _
    exact hp_gives hc hu

/-! ## Conversions (R118 to R122) -/

/-- A byte of a word at a bit position. -/
theorem byteAt_eq (x : Word) (n : Nat) : x.toNat / 2 ^ n % 256 = (x.extractLsb' n 8).toNat := by
  rw [BitVec.extractLsb'_toNat, Nat.shiftRight_eq_div_pow]

/-- Settles O19: the conversions of each lane, and the one row that CVTPK packs. -/
theorem conversions : Obligations.Conversions := by
  intro h m d a b s hc
  refine ⟨fun hu => ?_, fun hu => ?_, fun hu => ?_, fun hu => ?_⟩
  · show execCvt h m d a s = _
    exact runLanes_calm hc hu h _ _
  · show execCvtsr h m d a b s = _
    exact runLanes_calm hc hu h _ _
  · intro act bl bits
    show execCvtpk h m d a b s = _
    exact runI_ok (own := false) hc hu rfl (emitR_calm hc.pend _ _ _)
  · show execCvtup h m d a b s = _
    exact runLanes_gives hc hu fun ln => by simp only [byteAt_eq, beq_iff_eq]

end Sys2Proof.Machine
end

section
/-! SUPPORT. The lane instructions (R124 to R130): masks of lanes, folds in lane order, and the statement on them. -/

namespace Sys2Proof.Machine

section Shapes
variable {s : State} {mt : Meta} {h : Hdr} {lat : Option Nat}

/-- An instruction in lane form whose lanes read what the active ones hold. -/
theorem runI_perLane (hc : Calm s) (hu : Usable s mt) (huni : mt.uni = false) {f : Mask → State → Option Nat → List Wr × Flags}
    {g : Option Nat → List Wr × Flags} (hg : ∀ ln, f (activeMask h false s.cur) s ln = g ln) :
    runI h mt false (fun act => perLane false lat (f act) act) s = .next (laneDone h false lat g s) := by
  have hr := perLane_calm hc.pend false lat (f (activeMask h mt.uni s.cur)) (activeMask h mt.uni s.cur)
  rw [runI_ok (own := false) (body := fun act => perLane false lat (f act) act) hc hu (by simp [bodyRuns, huni]) hr, huni, funext hg]
  rfl

end Shapes

/-! ## Masks of lanes -/

theorem getLsbD_one {i j : Nat} (hj : j < 32) : (Mask.one i).getLsbD j = decide (i = j) := by
  rw [Mask.one, BitVec.getLsbD_ofNat, Nat.testBit_two_pow, decide_eq_true hj, Bool.true_and]

theorem getLsbD_below {i j : Nat} (hj : j < 32) : (BitVec.ofNat 32 (2 ^ i - 1)).getLsbD j = decide (j < i) := by
  rw [BitVec.getLsbD_ofNat, Nat.testBit_two_pow_sub_one, decide_eq_true hj, Bool.true_and]

theorem getLsbD_ofLanes {l : List Nat} {j : Nat} (hj : j < 32) : (Mask.ofLanes l).getLsbD j = decide (j ∈ l) := by
  suffices h : ∀ m : Mask, (l.foldl (fun m i => m ||| Mask.one i) m).getLsbD j = (m.getLsbD j || decide (j ∈ l)) by
    rw [Mask.ofLanes, h, BitVec.getLsbD_zero, Bool.false_or]
  induction l with
  | nil => simp
  | cons i l ih =>
    intro m
    rw [List.foldl_cons, ih, BitVec.getLsbD_or, getLsbD_one hj, Bool.or_assoc]
    simp [eq_comm]

/-- The lanes of a mask that a test picks. -/
theorem getLsbD_picked (m : Mask) (p : Nat → Bool) {j : Nat} (hj : j < 32) :
    (Mask.ofLanes (m.lanes.filter p)).getLsbD j = (m.has j && p j) := by
  rw [getLsbD_ofLanes hj]
  simp [mem_lanes]

/-- The test picks every lane. -/
theorem picked_eq_iff (m : Mask) (p : Nat → Bool) : Mask.ofLanes (m.lanes.filter p) = m ↔ m.lanes.all p = true := by
  rw [List.all_eq_true]
  constructor
  · intro h i hi
    have hb := getLsbD_picked m p (List.mem_range.mp (List.mem_filter.mp hi).1)
    rw [h, show m.getLsbD i = true from mem_lanes.mp hi, mem_lanes.mp hi] at hb
    simpa using hb.symm
  · refine fun h => BitVec.eq_of_getLsbD_eq fun j hj => ?_
    rw [getLsbD_picked m p hj]
    cases hm : m.has j with
    | true => rw [h j (mem_lanes.mpr hm)]; exact hm.symm
    | false => exact hm.symm

/-- The mask that MATCH gives for the lanes that a test picks. -/
theorem getLsbD_match (m : Mask) (p : Nat → Bool) (all : Bool) {j : Nat} (hj : j < 32) :
    (if all && Mask.ofLanes (m.lanes.filter p) != m then 0#32 else Mask.ofLanes (m.lanes.filter p)).getLsbD j =
      if all then m.has j && m.lanes.all p else m.has j && p j := by
  cases all with
  | false => exact getLsbD_picked m p hj
  | true =>
    by_cases hm : Mask.ofLanes (m.lanes.filter p) = m
    · simp [hm, (picked_eq_iff m p).mp hm, Mask.has]
    · simp [hm, mt (picked_eq_iff m p).mpr hm]

/-! ## SHFL, VOTE, XCHGB, LANEMASK (R124, R126, R129, R130) -/

theorem segWidth_eq (seg : BitVec 3) : segWidth seg = 32 >>> seg.toNat := (Nat.shiftRight_eq_div_pow ..).symm

/-- All values equal the first exactly if any two are equal. -/
theorem all_eq_head (l : List Nat) (f : Nat → Nat) :
    ((l.map f).all fun x => x == (l.map f).headD 0) = l.all fun i => l.all fun j => f i == f j := by
  cases l with
  | nil => rfl
  | cons x l =>
    rw [Bool.eq_iff_iff]
    simp only [List.all_eq_true, List.map_cons, List.headD_cons, beq_iff_eq, List.mem_cons, List.mem_map]
    constructor
    · intro h i hi j hj
      have key : ∀ k, k = x ∨ k ∈ l → f k = f x := fun k hk => h (f k) (hk.imp (congrArg f) fun hk => ⟨k, hk, rfl⟩)
      rw [key i hi, key j hj]
    · rintro h y (rfl | ⟨i, hi, rfl⟩)
      · rfl
      · exact h i (.inr hi) x (.inl rfl)

/-- A lane with the stage's bit set is the upper one of its pair. -/
theorem xchgVal_eq (s : State) (a : Opd) (n : Nat) (mk : Word) (i : Nat) :
    let word := fun i => src32 s (some i) a
    xchgVal s a (2 ^ n) mk i =
      if i.testBit n then word i ^^^ (((word (i - 2 ^ n) ^^^ (word i >>> 2 ^ n)) &&& mk) <<< 2 ^ n)
      else word i ^^^ ((word i ^^^ (word (i + 2 ^ n) >>> 2 ^ n)) &&& mk) := by
  intro word
  have hw : 0 < 2 ^ n := Nat.two_pow_pos n
  rw [Nat.testBit_eq_decide_div_mod_eq]
  unfold xchgVal
  by_cases hi : i / 2 ^ n % 2 = 1
  · have hle : 2 ^ n ≤ i := by
      by_contra hlt
      rw [Nat.div_eq_of_lt (by omega)] at hi
      omega
    simp [hi, show i - 2 ^ n + 2 ^ n = i by omega, show i ≠ i - 2 ^ n by omega, word]
  · simp [show i / 2 ^ n % 2 = 0 by omega, word]

theorem getLsbD_lanemask (op : LmOp) {i j : Nat} (hj : j < 32) :
    (lanemask op i).getLsbD j = match op with
      | .eq => decide (j = i)
      | .lt => decide (j < i)
      | .le => decide (j ≤ i)
      | .gt => decide (j > i)
      | .ge => decide (j ≥ i) := by
  cases op with
  | eq => exact (getLsbD_one hj).trans (decide_eq_decide.mpr eq_comm)
  | lt => exact getLsbD_below hj
  | le => exact (getLsbD_below hj).trans (decide_eq_decide.mpr Nat.lt_succ_iff)
  | gt =>
    rw [lanemask, BitVec.getLsbD_not, getLsbD_below hj, decide_eq_true hj, Bool.true_and, ← decide_not]
    exact decide_eq_decide.mpr (by omega)
  | ge =>
    rw [lanemask, BitVec.getLsbD_not, getLsbD_below hj, decide_eq_true hj, Bool.true_and, ← decide_not]
    exact decide_eq_decide.mpr (by omega)

/-! ## Folds (R128) -/

section Folds
variable (op : FoldOp) (ty : Ty)

/-- One step of a fold with the flags so far. -/
def foldAcc (acc : Word × Flags) (y : Word) : Word × Flags := ((foldStep op ty acc.1 y).1, acc.2 ||| (foldStep op ty acc.1 y).2)

theorem foldLanes_cons (x : Word) (l : List Word) : foldLanes op ty (x :: l) = l.foldl (foldAcc op ty) (x, 0) := rfl

theorem foldSteps_cons (acc : Word × Flags) (x : Word) (l : List Word) :
    foldSteps op ty acc (x :: l) = foldAcc op ty acc x :: foldSteps op ty (foldAcc op ty acc x) l := rfl

theorem foldSteps_eq (acc : Word × Flags) (l : List Word) :
    foldSteps op ty acc l = (List.range l.length).map fun k => (l.take (k + 1)).foldl (foldAcc op ty) acc := by
  induction l generalizing acc with
  | nil => rfl
  | cons x l ih =>
    rw [foldSteps_cons, ih, List.length_cons, List.range_succ_eq_map, List.map_cons, List.map_map]
    rfl

/-- The accumulators are the folds of the values so far. -/
theorem foldAll_eq (l : List Word) : foldAll op ty l = (List.range l.length).map fun k => foldLanes op ty (l.take (k + 1)) := by
  cases l with
  | nil => rfl
  | cons x l =>
    rw [foldAll, foldSteps_eq, List.length_cons, List.range_succ_eq_map, List.map_cons, List.map_map]
    rfl

theorem getLast_foldAll (l : List Word) : ((foldAll op ty l).getLast?).getD (foldId op ty, 0) = foldLanes op ty l := by
  rw [foldAll_eq, List.getLast?_map, List.getLast?_range]
  cases l with
  | nil => rfl
  | cons x l => simp

/-- The flags of all steps are those of the last accumulator, which has joined them. -/
theorem joinFlags_foldSteps (acc : Word × Flags) (l : List Word) :
    ((foldSteps op ty acc l).map Prod.snd).foldl (· ||| ·) acc.2 = (l.foldl (foldAcc op ty) acc).2 := by
  induction l generalizing acc with
  | nil => rfl
  | cons x l ih =>
    have hor : acc.2 ||| (foldAcc op ty acc x).2 = (foldAcc op ty acc x).2 := by
      simp only [foldAcc, ← BitVec.or_assoc, BitVec.or_self]
    rw [foldSteps_cons, List.map_cons, List.foldl_cons, hor, ih, List.foldl_cons]

theorem joinFlags_foldAll (l : List Word) : joinFlags ((foldAll op ty l).map Prod.snd) = (foldLanes op ty l).2 := by
  cases l with
  | nil => rfl
  | cons x l =>
    rw [foldAll, List.map_cons, joinFlags, List.foldl_cons, BitVec.zero_or]
    exact joinFlags_foldSteps op ty (x, 0) l

/-- What PREFIX shows: the folds of the values up to each, or before it. -/
theorem foldAll_shown (excl : Bool) (l : List Word) :
    (if excl then (foldId op ty, 0) :: foldAll op ty l else foldAll op ty l) =
      (List.range (if excl then l.length + 1 else l.length)).map fun k => foldLanes op ty (l.take (if excl then k else k + 1)) := by
  cases excl with
  | false => exact foldAll_eq ..
  | true =>
    simp only [if_true, foldAll_eq, List.range_succ_eq_map, List.map_cons, List.map_map]
    rfl

end Folds

/-- A list beside values that are given by their places. -/
theorem zip_map_range {α β : Type} (l : List α) (z : α) (g : Nat → β) {n : Nat} (hn : l.length ≤ n) :
    l.zip ((List.range n).map g) = (List.range l.length).map fun k => (l.getD k z, g k) := by
  refine List.ext_getElem (by simp [hn]) fun k h1 h2 => ?_
  simp only [List.length_zip, List.length_map, List.length_range] at h1 h2
  simp [h2]

theorem execPrefixL_gives {h : Hdr} {op : FoldOp} {excl : Bool} {ty : Ty} {d a : Opd} {s : State} (hc : Calm s)
    (hu : Usable s { srcs := [(a, 1)], dsts := [(d, 1)] }) :
    let ls := (activeMask h false s.cur).lanes
    let l := ls.map fun i => src32 s (some i) a
    execPrefixL h op excl ty d a s = .next (finished h (gives
      ((List.range ls.length).flatMap fun k => dst32 d (some (ls.getD k 0)) (foldLanes op ty (l.take (if excl then k else k + 1))).1)
      (foldLanes op ty l).2 (if ty = .f32 then some 18 else some 10) s)) := by
  intro ls l
  have hlen : ls.length ≤ if excl then l.length + 1 else l.length := by
    split <;> simp [l]
  refine runI_ok (own := false) hc hu rfl ((emitR_calm hc.pend _ _ _).trans ?_)
  simp only [foldAll_shown, joinFlags_foldAll, latFold, beq_iff_eq]
  rw [zip_map_range ls 0 _ hlen, List.flatMap_map]

/-- Settles O20: the lane forms lane by lane, the others over the mask of the lanes that take part. -/
theorem laneInstructions : Obligations.LaneInstructions := by
  intro h so vo fo lo al ex seg xs ty d a b c s hc act isTrue val word
  refine ⟨fun hu hseg => ?_, fun hu => ⟨⟨fun m => Mask.ofLanes (m.lanes.filter isTrue), ?_, fun m i hi => getLsbD_picked m isTrue hi⟩, ?_⟩,
    fun hu => ?_, fun hu => ⟨fun ln =>
      let same := Mask.ofLanes (act.lanes.filter fun j => val j == srcN s ln ty.regs a)
      if al && same != act then 0#32 else same, ?_, fun i j hi hj => ?_⟩, fun hu => ?_, fun hu hxs => ?_,
    fun hu => ⟨fun ln => lanemask lo (ln.getD 0), ?_, fun i j hi hj => getLsbD_lanemask lo hj⟩⟩
  · show execShfl h so seg ty d a b c s = _
    refine runI_perLane hc hu rfl fun ln => ?_
    simp only [segWidth_eq, Nat.div_mul_self_eq_mod_sub_self]
    cases so <;> rfl
  · show execBallot h d a s = _
    exact runI_cohDone hc hu rfl fun m => rfl
  · show execRedux h fo ty d a s = _
    refine runI_cohDone hc hu rfl fun m => ?_
    rw [← getLast_foldAll, latFold]
    simp only [beq_iff_eq]
    rfl
  · show execVote h vo ty d a s = _
    refine runI_cohDone hc hu rfl fun m => ?_
    refine congrArg (fun v => emitR (dstP d none v) 0 (some 4) s) ?_
    cases vo with
    | all => rfl
    | any => rfl
    | uni =>
      have hbit : ∀ p q : Bool, ((if p then 1 else 0 : Nat) == if q then 1 else 0) = (p == q) := by decide
      rw [voteVal, all_eq_head]
      cases a with
      | p r => simp only [hbit]; rfl
      | _ => rfl
  · show execMatchL h al ty d a s = _
    exact runI_perLane hc hu rfl fun ln => rfl
  · exact getLsbD_match act (fun k => val k == val i) al hj
  · show execPrefixL h fo ex ty d a s = _
    exact execPrefixL_gives hc hu
  · show execXchgb h xs d a b s = _
    exact runI_perLane hc hu rfl fun ln => by rw [xchgVal_eq]
  · show execLanemask h lo d s = _
    exact runLanes_calm hc hu h _ _

end Sys2Proof.Machine
end

section
/-! SUPPORT. REORDER (R131, R132): the next state that it answers, and why it is not the one that the statement names. -/

namespace Sys2Proof.Machine

/-- REORDER that nothing stops: every result is written (R132), the registers of the active lanes move, and the cohort's next issue
waits for what parked requests owe, as after any write of all results. -/
theorem reorder_next {h : Hdr} {strict : Bool} {d a : Opd} {s : State} (hc : Calm s)
    (hu : Usable s { srcs := [(a, 1)], dsts := [(d, 1)] }) (hw : s.cur.x.win = none)
    (hs : ¬ (strict = true ∧ (s.cur.slotLanes ||| s.cur.stackLanes) &&& ~~~(activeMask h false s.cur) ≠ 0#32))
    (ho : owed s s.cur.pl.id = false) :
    let act := activeMask h false s.cur
    let mv := act.lanes.zip (sortLanes (fun i => (src32 s (some i) a).toNat) act.lanes)
    exec (.reorder h strict d a) s = .next (finished h (gives (mv.flatMap fun e => dst32 d (some e.1) (BitVec.ofNat 32 e.2)) 0 none
      ((holding s).updR (permute mv)))) := by
  intro act mv
  show execReorder h strict d a s = _
  refine runI_ok (own := false) hc hu rfl ?_
  have hstrict : (strict && (s.cur.slotLanes ||| s.cur.stackLanes) &&& ~~~act != 0#32) = false := by simpa [act] using hs
  rw [if_neg (by simp [hw]), if_neg (by rw [hstrict]; exact Bool.false_ne_true), if_neg (by simp [ho])]
  have hdrain : (s.updCur fun c => { c.drain with r := permute mv c.drain.r }) = (holding s).updR (permute mv) := by
    simp [State.updCur, State.updR, State.updC, drain_nil hc.pend]
  show emitR _ 0 none (s.updCur fun c => { c.drain with r := permute mv c.drain.r }) = _
  rw [hdrain]
  exact emitR_calm (s := (holding s).updR (permute mv)) hc.pend _ _ _

/-- Without SW an instruction's end leaves whether the cohort waits for owed results. -/
theorem finished_hold {h : Hdr} (hsw : h.sc.sw = false) (s : State) : (finished h s).cur.c.hold = s.cur.c.hold := by
  simp only [finished, retire, tick_cur, State.updCur, hsw, Bool.false_eq_true, if_false, advancePc, Cohort.setPart]
  split <;> rfl

/-- Two lanes of a cohort with the keys 5 and 2 in V12. -/
def reorderState : State :=
  { State.reset with
    cur := ⟨true, .reset, { Regs.reset with vregs := 64, v := [(12 * 32, 5#32), (12 * 32 + 1, 2#32)] },
      { Ctl.reset with a := some ⟨true, Pc.mk 5 1 2, 3#32, false⟩ }, .reset⟩ }

/-- Refutes O21: REORDER writes every result first (R132), which leaves the cohort waiting before its next issue for results that are
owed (`hold`), whereas the statement's next state is that of an instruction that only replaces the registers. The flag shows on a
cohort with two active lanes. -/
theorem not_reorderSortsActiveLanes : ¬ Obligations.ReorderSortsActiveLanes := by
  intro hall
  let h : Hdr := ⟨⟨false, 7#3⟩, ⟨false, 0#2, 0#3⟩⟩
  have hc : Calm reorderState := ⟨rfl, rfl, rfl, rfl, rfl⟩
  have hu : Usable reorderState { srcs := [(.v 12, 1)], dsts := [(.v 20, 1)] } := ⟨rfl, rfl, fun hp => hp⟩
  obtain ⟨order, regs, -, -, hexec, -⟩ := (hall h false (.v 20) (.v 12) reorderState hc hu rfl).2 (by simp) rfl
  rw [reorder_next hc hu rfl (by simp) rfl, Host.Outcome.next.injEq] at hexec
  have hhold : (finished h _).cur.c.hold = (finished h _).cur.c.hold := congrArg (fun t : State => t.cur.c.hold) hexec
  rw [finished_hold rfl, finished_hold rfl] at hhold
  exact Bool.noConfusion hhold

end Sys2Proof.Machine
end
